-- ==== Sys2Proof/Word.lean ====
section
/-! DEFINITION. The word types of the C96 and their plainest arithmetic (spec R8, R91). -/

namespace Sys2Proof

/-- A scalar register, a queue entry, a CSR (R91). -/
abbrev Word := BitVec 64

/-- One byte of memory. -/
abbrev Byte := BitVec 8

/-- A 32-bit word of an accumulator tile, an FP32 or INT32 image (R108). -/
abbrev Word32 := BitVec 32

/-- A vector, operand-file, scale register or the last-result latch: 512 bytes, byte 0 lowest (R8, R91). -/
abbrev VReg := BitVec 4096

/-- The 1,024 words of an accumulator tile, element (i, j) at word 32i + j (R108). -/
abbrev TileWords := BitVec 32768

/-- The 32 rows of 192 bytes of a stationary latch (R110). -/
abbrev LatchRows := BitVec 49152

/-- Bits `hi` down to `lo` of a natural number, as the spec writes x<hi:lo> (R8). -/
def bits (n lo width : Nat) : Nat := n / 2 ^ lo % 2 ^ width

end Sys2Proof
end

