-- ==== Sys2Proof/Syntax.lean ====
section
/-! DEFINITION. The operations of the C96: operand forms of the slot layouts (R191 to R202) and the one inductive
`Instr`, with one constructor per row of the opcode table: the slot operations of R203 to R209 and the device steps. -/

namespace Sys2Proof

/-- The fields of bits 4:0 that every slot word has: guard invert, guard select, sync bit (R191). -/
structure Common where
  s  : Bool
  gs : Fin 8
  gi : Bool
deriving DecidableEq, Repr

/-- A scalar source (R193). -/
inductive Src where
  | x (n : Fin 32)
  | q (n : Fin 16)
  | mq (n : Fin 4)
  | lit
deriving DecidableEq, Repr

/-- A scalar destination (R194). -/
inductive Dst where
  | x (n : Fin 32)
  | q
  | mq (n : Fin 4)
deriving DecidableEq, Repr

/-- The literal word that follows a slot whose L bit is set (R190). -/
abbrev Lit := Option (BitVec 32)

/-- The four operand levels (R195, R99). -/
inductive Level where
  | main | opf | latch | special
deriving DecidableEq, Repr

/-- A 13-bit vector operand field (R195). -/
structure VOp where
  lvl : Level
  idx : Fin 2048
deriving DecidableEq, Repr

/-- The kinds of a matrix operand field (R196): vector group, scratchpad, pattern, Mantel (A) or latch (B). -/
inductive MKind where
  | group | sp | pat | store
deriving DecidableEq, Repr

/-- A 13-bit matrix operand field (R196). -/
structure MOp where
  kind : MKind
  idx  : Fin 2048
deriving DecidableEq, Repr

/-- The storage formats (R52). -/
inductive Fmt where
  | fp32 | bf16 | fp16 | e4m3 | e5m2 | e2m3 | e3m2 | e2m1 | int8 | int4g
  | mxe4m3 | mxe5m2 | mxe2m3 | mxe3m2 | mxe2m1 | mxi8
  | bx2 | bx3 | bx4 | bx5 | bx6 | bx7 | bx8
  | int32 | b8qs | b8qn
deriving DecidableEq, Repr

/-- Scopes of ACQ, REL and FENCE (R153). -/
inductive Scope where
  | context | core | cluster | die | device | system
deriving DecidableEq, Repr

/-- Rounding modes (R65, field RM of R201). -/
inductive RMode where
  | rne | rtz | sr
deriving DecidableEq, Repr

/-- The Flue's functions (R89). -/
inductive FnCode where
  | exp2 | log2 | rcp | rsqrt | sqrt | tanh | sigm | silu | gelu | erf | sinpi | cospi
deriving DecidableEq, Repr

/-- Semirings (R83). -/
inductive Semiring where
  | plusTimes | maxPlus | minPlus | orAnd
deriving DecidableEq, Repr

/-- Conditions of CMP (R221). -/
inductive Cond where
  | eq | ne | lt | ge | ltn | gen | tst | ntst
deriving DecidableEq, Repr

/-- Conditions of BRC (R230). -/
inductive BCond where
  | eqz | nez | ltz | gez | gtz | lez
deriving DecidableEq, Repr

/-- Barrier scopes (R197, R240). -/
inductive BScope where
  | cluster | die | launch
deriving DecidableEq, Repr

/-- Handle states (R121). -/
inductive HState where
  | free | filling | full | draining
deriving DecidableEq, Repr

/-- Widths of SEXT and ZEXT (R222). -/
inductive ExtW where
  | w8 | w16 | w32
deriving DecidableEq, Repr

/-- GREAD field selectors (R197). -/
inductive GField where
  | base | cnt | stp | idx | bnd | attr
deriving DecidableEq, Repr

/-- Reduction operations (R291). -/
inductive RedOp where
  | add | max | min
deriving DecidableEq, Repr

/-- Reduction formats (R291). -/
inductive RedFmt where
  | f32 | bf16 | f16 | i32
deriving DecidableEq, Repr

/-- Page sizes of TLBI and XINV (R250). -/
inductive PSize where
  | k4 | k64 | m2 | g1
deriving DecidableEq, Repr

/-- Scopes of TLBI (R250). -/
inductive TScope where
  | core | cluster | die | device
deriving DecidableEq, Repr

/-- Kinds of PSETD (R322). -/
inductive PKind where
  | diag | perm | onehot
deriving DecidableEq, Repr

/-- The control and status registers (R226). -/
inductive CsrName where
  | bix | cyc | mode | vallot | rbase | ldepth | rpos | nstat | cstat | mqdst | guard | lse | srseed | srctr
  | epscl | epclp | bimlim | occ | dlen | lpass | gcid | lcid | codebase | wsstl
  | chstl (n : Fin 4) | mbser | bkt (n : Fin 16) | hctx | tsw (n : Fin 4)
deriving DecidableEq, Repr

/-! Forms of the S0 and S1 slots (R197). -/

/-- Form R: D, SA, SB. -/
structure FR where
  c : Common
  lit : Lit
  d : Dst
  a : Src
  b : Src
deriving DecidableEq, Repr

/-- Form R with SB zero. -/
structure FR1 where
  c : Common
  lit : Lit
  d : Dst
  a : Src
deriving DecidableEq, Repr

/-- Form R with SA only. -/
structure FRa where
  c : Common
  lit : Lit
  a : Src
deriving DecidableEq, Repr

/-- Form R with the width in F2 (SEXT, ZEXT). -/
structure FExt where
  c : Common
  lit : Lit
  d : Dst
  a : Src
  w : ExtW
deriving DecidableEq, Repr

/-- LIH: the literal is its SB (R222). -/
structure FLih where
  c : Common
  imm : BitVec 32
  d : Dst
  a : Src
deriving DecidableEq, Repr

/-- Form C (CMP). -/
structure FC where
  c : Common
  lit : Lit
  bd : Fin 8
  a : Src
  b : Src
  cond : Cond
deriving DecidableEq, Repr

/-- Form L (SEL). -/
structure FSel where
  c : Common
  lit : Lit
  dx : Fin 32
  bs : Fin 8
  a : Src
  b : Src
deriving DecidableEq, Repr

/-- The immediate of LI: i14 in the slot word, or the literal (R222). -/
inductive LiImm where
  | i14 (v : BitVec 14)
  | lit (v : BitVec 32)
deriving DecidableEq, Repr

/-- Form I (LI). -/
structure FI where
  c : Common
  d : Dst
  imm : LiImm
deriving DecidableEq, Repr

/-- Form G (GAND, GOR). -/
structure FG where
  c : Common
  bd : Fin 8
  ba : Fin 8
  na : Bool
  bb : Fin 8
  nb : Bool
deriving DecidableEq, Repr

/-- Form G with BB and NB zero (GNOT). -/
structure FG1 where
  c : Common
  bd : Fin 8
  ba : Fin 8
  na : Bool
deriving DecidableEq, Repr

/-- Form A (GSET). -/
structure FA where
  c : Common
  lit : Lit
  gn : Fin 16
  dim : Fin 6
  a : Src
  b : Src
deriving DecidableEq, Repr

/-- Form A with BI and DIM zero (GBASE). -/
structure FAb where
  c : Common
  lit : Lit
  gn : Fin 16
  a : Src
  b : Src
deriving DecidableEq, Repr

/-- Form A with only GN used (GSTEP). -/
structure FAg where
  c : Common
  gn : Fin 16
deriving DecidableEq, Repr

/-- Form Q (GREAD). -/
structure FQ where
  c : Common
  d : Dst
  gn : Fin 16
  dim : Fin 6
  fs : GField
deriving DecidableEq, Repr

/-- Form X (CSRW, CSRS, CSRC). -/
structure FX where
  c : Common
  lit : Lit
  d : Dst
  a : Src
  csr : CsrName
deriving DecidableEq, Repr

/-- Form X with SA zero (CSRR). -/
structure FXr where
  c : Common
  d : Dst
  csr : CsrName
deriving DecidableEq, Repr

/-- Form J without a destination (BR): the literal is the offset. -/
structure FJ where
  c : Common
  off : BitVec 32
deriving DecidableEq, Repr

/-- Form J with a destination (CALL). -/
structure FJd where
  c : Common
  off : BitVec 32
  d : Dst
deriving DecidableEq, Repr

/-- Form K (BRC). -/
structure FK where
  c : Common
  off : BitVec 32
  a : Src
  cond : BCond
deriving DecidableEq, Repr

/-- The counts of LOOP: from x(SA) on, or the literal (R232). -/
inductive LoopCnt where
  | regs (sa : Fin 32) (nd : Fin 6)
  | lit (v : BitVec 32)
deriving DecidableEq, Repr

/-- Form P (LOOP). -/
structure FP where
  c : Common
  cnt : LoopCnt
  bl : Fin 16
deriving DecidableEq, Repr

/-- Form Z. -/
structure FZ where
  c : Common
deriving DecidableEq, Repr

/-- Form N (GROW, SHRINK). -/
structure FN where
  c : Common
  n : Fin 32
deriving DecidableEq, Repr

/-- Form B (barriers). -/
structure FB where
  c : Common
  bsc : BScope
  bn : Fin 64
deriving DecidableEq, Repr

/-- Form W (WAITH). -/
structure FW where
  c : Common
  h : Fin 64
  hs : HState
deriving DecidableEq, Repr

/-- Form Y (WAITQ): `ne1` is NE − 1. -/
structure FY where
  c : Common
  mq : Fin 4
  ne1 : Fin 16
deriving DecidableEq, Repr

/-- Form T (TRAP). -/
structure FT where
  c : Common
  code : BitVec 8
deriving DecidableEq, Repr

/-- TLBI (R203). -/
structure FTlbi where
  c : Common
  lit : Lit
  a : Src
  b : Src
  size : PSize
  scope : TScope
deriving DecidableEq, Repr

/-! Forms of the LD and ST slots (R198). -/

/-- Form M without an index vector. -/
structure FM where
  c : Common
  vd : VOp
  fmt : Fmt
  t : Bool
  nrow : Fin 32
  nu : Fin 32
  gn : Fin 16
deriving DecidableEq, Repr

/-- Form M with an index vector (LDG). -/
structure FMx where
  c : Common
  vd : VOp
  vx : VOp
  fmt : Fmt
  nrow : Fin 32
  nu : Fin 32
  gn : Fin 16
deriving DecidableEq, Repr

/-- Form S of LDS. -/
structure FLds where
  c : Common
  d : Fin 32
  a : Src
  off : BitVec 16
  sz : Fin 4
  sp : Bool
  strm : Fin 16
deriving DecidableEq, Repr

/-- Form S of STS. -/
structure FSts where
  c : Common
  a : Src
  b : Src
  off : BitVec 16
  sz : Fin 4
  sp : Bool
  strm : Fin 16
deriving DecidableEq, Repr

/-- Form S of TOUCH and TOUCHW. -/
structure FTouch where
  c : Common
  a : Src
  b : Src
  off : BitVec 16
deriving DecidableEq, Repr

/-- Form S of PRF. -/
structure FPrf where
  c : Common
  a : Src
  b : Src
  off : BitVec 16
  sp : Bool
deriving DecidableEq, Repr

/-- Form S of ACQ; `w64` is SZ. -/
structure FAcq where
  c : Common
  d : Fin 32
  a : Src
  off : BitVec 16
  w64 : Bool
  sp : Bool
  strm : Fin 16
  scp : Scope
deriving DecidableEq, Repr

/-- Form S of REL; `k` is the first range register. -/
structure FRel where
  c : Common
  a : Src
  b : Src
  w64 : Bool
  sp : Bool
  strm : Fin 16
  scp : Scope
  nr : Fin 9
  rsp : Bool
  k : Fin 32
deriving DecidableEq, Repr

/-- Form S of FENCE. -/
structure FFence where
  c : Common
  mask : BitVec 16
  scp : Scope
deriving DecidableEq, Repr

/-- Form S with D only (WSPHASE). -/
structure FSd where
  c : Common
  d : Fin 32
deriving DecidableEq, Repr

/-- Form S with SA only (SPFREE). -/
structure FSa where
  c : Common
  a : Src
deriving DecidableEq, Repr

/-- Form S with SA and SB (MBOX). -/
structure FSab where
  c : Common
  a : Src
  b : Src
deriving DecidableEq, Repr

/-- Form S of SPALLOC. -/
structure FSpalloc where
  c : Common
  d : Fin 32
  lsize : Fin 32
  skew : Bool
deriving DecidableEq, Repr

/-- Form S of the atomics. -/
structure FAtom where
  c : Common
  d : Fin 32
  a : Src
  b : Src
  off : BitVec 16
  w64 : Bool
  sp : Bool
  strm : Fin 16
deriving DecidableEq, Repr

/-- Form S of ACAS, with its comparand. -/
structure FAcas where
  c : Common
  d : Fin 32
  a : Src
  b : Src
  cmp : Src
  off : BitVec 16
  w64 : Bool
  sp : Bool
  strm : Fin 16
deriving DecidableEq, Repr

/-- Form V (routing counters). -/
structure FEc where
  c : Common
  v : VOp
  eb : Fin 256
  en : Fin 256
deriving DecidableEq, Repr

/-! Forms of the CP slot (R199, R274). -/

/-- The fields common to the copy starts with a source. -/
structure FCpy where
  c : Common
  ch : Fin 4
  gs : Fin 16
  gd : Fin 16
  hd : Option (Fin 64)
  hs : Option (Fin 64)
  esz : Fin 8
deriving DecidableEq, Repr

/-- CPYG: the index list or block table, the request tag, and the mode. -/
structure FCpyg where
  cp : FCpy
  gx : Fin 16
  sx : Src
  blk : Option (Fin 16)
deriving DecidableEq, Repr

/-- CPYS and CPYD: a copy with an auxiliary generator. -/
structure FCpyx where
  cp : FCpy
  gx : Fin 16
deriving DecidableEq, Repr

/-- CPYR: operation and format. -/
structure FCpyr where
  cp : FCpy
  op : RedOp
  fmt : RedFmt
deriving DecidableEq, Repr

/-- COLL: operation, format and group. -/
structure FColl where
  cp : FCpy
  op : RedOp
  fmt : RedFmt
  sx : Src
deriving DecidableEq, Repr

/-- CPFILL. -/
structure FCpfill where
  c : Common
  ch : Fin 4
  gd : Fin 16
  hd : Option (Fin 64)
  esz : Fin 8
  sx : Src
deriving DecidableEq, Repr

/-- CPMARK. -/
structure FCpmark where
  c : Common
  ch : Fin 4
  hd : Option (Fin 64)
deriving DecidableEq, Repr

/-- HSET. -/
structure FHset where
  c : Common
  hd : Fin 64
  lsize : Fin 32
  sx : Src
deriving DecidableEq, Repr

/-- HDRAIN, HFREE. -/
structure FH where
  c : Common
  hd : Fin 64
deriving DecidableEq, Repr

/-- HQ. -/
structure FHq where
  c : Common
  hd : Fin 64
  d : Fin 32
deriving DecidableEq, Repr

/-- HWAIT. -/
structure FHwait where
  c : Common
  hd : Fin 64
  st : HState
deriving DecidableEq, Repr

/-! Forms of the MX slot (R200, R207). -/

/-- MM, MMZ, MMP. -/
structure FMm where
  c : Common
  acc : Fin 64
  a : MOp
  b : MOp
  af : Fmt
  bf : Fmt
  scr : Fin 16
  sr : Semiring
  t : Bool
  g : Bool
deriving DecidableEq, Repr

/-- MMD. -/
structure FMmd where
  c : Common
  acc : Fin 64
  a : MOp
  d : VOp
  af : Fmt
  bf : Fmt
  scr : Fin 16
  sr : Semiring
  t : Bool
  g : Bool
deriving DecidableEq, Repr

/-- MMT. -/
structure FMmt where
  c : Common
  acc : Fin 64
  a : MOp
  p : Fin 16
  af : Fmt
  sr : Semiring
  t : Bool
  g : Bool
deriving DecidableEq, Repr

/-- OUTER. -/
structure FOuter where
  c : Common
  acc : Fin 64
  va : VOp
  vb : VOp
  af : Fmt
  bf : Fmt
  g : Bool
deriving DecidableEq, Repr

/-- LATCH. -/
structure FLatch where
  c : Common
  k : Fin 4
  v : Fin 2048
deriving DecidableEq, Repr

/-- ACLR. -/
structure FAcc where
  c : Common
  acc : Fin 64
deriving DecidableEq, Repr

/-- AMOV. -/
structure FAmov where
  c : Common
  ad : Fin 64
  as : Fin 64
deriving DecidableEq, Repr

/-- ASCALE. -/
structure FAscale where
  c : Common
  acc : Fin 64
  a : Src
deriving DecidableEq, Repr

/-- ANORM2, AMAXABS: `n1` is tiles − 1. -/
structure FNorm where
  c : Common
  acc : Fin 64
  d : Fin 32
  n1 : Fin 64
deriving DecidableEq, Repr

/-- BIM.STAGE. -/
structure FBimStage where
  c : Common
  acc : Fin 64
  ac : Fin 64
  n1 : Fin 64
  g : Bool
deriving DecidableEq, Repr

/-- BIM.MARK. -/
structure FBimMark where
  c : Common
  acc : Fin 64
  n1 : Fin 64
deriving DecidableEq, Repr

/-! Forms of the FL slot (R201). -/

/-- The epilogue fields of the F form. -/
structure Epi where
  df : Fmt
  rm : RMode
  prop : Bool
  g : Bool
  se : Bool
  ce : Bool
  fn : Option FnCode
deriving DecidableEq, Repr

/-- DRAIN, with its bias vector. -/
structure FDrain where
  c : Common
  acc : Fin 64
  vd : VOp
  e : Epi
  vb : Option VOp
deriving DecidableEq, Repr

/-- DRAINR, DRAINC: `rc` is the row or column. -/
structure FDrainR where
  c : Common
  acc : Fin 64
  vd : VOp
  e : Epi
  rc : Fin 32
deriving DecidableEq, Repr

/-- DRAINQ: `scn` receives the block scales. -/
structure FDrainQ where
  c : Common
  acc : Fin 64
  vd : VOp
  e : Epi
  scn : Fin 16
deriving DecidableEq, Repr

/-- ARGSEL, BIM.COMMIT. -/
structure FFa where
  c : Common
  acc : Fin 64
  vd : VOp
deriving DecidableEq, Repr

/-- TRUST1. -/
structure FTrust1 where
  c : Common
  acc : Fin 64
  vd : VOp
  vb : VOp
  g : Bool
deriving DecidableEq, Repr

/-- The V form with both formats (CVT, CLAMPV, SCALEV, Q8B, DQ8B, QMX, DQMX, UPD). -/
structure FV where
  c : Common
  vd : VOp
  vs : VOp
  nr : Fin 64
  sf : Fmt
  df : Fmt
  rm : RMode
  prop : Bool
deriving DecidableEq, Repr

/-- The V form of FN. -/
structure FVfn where
  v : FV
  fn : FnCode
deriving DecidableEq, Repr

/-- RNG. -/
structure FRng where
  c : Common
  vd : VOp
  nr : Fin 64
  int : Bool
deriving DecidableEq, Repr

/-- NORMV. -/
structure FNormv where
  c : Common
  vd : VOp
  vs : VOp
  nr : Fin 64
  sf : Fmt
deriving DecidableEq, Repr

/-- PSUM, TRUST2, CLIPG. -/
structure FVn where
  c : Common
  vd : VOp
  vs : VOp
  nr : Fin 64
deriving DecidableEq, Repr

/-- SAMPD. -/
structure FSampd where
  c : Common
  vd : VOp
  vs : VOp
deriving DecidableEq, Repr

/-! Forms of the SC slot (R209). -/

/-- LSC. -/
structure FLsc where
  c : Common
  scn : Fin 16
  gn : Fin 16
  two : Bool
deriving DecidableEq, Repr

/-- SCSET. -/
structure FScset where
  c : Common
  scn : Fin 16
  woff : Fin 64
  a : Src
deriving DecidableEq, Repr

/-- PSET. -/
structure FPset where
  c : Common
  pn : Fin 16
  a : Src
  b : Src
deriving DecidableEq, Repr

/-- PSETD. -/
structure FPsetd where
  c : Common
  pn : Fin 16
  vs : VOp
  kc : PKind
deriving DecidableEq, Repr

/-- PSETT. -/
structure FPsett where
  c : Common
  pn : Fin 16
  tt : Fin 8
  a : Src
deriving DecidableEq, Repr

/-- SETLS with an immediate. -/
structure FSetls where
  c : Common
  lse : BitVec 7
deriving DecidableEq, Repr

/-- SC instructions with SA only (SETLS from a register, SRSEED, SRCTRSET, BIMLIM). -/
structure FSca where
  c : Common
  a : Src
deriving DecidableEq, Repr

/-- TTNEW. -/
structure FTta where
  c : Common
  tt : Fin 8
  a : Src
deriving DecidableEq, Repr

/-- TTADD. -/
structure FTtadd where
  c : Common
  tt : Fin 8
  a : Src
  b : Src
deriving DecidableEq, Repr

/-- TTPOS, TTPRUNE. -/
structure FTtv where
  c : Common
  tt : Fin 8
  vd : VOp
deriving DecidableEq, Repr

/-- TTCHK. -/
structure FTtchk where
  c : Common
  tt : Fin 8
  bd : Fin 8
  a : Src
deriving DecidableEq, Repr

/-- TTGEN. -/
structure FTt where
  c : Common
  tt : Fin 8
deriving DecidableEq, Repr

/-! Parameters of the device steps. -/

/-- A barrier of a launch: its scope, its unit (virtual cluster, die group or 0) and its number (R240). -/
structure BarId where
  scope : BScope
  unit : Nat
  bn : Fin 64
deriving DecidableEq, Repr

/-- The tag sweepers (R465): one per die's DRAM and one per cluster's scratchpad. -/
inductive SweepUnit where
  | die (d : Fin 4)
  | cluster (c : Fin 32)
deriving DecidableEq, Repr

/-- The structures that carry SECDED or on-die ECC (R483). -/
inductive EccUnit where
  | vector (ctx : Fin 1024) (i : Nat)
  | operand (core : Fin 256) (i : Nat)
  | latch (core : Fin 256) (i : Nat)
  | scale (core : Fin 256) (i : Nat)
  | lastLatch (core : Fin 256)
  | tile (core : Fin 256) (i : Nat)
  | scratch (cluster : Fin 32) (granule : Nat)
  | dram (granule : Nat)
  | mantel (die : Fin 4) (bank : Fin 64)
  | tag (granule : Nat)
  | scratchTag (cluster : Fin 32) (granule : Nat)
deriving DecidableEq, Repr

/-- A host access: to device memory over CXL.mem (R473), or of the host to its own memory, with which the device is coherent
(R474). -/
inductive HostAcc where
  | read (hdm : Nat) (n : Nat)
  | write (hdm : Nat) (bytes : List Byte) (poison : Bool)
  | hostRead (addr : Nat) (n : Nat)
  | hostWrite (addr : Nat) (bytes : List Byte)
deriving DecidableEq, Repr

/-- A link that calibrates: a Viaduct port, or a Trestle bridge between two dies (R482). -/
inductive Link where
  | port (n : Fin 16)
  | trestle (a b : Fin 4)
deriving DecidableEq, Repr

/-- What the translation-root registers are (R446). -/
inductive XReg where
  | xroot | xasid
deriving DecidableEq, Repr

/-- What the partition-configuration registers are (R469, R470). -/
inductive PReg where
  | pcfg | wsmask (d : Fin 4)
deriving DecidableEq, Repr

/-- The operations and events of the C96: one constructor per row of the opcode table. -/
inductive Instr where
  -- S0 and S1 slots (R203)
  | add (f : FR) | sub (f : FR) | mul (f : FR) | mulh (f : FR) | mulhn (f : FR)
  | div (f : FR) | divn (f : FR) | rem (f : FR) | remn (f : FR)
  | and (f : FR) | or (f : FR) | xor (f : FR) | andn (f : FR)
  | shl (f : FR) | shr (f : FR) | sar (f : FR) | rol (f : FR)
  | clz (f : FR1) | ctz (f : FR1) | popc (f : FR1)
  | min (f : FR) | max (f : FR) | minn (f : FR) | maxn (f : FR)
  | cmp (f : FC) | sel (f : FSel) | mov (f : FR1) | li (f : FI) | lih (f : FLih)
  | sext (f : FExt) | zext (f : FExt) | gand (f : FG) | gor (f : FG) | gnot (f : FG1)
  | gset (f : FA) | gsetE (f : FA) | gbase (f : FAb) | gstep (f : FAg) | gread (f : FQ)
  | csrr (f : FXr) | csrw (f : FX) | csrs (f : FX) | csrc (f : FX)
  | br (f : FJ) | brc (f : FK) | brx (f : FRa) | call (f : FJd) | ret (f : FRa)
  | loop (f : FP) | loopx (f : FZ) | rot (f : FZ) | ldepthset (f : FRa)
  | grow (f : FN) | shrink (f : FN) | bara (f : FB) | barw (f : FB) | bar (f : FB)
  | waith (f : FW) | waitq (f : FY) | yield (f : FZ) | halt (f : FZ) | trap (f : FT)
  | seqsel (f : FR1) | admitReq (f : FR1) | retire (f : FR1)
  | tret (f : FZ) | tlbi (f : FTlbi) | ctxl (f : FRa)
  -- LD slot (R204)
  | ldt (f : FM) | ldtm (f : FM) | lds (f : FLds) | ldw (f : FM) | ldl (f : FM) | ldo (f : FM) | ldg (f : FMx)
  | touch (f : FTouch) | touchw (f : FTouch) | acq (f : FAcq) | prf (f : FPrf) | wsphase (f : FSd)
  -- ST slot (R205)
  | stt (f : FM) | sttm (f : FM) | sts (f : FSts) | rel (f : FRel) | fence (f : FFence)
  | spalloc (f : FSpalloc) | spfree (f : FSa) | mbox (f : FSab) | ecInc (f : FEc) | ecSnap (f : FEc)
  | aadd (f : FAtom) | amin (f : FAtom) | amax (f : FAtom) | aminn (f : FAtom) | amaxn (f : FAtom)
  | aand (f : FAtom) | aor (f : FAtom) | axor (f : FAtom) | aswp (f : FAtom) | acas (f : FAcas)
  -- CP slot (R206)
  | cpy (f : FCpy) | cpyg (f : FCpyg) | cpys (f : FCpyx) | cpyxPack (f : FCpy) | cpyxUnpack (f : FCpy)
  | cpyf (f : FCpy) | cpyd (f : FCpyx) | cpyr (f : FCpyr) | coll (f : FColl) | cpfill (f : FCpfill)
  | hset (f : FHset) | hdrain (f : FH) | hfree (f : FH) | hq (f : FHq) | hwait (f : FHwait) | cpmark (f : FCpmark)
  -- MX slot (R207)
  | mm (f : FMm) | mmz (f : FMm) | mmp (f : FMm) | mmd (f : FMmd) | mmt (f : FMmt) | outer (f : FOuter)
  | latch (f : FLatch) | aclr (f : FAcc) | amov (f : FAmov) | ascale (f : FAscale)
  | anorm2 (f : FNorm) | amaxabs (f : FNorm) | bimStage (f : FBimStage) | bimMark (f : FBimMark)
  -- FL slot (R208)
  | drain (f : FDrain) | drainq (f : FDrainQ) | drainr (f : FDrainR) | drainc (f : FDrainR)
  | argsel (f : FFa) | bimCommit (f : FFa) | trust1 (f : FTrust1)
  | cvt (f : FV) | fn (f : FVfn) | clampv (f : FV) | rng (f : FRng) | q8b (f : FV) | dq8b (f : FV)
  | qmx (f : FV) | dqmx (f : FV) | normv (f : FNormv) | scalev (f : FV) | psum (f : FVn) | sampd (f : FSampd)
  | updAdam (f : FV) | updSgdm (f : FV) | trust2 (f : FVn) | clipg (f : FVn)
  -- SC slot (R209)
  | lsc (f : FLsc) | scset (f : FScset) | pset (f : FPset) | psetd (f : FPsetd) | psett (f : FPsett)
  | setls (f : FSetls) | setlsRegister (f : FSca) | srseed (f : FSca) | srctrset (f : FSca)
  | ttnew (f : FTta) | ttadd (f : FTtadd) | ttpos (f : FTtv) | ttprune (f : FTtv) | ttchk (f : FTtchk)
  | ttgen (f : FTt) | bimlim (f : FSca)
  -- device steps
  | bundleIssue (core : Fin 256) | vacancyFill (core : Fin 256) | promotion (core : Fin 256)
  | resultWrite (ctx : Fin 1024) | loopPassEnd (ctx : Fin 1024) | pinExpiry (ctx : Fin 1024)
  | copyComplete (core : Fin 256) (ch : Fin 4) (budget : Nat) | copyStop (core : Fin 256) (ch : Fin 4)
  | handleDrainComplete (ctx : Fin 1024) (h : Fin 64)
  | copyResume (core : Fin 256) (ch : Fin 4) | copyAbort (core : Fin 256) (ch : Fin 4) (err : BitVec 8)
  | barrierCompletion (stream : Fin 16) (b : BarId) | damperRelease (stream : Fin 16) (b : BarId) (phase : Fin 8)
  | lgenIncrement (part : Fin 8) | tagSweep (u : SweepUnit) (granule : Nat) | scratchpadClear (cluster : Fin 32)
  | mantelRefresh (die : Fin 4) | invalidationComplete (n : Nat) | trapDelivery (core : Fin 256)
  | tresume (core : Fin 256) (ctx : Fin 4)
  | launch (stream : Fin 16) | launchPlacement (stream : Fin 16) | launchEnd (stream : Fin 16)
  | preemption (stream : Fin 16)
  | semwait (stream : Fin 16) | semsig (stream : Fin 16) | wsload (stream : Fin 16) | tgadd (stream : Fin 16)
  | tgrun (stream : Fin 16) | taskComplete (stream : Fin 16) (node : Fin 64) | fenceCommand (stream : Fin 16)
  | mark (stream : Fin 16) | preempt (stream : Fin 16)
  | sqtail (stream : Fin 16) (v : Word) | streamEnable (stream : Fin 16) (v : Word) | kill (stream : Fin 16)
  | xinvGo (part : Fin 8) (v : Word) | translationRootWrite (part : Fin 8) (r : XReg) (v : Word)
  | partitionConfigWrite (part : Fin 8) (r : PReg) (v : Word) | registerWrite (off : Nat) (v : Word)
  | chimneyRecordTake (die : Fin 4) | frameWrite (part : Fin 8) | eventLogWrite (die : Fin 4)
  | hostMemoryAccess (a : HostAcc)
  | portEnable (port : Fin 16) | portUp (port : Fin 16) (peer : BitVec 8) | portFail (port : Fin 16)
  | flitReceive (port : Fin 16) (flit : BitVec 2048) | flitReplay (port : Fin 16) (nak : BitVec 12)
  | linkCalibration (link : Link) | patrolScrub (die : Fin 4) (granule : Nat) (bad : Bool)
  | dramRefresh (die : Fin 4) (hot : Bool)
  | correctedError (u : EccUnit) | uncorrectableError (u : EccUnit)
  | telemetrySample (power : BitVec 32) (temps : List (BitVec 32))
  | throttle (die : Fin 4) (temp : BitVec 32) | clockRestore (die : Fin 4) (temp : BitVec 32) | thermalStop
  | powerUp | attest | cert | fwupdate (arg : Word) | devlog (arg : Word)
  | writePerformed (ctx : Fin 1024) (strm : Fin 16) | wsloadComplete (stream : Fin 16)
  | streamDisable (stream : Fin 16) (v : Word) | portDisable (port : Fin 16) | powerDown
deriving DecidableEq, Repr

end Sys2Proof
end

