-- ==== Sys2Proof/Config.lean ====
section
/-! DEFINITION. What the spec leaves to the implementation or leaves open: constants with no body, of which nothing can be
proved (log 3), and the sizes that R2 and R3 fix for the C96. -/

namespace Sys2Proof

/-- A fresh free value of `w` bits: the model applies it to the counter `freeN` of State (log 3). -/
opaque Config.free (w n : Nat) : BitVec w

/-- Where an FP32 result of a 2-ulp function lies about the nearest value, by function code and input (R89, R90;
log 12). -/
opaque Config.fnOffset (fn : Nat) (x : BitVec 32) : Fin 5

/-- Which translation an access uses, where those that the TLBs hold and a new walk differ (R456; log 20). -/
opaque Config.tlbChoice (n va : Nat) : Nat

/-- Which of the values written to it a fetched byte has, where its line has been held since (R461; log 20). -/
opaque Config.lineChoice (n va : Nat) : Nat

/-- Whether a cycle of a die's main clock ends in a cycle of the model (R131, R487; log 39). -/
opaque Config.dieStep (die cycle : Nat) : Bool

/-- What a remote rank of a collective contributes: group id, rank, element number (R293; log 13). -/
opaque Config.collRank (group : BitVec 64) (rank : Nat) (element : Nat) : BitVec 32

/-- The code with which a mismatch of a remote rank aborts a collective, 0 for none (R293; log 13). -/
opaque Config.collMismatch (group : BitVec 64) : BitVec 8

/-- The minimum security version fused into the package (R489, R490; log 30). -/
opaque Config.fusedSvn : BitVec 16

/-- A byte of a firmware image in the boot flash: slot, byte (R489; log 30). -/
opaque Config.firmware (slot : Bool) (n : Nat) : BitVec 8

/-- Whether a firmware image verifies: its bytes' choice number (R489, R490; log 30). -/
opaque Config.signatureOk (image : List (BitVec 8)) : Bool

/-- A byte of an attestation report or certificate chain: which document, the nonce or index, byte (R491, R492;
log 30). -/
opaque Config.document (kind : Nat) (arg : List (BitVec 8)) (n : Nat) : BitVec 8

/-- DRAM bytes per die (R2), the 90 GiB above the race-tag carve-out (R446). -/
def Config.dramBytes : Nat := 96 * 2 ^ 30
def Config.dataBytes : Nat := 90 * 2 ^ 30
/-- Mantel bytes per die and scratchpad bytes per cluster (R2, R3). -/
def Config.mantelBytes : Nat := 2 ^ 30
def Config.scratchBytes : Nat := 2 ^ 24

end Sys2Proof
end

