-- ==== Sys2Proof/Machine/Num.lean ====
section
/-! DEFINITION. Numbers: exact values, one rounding, storage formats and block formats (spec R52 to R75, R87, R89). -/

namespace Sys2Proof.Machine

open Sys2Proof

/-- The value of an element: NaN, an infinity, or an exact rational `±num/den` with a signed zero (R55, R64). -/
inductive Val where
  | nan
  | inf (neg : Bool)
  | fin (neg : Bool) (num den : Nat)
deriving DecidableEq, Repr

/-- The sticky flags of NSTAT, bit numbers as in R76: OVF 0, NAN 1, CLAMPED 2, UNF 3, SAT 4, OOR 5. -/
abbrev Flags := BitVec 6

def fOvf : Flags := 1#6
def fNan : Flags := 2#6
def fClamped : Flags := 4#6
def fUnf : Flags := 8#6
def fSat : Flags := 16#6
def fOor : Flags := 32#6

/-- A flag raised under a condition. -/
def flagIf (b : Bool) (f : Flags) : Flags := if b then f else 0#6

/-! ## Exact arithmetic on values (IEEE 754 specials, no rounding) -/

def vZero : Val := .fin false 0 1
def vOne : Val := .fin false 1 1
def vNat (n : Nat) : Val := .fin false n 1
def vInt (z : Int) : Val := .fin (decide (z < 0)) z.natAbs 1
def vRat (n d : Nat) : Val := .fin false n d

def Val.isNan : Val → Bool
  | .nan => true
  | _ => false
def Val.isInf : Val → Bool
  | .inf _ => true
  | _ => false
def Val.isFin : Val → Bool
  | .fin _ _ _ => true
  | _ => false
def Val.isZero : Val → Bool
  | .fin _ n _ => n == 0
  | _ => false
/-- The sign; a NaN has none. -/
def Val.sign : Val → Bool
  | .nan => false
  | .inf s => s
  | .fin s _ _ => s

def Val.neg : Val → Val
  | .nan => .nan
  | .inf s => .inf (!s)
  | .fin s n d => .fin (!s) n d
def Val.abs : Val → Val
  | .nan => .nan
  | .inf _ => .inf false
  | .fin _ n d => .fin false n d

/-- Two fractions over one denominator. -/
def common (n1 d1 n2 d2 : Nat) : Nat × Nat × Nat :=
  if d1 = d2 then (n1, n2, d1)
  else if d1 % d2 = 0 then (n1, n2 * (d1 / d2), d1)
  else if d2 % d1 = 0 then (n1 * (d2 / d1), n2, d2)
  else (n1 * d2, n2 * d1, d1 * d2)

/-- The exact sum; a sum of opposite values is +0 (R81). -/
def Val.add : Val → Val → Val
  | .nan, _ => .nan
  | _, .nan => .nan
  | .inf s, .inf t => if s == t then .inf s else .nan
  | .inf s, _ => .inf s
  | _, .inf t => .inf t
  | .fin s n1 d1, .fin t n2 d2 =>
    let (a, b, d) := common n1 d1 n2 d2
    if s == t then .fin s (a + b) d
    else if b < a then .fin s (a - b) d
    else if a < b then .fin t (b - a) d
    else vZero
def Val.sub (a b : Val) : Val := a.add b.neg

/-- The exact product; 0 × ±inf is NaN (R80). -/
def Val.mul : Val → Val → Val
  | .nan, _ => .nan
  | _, .nan => .nan
  | .inf s, .inf t => .inf (s != t)
  | .inf s, .fin t n _ => if n = 0 then .nan else .inf (s != t)
  | .fin s n _, .inf t => if n = 0 then .nan else .inf (s != t)
  | .fin s n1 d1, .fin t n2 d2 => .fin (s != t) (n1 * n2) (d1 * d2)

/-- The exact quotient with the IEEE 754 specials. -/
def Val.div : Val → Val → Val
  | .nan, _ => .nan
  | _, .nan => .nan
  | .inf _, .inf _ => .nan
  | .inf s, .fin t _ _ => .inf (s != t)
  | .fin s _ _, .inf t => .fin (s != t) 0 1
  | .fin s n1 d1, .fin t n2 d2 =>
    if n2 = 0 then (if n1 = 0 then .nan else .inf (s != t)) else .fin (s != t) (n1 * d2) (d1 * n2)

/-- The value times 2^k. -/
def Val.scale2 (v : Val) (k : Int) : Val :=
  match v with
  | .fin s n d => if 0 ≤ k then .fin s (n * 2 ^ k.toNat) d else .fin s n (d * 2 ^ (-k).toNat)
  | v => v

/-- Strict order of two values; false with a NaN; the two zeros are equal. -/
def Val.lt : Val → Val → Bool
  | .nan, _ => false
  | _, .nan => false
  | .inf s, .inf t => s && !t
  | .inf s, _ => s
  | _, .inf t => !t
  | .fin s n1 d1, .fin t n2 d2 =>
    let a := n1 * d2
    let b := n2 * d1
    if s then (if t then decide (b < a) else decide (0 < a + b)) else (if t then false else decide (a < b))
/-- Equality of two values; false with a NaN. -/
def Val.eqv (a b : Val) : Bool := !a.isNan && !b.isNan && !a.lt b && !b.lt a
/-- The larger, with max(−0, +0) = +0 and NaN when either is NaN: of a product R84 says so, of other operations'
elements R291, R314 and R345; of the old element of a tile it is the model's choice (log 51). -/
def Val.max2 (a b : Val) : Val :=
  if a.isNan || b.isNan then .nan else if a.lt b then b else if b.lt a then a else if a.sign then b else a
/-- The smaller, with min(−0, +0) = −0 and NaN when either is NaN (R84, R291; log 51). -/
def Val.min2 (a b : Val) : Val :=
  if a.isNan || b.isNan then .nan else if a.lt b then a else if b.lt a then b else if a.sign then a else b

/-! ## Rounding (R65) -/

/-- A rounding mode with the generator output of the element, in units of 2^−24 (R65, R66). -/
inductive Rnd where
  | rne | rtz
  | sr (u24 : Nat)
deriving DecidableEq, Repr

/-- floor(log2(n/d)) for n, d > 0. -/
def floorLog2 (n d : Nat) : Int :=
  let k : Int := (Nat.log2 n : Int) - (Nat.log2 d : Int)
  let ge : Bool := if 0 ≤ k then decide (d * 2 ^ k.toNat ≤ n) else decide (d ≤ n * 2 ^ (-k).toNat)
  if ge then k else k - 1

/-- (n/d) / 2^e as a fraction. -/
def overUnit (n d : Nat) (e : Int) : Nat × Nat :=
  if 0 ≤ e then (n, d * 2 ^ e.toNat) else (n * 2 ^ (-e).toNat, d)

/-- A magnitude rounded to an integer (R65). -/
def roundInt (r : Rnd) (n d : Nat) : Nat :=
  let q := n / d
  let m := n % d
  match r with
  | .rne => if d < 2 * m ∨ (2 * m = d ∧ q % 2 = 1) then q + 1 else q
  | .rtz => q
  | .sr u => (n * 2 ^ 24 + u * d) / (d * 2 ^ 24)

/-- A float element format (R53): widths, bias, the magnitude codes of the largest finite value, infinity and NaN. -/
structure FloatFmt where
  ew : Nat
  fw : Nat
  bias : Nat
  maxCode : Nat
  infCode : Option Nat
  nanCode : Option Nat
deriving DecidableEq, Repr

def fp32F : FloatFmt := ⟨8, 23, 127, 0x7F7FFFFF, some 0x7F800000, some 0x7FC00000⟩
def bf16F : FloatFmt := ⟨8, 7, 127, 0x7F7F, some 0x7F80, some 0x7FC0⟩
def fp16F : FloatFmt := ⟨5, 10, 15, 0x7BFF, some 0x7C00, some 0x7E00⟩
def e4m3F : FloatFmt := ⟨4, 3, 7, 0x7E, none, some 0x7F⟩
def e5m2F : FloatFmt := ⟨5, 2, 15, 0x7B, some 0x7C, some 0x7E⟩
def e2m3F : FloatFmt := ⟨2, 3, 1, 0x1F, none, none⟩
def e3m2F : FloatFmt := ⟨3, 2, 3, 0x1F, none, none⟩
def e2m1F : FloatFmt := ⟨2, 1, 1, 0x7, none, none⟩

/-- The bits of an element below its sign. -/
def FloatFmt.mag (f : FloatFmt) : Nat := f.ew + f.fw

/-- The magnitude code nearest n/d, the exponent range unbounded above (R65). -/
def FloatFmt.roundMag (f : FloatFmt) (r : Rnd) (n d : Nat) : Nat :=
  if n = 0 then 0
  else
    let emin : Int := 1 - (f.bias : Int)
    let e : Int := max (floorLog2 n d) emin - (f.fw : Int)
    let (a, b) := overUnit n d e
    (e + f.fw - emin).toNat * 2 ^ f.fw + roundInt r a b

/-- The magnitude of a finite code as a fraction (R53, R54). -/
def FloatFmt.magVal (f : FloatFmt) (code : Nat) : Nat × Nat :=
  let ex := code / 2 ^ f.fw
  let fr := code % 2 ^ f.fw
  let m := if ex = 0 then fr else fr + 2 ^ f.fw
  let e : Int := (if ex = 0 then 1 else (ex : Int)) - (f.bias : Int) - (f.fw : Int)
  if 0 ≤ e then (m * 2 ^ e.toNat, 1) else (m, 2 ^ (-e).toNat)

/-- The value of a code (R53, R64). -/
def FloatFmt.decode (f : FloatFmt) (code : Nat) : Val :=
  let s := code / 2 ^ f.mag % 2 == 1
  let m := code % 2 ^ f.mag
  if m ≤ f.maxCode then
    let (n, d) := f.magVal m
    .fin s n d
  else if f.infCode == some m then .inf s
  else .nan

/-- A code with its sign. -/
def FloatFmt.signed (f : FloatFmt) (s : Bool) (m : Nat) : Nat := (if s then 2 ^ f.mag else 0) + m

/-- The canonical NaN, +0 where the format has none (R55, R70). -/
def FloatFmt.nan (f : FloatFmt) : Nat := f.nanCode.getD 0

/-- What an overflow gives under PROP: an infinity, else the NaN, else the largest value (R70). -/
def FloatFmt.propInf (f : FloatFmt) (s : Bool) : Nat × Flags :=
  match f.infCode, f.nanCode with
  | some i, _ => (f.signed s i, 0#6)
  | none, some n => (n, fNan)
  | none, none => (f.signed s f.maxCode, fClamped)

/-- Encoding to a float format (R70). `f32` marks FP32, whose infinities pass under SAT. -/
def FloatFmt.encode (f : FloatFmt) (f32 prop : Bool) (r : Rnd) : Val → Nat × Flags
  | .nan => (f.nan, fNan)
  | .inf s => if prop || f32 then f.propInf s else (f.signed s f.maxCode, fClamped)
  | .fin s n d =>
    let m := f.roundMag r n d
    if m ≤ f.maxCode then (f.signed s m, flagIf (n != 0 && m == 0) fUnf)
    else if prop then
      let (c, fl) := f.propInf s
      (c, fl ||| fOvf)
    else (f.signed s f.maxCode, fOvf ||| fClamped)

/-- Encoding to a two's-complement integer of `w` bits (R57, R70). -/
def encodeInt (w : Nat) (r : Rnd) : Val → Nat × Flags
  | .nan => (0, fNan)
  | .inf s => (if s then 2 ^ (w - 1) else 2 ^ (w - 1) - 1, fSat)
  | .fin s n d =>
    let m := roundInt r n d
    let u := flagIf (n != 0 && m == 0) fUnf
    if s then (if m ≤ 2 ^ (w - 1) then ((2 ^ w - m) % 2 ^ w, u) else (2 ^ (w - 1), fSat))
    else (if m < 2 ^ (w - 1) then (m, u) else (2 ^ (w - 1) - 1, fSat))

/-- A two's-complement code of `w` bits as an integer. -/
def signedOf (w code : Nat) : Int := if code < 2 ^ (w - 1) then (code : Int) else (code : Int) - (2 ^ w : Nat)

/-! ## Element formats -/

/-- Bits of an element (R52). -/
def fmtWidth : Fmt → Nat
  | .fp32 | .int32 => 32
  | .bf16 | .fp16 => 16
  | .e4m3 | .e5m2 | .int8 | .mxe4m3 | .mxe5m2 | .mxi8 | .b8qs | .b8qn => 8
  | .e2m3 | .e3m2 | .mxe2m3 | .mxe3m2 => 6
  | .e2m1 | .int4g | .mxe2m1 => 4
  | .bx2 => 2 | .bx3 => 3 | .bx4 => 4 | .bx5 => 5 | .bx6 => 6 | .bx7 => 7 | .bx8 => 8

/-- The float layout of an element, of the elements of an MX block too (R53, R59). -/
def fmtFloat : Fmt → Option FloatFmt
  | .fp32 => some fp32F
  | .bf16 => some bf16F
  | .fp16 => some fp16F
  | .e4m3 | .mxe4m3 => some e4m3F
  | .e5m2 | .mxe5m2 => some e5m2F
  | .e2m3 | .mxe2m3 => some e2m3F
  | .e3m2 | .mxe3m2 => some e3m2F
  | .e2m1 | .mxe2m1 => some e2m1F
  | _ => none

/-- The value of an element-wise code, of a block element before its scale (R53, R57, R59, R60). -/
def decElem (f : Fmt) (code : Nat) : Val :=
  match fmtFloat f with
  | some ff => ff.decode code
  | none =>
    if f == .mxi8 then (vInt (signedOf 8 code)).scale2 (-6)
    else vInt (signedOf (fmtWidth f) code)

/-- Encoding to an element-wise format (R70). -/
def encElem (f : Fmt) (prop : Bool) (r : Rnd) (v : Val) : Nat × Flags :=
  match fmtFloat f with
  | some ff => ff.encode (f == .fp32) prop r v
  | none => encodeInt (fmtWidth f) r v

/-! ## FP32 -/

def f32Val (b : Word32) : Val := fp32F.decode b.toNat
/-- The FP32 image nearest a value, an overflow giving an infinity (IEEE 754, RNE). -/
def f32Bits (v : Val) : Word32 := BitVec.ofNat 32 (fp32F.encode true true .rne v).1
/-- The value rounded once to FP32, RNE. -/
def rne32 (v : Val) : Val := f32Val (f32Bits v)
/-- What one such rounding raises: OVF, UNF (R80, R87). -/
def flags32 (v : Val) : Flags :=
  match v with
  | .fin _ n d =>
    let m := fp32F.roundMag .rne n d
    flagIf (fp32F.maxCode < m) fOvf ||| flagIf (n != 0 && m == 0) fUnf
  | _ => 0#6
def canonNan : Word32 := 0x7FC00000#32

/-! ## Block formats (R59, R60, R71 to R75) -/

/-- The bias of a block's scale code (R71). -/
def blockBias (f : Fmt) : Int :=
  match f with
  | .bx2 | .bx3 | .bx4 | .bx5 | .bx6 | .bx7 | .bx8 => 127 + ((fmtWidth f : Int) - 2)
  | _ => 127

/-- emax of R71. -/
def blockEmax (f : Fmt) : Int :=
  match f with
  | .mxe4m3 => 8
  | .mxe5m2 => 15
  | .mxe2m3 => 2
  | .mxe3m2 => 4
  | .mxe2m1 => 2
  | .mxi8 => 0
  | _ => (fmtWidth f : Int) - 2

/-- The element of a block with its scale code (R59, R60). -/
def decBlock (f : Fmt) (scale code : Nat) : Val :=
  if scale = 255 then .nan else (decElem f code).scale2 ((scale : Int) - blockBias f)

/-- The largest finite magnitude of a list, as a fraction. -/
def amaxFin : List Val → Nat × Nat
  | [] => (0, 1)
  | v :: l =>
    let (n, d) := amaxFin l
    match v with
    | .fin _ a b => if n * b < a * d then (a, b) else (n, d)
    | _ => (n, d)

/-- A block's scale code from its largest magnitude (R71). -/
def blockCode (f : Fmt) (n d : Nat) : Nat :=
  if n = 0 then 0 else (min 254 (max 0 (floorLog2 n d - blockEmax f + blockBias f))).toNat

/-- The elements of a block: elemmax, elemmin, and one rounded element (R71). -/
def blockMax (f : Fmt) : Nat :=
  match fmtFloat f with
  | some ff => ff.maxCode
  | none => 2 ^ (fmtWidth f - 1) - 1
def blockMin (f : Fmt) : Nat :=
  match fmtFloat f with
  | some ff => ff.signed true ff.maxCode
  | none => 2 ^ (fmtWidth f - 1)
def blockElem (f : Fmt) (code : Nat) (r : Rnd) (v : Val) : Nat × Flags :=
  match v with
  | .nan => (0, fNan)
  | .inf s => (if s then blockMin f else blockMax f, fClamped)
  | .fin _ _ _ =>
    match v.scale2 (blockBias f - (code : Int)) with
    | .fin s n d =>
      match fmtFloat f with
      | some ff =>
        let m := ff.roundMag r n d
        if m ≤ ff.maxCode then (ff.signed s m, flagIf (n != 0 && m == 0) fUnf)
        else (ff.signed s ff.maxCode, fClamped)
      | none =>
        let w := fmtWidth f
        let m := if f == .mxi8 then roundInt r (n * 64) d else roundInt r n d
        let u := flagIf (n != 0 && m == 0) fUnf
        if s then (if m ≤ 2 ^ (w - 1) then ((2 ^ w - m) % 2 ^ w, u) else (2 ^ (w - 1), fClamped))
        else (if m < 2 ^ (w - 1) then (m, u) else (2 ^ (w - 1) - 1, fClamped))
    | _ => (0, 0#6)

/-- Elements of a list with their numbers. -/
def enumFrom {α : Type} (i : Nat) : List α → List (Nat × α)
  | [] => []
  | a :: l => (i, a) :: enumFrom (i + 1) l

/-- Encoding a block of 32 to an MX or BX format: the scale code, the elements and the flags; `none` is an element
outside the edge (R71, R72, R73). `r i` is the rounding of element `i`. -/
def encBlock (f : Fmt) (prop : Bool) (r : Nat → Rnd) (xs : List (Option Val)) : Nat × List Nat × Flags :=
  let ins := xs.filterMap id
  if ins.isEmpty then (0x7F, xs.map (fun _ => 0), 0#6)
  else if ins.any (fun v => v.isNan || (prop && v.isInf)) then (0xFF, xs.map (fun _ => 0), fNan)
  else
    let (n, d) := amaxFin ins
    let code := blockCode f n d
    let es := (enumFrom 0 xs).map (fun (i, o) =>
      match o with
      | none => (0, 0#6)
      | some v => blockElem f code (r i) v)
    (code, es.map (·.1), es.foldl (fun a e => a ||| e.2) 0#6)

/-- The exact value of an INT4G element (R58, R64). -/
def decInt4g (q z s : Nat) : Val := (vInt ((q : Int) - (z : Int))).mul (bf16F.decode s)

/-- A signed rounding of a finite value to an integer. -/
def roundSigned (r : Rnd) : Val → Int
  | .fin s n d => if s then -(roundInt r n d : Int) else (roundInt r n d : Int)
  | _ => 0

/-- Encoding a group of 32 to INT4G: the BF16 scale, the zero point, the codes and the flags (R74). -/
def encInt4g (prop : Bool) (r : Nat → Rnd) (xs : List Val) : Nat × Nat × List Nat × Flags :=
  if xs.any (fun v => v.isNan || (prop && v.isInf)) then (0x7FC0, 0, xs.map (fun _ => 0), fNan)
  else
    let fins := xs.filter Val.isFin
    let lo := fins.foldl (fun a v => if v.lt a then v else a) vZero
    let hi := fins.foldl (fun a v => if a.lt v then v else a) vZero
    let s0 := (bf16F.encode false true .rne ((hi.sub lo).div (vNat 15))).1
    let s := if s0 = 0 then 0x3F80 else s0
    let sv := bf16F.decode s
    let z := (min 15 (max 0 (roundSigned .rne (lo.neg.div sv)))).toNat
    let es := (enumFrom 0 xs).map (fun (i, v) =>
      match v with
      | .inf sg => (if sg then 0 else 15, fClamped)
      | v =>
        let q0 := roundSigned (r i) (v.div sv) + (z : Int)
        let q := (min 15 (max 0 q0)).toNat
        (q, flagIf (decide ((q : Int) ≠ q0)) fClamped ||| flagIf (!v.isZero && q == z) fUnf))
    (s, z, es.map (·.1), es.foldl (fun a e => a ||| e.2) 0#6)

/-- The value of a B8Q code (R63, R64). -/
def decB8q (sgn : Bool) (code : Nat) (absmax : Word32) : Val :=
  let c : Int := if sgn then (if code = 128 then -127 else signedOf 8 code) else (code : Int)
  match f32Val absmax with
  | .nan => .nan
  | .inf s => if c = 0 then .nan else .inf (s != decide (c < 0))
  | v => ((vInt c).mul v).div (vNat (if sgn then 127 else 255))

/-- Encoding a block of 256 to B8Q: the absolute maximum, the codes and the flags (R75). -/
def encB8q (sgn prop : Bool) (r : Nat → Rnd) (xs : List Val) : Word32 × List Nat × Flags :=
  if xs.any (fun v => v.isNan || (prop && v.isInf)) then (canonNan, xs.map (fun _ => 0), fNan)
  else
    let (n, d) := amaxFin xs
    let am := f32Bits (vRat n d)
    let av := f32Val am
    let es := (enumFrom 0 xs).map (fun (i, v) =>
      match v with
      | .inf s => (if sgn then (if s then 129 else 127) else (if s then 0 else 255), fClamped)
      | v =>
        if av.isZero then (0, 0#6)
        else if !sgn && v.sign && !v.isZero then (0, fClamped)
        else
          let q := roundSigned (r i) (((vNat (if sgn then 127 else 255)).mul v).div av)
          ((q % 256).toNat, flagIf (!v.isZero && q == 0) fUnf))
    (am, es.map (·.1), es.foldl (fun a e => a ||| e.2) 0#6)

/-! ## The stochastic-rounding generator (R66) -/

/-- The finalised word z for counter value `c`. -/
def srZ (seed : Word) (lcid : Nat) (c : Word) : Word :=
  let z := seed + BitVec.ofNat 64 lcid <<< 54 + c * 0x9E3779B97F4A7C15#64
  let z := (z ^^^ (z >>> 30)) * 0xBF58476D1CE4E5B9#64
  let z := (z ^^^ (z >>> 27)) * 0x94D049BB133111EB#64
  z ^^^ (z >>> 31)

/-- The 24-bit output of the generator, u × 2^24. -/
def srU (seed : Word) (lcid : Nat) (c : Word) : Nat := (srZ seed lcid c).toNat / 2 ^ 40 % 2 ^ 24

/-! ## Real functions in fixed point, for the function table (R89) -/

/-- Fractional bits of the fixed point. -/
def fxP : Nat := 400
def fxOne : Nat := 2 ^ 400

def fxMul (a b : Nat) : Nat := a * b / fxOne

/-- Σ of a series whose term `k + 1` is `term k × num / den k`: sums of the even and the odd terms. -/
def fxSeries (num : Nat) (den : Nat → Nat) : Nat → Nat → Nat → Nat → Nat → Nat × Nat
  | 0, _, _, e, o => (e, o)
  | fuel + 1, k, t, e, o =>
    fxSeries num den fuel (k + 1) (t * num / (fxOne * den k)) o (e + t) |> fun (a, b) => (b, a)

/-- e^r for a fixed-point r in [0, 1). -/
def fxExpSmall (r : Nat) : Nat :=
  let (e, o) := fxSeries r (fun k => k + 1) 100 0 fxOne 0 0
  e + o

/-- atanh-like Σ z^(2k+1)/(2k+1) of a fixed-point z below 1/2; ln m = 2 × this for z = (m−1)/(m+1). -/
def fxAtanh (z : Nat) : Nat → Nat → Nat → Nat → Nat
  | 0, _, _, acc => acc
  | fuel + 1, k, p, acc => fxAtanh z fuel (k + 1) (fxMul p (fxMul z z)) (acc + p / (2 * k + 1))

def fxLnRatio (z : Nat) : Nat := 2 * fxAtanh z 260 0 z 0

/-- ln 2 = 2 atanh(1/3). -/
def fxLn2 : Nat := fxLnRatio (fxOne / 3)

/-- arctan(1/k) in fixed point: the sums of the even and of the odd terms. -/
def fxArctanInv (k : Nat) : Nat → Nat → Nat → Nat → Nat → Nat
  | 0, _, _, e, o => e - o
  | fuel + 1, i, p, e, o =>
    if i % 2 = 0 then fxArctanInv k fuel (i + 1) (p / (k * k)) (e + p / (2 * i + 1)) o
    else fxArctanInv k fuel (i + 1) (p / (k * k)) e (o + p / (2 * i + 1))

/-- π by Machin's formula. -/
def fxPi : Nat := 16 * fxArctanInv 5 100 0 (fxOne / 5) 0 0 - 4 * fxArctanInv 239 40 0 (fxOne / 239) 0 0

/-- The integer square root, by bits from the top. -/
def isqrtBits (n : Nat) : Nat → Nat → Nat
  | 0, acc => acc
  | k + 1, acc => if (acc + 2 ^ k) * (acc + 2 ^ k) ≤ n then isqrtBits n k (acc + 2 ^ k) else isqrtBits n k acc
def isqrt (n : Nat) : Nat := isqrtBits n (Nat.log2 n / 2 + 1) 0

/-- A non-negative fraction in fixed point. -/
def fxOf (n d : Nat) : Nat := n * fxOne / d

/-- e^(−x) for a fixed-point x ≥ 0, at least one unit. -/
def fxExpNeg (x : Nat) : Nat :=
  let k := x / fxLn2
  if 380 < k then 1
  else
    let r := (k + 1) * fxLn2 - x
    Nat.max 1 (fxExpSmall r / 2 ^ (k + 1))

/-- 1/(1 + e^(−x)) for a fixed-point magnitude and its sign. -/
def fxSigmoid (neg : Bool) (x : Nat) : Nat :=
  let t := fxExpNeg x
  if neg then t * fxOne / (fxOne + t) else fxOne * fxOne / (fxOne + t)

/-- sin(π r) for a fixed-point r in [0, 1/2]. -/
def fxSinPi (r : Nat) : Nat :=
  let x := fxMul fxPi r
  let (e, o) := fxSeries (fxMul x x) (fun k => (2 * k + 2) * (2 * k + 3)) 90 0 x 0 0
  e - o

/-- Σ x^(2k+1)/(k!(2k+1)) with alternating signs: the terms of erf. -/
def fxErfSum (x2 : Nat) : Nat → Nat → Nat → Nat → Nat → Nat
  | 0, _, _, e, o => e - o
  | fuel + 1, k, t, e, o =>
    let t' := t * x2 / (fxOne * (k + 1))
    if k % 2 = 0 then fxErfSum x2 fuel (k + 1) t' (e + t / (2 * k + 1)) o
    else fxErfSum x2 fuel (k + 1) t' e (o + t / (2 * k + 1))

/-- erf of a fixed-point magnitude; from 6 on it lies closer to 1 than any FP32 value below. -/
def fxErf (x : Nat) : Nat :=
  if 6 * fxOne ≤ x then fxOne - fxOne / 2 ^ 50
  else 2 * fxMul (fxErfSum (fxMul x x) 400 0 x 0 0) (fxOne * fxOne / isqrt (fxPi * fxOne))

end Sys2Proof.Machine
end

