-- ==== Sys2Proof/Machine/Fn.lean ====
section
/-! DEFINITION. The Flue's function table (R89, R90): FP32 in, FP32 out. -/

namespace Sys2Proof.Machine

open Sys2Proof

/-- The distance of two fractions against 2 ulp of the second, in its binade of FP32 (R89). -/
def withinTwoUlp (cn cd n d : Nat) : Bool :=
  let e : Int := max (floorLog2 n d) (-126) - 23
  let (a, b) := overUnit n d e
  let (p, q) := overUnit cn cd e
  let x := a * q
  let y := p * b
  decide ((if x < y then y - x else x - y) ≤ 2 * (b * q))

/-- A rounded result for a 2-ulp function with exact magnitude n/d: one of the FP32 values within 2 ulp, which one
being left open (R89; log 12). -/
def fnNear (fn : FnCode) (x : Word32) (s : Bool) (n d : Nat) : Val :=
  let c := fp32F.roundMag .rne n d
  let k := c + (Config.fnOffset fn.ctorIdx x).val
  let m := if k < 2 then c else k - 2
  let m := if m ≤ fp32F.maxCode then
      (let (p, q) := fp32F.magVal m
       if withinTwoUlp p q n d then m else c)
    else c
  fp32F.decode (fp32F.signed s m)

/-- √(n/d) as a fraction that rounds as the root does: bit 0 is sticky. -/
def sqrtFrac (n d : Nat) : Nat × Nat :=
  let r := n * fxOne * fxOne / d
  let q := isqrt r
  (2 * q + (if q * q * d = n * fxOne * fxOne then 0 else 1), 2 * fxOne)

/-- 2^x for x = ±n/d, as a fraction (R89). -/
def exp2Frac (s : Bool) (n d : Nat) : Nat × Nat :=
  if s then
    let k := n / d + 1
    if 1000 < k then (1, 2 ^ 1000)
    else
      let f := fxOf (k * d - n) d
      (fxExpSmall (fxMul f fxLn2), fxOne * 2 ^ k)
  else
    let k := n / d
    let f := fxOf (n - k * d) d
    (fxExpSmall (fxMul f fxLn2) * 2 ^ k, fxOne)

/-- |log2(n/d)| in fixed point with its sign. -/
def log2Frac (n d : Nat) : Bool × Nat :=
  let e := floorLog2 n d
  let (a, b) := overUnit n d e
  let z := (a - b) * fxOne / (a + b)
  let l := fxLnRatio z * fxOne / fxLn2
  if 0 ≤ e then (false, e.toNat * fxOne + l)
  else (true, (-e).toNat * fxOne - l)

/-- sin(π n/d): sign and magnitude in fixed point. -/
def sinPiFrac (n d : Nat) : Bool × Nat :=
  let m := n % (2 * d)
  let (s, m) := if d ≤ m then (true, m - d) else (false, m)
  let m := if d < 2 * m then d - m else m
  (s, fxSinPi (fxOf m d))

/-- cos(π n/d): sign and magnitude in fixed point. -/
def cosPiFrac (n d : Nat) : Bool × Nat :=
  let m := n % (2 * d)
  let m := if d < m then 2 * d - m else m
  if d < 2 * m then (true, fxSinPi (fxOf (2 * m - d) (2 * d))) else (false, fxSinPi (fxOf (d - 2 * m) (2 * d)))

/-- The value of a function at an FP32 input that is not a NaN; the special values of R89 are exact. -/
def fnVal (fn : FnCode) (b : Word32) (x : Val) : Val :=
  match fn, x with
  | _, .nan => .nan
  | .exp2, .inf s => if s then vZero else .inf false
  | .exp2, .fin s n d =>
    if n = 0 then vOne else
    if !s && decide (128 * d ≤ n) then .inf false
    else
      let (p, q) := exp2Frac s n d
      rne32 (vRat p q)
  | .log2, .inf s => if s then .nan else .inf false
  | .log2, .fin s n d =>
    if n = 0 then .inf true
    else if s then .nan
    else if n = d then vZero
    else
      let (sg, l) := log2Frac n d
      fnNear fn b sg l fxOne
  | .rcp, x => rne32 (vOne.div x)
  | .rsqrt, .inf s => if s then .nan else vZero
  | .rsqrt, .fin s n d =>
    if n = 0 then .inf s
    else if s then .nan
    else
      let (p, q) := sqrtFrac d n
      fnNear fn b false p q
  | .sqrt, .inf s => if s then .nan else .inf false
  | .sqrt, .fin s n d =>
    if n = 0 then .fin s 0 1
    else if s then .nan
    else
      let (p, q) := sqrtFrac n d
      rne32 (vRat p q)
  | .tanh, .inf s => .fin s 1 1
  | .tanh, .fin s n d =>
    if n = 0 then .fin s 0 1
    else
      let t := fxExpNeg (2 * fxOf n d)
      fnNear fn b s (fxOne - t) (fxOne + t)
  | .sigm, .inf s => if s then vZero else vOne
  | .sigm, .fin s n d => fnNear fn b false (fxSigmoid s (fxOf n d)) fxOne
  | .silu, .inf s => if s then .fin true 0 1 else .inf false
  | .silu, .fin s n d =>
    if n = 0 then .fin s 0 1 else fnNear fn b s (n * fxSigmoid s (fxOf n d)) (d * fxOne)
  | .gelu, .inf s => if s then .fin true 0 1 else .inf false
  | .gelu, .fin s n d =>
    if n = 0 then .fin s 0 1
    else
      let c := isqrt (2 * fxOne * fxOne * fxOne / fxPi)
      let num := 1000000 * n * d * d + 44715 * n * n * n
      let y2 := 2 * num * c / (1000000 * d * d * d)
      fnNear fn b s (n * fxSigmoid s y2) (d * fxOne)
  | .erf, .inf s => .fin s 1 1
  | .erf, .fin s n d => if n = 0 then .fin s 0 1 else fnNear fn b s (fxErf (fxOf n d)) fxOne
  | .sinpi, .inf _ => .nan
  | .sinpi, .fin s n d =>
    if n % d = 0 then .fin (s && n != 0) 0 1
    else
      let (sg, m) := sinPiFrac n d
      fnNear fn b (s != sg) m fxOne
  | .cospi, .inf _ => .nan
  | .cospi, .fin _ n d =>
    if 2 * n % d = 0 && 2 * n / d % 2 = 1 then vZero
    else
      let (sg, m) := cosPiFrac n d
      fnNear fn b sg m fxOne

/-- The function of an FP32 value and the flags it raises: OVF where a finite input gives an infinity by overflow, UNF
where a non-zero result rounds to zero, NAN where a NaN comes from no NaN (R89, R76). -/
def fnApply (fn : FnCode) (x : Val) : Val × Flags :=
  let r := fnVal fn (f32Bits x) x
  let ovf : Bool := x.isFin && r.isInf && (match fn with | .exp2 => true | .rcp => !x.isZero | _ => false)
  let unf : Bool := x.isFin && !x.isZero && r.isZero &&
    (match fn with | .log2 | .sinpi | .cospi => false | _ => true)
  (r, flagIf ovf fOvf ||| flagIf unf fUnf ||| flagIf (r.isNan && !x.isNan) fNan)

end Sys2Proof.Machine
end

