-- ==== Sys2Proof/Machine/Flags.lean ====
section
/-! DEFINITION. Conditions and flag computations: the compares of CMP and BRC, the sticky flags of sums, products and
integer accumulation (R80, R82 to R84, R87, R221, R230). -/

namespace Sys2Proof.Machine

open Sys2Proof

/-- The conditions of CMP (R221). -/
def condHolds (c : Cond) (a b : Word) : Bool :=
  match c with
  | .eq => a == b
  | .ne => a != b
  | .lt => a.slt b
  | .ge => !a.slt b
  | .ltn => a.ult b
  | .gen => !a.ult b
  | .tst => (a &&& b) != 0#64
  | .ntst => (a &&& b) == 0#64

/-- The conditions of BRC (R230). -/
def bcondHolds (c : BCond) (a : Word) : Bool :=
  match c with
  | .eqz => a == 0#64
  | .nez => a != 0#64
  | .ltz => a.slt 0#64
  | .gez => !a.slt 0#64
  | .gtz => (0#64).slt a
  | .lez => !(0#64).slt a

/-- One FP32 sum, rounded once, with OVF, and NAN when no addend is NaN (R80). -/
def add32 (a b : Val) : Val × Flags :=
  let x := a.add b
  (rne32 x, (flags32 x &&& fOvf) ||| flagIf (x.isNan && !a.isNan && !b.isNan) fNan)

/-- One FP32 product by an FP32 factor, rounded once, with OVF, UNF and NAN (R87, R313, R336). -/
def mul32 (a b : Val) : Val × Flags :=
  let x := a.mul b
  (rne32 x, flags32 x ||| flagIf (x.isNan && !a.isNan && !b.isNan) fNan)

/-- A power of two applied, rounded once (R87, R88). -/
def scale32 (a : Val) (k : Int) : Val × Flags :=
  let x := a.scale2 k
  (rne32 x, flags32 x)

/-- A 32-bit sum that saturates, with SAT (R82). -/
def addSat32 (a b : Int) : Int × Flags :=
  let x := a + b
  let y := min (2 ^ 31 - 1) (max (-(2 ^ 31)) x)
  (y, flagIf (decide (x ≠ y)) fSat)

end Sys2Proof.Machine
end

