-- ==== Sys2Proof/Machine/Tab.lean ====
section
/-! DEFINITION. Tables: sparse data by a natural key, and byte memories in their canonical form. -/

namespace Sys2Proof.Machine

/-- A sparse table; a key that is not listed holds the reader's default. -/
abbrev Tab (α : Type) := List (Nat × α)

def Tab.get {α : Type} (d : α) (k : Nat) : Tab α → α
  | [] => d
  | (a, v) :: t => if a = k then v else Tab.get d k t

/-- The entry of a key, none when the key is not listed. -/
def Tab.find {α : Type} (k : Nat) : Tab α → Option α
  | [] => none
  | (a, v) :: t => if a = k then some v else Tab.find k t

def Tab.put {α : Type} (k : Nat) (v : α) : Tab α → Tab α
  | [] => [(k, v)]
  | (a, w) :: t => if k < a then (k, v) :: (a, w) :: t else if a = k then (k, v) :: t else (a, w) :: Tab.put k v t

def Tab.erase {α : Type} (k : Nat) : Tab α → Tab α
  | [] => []
  | (a, v) :: t => if a = k then Tab.erase k t else (a, v) :: Tab.erase k t

/-- A byte memory: listed cells at strictly rising addresses, none equal to what an unlisted address reads as. -/
abbrev Memory := List Host.Cell

/-- What an unlisted address reads as (log 5). -/
def Memory.unlisted : Byte := 0#8

def Memory.read (a : Nat) : Memory → Byte
  | [] => Memory.unlisted
  | (k, v) :: t => if k = a then v else Memory.read a t

def Memory.erase (a : Nat) : Memory → Memory
  | [] => []
  | (k, v) :: t => if k = a then Memory.erase a t else (k, v) :: Memory.erase a t

def Memory.insert (a : Nat) (b : Byte) : Memory → Memory
  | [] => [(a, b)]
  | (k, v) :: t => if a < k then (a, b) :: (k, v) :: t else if k = a then (a, b) :: t else (k, v) :: Memory.insert a b t

/-- A write that keeps the canonical form. -/
def Memory.write (a : Nat) (b : Byte) (m : Memory) : Memory :=
  if b = Memory.unlisted then Memory.erase a m else Memory.insert a b m

/-- Every listed address lies above `lo`, rising, and no listed byte is the unlisted one. -/
def Memory.wfFrom : Nat → Memory → Bool
  | _, [] => true
  | lo, (k, v) :: t => decide (lo ≤ k) && v != Memory.unlisted && Memory.wfFrom (k + 1) t

/-- The canonical form. -/
def Memory.wf (m : Memory) : Bool := Memory.wfFrom 0 m

/-- `n` bytes from `a`, lowest first. -/
def Memory.readN (m : Memory) (a : Nat) : Nat → List Byte
  | 0 => []
  | n + 1 => m.read a :: Memory.readN m (a + 1) n

/-- Consecutive bytes written from `a`. -/
def Memory.writeN (m : Memory) (a : Nat) : List Byte → Memory
  | [] => m
  | b :: l => Memory.writeN (m.write a b) (a + 1) l

end Sys2Proof.Machine
end

