-- ==== Sys2Proof/Machine/State.lean ====
section
/-! DEFINITION. The state of the C96 as plain data: contexts, cores, clusters, dies, partitions, streams, launches, ports
and the device, the machine right after reset, and the reasons a step can stop. -/

namespace Sys2Proof.Machine

open Sys2Proof

/-! ## A context -/

/-- The states of a context (R18). -/
inductive CtxSt where
  | empty | ready | primary | secondary | blocked | trapped | halted
deriving DecidableEq, Repr

/-- One dimension of an address generator (R116). -/
structure Dim where
  cnt : BitVec 32
  stp : BitVec 48
  idx : BitVec 32
  bnd : BitVec 32
deriving DecidableEq, Repr

/-- An address generator (R116). -/
structure Gen where
  base : Word
  d0 : Dim
  d1 : Dim
  d2 : Dim
  d3 : Dim
  d4 : Dim
  d5 : Dim
  attr : BitVec 32
deriving DecidableEq, Repr

/-- A copy handle (R121); LSIZE 0 means no region. `mark` is how many copies had been started on the device when the handle became
DRAINING: the reads that were started before are those of copies with a lower number (R122). -/
structure Handle where
  err : BitVec 8
  flt : Bool
  lsize : Nat
  offset : Nat
  st : HState
  mark : Nat
deriving DecidableEq, Repr

/-- A token tree (R119): GEN, BASEPOS and the nodes. -/
structure Tree where
  gen : BitVec 8
  basepos : BitVec 32
  nodes : Tab Word
deriving DecidableEq, Repr

/-- An accumulator tile with its metadata: bit 7 U, bits 6:0 TAG (R108). -/
structure Tile where
  words : TileWords
  md : BitVec 8
deriving DecidableEq, Repr

/-- A pattern register: descriptor and capture (R112). -/
structure Pattern where
  desc : BitVec 128
  cap : BitVec 512
deriving DecidableEq, Repr

/-- A write to a generator (R224, R225): a dimension, an edge bound, the base and attributes, or one step. -/
inductive GenWr where
  | dim (d : Nat) (cnt : BitVec 32) (stp : BitVec 48)
  | edge (d : Nat) (idx bnd : BitVec 32)
  | base (v : Word) (attr : BitVec 32)
  | step
deriving DecidableEq, Repr

/-- A result on its way to its destination (R31); `csr` is a write of a control register by a bundle that an image has left in
the middle (R48, R229, R444); `scw` is a run of words of a scale register from word
`w` on (R320, R339); files with a share are named by the context's own index (R92), vector
registers by their physical name in the rotating region (R106). -/
inductive Res where
  | x (n : Nat) (v : Word)
  | q (v : Word)
  | guard (n : Nat) (v : Bool)
  | guards (v : BitVec 8)
  | gen (n : Nat) (w : GenWr)
  | v (n : Nat) (val : VReg) (born : Nat)
  | o (n : Nat) (val : VReg)
  | last (val : VReg)
  | sc (n : Nat) (val : VReg)
  | scw (n w : Nat) (vs : List Word)
  | pat (n : Nat) (desc : BitVec 128) (cap : Option (BitVec 512))
  | k (n : Nat) (rows : LatchRows)
  | tile (n : Nat) (t : Tile)
  | tree (n : Nat) (t : Tree)
  | mark (n : Nat) (m : BitVec 128)
  | csr (n : CsrName) (v : Word)
  | lse (v : BitVec 7)
  | bimlim (v : BitVec 32)
  | srseed (v : Word)
  | srctr (v : Word)
deriving DecidableEq, Repr

/-- A pending result: its due index, the index of its producer, and the result (R31, R33). `cnt` is false for a
write that R42 does not count. `chain` tells the chained operation that wrote it (R335): 1 TRUST1, 2 BIM.COMMIT, 3 either,
0 any other. -/
structure Pend where
  due : Nat
  src : Nat
  cnt : Bool
  chain : Nat
  res : Res
deriving DecidableEq, Repr

/-- The control and status registers of a context (R226, R227) that change at commit. -/
structure Csrs where
  pri : BitVec 2
  strict : Bool
  priv : Bool
  hdl : Bool
  vallot : Nat
  rbase : Word
  ldepth : Word
  rpos : Nat
  rot : Nat
  nstat : Flags
  cstat : BitVec 3
  mqdst : BitVec 12
  lse : BitVec 7
  srseed : Word
  srctr : Word
  epscl : BitVec 32
  epclp : Word
  bimlim : BitVec 32
  dlen : BitVec 8
  lpass : Word
  wsstl : Word
  chstl : Tab Word
  mbser : Word
  bkt : Tab Word
  hctxV : Bool
  hctxC : BitVec 2
deriving DecidableEq, Repr

/-- A fetched bundle: the address of its header, its slots, its length in bytes. -/
structure Fetched where
  pc : Word
  slots : List (Nat × Instr)
  len : Nat
deriving DecidableEq, Repr

/-- The nest of a loop (R232, R237): body address, BL, bundle in the pass, the generators named in the pass, and the loop
buffer: the body's bundles that have been issued, in order (R233). -/
structure Nest where
  body : Word
  bl : Nat
  pos : Nat
  gens : List Nat
  buf : List Fetched
deriving DecidableEq, Repr

/-- A share of a per-core file (R92). -/
structure Share where
  base : Nat
  count : Nat
deriving DecidableEq, Repr

/-- Memory spaces by physical place: device DRAM by device physical address, host memory, a cluster's scratchpad. -/
inductive Space where
  | dram
  | host
  | sp (cluster : Nat)
deriving DecidableEq, Repr

/-- Where the addresses of an access lie: virtual memory, or the scratchpad of a cluster, addresses wrapped already. -/
inductive ASpace where
  | mem
  | sp (cluster : Nat)
deriving DecidableEq, Repr

/-- A range of addresses [lo, hi) (R136). -/
structure Rg where
  asp : ASpace
  lo : Nat
  hi : Nat
deriving DecidableEq, Repr

/-- A range of granules in a space: [lo, hi). -/
structure GRange where
  sp : Space
  lo : Nat
  hi : Nat
deriving DecidableEq, Repr

/-- A release record (R155, R156): token, flag granule, ranges, scope. -/
structure RelRec where
  tok : Nat
  flagSp : Space
  flagG : Nat
  ranges : List GRange
  scope : Scope
deriving DecidableEq, Repr

/-- A translation leaf in use: ASID, page, frame and permissions (R450, R455). -/
structure Leaf where
  asid : Nat
  va : Nat
  size : Nat
  pa : Nat
  host : Bool
  rc : Bool
  x : Bool
  w : Bool
  r : Bool
  dd : Bool
deriving DecidableEq, Repr

/-- A pinned page (R138 to R140): its first address and size, its translation, write permission touched, the bundles left; `leaf`
is none while the pin waits to be made again (R140, R458), `lost` that an active stream has lost it
and takes no trap before the access that needs it (R458). -/
structure Pin where
  va : Nat
  size : Nat
  write : Bool
  left : Nat
  leaf : Option Leaf
  lost : Bool
deriving DecidableEq, Repr

/-- A barrier of a launch by scope, scope unit (virtual cluster, die group, 0) and number (R240). -/
structure BarKey where
  scope : BScope
  unit : Nat
  bn : Nat
deriving DecidableEq, Repr

/-- What a bundle has reserved and not yet used (R19). -/
inductive Resv where
  | chan (ch : Nat)
  | push (core mq : Nat)
  | chimney
  | units (n : Nat)
deriving DecidableEq, Repr

/-- A hardware context (R12, R18, R91); `trcfg` is TRCFG as its trap met it (R431). -/
structure Ctx where
  st : CtxSt
  pc : Word
  npc : Word
  bix : Nat
  idx : Nat
  cyc : Word
  x : Tab Word
  q : List Word
  b : BitVec 8
  g : Tab Gen
  h : Tab Handle
  csr : Csrs
  view : Csrs
  nest : Option Nest
  tsw0 : Word
  tsw1 : Word
  tsw2 : Word
  tsw3 : Word
  trcfg : Word
  ordc : BitVec 32
  commitn : BitVec 32
  chmask : BitVec 4
  opf : Share
  accs : Share
  lats : Share
  scs : Share
  pats : Share
  tts : Share
  v : Tab VReg
  vborn : Tab Nat
  vdead : List Nat
  vpois : List Nat
  pend : List Pend
  tok : Nat
  recs : List RelRec
  owned : List GRange
  pins : List Pin
  slots : List (Nat × Instr)
  todo : List (Nat × Instr)
  slot : Nat
  resume : Option Nat
  resv : List Resv
  chBlk : Bool
  rbNew : Bool
  skip : Nat
  halting : Bool
  yielding : Bool
  barWait : Option (BarKey × Nat)
  copySeq : Nat
deriving DecidableEq, Repr

/-! ## A core -/

/-- A stopped copy (R279, R437): cause code and address. -/
structure Stop where
  cause : Nat
  addr : Nat
deriving DecidableEq, Repr

/-- Where the addresses of one side of a copy lie (R277): virtual memory, a region of a cluster's scratchpad, or a die's
Mantel. -/
inductive Side where
  | mem
  | sp (cluster base size : Nat)
  | mantel (die : Nat)
deriving DecidableEq, Repr

/-- A copy in a channel (R135, R275): its operation, the operands read at its bundle with the places they lie in, and its
progress (R279): its number among the copies started on the device, the position, the indices, masks, pages or values read so far (`aux`), the rows checked (R283), decoded
bytes not yet written (`staging`); the mapping that it keeps (R174): the translations that the TLBs held as it started (`held`)
and device memory with its tables as it started and at each resumption, the oldest first (`snap`); and the markers behind
it. -/
structure Copy where
  op : Instr
  gcid : Nat
  seq : Nat
  no : Nat
  part : Nat
  priv : Bool
  gs : Gen
  gd : Gen
  gx : Gen
  sx : Word
  sside : Side
  dside : Side
  xside : Side
  grp : List Nat
  pos : Nat
  aux : Tab Word
  rows : Tab Bool
  staging : List (Byte × Bool)
  held : List Leaf
  snap : List Memory
  stop : Option Stop
  marks : List Nat
deriving DecidableEq, Repr

/-- A copy channel (R135, R280): its copies and its error code. -/
structure Chan where
  copies : List Copy
  err : BitVec 8
deriving DecidableEq, Repr

/-- A held code line (R461): ASID, virtual address, the place it was read from, and for each byte the values that it has
held since, the latest first. -/
structure Line where
  asid : Nat
  va : Nat
  sp : Space
  addr : Nat
  vals : List (List Byte)
deriving DecidableEq, Repr

/-- An entry of an inbound message queue (R95, R96): its value, and the context whose bundle has reserved it. -/
structure MqEntry where
  val : Word
  taken : Option Nat
deriving DecidableEq, Repr

/-- A range of the range scoreboard (R136): its context, whether it holds destinations and sources, the addresses, and the
copies that it covers and that have not retired. -/
structure BoardEntry where
  gcid : Nat
  dst : Bool
  src : Bool
  rgs : List Rg
  seqs : List Nat
deriving DecidableEq, Repr

/-- A core (R13 to R17, R91). -/
structure CoreSt where
  prim : Option Nat
  sec : Option Nat
  rotp : Nat
  promo : Nat
  swap : Bool
  phase : Nat
  mask : Nat
  tiles : Tab Tile
  marks : Tab (BitVec 128)
  opf : Tab VReg
  lat : Tab LatchRows
  sc : Tab VReg
  pat : Tab Pattern
  tt : Tab Tree
  last : VReg
  lastOwner : Option Nat
  pois : List Nat
  mq : Tab (List MqEntry)
  ch : Tab Chan
  board : List BoardEntry
  growQ : List Nat
  trapQ : List Nat
  tlb : List Leaf
  icache : List Line
  launch : Option Nat
deriving DecidableEq, Repr

/-! ## Clusters and dies -/

/-- A scratchpad region (R126, R129). -/
structure Region where
  off : Nat
  lsize : Nat
  skew : Bool
deriving DecidableEq, Repr

/-- A cluster: scratchpad, its race tags and poison, regions, ranges not yet cleared, routing counters, second-level TLB
(R125 to R129, R268, R455). -/
structure Cluster where
  mem : Memory
  tags : Tab (BitVec 32)
  pois : List Nat
  regions : List Region
  uncleared : List (Nat × Nat)
  ec : Tab (BitVec 32)
  tlb : List Leaf
deriving DecidableEq, Repr

/-- A record in a Chimney with its partition, stream and launch (R271, R390): `serial` numbers the LAUNCH commands. -/
structure ChimRec where
  lo : Word
  hi : Word
  part : Nat
  stream : Nat
  ltag : BitVec 32
  serial : Nat
deriving DecidableEq, Repr

/-- An event record in an arbiter or in the device log (R477): the fields but ESEQ; `part` none goes to the device
log. -/
structure EvRec where
  type : Nat
  part : Option Nat
  die : Nat
  gcid : Option Nat
  ltag : BitVec 32
  payload : BitVec 256
deriving DecidableEq, Repr

/-- A die (R130, R131, R165, R390, R476, R487); `mpois` are the poisoned bytes of its Mantel (R305, R462); `lost` marks the Mantel
banks that an error has removed and `remask` those of them that a WSMASK has been written with since (R484). -/
structure Die where
  mantel : Memory
  mpois : List Nat
  wsc : BitVec 16
  dmpgap : Word
  dmpph : Tab Word
  chim : List ChimRec
  arb : List EvRec
  clk : Nat
  cool : Nat
  temp : BitVec 32
  throttled : Bool
  rseq : Tab Nat
  ecc : Tab Nat
  lost : BitVec 64
  remask : BitVec 64
deriving DecidableEq, Repr

/-! ## Partitions, streams, launches -/

/-- A frame in build or closed (R391, R393): die, stream, tag, RSEQ of its first record, records. -/
structure Frame where
  die : Nat
  stream : Nat
  ltag : BitVec 32
  serial : Nat
  rseq : Nat
  recs : List (Word × Word)
deriving DecidableEq, Repr

/-- A partition (R431, R446, R469). -/
structure Part where
  en : Bool
  clmask : BitVec 32
  wsmask : Tab Word
  trcfg : Word
  trroute : Word
  xroot : Word
  xasid : Word
  xinv : Word
  xinvBusy : Bool
  elbase : Word
  elen : Bool
  ellsize : Nat
  eldrop : Nat
  elcons : Word
  egbase : Word
  egen : Bool
  eglsize : Nat
  egdrop : Nat
  egcons : Word
  grpbase : Word
  lgen : Nat
  eseq : Nat
  elrecs : List (Nat × Nat)
  fseq : Nat
  egpos : Nat
  egseqs : List (Nat × Nat × Nat)
  build : Option Frame
  closed : Option Frame
  lastPlaced : Tab Nat
deriving DecidableEq, Repr

/-- The states of a stream (R410). -/
inductive StreamSt where
  | idle | run | wait | preempted | stop | off
deriving DecidableEq, Repr

/-- A node of a task graph (R418). -/
structure TgNode where
  src : Word
  dst : Word
  len : Word
  succ : Word
  xf : Nat
  esz : Nat
  cnt : Nat
deriving DecidableEq, Repr

/-- A command stream (R407, R410, R418): `head` and `tail` are byte offsets, `busy` says that the command `cmd` has begun and
not completed, `fence` the streams whose commands a FENCE still waits for (R413), `detached` that EN has been set anew since
the command began (R408), `wsPos` that a WSLOAD runs, `wsBack` the removed banks that it brings back (R484), `tgPos` that a task of
the graph has faulted, `cmdOff` is the ring offset of `cmd`, `preNo` the placement that a PREEMPT has hit (R423; 0 none). -/
structure Stream where
  sqbase : Word
  en : Bool
  priv : Bool
  part : Nat
  pri : Nat
  lsize : Nat
  tail : Nat
  head : Nat
  st : StreamSt
  err : BitVec 8
  foff : Nat
  sqsave : Word
  busy : Bool
  nodes : Tab TgNode
  tgLeft : Tab Nat
  tgDone : List Nat
  tgPos : Nat
  wsPos : Nat
  wsBack : BitVec 64
  cmd : BitVec 256
  fence : List Nat
  detached : Bool
  cmdOff : Nat
  preNo : Nat
deriving DecidableEq, Repr

/-- A context descriptor (R216). -/
structure Desc where
  vcl : Nat
  core : Nat
  ctx : Nat
  pri : Nat
  owner : Bool
  vallot : Nat
  chmask : Nat
  entry : Nat
  opf : Share
  accs : Share
  lats : Share
  scs : Share
  pats : Share
  tts : Share
deriving DecidableEq, Repr

/-- A release of a barrier waiter or arrival (R166): context position, episode, phase, cycle, whether it was a waiter. -/
structure Rel where
  gcid : Nat
  ep : Nat
  phase : Nat
  cycle : Nat
  waiter : Bool
deriving DecidableEq, Repr

/-- A barrier (R241, R242): pending episode, positions arrived in it and in the next, releases outstanding, end of the
release window, and the latest episode of each participant. Positions are (virtual cluster × 32 + core × 4 + context). -/
structure Bar where
  ep : Nat
  arr : List Nat
  arrNext : List Nat
  rels : List Rel
  window : Nat
  last : Tab Nat
deriving DecidableEq, Repr

/-- A request slot (R247). -/
structure ReqSlot where
  act : Bool
  inc : BitVec 8
deriving DecidableEq, Repr

/-- What a pre-emption has saved of one core and of one cluster (R440, R445). -/
structure SavedCore where
  vcl : Nat
  core : Nat
  cs : CoreSt
  ctxs : List Ctx
deriving DecidableEq, Repr

structure SavedCluster where
  vcl : Nat
  cl : Cluster
deriving DecidableEq, Repr

/-- A launch (R414 to R416): header, descriptors, placement, launch state, and the saved state while pre-empted; `stopping` that
it is being saved; `collGone` the members (group, LCID) that have not issued their part of an aborted collective, with its
code (R293). -/
structure Launch where
  part : Nat
  serial : Nat
  ltag : BitVec 32
  cpl : Word
  codebase : Word
  nvcl : Nat
  shape : Nat
  spsize : Nat
  strict : Bool
  lat : List Nat
  descs : List Desc
  map : Tab Nat
  placed : Bool
  order : Nat
  req : Tab ReqSlot
  stale : Nat
  bars : List (BarKey × Bar)
  saved : Option (List SavedCore × List SavedCluster)
  group : Tab Nat
  lastDies : List Nat
  killed : Bool
  stopping : Bool
  collGone : List (Nat × Nat × BitVec 8)
deriving DecidableEq, Repr

/-- A translation invalidation in progress (R174, R457): its number, partition, ASID, page, size, the cores in scope, the
committing context or the CPYD if any. -/
structure Inval where
  no : Nat
  part : Nat
  asid : Nat
  va : Nat
  size : Nat
  cores : List Nat
  issuer : Option Nat
  copyOf : Option (Nat × Nat)
  xinv : Bool
  done : Bool
deriving DecidableEq, Repr

/-- A committed write not yet performed (R141, R168). -/
structure PendWrite where
  gcid : Nat
  strm : Nat
  sp : Space
  addr : Nat
  bytes : List Byte
deriving DecidableEq, Repr

/-- The states of a Viaduct port (R479). -/
inductive PortSt where
  | down | train | up | fail
deriving DecidableEq, Repr

/-- A Viaduct port (R478, R479): `replay` the flits sent and not acknowledged, `tries` how often the oldest has been replayed,
`nak` says that a NAK is out and no data has come since, `idle` counts the flits sent since the last idle one, `credits` the data
flits that may be sent; `rx` is the data delivered, `txq` the data to send, `out` the flits sent. -/
structure Port where
  en : Bool
  peer : BitVec 8
  peerid : BitVec 8
  st : PortSt
  retry : Nat
  rxSeq : BitVec 12
  txSeq : BitVec 12
  replay : List (BitVec 2048)
  tries : Nat
  nak : Bool
  idle : Nat
  credits : Nat
  rx : List (BitVec 1920)
  txq : List (BitVec 1920)
  out : List (BitVec 2048)
deriving DecidableEq, Repr

/-- The power state of the package (R488, R489). -/
inductive Power where
  | on | off | stopped
deriving DecidableEq, Repr

/-- The C96. `inbox` and `pace` are the model's: the events to come, and for each event of a list the contexts whose bundles go on in
it, with the number of slots that they commit (log 2). `copyNo` counts the copies started. -/
structure State where
  cur : Nat
  cycle : Nat
  turn : Nat
  inbox : List Instr
  pace : List (List (Nat × Nat))
  freeN : Nat
  ctxs : Tab Ctx
  cores : Tab CoreSt
  clus : Tab Cluster
  dies : Tab Die
  parts : Tab Part
  streams : Tab Stream
  launches : Tab Launch
  ports : Tab Port
  dram : Memory
  host : Memory
  dtags : Tab (BitVec 32)
  dpois : List Nat
  hpois : List Nat
  wbuf : List PendWrite
  invals : List Inval
  invalNo : Nat
  placeNo : Nat
  launchNo : Nat
  copyNo : Nat
  ready : Bool
  recov : Bool
  slotB : Bool
  therm : Bool
  fwsvn : BitVec 4
  devid : BitVec 8
  pwrcap : BitVec 11
  mbop : BitVec 8
  mbarg : BitVec 56
  mbsnap : List Word
  mbbusy : Bool
  mbdone : Bool
  mberr : BitVec 8
  mblen : Nat
  mbdata : Memory
  flash : Tab Byte
  devlog : List EvRec
  devdrop : Nat
  devseq : Nat
  irqs : List Nat
  telem : Nat
  watts : BitVec 32
  power : Power
  hostRead : List (Byte × Bool)
deriving DecidableEq, Repr

/-! ## Reset values -/

def Dim.zero : Dim := ⟨0, 0, 0, 0⟩
def Gen.zero : Gen := ⟨0, Dim.zero, Dim.zero, Dim.zero, Dim.zero, Dim.zero, Dim.zero, 0⟩
def Handle.reset : Handle := ⟨0, false, 0, 0, .free, 0⟩
/-- PARENT of an unwritten node is 127 (R119). -/
def nodeReset : Word := 127#64
def Tree.reset : Tree := ⟨0, 0, []⟩
def Tile.zero : Tile := ⟨0, 0⟩
def Pattern.zero : Pattern := ⟨0, 0⟩
def Share.none : Share := ⟨0, 0⟩

/-- The CSRs at launch placement and at reset (R226, R227); LSE, SRSEED and SRCTR are the model's choice (log 4). -/
def Csrs.reset : Csrs :=
  { pri := 0, strict := false, priv := false, hdl := false, vallot := 0, rbase := 0, ldepth := 0, rpos := 0, rot := 0,
    nstat := 0, cstat := 0, mqdst := 0, lse := 0, srseed := 0, srctr := 0, epscl := 0x3F800000#32,
    epclp := 0x7F800000FF800000#64, bimlim := 0x7F800000#32, dlen := 0, lpass := 0, wsstl := 0, chstl := [], mbser := 0,
    bkt := [], hctxV := false, hctxC := 0 }

/-- A context with no image: EMPTY, every register at its reset value (R91; the pc and CYC, log 4). -/
def Ctx.reset : Ctx :=
  { st := .empty, pc := 0, npc := 0, bix := 0, idx := 0, cyc := 0, x := [], q := [], b := 1#8, g := [], h := [],
    csr := Csrs.reset, view := Csrs.reset, nest := none, tsw0 := 0, tsw1 := 0, tsw2 := 0, tsw3 := 0, trcfg := 0, ordc := 0,
    commitn := 0, chmask := 0, opf := Share.none, accs := Share.none, lats := Share.none, scs := Share.none,
    pats := Share.none, tts := Share.none, v := [], vborn := [], vdead := [], vpois := [], pend := [], tok := 0,
    recs := [], owned := [], pins := [], slots := [], todo := [], slot := 0, resume := none, resv := [],
    chBlk := false, rbNew := false, skip := 0, halting := false, yielding := false, barWait := none, copySeq := 0 }

def Chan.reset : Chan := ⟨[], 0⟩

def CoreSt.reset : CoreSt :=
  { prim := none, sec := none, rotp := 0, promo := 0, swap := false, phase := 0, mask := 0, tiles := [], marks := [],
    opf := [], lat := [], sc := [], pat := [], tt := [], last := 0, lastOwner := none, pois := [], mq := [], ch := [],
    board := [], growQ := [], trapQ := [], tlb := [], icache := [], launch := none }

def Cluster.reset : Cluster := ⟨[], [], [], [], [], [], []⟩

/-- WSC at power-up is unspecified: 0 is the model's choice (R131, log 4); the clock is 2,000 MHz (R2). -/
def Die.reset : Die :=
  { mantel := [], mpois := [], wsc := 0, dmpgap := 0, dmpph := [], chim := [], arb := [], clk := 2000, cool := 0, temp := 0, throttled := false,
    rseq := [], ecc := [], lost := 0, remask := 0 }

def Part.reset : Part :=
  { en := false, clmask := 0, wsmask := [], trcfg := 0, trroute := 0, xroot := 0, xasid := 0, xinv := 0,
    xinvBusy := false, elbase := 0, elen := false, ellsize := 12, eldrop := 0, elcons := 0, egbase := 0, egen := false,
    eglsize := 12, egdrop := 0, egcons := 0, grpbase := 0, lgen := 0, eseq := 1, elrecs := [], fseq := 1, egpos := 0,
    egseqs := [], build := none, closed := none, lastPlaced := [] }

def Stream.reset : Stream :=
  { sqbase := 0, en := false, priv := false, part := 0, pri := 0, lsize := 12, tail := 0, head := 0, st := .off,
    err := 0, foff := 0, sqsave := 0, busy := false, nodes := [], tgLeft := [], tgDone := [], tgPos := 0, wsPos := 0,
    wsBack := 0, cmd := 0, fence := [], detached := false, cmdOff := 0, preNo := 0 }

def Port.reset : Port := ⟨false, 0, 0, .down, 0, 0, 0, [], 0, false, 0, 0, [], [], []⟩

/-- The machine right after reset: step 5 of R489 has run and READY is not yet set; memory lists nothing. -/
def State.reset : State :=
  { cur := 0, cycle := 0, turn := 0, inbox := [], pace := [], freeN := 0, ctxs := [], cores := [], clus := [], dies := [],
    parts := [], streams := [], launches := [], ports := [], dram := [], host := [], dtags := [], dpois := [],
    hpois := [], wbuf := [], invals := [], invalNo := 0, placeNo := 0, launchNo := 0, copyNo := 0, ready := false, recov := false, slotB := false,
    therm := false, fwsvn := Config.fusedSvn.setWidth 4, devid := 0, pwrcap := 1800#11, mbop := 0,
    mbarg := 0, mbsnap := [], mbbusy := false, mbdone := false, mberr := 0, mblen := 0, mbdata := [], flash := [], devlog := [], devdrop := 0, devseq := 0,
    irqs := [], telem := 0, watts := 0, power := .on, hostRead := [] }

/-! ## Stops -/

/-- Why the machine stops with a fault. -/
inductive Fault where
  /-- Raised by nothing in the model: every error of an access is a trap of the spec, a NEXT state. Safe. -/
  | noEffect (what : String)
deriving DecidableEq, Repr

/-- Why an operation has no meaning in the model. -/
inductive Refusal where
  /-- Raised by `exec` for an operation that the model does not give a meaning yet. Safe. -/
  | notModelled (mnemonic : String)
deriving DecidableEq, Repr

end Sys2Proof.Machine
end

