-- ==== Sys2Proof/Machine/Ops.lean ====
section
/-! DEFINITION. The named operations over contexts, cores and the device: accessors, pending results, taking an exception
and returning from it, and the frame in which every slot of a bundle runs (R31 to R48, R192, R424 to R434). -/

namespace Sys2Proof.Machine

open Sys2Proof

/-! ## Accessors -/

def State.ctx (s : State) (g : Nat) : Ctx := Tab.get Ctx.reset g s.ctxs
def State.setCtx (s : State) (g : Nat) (c : Ctx) : State := { s with ctxs := Tab.put g c s.ctxs }
def State.core (s : State) (k : Nat) : CoreSt := Tab.get CoreSt.reset k s.cores
def State.setCore (s : State) (k : Nat) (c : CoreSt) : State := { s with cores := Tab.put k c s.cores }
def State.clu (s : State) (k : Nat) : Cluster := Tab.get Cluster.reset k s.clus
def State.setClu (s : State) (k : Nat) (c : Cluster) : State := { s with clus := Tab.put k c s.clus }
def State.die (s : State) (k : Nat) : Die := Tab.get Die.reset k s.dies
def State.setDie (s : State) (k : Nat) (d : Die) : State := { s with dies := Tab.put k d s.dies }
def State.part (s : State) (k : Nat) : Part := Tab.get Part.reset k s.parts
def State.setPart (s : State) (k : Nat) (p : Part) : State := { s with parts := Tab.put k p s.parts }
def State.stream (s : State) (k : Nat) : Stream := Tab.get Stream.reset k s.streams
def State.setStream (s : State) (k : Nat) (q : Stream) : State := { s with streams := Tab.put k q s.streams }
def State.launch (s : State) (k : Nat) : Option Launch := Tab.find k s.launches
def State.setLaunch (s : State) (k : Nat) (l : Launch) : State := { s with launches := Tab.put k l s.launches }
def State.port (s : State) (k : Nat) : Port := Tab.get Port.reset k s.ports
def State.setPort (s : State) (k : Nat) (p : Port) : State := { s with ports := Tab.put k p s.ports }

/-- The fields of a GCID (R4). -/
def coreOf (g : Nat) : Nat := g / 4
def clusterOf (g : Nat) : Nat := g / 32
def dieOf (g : Nat) : Nat := g / 256

def State.modCtx (s : State) (g : Nat) (f : Ctx → Ctx) : State := s.setCtx g (f (s.ctx g))
def State.modCore (s : State) (k : Nat) (f : CoreSt → CoreSt) : State := s.setCore k (f (s.core k))
def State.modClu (s : State) (k : Nat) (f : Cluster → Cluster) : State := s.setClu k (f (s.clu k))
def State.modDie (s : State) (k : Nat) (f : Die → Die) : State := s.setDie k (f (s.die k))
def State.modPart (s : State) (k : Nat) (f : Part → Part) : State := s.setPart k (f (s.part k))
def State.modStream (s : State) (k : Nat) (f : Stream → Stream) : State := s.setStream k (f (s.stream k))
def State.modPort (s : State) (k : Nat) (f : Port → Port) : State := s.setPort k (f (s.port k))
def State.modLaunch (s : State) (k : Nat) (f : Launch → Launch) : State :=
  match s.launch k with
  | some l => s.setLaunch k (f l)
  | none => s

/-- The context whose slot is performed, its core and its cluster. -/
def State.me (s : State) : Ctx := s.ctx s.cur
def State.modMe (s : State) (f : Ctx → Ctx) : State := s.modCtx s.cur f
def State.myCore (s : State) : CoreSt := s.core (coreOf s.cur)
def State.modMyCore (s : State) (f : CoreSt → CoreSt) : State := s.modCore (coreOf s.cur) f

/-- The launch that holds a core, with its stream. -/
def State.launchOn (s : State) (core : Nat) : Option (Nat × Launch) :=
  match (s.core core).launch with
  | none => none
  | some k =>
    match s.launch k with
    | none => none
    | some l => some (k, l)

/-- The partition of the launch that holds a context's core. -/
def State.partOf (s : State) (g : Nat) : Nat :=
  match s.launchOn (coreOf g) with
  | some (_, l) => l.part
  | none => 0

/-- The key of a table that holds a value. -/
def Tab.keyOf (v : Nat) : Tab Nat → Option Nat
  | [] => none
  | (k, w) :: t => if w = v then some k else Tab.keyOf v t

/-- The virtual cluster of a physical cluster in a launch. -/
def Launch.vclOf (l : Launch) (cl : Nat) : Nat := (Tab.keyOf cl l.map).getD 0

/-- The logical context id: the GCID with the virtual cluster in place of die and cluster (R5). -/
def State.lcid (s : State) (g : Nat) : Nat :=
  match s.launchOn (coreOf g) with
  | some (_, l) => l.vclOf (clusterOf g) * 32 + g % 32
  | none => g % 32

/-- The latency classes in the order of R215. -/
inductive LatClass where
  | alu | mul | div | lds | ldm | ldw | mxf | mxb | drain | scale | pattern | ttree | handle
deriving DecidableEq, Repr

/-- The declared latency of a class for a context, at least 1 (R31, R215). -/
def State.lat (s : State) (g : Nat) (k : LatClass) : Nat :=
  match s.launchOn (coreOf g) with
  | some (_, l) => max 1 (l.lat.getD k.ctorIdx 1)
  | none => 1

/-- The strictness of a context (R251: the header's). -/
def State.strict (s : State) (g : Nat) : Bool := (s.ctx g).view.strict

/-! ## Generators (R116 to R118, R224) -/

def Gen.dim (g : Gen) (d : Nat) : Dim :=
  match d with
  | 0 => g.d0 | 1 => g.d1 | 2 => g.d2 | 3 => g.d3 | 4 => g.d4 | _ => g.d5

def Gen.setDim (g : Gen) (d : Nat) (v : Dim) : Gen :=
  match d with
  | 0 => { g with d0 := v } | 1 => { g with d1 := v } | 2 => { g with d2 := v }
  | 3 => { g with d3 := v } | 4 => { g with d4 := v } | _ => { g with d5 := v }

def Gen.space (g : Gen) : Nat := bits g.attr.toNat 0 2
def Gen.vcl (g : Gen) : Nat := bits g.attr.toNat 2 5
def Gen.sbc (g : Gen) : Bool := bits g.attr.toNat 7 1 == 1
def Gen.strm (g : Gen) : Nat := bits g.attr.toNat 8 4
def Gen.edge (g : Gen) : Bool := bits g.attr.toNat 12 1 == 1
/-- DIMS as written, and as used: 0 counts as 1 (R116). -/
def Gen.dimsRaw (g : Gen) : Nat := bits g.attr.toNat 13 3
def Gen.dims (g : Gen) : Nat := max 1 g.dimsRaw
/-- The count of a dimension as used: 0 counts as 1 (R116). -/
def Gen.count (g : Gen) (d : Nat) : Nat := max 1 (g.dim d).cnt.toNat

/-- Carrying one step through the dimensions from `d` on (R118). -/
def Gen.carry (g : Gen) (dims : Nat) : Nat → Nat → Gen
  | 0, _ => g
  | fuel + 1, d =>
    if dims ≤ d then g
    else
      let v := g.dim d
      let i := v.idx + 1#32
      if i.toNat < g.count d then g.setDim d { v with idx := i }
      else Gen.carry (g.setDim d { v with idx := 0#32 }) dims fuel (d + 1)

/-- One step (R118); a generator whose DIMS is 7 stays (R116). -/
def Gen.step (g : Gen) : Gen := if g.dimsRaw = 7 then g else Gen.carry g g.dims 6 0

def Gen.zeroIdx (g : Gen) : Gen :=
  { g with d0 := { g.d0 with idx := 0 }, d1 := { g.d1 with idx := 0 }, d2 := { g.d2 with idx := 0 },
           d3 := { g.d3 with idx := 0 }, d4 := { g.d4 with idx := 0 }, d5 := { g.d5 with idx := 0 } }

/-- A write to a generator applied (R224). -/
def Gen.apply (g : Gen) : GenWr → Gen
  | .dim d cnt stp => g.setDim d { g.dim d with cnt := cnt, stp := stp }
  | .edge d idx bnd => g.setDim d { g.dim d with idx := idx, bnd := bnd }
  | .base v attr => { g.zeroIdx with base := v, attr := attr }
  | .step => g.step

/-- Σ IDXd × STPd over the dimensions in use, modulo 2^64. -/
def Gen.offset (g : Gen) : Nat → Word
  | 0 => 0
  | d + 1 => Gen.offset g d + (BitVec.ofNat 64 (g.dim d).idx.toNat) * (g.dim d).stp.signExtend 64

/-- The origin of an access (R117). -/
def Gen.origin (g : Gen) : Word := g.base + g.offset g.dims

/-! ## Pending results (R31 to R33, R42) -/

/-- Two results with one destination. -/
def Res.same : Res → Res → Bool
  | .x a _, .x b _ => a == b
  | .q _, .q _ => true
  | .guard a _, .guard b _ => a == b
  | .v a _ _, .v b _ _ => a == b
  | .o a _, .o b _ => a == b
  | .last _, .last _ => true
  | .sc a _, .sc b _ => a == b
  | .k a _, .k b _ => a == b
  | .tile a _, .tile b _ => a == b
  | .tree a _, .tree b _ => a == b
  | .mark a _, .mark b _ => a == b
  | _, _ => false

/-- How much a result counts toward the narrow and the wide limit (R42). -/
def Res.weight : Res → Nat × Nat
  | .tile _ _ | .tree _ _ => (0, 1)
  | .k _ _ => (0, 2)
  | _ => (1, 0)

/-- The pending narrow and wide results of a context. -/
def Ctx.load (c : Ctx) : Nat × Nat :=
  c.pend.foldl (fun a p => if p.cnt then (a.1 + p.res.weight.1, a.2 + p.res.weight.2) else a) (0, 0)

/-- Whether a result goes nowhere: a write to x0 or b0 (R93, R221), or to a vector register that a SHRINK has released or
that a rotating region maps past the allotment (R103, R106; log 46). -/
def Ctx.drops (c : Ctx) : Res → Bool
  | .x n _ => n == 0
  | .guard n _ => n == 0
  | .v n _ _ => decide (64 * c.csr.vallot ≤ n)
  | _ => false

/-- A result enters the pending list. -/
def Ctx.push (c : Ctx) (due : Nat) (r : Res) (cnt : Bool := true) (chain : Nat := 0) : Ctx :=
  if c.drops r then c else { c with pend := c.pend ++ [⟨due, c.idx, cnt, chain, r⟩] }

/-- A result of the bundle being executed, in a latency class (R31). -/
def State.result (s : State) (k : LatClass) (r : Res) (cnt : Bool := true) (chain : Nat := 0) : State :=
  s.modMe (fun c => c.push (c.idx + s.lat s.cur k) r cnt chain)

/-- A write of a register that changes at commit and is visible from the next bundle (R229): R42 does not count it. -/
def State.resultNext (s : State) (r : Res) : State := s.modMe (fun c => c.push (c.idx + 1) r false)

/-- What a guarded-off slot pushes to the result queue (R192). -/
def State.pushZero (s : State) : State := s.modMe (fun c => c.push (c.idx + 1) (.q 0))

/-- A word of a scale register replaced. -/
def putWord (r : VReg) (w : Nat) (v : Word) : VReg :=
  (r &&& ~~~(BitVec.ofNat 4096 (2 ^ 64 - 1) <<< (64 * w))) ||| (v.setWidth 4096 <<< (64 * w))

/-- A run of words replaced from word `w` on. -/
def putWords (r : VReg) (w : Nat) : List Word → VReg
  | [] => r
  | v :: l => putWords (putWord r w v) (w + 1) l

/-- Keys of poisoned units of a core (R484). -/
def poisO (i : Nat) : Nat := i
def poisK (i : Nat) : Nat := 100 + i
def poisSc (i : Nat) : Nat := 200 + i
def poisLast : Nat := 300
def poisTile (i : Nat) : Nat := 400 + i

def unpoison (k : Nat) (l : List Nat) : List Nat := l.filter (fun a => a != k)

/-! ### The rotating region and the control registers (R104 to R106, R226) -/

/-- SIZE and BASE of the rotating region (R104). -/
def Csrs.rsize (c : Csrs) : Nat := bits c.rbase.toNat 16 11
def Csrs.rfirst (c : Csrs) : Nat := bits c.rbase.toNat 0 11
def Csrs.ren (c : Csrs) : Bool := c.rbase.getLsbD 31

/-- Whether a physical register lies in the rotating region. -/
def Csrs.inRegion (c : Csrs) (n : Nat) : Bool := decide (c.rfirst ≤ n) && decide (n < c.rfirst + c.rsize)

/-- A region that an RBASE write has named holds no live value (R105, R106). -/
def Ctx.killed (c : Ctx) : Ctx :=
  { c with rbNew := false,
           vdead := (List.range c.csr.rsize).map (fun i => c.csr.rfirst + i) ++ c.vdead.filter (fun n => !c.csr.inRegion n) }

/-- A control register takes a value; one that lives elsewhere, or has no writable bits, stays (R104, R105, R226, R227). -/
def Csrs.put (c : Csrs) (n : CsrName) (v : Word) : Csrs :=
  match n with
  | .mode => { c with pri := v.setWidth 2 }
  | .vallot => { c with vallot := v.toNat % 32 }
  | .rbase => { c with rbase := v &&& 0x87FF07FF#64, rpos := 0 }
  | .ldepth => { c with ldepth := v &&& 0x7FF#64 }
  | .rpos => { c with rpos := if c.rsize = 0 then 0 else v.toNat % 2 ^ 11 % c.rsize, rot := c.rot + 1 }
  | .nstat => { c with nstat := v.setWidth 6 }
  | .cstat => { c with cstat := v.setWidth 3 }
  | .mqdst => { c with mqdst := v.setWidth 12 }
  | .epscl => { c with epscl := v.setWidth 32 }
  | .epclp => { c with epclp := v }
  | .dlen => { c with dlen := v.setWidth 8 }
  | .wsstl => { c with wsstl := v }
  | .chstl k => { c with chstl := Tab.put k.val v c.chstl }
  | .mbser => { c with mbser := v }
  | .bkt k => { c with bkt := Tab.put k.val (v &&& 0xFFFFFFFF01FF01FF#64) c.bkt }
  | .hctx => { c with hctxV := v.getLsbD 8, hctxC := v.setWidth 2 }
  | _ => c

/-- A result written to its destination at its due index; a register beyond the allotment takes nothing (R103; log 46). -/
def State.land (s : State) (g : Nat) (r : Res) : State :=
  let c := s.ctx g
  let k := coreOf g
  match r with
  | .x n v => if n = 0 then s else s.setCtx g { c with x := Tab.put n v c.x }
  | .q v => s.setCtx g { c with q := (v :: c.q).take 16 }
  | .guard n v =>
    if n = 0 then s
    else s.setCtx g { c with b := if v then c.b ||| (1#8 <<< n) else c.b &&& ~~~(1#8 <<< n) }
  | .guards v => s.setCtx g { c with b := v ||| 1#8 }
  | .gen n w => s.setCtx g { c with g := Tab.put n ((Tab.get Gen.zero n c.g).apply w) c.g }
  | .v n val born =>
    if n < 64 * c.csr.vallot then
      s.setCtx g { c with v := Tab.put n val c.v, vborn := Tab.put n born c.vborn,
                          vdead := unpoison n c.vdead, vpois := unpoison n c.vpois }
    else s
  | .o n val =>
    s.modCore k (fun q => { q with opf := Tab.put (c.opf.base + n) val q.opf,
                                   pois := unpoison (poisO (c.opf.base + n)) q.pois })
  | .last val => s.modCore k (fun q => { q with last := val, pois := unpoison poisLast q.pois })
  | .sc n val =>
    s.modCore k (fun q => { q with sc := Tab.put (c.scs.base + n) val q.sc,
                                   pois := unpoison (poisSc (c.scs.base + n)) q.pois })
  | .scw n w vs =>
    s.modCore k (fun q =>
      { q with sc := Tab.put (c.scs.base + n) (putWords (Tab.get 0 (c.scs.base + n) q.sc) w vs) q.sc })
  | .pat n d cap =>
    s.modCore k (fun q =>
      let old := Tab.get Pattern.zero (c.pats.base + n) q.pat
      { q with pat := Tab.put (c.pats.base + n) ⟨d, cap.getD old.cap⟩ q.pat })
  | .k n rows =>
    s.modCore k (fun q => { q with lat := Tab.put (c.lats.base + n) rows q.lat,
                                   pois := unpoison (poisK (c.lats.base + n)) q.pois })
  | .tile n t =>
    s.modCore k (fun q => { q with tiles := Tab.put (c.accs.base + n) t q.tiles,
                                   pois := unpoison (poisTile (c.accs.base + n)) q.pois })
  | .tree n t => s.modCore k (fun q => { q with tt := Tab.put (c.tts.base + n) t q.tt })
  | .mark n m => s.modCore k (fun q => { q with marks := Tab.put (c.accs.base + n) m q.marks })
  | .csr n v =>
    let d := { c with csr := c.csr.put n v }
    s.setCtx g (if n = .rbase then d.killed else d)
  | .lse v => s.setCtx g { c with csr := { c.csr with lse := v } }
  | .bimlim v => s.setCtx g { c with csr := { c.csr with bimlim := v } }
  | .srseed v => s.setCtx g { c with csr := { c.csr with srseed := v } }
  | .srctr v => s.setCtx g { c with csr := { c.csr with srctr := v } }

/-- Insertion by due index, after the entries of the same index (R33). -/
def insertDue (p : Pend) : List Pend → List Pend
  | [] => [p]
  | a :: l => if a.due ≤ p.due then a :: insertDue p l else p :: a :: l

/-- Pending results in the order in which they apply (R33). -/
def sortDue (l : List Pend) : List Pend := l.foldl (fun a p => insertDue p a) []

/-- The results due at or before bundle index `n` are written (R31, R33). -/
def State.landDue (s : State) (g n : Nat) : State :=
  let c := s.ctx g
  let now := c.pend.filter (fun p => decide (p.due ≤ n))
  let s := s.setCtx g { c with pend := c.pend.filter (fun p => !decide (p.due ≤ n)) }
  (sortDue now).foldl (fun s p => s.land g p.res) s

/-- The latest pending result of a destination, in issue order (R48). -/
def Ctx.latest (c : Ctx) (same : Res → Bool) : Option Res :=
  (c.pend.reverse.find? (fun p => same p.res)).map (·.res)

/-! ## Flags and CSR changes at commit -/

/-- Sticky flags set at commit (R77). -/
def State.flag (s : State) (f : Flags) : State :=
  s.modMe (fun c => { c with csr := { c.csr with nstat := c.csr.nstat ||| f } })

/-- Fields of CSTAT set at commit (R436): DEADRD 1, BANKSER 2, CHFULL 4. -/
def State.contract (s : State) (f : BitVec 3) : State :=
  s.modMe (fun c => { c with csr := { c.csr with cstat := c.csr.cstat ||| f } })

def State.modCsr (s : State) (f : Csrs → Csrs) : State := s.modMe (fun c => { c with csr := f c.csr })

/-- A counter that saturates at 2^64 − 1 (R226). -/
def satInc (w : Word) : Word := if w = BitVec.allOnes 64 then w else w + 1#64

/-! ## Events and interrupts (R475 to R477) -/

/-- An MSI-X vector is raised. -/
def State.irq (s : State) (v : Nat) : State := { s with irqs := s.irqs ++ [v] }

/-- Counts saturating in 32 bits (R469). -/
def sat32 (n : Nat) : Nat := min n (2 ^ 32 - 1)

/-- Whether an arbiter has room (R476). -/
def State.arbRoom (s : State) (die : Nat) : Bool := decide ((s.die die).arb.length < 1024)

/-- A record that may be discarded is offered to a die's arbiter; a full arbiter counts it dropped (R476). -/
def State.offer (s : State) (e : EvRec) : State :=
  if s.arbRoom e.die then s.modDie e.die (fun d => { d with arb := d.arb ++ [e] })
  else
    match e.part with
    | some p => s.modPart p (fun q => { q with eldrop := sat32 (q.eldrop + 1) })
    | none => { s with devdrop := s.devdrop + 1 }

def ltagOn (s : State) (core : Nat) : BitVec 32 :=
  match s.launchOn core with
  | some (_, l) => l.ltag
  | none => 0

/-! ## Taking an exception (R44, R46, R424 to R434) -/

/-- The fields that a trap fills in the trap status word (R425). `done` marks a slot that counts as committed (R245). -/
structure Trap where
  cause : Nat
  addr : Word := 0
  gst : BitVec 3 := 0
  gctx : BitVec 10 := 0
  code : BitVec 8 := 0
  ch : Nat := 0
  hdl : Option Nat := none
  fetch : Bool := false
  done : Bool := false
deriving DecidableEq, Repr

def cIllenc : Nat := 0x01
def cIllop : Nat := 0x02
def cPriv : Nat := 0x03
def cRegrange : Nat := 0x04
def cDeadread : Nat := 0x05
def cMatbank : Nat := 0x06
def cMatfmt : Nat := 0x07
def cPatidx : Nat := 0x08
def cCpfull : Nat := 0x09
def cPage : Nat := 0x0A
def cProt : Nat := 0x0B
def cRace : Nat := 0x0C
def cCopyfault : Nat := 0x0D
def cWswrite : Nat := 0x0E
def cEccu : Nat := 0x0F
def cTrapi : Nat := 0x10
def cBreak : Nat := 0x11

def trapOf (cause : Nat) : Trap := { cause := cause }

/-- The place of a cause among the checks of a slot (R426); DEADREAD, which R426 does not list, follows ILLOP (log 16). -/
def causeRank (c : Nat) : Nat :=
  if c = cIllenc then 1 else if c = cPriv then 2 else if c = cRegrange then 3 else if c = cIllop then 4
  else if c = cDeadread then 5 else if c = cMatfmt then 6 else if c = cPatidx then 7 else if c = cMatbank then 8
  else if c = cCpfull then 9 else if c = cWswrite then 10 else if c = cCopyfault then 11 else 12

/-- TSW0 (R425). -/
def tsw0Of (t : Trap) (strict nb : Bool) (sres : Nat) : Word :=
  BitVec.ofNat 64
    (t.cause + sres * 2 ^ 8 + (if nb then 2 ^ 11 else 0) + (if strict then 2 ^ 12 else 0)
      + (if t.fetch then 2 ^ 13 else 0)
      + (match t.hdl with | some h => h * 2 ^ 17 + 2 ^ 23 | none => 0)
      + t.ch * 2 ^ 24 + t.code.toNat * 2 ^ 32 + t.gst.toNat * 2 ^ 40 + t.gctx.toNat * 2 ^ 43)

/-- A context leaves the streams of its core (R23). -/
def State.leaveStream (s : State) (g : Nat) : State :=
  s.modCore (coreOf g) (fun q =>
    { q with prim := if q.prim = some (g % 4) then none else q.prim,
             sec := if q.sec = some (g % 4) then none else q.sec })

/-- A table with every value changed. -/
def mapVals {α : Type} (f : Nat → α → α) : Tab α → Tab α
  | [] => []
  | (k, v) :: t => (k, f k v) :: mapVals f t

/-- A queue whose entries no bundle of a context reserves any more (R96). -/
def freeEntries (i : Nat) (l : List MqEntry) : List MqEntry :=
  l.map (fun e => if e.taken = some i then { e with taken := none } else e)

/-- What a discarded bundle had reserved is given back: its entries stay in their queues for the next pop (R19, R96). -/
def State.giveBack (s : State) (g : Nat) : State :=
  let s := s.modCore (coreOf g) (fun q => { q with mq := mapVals (fun _ l => freeEntries (g % 4) l) q.mq })
  s.modCtx g (fun c => { c with resv := [] })

/-- Whether a trap goes to the handler context of the core (R432, R433). -/
def State.toHandler (s : State) (g cause : Nat) : Bool :=
  let p := s.part (s.partOf g)
  let hnd := bits p.trcfg.toNat 8 2
  let described :=
    match s.launchOn (coreOf g) with
    | some (_, l) => l.descs.any (fun d => d.vcl == l.vclOf (clusterOf g) && d.core == coreOf g % 8 && d.ctx == hnd)
    | none => false
  flag0 p.trcfg && p.trroute.getLsbD cause && decide (0 < cause) && (g % 4 != hnd) && !described && !(s.ctx g).csr.hdl
where
  flag0 (w : Word) : Bool := w.getLsbD 0

/-- A trap routed to the host: an event with the trap status word and the partition's trap interrupt (R434). A full
arbiter makes it wait in the core's queue (R476). -/
def State.hostTrap (s : State) (g : Nat) : State :=
  let c := s.ctx g
  let p := s.partOf g
  if !s.arbRoom (dieOf g) then
    s.modCore (coreOf g) (fun q => { q with trapQ := q.trapQ ++ [4 + g % 4] })
  else
    let pay := (c.tsw3 ++ c.tsw2 ++ c.tsw1 ++ c.tsw0 : BitVec 256)
    (s.offer ⟨1, some p, dieOf g, some g, ltagOn s (coreOf g), pay⟩).irq (16 + p)

/-- The trap of a context goes to the core's queue for delivery, under the trap registers as they are now, or to the host
(R431, R432). -/
def State.route (s : State) (g cause : Nat) : State :=
  if s.toHandler g cause then
    (s.modCtx g (fun c => { c with trcfg := (s.part (s.partOf g)).trcfg })).modCore (coreOf g) (fun q =>
      { q with trapQ := q.trapQ ++ [g % 4] })
  else s.hostTrap g

/-- The slots that a trap leaves uncommitted: a completed slot counts as committed (R245). -/
def Ctx.trapRest (c : Ctx) (t : Trap) : List (Nat × Instr) := if t.done then c.todo.tail else c.todo

/-- NB of TSW0: the trap's slot was the bundle's last and has committed (R425). -/
def Ctx.trapNb (c : Ctx) (t : Trap) : Bool := t.done && (c.trapRest t).isEmpty

/-- SRES of TSW0 (R425): the first slot that has not committed, where the context resumes. With NB set it names no slot and is open
(log 11); ILLENC of a whole bundle and a fetch fault give 0 (R424, R427), and another trap met before a replay starts keeps the slot where
the replay was to start (log 23). -/
def Ctx.trapSres (c : Ctx) (t : Trap) (freeN : Nat) : Nat :=
  if c.trapNb t then (Config.free 3 freeN).toNat
  else if t.fetch || (t.cause == cIllenc && (c.trapRest t).isEmpty) then 0
  else ((c.trapRest t).head?.map (·.1)).getD (c.resume.getD 0)

/-- TAKING AN EXCEPTION at the slot that heads the bundle's remaining slots: the slots to its left have committed, the
rest is discarded, the context is TRAPPED with its trap status word, and the trap is routed (R44, R46, R425, R428). The pc
stays at the trapping bundle, BIX keeps the count of the bundles issued (R30; log 10), and the context no longer waits for a GROW
(R102). -/
def State.takeTrap (s : State) (g : Nat) (t : Trap) : State :=
  let nb := (s.ctx g).trapNb t
  let sres := (s.ctx g).trapSres t s.freeN
  let s := s.giveBack g
  let s := s.modCtx g (fun c =>
    { c with st := .trapped, tsw0 := tsw0Of t c.view.strict nb sres, tsw1 := c.pc, tsw2 := BitVec.ofNat 64 c.idx,
             tsw3 := t.addr, todo := [], slots := [], resume := none, chBlk := false, yielding := false })
  let s := s.modCore (coreOf g) (fun q => { q with growQ := q.growQ.filter (fun i => i != g % 4) })
  ({ s with freeN := s.freeN + 1 }.leaveStream g).route g t.cause

/-- RETURNING FROM AN EXCEPTION: the context is READY at its slot-resume point, past the whole bundle when NB is set, and
its trap status word is undefined (R429, R430; log 3). -/
def State.returnTrap (s : State) (g : Nat) : State :=
  let s := s.modCtx g (fun c =>
    { c with st := .ready, resume := some (if c.tsw0.getLsbD 11 then 8 else bits c.tsw0.toNat 8 3),
             tsw0 := Config.free 64 s.freeN, tsw1 := Config.free 64 (s.freeN + 1),
             tsw2 := Config.free 64 (s.freeN + 2), tsw3 := Config.free 64 (s.freeN + 3) })
  { s with freeN := s.freeN + 4 }

/-! ## The frame of a slot -/

/-- What the body of a slot answers: the state at its commit, a trap, a condition of R19 that does not hold, or a wait in
the slot queue that does not block (R20, R137). -/
inductive SlotR where
  | ok (s : State)
  | trap (t : Trap)
  | block
  | stall
deriving Repr

/-- A check of a body: the first that fails traps (R426). -/
def chk (b : Bool) (cause : Nat) (k : SlotR) : SlotR := if b then k else .trap (trapOf cause)

/-- The guard value of a slot (R192). -/
def Ctx.guardOn (c : Ctx) (m : Common) : Bool := (c.b ||| 1#8).getLsbD m.gs.val != m.gi

/-- The first entry of a queue that `t` reserves (none: that nothing reserves), with the others. -/
def takeEntry (t : Option Nat) : List MqEntry → Option (Word × List MqEntry)
  | [] => none
  | e :: l =>
    if e.taken = t then some (e.val, l)
    else
      match takeEntry t l with
      | some (v, r) => some (v, e :: r)
      | none => none

/-- A pop of an inbound queue: the entry reserved at issue, or else the oldest that nothing reserves, leaves the queue
(R96). -/
def State.popMq (s : State) (n : Nat) : Option (State × Word) :=
  let q := Tab.get [] n s.myCore.mq
  match takeEntry (some (s.cur % 4)) q <|> takeEntry none q with
  | none => none
  | some (v, l) => some (s.modMyCore (fun k => { k with mq := Tab.put n l k.mq }), v)

/-- A scalar source (R193, R218); a literal is sign-extended. -/
def State.src (s : State) (lit : Lit) : Src → Option (State × Word)
  | .x n => some (s, if n.val = 0 then 0 else Tab.get 0 n.val s.me.x)
  | .q n => some (s, s.me.q.getD n.val 0)
  | .mq n => s.popMq n.val
  | .lit => some (s, (lit.getD 0).signExtend 64)

/-- Several sources in order (R218). -/
def State.srcs (s : State) (lit : Lit) : List Src → Option (State × List Word)
  | [] => some (s, [])
  | a :: l =>
    match s.src lit a with
    | none => none
    | some (s, v) =>
      match State.srcs s lit l with
      | none => none
      | some (s, vs) => some (s, v :: vs)

/-- The slot at the head of the bundle's remaining slots has committed; the free values it used are used up. -/
def State.commit (s : State) : State :=
  { s.modMe (fun c => { c with todo := c.todo.tail }) with freeN := s.freeN + 1 }

/-- The context becomes BLOCKED (R19, R21). -/
def State.block (s : State) (g : Nat) : State := (s.modCtx g (fun c => { c with st := .blocked })).leaveStream g

/-- Whether the results of a slot would exceed the limits of R42, on top of those pending. -/
def Ctx.over (c : Ctx) (cnt : Nat × Nat) : Bool :=
  let l := c.load
  (decide (0 < cnt.1) && decide (64 < l.1 + cnt.1)) || (decide (0 < cnt.2) && decide (32 < l.2 + cnt.2))

/-- The answer of every step: a next state. -/
abbrev Out := Host.Outcome State Fault Refusal

/-- A SLOT RUNS (R39, R44, R192): its sources are read and its message queues popped; guarded off, it only pops and
pushes 0 to the result queue; else its body commits or traps, and more pending results than R42 allows raise ILLOP in the
order of R426. Guarded off it raises no fault but the ILLENC of `illenc`, the push of a 0 over the limit of R42 among them (R192). A pop of
an empty queue blocks. `pushes` says that the destination is the result queue, `cnt` is how many narrow and wide results the slot makes. -/
def runSlot (s : State) (m : Common) (lit : Lit) (srcs : List Src) (pushes : Bool) (cnt : Nat × Nat)
    (body : State → List Word → SlotR) (illenc : List Word → Bool := fun _ => false) : Out :=
  match s.srcs lit srcs with
  | none => .next (s.block s.cur)
  | some (s1, vs) =>
    if illenc vs then .next (s.takeTrap s.cur (trapOf cIllenc))
    else if s.me.guardOn m then
      match body s1 vs with
      | .block => .next (s.block s.cur)
      | .stall => .next s
      | .trap t =>
        if s.me.over cnt && decide (4 < causeRank t.cause) then .next (s.takeTrap s.cur (trapOf cIllop))
        else .next (s.takeTrap s.cur t)
      | .ok s2 =>
        if s.me.over cnt then .next (s.takeTrap s.cur (trapOf cIllop)) else .next s2.commit
    else .next (if pushes then s1.pushZero else s1).commit

/-- A slot that first waits at its commit point: `pre` gives the state after what may be done meanwhile, and whether the
wait goes on (R21). -/
def runWait (s : State) (m : Common) (pre : State → State × Bool) (run : State → Out) : Out :=
  if s.me.guardOn m then
    match pre s with
    | (s', true) => .next s'
    | (s', false) => run s'
  else run s

end Sys2Proof.Machine
end

