-- ==== Sys2Proof/Machine/Operands.lean ====
section
/-! DEFINITION. Operand forms: scalar destinations, message queues, vector operands and runs of registers, rotating names
and dead values (R92 to R107, R193 to R196). -/

namespace Sys2Proof.Machine

open Sys2Proof

/-! ## Bits of wide values -/

/-- The lowest `n` fields of `w` bits of a number. -/
def unpackN (w : Nat) : Nat → Nat → List Nat
  | 0, _ => []
  | n + 1, x => x % 2 ^ w :: unpackN w n (x / 2 ^ w)

/-- Fields of `w` bits put together, the first lowest (R56). -/
def packN (w : Nat) : List Nat → Nat
  | [] => 0
  | c :: l => c % 2 ^ w + 2 ^ w * packN w l

/-- A number as `n` registers of 512 bytes, the first lowest. -/
def toRegs (n x : Nat) : List VReg := (unpackN 4096 n x).map (BitVec.ofNat 4096)
/-- Registers as one number. -/
def ofRegs (l : List VReg) : Nat := packN 4096 (l.map BitVec.toNat)

/-- A run of at most `n` items from position `i` on, padded. -/
def sliceD {α : Type} (d : α) (l : List α) (i n : Nat) : List α := (List.range n).map (fun k => l.getD (i + k) d)

/-! ## Scalars -/

/-- The core that mqN of a context names (R95). -/
def State.mqTarget (s : State) (n : Nat) : Nat :=
  clusterOf s.cur * 8 + bits s.me.view.mqdst.toNat (3 * n) 3

/-- Whether an inbound queue has a place that no bundle has reserved (R19). -/
def reservedPush (s : State) (core mq : Nat) : Nat :=
  (s.ctxs.map (fun p => (p.2.resv.filter (fun r => r == .push core mq)).length)).foldl (· + ·) 0

/-- The first occurrence of a reservation is used up. -/
def dropResv (r : Resv) (l : List Resv) : List Resv := l.erase r

/-- A push to an inbound queue of a core of the cluster, at commit (R95, R97); none when the queue is full. Pushes of different contexts
arrive in the order of their commits, where R97 leaves the order open (log 52). -/
def State.pushMq (s : State) (n : Nat) (v : Word) : Option State :=
  let k := s.mqTarget n
  let l := Tab.get [] n (s.core k).mq
  let mine := s.me.resv.contains (.push k n)
  if 16 ≤ l.length + (reservedPush s k n - (if mine then 1 else 0)) then none
  else
    let s := s.modMe (fun c => { c with resv := dropResv (.push k n) c.resv })
    some (s.modCore k (fun q => { q with mq := Tab.put n (l ++ [⟨v, none⟩]) q.mq }))

/-- A scalar result goes to its destination (R194). -/
def State.dst (s : State) (k : LatClass) (d : Dst) (v : Word) : SlotR :=
  match d with
  | .x n => .ok (s.result k (.x n.val v))
  | .q => .ok (s.result k (.q v))
  | .mq n =>
    match s.pushMq n.val v with
    | some s => .ok s
    | none => .block

def dIsQ : Dst → Bool
  | .q => true
  | _ => false

/-- How many results a scalar destination makes (R42). -/
def dcnt : Dst → Nat × Nat
  | .x n => if n.val = 0 then (0, 0) else (1, 0)
  | .q => (1, 0)
  | .mq _ => (0, 0)

def xCnt (n : Fin 32) : Nat × Nat := if n.val = 0 then (0, 0) else (1, 0)

/-- A slot that computes one scalar result (R218). -/
def scalarOp (s : State) (m : Common) (lit : Lit) (k : LatClass) (d : Dst) (srcs : List Src)
    (f : State → List Word → Word) : Out :=
  runSlot s m lit srcs (dIsQ d) (dcnt d) (fun s vs => s.dst k d (f s vs))

/-! ## Vector registers (R99 to R107) -/

/-- The physical register of a main-file name (R106). -/
def Csrs.phys (c : Csrs) (n : Nat) : Nat :=
  if c.inRegion n then c.rfirst + (n - c.rfirst + c.rsize - c.rpos % c.rsize) % c.rsize else n

/-- Whether a read of a physical register obtains a dead value (R106). -/
def Ctx.deadAt (c : Ctx) (n : Nat) : Bool :=
  c.vdead.contains n ||
    (c.view.inRegion n && decide (1 ≤ c.view.ldepth.toNat) &&
      decide (c.view.ldepth.toNat ≤ c.view.rot - Tab.get c.view.rot n c.vborn))

/-- The range check of a run of `n` operands (R99): the cause, if it fails. A run of the special level reads zero. A GROW or
a SHRINK changes the allotment that operands are checked against from the next bundle (R239; log 17). The name is checked and not the
register of the file to which a rotating region maps it (R105, R106; log 46). -/
def State.checkV (s : State) (v : VOp) (n : Nat) : Option Nat :=
  let c := s.me
  match v.lvl with
  | .main => if v.idx.val + n ≤ 1536 ∧ v.idx.val + n ≤ 64 * c.view.vallot then none else some cRegrange
  | .opf => if v.idx.val + n ≤ c.opf.count then none else some cRegrange
  | .latch =>
    if v.idx.val + n ≤ 1 ∧ s.myCore.lastOwner = some (s.cur % 4) then none else some cRegrange
  | .special => none

/-- The operand `v` moved up by `t` registers. -/
def vplus (v : VOp) (t : Nat) : VOp :=
  match v.lvl with
  | .special => v
  | _ => ⟨v.lvl, Fin.ofNat 2048 (v.idx.val + t)⟩

/-- What a read of one operand gives: its value, whether it was dead, whether it is poisoned. -/
structure VRead where
  val : VReg
  dead : Bool
  pois : Bool
deriving DecidableEq, Repr

/-- One operand as visible at the bundle (R31, R99, R107). -/
def State.readV (s : State) (v : VOp) : VRead :=
  let c := s.me
  match v.lvl with
  | .main =>
    let p := c.view.phys v.idx.val
    if c.deadAt p then ⟨0, true, false⟩ else ⟨Tab.get 0 p c.v, false, c.vpois.contains p⟩
  | .opf =>
    let p := c.opf.base + v.idx.val
    ⟨Tab.get 0 p s.myCore.opf, false, s.myCore.pois.contains (poisO p)⟩
  | .latch => ⟨s.myCore.last, false, s.myCore.pois.contains poisLast⟩
  | .special => ⟨0, false, false⟩

/-- The result that writes one operand; none at the special level (R99). -/
def State.vRes (s : State) (v : VOp) (val : VReg) : Option Res :=
  match v.lvl with
  | .main => some (.v (s.me.view.phys v.idx.val) val s.me.view.rot)
  | .opf => some (.o v.idx.val val)
  | .latch => some (.last val)
  | .special => none

/-- One operand as the chained operation `k` reads it: the latest pending result that an instruction of its opcode wrote to
its register, else the register (R48, R335). -/
def State.readChained (s : State) (k : Nat) (v : VOp) : VRead :=
  match s.vRes v 0 with
  | none => s.readV v
  | some r =>
    match (s.me.pend.reverse.find? (fun p => (p.chain == k || p.chain == 3) && r.same p.res)).map Pend.res with
    | some (.v _ val _) => ⟨val, false, false⟩
    | some (.o _ val) => ⟨val, false, false⟩
    | some (.last val) => ⟨val, false, false⟩
    | _ => s.readV v

/-- A run of `n` registers, read one by one. -/
def State.readRun (s : State) (v : VOp) (n : Nat) : List VRead := (List.range n).map (fun t => s.readV (vplus v t))

/-- Dead values read: DEADREAD in strict mode, else DEADRD set (R107). -/
def State.withDead (s : State) (rs : List VRead) (k : State → SlotR) : SlotR :=
  if rs.any (·.dead) then
    (if s.strict s.cur then .trap (trapOf cDeadread) else k (s.contract 1#3))
  else k s

/-- Poisoned registers read: ECCU (R484). -/
def withPois (rs : List VRead) (k : SlotR) : SlotR := if rs.any (·.pois) then .trap (trapOf cEccu) else k

/-- The operand of a slot: checked, read, dead and poisoned values answered (R107, R484). `k` receives the registers and
the state with DEADRD set where a dead value was read in lenient mode. -/
def State.withReads (s : State) (rs : List VRead) (k : State → List VReg → SlotR) : SlotR :=
  s.withDead rs (fun s => withPois rs (k s (rs.map (·.val))))

/-- A run of registers written in a latency class; each counts (R42). -/
def State.writeRun (s : State) (k : LatClass) (v : VOp) (vals : List VReg) (chain : Nat := 0) : State :=
  (enumFrom 0 vals).foldl (fun s p =>
    match s.vRes (vplus v p.1) p.2 with
    | some r => s.result k r true chain
    | none => s) s

/-- How many results a run of `n` vector registers makes (R42). -/
def vcnt (v : VOp) (n : Nat) : Nat × Nat :=
  match v.lvl with
  | .special => (0, 0)
  | _ => (n, 0)

/-- The registers v(i) to v(i + 11) of a matrix vector group (R196). -/
def groupOp (i : Fin 2048) : VOp := ⟨.main, i⟩

end Sys2Proof.Machine
end

