-- ==== Sys2Proof/Machine/Arith.lean ====
section
/-! DEFINITION. S0 and S1: arithmetic, logic, moves, guard logic and address-generator setup (R218 to R225). -/

namespace Sys2Proof.Machine

open Sys2Proof

/-! ## The functions of R219, R220 and R222 -/

/-- An R-form operation with two sources. -/
def aluOp (f : FR) (s : State) (k : LatClass) (op : Word → Word → Word) : Out :=
  scalarOp s f.c f.lit k f.d [f.a, f.b] (fun _ vs => op (vs.getD 0 0) (vs.getD 1 0))

/-- An R-form operation with one source. -/
def aluOp1 (f : FR1) (s : State) (op : Word → Word) : Out :=
  scalarOp s f.c f.lit .alu f.d [f.a] (fun _ vs => op (vs.getD 0 0))

/-- The high half of a product (R219). -/
def mulHigh (a b : Int) : Word := BitVec.ofInt 64 (a * b / 2 ^ 64)

/-- Signed and unsigned division and remainder; a divisor of zero gives all ones or the dividend (R220). -/
def divS (a b : Word) : Word := if b = 0#64 then BitVec.allOnes 64 else a.sdiv b
def divU (a b : Word) : Word := if b = 0#64 then BitVec.allOnes 64 else a / b
def remS (a b : Word) : Word := if b = 0#64 then a else a.srem b
def remU (a b : Word) : Word := if b = 0#64 then a else a % b

/-- The shift amount SB<5:0> (R219). -/
def shAmt (b : Word) : Nat := b.toNat % 64

/-- The number of leading zero bits below bit `n`. -/
def clzFrom (a : Word) : Nat → Nat
  | 0 => 0
  | n + 1 => if a.getLsbD n then 0 else clzFrom a n + 1
/-- The number of zero bits from bit 64 − `n` up. -/
def ctzFrom (a : Word) : Nat → Nat
  | 0 => 0
  | n + 1 => if a.getLsbD (63 - n) then 0 else ctzFrom a n + 1
def popFrom (a : Word) : Nat → Nat
  | 0 => 0
  | n + 1 => (if a.getLsbD n then 1 else 0) + popFrom a n

/-- A number cut to a width and extended (R222). -/
def extWidth : ExtW → Nat
  | .w8 => 8 | .w16 => 16 | .w32 => 32

def execAdd (f : FR) (s : State) : Out := aluOp f s .alu (fun a b => a + b)
def execSub (f : FR) (s : State) : Out := aluOp f s .alu (fun a b => a - b)
def execMul (f : FR) (s : State) : Out := aluOp f s .mul (fun a b => a * b)
def execMulh (f : FR) (s : State) : Out := aluOp f s .mul (fun a b => mulHigh a.toInt b.toInt)
def execMulhn (f : FR) (s : State) : Out := aluOp f s .mul (fun a b => mulHigh a.toNat b.toNat)
def execDiv (f : FR) (s : State) : Out := aluOp f s .div divS
def execDivn (f : FR) (s : State) : Out := aluOp f s .div divU
def execRem (f : FR) (s : State) : Out := aluOp f s .div remS
def execRemn (f : FR) (s : State) : Out := aluOp f s .div remU
def execAnd (f : FR) (s : State) : Out := aluOp f s .alu (fun a b => a &&& b)
def execOr (f : FR) (s : State) : Out := aluOp f s .alu (fun a b => a ||| b)
def execXor (f : FR) (s : State) : Out := aluOp f s .alu (fun a b => a ^^^ b)
def execAndn (f : FR) (s : State) : Out := aluOp f s .alu (fun a b => a &&& ~~~b)
def execShl (f : FR) (s : State) : Out := aluOp f s .alu (fun a b => a <<< shAmt b)
def execShr (f : FR) (s : State) : Out := aluOp f s .alu (fun a b => a >>> shAmt b)
def execSar (f : FR) (s : State) : Out := aluOp f s .alu (fun a b => a.sshiftRight (shAmt b))
def execRol (f : FR) (s : State) : Out := aluOp f s .alu (fun a b => a.rotateLeft (shAmt b))
def execClz (f : FR1) (s : State) : Out := aluOp1 f s (fun a => BitVec.ofNat 64 (clzFrom a 64))
def execCtz (f : FR1) (s : State) : Out := aluOp1 f s (fun a => BitVec.ofNat 64 (ctzFrom a 64))
def execPopc (f : FR1) (s : State) : Out := aluOp1 f s (fun a => BitVec.ofNat 64 (popFrom a 64))
def execMin (f : FR) (s : State) : Out := aluOp f s .alu (fun a b => if b.slt a then b else a)
def execMax (f : FR) (s : State) : Out := aluOp f s .alu (fun a b => if a.slt b then b else a)
def execMinn (f : FR) (s : State) : Out := aluOp f s .alu (fun a b => if b.ult a then b else a)
def execMaxn (f : FR) (s : State) : Out := aluOp f s .alu (fun a b => if a.ult b then b else a)

/-- A guard bit as read by an operation: visible at the bundle, b0 reading 1. -/
def Ctx.guardBit (c : Ctx) (n : Fin 8) : Bool := (c.b ||| 1#8).getLsbD n.val

/-- A guard bit written in the ALU class; b0 takes nothing (R221). -/
def State.guardResult (s : State) (n : Fin 8) (v : Bool) : State := s.result .alu (.guard n.val v)

def guardCnt (n : Fin 8) : Nat × Nat := if n.val = 0 then (0, 0) else (1, 0)

/-- CMP (R221). -/
def execCmp (f : FC) (s : State) : Out :=
  runSlot s f.c f.lit [f.a, f.b] false (guardCnt f.bd) (fun s vs =>
    .ok (s.guardResult f.bd (condHolds f.cond (vs.getD 0 0) (vs.getD 1 0))))

/-- SEL (R222). -/
def execSel (f : FSel) (s : State) : Out :=
  runSlot s f.c f.lit [f.a, f.b] false (xCnt f.dx) (fun s vs =>
    .ok (s.result .alu (.x f.dx.val (if s.me.guardBit f.bs then vs.getD 0 0 else vs.getD 1 0))))

def execMov (f : FR1) (s : State) : Out := aluOp1 f s (fun a => a)

/-- LI (R222). -/
def execLi (f : FI) (s : State) : Out :=
  scalarOp s f.c none .alu f.d [] (fun _ _ =>
    match f.imm with
    | .i14 v => v.signExtend 64
    | .lit v => v.signExtend 64)

/-- LIH (R222). -/
def execLih (f : FLih) (s : State) : Out :=
  scalarOp s f.c (some f.imm) .alu f.d [f.a] (fun _ vs =>
    (vs.getD 0 0 &&& 0xFFFFFFFF#64) ||| (f.imm.setWidth 64 <<< 32))

def execSext (f : FExt) (s : State) : Out :=
  scalarOp s f.c f.lit .alu f.d [f.a] (fun _ vs => ((vs.getD 0 0).setWidth (extWidth f.w)).signExtend 64)
def execZext (f : FExt) (s : State) : Out :=
  scalarOp s f.c f.lit .alu f.d [f.a] (fun _ vs => ((vs.getD 0 0).setWidth (extWidth f.w)).setWidth 64)

/-- The guard logic of R223. -/
def guardOp (f : FG) (s : State) (op : Bool → Bool → Bool) : Out :=
  runSlot s f.c none [] false (guardCnt f.bd) (fun s _ =>
    .ok (s.guardResult f.bd (op (s.me.guardBit f.ba != f.na) (s.me.guardBit f.bb != f.nb))))

def execGand (f : FG) (s : State) : Out := guardOp f s (fun a b => a && b)
def execGor (f : FG) (s : State) : Out := guardOp f s (fun a b => a || b)
def execGnot (f : FG1) (s : State) : Out :=
  runSlot s f.c none [] false (guardCnt f.bd) (fun s _ =>
    .ok (s.guardResult f.bd (!(s.me.guardBit f.ba != f.na))))

/-! ## Address generators (R224) -/

/-- A generator as visible at the bundle. -/
def State.gen (s : State) (n : Fin 16) : Gen := Tab.get Gen.zero n.val s.me.g

/-- GSET: count and stride of a dimension. -/
def execGset (f : FA) (s : State) : Out :=
  runSlot s f.c f.lit [f.a, f.b] false (1, 0) (fun s vs =>
    .ok (s.result .alu (.gen f.gn.val (.dim f.dim.val ((vs.getD 0 0).setWidth 32) ((vs.getD 1 0).setWidth 48)))))

/-- GSET.E: bound and index of a dimension, the index below the count visible at the bundle. -/
def execGsetE (f : FA) (s : State) : Out :=
  runSlot s f.c f.lit [f.a, f.b] false (1, 0) (fun s vs =>
    let n := (s.gen f.gn).count f.dim.val
    .ok (s.result .alu (.gen f.gn.val (.edge f.dim.val
      (BitVec.ofNat 32 (((vs.getD 1 0).setWidth 32).toNat % n)) ((vs.getD 0 0).setWidth 32)))))

/-- GBASE: base and attributes, reserved bits ignored (R9); every index returns to 0. -/
def execGbase (f : FAb) (s : State) : Out :=
  runSlot s f.c f.lit [f.a, f.b] false (1, 0) (fun s vs =>
    .ok (s.result .alu (.gen f.gn.val (.base (vs.getD 0 0) ((vs.getD 1 0).setWidth 32 &&& 0xFFFF#32)))))

/-- GSTEP: one step; a generator whose DIMS is 7 raises ILLOP (R116). -/
def execGstep (f : FAg) (s : State) : Out :=
  runSlot s f.c none [] false (1, 0) (fun s _ =>
    chk ((s.gen f.gn).dimsRaw != 7) cIllop (.ok (s.result .alu (.gen f.gn.val .step))))

/-- A field of a generator (R224). -/
def Gen.field (g : Gen) (d : Nat) : GField → Word
  | .base => g.base
  | .cnt => (g.dim d).cnt.setWidth 64
  | .stp => (g.dim d).stp.signExtend 64
  | .idx => (g.dim d).idx.setWidth 64
  | .bnd => (g.dim d).bnd.setWidth 64
  | .attr => g.attr.setWidth 64

def execGread (f : FQ) (s : State) : Out :=
  scalarOp s f.c none .alu f.d [] (fun s _ => (s.gen f.gn).field f.dim.val f.fs)

end Sys2Proof.Machine
end

