-- ==== Sys2Proof/WellFormed.lean ====
section
/-! DEFINITION. Well-formed operations: the conditions on fields that the spec enforces with ILLENC and that the
argument types of `Instr` do not already enforce (R190, R194 to R201, R207, R252, R296, R301, R308 to R313, R330 to R348). -/

namespace Sys2Proof

/-- A literal is present exactly when some field uses it (R190). -/
def litWf (l : Lit) (srcs : List Src) : Bool := l.isSome == srcs.any (· == .lit)

/-- A source that may not be the literal (R252, R318). -/
def Src.noLit : Src → Bool
  | .lit => false
  | _ => true

/-- A destination that is not the result queue (R194). -/
def Dst.noQ : Dst → Bool
  | .q => false
  | _ => true

/-- The special level holds index 0 only (R195). -/
def VOp.wf (v : VOp) : Bool := v.lvl != .special || v.idx.val == 0

/-- Levels 0b00 and 0b01 (R252). -/
def VOp.file (v : VOp) : Bool := v.lvl == .main || v.lvl == .opf

/-- The element formats of codes 0 to 8 and 24 (R337, R341). -/
def Fmt.isElem : Fmt → Bool
  | .fp32 | .bf16 | .fp16 | .e4m3 | .e5m2 | .e2m3 | .e3m2 | .e2m1 | .int8 | .int32 => true
  | _ => false

/-- Formats 0 to 2. -/
def Fmt.isWide : Fmt → Bool
  | .fp32 | .bf16 | .fp16 => true
  | _ => false

/-- BX formats, codes 16 to 22. -/
def Fmt.isBx : Fmt → Bool
  | .bx2 | .bx3 | .bx4 | .bx5 | .bx6 | .bx7 | .bx8 => true
  | _ => false

/-- MX formats, codes 10 to 15. -/
def Fmt.isMx : Fmt → Bool
  | .mxe4m3 | .mxe5m2 | .mxe2m3 | .mxe3m2 | .mxe2m1 | .mxi8 => true
  | _ => false

/-- Block formats with a one-byte scale code, 10 to 22. -/
def Fmt.isBlock (f : Fmt) : Bool := f.isMx || f.isBx

/-- B8Q formats, 25 and 26. -/
def Fmt.isB8q : Fmt → Bool
  | .b8qs | .b8qn => true
  | _ => false

/-- The float family of R296: codes 1 to 7 and 9 to 15. -/
def Fmt.isFloatFam : Fmt → Bool
  | .bf16 | .fp16 | .e4m3 | .e5m2 | .e2m3 | .e3m2 | .e2m1 | .int4g => true
  | f => f.isMx

/-- Integer destinations of a drain (R338). -/
def Fmt.isInt : Fmt → Bool
  | .int8 | .int32 => true
  | _ => false

/-- The pairings of R296. -/
def pairingWf (a b : Fmt) : Bool :=
  (a.isFloatFam && b.isFloatFam) || (a == .int8 && b == .int8) || (a.isBx && b.isBx)

/-- An A operand that carries data (R196, R207). -/
def MOp.wfA (m : MOp) : Bool :=
  match m.kind with
  | .group => true
  | .pat => false
  | .sp | .store => decide (m.idx.val < 16)

/-- A B operand that carries data (R196, R207). -/
def MOp.wfB (m : MOp) : Bool :=
  match m.kind with
  | .group => true
  | .pat => false
  | .sp => decide (m.idx.val < 16)
  | .store => decide (m.idx.val < 4)

/-- A pattern operand (R196). -/
def MOp.wfPat (m : MOp) : Bool := m.kind == .pat && decide (m.idx.val < 16)

/-- T reads A transposed, from the scratchpad only (R301). -/
def MOp.tWf (m : MOp) (t : Bool) : Bool := !t || m.kind == .sp

/-- The formats an MMP accepts for its data operand: codes 1 to 22 (R308). -/
def Fmt.mmpData (f : Fmt) : Bool := f.isFloatFam || f == .int8 || f.isBx

def FR.wf (f : FR) : Bool := litWf f.lit [f.a, f.b]
/-- MUL and DIV class results cannot be pushed to the result queue (R194). -/
def FR.wfNoQ (f : FR) : Bool := litWf f.lit [f.a, f.b] && f.d.noQ
def FR1.wf (f : FR1) : Bool := litWf f.lit [f.a]
def FRa.wf (f : FRa) : Bool := litWf f.lit [f.a]
def FExt.wf (f : FExt) : Bool := litWf f.lit [f.a]
def FC.wf (f : FC) : Bool := litWf f.lit [f.a, f.b]
def FSel.wf (f : FSel) : Bool := litWf f.lit [f.a, f.b]
def FA.wf (f : FA) : Bool := litWf f.lit [f.a, f.b]
def FAb.wf (f : FAb) : Bool := litWf f.lit [f.a, f.b]
/-- GREAD of BASE and ATTR names no dimension (R197). -/
def FQ.wf (f : FQ) : Bool := (f.fs != .base && f.fs != .attr) || f.dim.val == 0
def FX.wf (f : FX) : Bool := litWf f.lit [f.a]
def FTlbi.wf (f : FTlbi) : Bool := litWf f.lit [f.a, f.b]

/-- The count registers of LOOP are x(SA) to x(SA + ND), within x31 (R197). -/
def FP.wf (f : FP) : Bool :=
  match f.cnt with
  | .regs sa nd => decide (sa.val + nd.val ≤ 31)
  | .lit _ => true

/-- The launch-scope barrier is BN 0 only (R197). -/
def FB.wf (f : FB) : Bool := f.bsc != .launch || f.bn.val == 0

/-- Tile loads and stores with a file operand and no transposition (R252, R255). -/
def FM.wfFile (f : FM) : Bool := f.vd.file && !f.t
/-- LDT may transpose (R255). -/
def FM.wfLdt (f : FM) : Bool := f.vd.file
/-- LDO names the operand file (R204). -/
def FM.wfLdo (f : FM) : Bool := f.vd.lvl == .opf && !f.t
/-- LDL names a latch as level 0b00 and takes rows of at most 192 bytes (R204, R255). -/
def FM.wfLdl (f : FM) : Bool := f.vd.lvl == .main && !f.t && decide (f.nu.val ≤ 11)
def FMx.wf (f : FMx) : Bool := f.vd.file && f.vx.wf
def FLds.wf (f : FLds) : Bool := f.a.noLit
def FSts.wf (f : FSts) : Bool := f.a.noLit && f.b.noLit
def FTouch.wf (f : FTouch) : Bool := f.a.noLit && f.b.noLit
def FPrf.wf (f : FPrf) : Bool := f.a.noLit && f.b.noLit
def FAcq.wf (f : FAcq) : Bool := f.a.noLit
/-- The range registers of REL lie within x31, and k is zero without ranges (R198, R264). -/
def FRel.wf (f : FRel) : Bool :=
  f.a.noLit && f.b.noLit &&
    (if f.nr.val = 0 then decide (f.k.val = 0) else decide (f.k.val + 2 * f.nr.val ≤ 32))
def FSpalloc.wf (f : FSpalloc) : Bool := decide (12 ≤ f.lsize.val ∧ f.lsize.val ≤ 24)
def FSa.wf (f : FSa) : Bool := f.a.noLit
def FSab.wf (f : FSab) : Bool := f.a.noLit && f.b.noLit
def FAtom.wf (f : FAtom) : Bool := f.a.noLit && f.b.noLit
def FAcas.wf (f : FAcas) : Bool := f.a.noLit && f.b.noLit && f.cmp.noLit
/-- The named counters end at EC255 (R268, R269). -/
def FEc.wfInc (f : FEc) : Bool := f.v.wf && decide (f.eb.val + f.en.val ≤ 255)
def FEc.wfSnap (f : FEc) : Bool := f.v.file && decide (f.eb.val + f.en.val ≤ 255)

/-- CPYX takes elements of 1 to 8 bytes (R286). -/
def FCpy.wfX (f : FCpy) : Bool := decide (f.esz.val ≤ 3)
/-- CPYF and CPYD take 8-byte elements (R274). -/
def FCpy.wf8 (f : FCpy) : Bool := f.esz.val == 3
def FCpyg.wf (f : FCpyg) : Bool := f.sx.noLit
def RedFmt.esz : RedFmt → Nat
  | .f32 | .i32 => 2
  | .bf16 | .f16 => 1
/-- The element size of a reduction follows its format (R291). -/
def FCpyr.wf (f : FCpyr) : Bool := f.cp.esz.val == f.fmt.esz
def FColl.wf (f : FColl) : Bool := f.cp.esz.val == f.fmt.esz && f.sx.noLit
def FCpfill.wf (f : FCpfill) : Bool := f.sx.noLit
/-- HSET takes regions of 4 KiB to 16 MiB (R294). -/
def FHset.wf (f : FHset) : Bool := decide (12 ≤ f.lsize.val ∧ f.lsize.val ≤ 24) && f.sx.noLit

/-- MM and MMZ (R207, R296, R301, R307). -/
def FMm.wfMm (f : FMm) : Bool :=
  f.a.wfA && f.b.wfB && pairingWf f.af f.bf && f.a.tWf f.t && !(f.g && f.af == .int8)
/-- MMP: exactly one pattern operand, whose format field is 0 (R308). -/
def FMm.wfMmp (f : FMm) : Bool :=
  ((f.a.wfPat && f.b.wfB && f.af == .fp32 && f.bf.mmpData) ||
    (f.b.wfPat && f.a.wfA && f.bf == .fp32 && f.af.mmpData)) && f.a.tWf f.t
/-- MMD (R310). -/
def FMmd.wf (f : FMmd) : Bool :=
  f.a.wfA && f.d.wf && (f.af.isFloatFam || f.af.isBx) && f.bf.isWide && f.a.tWf f.t
/-- MMT (R311). -/
def FMmt.wf (f : FMmt) : Bool :=
  f.a.wfA && f.a.kind != .store && f.a.tWf f.t &&
    (f.af == .bf16 || f.af == .fp16 || f.af == .e4m3 || f.af == .e5m2)
/-- OUTER (R312). -/
def FOuter.wf (f : FOuter) : Bool := f.va.wf && f.vb.wf && f.af.isWide && f.bf.isWide
/-- ASCALE takes its factor from an x register or the result queue (R313). -/
def FAscale.wf (f : FAscale) : Bool :=
  match f.a with
  | .x _ | .q _ => true
  | _ => false

/-- The epilogue of an integer drain is empty (R338). -/
def Epi.intWf (e : Epi) : Bool :=
  !e.df.isInt || (e.rm == .rne && !e.prop && !e.g && !e.se && !e.ce && e.fn.isNone)
def FDrain.wf (f : FDrain) : Bool :=
  f.vd.wf && f.e.df.isElem && f.e.intWf &&
    (match f.vb with | none => true | some v => v.wf && !f.e.df.isInt)
def FDrainR.wf (f : FDrainR) : Bool := f.vd.wf && f.e.df.isElem && f.e.intWf
def FDrainQ.wf (f : FDrainQ) : Bool := f.vd.wf && f.e.df.isBlock
def FFa.wfArg (f : FFa) : Bool := f.vd.wf
/-- The total of BIM.COMMIT stands in the main or operand file (R351). -/
def FFa.wfCommit (f : FFa) : Bool := f.vd.file
def FTrust1.wf (f : FTrust1) : Bool := f.vd.wf && f.vb.file

def FV.ops (f : FV) : Bool := f.vd.wf && f.vs.wf
def FV.wfElem (f : FV) : Bool := f.ops && f.sf.isElem && f.df.isElem
/-- B8Q runs hold whole blocks of 256 (R344). -/
def FV.wfQ8 (f : FV) : Bool := f.ops && f.sf.isWide && f.df.isB8q && f.nr.val % 2 == 1
def FV.wfDq8 (f : FV) : Bool := f.ops && f.sf.isB8q && f.df.isWide && f.nr.val % 2 == 1
/-- An INT4G run holds at most 3,072 elements (R344). -/
def FV.wfQmx (f : FV) : Bool :=
  f.ops && f.sf.isWide && (f.df.isBlock || (f.df == .int4g && decide (f.nr.val < 24)))
def FV.wfDqmx (f : FV) : Bool :=
  f.ops && f.df.isWide && (f.sf.isBlock || (f.sf == .int4g && decide (f.nr.val < 24)))
/-- Registers of the optimiser state: areas W, O, MC, VC and AM (R348). -/
def FV.adamRegs (f : FV) : Nat :=
  let e := f.nr.val + 1
  e + e / 2 + (e + 3) / 4 + (e + 3) / 4 + 1
def FV.sgdmRegs (f : FV) : Nat :=
  let e := f.nr.val + 1
  e + e / 2 + (e + 3) / 4 + 1
def FV.wfAdam (f : FV) : Bool :=
  f.ops && f.nr.val % 2 == 1 && f.sf.isWide && (f.df == .bf16 || f.df == .fp16) && decide (f.adamRegs ≤ 64)
def FV.wfSgdm (f : FV) : Bool :=
  f.ops && f.nr.val % 2 == 1 && f.sf.isWide && (f.df == .bf16 || f.df == .fp16) && decide (f.sgdmRegs ≤ 64)
def FRng.wf (f : FRng) : Bool := f.vd.wf
def FNormv.wf (f : FNormv) : Bool := f.vd.wf && f.vs.wf && f.sf.isWide
def FVn.wf (f : FVn) : Bool := f.vd.wf && f.vs.wf
def FSampd.wf (f : FSampd) : Bool := f.vd.wf && f.vs.wf

def FScset.wf (f : FScset) : Bool := f.a.noLit
def FPset.wf (f : FPset) : Bool := f.a.noLit && f.b.noLit
def FPsetd.wf (f : FPsetd) : Bool := f.vs.wf
def FPsett.wf (f : FPsett) : Bool := f.a.noLit
def FSca.wf (f : FSca) : Bool := f.a.noLit
def FTta.wf (f : FTta) : Bool := f.a.noLit
def FTtadd.wf (f : FTtadd) : Bool := f.a.noLit && f.b.noLit
def FTtv.wf (f : FTtv) : Bool := f.vd.file
def FTtchk.wf (f : FTtchk) : Bool := f.a.noLit

/-- The slot operations: the rows of R203 to R209. The others are device steps. -/
inductive SlotKind where
  | s | s1 | ld | st | cp | mx | fl | sc
deriving DecidableEq, Repr

/-- Well-formedness of an operation; the device steps carry bounded parameters only. -/
def Instr.wf : Instr → Bool
  | .add f | .sub f | .and f | .or f | .xor f | .andn f | .shl f | .shr f | .sar f | .rol f
  | .min f | .max f | .minn f | .maxn f => f.wf
  | .mul f | .mulh f | .mulhn f | .div f | .divn f | .rem f | .remn f => f.wfNoQ
  | .clz f | .ctz f | .popc f | .mov f | .seqsel f | .admitReq f | .retire f => f.wf
  | .cmp f => f.wf
  | .sel f => f.wf
  | .li _ | .lih _ => true
  | .sext f | .zext f => f.wf
  | .gand _ | .gor _ | .gnot _ => true
  | .gset f | .gsetE f => f.wf
  | .gbase f => f.wf
  | .gstep _ | .csrr _ => true
  | .gread f => f.wf
  | .csrw f | .csrs f | .csrc f => f.wf
  | .br _ | .brc _ | .call _ => true
  | .brx f | .ret f | .ldepthset f | .ctxl f => f.wf
  | .loop f => f.wf
  | .loopx _ | .rot _ | .grow _ | .shrink _ => true
  | .bara f | .barw f | .bar f => f.wf
  | .waith _ | .waitq _ | .yield _ | .halt _ | .trap _ | .tret _ => true
  | .tlbi f => f.wf
  | .ldt f => f.wfLdt
  | .ldtm f | .ldw f | .stt f | .sttm f => f.wfFile
  | .ldl f => f.wfLdl
  | .ldo f => f.wfLdo
  | .ldg f => f.wf
  | .lds f => f.wf
  | .touch f | .touchw f => f.wf
  | .acq f => f.wf
  | .prf f => f.wf
  | .wsphase _ => true
  | .sts f => f.wf
  | .rel f => f.wf
  | .fence _ => true
  | .spalloc f => f.wf
  | .spfree f => f.wf
  | .mbox f => f.wf
  | .ecInc f => f.wfInc
  | .ecSnap f => f.wfSnap
  | .aadd f | .amin f | .amax f | .aminn f | .amaxn f | .aand f | .aor f | .axor f | .aswp f => f.wf
  | .acas f => f.wf
  | .cpy _ => true
  | .cpyg f => f.wf
  | .cpys _ => true
  | .cpyxPack f | .cpyxUnpack f => f.wfX
  | .cpyf f => f.wf8
  | .cpyd f => f.cp.wf8
  | .cpyr f => f.wf
  | .coll f => f.wf
  | .cpfill f => f.wf
  | .hset f => f.wf
  | .hdrain _ | .hfree _ | .hq _ | .hwait _ | .cpmark _ => true
  | .mm f | .mmz f => f.wfMm
  | .mmp f => f.wfMmp
  | .mmd f => f.wf
  | .mmt f => f.wf
  | .outer f => f.wf
  | .latch _ | .aclr _ | .amov _ => true
  | .ascale f => f.wf
  | .anorm2 _ | .amaxabs _ | .bimStage _ | .bimMark _ => true
  | .drain f => f.wf
  | .drainq f => f.wf
  | .drainr f | .drainc f => f.wf
  | .argsel f => f.wfArg
  | .bimCommit f => f.wfCommit
  | .trust1 f => f.wf
  | .cvt f | .clampv f | .scalev f => f.wfElem
  | .fn f => f.v.wfElem
  | .rng f => f.wf
  | .q8b f => f.wfQ8
  | .dq8b f => f.wfDq8
  | .qmx f => f.wfQmx
  | .dqmx f => f.wfDqmx
  | .normv f => f.wf
  | .psum f | .trust2 f | .clipg f => f.wf
  | .sampd f => f.wf
  | .updAdam f => f.wfAdam
  | .updSgdm f => f.wfSgdm
  | .lsc _ => true
  | .scset f => f.wf
  | .pset f => f.wf
  | .psetd f => f.wf
  | .psett f => f.wf
  | .setls _ => true
  | .setlsRegister f | .srseed f | .srctrset f | .bimlim f => f.wf
  | .ttnew f => f.wf
  | .ttadd f => f.wf
  | .ttpos f | .ttprune f => f.wf
  | .ttchk f => f.wf
  | .ttgen _ => true
  | .bundleIssue _ | .vacancyFill _ | .promotion _ | .resultWrite _ | .loopPassEnd _ | .pinExpiry _
  | .copyComplete _ _ _ | .copyStop _ _ | .handleDrainComplete _ _ | .copyResume _ _ | .copyAbort _ _ _
  | .barrierCompletion _ _ | .damperRelease _ _ _ | .lgenIncrement _ | .tagSweep _ _ | .scratchpadClear _
  | .mantelRefresh _ | .invalidationComplete _ | .trapDelivery _ | .tresume _ _
  | .launch _ | .launchPlacement _ | .launchEnd _ | .preemption _ | .semwait _ | .semsig _ | .wsload _
  | .tgadd _ | .tgrun _ | .taskComplete _ _ | .fenceCommand _ | .mark _ | .preempt _
  | .sqtail _ _ | .streamEnable _ _ | .kill _ | .xinvGo _ _ | .translationRootWrite _ _ _
  | .partitionConfigWrite _ _ _ | .registerWrite _ _ | .chimneyRecordTake _ | .frameWrite _ | .eventLogWrite _
  | .hostMemoryAccess _ | .portEnable _ | .portUp _ _ | .portFail _ | .flitReceive _ _ | .flitReplay _ _
  | .linkCalibration _ | .patrolScrub _ _ _ | .dramRefresh _ _ | .correctedError _ | .uncorrectableError _
  | .telemetrySample _ _ | .throttle _ _ | .clockRestore _ _ | .thermalStop | .powerUp | .attest | .cert
  | .fwupdate _ | .devlog _ | .writePerformed _ _ | .wsloadComplete _ | .streamDisable _ _ | .portDisable _
  | .powerDown => true

/-- The slot kind of an operation; `none` for a device step. S1-only opcodes have kind `s1` (R203). -/
def Instr.slotKind : Instr → Option SlotKind
  | .add _ | .sub _ | .mul _ | .mulh _ | .mulhn _ | .div _ | .divn _ | .rem _ | .remn _ | .and _ | .or _
  | .xor _ | .andn _ | .shl _ | .shr _ | .sar _ | .rol _ | .clz _ | .ctz _ | .popc _ | .min _ | .max _
  | .minn _ | .maxn _ | .cmp _ | .sel _ | .mov _ | .li _ | .lih _ | .sext _ | .zext _ | .gand _ | .gor _
  | .gnot _ | .gset _ | .gsetE _ | .gbase _ | .gstep _ | .gread _ | .csrr _ | .csrw _ | .csrs _ | .csrc _ => some .s
  | .br _ | .brc _ | .brx _ | .call _ | .ret _ | .loop _ | .loopx _ | .rot _ | .ldepthset _ | .grow _ | .shrink _
  | .bara _ | .barw _ | .bar _ | .waith _ | .waitq _ | .yield _ | .halt _ | .trap _ | .seqsel _ | .admitReq _
  | .retire _ | .tret _ | .tlbi _ | .ctxl _ => some .s1
  | .ldt _ | .ldtm _ | .lds _ | .ldw _ | .ldl _ | .ldo _ | .ldg _ | .touch _ | .touchw _ | .acq _ | .prf _
  | .wsphase _ => some .ld
  | .stt _ | .sttm _ | .sts _ | .rel _ | .fence _ | .spalloc _ | .spfree _ | .mbox _ | .ecInc _ | .ecSnap _
  | .aadd _ | .amin _ | .amax _ | .aminn _ | .amaxn _ | .aand _ | .aor _ | .axor _ | .aswp _ | .acas _ => some .st
  | .cpy _ | .cpyg _ | .cpys _ | .cpyxPack _ | .cpyxUnpack _ | .cpyf _ | .cpyd _ | .cpyr _ | .coll _ | .cpfill _
  | .hset _ | .hdrain _ | .hfree _ | .hq _ | .hwait _ | .cpmark _ => some .cp
  | .mm _ | .mmz _ | .mmp _ | .mmd _ | .mmt _ | .outer _ | .latch _ | .aclr _ | .amov _ | .ascale _ | .anorm2 _
  | .amaxabs _ | .bimStage _ | .bimMark _ => some .mx
  | .drain _ | .drainq _ | .drainr _ | .drainc _ | .argsel _ | .bimCommit _ | .trust1 _ | .cvt _ | .fn _
  | .clampv _ | .rng _ | .q8b _ | .dq8b _ | .qmx _ | .dqmx _ | .normv _ | .scalev _ | .psum _ | .sampd _
  | .updAdam _ | .updSgdm _ | .trust2 _ | .clipg _ => some .fl
  | .lsc _ | .scset _ | .pset _ | .psetd _ | .psett _ | .setls _ | .setlsRegister _ | .srseed _ | .srctrset _
  | .ttnew _ | .ttadd _ | .ttpos _ | .ttprune _ | .ttchk _ | .ttgen _ | .bimlim _ => some .sc
  | .bundleIssue _ | .vacancyFill _ | .promotion _ | .resultWrite _ | .loopPassEnd _ | .pinExpiry _
  | .copyComplete _ _ _ | .copyStop _ _ | .handleDrainComplete _ _ | .copyResume _ _ | .copyAbort _ _ _
  | .barrierCompletion _ _ | .damperRelease _ _ _ | .lgenIncrement _ | .tagSweep _ _ | .scratchpadClear _
  | .mantelRefresh _ | .invalidationComplete _ | .trapDelivery _ | .tresume _ _
  | .launch _ | .launchPlacement _ | .launchEnd _ | .preemption _ | .semwait _ | .semsig _ | .wsload _
  | .tgadd _ | .tgrun _ | .taskComplete _ _ | .fenceCommand _ | .mark _ | .preempt _
  | .sqtail _ _ | .streamEnable _ _ | .kill _ | .xinvGo _ _ | .translationRootWrite _ _ _
  | .partitionConfigWrite _ _ _ | .registerWrite _ _ | .chimneyRecordTake _ | .frameWrite _ | .eventLogWrite _
  | .hostMemoryAccess _ | .portEnable _ | .portUp _ _ | .portFail _ | .flitReceive _ _ | .flitReplay _ _
  | .linkCalibration _ | .patrolScrub _ _ _ | .dramRefresh _ _ | .correctedError _ | .uncorrectableError _
  | .telemetrySample _ _ | .throttle _ _ | .clockRestore _ _ | .thermalStop | .powerUp | .attest | .cert
  | .fwupdate _ | .devlog _ | .writePerformed _ _ | .wsloadComplete _ | .streamDisable _ _ | .portDisable _
  | .powerDown => none

end Sys2Proof
end

