-- ==== Sys2Proof/Decode.lean ====
section
/-! DEFINITION. The decoder of slot words and bundles (R187 to R210), total on any bits and refusing by name, and after it
the encoder, written from the same layouts. -/

namespace Sys2Proof

/-- Why an encoding raises ILLENC (R210). -/
inductive Illenc where
  | unassignedOpcode | s1OnlyInS0 | badF2 | badCond | badFormat | badMode | reservedSource | reservedDest
  | nonzeroField | badCsr | badValue | literalMissing | literalUnused | ill | pastLine | padRun | conflict | queueDest
deriving DecidableEq, Repr

/-- The result of decoding. -/
abbrev Dec := Except Illenc

/-- A check of the decoder. -/
def need (b : Bool) (e : Illenc) : Dec Unit := if b then .ok () else .error e

/-- A field of the word that must be zero (R191). -/
def zeroField (w lo n : Nat) : Dec Unit := need (bits w lo n == 0) .nonzeroField

/-- A one-bit field. -/
def flag (w lo : Nat) : Bool := bits w lo 1 == 1

def fin2 (w lo : Nat) : Fin 4 := Fin.ofNat 4 (bits w lo 2)
def fin3 (w lo : Nat) : Fin 8 := Fin.ofNat 8 (bits w lo 3)
def fin4 (w lo : Nat) : Fin 16 := Fin.ofNat 16 (bits w lo 4)
def fin5 (w lo : Nat) : Fin 32 := Fin.ofNat 32 (bits w lo 5)
def fin6 (w lo : Nat) : Fin 64 := Fin.ofNat 64 (bits w lo 6)
def fin8 (w lo : Nat) : Fin 256 := Fin.ofNat 256 (bits w lo 8)

/-- Bits 4:0 (R191). -/
def decCommon (w : Nat) : Common := ⟨flag w 0, fin3 w 1, flag w 4⟩

/-- R193. -/
def decSrc (v : Nat) : Dec Src :=
  if v < 32 then .ok (.x (Fin.ofNat 32 v))
  else if v < 48 then .ok (.q (Fin.ofNat 16 (v - 32)))
  else if v < 52 then .ok (.mq (Fin.ofNat 4 (v - 48)))
  else if v = 52 then .ok .lit
  else .error .reservedSource

/-- R194. -/
def decDst (v : Nat) : Dec Dst :=
  if v < 32 then .ok (.x (Fin.ofNat 32 v))
  else if v = 32 then .ok .q
  else if v < 37 then .ok (.mq (Fin.ofNat 4 (v - 33)))
  else .error .reservedDest

/-- A scalar destination that must name x0 to x31 (R252). -/
def decX (v : Nat) : Dec (Fin 32) := if v < 32 then .ok (Fin.ofNat 32 v) else .error .reservedDest

/-- R195. -/
def decV (v : Nat) : VOp :=
  ⟨match bits v 11 2 with | 0 => .main | 1 => .opf | 2 => .latch | _ => .special, Fin.ofNat 2048 (bits v 0 11)⟩

/-- R196. -/
def decM (v : Nat) : MOp :=
  ⟨match bits v 11 2 with | 0 => .group | 1 => .sp | 2 => .pat | _ => .store, Fin.ofNat 2048 (bits v 0 11)⟩

/-- R52. -/
def decFmt : Nat → Dec Fmt
  | 0 => .ok .fp32 | 1 => .ok .bf16 | 2 => .ok .fp16 | 3 => .ok .e4m3 | 4 => .ok .e5m2 | 5 => .ok .e2m3
  | 6 => .ok .e3m2 | 7 => .ok .e2m1 | 8 => .ok .int8 | 9 => .ok .int4g | 10 => .ok .mxe4m3 | 11 => .ok .mxe5m2
  | 12 => .ok .mxe2m3 | 13 => .ok .mxe3m2 | 14 => .ok .mxe2m1 | 15 => .ok .mxi8 | 16 => .ok .bx2 | 17 => .ok .bx3
  | 18 => .ok .bx4 | 19 => .ok .bx5 | 20 => .ok .bx6 | 21 => .ok .bx7 | 22 => .ok .bx8 | 24 => .ok .int32
  | 25 => .ok .b8qs | 26 => .ok .b8qn
  | _ => .error .badFormat

/-- R153. -/
def decScope : Nat → Dec Scope
  | 0 => .ok .context | 1 => .ok .core | 2 => .ok .cluster | 3 => .ok .die | 4 => .ok .device | 5 => .ok .system
  | _ => .error .badValue

/-- RM of R201. -/
def decRM : Nat → Dec RMode
  | 0 => .ok .rne | 1 => .ok .rtz | 2 => .ok .sr
  | _ => .error .badMode

/-- R89. -/
def decFn : Nat → Dec FnCode
  | 0 => .ok .exp2 | 1 => .ok .log2 | 2 => .ok .rcp | 3 => .ok .rsqrt | 4 => .ok .sqrt | 5 => .ok .tanh
  | 6 => .ok .sigm | 7 => .ok .silu | 8 => .ok .gelu | 9 => .ok .erf | 10 => .ok .sinpi | 11 => .ok .cospi
  | _ => .error .badMode

/-- R83. -/
def decSr : Nat → Semiring
  | 0 => .plusTimes | 1 => .maxPlus | 2 => .minPlus | _ => .orAnd

/-- R121. -/
def decHs : Nat → HState
  | 0 => .free | 1 => .filling | 2 => .full | _ => .draining

/-- R226: the CSR numbers. -/
def decCsr (v : Nat) : Dec CsrName :=
  match v with
  | 0x00 => .ok .bix | 0x01 => .ok .cyc | 0x02 => .ok .mode | 0x03 => .ok .vallot | 0x04 => .ok .rbase
  | 0x05 => .ok .ldepth | 0x06 => .ok .rpos | 0x07 => .ok .nstat | 0x08 => .ok .cstat | 0x09 => .ok .mqdst
  | 0x0A => .ok .guard | 0x0B => .ok .lse | 0x0C => .ok .srseed | 0x0D => .ok .srctr | 0x0E => .ok .epscl
  | 0x0F => .ok .epclp | 0x10 => .ok .bimlim | 0x11 => .ok .occ | 0x12 => .ok .dlen | 0x13 => .ok .lpass
  | 0x14 => .ok .gcid | 0x15 => .ok .lcid | 0x16 => .ok .codebase | 0x18 => .ok .wsstl
  | 0x1D => .ok .mbser | 0x30 => .ok .hctx
  | _ =>
    if 0x19 ≤ v ∧ v ≤ 0x1C then .ok (.chstl (Fin.ofNat 4 (v - 0x19)))
    else if 0x20 ≤ v ∧ v ≤ 0x2F then .ok (.bkt (Fin.ofNat 16 (v - 0x20)))
    else if 0x31 ≤ v ∧ v ≤ 0x34 then .ok (.tsw (Fin.ofNat 4 (v - 0x31)))
    else .error .badCsr

/-! ## S0 and S1 slots (R197, R203) -/

def decFR (w : Nat) (lit : Lit) : Dec FR := do
  let d ← decDst (bits w 12 6)
  let a ← decSrc (bits w 18 6)
  let b ← decSrc (bits w 24 6)
  return ⟨decCommon w, lit, d, a, b⟩

def decFR1 (w : Nat) (lit : Lit) : Dec FR1 := do
  zeroField w 24 6
  let d ← decDst (bits w 12 6)
  let a ← decSrc (bits w 18 6)
  return ⟨decCommon w, lit, d, a⟩

def decFRa (w : Nat) (lit : Lit) : Dec FRa := do
  zeroField w 12 6
  zeroField w 24 8
  let a ← decSrc (bits w 18 6)
  return ⟨decCommon w, lit, a⟩

def decFExt (w : Nat) (lit : Lit) : Dec FExt := do
  zeroField w 24 6
  let d ← decDst (bits w 12 6)
  let a ← decSrc (bits w 18 6)
  match bits w 30 2 with
  | 0 => return ⟨decCommon w, lit, d, a, .w8⟩
  | 1 => return ⟨decCommon w, lit, d, a, .w16⟩
  | 2 => return ⟨decCommon w, lit, d, a, .w32⟩
  | _ => throw .badF2

def decFLih (w : Nat) (lit : Lit) : Dec FLih := do
  zeroField w 30 2
  need (bits w 24 6 == 52) .badValue
  let d ← decDst (bits w 12 6)
  let a ← decSrc (bits w 18 6)
  match lit with
  | some v => return ⟨decCommon w, v, d, a⟩
  | none => throw .literalMissing

def decCond : Nat → Cond
  | 0 => .eq | 1 => .ne | 2 => .lt | 3 => .ge | 4 => .ltn | 5 => .gen | 6 => .tst | _ => .ntst

def decFC (w : Nat) (lit : Lit) : Dec FC := do
  zeroField w 30 2
  let a ← decSrc (bits w 18 6)
  let b ← decSrc (bits w 24 6)
  return ⟨decCommon w, lit, fin3 w 12, a, b, decCond (bits w 15 3)⟩

def decFSel (w : Nat) (lit : Lit) : Dec FSel := do
  let a ← decSrc (bits w 17 6)
  let b ← decSrc (bits w 23 6)
  return ⟨decCommon w, lit, fin5 w 12, fin3 w 29, a, b⟩

def decFI (w : Nat) (lit : Lit) : Dec FI := do
  let d ← decDst (bits w 12 6)
  match lit with
  | none => return ⟨decCommon w, d, .i14 (BitVec.ofNat 14 (bits w 18 14))⟩
  | some v =>
    zeroField w 18 14
    return ⟨decCommon w, d, .lit v⟩

def decFG (w : Nat) (lit : Lit) : Dec FG := do
  need lit.isNone .literalUnused
  zeroField w 28 2
  zeroField w 22 2
  zeroField w 15 3
  return ⟨decCommon w, fin3 w 12, fin3 w 18, flag w 21, fin3 w 24, flag w 27⟩

def decFG1 (w : Nat) (lit : Lit) : Dec FG1 := do
  need lit.isNone .literalUnused
  zeroField w 22 8
  zeroField w 15 3
  return ⟨decCommon w, fin3 w 12, fin3 w 18, flag w 21⟩

/-- A generator dimension, 0 to 5 (R197). -/
def decDim (v : Nat) : Dec (Fin 6) := if v < 6 then .ok (Fin.ofNat 6 v) else .error .badValue

def decFA (w : Nat) (lit : Lit) : Dec FA := do
  let dim ← decDim (bits w 16 3)
  let a ← decSrc (bits w 19 6)
  let b ← decSrc (bits w 25 6)
  return ⟨decCommon w, lit, fin4 w 12, dim, a, b⟩

def decFAb (w : Nat) (lit : Lit) : Dec FAb := do
  zeroField w 31 1
  zeroField w 16 3
  let a ← decSrc (bits w 19 6)
  let b ← decSrc (bits w 25 6)
  return ⟨decCommon w, lit, fin4 w 12, a, b⟩

def decFAg (w : Nat) (lit : Lit) : Dec FAg := do
  need lit.isNone .literalUnused
  zeroField w 16 16
  return ⟨decCommon w, fin4 w 12⟩

def decGField : Nat → Dec GField
  | 0 => .ok .base | 1 => .ok .cnt | 2 => .ok .stp | 3 => .ok .idx | 4 => .ok .bnd | 5 => .ok .attr
  | _ => .error .badValue

def decFQ (w : Nat) (lit : Lit) : Dec FQ := do
  need lit.isNone .literalUnused
  zeroField w 28 4
  let fs ← decGField (bits w 25 3)
  let dim ← decDim (bits w 22 3)
  need ((fs != .base && fs != .attr) || dim.val == 0) .nonzeroField
  let d ← decDst (bits w 12 6)
  return ⟨decCommon w, d, fin4 w 18, dim, fs⟩

def decFX (w : Nat) (lit : Lit) : Dec FX := do
  let csr ← decCsr (bits w 24 8)
  let a ← decSrc (bits w 18 6)
  let d ← decDst (bits w 12 6)
  return ⟨decCommon w, lit, d, a, csr⟩

def decFXr (w : Nat) (lit : Lit) : Dec FXr := do
  need lit.isNone .literalUnused
  zeroField w 18 6
  let csr ← decCsr (bits w 24 8)
  let d ← decDst (bits w 12 6)
  return ⟨decCommon w, d, csr⟩

def decFJ (w : Nat) (lit : Lit) : Dec FJ := do
  zeroField w 12 20
  match lit with
  | some v => return ⟨decCommon w, v⟩
  | none => throw .literalMissing

def decFJd (w : Nat) (lit : Lit) : Dec FJd := do
  zeroField w 18 14
  let d ← decDst (bits w 12 6)
  match lit with
  | some v => return ⟨decCommon w, v, d⟩
  | none => throw .literalMissing

def decBCond : Nat → Dec BCond
  | 0 => .ok .eqz | 1 => .ok .nez | 2 => .ok .ltz | 3 => .ok .gez | 4 => .ok .gtz | 5 => .ok .lez
  | _ => .error .badCond

def decFK (w : Nat) (lit : Lit) : Dec FK := do
  zeroField w 24 8
  zeroField w 15 3
  let cond ← decBCond (bits w 12 3)
  let a ← decSrc (bits w 18 6)
  match lit with
  | some v => return ⟨decCommon w, v, a, cond⟩
  | none => throw .literalMissing

def decFP (w : Nat) (lit : Lit) : Dec FP := do
  zeroField w 25 7
  let nd ← decDim (bits w 16 3)
  let sa := bits w 19 6
  match lit with
  | some v =>
    need (sa == 52 && nd.val == 0) .literalUnused
    return ⟨decCommon w, .lit v, fin4 w 12⟩
  | none =>
    need (decide (sa < 32)) .badValue
    return ⟨decCommon w, .regs (Fin.ofNat 32 sa) nd, fin4 w 12⟩

def decFZ (w : Nat) (lit : Lit) : Dec FZ := do
  need lit.isNone .literalUnused
  zeroField w 12 20
  return ⟨decCommon w⟩

def decFN (w : Nat) (lit : Lit) : Dec FN := do
  need lit.isNone .literalUnused
  zeroField w 17 15
  return ⟨decCommon w, fin5 w 12⟩

def decFB (w : Nat) (lit : Lit) : Dec FB := do
  need lit.isNone .literalUnused
  zeroField w 20 10
  match bits w 18 2 with
  | 0 => return ⟨decCommon w, .cluster, fin6 w 12⟩
  | 1 => return ⟨decCommon w, .die, fin6 w 12⟩
  | 2 => return ⟨decCommon w, .launch, fin6 w 12⟩
  | _ => throw .badValue

def decFW (w : Nat) (lit : Lit) : Dec FW := do
  need lit.isNone .literalUnused
  zeroField w 20 12
  return ⟨decCommon w, fin6 w 12, decHs (bits w 18 2)⟩

def decFY (w : Nat) (lit : Lit) : Dec FY := do
  need lit.isNone .literalUnused
  zeroField w 19 13
  let ne := bits w 14 5
  need (decide (1 ≤ ne ∧ ne ≤ 16)) .badValue
  return ⟨decCommon w, fin2 w 12, Fin.ofNat 16 (ne - 1)⟩

def decFT (w : Nat) (lit : Lit) : Dec FT := do
  need lit.isNone .literalUnused
  zeroField w 20 12
  return ⟨decCommon w, BitVec.ofNat 8 (bits w 12 8)⟩

def decPSize : Nat → PSize
  | 0 => .k4 | 1 => .k64 | 2 => .m2 | _ => .g1

def decTScope : Nat → TScope
  | 0 => .core | 1 => .cluster | 2 => .die | _ => .device

def decFTlbi (w : Nat) (lit : Lit) : Dec FTlbi := do
  zeroField w 14 4
  let a ← decSrc (bits w 18 6)
  let b ← decSrc (bits w 24 6)
  return ⟨decCommon w, lit, a, b, decPSize (bits w 30 2), decTScope (bits w 12 2)⟩

/-- The S0 and S1 opcode map (R203), before the conditions of `Instr.wf`. -/
def parseSAt (op w : Nat) (lit : Lit) : Dec Instr :=
  let f2 := bits w 30 2
  match op with
  | 0x00 => do zeroField w 30 2; return .add (← decFR w lit)
  | 0x01 => do zeroField w 30 2; return .sub (← decFR w lit)
  | 0x02 => do zeroField w 30 2; return .mul (← decFR w lit)
  | 0x03 => match f2 with
    | 0 => return .mulh (← decFR w lit)
    | 1 => return .mulhn (← decFR w lit)
    | _ => .error .badF2
  | 0x04 => match f2 with
    | 0 => return .div (← decFR w lit)
    | 1 => return .divn (← decFR w lit)
    | 2 => return .rem (← decFR w lit)
    | _ => return .remn (← decFR w lit)
  | 0x05 => do zeroField w 30 2; return .and (← decFR w lit)
  | 0x06 => do zeroField w 30 2; return .or (← decFR w lit)
  | 0x07 => do zeroField w 30 2; return .xor (← decFR w lit)
  | 0x08 => do zeroField w 30 2; return .andn (← decFR w lit)
  | 0x09 => match f2 with
    | 0 => return .shl (← decFR w lit)
    | 1 => return .shr (← decFR w lit)
    | 2 => return .sar (← decFR w lit)
    | _ => return .rol (← decFR w lit)
  | 0x0A => match f2 with
    | 0 => return .clz (← decFR1 w lit)
    | 1 => return .ctz (← decFR1 w lit)
    | 2 => return .popc (← decFR1 w lit)
    | _ => .error .badF2
  | 0x0B => match f2 with
    | 0 => return .min (← decFR w lit)
    | 1 => return .max (← decFR w lit)
    | 2 => return .minn (← decFR w lit)
    | _ => return .maxn (← decFR w lit)
  | 0x0C => return .cmp (← decFC w lit)
  | 0x0D => return .sel (← decFSel w lit)
  | 0x0E => do zeroField w 30 2; return .mov (← decFR1 w lit)
  | 0x0F => return .li (← decFI w lit)
  | 0x10 => return .lih (← decFLih w lit)
  | 0x11 => return .sext (← decFExt w lit)
  | 0x12 => return .zext (← decFExt w lit)
  | 0x13 => match f2 with
    | 0 => return .gand (← decFG w lit)
    | 1 => return .gor (← decFG w lit)
    | 2 => return .gnot (← decFG1 w lit)
    | _ => .error .badF2
  | 0x14 => if flag w 31 then return .gsetE (← decFA w lit) else return .gset (← decFA w lit)
  | 0x15 => return .gbase (← decFAb w lit)
  | 0x16 => return .gstep (← decFAg w lit)
  | 0x17 => return .gread (← decFQ w lit)
  | 0x18 => return .csrr (← decFXr w lit)
  | 0x19 => return .csrw (← decFX w lit)
  | 0x1A => return .csrs (← decFX w lit)
  | 0x1B => return .csrc (← decFX w lit)
  | 0x20 => return .br (← decFJ w lit)
  | 0x21 => return .brc (← decFK w lit)
  | 0x22 => return .brx (← decFRa w lit)
  | 0x23 => return .call (← decFJd w lit)
  | 0x24 => return .ret (← decFRa w lit)
  | 0x25 => return .loop (← decFP w lit)
  | 0x26 => return .loopx (← decFZ w lit)
  | 0x27 => return .rot (← decFZ w lit)
  | 0x28 => return .ldepthset (← decFRa w lit)
  | 0x29 => return .grow (← decFN w lit)
  | 0x2A => return .shrink (← decFN w lit)
  | 0x2B => match f2 with
    | 0 => return .bara (← decFB w lit)
    | 1 => return .barw (← decFB w lit)
    | 2 => return .bar (← decFB w lit)
    | _ => .error .badF2
  | 0x2C => return .waith (← decFW w lit)
  | 0x2D => return .waitq (← decFY w lit)
  | 0x2E => return .yield (← decFZ w lit)
  | 0x2F => return .halt (← decFZ w lit)
  | 0x30 => return .trap (← decFT w lit)
  | 0x31 => do zeroField w 30 2; return .seqsel (← decFR1 w lit)
  | 0x32 => do zeroField w 30 2; return .admitReq (← decFR1 w lit)
  | 0x33 => do zeroField w 30 2; return .retire (← decFR1 w lit)
  | 0x3C => return .tret (← decFZ w lit)
  | 0x3D => return .tlbi (← decFTlbi w lit)
  | 0x3E => return .ctxl (← decFRa w lit)
  | _ => .error .unassignedOpcode

/-- The word of the map above, by its opcode field. -/
def parseS (w : Nat) (lit : Lit) : Dec Instr := parseSAt (bits w 6 6) w lit

/-! ## LD and ST slots (R198, R204, R205) -/

def decFM (w : Nat) : Dec FM := do
  zeroField w 51 13
  zeroField w 27 4
  let fmt ← decFmt (bits w 46 5)
  return ⟨decCommon w, decV (bits w 14 13), fmt, flag w 45, fin5 w 40, fin5 w 35, fin4 w 31⟩

def decFMx (w : Nat) : Dec FMx := do
  zeroField w 45 1
  zeroField w 27 4
  let fmt ← decFmt (bits w 46 5)
  return ⟨decCommon w, decV (bits w 14 13), decV (bits w 51 13), fmt, fin5 w 40, fin5 w 35, fin4 w 31⟩

def decOff (w : Nat) : BitVec 16 := BitVec.ofNat 16 (bits w 32 16)

def decFLds (w : Nat) : Dec FLds := do
  zeroField w 26 6
  zeroField w 55 9
  let d ← decX (bits w 14 6)
  let a ← decSrc (bits w 20 6)
  return ⟨decCommon w, d, a, decOff w, fin2 w 48, flag w 54, fin4 w 50⟩

def decFSts (w : Nat) : Dec FSts := do
  zeroField w 14 6
  zeroField w 55 9
  let a ← decSrc (bits w 20 6)
  let b ← decSrc (bits w 26 6)
  return ⟨decCommon w, a, b, decOff w, fin2 w 48, flag w 54, fin4 w 50⟩

def decFTouch (w : Nat) : Dec FTouch := do
  zeroField w 14 6
  zeroField w 48 16
  let a ← decSrc (bits w 20 6)
  let b ← decSrc (bits w 26 6)
  return ⟨decCommon w, a, b, decOff w⟩

def decFPrf (w : Nat) : Dec FPrf := do
  zeroField w 14 6
  zeroField w 48 6
  zeroField w 55 9
  let a ← decSrc (bits w 20 6)
  let b ← decSrc (bits w 26 6)
  return ⟨decCommon w, a, b, decOff w, flag w 54⟩

/-- SZ of an atomic, ACQ or REL: 0 is 32 bits, 1 is 64 bits (R198). -/
def decSz1 (v : Nat) : Dec Bool := if v < 2 then .ok (v == 1) else .error .badValue

def decFAcq (w : Nat) : Dec FAcq := do
  zeroField w 26 6
  zeroField w 58 6
  let w64 ← decSz1 (bits w 48 2)
  let scp ← decScope (bits w 55 3)
  let d ← decX (bits w 14 6)
  let a ← decSrc (bits w 20 6)
  return ⟨decCommon w, d, a, decOff w, w64, flag w 54, fin4 w 50, scp⟩

def decFRel (w : Nat) : Dec FRel := do
  zeroField w 14 6
  zeroField w 32 11
  let w64 ← decSz1 (bits w 48 2)
  let scp ← decScope (bits w 55 3)
  let nr := bits w 44 4
  need (decide (nr ≤ 8)) .badValue
  let k ← decX (bits w 58 6)
  let a ← decSrc (bits w 20 6)
  let b ← decSrc (bits w 26 6)
  return ⟨decCommon w, a, b, w64, flag w 54, fin4 w 50, scp, Fin.ofNat 9 nr, flag w 43, k⟩

def decFFence (w : Nat) : Dec FFence := do
  zeroField w 14 18
  zeroField w 48 7
  zeroField w 58 6
  let scp ← decScope (bits w 55 3)
  return ⟨decCommon w, decOff w, scp⟩

def decFSpalloc (w : Nat) : Dec FSpalloc := do
  zeroField w 20 12
  zeroField w 38 26
  let d ← decX (bits w 14 6)
  return ⟨decCommon w, d, fin5 w 32, flag w 37⟩

def decFSa (w : Nat) : Dec FSa := do
  zeroField w 14 6
  zeroField w 26 38
  let a ← decSrc (bits w 20 6)
  return ⟨decCommon w, a⟩

def decFSab (w : Nat) : Dec FSab := do
  zeroField w 14 6
  zeroField w 32 32
  let a ← decSrc (bits w 20 6)
  let b ← decSrc (bits w 26 6)
  return ⟨decCommon w, a, b⟩

def decFSd (w : Nat) : Dec FSd := do
  zeroField w 20 44
  let d ← decX (bits w 14 6)
  return ⟨decCommon w, d⟩

def decFEc (w : Nat) : Dec FEc := do
  zeroField w 43 21
  return ⟨decCommon w, decV (bits w 14 13), fin8 w 27, fin8 w 35⟩

def decFAtom (w : Nat) : Dec FAtom := do
  zeroField w 55 9
  let w64 ← decSz1 (bits w 48 2)
  let d ← decX (bits w 14 6)
  let a ← decSrc (bits w 20 6)
  let b ← decSrc (bits w 26 6)
  return ⟨decCommon w, d, a, b, decOff w, w64, flag w 54, fin4 w 50⟩

def decFAcas (w : Nat) : Dec FAcas := do
  zeroField w 55 3
  let w64 ← decSz1 (bits w 48 2)
  let d ← decX (bits w 14 6)
  let a ← decSrc (bits w 20 6)
  let b ← decSrc (bits w 26 6)
  let cmp ← decSrc (bits w 58 6)
  return ⟨decCommon w, d, a, b, cmp, decOff w, w64, flag w 54, fin4 w 50⟩

/-- R204. -/
def parseLdAt (op w : Nat) : Dec Instr :=
  match op with
  | 0x00 => return .ldt (← decFM w)
  | 0x01 => return .ldtm (← decFM w)
  | 0x02 => return .lds (← decFLds w)
  | 0x03 => return .ldw (← decFM w)
  | 0x04 => return .ldl (← decFM w)
  | 0x05 => return .ldo (← decFM w)
  | 0x06 => return .ldg (← decFMx w)
  | 0x07 => return .touch (← decFTouch w)
  | 0x08 => return .touchw (← decFTouch w)
  | 0x09 => return .acq (← decFAcq w)
  | 0x0A => return .prf (← decFPrf w)
  | 0x0B => return .wsphase (← decFSd w)
  | _ => .error .unassignedOpcode

/-- The word of the map above, by its opcode field. -/
def parseLd (w : Nat) : Dec Instr := parseLdAt (bits w 6 8) w

/-- R205. -/
def parseStAt (op w : Nat) : Dec Instr :=
  match op with
  | 0x00 => return .stt (← decFM w)
  | 0x01 => return .sttm (← decFM w)
  | 0x02 => return .sts (← decFSts w)
  | 0x03 => return .rel (← decFRel w)
  | 0x04 => return .fence (← decFFence w)
  | 0x05 => return .spalloc (← decFSpalloc w)
  | 0x06 => return .spfree (← decFSa w)
  | 0x07 => return .mbox (← decFSab w)
  | 0x08 => return .ecInc (← decFEc w)
  | 0x09 => return .ecSnap (← decFEc w)
  | 0x10 => return .aadd (← decFAtom w)
  | 0x11 => return .amin (← decFAtom w)
  | 0x12 => return .amax (← decFAtom w)
  | 0x13 => return .aminn (← decFAtom w)
  | 0x14 => return .amaxn (← decFAtom w)
  | 0x15 => return .aand (← decFAtom w)
  | 0x16 => return .aor (← decFAtom w)
  | 0x17 => return .axor (← decFAtom w)
  | 0x18 => return .aswp (← decFAtom w)
  | 0x19 => return .acas (← decFAcas w)
  | _ => .error .unassignedOpcode

/-- The word of the map above, by its opcode field. -/
def parseSt (w : Nat) : Dec Instr := parseStAt (bits w 6 8) w

/-! ## CP slot (R199, R206, R274) -/

/-- A handle field with its valid bit: a clear valid bit leaves the field zero (R199). -/
def decHandle (w vbit lo : Nat) : Dec (Option (Fin 64)) :=
  if flag w vbit then .ok (some (fin6 w lo))
  else do
    zeroField w lo 6
    return none

/-- The fields common to copy starts; XF, SX and GX are checked by the caller. -/
def decFCpy (w : Nat) : Dec FCpy := do
  zeroField w 59 5
  let hd ← decHandle w 30 24
  let hs ← decHandle w 37 31
  return ⟨decCommon w, fin2 w 14, fin4 w 16, fin4 w 20, hd, hs, fin3 w 56⟩

def decRedFmt : Nat → Dec RedFmt
  | 0 => .ok .f32 | 1 => .ok .bf16 | 2 => .ok .f16 | 24 => .ok .i32
  | _ => .error .badFormat

def decRedOp : Nat → Dec RedOp
  | 0 => .ok .add | 1 => .ok .max | 2 => .ok .min
  | _ => .error .badValue

/-- A handle operation: HDV set, every field but HD, XF and SX zero (R274). -/
def decHop (w : Nat) : Dec (Fin 64) := do
  zeroField w 14 10
  zeroField w 31 11
  zeroField w 56 8
  need (flag w 30) .badValue
  return fin6 w 24

/-- R206, R274; a nonzero LB of a CPYG in list mode is refused (R282; log 50). -/
def parseCpAt (op w : Nat) : Dec Instr :=
  match op with
  | 0x00 => do zeroField w 38 18; return .cpy (← decFCpy w)
  | 0x01 => do
    let cp ← decFCpy w
    let sx ← decSrc (bits w 42 6)
    zeroField w 54 2
    if flag w 48 then
      need (decide (bits w 49 5 ≤ 15)) .badValue
      return .cpyg ⟨cp, fin4 w 38, sx, some (Fin.ofNat 16 (bits w 49 5))⟩
    else
      zeroField w 49 5
      return .cpyg ⟨cp, fin4 w 38, sx, none⟩
  | 0x02 => do zeroField w 42 14; return .cpys ⟨← decFCpy w, fin4 w 38⟩
  | 0x03 => do
    zeroField w 38 10
    zeroField w 49 7
    let cp ← decFCpy w
    if flag w 48 then return .cpyxUnpack cp else return .cpyxPack cp
  | 0x04 => do zeroField w 38 18; return .cpyf (← decFCpy w)
  | 0x05 => do zeroField w 42 14; return .cpyd ⟨← decFCpy w, fin4 w 38⟩
  | 0x06 => do
    zeroField w 38 10
    let fmt ← decRedFmt (bits w 48 5)
    let op ← decRedOp (bits w 53 3)
    return .cpyr ⟨← decFCpy w, op, fmt⟩
  | 0x07 => do
    zeroField w 38 4
    let fmt ← decRedFmt (bits w 48 5)
    let op ← decRedOp (bits w 53 3)
    let sx ← decSrc (bits w 42 6)
    return .coll ⟨← decFCpy w, op, fmt, sx⟩
  | 0x08 => do
    zeroField w 16 4
    zeroField w 31 11
    zeroField w 48 8
    zeroField w 59 5
    let sx ← decSrc (bits w 42 6)
    let hd ← decHandle w 30 24
    return .cpfill ⟨decCommon w, fin2 w 14, fin4 w 20, hd, fin3 w 56, sx⟩
  | 0x09 => do
    let hd ← decHop w
    zeroField w 53 3
    let sx ← decSrc (bits w 42 6)
    return .hset ⟨decCommon w, hd, fin5 w 48, sx⟩
  | 0x0A => do zeroField w 42 14; return .hdrain ⟨decCommon w, ← decHop w⟩
  | 0x0B => do zeroField w 42 14; return .hfree ⟨decCommon w, ← decHop w⟩
  | 0x0C => do
    zeroField w 48 8
    let d ← decX (bits w 42 6)
    return .hq ⟨decCommon w, ← decHop w, d⟩
  | 0x0D => do
    zeroField w 42 6
    zeroField w 50 6
    return .hwait ⟨decCommon w, ← decHop w, decHs (bits w 48 2)⟩
  | 0x0E => do
    zeroField w 16 8
    zeroField w 31 33
    let hd ← decHandle w 30 24
    return .cpmark ⟨decCommon w, fin2 w 14, hd⟩
  | _ => .error .unassignedOpcode

/-- The word of the map above, by its opcode field. -/
def parseCp (w : Nat) : Dec Instr := parseCpAt (bits w 6 8) w

/-! ## MX slot (R200, R207) -/

def decFMm (w : Nat) : Dec FMm := do
  let af ← decFmt (bits w 46 5)
  let bf ← decFmt (bits w 51 5)
  return ⟨decCommon w, fin6 w 14, decM (bits w 20 13), decM (bits w 33 13), af, bf, fin4 w 56,
    decSr (bits w 60 2), flag w 62, flag w 63⟩

/-- R207. -/
def parseMxAt (op w : Nat) : Dec Instr :=
  match op with
  | 0x00 => return .mm (← decFMm w)
  | 0x01 => return .mmz (← decFMm w)
  | 0x02 => return .mmp (← decFMm w)
  | 0x03 => do
    let af ← decFmt (bits w 46 5)
    let bf ← decFmt (bits w 51 5)
    return .mmd ⟨decCommon w, fin6 w 14, decM (bits w 20 13), decV (bits w 33 13), af, bf, fin4 w 56,
      decSr (bits w 60 2), flag w 62, flag w 63⟩
  | 0x04 => do
    zeroField w 51 9
    let b := decM (bits w 33 13)
    need b.wfPat .badValue
    let af ← decFmt (bits w 46 5)
    return .mmt ⟨decCommon w, fin6 w 14, decM (bits w 20 13), fin4 w 33, af,
      decSr (bits w 60 2), flag w 62, flag w 63⟩
  | 0x05 => do
    zeroField w 56 7
    let af ← decFmt (bits w 46 5)
    let bf ← decFmt (bits w 51 5)
    return .outer ⟨decCommon w, fin6 w 14, decV (bits w 20 13), decV (bits w 33 13), af, bf, flag w 63⟩
  | 0x06 => do
    zeroField w 16 4
    zeroField w 31 33
    return .latch ⟨decCommon w, fin2 w 14, Fin.ofNat 2048 (bits w 20 11)⟩
  | 0x07 => do zeroField w 20 44; return .aclr ⟨decCommon w, fin6 w 14⟩
  | 0x08 => do zeroField w 26 38; return .amov ⟨decCommon w, fin6 w 14, fin6 w 20⟩
  | 0x09 => do
    zeroField w 26 38
    let a ← decSrc (bits w 20 6)
    return .ascale ⟨decCommon w, fin6 w 14, a⟩
  | 0x0A => do
    zeroField w 26 7
    zeroField w 39 25
    let d ← decX (bits w 20 6)
    return .anorm2 ⟨decCommon w, fin6 w 14, d, fin6 w 33⟩
  | 0x0B => do
    zeroField w 26 7
    zeroField w 39 25
    let d ← decX (bits w 20 6)
    return .amaxabs ⟨decCommon w, fin6 w 14, d, fin6 w 33⟩
  | 0x0C => do
    zeroField w 26 7
    zeroField w 39 24
    return .bimStage ⟨decCommon w, fin6 w 14, fin6 w 20, fin6 w 33, flag w 63⟩
  | 0x0D => do
    zeroField w 20 13
    zeroField w 39 25
    return .bimMark ⟨decCommon w, fin6 w 14, fin6 w 33⟩
  | _ => .error .unassignedOpcode

/-- The word of the map above, by its opcode field. -/
def parseMx (w : Nat) : Dec Instr := parseMxAt (bits w 6 8) w

/-! ## FL slot (R201, R208) -/

def decEpi (w : Nat) : Dec Epi := do
  zeroField w 63 1
  let df ← decFmt (bits w 46 5)
  let rm ← decRM (bits w 56 2)
  if flag w 55 then
    let fn ← decFn (bits w 51 4)
    return ⟨df, rm, flag w 58, flag w 59, flag w 60, flag w 61, some fn⟩
  else
    zeroField w 51 4
    return ⟨df, rm, flag w 58, flag w 59, flag w 60, flag w 61, none⟩

def decFDrainR (w : Nat) : Dec FDrainR := do
  zeroField w 38 8
  zeroField w 62 1
  return ⟨decCommon w, fin6 w 14, decV (bits w 20 13), ← decEpi w, fin5 w 33⟩

def decFV (w : Nat) : Dec FV := do
  zeroField w 59 5
  let df ← decFmt (bits w 46 5)
  let sf ← decFmt (bits w 51 5)
  let rm ← decRM (bits w 56 2)
  return ⟨decCommon w, decV (bits w 20 13), decV (bits w 33 13), fin6 w 14, sf, df, rm, flag w 58⟩

def decFVn (w : Nat) : Dec FVn := do
  zeroField w 46 18
  return ⟨decCommon w, decV (bits w 20 13), decV (bits w 33 13), fin6 w 14⟩

def decFFa (w : Nat) : Dec FFa := do
  zeroField w 33 31
  return ⟨decCommon w, fin6 w 14, decV (bits w 20 13)⟩

/-- R208. -/
def parseFlAt (op w : Nat) : Dec Instr :=
  match op with
  | 0x00 => do
    let e ← decEpi w
    if flag w 62 then
      return .drain ⟨decCommon w, fin6 w 14, decV (bits w 20 13), e, some (decV (bits w 33 13))⟩
    else
      zeroField w 33 13
      return .drain ⟨decCommon w, fin6 w 14, decV (bits w 20 13), e, none⟩
  | 0x01 => do
    zeroField w 37 9
    zeroField w 62 1
    return .drainq ⟨decCommon w, fin6 w 14, decV (bits w 20 13), ← decEpi w, fin4 w 33⟩
  | 0x02 => return .drainr (← decFDrainR w)
  | 0x03 => return .drainc (← decFDrainR w)
  | 0x04 => return .argsel (← decFFa w)
  | 0x05 => return .bimCommit (← decFFa w)
  | 0x06 => do
    zeroField w 46 13
    zeroField w 60 4
    return .trust1 ⟨decCommon w, fin6 w 14, decV (bits w 20 13), decV (bits w 33 13), flag w 59⟩
  | 0x10 => return .cvt (← decFV w)
  | 0x11 => do
    need (flag w 59) .badMode
    let fn ← decFn (bits w 60 4)
    let df ← decFmt (bits w 46 5)
    let sf ← decFmt (bits w 51 5)
    let rm ← decRM (bits w 56 2)
    return .fn ⟨⟨decCommon w, decV (bits w 20 13), decV (bits w 33 13), fin6 w 14, sf, df, rm, flag w 58⟩, fn⟩
  | 0x12 => return .clampv (← decFV w)
  | 0x13 => do
    zeroField w 33 13
    zeroField w 51 13
    match bits w 46 5 with
    | 0 => return .rng ⟨decCommon w, decV (bits w 20 13), fin6 w 14, false⟩
    | 24 => return .rng ⟨decCommon w, decV (bits w 20 13), fin6 w 14, true⟩
    | _ => .error .badFormat
  | 0x14 => return .q8b (← decFV w)
  | 0x15 => return .dq8b (← decFV w)
  | 0x16 => return .qmx (← decFV w)
  | 0x17 => return .dqmx (← decFV w)
  | 0x18 => do
    zeroField w 46 5
    zeroField w 56 8
    let sf ← decFmt (bits w 51 5)
    return .normv ⟨decCommon w, decV (bits w 20 13), decV (bits w 33 13), fin6 w 14, sf⟩
  | 0x19 => return .scalev (← decFV w)
  | 0x1A => return .psum (← decFVn w)
  | 0x1B => do
    zeroField w 14 6
    zeroField w 46 18
    return .sampd ⟨decCommon w, decV (bits w 20 13), decV (bits w 33 13)⟩
  | 0x20 => return .updAdam (← decFV w)
  | 0x21 => return .updSgdm (← decFV w)
  | 0x22 => return .trust2 (← decFVn w)
  | 0x23 => return .clipg (← decFVn w)
  | _ => .error .unassignedOpcode

/-- The word of the map above, by its opcode field. -/
def parseFl (w : Nat) : Dec Instr := parseFlAt (bits w 6 8) w

/-! ## SC slot (R209) -/

def decFSca (w : Nat) : Dec FSca := do
  zeroField w 18 14
  let a ← decSrc (bits w 12 6)
  return ⟨decCommon w, a⟩

def decFTtv (w : Nat) : Dec FTtv := do
  zeroField w 29 3
  zeroField w 15 1
  return ⟨decCommon w, fin3 w 12, decV (bits w 16 13)⟩

/-- R209. -/
def parseScAt (op w : Nat) : Dec Instr :=
  match op with
  | 0x00 => do
    zeroField w 21 11
    return .lsc ⟨decCommon w, fin4 w 12, fin4 w 16, flag w 20⟩
  | 0x01 => do
    zeroField w 28 4
    let a ← decSrc (bits w 16 6)
    return .scset ⟨decCommon w, fin4 w 12, fin6 w 22, a⟩
  | 0x02 => do
    zeroField w 28 4
    let a ← decSrc (bits w 16 6)
    let b ← decSrc (bits w 22 6)
    return .pset ⟨decCommon w, fin4 w 12, a, b⟩
  | 0x03 => do
    zeroField w 16 1
    match bits w 30 2 with
    | 0 => return .psetd ⟨decCommon w, fin4 w 12, decV (bits w 17 13), .diag⟩
    | 1 => return .psetd ⟨decCommon w, fin4 w 12, decV (bits w 17 13), .perm⟩
    | 2 => return .psetd ⟨decCommon w, fin4 w 12, decV (bits w 17 13), .onehot⟩
    | _ => .error .badValue
  | 0x04 => do
    zeroField w 25 7
    let a ← decSrc (bits w 19 6)
    return .psett ⟨decCommon w, fin4 w 12, fin3 w 16, a⟩
  | 0x05 => do
    zeroField w 20 6
    if flag w 19 then
      zeroField w 12 7
      let a ← decSrc (bits w 26 6)
      return .setlsRegister ⟨decCommon w, a⟩
    else
      zeroField w 26 6
      return .setls ⟨decCommon w, BitVec.ofNat 7 (bits w 12 7)⟩
  | 0x06 => return .srseed (← decFSca w)
  | 0x07 => return .srctrset (← decFSca w)
  | 0x08 => do
    zeroField w 21 11
    let a ← decSrc (bits w 12 6)
    return .ttnew ⟨decCommon w, fin3 w 18, a⟩
  | 0x09 => do
    zeroField w 30 2
    zeroField w 15 3
    let a ← decSrc (bits w 18 6)
    let b ← decSrc (bits w 24 6)
    return .ttadd ⟨decCommon w, fin3 w 12, a, b⟩
  | 0x0A => return .ttpos (← decFTtv w)
  | 0x0B => return .ttprune (← decFTtv w)
  | 0x0C => do
    zeroField w 24 8
    let a ← decSrc (bits w 18 6)
    return .ttchk ⟨decCommon w, fin3 w 12, fin3 w 15, a⟩
  | 0x0D => do zeroField w 15 17; return .ttgen ⟨decCommon w, fin3 w 12⟩
  | 0x0E => return .bimlim (← decFSca w)
  | _ => .error .unassignedOpcode

/-- The word of the map above, by its opcode field. -/
def parseSc (w : Nat) : Dec Instr := parseScAt (bits w 6 6) w

/-- Only well-formed operations are instructions (R210). -/
def checked (i : Instr) : Dec Instr := if i.wf then .ok i else .error .ill

/-- A word of the S0 or S1 slot with its literal, present exactly when L is set; 0x20 to 0x3F are S1 only (R203). -/
def decodeS (isS0 : Bool) (w : Nat) (lit : Lit) : Dec Instr :=
  if isS0 && decide (0x20 ≤ bits w 6 6) then .error .s1OnlyInS0
  else if lit.isSome != flag w 5 then .error .literalMissing
  else do checked (← parseS w lit)

/-- A word of one of the other slots, where L must be clear (R191, R252, R318). -/
def decodeNoLit (parse : Nat → Dec Instr) (w : Nat) : Dec Instr := do
  zeroField w 5 1
  checked (← parse w)

/-- The word of slot number `k`, with its literal for slots 0 and 1 (R187). -/
def decodeSlot (k w : Nat) (lit : Lit) : Dec Instr :=
  match k with
  | 0 => decodeS true w lit
  | 1 => decodeS false w lit
  | 2 => decodeNoLit parseLd w
  | 3 => decodeNoLit parseSt w
  | 4 => decodeNoLit parseCp w
  | 5 => decodeNoLit parseMx w
  | 6 => decodeNoLit parseFl w
  | _ => decodeNoLit parseSc w

/-- Bytes of a slot word (R187). -/
def slotBytes (k : Nat) : Nat := if k = 0 ∨ k = 1 ∨ k = 7 then 4 else 8

/-- `n` bytes at the front, little-endian (R8), and the rest; none when they are not there. -/
def takeWord : Nat → List Byte → Option (Nat × List Byte)
  | 0, l => some (0, l)
  | _ + 1, [] => none
  | n + 1, b :: l =>
    match takeWord n l with
    | some (v, r) => some (b.toNat + 256 * v, r)
    | none => none

/-- The slots of a bundle in ascending slot number, each with its operation (R187, R188), and the bytes consumed. -/
def decodeSlots (hdr : Nat) : Nat → Nat → List Byte → Nat → Dec (List (Nat × Instr) × Nat)
  | 0, _, _, len => .ok ([], len)
  | fuel + 1, k, l, len =>
    if flag hdr k then
      match takeWord (slotBytes k) l with
      | none => .error .pastLine
      | some (w, r) =>
        if k < 2 ∧ flag w 5 then
          match takeWord 4 r with
          | none => .error .pastLine
          | some (v, r') => do
            let i ← decodeSlot k w (some (BitVec.ofNat 32 v))
            let (is, n) ← decodeSlots hdr fuel (k + 1) r' (len + slotBytes k + 4)
            return ((k, i) :: is, n)
        else do
          let i ← decodeSlot k w none
          let (is, n) ← decodeSlots hdr fuel (k + 1) r (len + slotBytes k)
          return ((k, i) :: is, n)
    else decodeSlots hdr fuel (k + 1) l len

/-- A bundle at the front of the bytes: its slots and its length (R187, R188). The bytes are those up to the end of
the fetch line, so a bundle that would pass the line's end is refused (R189). -/
def decodeBundle : List Byte → Dec (List (Nat × Instr) × Nat)
  | [] => .error .pastLine
  | h :: l => decodeSlots h.toNat 8 0 l 1

/-! ## The encoder -/

/-- An encoded slot: its word and its literal (R187). -/
structure Enc where
  word : Nat
  lit : Lit
deriving DecidableEq, Repr

def b2n (b : Bool) : Nat := if b then 1 else 0

/-- Bits 5:0 (R191). -/
def encCommon (c : Common) (l : Bool) : Nat := b2n c.s + 2 * c.gs.val + 16 * b2n c.gi + 32 * b2n l

def Src.code : Src → Nat
  | .x n => n.val
  | .q n => 32 + n.val
  | .mq n => 48 + n.val
  | .lit => 52

def Dst.code : Dst → Nat
  | .x n => n.val
  | .q => 32
  | .mq n => 33 + n.val

def VOp.code (v : VOp) : Nat :=
  v.idx.val + 2048 * (match v.lvl with | .main => 0 | .opf => 1 | .latch => 2 | .special => 3)

def MOp.code (v : MOp) : Nat :=
  v.idx.val + 2048 * (match v.kind with | .group => 0 | .sp => 1 | .pat => 2 | .store => 3)

def Fmt.code : Fmt → Nat
  | .fp32 => 0 | .bf16 => 1 | .fp16 => 2 | .e4m3 => 3 | .e5m2 => 4 | .e2m3 => 5 | .e3m2 => 6 | .e2m1 => 7
  | .int8 => 8 | .int4g => 9 | .mxe4m3 => 10 | .mxe5m2 => 11 | .mxe2m3 => 12 | .mxe3m2 => 13 | .mxe2m1 => 14
  | .mxi8 => 15 | .bx2 => 16 | .bx3 => 17 | .bx4 => 18 | .bx5 => 19 | .bx6 => 20 | .bx7 => 21 | .bx8 => 22
  | .int32 => 24 | .b8qs => 25 | .b8qn => 26

def Scope.code : Scope → Nat
  | .context => 0 | .core => 1 | .cluster => 2 | .die => 3 | .device => 4 | .system => 5

def RMode.code : RMode → Nat
  | .rne => 0 | .rtz => 1 | .sr => 2

def FnCode.code : FnCode → Nat
  | .exp2 => 0 | .log2 => 1 | .rcp => 2 | .rsqrt => 3 | .sqrt => 4 | .tanh => 5 | .sigm => 6 | .silu => 7
  | .gelu => 8 | .erf => 9 | .sinpi => 10 | .cospi => 11

def Semiring.code : Semiring → Nat
  | .plusTimes => 0 | .maxPlus => 1 | .minPlus => 2 | .orAnd => 3

def Cond.code : Cond → Nat
  | .eq => 0 | .ne => 1 | .lt => 2 | .ge => 3 | .ltn => 4 | .gen => 5 | .tst => 6 | .ntst => 7

def BCond.code : BCond → Nat
  | .eqz => 0 | .nez => 1 | .ltz => 2 | .gez => 3 | .gtz => 4 | .lez => 5

def BScope.code : BScope → Nat
  | .cluster => 0 | .die => 1 | .launch => 2

def HState.code : HState → Nat
  | .free => 0 | .filling => 1 | .full => 2 | .draining => 3

def ExtW.code : ExtW → Nat
  | .w8 => 0 | .w16 => 1 | .w32 => 2

def GField.code : GField → Nat
  | .base => 0 | .cnt => 1 | .stp => 2 | .idx => 3 | .bnd => 4 | .attr => 5

def PSize.code : PSize → Nat
  | .k4 => 0 | .k64 => 1 | .m2 => 2 | .g1 => 3

def TScope.code : TScope → Nat
  | .core => 0 | .cluster => 1 | .die => 2 | .device => 3

def RedOp.code : RedOp → Nat
  | .add => 0 | .max => 1 | .min => 2

def RedFmt.code : RedFmt → Nat
  | .f32 => 0 | .bf16 => 1 | .f16 => 2 | .i32 => 24

def PKind.code : PKind → Nat
  | .diag => 0 | .perm => 1 | .onehot => 2

def CsrName.code : CsrName → Nat
  | .bix => 0x00 | .cyc => 0x01 | .mode => 0x02 | .vallot => 0x03 | .rbase => 0x04 | .ldepth => 0x05 | .rpos => 0x06
  | .nstat => 0x07 | .cstat => 0x08 | .mqdst => 0x09 | .guard => 0x0A | .lse => 0x0B | .srseed => 0x0C | .srctr => 0x0D
  | .epscl => 0x0E | .epclp => 0x0F | .bimlim => 0x10 | .occ => 0x11 | .dlen => 0x12 | .lpass => 0x13 | .gcid => 0x14
  | .lcid => 0x15 | .codebase => 0x16 | .wsstl => 0x18 | .chstl n => 0x19 + n.val | .mbser => 0x1D
  | .bkt n => 0x20 + n.val | .hctx => 0x30 | .tsw n => 0x31 + n.val

/-- Opcode field of a 32-bit word and of a 64-bit word: both start at bit 6 (R191). -/
def encOp (c : Common) (l : Bool) (op : Nat) : Nat := encCommon c l + 64 * op

def encR (op f2 : Nat) (f : FR) : Enc :=
  ⟨encOp f.c f.lit.isSome op + 2 ^ 12 * f.d.code + 2 ^ 18 * f.a.code + 2 ^ 24 * f.b.code + 2 ^ 30 * f2, f.lit⟩
def encR1 (op f2 : Nat) (f : FR1) : Enc :=
  ⟨encOp f.c f.lit.isSome op + 2 ^ 12 * f.d.code + 2 ^ 18 * f.a.code + 2 ^ 30 * f2, f.lit⟩
def encRa (op : Nat) (f : FRa) : Enc := ⟨encOp f.c f.lit.isSome op + 2 ^ 18 * f.a.code, f.lit⟩
def encExt (op : Nat) (f : FExt) : Enc :=
  ⟨encOp f.c f.lit.isSome op + 2 ^ 12 * f.d.code + 2 ^ 18 * f.a.code + 2 ^ 30 * f.w.code, f.lit⟩
def encG (op f2 : Nat) (f : FG) : Enc :=
  ⟨encOp f.c false op + 2 ^ 12 * f.bd.val + 2 ^ 18 * f.ba.val + 2 ^ 21 * b2n f.na + 2 ^ 24 * f.bb.val + 2 ^ 27 * b2n f.nb
    + 2 ^ 30 * f2, none⟩
def encA (bi : Nat) (f : FA) : Enc :=
  ⟨encOp f.c f.lit.isSome 0x14 + 2 ^ 12 * f.gn.val + 2 ^ 16 * f.dim.val + 2 ^ 19 * f.a.code + 2 ^ 25 * f.b.code
    + 2 ^ 31 * bi, f.lit⟩
def encX (op : Nat) (f : FX) : Enc :=
  ⟨encOp f.c f.lit.isSome op + 2 ^ 12 * f.d.code + 2 ^ 18 * f.a.code + 2 ^ 24 * f.csr.code, f.lit⟩
def encZ (op : Nat) (f : FZ) : Enc := ⟨encOp f.c false op, none⟩
def encB (f2 : Nat) (f : FB) : Enc :=
  ⟨encOp f.c false 0x2B + 2 ^ 12 * f.bn.val + 2 ^ 18 * f.bsc.code + 2 ^ 30 * f2, none⟩
def encM (op : Nat) (f : FM) : Enc :=
  ⟨encOp f.c false op + 2 ^ 14 * f.vd.code + 2 ^ 31 * f.gn.val + 2 ^ 35 * f.nu.val + 2 ^ 40 * f.nrow.val + 2 ^ 45 * b2n f.t
    + 2 ^ 46 * f.fmt.code, none⟩
def encTouch (op : Nat) (f : FTouch) : Enc :=
  ⟨encOp f.c false op + 2 ^ 20 * f.a.code + 2 ^ 26 * f.b.code + 2 ^ 32 * f.off.toNat, none⟩
def encEc (op : Nat) (f : FEc) : Enc :=
  ⟨encOp f.c false op + 2 ^ 14 * f.v.code + 2 ^ 27 * f.eb.val + 2 ^ 35 * f.en.val, none⟩
def encAtom (op : Nat) (f : FAtom) : Enc :=
  ⟨encOp f.c false op + 2 ^ 14 * f.d.val + 2 ^ 20 * f.a.code + 2 ^ 26 * f.b.code + 2 ^ 32 * f.off.toNat
    + 2 ^ 48 * b2n f.w64 + 2 ^ 50 * f.strm.val + 2 ^ 54 * b2n f.sp, none⟩
def encHandle (vbit lo : Nat) : Option (Fin 64) → Nat
  | none => 0
  | some h => 2 ^ vbit + 2 ^ lo * h.val
/-- The copy fields below bit 38 (R199). -/
def cpyLow (op : Nat) (f : FCpy) : Nat :=
  encOp f.c false op + 2 ^ 14 * f.ch.val + 2 ^ 16 * f.gs.val + 2 ^ 20 * f.gd.val + encHandle 30 24 f.hd
    + encHandle 37 31 f.hs
def encHop (op : Nat) (c : Common) (hd : Fin 64) : Nat := encOp c false op + 2 ^ 24 * hd.val + 2 ^ 30 * b2n true
def encMm (op : Nat) (f : FMm) : Enc :=
  ⟨encOp f.c false op + 2 ^ 14 * f.acc.val + 2 ^ 20 * f.a.code + 2 ^ 33 * f.b.code + 2 ^ 46 * f.af.code
    + 2 ^ 51 * f.bf.code + 2 ^ 56 * f.scr.val + 2 ^ 60 * f.sr.code + 2 ^ 62 * b2n f.t + 2 ^ 63 * b2n f.g, none⟩
def encNorm (op : Nat) (f : FNorm) : Enc :=
  ⟨encOp f.c false op + 2 ^ 14 * f.acc.val + 2 ^ 20 * f.d.val + 2 ^ 33 * f.n1.val, none⟩
/-- FN and FE of an epilogue (R201). -/
def fnCode : Option FnCode → Nat
  | none => 0
  | some fn => fn.code + 16
/-- The epilogue fields above the fields `a` (R201). -/
def encEpi (a : Nat) (e : Epi) : Nat :=
  a + 2 ^ 46 * e.df.code + 2 ^ 51 * fnCode e.fn + 2 ^ 56 * e.rm.code + 2 ^ 58 * b2n e.prop + 2 ^ 59 * b2n e.g
    + 2 ^ 60 * b2n e.se + 2 ^ 61 * b2n e.ce
def encDrainR (op : Nat) (f : FDrainR) : Enc :=
  ⟨encEpi (encOp f.c false op + 2 ^ 14 * f.acc.val + 2 ^ 20 * f.vd.code + 2 ^ 33 * f.rc.val) f.e, none⟩
def encFa (op : Nat) (f : FFa) : Enc := ⟨encOp f.c false op + 2 ^ 14 * f.acc.val + 2 ^ 20 * f.vd.code, none⟩
def encV (op : Nat) (f : FV) : Nat :=
  encOp f.c false op + 2 ^ 14 * f.nr.val + 2 ^ 20 * f.vd.code + 2 ^ 33 * f.vs.code + 2 ^ 46 * f.df.code
    + 2 ^ 51 * f.sf.code + 2 ^ 56 * f.rm.code + 2 ^ 58 * b2n f.prop
def encVn (op : Nat) (f : FVn) : Enc :=
  ⟨encOp f.c false op + 2 ^ 14 * f.nr.val + 2 ^ 20 * f.vd.code + 2 ^ 33 * f.vs.code, none⟩
def encSca (op : Nat) (f : FSca) : Enc := ⟨encOp f.c false op + 2 ^ 12 * f.a.code, none⟩
def encTtv (op : Nat) (f : FTtv) : Enc := ⟨encOp f.c false op + 2 ^ 12 * f.tt.val + 2 ^ 16 * f.vd.code, none⟩

def encCmp (f : FC) : Enc :=
  ⟨encOp f.c f.lit.isSome 0x0C + 2 ^ 12 * f.bd.val + 2 ^ 15 * f.cond.code + 2 ^ 18 * f.a.code
      + 2 ^ 24 * f.b.code, f.lit⟩
def encSel (f : FSel) : Enc :=
  ⟨encOp f.c f.lit.isSome 0x0D + 2 ^ 12 * f.dx.val + 2 ^ 17 * f.a.code + 2 ^ 23 * f.b.code
      + 2 ^ 29 * f.bs.val, f.lit⟩
def encLi (f : FI) : Enc :=
  match f.imm with
  | .i14 v => ⟨encOp f.c false 0x0F + 2 ^ 12 * f.d.code + 2 ^ 18 * v.toNat, none⟩
  | .lit v => ⟨encOp f.c true 0x0F + 2 ^ 12 * f.d.code, some v⟩
def encLih (f : FLih) : Enc :=
  ⟨encOp f.c true 0x10 + 2 ^ 12 * f.d.code + 2 ^ 18 * f.a.code + 2 ^ 24 * 52, some f.imm⟩
def encGnot (f : FG1) : Enc :=
  ⟨encOp f.c false 0x13 + 2 ^ 12 * f.bd.val + 2 ^ 18 * f.ba.val + 2 ^ 21 * b2n f.na + 2 ^ 30 * 2, none⟩
def encGbase (f : FAb) : Enc :=
  ⟨encOp f.c f.lit.isSome 0x15 + 2 ^ 12 * f.gn.val + 2 ^ 19 * f.a.code + 2 ^ 25 * f.b.code, f.lit⟩
def encGstep (f : FAg) : Enc :=
  ⟨encOp f.c false 0x16 + 2 ^ 12 * f.gn.val, none⟩
def encGread (f : FQ) : Enc :=
  ⟨encOp f.c false 0x17 + 2 ^ 12 * f.d.code + 2 ^ 18 * f.gn.val + 2 ^ 22 * f.dim.val
      + 2 ^ 25 * f.fs.code, none⟩
def encCsrr (f : FXr) : Enc :=
  ⟨encOp f.c false 0x18 + 2 ^ 12 * f.d.code + 2 ^ 24 * f.csr.code, none⟩
def encBr (f : FJ) : Enc :=
  ⟨encOp f.c true 0x20, some f.off⟩
def encBrc (f : FK) : Enc :=
  ⟨encOp f.c true 0x21 + 2 ^ 12 * f.cond.code + 2 ^ 18 * f.a.code, some f.off⟩
def encCall (f : FJd) : Enc :=
  ⟨encOp f.c true 0x23 + 2 ^ 12 * f.d.code, some f.off⟩
def encLoop (f : FP) : Enc :=
  match f.cnt with
  | .regs sa nd => ⟨encOp f.c false 0x25 + 2 ^ 12 * f.bl.val + 2 ^ 16 * nd.val + 2 ^ 19 * sa.val, none⟩
  | .lit v => ⟨encOp f.c true 0x25 + 2 ^ 12 * f.bl.val + 2 ^ 19 * 52, some v⟩
def encGrow (f : FN) : Enc :=
  ⟨encOp f.c false 0x29 + 2 ^ 12 * f.n.val, none⟩
def encShrink (f : FN) : Enc :=
  ⟨encOp f.c false 0x2A + 2 ^ 12 * f.n.val, none⟩
def encWaith (f : FW) : Enc :=
  ⟨encOp f.c false 0x2C + 2 ^ 12 * f.h.val + 2 ^ 18 * f.hs.code, none⟩
def encWaitq (f : FY) : Enc :=
  ⟨encOp f.c false 0x2D + 2 ^ 12 * f.mq.val + 2 ^ 14 * (f.ne1.val + 1), none⟩
def encTrap (f : FT) : Enc :=
  ⟨encOp f.c false 0x30 + 2 ^ 12 * f.code.toNat, none⟩
def encTlbi (f : FTlbi) : Enc :=
  ⟨encOp f.c f.lit.isSome 0x3D + 2 ^ 12 * f.scope.code + 2 ^ 18 * f.a.code + 2 ^ 24 * f.b.code
      + 2 ^ 30 * f.size.code, f.lit⟩
def encLds (f : FLds) : Enc :=
  ⟨encOp f.c false 0x02 + 2 ^ 14 * f.d.val + 2 ^ 20 * f.a.code + 2 ^ 32 * f.off.toNat
      + 2 ^ 48 * f.sz.val + 2 ^ 50 * f.strm.val + 2 ^ 54 * b2n f.sp, none⟩
def encLdg (f : FMx) : Enc :=
  ⟨encOp f.c false 0x06 + 2 ^ 14 * f.vd.code + 2 ^ 31 * f.gn.val + 2 ^ 35 * f.nu.val
      + 2 ^ 40 * f.nrow.val + 2 ^ 46 * f.fmt.code + 2 ^ 51 * f.vx.code, none⟩
def encAcq (f : FAcq) : Enc :=
  ⟨encOp f.c false 0x09 + 2 ^ 14 * f.d.val + 2 ^ 20 * f.a.code + 2 ^ 32 * f.off.toNat
      + 2 ^ 48 * b2n f.w64 + 2 ^ 50 * f.strm.val + 2 ^ 54 * b2n f.sp + 2 ^ 55 * f.scp.code, none⟩
def encPrf (f : FPrf) : Enc :=
  ⟨encOp f.c false 0x0A + 2 ^ 20 * f.a.code + 2 ^ 26 * f.b.code + 2 ^ 32 * f.off.toNat
      + 2 ^ 54 * b2n f.sp, none⟩
def encWsphase (f : FSd) : Enc :=
  ⟨encOp f.c false 0x0B + 2 ^ 14 * f.d.val, none⟩
def encSts (f : FSts) : Enc :=
  ⟨encOp f.c false 0x02 + 2 ^ 20 * f.a.code + 2 ^ 26 * f.b.code + 2 ^ 32 * f.off.toNat
      + 2 ^ 48 * f.sz.val + 2 ^ 50 * f.strm.val + 2 ^ 54 * b2n f.sp, none⟩
def encRel (f : FRel) : Enc :=
  ⟨encOp f.c false 0x03 + 2 ^ 20 * f.a.code + 2 ^ 26 * f.b.code + 2 ^ 43 * b2n f.rsp
      + 2 ^ 44 * f.nr.val + 2 ^ 48 * b2n f.w64 + 2 ^ 50 * f.strm.val + 2 ^ 54 * b2n f.sp + 2 ^ 55 * f.scp.code
      + 2 ^ 58 * f.k.val, none⟩
def encFence (f : FFence) : Enc :=
  ⟨encOp f.c false 0x04 + 2 ^ 32 * f.mask.toNat + 2 ^ 55 * f.scp.code, none⟩
def encSpalloc (f : FSpalloc) : Enc :=
  ⟨encOp f.c false 0x05 + 2 ^ 14 * f.d.val + 2 ^ 32 * f.lsize.val + 2 ^ 37 * b2n f.skew, none⟩
def encSpfree (f : FSa) : Enc :=
  ⟨encOp f.c false 0x06 + 2 ^ 20 * f.a.code, none⟩
def encMbox (f : FSab) : Enc :=
  ⟨encOp f.c false 0x07 + 2 ^ 20 * f.a.code + 2 ^ 26 * f.b.code, none⟩
def encAcas (f : FAcas) : Enc :=
  ⟨encOp f.c false 0x19 + 2 ^ 14 * f.d.val + 2 ^ 20 * f.a.code + 2 ^ 26 * f.b.code
      + 2 ^ 32 * f.off.toNat + 2 ^ 48 * b2n f.w64 + 2 ^ 50 * f.strm.val + 2 ^ 54 * b2n f.sp + 2 ^ 58 * f.cmp.code, none⟩
def encCpy (f : FCpy) : Enc :=
  ⟨cpyLow 0x00 f + 2 ^ 56 * f.esz.val, none⟩
/-- MODE and LB of CPYG (R274). -/
def blkCode : Option (Fin 16) → Nat
  | none => 0
  | some lb => 1 + 2 * lb.val
def encCpyg (f : FCpyg) : Enc :=
  ⟨cpyLow 0x01 f.cp + 2 ^ 38 * f.gx.val + 2 ^ 42 * f.sx.code + 2 ^ 48 * blkCode f.blk + 2 ^ 56 * f.cp.esz.val, none⟩
def encCpys (f : FCpyx) : Enc :=
  ⟨cpyLow 0x02 f.cp + 2 ^ 38 * f.gx.val + 2 ^ 56 * f.cp.esz.val, none⟩
def encCpyxPack (f : FCpy) : Enc :=
  ⟨cpyLow 0x03 f + 2 ^ 56 * f.esz.val, none⟩
def encCpyxUnpack (f : FCpy) : Enc :=
  ⟨cpyLow 0x03 f + 2 ^ 48 * b2n true + 2 ^ 56 * f.esz.val, none⟩
def encCpyf (f : FCpy) : Enc :=
  ⟨cpyLow 0x04 f + 2 ^ 56 * f.esz.val, none⟩
def encCpyd (f : FCpyx) : Enc :=
  ⟨cpyLow 0x05 f.cp + 2 ^ 38 * f.gx.val + 2 ^ 56 * f.cp.esz.val, none⟩
def encCpyr (f : FCpyr) : Enc :=
  ⟨cpyLow 0x06 f.cp + 2 ^ 48 * f.fmt.code + 2 ^ 53 * f.op.code + 2 ^ 56 * f.cp.esz.val, none⟩
def encColl (f : FColl) : Enc :=
  ⟨cpyLow 0x07 f.cp + 2 ^ 42 * f.sx.code + 2 ^ 48 * f.fmt.code + 2 ^ 53 * f.op.code + 2 ^ 56 * f.cp.esz.val, none⟩
def encCpfill (f : FCpfill) : Enc :=
  ⟨encOp f.c false 0x08 + 2 ^ 14 * f.ch.val + 2 ^ 20 * f.gd.val + encHandle 30 24 f.hd
      + 2 ^ 42 * f.sx.code + 2 ^ 56 * f.esz.val, none⟩
def encHset (f : FHset) : Enc :=
  ⟨encHop 0x09 f.c f.hd + 2 ^ 42 * f.sx.code + 2 ^ 48 * f.lsize.val, none⟩
def encHdrain (f : FH) : Enc :=
  ⟨encHop 0x0A f.c f.hd, none⟩
def encHfree (f : FH) : Enc :=
  ⟨encHop 0x0B f.c f.hd, none⟩
def encHq (f : FHq) : Enc :=
  ⟨encHop 0x0C f.c f.hd + 2 ^ 42 * f.d.val, none⟩
def encHwait (f : FHwait) : Enc :=
  ⟨encHop 0x0D f.c f.hd + 2 ^ 48 * f.st.code, none⟩
def encCpmark (f : FCpmark) : Enc :=
  ⟨encOp f.c false 0x0E + 2 ^ 14 * f.ch.val + encHandle 30 24 f.hd, none⟩
def encMmd (f : FMmd) : Enc :=
  ⟨encOp f.c false 0x03 + 2 ^ 14 * f.acc.val + 2 ^ 20 * f.a.code + 2 ^ 33 * f.d.code
      + 2 ^ 46 * f.af.code + 2 ^ 51 * f.bf.code + 2 ^ 56 * f.scr.val + 2 ^ 60 * f.sr.code + 2 ^ 62 * b2n f.t
      + 2 ^ 63 * b2n f.g, none⟩
def encMmt (f : FMmt) : Enc :=
  ⟨encOp f.c false 0x04 + 2 ^ 14 * f.acc.val + 2 ^ 20 * f.a.code + 2 ^ 33 * (f.p.val + 4096)
      + 2 ^ 46 * f.af.code + 2 ^ 60 * f.sr.code + 2 ^ 62 * b2n f.t + 2 ^ 63 * b2n f.g, none⟩
def encOuter (f : FOuter) : Enc :=
  ⟨encOp f.c false 0x05 + 2 ^ 14 * f.acc.val + 2 ^ 20 * f.va.code + 2 ^ 33 * f.vb.code
      + 2 ^ 46 * f.af.code + 2 ^ 51 * f.bf.code + 2 ^ 63 * b2n f.g, none⟩
def encLatch (f : FLatch) : Enc :=
  ⟨encOp f.c false 0x06 + 2 ^ 14 * f.k.val + 2 ^ 20 * f.v.val, none⟩
def encAclr (f : FAcc) : Enc :=
  ⟨encOp f.c false 0x07 + 2 ^ 14 * f.acc.val, none⟩
def encAmov (f : FAmov) : Enc :=
  ⟨encOp f.c false 0x08 + 2 ^ 14 * f.ad.val + 2 ^ 20 * f.as.val, none⟩
def encAscale (f : FAscale) : Enc :=
  ⟨encOp f.c false 0x09 + 2 ^ 14 * f.acc.val + 2 ^ 20 * f.a.code, none⟩
def encBimStage (f : FBimStage) : Enc :=
  ⟨encOp f.c false 0x0C + 2 ^ 14 * f.acc.val + 2 ^ 20 * f.ac.val + 2 ^ 33 * f.n1.val
      + 2 ^ 63 * b2n f.g, none⟩
def encBimMark (f : FBimMark) : Enc :=
  ⟨encOp f.c false 0x0D + 2 ^ 14 * f.acc.val + 2 ^ 33 * f.n1.val, none⟩
/-- The code of an optional bias vector (R330). -/
def biasCode : Option VOp → Nat
  | none => 0
  | some v => v.code
def encDrain (f : FDrain) : Enc :=
  ⟨encEpi (encOp f.c false 0x00 + 2 ^ 14 * f.acc.val + 2 ^ 20 * f.vd.code + 2 ^ 33 * biasCode f.vb) f.e
    + 2 ^ 62 * b2n f.vb.isSome, none⟩
def encDrainq (f : FDrainQ) : Enc :=
  ⟨encEpi (encOp f.c false 0x01 + 2 ^ 14 * f.acc.val + 2 ^ 20 * f.vd.code + 2 ^ 33 * f.scn.val) f.e, none⟩
def encTrust1 (f : FTrust1) : Enc :=
  ⟨encOp f.c false 0x06 + 2 ^ 14 * f.acc.val + 2 ^ 20 * f.vd.code + 2 ^ 33 * f.vb.code
      + 2 ^ 59 * b2n f.g, none⟩
def encCvt (f : FV) : Enc :=
  ⟨encV 0x10 f, none⟩
def encFn (f : FVfn) : Enc :=
  ⟨encV 0x11 f.v + 2 ^ 59 * b2n true + 2 ^ 60 * f.fn.code, none⟩
def encClampv (f : FV) : Enc :=
  ⟨encV 0x12 f, none⟩
def encRng (f : FRng) : Enc :=
  ⟨encOp f.c false 0x13 + 2 ^ 14 * f.nr.val + 2 ^ 20 * f.vd.code + 2 ^ 46 * (if f.int then 24 else 0), none⟩
def encQ8b (f : FV) : Enc :=
  ⟨encV 0x14 f, none⟩
def encDq8b (f : FV) : Enc :=
  ⟨encV 0x15 f, none⟩
def encQmx (f : FV) : Enc :=
  ⟨encV 0x16 f, none⟩
def encDqmx (f : FV) : Enc :=
  ⟨encV 0x17 f, none⟩
def encNormv (f : FNormv) : Enc :=
  ⟨encOp f.c false 0x18 + 2 ^ 14 * f.nr.val + 2 ^ 20 * f.vd.code + 2 ^ 33 * f.vs.code
      + 2 ^ 51 * f.sf.code, none⟩
def encScalev (f : FV) : Enc :=
  ⟨encV 0x19 f, none⟩
def encSampd (f : FSampd) : Enc :=
  ⟨encOp f.c false 0x1B + 2 ^ 20 * f.vd.code + 2 ^ 33 * f.vs.code, none⟩
def encUpdAdam (f : FV) : Enc :=
  ⟨encV 0x20 f, none⟩
def encUpdSgdm (f : FV) : Enc :=
  ⟨encV 0x21 f, none⟩
def encLsc (f : FLsc) : Enc :=
  ⟨encOp f.c false 0x00 + 2 ^ 12 * f.scn.val + 2 ^ 16 * f.gn.val + 2 ^ 20 * b2n f.two, none⟩
def encScset (f : FScset) : Enc :=
  ⟨encOp f.c false 0x01 + 2 ^ 12 * f.scn.val + 2 ^ 16 * f.a.code + 2 ^ 22 * f.woff.val, none⟩
def encPset (f : FPset) : Enc :=
  ⟨encOp f.c false 0x02 + 2 ^ 12 * f.pn.val + 2 ^ 16 * f.a.code + 2 ^ 22 * f.b.code, none⟩
def encPsetd (f : FPsetd) : Enc :=
  ⟨encOp f.c false 0x03 + 2 ^ 12 * f.pn.val + 2 ^ 17 * f.vs.code + 2 ^ 30 * f.kc.code, none⟩
def encPsett (f : FPsett) : Enc :=
  ⟨encOp f.c false 0x04 + 2 ^ 12 * f.pn.val + 2 ^ 16 * f.tt.val + 2 ^ 19 * f.a.code, none⟩
def encSetls (f : FSetls) : Enc :=
  ⟨encOp f.c false 0x05 + 2 ^ 12 * f.lse.toNat, none⟩
def encSetlsRegister (f : FSca) : Enc :=
  ⟨encOp f.c false 0x05 + 2 ^ 19 * b2n true + 2 ^ 26 * f.a.code, none⟩
def encTtnew (f : FTta) : Enc :=
  ⟨encOp f.c false 0x08 + 2 ^ 12 * f.a.code + 2 ^ 18 * f.tt.val, none⟩
def encTtadd (f : FTtadd) : Enc :=
  ⟨encOp f.c false 0x09 + 2 ^ 12 * f.tt.val + 2 ^ 18 * f.a.code + 2 ^ 24 * f.b.code, none⟩
def encTtchk (f : FTtchk) : Enc :=
  ⟨encOp f.c false 0x0C + 2 ^ 12 * f.tt.val + 2 ^ 15 * f.bd.val + 2 ^ 18 * f.a.code, none⟩
def encTtgen (f : FTt) : Enc :=
  ⟨encOp f.c false 0x0D + 2 ^ 12 * f.tt.val, none⟩

/-- The slot word and literal of a slot operation, from the layouts of R197 to R209; `none` for a device step. -/
def encode : Instr → Option Enc
  | .add f => some (encR 0x00 0 f) | .sub f => some (encR 0x01 0 f) | .mul f => some (encR 0x02 0 f)
  | .mulh f => some (encR 0x03 0 f) | .mulhn f => some (encR 0x03 1 f) | .div f => some (encR 0x04 0 f)
  | .divn f => some (encR 0x04 1 f) | .rem f => some (encR 0x04 2 f) | .remn f => some (encR 0x04 3 f)
  | .and f => some (encR 0x05 0 f) | .or f => some (encR 0x06 0 f) | .xor f => some (encR 0x07 0 f)
  | .andn f => some (encR 0x08 0 f) | .shl f => some (encR 0x09 0 f) | .shr f => some (encR 0x09 1 f)
  | .sar f => some (encR 0x09 2 f) | .rol f => some (encR 0x09 3 f) | .clz f => some (encR1 0x0A 0 f)
  | .ctz f => some (encR1 0x0A 1 f) | .popc f => some (encR1 0x0A 2 f) | .min f => some (encR 0x0B 0 f)
  | .max f => some (encR 0x0B 1 f) | .minn f => some (encR 0x0B 2 f) | .maxn f => some (encR 0x0B 3 f)
  | .cmp f => some (encCmp f) | .sel f => some (encSel f) | .mov f => some (encR1 0x0E 0 f)
  | .li f => some (encLi f) | .lih f => some (encLih f) | .sext f => some (encExt 0x11 f)
  | .zext f => some (encExt 0x12 f) | .gand f => some (encG 0x13 0 f) | .gor f => some (encG 0x13 1 f)
  | .gnot f => some (encGnot f) | .gset f => some (encA 0 f) | .gsetE f => some (encA 1 f)
  | .gbase f => some (encGbase f) | .gstep f => some (encGstep f) | .gread f => some (encGread f)
  | .csrr f => some (encCsrr f) | .csrw f => some (encX 0x19 f) | .csrs f => some (encX 0x1A f)
  | .csrc f => some (encX 0x1B f) | .br f => some (encBr f) | .brc f => some (encBrc f)
  | .brx f => some (encRa 0x22 f) | .call f => some (encCall f) | .ret f => some (encRa 0x24 f)
  | .loop f => some (encLoop f) | .loopx f => some (encZ 0x26 f) | .rot f => some (encZ 0x27 f)
  | .ldepthset f => some (encRa 0x28 f) | .grow f => some (encGrow f) | .shrink f => some (encShrink f)
  | .bara f => some (encB 0 f) | .barw f => some (encB 1 f) | .bar f => some (encB 2 f)
  | .waith f => some (encWaith f) | .waitq f => some (encWaitq f) | .yield f => some (encZ 0x2E f)
  | .halt f => some (encZ 0x2F f) | .trap f => some (encTrap f) | .seqsel f => some (encR1 0x31 0 f)
  | .admitReq f => some (encR1 0x32 0 f) | .retire f => some (encR1 0x33 0 f) | .tret f => some (encZ 0x3C f)
  | .tlbi f => some (encTlbi f) | .ctxl f => some (encRa 0x3E f) | .ldt f => some (encM 0x00 f)
  | .ldtm f => some (encM 0x01 f) | .ldw f => some (encM 0x03 f) | .ldl f => some (encM 0x04 f)
  | .ldo f => some (encM 0x05 f) | .lds f => some (encLds f) | .ldg f => some (encLdg f)
  | .touch f => some (encTouch 0x07 f) | .touchw f => some (encTouch 0x08 f) | .acq f => some (encAcq f)
  | .prf f => some (encPrf f) | .wsphase f => some (encWsphase f) | .stt f => some (encM 0x00 f)
  | .sttm f => some (encM 0x01 f) | .sts f => some (encSts f) | .rel f => some (encRel f)
  | .fence f => some (encFence f) | .spalloc f => some (encSpalloc f) | .spfree f => some (encSpfree f)
  | .mbox f => some (encMbox f) | .ecInc f => some (encEc 0x08 f) | .ecSnap f => some (encEc 0x09 f)
  | .aadd f => some (encAtom 0x10 f) | .amin f => some (encAtom 0x11 f) | .amax f => some (encAtom 0x12 f)
  | .aminn f => some (encAtom 0x13 f) | .amaxn f => some (encAtom 0x14 f) | .aand f => some (encAtom 0x15 f)
  | .aor f => some (encAtom 0x16 f) | .axor f => some (encAtom 0x17 f) | .aswp f => some (encAtom 0x18 f)
  | .acas f => some (encAcas f) | .cpy f => some (encCpy f) | .cpyg f => some (encCpyg f)
  | .cpys f => some (encCpys f) | .cpyxPack f => some (encCpyxPack f) | .cpyxUnpack f => some (encCpyxUnpack f)
  | .cpyf f => some (encCpyf f) | .cpyd f => some (encCpyd f) | .cpyr f => some (encCpyr f)
  | .coll f => some (encColl f) | .cpfill f => some (encCpfill f) | .hset f => some (encHset f)
  | .hdrain f => some (encHdrain f) | .hfree f => some (encHfree f) | .hq f => some (encHq f)
  | .hwait f => some (encHwait f) | .cpmark f => some (encCpmark f) | .mm f => some (encMm 0x00 f)
  | .mmz f => some (encMm 0x01 f) | .mmp f => some (encMm 0x02 f) | .mmd f => some (encMmd f)
  | .mmt f => some (encMmt f) | .outer f => some (encOuter f) | .latch f => some (encLatch f)
  | .aclr f => some (encAclr f) | .amov f => some (encAmov f) | .ascale f => some (encAscale f)
  | .anorm2 f => some (encNorm 0x0A f) | .amaxabs f => some (encNorm 0x0B f)
  | .bimStage f => some (encBimStage f) | .bimMark f => some (encBimMark f) | .drain f => some (encDrain f)
  | .drainq f => some (encDrainq f) | .drainr f => some (encDrainR 0x02 f)
  | .drainc f => some (encDrainR 0x03 f) | .argsel f => some (encFa 0x04 f)
  | .bimCommit f => some (encFa 0x05 f) | .trust1 f => some (encTrust1 f) | .cvt f => some (encCvt f)
  | .fn f => some (encFn f) | .clampv f => some (encClampv f) | .rng f => some (encRng f)
  | .q8b f => some (encQ8b f) | .dq8b f => some (encDq8b f) | .qmx f => some (encQmx f)
  | .dqmx f => some (encDqmx f) | .normv f => some (encNormv f) | .scalev f => some (encScalev f)
  | .psum f => some (encVn 0x1A f) | .sampd f => some (encSampd f) | .updAdam f => some (encUpdAdam f)
  | .updSgdm f => some (encUpdSgdm f) | .trust2 f => some (encVn 0x22 f) | .clipg f => some (encVn 0x23 f)
  | .lsc f => some (encLsc f) | .scset f => some (encScset f) | .pset f => some (encPset f)
  | .psetd f => some (encPsetd f) | .psett f => some (encPsett f) | .setls f => some (encSetls f)
  | .setlsRegister f => some (encSetlsRegister f) | .srseed f => some (encSca 0x06 f)
  | .srctrset f => some (encSca 0x07 f) | .ttnew f => some (encTtnew f) | .ttadd f => some (encTtadd f)
  | .ttpos f => some (encTtv 0x0A f) | .ttprune f => some (encTtv 0x0B f) | .ttchk f => some (encTtchk f)
  | .ttgen f => some (encTtgen f) | .bimlim f => some (encSca 0x0E f)
  | .bundleIssue _ | .vacancyFill _ | .promotion _ | .resultWrite _ | .loopPassEnd _ | .pinExpiry _
  | .copyComplete _ _ _ | .copyStop _ _ | .handleDrainComplete _ _ | .copyResume _ _ | .copyAbort _ _ _
  | .barrierCompletion _ _ | .damperRelease _ _ _ | .lgenIncrement _ | .tagSweep _ _ | .scratchpadClear _
  | .mantelRefresh _ | .invalidationComplete _ | .trapDelivery _ | .tresume _ _
  | .launch _ | .launchPlacement _ | .launchEnd _ | .preemption _ | .semwait _ | .semsig _ | .wsload _
  | .tgadd _ | .tgrun _ | .taskComplete _ _ | .fenceCommand _ | .mark _ | .preempt _
  | .sqtail _ _ | .streamEnable _ _ | .kill _ | .xinvGo _ _ | .translationRootWrite _ _ _
  | .partitionConfigWrite _ _ _ | .registerWrite _ _ | .chimneyRecordTake _ | .frameWrite _ | .eventLogWrite _
  | .hostMemoryAccess _ | .portEnable _ | .portUp _ _ | .portFail _ | .flitReceive _ _ | .flitReplay _ _
  | .linkCalibration _ | .patrolScrub _ _ _ | .dramRefresh _ _ | .correctedError _ | .uncorrectableError _
  | .telemetrySample _ _ | .throttle _ _ | .clockRestore _ _ | .thermalStop | .powerUp | .attest | .cert
  | .fwupdate _ | .devlog _ | .writePerformed _ _ | .wsloadComplete _ | .streamDisable _ _ | .portDisable _
  | .powerDown => none

/-- A slot number that can hold the operation: S1 for the scalar slots, else its own slot (R187). -/
def Instr.slotNo (i : Instr) : Nat :=
  match i.slotKind with
  | some .s | some .s1 => 1
  | some .ld => 2
  | some .st => 3
  | some .cp => 4
  | some .mx => 5
  | some .fl => 6
  | some .sc => 7
  | none => 8

/-- `n` bytes of a number, lowest first (R8). -/
def leBytes : Nat → Nat → List Byte
  | 0, _ => []
  | n + 1, v => BitVec.ofNat 8 v :: leBytes n (v / 256)

/-- The bytes of a slot (R187): its word, then its literal. -/
def slotImage (k : Nat) (e : Enc) : List Byte :=
  leBytes (slotBytes k) e.word ++ (match e.lit with | none => [] | some v => leBytes 4 v.toNat)

/-- The bytes of a one-slot bundle that holds the word `w` in slot `k`, its literal zero where L is set. -/
def oneSlotBundle (k w : Nat) : List Byte :=
  BitVec.ofNat 8 (2 ^ k) :: slotImage k ⟨w, if k < 2 ∧ flag w 5 then some 0 else none⟩

/-- The slot in which a table word of `nbits` bits is tried: a 32-bit word is an S1 word if the decoder accepts it
there, and else an SC word; a 64-bit word is tried as LD, ST, CP, MX, FL in turn. The table does not say the slot
(log 6). -/
def tableSlot (nbits w : Nat) : Nat :=
  let ok (k : Nat) : Bool :=
    match decodeBundle (oneSlotBundle k w) with
    | .ok _ => true
    | .error _ => false
  if nbits ≤ 32 then (if ok 1 then 1 else 7)
  else if ok 2 then 2 else if ok 3 then 3 else if ok 4 then 4 else if ok 5 then 5 else 6

/-- The instruction the decoder reads from a table word (R187 to R210), in a bundle of its own. -/
def decodeTableWord (nbits w : Nat) : Option Instr :=
  match decodeBundle (oneSlotBundle (tableSlot nbits w) w) with
  | .ok ([(_, i)], _) => some i
  | _ => none

end Sys2Proof
end

