-- ==== Sys2Proof/Machine/Memory.lean ====
section
/-! DEFINITION. Memory as a context, a copy and an engine reach it: the physical map, translation, permissions, race tags,
poison, the scratchpad and its regions, Mantel, and committed writes that are not yet performed (R125 to R134, R141 to
R173, R253, R254, R446 to R464, R484). -/

namespace Sys2Proof.Machine

open Sys2Proof

/-! ## The physical address map (R454) -/

/-- Where a device physical address lies. -/
inductive Zone where
  | data (die off : Nat)
  | carve (die off : Nat)
  | regs (off : Nat)
  | hole
deriving DecidableEq, Repr

def dramBase : Nat := 0x6000000000
def dieSpan : Nat := 0x1800000000
def dieData : Nat := 0x1680000000

def dieBase (d : Nat) : Nat := dramBase + d * dieSpan

def zoneOf (a : Nat) : Zone :=
  if dramBase ≤ a ∧ a < dramBase + 4 * dieSpan then
    let o := a - dramBase
    if o % dieSpan < dieData then .data (o / dieSpan) (o % dieSpan) else .carve (o / dieSpan) (o % dieSpan - dieData)
  else if 0xF000000000000 ≤ a ∧ a ≤ 0xFFFFFFFFFFFFF then .regs (a - 0xF000000000000)
  else .hole

/-- A place whose byte is the byte last stored there: host memory, a scratchpad, and the data zone of a die's DRAM. -/
def dataPlace (sp : Space) (a : Nat) : Prop := sp = .dram → ∃ d o, zoneOf a = .data d o

/-- The granule whose tag a carve-out byte belongs to; none in the part that holds no tags (R463). -/
def tagGranule (die off : Nat) : Option Nat :=
  if off / 4 < dieData / 64 then some (dieBase die / 64 + off / 4) else none

/-- A byte of a 32-bit word. -/
def byteOf (w : BitVec 32) (i : Nat) : Byte := (w >>> (8 * i)).setWidth 8
def setByteOf (w : BitVec 32) (i : Nat) (b : Byte) : BitVec 32 :=
  (w &&& ~~~((0xFF#32) <<< (8 * i))) ||| (b.setWidth 32 <<< (8 * i))

/-- Whether a scratchpad byte lies in a range the clearer has not reached (R127). -/
def Cluster.isUncleared (c : Cluster) (a : Nat) : Bool :=
  c.uncleared.any (fun r => decide (r.1 ≤ a) && decide (a < r.2))

/-- Ranges without a 64-byte line. -/
def cutLine (l : Nat) (u : List (Nat × Nat)) : List (Nat × Nat) :=
  u.flatMap (fun r =>
    (if r.1 < min r.2 l then [(r.1, min r.2 l)] else []) ++
      (if max r.1 (l + 64) < r.2 then [(max r.1 (l + 64), r.2)] else []))

/-- The bytes from `a` on that `want` names become zero. -/
def Memory.zeroN (want : Nat → Bool) (m : Memory) (a : Nat) : Nat → Memory
  | 0 => m
  | n + 1 => Memory.zeroN want (if want a then m.write a 0#8 else m) (a + 1) n

/-- The clearer zero-fills what it has not reached of the line that holds a byte (R127). -/
def Cluster.clearLine (c : Cluster) (a : Nat) : Cluster :=
  if c.isUncleared a then
    let l := a / 64 * 64
    { c with mem := c.mem.zeroN c.isUncleared l 64, uncleared := cutLine l c.uncleared,
             pois := c.pois.filter (fun p => !(decide (l ≤ p) && decide (p < l + 64) && c.isUncleared p)) }
  else c

/-- A byte of memory as it stands performed (R141). Register-window bytes read as zero here (R467). -/
def State.memByte (s : State) (sp : Space) (a : Nat) : Byte :=
  match sp with
  | .host => s.host.read a
  | .sp c => if (s.clu c).isUncleared a then 0#8 else (s.clu c).mem.read a
  | .dram =>
    match zoneOf a with
    | .data _ _ => s.dram.read a
    | .carve d o =>
      match tagGranule d o with
      | some g => byteOf (Tab.get 0 g s.dtags) (o % 4)
      | none => s.dram.read a
    | _ => 0#8

/-- A byte of memory performed, its poison lifted (R462, R484). -/
def State.setByte (s : State) (sp : Space) (a : Nat) (b : Byte) : State :=
  match sp with
  | .host => { s with host := s.host.write a b, hpois := unpoison a s.hpois }
  | .sp c => s.modClu c (fun q =>
      let q := q.clearLine a
      { q with mem := q.mem.write a b, pois := unpoison a q.pois })
  | .dram =>
    match zoneOf a with
    | .data _ _ => { s with dram := s.dram.write a b, dpois := unpoison a s.dpois }
    | .carve d o =>
      match tagGranule d o with
      | some g =>
        { s with dtags := Tab.put g (setByteOf (Tab.get 0 g s.dtags) (o % 4) b) s.dtags, dpois := unpoison a s.dpois }
      | none => { s with dram := s.dram.write a b, dpois := unpoison a s.dpois }
    | _ => s

/-- Whether a byte is poisoned (R484). -/
def State.poisoned (s : State) (sp : Space) (a : Nat) : Bool :=
  match sp with
  | .host => s.hpois.contains a
  | .sp c => (s.clu c).pois.contains a && !(s.clu c).isUncleared a
  | .dram => s.dpois.contains a

/-- A byte becomes poisoned. -/
def State.poison (s : State) (sp : Space) (a : Nat) : State :=
  match sp with
  | .host => { s with hpois := a :: unpoison a s.hpois }
  | .sp c => s.modClu c (fun q => { q with pois := a :: unpoison a q.pois })
  | .dram => { s with dpois := a :: unpoison a s.dpois }

/-- Bytes as a number, lowest first (R8). -/
def leNat : List Byte → Nat
  | [] => 0
  | b :: l => b.toNat + 256 * leNat l

/-- A number as `n` bytes, lowest first (R8). -/
def natLe : Nat → Nat → List Byte
  | 0, _ => []
  | n + 1, v => BitVec.ofNat 8 v :: natLe n (v / 256)

/-- `n` performed bytes of a space from `a`. -/
def State.memBytes (s : State) (sp : Space) (a : Nat) : Nat → List Byte
  | 0 => []
  | n + 1 => s.memByte sp a :: State.memBytes s sp (a + 1) n

def State.setBytes (s : State) (sp : Space) (a : Nat) : List Byte → State
  | [] => s
  | b :: l => State.setBytes (s.setByte sp a b) sp (a + 1) l

/-! ## Committed writes not yet performed (R141, R168) -/

def PendWrite.overlaps (w v : PendWrite) : Bool :=
  w.sp == v.sp && decide (w.addr < v.addr + v.bytes.length) && decide (v.addr < w.addr + w.bytes.length)

/-- The writes of a list that must be performed for those that `want` names, which are they and the earlier ones of the same
context that overlap them or belong to their stream (R137, R168), and the others. -/
def splitWrites (want : PendWrite → Bool) : List PendWrite → List PendWrite × List PendWrite
  | [] => ([], [])
  | w :: l =>
    let r := splitWrites want l
    if want w || r.1.any (fun v => v.gcid == w.gcid && (v.strm == w.strm || v.overlaps w)) then (w :: r.1, r.2) else (r.1, w :: r.2)

def State.performOne (s : State) (w : PendWrite) : State := s.setBytes w.sp w.addr w.bytes

/-- The wanted writes are performed, in commit order. -/
def State.perform (s : State) (want : PendWrite → Bool) : State :=
  let r := splitWrites want s.wbuf
  r.1.foldl State.performOne { s with wbuf := r.2 }

/-- Every committed write of a context is performed. -/
def State.performAll (s : State) (g : Nat) : State := s.perform (fun w => w.gcid == g)

/-- A context's own writes to `n` bytes are performed, where it has any (R145, R168). -/
def State.settleBytes (s : State) (g : Nat) (sp : Space) (a n : Nat) : State :=
  let mine (w : PendWrite) : Bool :=
    w.gcid == g && w.sp == sp && decide (w.addr < a + n) && decide (a < w.addr + w.bytes.length)
  if s.wbuf.any mine then s.perform mine else s

/-- The byte a context reads: its own latest committed write, else memory (R168). -/
def State.ownByte (s : State) (g : Nat) (sp : Space) (a : Nat) : Byte :=
  match s.wbuf.reverse.find? (fun w => w.gcid == g && w.sp == sp && decide (w.addr ≤ a) &&
      decide (a < w.addr + w.bytes.length)) with
  | some w => w.bytes.getD (a - w.addr) 0
  | none => s.memByte sp a

/-- Whether a context's own committed write covers a byte. -/
def State.ownWrote (s : State) (g : Nat) (sp : Space) (a : Nat) : Bool :=
  s.wbuf.any (fun w => w.gcid == g && w.sp == sp && decide (w.addr ≤ a) && decide (a < w.addr + w.bytes.length))

/-- Bytes at places, joined into runs. -/
def joinRuns (g strm : Nat) : List (Space × Nat × Byte) → List PendWrite
  | [] => []
  | (sp, a, b) :: l =>
    match joinRuns g strm l with
    | w :: r => if w.sp = sp ∧ w.addr = a + 1 then ⟨g, strm, sp, a, b :: w.bytes⟩ :: r else ⟨g, strm, sp, a, [b]⟩ :: w :: r
    | [] => [⟨g, strm, sp, a, [b]⟩]

/-- Whether a place lies in the register window or in no range: a write there is ignored (R454, R467). -/
def noPlace (b : Space × Nat × Byte) : Bool :=
  b.1 == .dram && (match zoneOf b.2.1 with
    | .regs _ => true
    | .hole => true
    | _ => false)

/-- A store commits: its bytes wait to be performed, at once where they lift poison or reach a tag (R40, R464). -/
def State.commitStore (s : State) (g strm : Nat) (bs : List (Space × Nat × Byte)) : State :=
  let bs := bs.filter (fun b => !noPlace b)
  let s := { s with wbuf := s.wbuf ++ joinRuns g strm bs }
  let now := bs.any (fun b => s.poisoned b.1 b.2.1 ||
    (b.1 == .dram && (match zoneOf b.2.1 with | .carve _ _ => true | _ => false)))
  if now then s.performAll g else s

/-! ## Race tags (R146 to R152) -/

/-- A tag word: STATE, CTX, GEN, TOKEN (R146). -/
def mkTag (st ctx gen tok : Nat) : BitVec 32 := BitVec.ofNat 32 (st * 2 ^ 28 + ctx * 2 ^ 18 + gen * 2 ^ 12 + tok)
def tagSt (t : BitVec 32) : Nat := bits t.toNat 28 3
def tagCtx (t : BitVec 32) : Nat := bits t.toNat 18 10
def tagGen (t : BitVec 32) : Nat := bits t.toNat 12 6
def tagTok (t : BitVec 32) : Nat := bits t.toNat 0 12

/-- The classes of an access for its race tag (R142, R149). -/
inductive Cls where
  | read | write | acq | atomic
  | rel (tok : Nat)
deriving DecidableEq, Repr

def State.tag (s : State) (sp : Space) (gr : Nat) : BitVec 32 :=
  match sp with
  | .sp c => Tab.get 0 gr (s.clu c).tags
  | .dram => Tab.get 0 gr s.dtags
  | .host => 0

def State.setTag (s : State) (sp : Space) (gr : Nat) (t : BitVec 32) : State :=
  match sp with
  | .sp c => s.modClu c (fun q => { q with tags := Tab.put gr t q.tags })
  | .dram => { s with dtags := Tab.put gr t s.dtags }
  | .host => s

/-- LGEN of a context's partition (R163). -/
def State.lgenOf (s : State) (g : Nat) : Nat := (s.part (s.partOf g)).lgen

/-- The state of a tag as an access sees it: a stale generation is FREE (R148). -/
def effSt (lgen : Nat) (t : BitVec 32) : Nat := if tagGen t = lgen then tagSt t else 0

/-- The transition table: none is a race (R149). -/
def tagNext (c lgen : Nat) (cls : Cls) (t : BitVec 32) : Option (BitVec 32) :=
  let mine := tagCtx t == c
  let atom : BitVec 32 :=
    match cls with
    | .rel tok => mkTag 5 c lgen tok
    | _ => mkTag 5 c lgen 0
  match effSt lgen t, cls with
  | 0, .read => some (mkTag 1 c lgen 0)
  | 0, .write => some (mkTag 3 c lgen 0)
  | 0, _ => some atom
  | 1, .read => if mine then some t else some (mkTag 2 c lgen 0)
  | 1, .write => if mine then some (mkTag 3 c lgen 0) else none
  | 1, _ => if mine then some atom else none
  | 2, .read => some t
  | 2, _ => none
  | 3, .read => if mine then some t else none
  | 3, .write => if mine then some t else none
  | 3, _ => if mine then some atom else none
  | 4, .read => if mine then some t else none
  | 4, _ => none
  | 5, .acq => some t
  | 5, .atomic => some atom
  | 5, .rel _ => some atom
  | _, _ => none

/-- A tag whose state code is never written (R147). -/
def badTag (t : BitVec 32) : Bool := decide (6 ≤ tagSt t)

/-- The gap between two granule ranges of one space. -/
def GRange.gap (a b : GRange) : Nat := if a.hi ≤ b.lo then b.lo - a.hi else if b.hi ≤ a.lo then a.lo - b.hi else 0

/-- The pair of ranges of one space with the smallest gap. -/
def closest (l : List GRange) : Option (GRange × GRange) :=
  let pairs := (enumFrom 0 l).flatMap (fun p => (l.drop (p.1 + 1)).filterMap (fun b =>
    if p.2.sp = b.sp then some (p.2, b) else none))
  pairs.foldl (fun best q =>
    match best with
    | none => some q
    | some w => if q.1.gap q.2 < w.1.gap w.2 then some q else some w) none

/-- A granule enters an owned-range list: an adjacent range grows, and a 65th range merges the two closest (R159). -/
def addOwned (sp : Space) (gr : Nat) (l : List GRange) : List GRange :=
  if l.any (fun r => r.sp == sp && decide (r.lo ≤ gr) && decide (gr < r.hi)) then l
  else
    let ext (r : GRange) : Bool := r.sp == sp && (r.hi == gr || r.lo == gr + 1)
    if l.any ext then
      (l.foldl (fun (acc : List GRange × Bool) r =>
        if !acc.2 && ext r then (acc.1 ++ [⟨sp, min r.lo gr, max r.hi (gr + 1)⟩], true) else (acc.1 ++ [r], acc.2))
        ([], false)).1
    else
      let l := l ++ [⟨sp, gr, gr + 1⟩]
      if l.length ≤ 64 then l
      else
        match closest l with
        | some (a, b) => ⟨a.sp, min a.lo b.lo, max a.hi b.hi⟩ :: (l.erase a).erase b
        | none => l

/-- A transition of a granule's tag by a context, with its owned-range list (R149, R159). -/
def State.touchTag (s : State) (g : Nat) (cls : Cls) (sp : Space) (gr : Nat) : State :=
  match tagNext g (s.lgenOf g) cls (s.tag sp gr) with
  | none => s
  | some t =>
    let s := if t = s.tag sp gr then s else s.setTag sp gr t
    if tagCtx t = g then s.modCtx g (fun c => { c with owned := addOwned sp gr c.owned }) else s

/-! ## Translation (R446 to R456) -/

/-- The kinds of access, by the permission they need (R452). -/
inductive Acc where
  | load | store | atomic | exec
deriving DecidableEq, Repr

/-- A canonical address (R449). -/
def canonical (va : Nat) : Bool := decide (va < 2 ^ 47) || decide (2 ^ 64 - 2 ^ 47 ≤ va)

/-- A table entry, read untagged and performed (R456). -/
def State.pte (s : State) (a : Nat) : Nat := leNat (s.memBytes .dram a 8)

/-- Whether an address lies in a die's DRAM data (R450). -/
def inData (a : Nat) : Bool :=
  match zoneOf a with
  | .data _ _ => true
  | _ => false

/-- The fields of an entry (R450). -/
def eFrame (e : Nat) : Nat := bits e 12 40 * 4096
def eBit (e b : Nat) : Bool := bits e b 1 == 1
def eBad (e : Nat) : Bool := bits e 52 12 != 0 || bits e 10 2 != 0

/-- A leaf entry as a translation; none is PAGE (R450, R451). -/
def mkLeaf (asid va size e : Nat) : Option Leaf :=
  let pa := eFrame e / size * size
  if eBad e then none
  else if 65536 < size ∧ eFrame e % size ≠ 0 then none
  else
    some { asid := asid, va := va / size * size, size := size, pa := pa, host := eBit e 6, rc := eBit e 5 && !eBit e 6,
           x := eBit e 4, w := eBit e 3, r := eBit e 2, dd := eBit e 8 && size == 4096 }

/-- The address-space id of a partition (R446). -/
def State.asidOf (s : State) (part : Nat) : Nat := (s.part part).xasid.toNat % 2 ^ 16

/-- The level-0 step of the walk, with the 64 KiB pages (R451). -/
def State.walk0 (s : State) (asid va tbl : Nat) : Option Leaf :=
  if !inData tbl then none
  else
    let e := s.pte (tbl + 8 * bits va 12 9)
    if !eBit e 0 || !eBit e 1 then none
    else if eBit e 9 then
      let e' := s.pte (tbl + 8 * (bits va 12 9 / 16 * 16))
      if eBit e' 0 && eBit e' 1 && eBit e' 9 then mkLeaf asid va 65536 e' else none
    else mkLeaf asid va 4096 e

/-- The walk from a level's table: level 3, 2 or 1 (R449). -/
def State.walkFrom (s : State) (asid va : Nat) : Nat → Nat → Option Leaf
  | 0, tbl => s.walk0 asid va tbl
  | lvl + 1, tbl =>
    if !inData tbl then none
    else
      let e := s.pte (tbl + 8 * bits va (12 + 9 * (lvl + 1)) 9)
      if !eBit e 0 then none
      else if eBit e 1 then (if lvl = 2 || eBit e 9 then none else mkLeaf asid va (2 ^ (12 + 9 * (lvl + 1))) e)
      else if bits e 52 12 ≠ 0 then none
      else State.walkFrom s asid va lvl (eFrame e)

/-- A new walk for a partition; none is PAGE. -/
def State.walk (s : State) (part va : Nat) : Option Leaf :=
  if canonical va then s.walkFrom (s.asidOf part) va 3 (bits (s.part part).xroot.toNat 12 40 * 4096) else none

def Leaf.covers (l : Leaf) (asid va : Nat) : Bool :=
  l.asid == asid && decide (l.va ≤ va) && decide (va < l.va + l.size)

/-- The translations that the TLBs a core reaches hold for a partition: its own, and its cluster's (R455). -/
def State.tlbOf (s : State) (core part : Nat) : List Leaf :=
  ((s.core core).tlb ++ (s.clu (core / 8)).tlb).filter (fun l => l.asid == s.asidOf part)

/-- The translation an access uses: one that a TLB holds, or a new walk, where they differ which one being open (R456). -/
def State.xlate (s : State) (core part va : Nat) : Option Leaf :=
  let w := s.walk part va
  let old := (s.tlbOf core part).filter (fun l => l.covers (s.asidOf part) va && some l != w)
  if old.isEmpty then w
  else
    let k := Config.tlbChoice s.freeN va % (old.length + 1)
    if k = 0 then w else old[k - 1]?

/-- An entry enters a TLB of a size; the oldest makes room for it. -/
def fillTlb (n : Nat) (l : Leaf) (t : List Leaf) : List Leaf := if t.contains l then t else (l :: t).take n

/-- The translation of an access may stay held: one from a walk enters its core's TLB and its cluster's, one that the cluster's TLB
held enters the core's, and one that the core held, or that a pin holds, enters none (R455). -/
def State.fill (s : State) (core : Nat) (l : Leaf) : State :=
  if (s.core core).tlb.contains l then s
  else
    let s := if (s.clu (core / 8)).tlb.contains l then s
      else s.modClu (core / 8) (fun q => { q with tlb := fillTlb 4096 l q.tlb })
    s.modCore core (fun q => { q with tlb := fillTlb 128 l q.tlb })

/-- The permission of a leaf for an access (R452). -/
def Leaf.permits (l : Leaf) (k : Acc) : Bool :=
  match k with
  | .load => l.r
  | .store => l.w
  | .atomic => l.r && l.w
  | .exec => l.r && l.x

/-- A place of an access: its space and physical address, whether it is tagged, and the translation used. -/
structure Hit where
  sp : Space
  addr : Nat
  tagged : Bool
  leaf : Option Leaf
deriving DecidableEq, Repr

/-- The place a leaf gives an address, or PROT (R452, R454). -/
def Leaf.place (l : Leaf) (priv : Bool) (va : Nat) : Except Nat Hit :=
  let pa := l.pa + (va - l.va)
  if l.host then .ok ⟨.host, pa, false, some l⟩
  else
    match zoneOf pa with
    | .data _ _ => .ok ⟨.dram, pa, l.rc, some l⟩
    | .hole => .error cProt
    | _ => if priv then .ok ⟨.dram, pa, false, some l⟩ else .error cProt

/-- The pin of a context that covers an address with the permission, in its window (R138). -/
def Ctx.pinned (c : Ctx) (k : Acc) (va : Nat) : Option Pin :=
  c.pins.find? (fun p =>
    decide (0 < p.left) && decide (p.left ≤ 64) && decide (p.va ≤ va) && decide (va < p.va + p.size) &&
      (match k with | .load => true | .store => p.write | _ => false))

/-- The permission that a pin was made with (R138, R140). -/
def Pin.acc (p : Pin) : Acc := if p.write then .atomic else .load

/-- The place that a permitted leaf gives, or PROT. -/
def State.placed (s : State) (g : Nat) (k : Acc) (va : Nat) (l : Option Leaf) : Except Nat Hit :=
  match l with
  | none => .error cPage
  | some l => if l.permits k then l.place (s.ctx g).view.priv va else .error cProt

/-- One virtual address of a context: place, PAGE or PROT (R138, R449 to R456). A page whose pin an invalidation has released is
pinned anew by a new walk before the access, with the pin's permission (R458). -/
def State.reach (s : State) (g : Nat) (k : Acc) (va : Nat) : Except Nat Hit :=
  match (s.ctx g).pinned k va with
  | some p =>
    match p.leaf with
    | some l => (l.place (s.ctx g).view.priv va).map (fun h => { h with leaf := none })
    | none => s.placed g p.acc va (s.walk (s.partOf g) va)
  | none => s.placed g k va (s.xlate (coreOf g) (s.partOf g) va)

/-! ## Scratchpad addresses (R125 to R129) -/

/-- The region that contains an offset. -/
def State.regionAt (s : State) (cl off : Nat) : Option Region :=
  (s.clu cl).regions.find? (fun r => decide (r.off ≤ off) && decide (off < r.off + 2 ^ r.lsize))

/-- An address interpreted within a region (R128). -/
def wrapIn (base size : Nat) (a : Word) : Nat := base + (a - BitVec.ofNat 64 base).toNat % size

/-! ## Checking an access (R151, R254) -/

/-- The granules of a list of byte addresses, each once where they follow one another. -/
def granules : List Nat → List Nat
  | [] => []
  | a :: l =>
    match granules l with
    | b :: r => if a / 64 = b then b :: r else a / 64 :: b :: r
    | [] => [a / 64]

/-- The place of a granule. -/
def State.granPlace (s : State) (g : Nat) (k : Acc) (asp : ASpace) (gr : Nat) : Except Nat Hit :=
  match asp with
  | .mem => s.reach g k (gr * 64)
  | .sp c => .ok ⟨.sp c, gr * 64, true, none⟩

/-- The problem of a granule, first in the order PAGE, PROT, RACE, ECCU (R254); `bs` are the bytes touched in it and
`reads` says that poison matters. -/
def State.granProblem (s : State) (g : Nat) (cls : Cls) (reads : Bool) (gr : Nat) (bs : List Nat) :
    Except Nat Hit → Option Trap
  | .error c => some { cause := c, addr := BitVec.ofNat 64 (gr * 64) }
  | .ok h =>
    let t := s.tag h.sp (h.addr / 64)
    if h.tagged && badTag t then some { cause := cEccu, addr := BitVec.ofNat 64 (gr * 64) }
    else if h.tagged && (tagNext g (s.lgenOf g) cls t).isNone then
      some { cause := cRace, addr := BitVec.ofNat 64 (gr * 64), gst := BitVec.ofNat 3 (effSt (s.lgenOf g) t),
             gctx := BitVec.ofNat 10 (tagCtx t) }
    else if reads && bs.any (fun a => s.poisoned h.sp (h.addr + a % 64) && !s.ownWrote g h.sp (h.addr + a % 64)) then
      some { cause := cEccu, addr := BitVec.ofNat 64 (gr * 64) }
    else none

/-- An access resolved: each granule with its place. -/
abbrev Access := List (Nat × Hit)

/-- The trap of the lower address. -/
def lowerTrap (a b : Option Trap) : Option Trap :=
  match a, b with
  | none, b => b
  | a, none => a
  | some x, some y => if y.addr.ult x.addr then some y else some x

/-- Every byte of an access is checked before it has any effect (R151, R254); the lowest problem traps. -/
def State.check (s : State) (g : Nat) (k : Acc) (cls : Cls) (asp : ASpace) (as : List Nat) : Except Trap Access :=
  let grs := (granules as).eraseDups
  let rs := grs.map (fun gr => (gr, s.granPlace g k asp gr))
  let reads := match k with | .store => false | _ => true
  let bad := rs.foldl (fun (acc : Option Trap) p =>
    lowerTrap acc (s.granProblem g cls reads p.1 (as.filter (fun a => a / 64 == p.1)) p.2)) none
  match bad with
  | some t => .error t
  | none => .ok (rs.filterMap (fun p => match p.2 with | .ok h => some (p.1, h) | .error _ => none))

/-- The place of a byte of a checked access. -/
def Access.at (ac : Access) (a : Nat) : Space × Nat :=
  match Tab.find (a / 64) ac with
  | some h => (h.sp, h.addr + a % 64)
  | none => (.host, 0)

/-- The tags of a checked access change (R149), and its translations may stay held (R455). -/
def State.applyAccess (s : State) (g : Nat) (cls : Cls) (ac : Access) : State :=
  ac.foldl (fun s p =>
    let s := if p.2.tagged then s.touchTag g cls p.2.sp (p.2.addr / 64) else s
    match p.2.leaf with
    | some l => s.fill (coreOf g) l
    | none => s) s

/-- The context's own committed writes of a stream are performed before a later access of the stream (R168). -/
def State.inOrder (s : State) (g strm : Nat) : State := s.perform (fun w => w.gcid == g && w.strm == strm)

/-- The bytes of a checked access as the context reads them. -/
def State.readAccess (s : State) (g : Nat) (ac : Access) (as : List Nat) : List Byte :=
  as.map (fun a => s.ownByte g (ac.at a).1 (ac.at a).2)

/-- Consecutive addresses, modulo 2^64 (R8). -/
def consec (a : Word) (n : Nat) : List Nat := (List.range n).map (fun i => (a + BitVec.ofNat 64 i).toNat)
/-- Consecutive scratchpad offsets, wrapped within a region (R128). -/
def consecIn (base size : Nat) (a : Word) (n : Nat) : List Nat :=
  (List.range n).map (fun i => wrapIn base size (a + BitVec.ofNat 64 i))

/-- The address space and the bytes of an S-form access (R253); an error is REGRANGE. -/
def State.sAddrs (s : State) (sp : Bool) (base : Word) (off : BitVec 16) (n : Nat) : Except Nat (ASpace × List Nat) :=
  let a := base + off.signExtend 64
  if sp then
    match s.regionAt (clusterOf s.cur) base.toNat with
    | none => .error cRegrange
    | some r => .ok (.sp (clusterOf s.cur), consecIn r.off (2 ^ r.lsize) a n)
  else .ok (.mem, consec a n)

/-! ## Mantel (R130) -/

/-- A bank of the die's Mantel is assigned to a partition, and no error has removed it since it was last loaded (R130, R484). -/
def State.bankOk (s : State) (part die off : Nat) : Bool :=
  let b := off % 2 ^ 30 / 2 ^ 24
  (Tab.get 0 die (s.part part).wsmask).getLsbD b && !(s.die die).lost.getLsbD b

/-- Whether the bank of an offset is being refreshed (R131). -/
def State.refreshing (s : State) (die off : Nat) : Bool :=
  let b := off % 2 ^ 30 / 2 ^ 24
  let w := (s.die die).wsc.toNat
  decide (1024 * b ≤ w) && decide (w ≤ 1024 * b + 255)

/-- A read of a refreshing bank waits until the window ends and counts for the context (R131): the wait is not modelled as
time. -/
def State.refreshStall (s : State) (g die : Nat) (offs : List Nat) : State :=
  if offs.any (s.refreshing die) then s.modCtx g (fun c => { c with csr := { c.csr with wsstl := satInc c.csr.wsstl } }) else s

def State.mantelByte (s : State) (die off : Nat) : Byte := (s.die die).mantel.read (off % 2 ^ 30)

/-- Whether a byte of a Mantel is poisoned (R305). -/
def State.mantelBad (s : State) (die off : Nat) : Bool := (s.die die).mpois.contains (off % 2 ^ 30)

/-- What a read of a context's Mantel meets at its lowest granule with a problem: PROT of a bank, or ECCU of poisoned bytes (R130,
R254, R305). -/
def State.mantelTrap (s : State) (offs : List Nat) : Option Trap :=
  let ok := s.bankOk (s.partOf s.cur) (dieOf s.cur)
  match offs.filter (fun a => !ok a || s.mantelBad (dieOf s.cur) a) with
  | [] => none
  | b :: l =>
    let a := l.foldl min b
    some { cause := if ok a then cEccu else cProt, addr := BitVec.ofNat 64 (a / 64 * 64) }

/-! ## Physical accesses of engines: command streams and Gnosy (R408, R477) -/

/-- Virtual bytes of a partition, as a plain untagged access of system scope (R408): the places, or none on a translation
or permission fault. Engines use a new walk. -/
def State.enginePlaces (s : State) (part : Nat) (k : Acc) (as : List Nat) : Option (List (Space × Nat)) :=
  as.foldr (fun a acc =>
    match acc with
    | none => none
    | some l =>
      match s.walk part a with
      | none => none
      | some lf =>
        if lf.permits k then
          match lf.place false a with
          | .ok h => some ((h.sp, h.addr) :: l)
          | .error _ => none
        else none) (some [])

def State.engineRead (s : State) (part : Nat) (a n : Nat) : Option (List Byte) :=
  (s.enginePlaces part .load (consec (BitVec.ofNat 64 a) n)).map (fun ps => ps.map (fun p => s.memByte p.1 p.2))

/-- As `engineRead`, each byte with its poison. -/
def State.engineTake (s : State) (part : Nat) (a n : Nat) : Option (List (Byte × Bool)) :=
  (s.enginePlaces part .load (consec (BitVec.ofNat 64 a) n)).map (fun ps =>
    ps.map (fun p => (s.memByte p.1 p.2, s.poisoned p.1 p.2)))

def State.engineWrite (s : State) (part : Nat) (a : Nat) (bs : List Byte) : Option State :=
  (s.enginePlaces part .store (consec (BitVec.ofNat 64 a) bs.length)).map (fun ps =>
    (ps.zip bs).foldl (fun s p => s.setByte p.1.1 p.1.2 p.2) s)

end Sys2Proof.Machine
end

