-- ==== Sys2Proof/Machine/Fetch.lean ====
section
/-! DEFINITION. Fetching an instruction's bytes: code lines, pad bytes, and the bundle at a program counter (R187 to R189,
R427, R461). -/

namespace Sys2Proof.Machine

open Sys2Proof

/-- The trap of a fetch at an address (R427). -/
def fetchTrap (cause : Nat) (va : Word) : Trap := { cause := cause, addr := va, fetch := true }

/-- The held code line of an address (R461). -/
def State.heldLine (s : State) (g va : Nat) : Option Line :=
  (s.core (coreOf g)).icache.find? (fun l => l.asid == s.asidOf (s.partOf g) && l.va == va / 64 * 64)

/-- One of the values that a held byte has had, `b` being what memory holds now (R461). -/
def State.pickByte (s : State) (va : Nat) (b : Byte) (old : List Byte) : Byte :=
  match old.filter (fun a => a != b) with
  | [] => b
  | a :: l => (b :: a :: l).getD (Config.lineChoice s.freeN va % (l.length + 2)) b

/-- The bytes from an address to the end of its 64-byte line, each with its poison: those of memory, or, where a held line
has had others, any of them (R461). An error is the cause and address of a fetch fault. -/
def State.fetchLine (s : State) (g : Nat) (va : Word) : Except Trap (List (Byte × Bool)) :=
  match s.reach g .exec va.toNat with
  | .error c => .error (fetchTrap c va)
  | .ok h =>
    let held := s.heldLine g va.toNat
    .ok ((List.range (64 - va.toNat % 64)).map (fun i =>
      let b := s.memByte h.sp (h.addr + i)
      let b := match held with
        | some l => s.pickByte (va.toNat + i) b (l.vals.getD (va.toNat % 64 + i) [])
        | none => b
      (b, s.poisoned h.sp (h.addr + i))))

/-- Pad bytes skipped from `va`; `rest` is what is left of its line. The answer is the address of the header with the
bytes of its line from it on. A run of 4,096 pad bytes raises ILLENC (R189). -/
def State.skipPads (s : State) (g : Nat) : Nat → Word → List (Byte × Bool) → Except Trap (Word × List (Byte × Bool))
  | 0, _, _ => .error (trapOf cIllenc)
  | fuel + 1, va, rest =>
    match (if rest.isEmpty then s.fetchLine g va else .ok rest) with
    | .error t => .error t
    | .ok [] => .error (trapOf cIllenc)
    | .ok ((b, p) :: l) =>
      if p then .error (fetchTrap cEccu va)
      else if b = 0#8 then State.skipPads s g fuel (va + 1#64) l
      else .ok (va, (b, p) :: l)

/-- The bytes that the slots of a header take, by its bits and the L bits of the words of slots 0 and 1 (R187); none where
they pass the end of the line. -/
def slotsLen (hdr : Nat) : Nat → Nat → List Byte → Nat → Option Nat
  | 0, _, _, len => some len
  | fuel + 1, k, l, len =>
    if !flag hdr k then slotsLen hdr fuel (k + 1) l len
    else
      match takeWord (slotBytes k) l with
      | none => none
      | some (w, r) =>
        if k < 2 ∧ flag w 5 then
          match takeWord 4 r with
          | none => none
          | some (_, r') => slotsLen hdr fuel (k + 1) r' (len + slotBytes k + 4)
        else slotsLen hdr fuel (k + 1) r (len + slotBytes k)

/-- The length of the bundle whose bytes begin a list, by its header; none where it passes the end of its line. -/
def bundleLen : List Byte → Option Nat
  | [] => none
  | h :: r => slotsLen h.toNat 8 0 r 1

/-- The first poisoned byte of a bundle, or of the rest of its line where no length can be read, as a fetch fault (R427). -/
def poisonTrap (pc : Word) (l : List (Byte × Bool)) : Option Trap :=
  let n := (bundleLen (l.map (·.1))).getD 64
  ((enumFrom 0 (l.take n)).find? (fun p => p.2.2)).map (fun p => fetchTrap cEccu (pc + BitVec.ofNat 64 p.1))

/-- The bundle at or after an address (R187 to R189, R427): a trap carries the address that TSW1 takes. -/
def State.fetch (s : State) (g : Nat) (va : Word) : Except (Trap × Word) Fetched :=
  match s.skipPads g 4096 va [] with
  | .error t => .error (t, va)
  | .ok (pc, l) =>
    match poisonTrap pc l with
    | some t => .error (t, pc)
    | none =>
      match decodeBundle (l.map (·.1)) with
      | .error _ => .error (trapOf cIllenc, pc)
      | .ok (slots, len) => .ok ⟨pc, slots, len⟩

/-- The address and the length of the bundle at or after an address, which is passed over and not decoded: its length is
read (R187 to R189), its slots are not (R211, R232; log 37). -/
def State.fetchLen (s : State) (g : Nat) (va : Word) : Except (Trap × Word) (Word × Nat) :=
  match s.skipPads g 4096 va [] with
  | .error t => .error (t, va)
  | .ok (pc, l) =>
    match poisonTrap pc l with
    | some t => .error (t, pc)
    | none =>
      match bundleLen (l.map (·.1)) with
      | none => .error (trapOf cIllenc, pc)
      | some len => .ok (pc, len)

/-- The address of the next bundle in sequence: after any pad bytes (R188). Where those bytes cannot be fetched, the
address stands before them. -/
def State.nextSeq (s : State) (g : Nat) (va : Word) : Word :=
  match s.skipPads g 4096 va [] with
  | .ok (pc, _) => pc
  | .error _ => va

/-- A value that a byte has now. -/
def noteByte (old : List Byte) (b : Byte) : List Byte := if old.contains b then old else b :: old

/-- A fetch leaves its line and its translation held; a line held already keeps the values that it has had (R455, R461). -/
def State.holdLine (s : State) (g : Nat) (va : Word) : State :=
  match s.reach g .exec va.toNat with
  | .error _ => s
  | .ok h =>
    let a := va.toNat / 64 * 64
    let p := h.addr - va.toNat % 64
    let id := s.asidOf (s.partOf g)
    let s := match h.leaf with
      | some l => s.fill (coreOf g) l
      | none => s
    let had : List (List Byte) := match s.heldLine g va.toNat with
      | some l => l.vals
      | none => []
    let vals := (List.range 64).map (fun i => noteByte (had.getD i []) (s.memByte h.sp (p + i)))
    s.modCore (coreOf g) (fun q =>
      { q with icache := ⟨id, a, h.sp, p, vals⟩ :: q.icache.filter (fun l => !(l.asid == id && l.va == a)) })

/-- Every value that the bytes of a held line now have in memory, or will have from a committed write (R461). -/
def State.noteLine (s : State) (l : Line) : Line :=
  let new (i : Nat) : List Byte :=
    s.memByte l.sp (l.addr + i) :: s.wbuf.filterMap (fun w =>
      if w.sp = l.sp ∧ w.addr ≤ l.addr + i then w.bytes[l.addr + i - w.addr]? else none)
  { l with vals := (enumFrom 0 l.vals).map (fun p => (new p.1).foldl noteByte p.2) }

/-- The held lines take note of what has been written to their bytes since a state before; where memory and the committed writes are as
they were, nothing has (R461). -/
def State.noteLines (s old : State) : State :=
  if s.wbuf = old.wbuf ∧ s.dram = old.dram ∧ s.host = old.host then s
  else { s with cores := mapVals (fun _ q => if q.icache.isEmpty then q else { q with icache := q.icache.map s.noteLine }) s.cores }

end Sys2Proof.Machine
end

