-- ==== Sys2Proof/Machine/Sync.lean ====
section
/-! DEFINITION. What a context waits for: its copies, its writes, barriers and their Damper (R21, R159 to R167, R240 to
R242), generations (R163), and request slots (R247). -/

namespace Sys2Proof.Machine

open Sys2Proof

/-! ## Copies of a context -/

/-- The copies of one channel of a core. -/
def State.chan (s : State) (core ch : Nat) : Chan := Tab.get Chan.reset ch (s.core core).ch

/-- Every unretired copy that a context started. -/
def State.copiesOf (s : State) (g : Nat) : List Copy :=
  ((List.range 4).flatMap (fun ch => (s.chan (coreOf g) ch).copies)).filter (fun c => c.gcid == g)

/-! ## Launch positions -/

/-- The position of a context in its launch: virtual cluster, core and context number (R240). -/
def State.pos (s : State) (g : Nat) : Nat := s.lcid g

/-- The GCID of a position of a launch. -/
def Launch.gcidAt (l : Launch) (pos : Nat) : Nat := Tab.get 0 (pos / 32) l.map * 32 + pos % 32

def Desc.pos (d : Desc) : Nat := d.vcl * 32 + d.core * 4 + d.ctx

/-- The physical cluster of a virtual cluster. -/
def Launch.phys (l : Launch) (v : Nat) : Nat := Tab.get 0 v l.map

/-- The lowest virtual cluster on the die of virtual cluster `v`: the name of its die group (R240, R445). -/
def Launch.groupOf (l : Launch) (v : Nat) : Nat :=
  ((List.range l.nvcl).find? (fun w => l.phys w / 8 == l.phys v / 8)).getD v

/-- A barrier's key for an issuer at a position (R240). -/
def Launch.barKey (l : Launch) (sc : BScope) (bn pos : Nat) : BarKey :=
  match sc with
  | .cluster => ⟨sc, pos / 32, bn⟩
  | .die => ⟨sc, l.groupOf (pos / 32), bn⟩
  | .launch => ⟨sc, 0, 0⟩

/-- Whether a virtual cluster belongs to a barrier's unit. -/
def Launch.inUnit (l : Launch) (k : BarKey) (v : Nat) : Bool :=
  match k.scope with
  | .cluster => v == k.unit
  | .die => l.groupOf v == k.unit
  | .launch => true

/-- The participants of a barrier, in descriptor order (R240). -/
def Launch.participants (l : Launch) (k : BarKey) : List Nat :=
  (l.descs.filter (fun d => l.inUnit k d.vcl)).map Desc.pos

def Bar.reset : Bar := ⟨0, [], [], [], 0, []⟩

def Launch.bar (l : Launch) (k : BarKey) : Bar :=
  match l.bars.find? (fun p => p.1 == k) with
  | some p => p.2
  | none => Bar.reset

def Launch.setBar (l : Launch) (k : BarKey) (b : Bar) : Launch :=
  { l with bars := (k, b) :: l.bars.filter (fun p => p.1 != k) }

/-- An arrival counted (R241): none is a third arrival. The answer holds the episode it counts toward. -/
def Bar.arrive (b : Bar) (pos : Nat) : Option (Bar × Nat) :=
  if !b.arr.contains pos then some ({ b with arr := b.arr ++ [pos], last := Tab.put pos b.ep b.last }, b.ep)
  else if !b.arrNext.contains pos then
    some ({ b with arrNext := b.arrNext ++ [pos], last := Tab.put pos (b.ep + 1) b.last }, b.ep + 1)
  else none

/-- Whether a release of episode `ep` still stands out for a position in cycle `now`: a waiter until it is released, any
other participant until its release cycle (R166, R242). -/
def Bar.holds (b : Bar) (now pos ep : Nat) : Bool :=
  decide (b.ep ≤ ep) || b.rels.any (fun r => r.gcid == pos && r.ep == ep && (r.waiter || decide (now < r.cycle)))

/-- Whether a BARW of a position blocks: the latest episode it arrived in is not released to it (R242). -/
def Bar.blocksW (b : Bar) (now pos : Nat) : Option Nat :=
  match Tab.find pos b.last with
  | none => none
  | some ep => if b.holds now pos ep then some ep else none

/-! ## Generations and completion (R156, R161 to R163) -/

/-- The partition that holds a cluster. -/
def State.partOfCluster (s : State) (c : Nat) : Option Nat := (List.range 8).find? (fun p => (s.part p).clmask.getLsbD c)

/-- The carve-out address of a DRAM granule's tag (R463). -/
def tagAddr (gr : Nat) : Nat :=
  match zoneOf (gr * 64) with
  | .data d o => dieBase d + dieData + 4 * (o / 64)
  | _ => 0

/-- The sweeper at one tag: a stale tag becomes FREE, a bad one is reported to the device log (R465). -/
def State.sweep (s : State) (sp : Space) (gr die at' : Nat) : State :=
  let t := s.tag sp gr
  if badTag t then s.offer ⟨5, none, die, none, 0, BitVec.ofNat 256 (at' + t.toNat * 2 ^ 64)⟩
  else if tagSt t = 0 then s
  else
    match s.partOfCluster (clusterOf (tagCtx t)) with
    | none => s
    | some p => if tagGen t = (s.part p).lgen then s else s.setTag sp gr 0#32

/-- A pass of the sweepers of every die and of every cluster of a partition: each tag is visited once (R465). -/
def State.sweepPass (s : State) (p : Nat) : State :=
  let s := (s.dtags.map (·.1)).foldl (fun s gr =>
    match zoneOf (gr * 64) with
    | .data d _ => s.sweep .dram gr d (tagAddr gr)
    | _ => s) s
  (List.range 32).foldl (fun s c =>
    if (s.part p).clmask.getLsbD c then
      ((s.clu c).tags.map (·.1)).foldl (fun s gr => s.sweep (.sp c) gr (c / 8) (gr * 64)) s
    else s) s

/-- LGEN of a partition rises: every write committed in the partition is performed first, the pass of the sweepers that the
increment waits for ends, release records retire and owned-range lists are cleared (R156, R159, R163, R465). -/
def State.bumpLgen (s : State) (p : Nat) : State :=
  let mine (g : Nat) : Bool := (s.part p).clmask.getLsbD (clusterOf g)
  let s := (s.perform (fun w => mine w.gcid)).sweepPass p
  let s := s.modPart p (fun q => { q with lgen := (q.lgen + 1) % 64 })
  { s with ctxs := mapVals (fun g (c : Ctx) => if mine g then { c with recs := [], owned := [] } else c) s.ctxs }

/-- The granules of a list of ranges whose tags name a participant become FREE (R161). -/
def State.freeOwned (s : State) (lgen : Nat) (gs : List Nat) (rs : List GRange) : State :=
  let hit (sp : Space) (gr : Nat) (t : BitVec 32) : Bool :=
    rs.any (fun r => r.sp == sp && decide (r.lo ≤ gr) && decide (gr < r.hi)) && gs.contains (tagCtx t) &&
      (match effSt lgen t with | 1 => true | 3 => true | 4 => true | 5 => true | _ => false)
  let free (sp : Space) (l : Tab (BitVec 32)) : Tab (BitVec 32) :=
    l.map (fun q => if hit sp q.1 q.2 then (q.1, 0#32) else q)
  { s with dtags := free .dram s.dtags, 
           clus := mapVals (fun c (q : Cluster) => { q with tags := free (.sp c) q.tags }) s.clus }

/-- Whether an episode is complete: every participant has arrived or is HALTED (R241, R244). -/
def State.barDone (s : State) (l : Launch) (k : BarKey) : Bool :=
  let b := l.bar k
  let ps := l.participants k
  !ps.isEmpty && ps.all (fun p => b.arr.contains p || (s.ctx (l.gcidAt p)).st == .halted) &&
    ps.any (fun p => b.arr.contains p)

/-- The release phase of a context's core (R165). -/
def State.phaseOf (s : State) (g : Nat) : Nat :=
  let j := coreOf g % 64
  bits (Tab.get 0 (j / 16) (s.die (dieOf g)).dmpph).toNat (4 * (j % 16)) 3

def State.gapOf (s : State) (die f : Nat) : Nat := bits (s.die die).dmpgap.toNat (8 * f) 8

/-- Whether a context waits in BARW or BAR for an episode of a barrier (R166); one whose BAR has arrived waits from then on,
though only its next bundle blocks (log 15). -/
def Ctx.waitsFor (c : Ctx) (k : BarKey) (ep : Nat) : Bool :=
  c.barWait == some (k, ep) && c.st != .trapped && c.st != .halted && c.st != .empty

/-- An episode completes: tags change under R161 or LGEN rises under R162, the participants' writes being performed first, those after a
BARA among them, for their granules are open to others from then on (R145, R150); lists are cleared, and the releases of the
Damper are set out from the completion cycle, after the window of the episode before, on every
die alike (R161 to R167; logs 47 and 48). -/
def State.completeBar (s : State) (n : Nat) (l : Launch) (k : BarKey) : State :=
  let b := l.bar k
  let ps := l.participants k
  let gs := ps.map l.gcidAt
  let s :=
    if k.scope = .launch then s.bumpLgen l.part
    else
      let s := gs.foldl State.performAll s
      let s := s.freeOwned (s.part l.part).lgen gs (gs.flatMap (fun g => (s.ctx g).owned))
      gs.foldl (fun s g => s.modCtx g (fun c => { c with owned := [] })) s
  let t0 := max s.cycle b.window
  let waiter (g : Nat) : Bool := (s.ctx g).waitsFor k b.ep
  let phases (d : Nat) : List Nat :=
    (List.range 8).filter (fun f => gs.any (fun g => dieOf g == d && waiter g && s.phaseOf g == f))
  let sum (d : Nat) (fs : List Nat) : Nat := fs.foldl (fun a f => a + s.gapOf d f) 0
  let rels := (ps.filter (fun p => b.arr.contains p)).map (fun p =>
    let g := l.gcidAt p
    let f := s.phaseOf g
    (⟨p, b.ep, f, t0 + sum (dieOf g) ((phases (dieOf g)).filter (fun h => decide (h < f))), waiter g⟩ : Rel))
  let w := (List.range 4).foldl (fun a d => max a (sum d (phases d))) 0
  s.setLaunch n (l.setBar k { b with ep := b.ep + 1, arr := b.arrNext, arrNext := [], rels := b.rels ++ rels,
                                     window := t0 + w })

/-! ## Request slots (R247) -/

def ReqSlot.reset : ReqSlot := ⟨false, 0⟩
def Launch.slot (l : Launch) (n : Nat) : ReqSlot := Tab.get ReqSlot.reset n l.req
/-- OCC (R247). -/
def Launch.occ (l : Launch) : Nat := (l.req.filter (fun p => p.2.act)).length

end Sys2Proof.Machine
end

