-- ==== Sys2Proof/Machine/Ranges.lean ====
section
/-! DEFINITION. The nests of copies, the places of their two sides, the range scoreboard, and waiting for copies (R21, R136,
R137, R276, R277). -/

namespace Sys2Proof.Machine

open Sys2Proof

/-! ## Nests (R276) -/

def prod (l : List Nat) : Nat := l.foldl (· * ·) 1

/-- N(G): the number of elements of a nest. -/
def Gen.total (g : Gen) : Nat := prod ((List.range g.dims).map g.count)

/-- The index of element `n` in dimension `d`, in the order of R118. -/
def Gen.kd (g : Gen) (n d : Nat) : Nat := n / prod ((List.range d).map g.count) % g.count d

/-- The address of element `n`. -/
def Gen.elemAddr (g : Gen) (n : Nat) : Word :=
  (List.range g.dims).foldl (fun a d => a + BitVec.ofNat 64 (g.kd n d) * (g.dim d).stp.signExtend 64) g.origin

/-- Whether element `n` is outside the edge. -/
def Gen.elemOut (g : Gen) (n : Nat) : Bool :=
  g.edge && (List.range g.dims).any (fun d =>
    (g.dim d).bnd != 0#32 && decide ((g.dim d).bnd.toNat ≤ (g.dim d).idx.toNat + g.kd n d))

/-- How many indices of a dimension lie inside the edge. -/
def Gen.inside (g : Gen) (d : Nat) : Nat :=
  if g.edge && (g.dim d).bnd != 0#32 then min (g.count d) ((g.dim d).bnd.toNat - (g.dim d).idx.toNat) else g.count d

/-- The displacement of `i` strides of dimension 5 (R282, R284). -/
def Gen.stride5 (g : Gen) (i : Int) : Word := BitVec.ofInt 64 i * g.d5.stp.signExtend 64

/-! ## Sides (R277) -/

/-- An address on a side: virtual, wrapped in the region, or modulo the Mantel. -/
def Side.at (sd : Side) (a : Word) : Nat :=
  match sd with
  | .mem => a.toNat
  | .sp _ base size => wrapIn base size a
  | .mantel _ => a.toNat % 2 ^ 30

def Side.asp : Side → Option ASpace
  | .mem => some .mem
  | .sp c _ _ => some (.sp c)
  | .mantel _ => none

/-! ## Ranges (R136) -/

def Rg.meets (a b : Rg) : Bool := a.asp == b.asp && decide (a.lo < b.hi) && decide (b.lo < a.hi)

/-- The whole of a side within its region. -/
def Side.whole (sd : Side) : List Rg :=
  match sd with
  | .mem => [⟨.mem, 0, 2 ^ 64⟩]
  | .sp c base size => [⟨.sp c, base, base + size⟩]
  | .mantel _ => []

/-- The whole space that a side lies in: a scratchpad of 16 MiB, or virtual memory (R125, R136, R277). -/
def Side.space (sd : Side) : List Rg :=
  match sd with
  | .sp c _ _ => [⟨.sp c, 0, 2 ^ 24⟩]
  | sd => sd.whole

/-- The span of `len` bytes from an address; all of the side where it wraps. -/
def Side.span (sd : Side) (a : Word) (len : Nat) : List Rg :=
  if len = 0 then []
  else
    match sd with
    | .mem => if a.toNat + len ≤ 2 ^ 64 then [⟨.mem, a.toNat, a.toNat + len⟩] else sd.whole
    | .sp c base size =>
      let lo := wrapIn base size a
      if lo + len ≤ base + size then [⟨.sp c, lo, lo + len⟩] else sd.whole
    | .mantel _ => []

/-- The span of the elements of a nest that lie inside the edge, each of `n` bytes. -/
def Gen.box (g : Gen) (sd : Side) (n : Nat) : List Rg :=
  if (List.range g.dims).any (fun d => g.inside d == 0) then []
  else
    let ext (d : Nat) : Int := ((g.inside d - 1 : Nat) : Int) * (g.dim d).stp.toInt
    let down := (List.range g.dims).foldl (fun a d => a + (-(min (ext d) 0)).toNat) 0
    let up := (List.range g.dims).foldl (fun a d => a + (max (ext d) 0).toNat) 0
    sd.span (g.origin - BitVec.ofNat 64 down) (down + up + n)

/-- The element size of a copy in bytes. -/
def eszOf (op : Instr) : Nat :=
  match op with
  | .cpy f | .cpyxPack f | .cpyxUnpack f | .cpyf f => 2 ^ f.esz.val
  | .cpyg f => 2 ^ f.cp.esz.val
  | .cpys f | .cpyd f => 2 ^ f.cp.esz.val
  | .cpyr f => 2 ^ f.cp.esz.val
  | .coll f => 2 ^ f.cp.esz.val
  | .cpfill f => 2 ^ f.esz.val
  | _ => 1

/-- The largest SBC stream of `n` elements (R285). -/
def sbcMax (n esz : Nat) : Nat := 8 * ((n + 63) / 64) + n * esz

/-- The destination ranges of a copy; CPYS writes where its list says, CPYD also its table and its records (R136, R289,
R290). -/
def Copy.dstRgs (c : Copy) : List Rg :=
  let e := eszOf c.op
  match c.op with
  | .cpyxPack _ => c.dside.span c.gd.origin (sbcMax c.gs.total e)
  | .cpys _ => c.dside.whole
  | .cpyd _ =>
    c.gd.box c.dside 8 ++ c.gx.box c.xside 32 ++
      (match c.grp with
        | off :: _ => [⟨.sp (clusterOf c.gcid), off, off + 8 * (c.gs.total / 512)⟩]
        | [] => [])
  | .cpmark _ => []
  | _ => c.gd.box c.dside e

/-- The source ranges of a copy; the whole source space for one whose addresses come from a list (R136). -/
def Copy.srcRgs (c : Copy) : List Rg :=
  let e := eszOf c.op
  match c.op with
  | .cpyxUnpack _ => c.sside.span c.gs.origin (sbcMax c.gd.total e)
  | .cpyg _ | .cpys _ => c.sside.space ++ c.gx.box c.xside 4
  | .cpmark _ | .cpfill _ => []
  | _ => c.gs.box c.sside e

def meet (a b : List Rg) : Bool := a.any (fun x => b.any x.meets)

/-! ## The range scoreboard (R136, R137) -/

/-- One span for each space, from the lowest to the highest address of a list of ranges. -/
def hull (l : List Rg) : List Rg :=
  l.foldl (fun acc r =>
    if acc.any (fun q => q.asp == r.asp) then
      acc.map (fun q => if q.asp = r.asp then ⟨q.asp, min q.lo r.lo, max q.hi r.hi⟩ else q)
    else acc ++ [r]) []

/-- Two ranges of one context as one that covers both (R136). -/
def BoardEntry.merge (a b : BoardEntry) : BoardEntry :=
  ⟨a.gcid, a.dst || b.dst, a.src || b.src, hull (a.rgs ++ b.rgs), a.seqs ++ b.seqs⟩

/-- The first two ranges of one context merged, of one kind where there are two of one (R136; log 40). -/
def mergePair (same : BoardEntry → BoardEntry → Bool) : List BoardEntry → Option (List BoardEntry)
  | [] => none
  | a :: l =>
    match l.find? (same a) with
    | some b => some (a.merge b :: l.erase b)
    | none => (mergePair same l).map (fun r => a :: r)

/-- A range enters the scoreboard; a 33rd merges two (R136). -/
def recordRange (e : BoardEntry) (l : List BoardEntry) : List BoardEntry :=
  let l := if e.rgs.isEmpty then l else l ++ [e]
  if l.length ≤ 32 then l
  else
    let one (a b : BoardEntry) : Bool := a.gcid == b.gcid
    ((mergePair (fun a b => one a b && a.dst == b.dst && a.src == b.src) l <|> mergePair one l)).getD l

/-- The ranges of a copy enter its core's scoreboard as it starts (R136, R275). -/
def State.recordCopy (s : State) (c : Copy) : State :=
  s.modCore (coreOf c.gcid) (fun q =>
    let b := recordRange ⟨c.gcid, true, false, c.dstRgs, [c.seq]⟩ q.board
    { q with board := recordRange ⟨c.gcid, false, true, c.srcRgs, [c.seq]⟩ b })

/-- A copy retires from the scoreboard: a range goes with the last copy that it covers (R136). -/
def State.unrecord (s : State) (c : Copy) : State :=
  s.modCore (coreOf c.gcid) (fun q =>
    let l := q.board.map (fun b => if b.gcid = c.gcid then { b with seqs := b.seqs.erase c.seq } else b)
    { q with board := l.filter (fun b => !b.seqs.isEmpty) })

/-- Whether a range holds a later copy of its context back (R137). -/
def BoardEntry.holdsCopy (b : BoardEntry) (c : Copy) : Bool :=
  b.gcid == c.gcid && ((b.dst && (meet c.dstRgs b.rgs || meet c.srcRgs b.rgs)) || (b.src && meet c.dstRgs b.rgs))

/-- Whether an earlier copy of the same context holds a copy back (R137). -/
def State.copyWaits (s : State) (c : Copy) : Bool :=
  (s.core (coreOf c.gcid)).board.any (fun b => b.holdsCopy c && b.seqs.any (fun q => decide (q < c.seq)))

/-- Whether an access of a context to these bytes waits for one of its copies: a store also for a source range (R137). -/
def State.rangeWait (s : State) (g : Nat) (store : Bool) (asp : ASpace) (as : List Nat) : Bool :=
  (s.core (coreOf g)).board.any (fun b => b.gcid == g && (b.dst || (store && b.src)) && b.rgs.any (fun r =>
    r.asp == asp && as.any (fun a => decide (r.lo ≤ a) && decide (a < r.hi))))

/-! ## Waiting for copies (R21) -/

/-- The copies of a core that `base` names, those behind them in their channels, and those that wait under R137 for one of
`st`. -/
def State.stuckStep (s : State) (core : Nat) (base : Copy → Bool) (st : List (Nat × Nat)) : List (Nat × Nat) :=
  (List.range 4).flatMap (fun ch =>
    ((s.chan core ch).copies.foldl (fun (acc : List (Nat × Nat) × Bool) c =>
      let bad := acc.2 || base c || (s.core core).board.any (fun b => b.holdsCopy c && b.seqs.any (fun q =>
        decide (q < c.seq) && st.contains (c.gcid, q)))
      (if bad then acc.1 ++ [(c.gcid, c.seq)] else acc.1, bad)) ([], false)).1)

/-- The copies of a core that cannot go on before those that `base` names (R135, R137): at most 64 stand in its channels. -/
def State.dependent (s : State) (core : Nat) (base : Copy → Bool) : List (Nat × Nat) :=
  (List.range 64).foldl (fun st _ => s.stuckStep core base st) []

/-- The copies of a core that depend on a stopped one (R21). -/
def State.stuckCopies (s : State) (core : Nat) : List (Nat × Nat) := s.dependent core (fun c => c.stop.isSome)

/-- Whether a copy that a context waits for depends on a stopped one (R21). -/
def State.stuckOnStop (s : State) (g : Nat) (want : Copy → Bool) : Bool :=
  let st := s.stuckCopies (coreOf g)
  (s.copiesOf g).any (fun c => want c && st.contains (c.gcid, c.seq))

/-- The wait of a commit point for a context's writes and the copies that `want` names: every committed write that `strm`
names is performed; the context is BLOCKED while a stopped copy holds the wait (R21). The second answer says that it goes
on. -/
def waitCopies (strm : Nat → Bool) (want : Copy → Bool) (s : State) : State × Bool :=
  let s := s.perform (fun w => w.gcid == s.cur && strm w.strm)
  if (s.copiesOf s.cur).any want then
    (if s.stuckOnStop s.cur want then s.block s.cur else s, true)
  else (s, false)

end Sys2Proof.Machine
end

