-- ==== Sys2Proof/Machine/Control.lean ====
section
/-! DEFINITION. S0 and S1: control and status registers, control transfers, loops, rotation, allotment, barriers, waits,
YIELD, HALT, TRAP, schedule selection and request slots (R226 to R248). -/

namespace Sys2Proof.Machine

open Sys2Proof

/-! ## Control and status registers (R226 to R229) -/

def boolBit (b : Bool) (n : Nat) : Nat := if b then 2 ^ n else 0

/-- MODE (R227, R435). -/
def Csrs.modeWord (c : Csrs) : Word :=
  BitVec.ofNat 64 (c.pri.toNat + boolBit c.strict 2 + boolBit c.priv 8 + boolBit c.hdl 9)

/-- HCTX (R227). -/
def Csrs.hctxWord (c : Csrs) : Word := BitVec.ofNat 64 (c.hctxC.toNat + boolBit c.hctxV 8)

/-- The value of a CSR in a set of CSRs; the registers that live elsewhere are read from the state (R226, R50, R51). -/
def State.csrIn (s : State) (v : Csrs) : CsrName → Word
  | .bix => BitVec.ofNat 64 s.me.idx
  | .cyc => s.me.cyc
  | .mode => v.modeWord
  | .vallot => BitVec.ofNat 64 v.vallot
  | .rbase => v.rbase
  | .ldepth => v.ldepth
  | .rpos => BitVec.ofNat 64 v.rpos
  | .nstat => v.nstat.setWidth 64
  | .cstat => v.cstat.setWidth 64
  | .mqdst => v.mqdst.setWidth 64
  | .guard => (s.me.b ||| 1#8).setWidth 64
  | .lse => v.lse.signExtend 64
  | .srseed => v.srseed
  | .srctr => v.srctr
  | .epscl => v.epscl.setWidth 64
  | .epclp => v.epclp
  | .bimlim => v.bimlim.setWidth 64
  | .occ =>
    match s.launchOn (coreOf s.cur) with
    | some (_, l) => BitVec.ofNat 64 l.occ
    | none => 0
  | .dlen => v.dlen.setWidth 64
  | .lpass => v.lpass
  | .gcid => BitVec.ofNat 64 s.cur
  | .lcid => BitVec.ofNat 64 (s.lcid s.cur)
  | .codebase =>
    match s.launchOn (coreOf s.cur) with
    | some (_, l) => l.codebase
    | none => 0
  | .wsstl => v.wsstl
  | .chstl n => Tab.get 0 n.val v.chstl
  | .mbser => v.mbser
  | .bkt n => Tab.get 0 n.val v.bkt
  | .hctx => v.hctxWord
  | .tsw n =>
    let h := s.ctx (coreOf s.cur * 4 + v.hctxC.toNat)
    match n.val with
    | 0 => h.tsw0 | 1 => h.tsw1 | 2 => h.tsw2 | _ => h.tsw3

/-- The CSRs that need privilege (R226). -/
def csrPriv : CsrName → Bool
  | .hctx => true
  | .tsw _ => true
  | _ => false

/-- The RW and the W1C bits of a CSR (R76, R95, R104, R226, R227, R436). -/
def csrMask : CsrName → Word × Word
  | .mode => (0x3#64, 0)
  | .rbase => (0x87FF07FF#64, 0)
  | .ldepth => (0x7FF#64, 0)
  | .nstat => (0, 0x3F#64)
  | .cstat => (0, 0x7#64)
  | .mqdst => (0xFFF#64, 0)
  | .guard => (0xFE#64, 0)
  | .srseed | .srctr | .epclp | .wsstl | .chstl _ | .mbser => (BitVec.allOnes 64, 0)
  | .epscl => (0xFFFFFFFF#64, 0)
  | .dlen => (0xFF#64, 0)
  | .bkt _ => (0xFFFFFFFF01FF01FF#64, 0)
  | .hctx => (0x103#64, 0)
  | _ => (0, 0)

/-- The result that a slot of this bundle already wrote to SRSEED or SRCTR, if any (R68). -/
def Ctx.wroteSr (c : Ctx) (ctr : Bool) : Option Word :=
  (c.pend.reverse.find? (fun p => p.src == c.idx && decide (p.due = c.idx + 1) && (match p.res with
    | .srseed _ => !ctr
    | .srctr _ => ctr
    | _ => false))).bind (fun p => match p.res with
    | .srseed v => some v
    | .srctr v => some v
    | _ => none)

/-- The value a CSR write changes: what earlier slots of the bundle left (R229). -/
def State.csrLive (s : State) (n : CsrName) : Word :=
  match n with
  | .srseed => (s.me.wroteSr false).getD s.me.csr.srseed
  | .srctr => (s.me.wroteSr true).getD s.me.csr.srctr
  | n => s.csrIn s.me.csr n

/-- Whether RBASE and LDEPTH values go together (R105). -/
def rotOk (rbase ldepth : Word) : Bool :=
  let sz := bits rbase.toNat 16 11
  decide (sz % 8 = 0) && decide (bits rbase.toNat 0 11 + sz ≤ 1536) && decide (ldepth.toNat % 2048 ≤ sz)

/-- A CSR takes a value at commit; RBASE also resets the rotation (R105, R106, R229). -/
def State.csrSet (s : State) (n : CsrName) (v : Word) : SlotR :=
  match n with
  | .rbase =>
    if rotOk v s.me.csr.ldepth then
      .ok (s.modMe (fun c => { c with csr := { c.csr with rbase := v, rpos := 0 }, rbNew := true }))
    else .trap (trapOf cIllop)
  | .ldepth =>
    if rotOk s.me.csr.rbase v then .ok (s.modCsr (fun c => { c with ldepth := v })) else .trap (trapOf cIllop)
  | .guard => .ok (s.resultNext (.guards (v.setWidth 8)))
  | .srseed => .ok (s.resultNext (.srseed v))
  | .srctr => .ok (s.resultNext (.srctr v))
  | .mode | .nstat | .cstat | .mqdst | .epscl | .epclp | .dlen | .wsstl | .chstl _ | .mbser | .bkt _ | .hctx =>
    .ok (s.modCsr (fun c => c.put n v))
  | _ => .trap (trapOf cIllop)

/-- A writing CSR instruction: PRIV, ILLOP, the old value to D, the write at commit (R226, R228). -/
def csrOp (f : FX) (s : State) (op : (rw w1c old a : Word) → Word) : Out :=
  runSlot s f.c f.lit [f.a] (dIsQ f.d) (dcnt f.d) (fun s vs =>
    chk (!csrPriv f.csr || s.me.view.priv) cPriv (
    let m := csrMask f.csr
    chk (m.1 != 0#64 || m.2 != 0#64) cIllop (
    let seen := s.csrIn s.me.view f.csr
    match s.csrSet f.csr (op m.1 m.2 (s.csrLive f.csr) (vs.getD 0 0)) with
    | .ok s => s.dst .alu f.d seen
    | r => r)))

/-- CSRR (R228). -/
def execCsrr (f : FXr) (s : State) : Out :=
  runSlot s f.c none [] (dIsQ f.d) (dcnt f.d) (fun s _ =>
    chk (!csrPriv f.csr || s.me.view.priv) cPriv (s.dst .alu f.d (s.csrIn s.me.view f.csr)))
def execCsrw (f : FX) (s : State) : Out :=
  csrOp f s (fun rw w1c old a => (a &&& rw) ||| (old &&& ~~~a &&& w1c))
def execCsrs (f : FX) (s : State) : Out :=
  csrOp f s (fun rw w1c old a => ((old ||| a) &&& rw) ||| (old &&& w1c))
def execCsrc (f : FX) (s : State) : Out :=
  csrOp f s (fun rw w1c old a => old &&& ~~~a &&& (rw ||| w1c))

/-! ## Control transfers (R230, R234) -/

/-- A transfer: the next bundle is the one at the target; inside a loop body it raises ILLOP (R234). -/
def jumpTo (s : State) (target : Word) : SlotR :=
  chk s.me.nest.isNone cIllop (.ok (s.modMe (fun c => { c with npc := target })))

def execBr (f : FJ) (s : State) : Out :=
  runSlot s f.c none [] false (0, 0) (fun s _ => jumpTo s (s.me.pc + f.off.signExtend 64))

def execBrc (f : FK) (s : State) : Out :=
  runSlot s f.c (some f.off) [f.a] false (0, 0) (fun s vs =>
    if bcondHolds f.cond (vs.getD 0 0) then jumpTo s (s.me.pc + f.off.signExtend 64)
    else chk s.me.nest.isNone cIllop (.ok s))

def execBrx (f : FRa) (s : State) : Out :=
  runSlot s f.c f.lit [f.a] false (0, 0) (fun s vs => jumpTo s (vs.getD 0 0))

/-- CALL: D takes the address of the next bundle in sequence (R188, R230). -/
def execCall (f : FJd) (s : State) : Out :=
  runSlot s f.c none [] (dIsQ f.d) (dcnt f.d) (fun s _ =>
    match jumpTo s (s.me.pc + f.off.signExtend 64) with
    | .ok t => t.dst .alu f.d (s.nextSeq s.cur s.me.npc)
    | r => r)

def execRet (f : FRa) (s : State) : Out :=
  runSlot s f.c f.lit [f.a] false (0, 0) (fun s vs => jumpTo s (vs.getD 0 0))

/-! ## Loops and rotation (R232 to R238) -/

/-- The product of the counts of a nest. -/
def nestPasses (s : State) : LoopCnt → Nat
  | .lit v => v.toNat
  | .regs sa nd =>
    ((List.range (nd.val + 1)).map (fun d =>
      (if sa.val + d = 0 then 0#64 else Tab.get 0 (sa.val + d) s.me.x).toNat % 2 ^ 32)).foldl (· * ·) 1

/-- LOOP: the body is the BL + 1 bundles after this one; no pass skips it (R232, R234). -/
def execLoop (f : FP) (s : State) : Out :=
  runSlot s f.c none [] false (0, 0) (fun s _ =>
    let p := nestPasses s f.cnt
    chk (s.me.nest.isNone && s.me.view.lpass == 0#64 && decide (p < 2 ^ 64)) cIllop (.ok (s.modMe (fun c =>
      if p = 0 then { c with skip := f.bl.val + 1 }
      else { c with nest := some ⟨c.npc, f.bl.val, 0, [], []⟩, csr := { c.csr with lpass := BitVec.ofNat 64 p } }))))

/-- LOOPX (R235). -/
def execLoopx (f : FZ) (s : State) : Out :=
  runSlot s f.c none [] false (0, 0) (fun s _ =>
    chk s.me.nest.isSome cIllop (.ok (s.modCsr (fun c => { c with lpass := 1 }))))

/-- One rotation, visible from the next bundle (R106). -/
def Csrs.rotate (c : Csrs) : Csrs :=
  if c.rsize = 0 then c else { c with rpos := (c.rpos + 1) % c.rsize, rot := c.rot + 1 }

/-- ROT (R238). -/
def execRot (f : FZ) (s : State) : Out :=
  runSlot s f.c none [] false (0, 0) (fun s _ => .ok (s.modCsr Csrs.rotate))

/-- LDEPTHSET (R238). -/
def execLdepthset (f : FRa) (s : State) : Out :=
  runSlot s f.c f.lit [f.a] false (0, 0) (fun s vs => s.csrSet .ldepth (vs.getD 0 0 &&& 0x7FF#64))

/-! ## Allotment (R101 to R103, R239) -/

/-- Units of a core that no context holds or has reserved. -/
def State.freeUnits (s : State) (core : Nat) : Nat :=
  let used := (List.range 4).foldl (fun a i =>
    let c := s.ctx (core * 4 + i)
    a + (if c.st == .empty then 0 else c.csr.vallot) +
      c.resv.foldl (fun b r => match r with | .units n => b + n | _ => b) 0) 0
  24 - used

/-- The contents of vector registers from the allotment on are discarded (R103). -/
def Ctx.trimV (c : Ctx) : Ctx :=
  let n := 64 * c.csr.vallot
  { c with v := c.v.filter (fun p => decide (p.1 < n)), vborn := c.vborn.filter (fun p => decide (p.1 < n)),
           vdead := c.vdead.filter (fun i => decide (i < n)), vpois := c.vpois.filter (fun i => decide (i < n)) }

/-- GROW: the units reserved at issue, or free ones; it blocks without them, and the new registers read as zero (R19,
R102). -/
def execGrow (f : FN) (s : State) : Out :=
  runSlot s f.c none [] false (0, 0) (fun s _ =>
    chk (decide (s.me.csr.vallot + f.n.val ≤ 24)) cIllop (
    let mine := s.me.resv.contains (.units f.n.val)
    if f.n.val = 0 then .ok s
    else if mine || decide (f.n.val ≤ s.freeUnits (coreOf s.cur)) then
      .ok ((s.modMe (fun c => { c.trimV with resv := dropResv (.units f.n.val) c.resv,
                                             csr := { c.csr with vallot := c.csr.vallot + f.n.val } })).modMyCore
        (fun q => { q with growQ := q.growQ.filter (fun i => i != s.cur % 4) }))
    else .block))

/-- SHRINK: every result in flight to the top units is discarded at the commit, and their contents before the next bundle,
the first that is checked against the new allotment; results issued before have landed, for the model computes each at its slot's
commit (R32, R103, R239; log 17). -/
def execShrink (f : FN) (s : State) : Out :=
  runSlot s f.c none [] false (0, 0) (fun s _ =>
    chk (decide (f.n.val ≤ s.me.csr.vallot)) cIllop (.ok (s.modMe (fun c =>
      let n := 64 * (c.csr.vallot - f.n.val)
      let gone : Res → Bool
        | .v i _ _ => decide (n ≤ i)
        | _ => false
      { c with csr := { c.csr with vallot := c.csr.vallot - f.n.val }, pend := c.pend.filter (fun p => !gone p.res) }))))

/-! ## Barriers (R160, R240 to R242) -/

/-- The launch, its stream and the issuer's position, if a descriptor names it (R240). -/
def State.seat (s : State) (g : Nat) : Option (Nat × Launch × Nat) :=
  match s.launchOn (coreOf g) with
  | none => none
  | some (n, l) => if l.descs.any (fun d => d.pos == s.pos g) then some (n, l, s.pos g) else none

/-- An arrival at its commit point, after the waits of R160; `k` goes on with the barrier's key and the episode. -/
def arriveAt (s : State) (sc : BScope) (bn : Fin 64) (k : State → BarKey → Nat → State) : SlotR :=
  match s.seat s.cur with
  | none => .trap (trapOf cIllop)
  | some (n, l, pos) =>
    let key := l.barKey sc bn.val pos
    match (l.bar key).arrive pos with
    | none => .trap (trapOf cIllop)
    | some (b, ep) => .ok (k (s.setLaunch n (l.setBar key b)) key ep)

/-- Every earlier write performed and every copy retired (R160). -/
def waitAll (s : State) : State × Bool := waitCopies (fun _ => true) (fun _ => true) s

def execBara (f : FB) (s : State) : Out :=
  runWait s f.c waitAll (fun s => runSlot s f.c none [] false (0, 0) (fun s _ => arriveAt s f.bsc f.bn (fun s _ _ => s)))

/-- BARW: the bundle blocks before it issues while the release stands out (R242); here the wait is over. -/
def execBarw (f : FB) (s : State) : Out :=
  runSlot s f.c none [] false (0, 0) (fun s _ =>
    match s.seat s.cur with
    | none => .trap (trapOf cIllop)
    | some (_, l, pos) =>
      match (l.bar (l.barKey f.bsc f.bn.val pos)).blocksW s.cycle pos with
      | some _ => .block
      | none => .ok s)

/-- BAR arrives; the next bundle waits for the episode its arrival counted toward (R242; log 15). -/
def execBar (f : FB) (s : State) : Out :=
  runWait s f.c waitAll (fun s => runSlot s f.c none [] false (0, 0) (fun s _ =>
    arriveAt s f.bsc f.bn (fun s key ep => s.modMe (fun c => { c with barWait := some (key, ep) }))))

/-! ## Waits, YIELD, HALT, TRAP (R243 to R245) -/

/-- A handle as it stands (R121). -/
def Ctx.handle (c : Ctx) (n : Nat) : Handle := Tab.get Handle.reset n c.h
def State.setHandle (s : State) (g n : Nat) (h : Handle) : State := s.modCtx g (fun c => { c with h := Tab.put n h c.h })

/-- COPYFAULT of a handle: its error code is cleared (R124). -/
def handleFault (n : Nat) : Trap := { cause := cCopyfault, hdl := some n }

/-- An operation that needs a handle in a state: COPYFAULT, a block, or the handle (R20, R123, R124). -/
def needHandle (s : State) (n : Nat) (st : HState) (k : Handle → SlotR) : SlotR :=
  let h := s.me.handle n
  if h.err != 0#8 then .trap (handleFault n) else if h.st == st then k h else .block

/-- A slot that names handles or a channel: where it traps with COPYFAULT, the error code that it met is cleared (R124,
R280). -/
def runHandle (s : State) (m : Common) (lit : Lit) (srcs : List Src) (cnt : Nat × Nat)
    (body : State → List Word → SlotR) : Out :=
  match runSlot s m lit srcs false cnt body with
  | .next t =>
    let w := t.me.tsw0
    if s.me.guardOn m && t.me.st == .trapped && decide (w.toNat % 256 = cCopyfault) then
      if w.getLsbD 23 then
        let n := bits w.toNat 17 6
        .next (t.setHandle t.cur n { t.me.handle n with err := 0 })
      else
        let ch := bits w.toNat 24 2
        .next (t.modMyCore (fun q => { q with ch := Tab.put ch { Tab.get Chan.reset ch q.ch with err := 0 } q.ch }))
    else .next t
  | r => r

def execWaith (f : FW) (s : State) : Out :=
  runHandle s f.c none [] (0, 0) (fun s _ => needHandle s f.h.val f.hs (fun _ => .ok s))

/-- WAITQ: the queue holds at least NE entries that no pop has reserved (R243). At issue the entries that the bundle's
earlier pops reserve do not count; here, where the bundle has issued and no slot may block (R19), those that its own context
reserves do. -/
def execWaitq (f : FY) (s : State) : Out :=
  runSlot s f.c none [] false (0, 0) (fun s _ =>
    let own (e : MqEntry) : Bool := e.taken.isNone || e.taken == some (s.cur % 4)
    if f.ne1.val + 1 ≤ ((Tab.get [] f.mq.val s.myCore.mq).filter own).length then .ok s else .block)

/-- YIELD: with another READY context the yielding one is chosen last among its equals (R22), and becomes READY when the other slots of
its bundle have committed, which it has issued as a stream (R18; log 15). -/
def execYield (f : FZ) (s : State) : Out :=
  runSlot s f.c none [] false (0, 0) (fun s _ =>
    let k := coreOf s.cur
    let other := (List.range 4).any (fun i => i != s.cur % 4 && (s.ctx (k * 4 + i)).st == .ready)
    if other && !s.me.halting then
      .ok ((s.modMe (fun c => { c with yielding := true })).modMyCore (fun q => { q with rotp := (s.cur % 4 + 1) % 4 }))
    else .ok s)

/-- HALT: after the waits of R244 the context is HALTED when its bundle ends; a handler that halts while it handles a
trap gives that trap to the host (R433). -/
def execHalt (f : FZ) (s : State) : Out :=
  runWait s f.c waitAll (fun s => runSlot s f.c none [] false (0, 0) (fun s _ =>
    let s := s.modMe (fun c => { c with halting := true })
    let h := coreOf s.cur * 4 + s.me.view.hctxC.toNat
    .ok (if s.me.view.hctxV && s.me.csr.hdl && (s.ctx h).st == .trapped then s.hostTrap h else s)))

/-- TRAP (R245). -/
def execTrap (f : FT) (s : State) : Out :=
  runSlot s f.c none [] false (0, 0) (fun _ _ =>
    .trap { cause := if f.code = 0#8 then cBreak else cTrapi, code := f.code, done := true })

/-! ## Schedule selection and request slots (R246 to R248) -/

/-- The first bucket that serves the occupancy and the draft length (R246). -/
def seqselFrom (v : Csrs) (occ dlen : Nat) (base a : Word) : List Nat → Word
  | [] => BitVec.allOnes 64
  | n :: l =>
    let b := Tab.get 0 n v.bkt
    if a.getLsbD n && b.getLsbD 24 && decide (occ ≤ bits b.toNat 0 9) && decide (dlen ≤ bits b.toNat 16 8) then
      base + BitVec.ofNat 64 (b.toNat / 2 ^ 32)
    else seqselFrom v occ dlen base a l

/-- SEQSEL uses OCC and DLEN as they stand at commit, the buckets as visible at the bundle (R229, R246; log 18). -/
def execSeqsel (f : FR1) (s : State) : Out :=
  scalarOp s f.c f.lit .alu f.d [f.a] (fun s vs =>
    seqselFrom s.me.view (s.csrIn s.me.csr .occ).toNat s.me.csr.dlen.toNat (s.csrIn s.me.csr .codebase) (vs.getD 0 0)
      (List.range 16))

/-- ADMIT and RETIRE act on the slot a<7:0> of the launch (R247). -/
def reqOp (f : FR1) (s : State) (admitting : Bool) : Out :=
  runSlot s f.c f.lit [f.a] (dIsQ f.d) (dcnt f.d) (fun s vs =>
    match s.launchOn (coreOf s.cur) with
    | none => s.dst .alu f.d (BitVec.allOnes 64)
    | some (n, l) =>
      let k := (vs.getD 0 0).toNat % 256
      let r := l.slot k
      if r.act = admitting then s.dst .alu f.d (BitVec.allOnes 64)
      else
        let r' : ReqSlot := ⟨admitting, r.inc + 1#8⟩
        (s.setLaunch n { l with req := Tab.put k r' l.req }).dst .alu f.d
          (BitVec.ofNat 64 (r'.inc.toNat * 256 + k)))

def execAdmit (f : FR1) (s : State) : Out := reqOp f s true
def execRetire (f : FR1) (s : State) : Out := reqOp f s false

end Sys2Proof.Machine
end

