-- ==== Sys2Proof/Machine/Digest.lean ====
section
/-! DEFINITION. The two digests that the spec computes over bytes: the CRC-64 of fingerprints and flits (R287, R478) and the SHA-256
of attestation reports (R489, R492). -/

namespace Sys2Proof.Machine

open Sys2Proof

/-! ## CRC-64 (R287) -/

/-- CRC-64 of R287: one byte, most significant bit first. -/
def crcByte (c : Word) (b : Byte) : Word :=
  (List.range 8).foldl (fun c _ => if c.getLsbD 63 then (c <<< 1) ^^^ 0x42F0E1EBA9EA3693#64 else c <<< 1)
    (c ^^^ (b.setWidth 64 <<< 56))
def crc64 (bs : List Byte) : Word := bs.foldl crcByte 0#64

/-! ## SHA-256 (R492; the function itself is the standard's, log 30) -/

/-- The constants of the rounds, as numbers below 2^32. -/
def shaRound : List Nat :=
  [0x428A2F98, 0x71374491, 0xB5C0FBCF, 0xE9B5DBA5, 0x3956C25B, 0x59F111F1,
   0x923F82A4, 0xAB1C5ED5, 0xD807AA98, 0x12835B01, 0x243185BE, 0x550C7DC3,
   0x72BE5D74, 0x80DEB1FE, 0x9BDC06A7, 0xC19BF174] ++
  [0xE49B69C1, 0xEFBE4786, 0x0FC19DC6, 0x240CA1CC, 0x2DE92C6F, 0x4A7484AA,
   0x5CB0A9DC, 0x76F988DA, 0x983E5152, 0xA831C66D, 0xB00327C8, 0xBF597FC7,
   0xC6E00BF3, 0xD5A79147, 0x06CA6351, 0x14292967] ++
  [0x27B70A85, 0x2E1B2138, 0x4D2C6DFC, 0x53380D13, 0x650A7354, 0x766A0ABB,
   0x81C2C92E, 0x92722C85, 0xA2BFE8A1, 0xA81A664B, 0xC24B8B70, 0xC76C51A3,
   0xD192E819, 0xD6990624, 0xF40E3585, 0x106AA070] ++
  [0x19A4C116, 0x1E376C08, 0x2748774C, 0x34B0BCB5, 0x391C0CB3, 0x4ED8AA4A,
   0x5B9CCA4F, 0x682E6FF3, 0x748F82EE, 0x78A5636F, 0x84C87814, 0x8CC70208,
   0x90BEFFFA, 0xA4506CEB, 0xBEF9A3F7, 0xC67178F2]

/-- The eight words of the chaining value. -/
structure ShaState where
  a : Word32
  b : Word32
  c : Word32
  d : Word32
  e : Word32
  f : Word32
  g : Word32
  h : Word32

def shaStart : ShaState := ⟨0x6A09E667, 0xBB67AE85, 0x3C6EF372, 0xA54FF53A, 0x510E527F, 0x9B05688C, 0x1F83D9AB, 0x5BE0CD19⟩

/-- The exclusive or of a word turned right by two distances and turned or shifted right by a third. -/
def shaMix (x : Word32) (p q r : Nat) (turn : Bool) : Word32 :=
  x.rotateRight p ^^^ x.rotateRight q ^^^ (if turn then x.rotateRight r else x >>> r)

/-- The schedule grows by one word; the latest stands first. -/
def shaNext (w : List Word32) : Word32 :=
  shaMix (w.getD 1 0) 17 19 10 false + w.getD 6 0 + shaMix (w.getD 14 0) 7 18 3 false + w.getD 15 0

/-- One round with its constant and its word of the schedule. -/
def ShaState.turn (s : ShaState) (k : Nat) (w : Word32) : ShaState :=
  let pick := (s.e &&& s.f) ^^^ (~~~s.e &&& s.g)
  let maj := (s.a &&& s.b) ^^^ (s.a &&& s.c) ^^^ (s.b &&& s.c)
  let x := s.h + shaMix s.e 6 11 25 true + pick + BitVec.ofNat 32 k + w
  ⟨x + shaMix s.a 2 13 22 true + maj, s.a, s.b, s.c, s.d + x, s.e, s.f, s.g⟩

/-- A 32-bit word from four bytes, the first the highest. -/
def shaWord (bs : List Byte) : Word32 := BitVec.ofNat 32 (bs.foldl (fun n b => n * 256 + b.toNat) 0)

/-- A block of 64 bytes enters the chaining value. -/
def ShaState.block (s : ShaState) (bs : List Byte) : ShaState :=
  let first := (List.range 16).map (fun i => shaWord ((bs.drop (4 * i)).take 4))
  let sched := ((List.range 48).foldl (fun w _ => shaNext w :: w) first.reverse).reverse
  let t := (shaRound.zip sched).foldl (fun t q => t.turn q.1 q.2) s
  ⟨s.a + t.a, s.b + t.b, s.c + t.c, s.d + t.d, s.e + t.e, s.f + t.f, s.g + t.g, s.h + t.h⟩

/-- A number as `n` bytes, highest first. -/
def bigEndian : Nat → Nat → List Byte
  | 0, _ => []
  | n + 1, v => BitVec.ofNat 8 (v / 256 ^ n) :: bigEndian n v

/-- The SHA-256 digest of some bytes: they are padded to whole blocks with a one bit, zeros and their length in bits. -/
def sha256 (bs : List Byte) : List Byte :=
  let n := bs.length
  let fill := (119 - n % 64) % 64
  let msg := bs ++ 0x80#8 :: List.replicate fill 0#8 ++ bigEndian 8 (8 * n)
  let t := (List.range (msg.length / 64)).foldl (fun s i => s.block ((msg.drop (64 * i)).take 64)) shaStart
  [t.a, t.b, t.c, t.d, t.e, t.f, t.g, t.h].flatMap (fun w => bigEndian 4 w.toNat)

end Sys2Proof.Machine
end

