-- ==== Sys2Proof/Machine/CopyEngine.lean ====
section
/-! DEFINITION. The copy engine: what a copy does as it moves its bytes, where it stops, and what it keeps (R152, R173,
R174, R277 to R293). -/

namespace Sys2Proof.Machine

open Sys2Proof

/-! ## One byte of a copy -/

/-- The translation of an address for a copy, which keeps the mapping that stood as it started: the oldest translation that permits
the access, of what the TLBs held then, the oldest entry last, and the tables as it started and as it resumed. Where none permits it the
copy stops, and a resumption gives it the tables of that time (R174, R438; log 20). -/
def State.copyLeaf (s : State) (c : Copy) (k : Acc) (va : Nat) : Option Leaf :=
  let old := (c.held.filter (fun l => l.covers (s.asidOf c.part) va)).reverse ++
    c.snap.filterMap (fun m => { s with dram := m }.walk c.part va)
  old.find? (fun l => l.permits k) <|> old.getLast?

/-- The place of a byte on a side, or the cause of a stop (R279). -/
def State.copyReach (s : State) (c : Copy) (k : Acc) (sd : Side) (a : Nat) : Except Nat Hit :=
  match sd with
  | .mem =>
    match s.copyLeaf c k a with
    | none => .error cPage
    | some l => if l.permits k then l.place c.priv a else .error cProt
  | .sp cl _ _ => match s.regionAt cl a with
    | none => .error cRegrange
    | some _ => .ok ⟨.sp cl, a, true, none⟩
  | .mantel d => if s.bankOk c.part d a then .ok ⟨.dram, a, false, none⟩ else .error cProt

/-- A stop at an address: its granule's base (log 19). -/
def stopAt (cause a : Nat) : Stop := ⟨cause, a / 64 * 64⟩

/-- A byte reached for an access class: the place, or the stop; a tag that is never written stops as ECCU (R147, R152,
log 19). -/
def State.copyCheck (s : State) (c : Copy) (k : Acc) (cls : Cls) (sd : Side) (a : Nat) : Except Stop Hit :=
  match s.copyReach c k sd a with
  | .error e => .error (stopAt e a)
  | .ok h =>
    if !h.tagged then .ok h
    else
      let t := s.tag h.sp (h.addr / 64)
      if badTag t then .error (stopAt cEccu a)
      else if (tagNext c.gcid (s.lgenOf c.gcid) cls t).isNone then .error (stopAt cRace a)
      else .ok h

/-- The tag change of a reached byte, and the context's own writes to the byte performed first, by an atomic-class access those to the
whole granule, whose tag no longer keeps others out (R137, R145, R168). -/
def State.copyTouch (s : State) (c : Copy) (cls : Cls) (h : Hit) : State :=
  let s := match cls with
    | .read => s.settleBytes c.gcid h.sp h.addr 1
    | .write => s.settleBytes c.gcid h.sp h.addr 1
    | _ => s.settleBytes c.gcid h.sp (h.addr / 64 * 64) 64
  if h.tagged then s.touchTag c.gcid cls h.sp (h.addr / 64) else s

/-- A source byte with its poison; each byte read from a refreshing bank counts as one read (R131; log 9). -/
def State.copyRead (s : State) (c : Copy) (sd : Side) (a : Nat) : Except Stop (State × Byte × Bool) :=
  match s.copyCheck c .load .read sd a with
  | .error e => .error e
  | .ok h =>
    match sd with
    | .mantel d => .ok (s.refreshStall c.gcid d [a], s.mantelByte d a, s.mantelBad d a)
    | _ =>
      let s := s.copyTouch c .read h
      .ok (s, s.memByte h.sp h.addr, s.poisoned h.sp h.addr)

/-- A destination byte; a poisoned one stays poisoned (R278, R462). -/
def State.copyWrite (s : State) (c : Copy) (sd : Side) (a : Nat) (b : Byte × Bool) : Except Stop State :=
  match s.copyCheck c .store .write sd a with
  | .error e => .error e
  | .ok h =>
    let s := (s.copyTouch c .write h).setByte h.sp h.addr b.1
    .ok (if b.2 then s.poison h.sp h.addr else s)

/-- What the engine has reached: the state, the copy, and a stop. -/
structure Eng where
  s : State
  c : Copy
  stop : Option Stop

/-- A source byte, or a zero where there is no address. -/
def State.copyReadAt (s : State) (c : Copy) (sd : Side) : Option Nat → Except Stop (State × Byte × Bool)
  | none => .ok (s, 0, false)
  | some a => s.copyRead c sd a

/-- Bytes read in order, none standing for one outside the edge, which reads as zero without an access (R276); the first that
stops ends the read. -/
def readSome (c : Copy) (sd : Side) : State → List (Option Nat) → Except (State × Stop) (State × List (Byte × Bool))
  | s, [] => .ok (s, [])
  | s, a :: l =>
    match s.copyReadAt c sd a with
    | .error e => .error (s, e)
    | .ok (s, b, p) =>
      match readSome c sd s l with
      | .error e => .error e
      | .ok (s, r) => .ok (s, (b, p) :: r)

/-- Bytes at addresses read in order. -/
def readSeq (c : Copy) (sd : Side) (s : State) (l : List Nat) : Except (State × Stop) (State × List (Byte × Bool)) :=
  readSome c sd s (l.map some)

/-- Bytes of a copy from an address on, on a side. -/
def Side.run (sd : Side) (a : Word) (n : Nat) : List Nat := (List.range n).map (fun i => sd.at (a + BitVec.ofNat 64 i))

/-- The staged bytes are written to the addresses that wait for them; what cannot be written stays staged (R279, R439). -/
def writeStaged (sd : Side) : Eng → List (Nat × Byte × Bool) → Eng
  | e, [] => { e with c := { e.c with staging := [] } }
  | e, (a, b) :: l =>
    match e.s.copyWrite e.c sd a b with
    | .error st => { e with c := { e.c with staging := b :: l.map (·.2) }, stop := some st }
    | .ok s => writeStaged sd { e with s := s } l

/-! ## Byte copies: CPY, CPYG, CPYS, CPYX unpack, CPYF, CPFILL -/

/-- Where a destination byte comes from. -/
inductive BSrc where
  | zero
  | lit (b : Byte)
  | at (a : Nat)
  | row (n : Nat) (a : Word)
  | sbc (e b : Nat)
  | fp (p b : Nat)
  | red (n b : Nat)

/-- A destination byte with its candidates: the row that writes it, latest in nest order first, and its source. -/
abbrev Target := Nat × List (Nat × BSrc)

/-- A byte placed among destinations in ascending order; elements come from the last to the first (R278). -/
def place (a : Nat) (q : Nat × BSrc) : List Target → List Target
  | [] => [(a, [q])]
  | (b, qs) :: l => if a < b then (a, [q]) :: (b, qs) :: l else if a = b then (b, qs ++ [q]) :: l else (b, qs) :: place a q l

def targets (l : List (Nat × Nat × BSrc)) : List Target := l.foldr (fun t acc => place t.1 t.2 acc) []

/-- The index of row `n` from the entries read so far: none when its entry is −1 (R282). -/
def Copy.entryOf (c : Copy) (n : Nat) : Nat :=
  match c.op with
  | .cpyg f => match f.blk with
    | some lb => n / 2 ^ lb.val
    | none => n
  | _ => n

def Copy.index (c : Copy) (n : Nat) : Option Int :=
  let t := ((Tab.get 0 (c.entryOf n) c.aux).setWidth 32).toInt
  if t = -1 then none
  else
    match c.op with
    | .cpyg f => match f.blk with
      | some lb => some (t * 2 ^ lb.val + (n % 2 ^ lb.val : Nat))
      | none => some t
    | _ => some t

/-- An entry of the index list or block table, read once (R282, R284). -/
def needEntry (e : Eng) (j : Nat) : Eng :=
  if (Tab.find j e.c.aux).isSome || e.stop.isSome then e
  else if e.c.gx.elemOut j then { e with c := { e.c with aux := Tab.put j 0 e.c.aux } }
  else
    match readSeq e.c e.c.xside e.s (e.c.xside.run (e.c.gx.elemAddr j) 4) with
    | .error (s, st) => { e with s := s, stop := some st }
    | .ok (s, bs) => { e with s := s, c := { e.c with aux := Tab.put j (BitVec.ofNat 64 (leNat (bs.map (·.1)))) e.c.aux } }

/-- The presence mask of group `g` of a stream of `n` elements, without bits at or beyond `n` (R285). -/
def maskOf (aux : Tab Word) (n g : Nat) : Nat := (Tab.get 0 g aux).toNat % 2 ^ min 64 (n - 64 * g)

def popNat (n : Nat) : Nat := popFrom (BitVec.ofNat 64 n) 64

/-- The offset of group `g` in an SBC stream. -/
def sbcPos (aux : Tab Word) (n esz g : Nat) : Nat :=
  (List.range g).foldl (fun a h => a + 8 + popNat (maskOf aux n h) * esz) 0

/-- The masks of groups up to `g`, each read once in order. -/
def needMasks (e : Eng) (n esz g : Nat) : Eng :=
  (List.range (g + 1)).foldl (fun e h =>
    if (Tab.find h e.c.aux).isSome || e.stop.isSome then e
    else
      match readSeq e.c e.c.sside e.s
          (e.c.sside.run (e.c.gs.origin + BitVec.ofNat 64 (sbcPos e.c.aux n esz h)) 8) with
      | .error (s, st) => { e with s := s, stop := some st }
      | .ok (s, bs) => { e with s := s, c := { e.c with aux := Tab.put h (BitVec.ofNat 64 (leNat (bs.map (·.1)))) e.c.aux } }) e

/-- The bytes of page `p` of a page layout: 512 elements of eight bytes (R276, R287). -/
def Copy.pageSrc (c : Copy) (p : Nat) : List (Option Nat) :=
  (List.range 4096).map (fun i =>
    if c.gs.elemOut (512 * p + i / 8) then none else some (c.sside.at (c.gs.origin + BitVec.ofNat 64 (4096 * p + i))))

/-- The fingerprint of source page `p`, computed once (R287). -/
def needFp (e : Eng) (p : Nat) : Eng :=
  if (Tab.find p e.c.aux).isSome || e.stop.isSome then e
  else
    match readSome e.c e.c.sside e.s (e.c.pageSrc p) with
    | .error (s, st) => { e with s := s, stop := some st }
    | .ok (s, bs) =>
      { e with s := s, c := { e.c with aux := Tab.put p (crc64 (bs.map (·.1))) e.c.aux,
                                       rows := Tab.put p (bs.any (·.2)) e.c.rows } }

/-! ## Reductions (R291, R292) -/

def redFmt : RedFmt → Option Fmt
  | .f32 => some .fp32
  | .bf16 => some .bf16
  | .f16 => some .fp16
  | .i32 => none

/-- An element decoded: FP32, or INT32. -/
def redDecode (f : RedFmt) (code : Nat) : Word32 :=
  match redFmt f with
  | some .fp32 => BitVec.ofNat 32 code
  | some q => f32Bits (decElem q code)
  | none => BitVec.ofNat 32 code

/-- The operation of R291. -/
def redOp (f : RedFmt) (op : RedOp) (a b : Word32) : Word32 :=
  match f with
  | .i32 =>
    match op with
    | .add => BitVec.ofInt 32 (addSat32 a.toInt b.toInt).1
    | .max => if a.slt b then b else a
    | .min => if b.slt a then b else a
  | _ =>
    let x := f32Val a
    let y := f32Val b
    if x.isNan || y.isNan then canonNan
    else
      match op with
      | .add => f32Bits (x.add y)
      | .max => f32Bits (x.max2 y)
      | .min => f32Bits (x.min2 y)

def redEncode (f : RedFmt) (v : Word32) : Nat :=
  match redFmt f with
  | some q => (encElem q false .rne (f32Val v)).1
  | none => v.toNat

/-- The bytes of source element `n`; zeros outside the edge. -/
def readElem (e : Eng) (n esz : Nat) : Eng × Option (List (Byte × Bool)) :=
  if e.c.gs.elemOut n then (e, some (List.replicate esz (0, false)))
  else
    match readSeq e.c e.c.sside e.s (e.c.sside.run (e.c.gs.elemAddr n) esz) with
    | .error (s, st) => ({ e with s := s, stop := some st }, none)
    | .ok (s, bs) => ({ e with s := s }, some bs)

/-- The addresses of destination element `n`, lowest byte first. -/
def Copy.dElem (c : Copy) (n : Nat) : List Nat := c.dside.run (c.gd.elemAddr n) (eszOf c.op)

/-- The elements before `n` in nest order that share a byte with it. -/
def Copy.before (c : Copy) (n : Nat) : List Nat :=
  (List.range n).filter (fun m => !c.gd.elemOut m && (c.dElem m).any (fun a => (c.dElem n).contains a))

/-- The byte that an earlier element's result puts at an address, the latest of them in nest order (R278). -/
def Copy.laid (c : Copy) (ms : List Nat) (a : Nat) : Option (Byte × Bool) :=
  (ms.reverse.find? (fun m => (c.dElem m).contains a)).map (fun m =>
    (((Tab.get 0 m c.aux) >>> (8 * (c.dElem m).idxOf a)).setWidth 8, Tab.get false m c.rows))

/-- An element's old bytes: those that earlier elements have given, and the others as they were read, in order. -/
def joinOld (laid : Nat → Option (Byte × Bool)) : List Nat → List (Byte × Bool) → List (Byte × Bool)
  | [], _ => []
  | a :: as, rd =>
    match laid a with
    | some b => b :: joinOld laid as rd
    | none => rd.headD (0, false) :: joinOld laid as (rd.drop 1)

/-- The new value of destination element `n` of a CPYR, computed once, after those of the earlier elements that share bytes with it:
the elements are combined in nest order (R292). -/
def needRed (f : FCpyr) : Nat → Eng → Nat → Eng
  | 0, e, _ => e
  | k + 1, e, n =>
    if (Tab.find n e.c.aux).isSome || e.stop.isSome then e
    else
      let ms := e.c.before n
      let e := ms.foldl (needRed f k) e
      if e.stop.isSome then e
      else
        match readElem e n (eszOf e.c.op) with
        | (e, none) => e
        | (e, some src) =>
          let as := e.c.dElem n
          match readSeq e.c e.c.dside e.s (as.filter (fun a => (e.c.laid ms a).isNone)) with
          | .error (s, st) => { e with s := s, stop := some st }
          | .ok (s, rd) =>
            let old := joinOld (e.c.laid ms) as rd
            let v := redOp f.fmt f.op (redDecode f.fmt (leNat (old.map (·.1)))) (redDecode f.fmt (leNat (src.map (·.1))))
            { e with s := s, c := { e.c with aux := Tab.put n (BitVec.ofNat 64 (redEncode f.fmt v)) e.c.aux,
                                             rows := Tab.put n (src.any (·.2) || old.any (·.2)) e.c.rows } }

/-- Byte `b` of destination element `n` of a CPYR. -/
def redByte (e : Eng) (n b : Nat) : Eng × Option (Byte × Bool) :=
  let e := match e.c.op with
    | .cpyr f => needRed f (n + 1) e n
    | _ => e
  if e.stop.isSome then (e, none)
  else (e, some (((Tab.get 0 n e.c.aux) >>> (8 * b)).setWidth 8, Tab.get false n e.c.rows))

/-! ## Byte copies, continued -/

/-- A source byte obtained: the second answer is its value and poison, none where the copy stops. -/
def needByte (e : Eng) : BSrc → Eng × Option (Byte × Bool)
  | .zero => (e, some (0, false))
  | .lit b => (e, some (b, false))
  | .at a =>
    match e.s.copyRead e.c e.c.sside a with
    | .error st => ({ e with stop := some st }, none)
    | .ok (s, b, p) => ({ e with s := s }, some (b, p))
  | .row n a =>
    let e := needEntry e (e.c.entryOf n)
    if e.stop.isSome then (e, none)
    else
      match e.c.index n with
      | none => (e, some (0, false))
      | some i =>
        match e.s.copyRead e.c e.c.sside (e.c.sside.at (a + e.c.gs.stride5 i)) with
        | .error st => ({ e with stop := some st }, none)
        | .ok (s, b, p) => ({ e with s := s }, some (b, p))
  | .sbc el b =>
    let n := e.c.gd.total
    let esz := eszOf e.c.op
    let e := needMasks e n esz (el / 64)
    if e.stop.isSome then (e, none)
    else
      let m := maskOf e.c.aux n (el / 64)
      if !m.testBit (el % 64) then (e, some (0, false))
      else
        let o := sbcPos e.c.aux n esz (el / 64) + 8 + popNat (m % 2 ^ (el % 64)) * esz + b
        match e.s.copyRead e.c e.c.sside (e.c.sside.at (e.c.gs.origin + BitVec.ofNat 64 o)) with
        | .error st => ({ e with stop := some st }, none)
        | .ok (s, b, p) => ({ e with s := s }, some (b, p))
  | .fp p b =>
    let e := needFp e p
    if e.stop.isSome then (e, none)
    else (e, some (((Tab.get 0 p e.c.aux) >>> (8 * b)).setWidth 8, Tab.get false p e.c.rows))
  | .red n b => redByte e n b

/-- The request slot, incarnation and CHECK of a CPYG (R283). -/
def Copy.checks (c : Copy) : Bool :=
  match c.op with
  | .cpyg _ => c.sx.getLsbD 16
  | _ => false

/-- The check of a row, made once before its first byte; a failed row counts as stale (R283). -/
def rowCheck (e : Eng) (n : Nat) : Eng :=
  if !e.c.checks || (Tab.find n e.c.rows).isSome then e
  else
    match e.s.launchOn (coreOf e.c.gcid) with
    | none => e
    | some (k, l) =>
      let r := l.slot (e.c.sx.toNat % 256)
      let ok := r.act && r.inc.toNat == bits e.c.sx.toNat 8 8
      { e with s := if ok then e.s else e.s.setLaunch k { l with stale := sat32 (l.stale + 1) },
               c := { e.c with rows := Tab.put n ok e.c.rows } }

/-- One destination byte: the latest row that is not dropped supplies it (R278, R283). -/
def moveTarget (e : Eng) (a : Nat) : List (Nat × BSrc) → Eng
  | [] => { e with c := { e.c with pos := e.c.pos + 1 } }
  | (n, q) :: l =>
    let e := rowCheck e n
    if e.c.checks && !Tab.get true n e.c.rows then moveTarget e a l
    else
      let got := match e.c.staging with
        | b :: _ => (e, some b)
        | [] => needByte e q
      match got with
      | (e, none) => e
      | (e, some b) =>
        let e := writeStaged e.c.dside e [(a, b)]
        if e.stop.isSome then e else { e with c := { e.c with pos := e.c.pos + 1 } }

/-- Destination bytes moved in ascending order until one stops. -/
def moveAll (e : Eng) : List Target → Eng
  | [] => e
  | (a, qs) :: l =>
    let e := moveTarget e a qs
    if e.stop.isSome then e else moveAll e l

/-- The destination bytes of a nest: elements inside the edge, each with its row and the sources of its bytes. -/
def nestTargets (c : Copy) (esz : Nat) (row : Nat → Nat) (src : Nat → Nat → BSrc) : List Target :=
  targets ((List.range c.gd.total).flatMap (fun n =>
    if c.gd.elemOut n then []
    else (List.range esz).map (fun b =>
      (c.dside.at (c.gd.elemAddr n + BitVec.ofNat 64 b), row n, src n b))))

/-- The byte `b` of source element `n`. -/
def elemSrc (c : Copy) (n b : Nat) : BSrc :=
  if c.gs.elemOut n then .zero else .at (c.sside.at (c.gs.elemAddr n + BitVec.ofNat 64 b))

/-- The destination bytes of a byte copy in ascending order (R281, R282, R284, R286, R287, R292, R293). -/
def Copy.plan (c : Copy) : List Target :=
  let esz := eszOf c.op
  match c.op with
  | .cpy _ => nestTargets c esz id (elemSrc c)
  | .cpyg _ =>
    let nr := c.gs.total
    nestTargets c esz (fun m => m / nr) (fun m b =>
      if c.gs.elemOut (m % nr) then .zero else .row (m / nr) (c.gs.elemAddr (m % nr) + BitVec.ofNat 64 b))
  | .cpys _ =>
    let nr := c.gd.total
    targets ((List.range c.gx.total).flatMap (fun n =>
      match c.index n with
      | none => []
      | some i => (List.range nr).flatMap (fun k =>
        if c.gd.elemOut k then []
        else (List.range esz).map (fun b =>
          (c.dside.at (c.gd.elemAddr k + c.gd.stride5 i + BitVec.ofNat 64 b), n, elemSrc c (n * nr + k) b)))))
  | .cpyxUnpack _ => nestTargets c esz id (fun e b => .sbc e b)
  | .cpyf _ => nestTargets c 8 id (fun p b => .fp p b)
  | .cpyr _ | .coll _ => nestTargets c esz id .red
  | .cpfill _ => nestTargets c esz id (fun _ b => .lit ((c.sx >>> (8 * (b % 8))).setWidth 8))
  | _ => []

/-- Byte copies: CPYS reads its whole list before it writes (R284). The answer says whether every byte is written. -/
def runBytes (e : Eng) (budget : Nat) : Eng × Bool :=
  let e := match e.c.op with
    | .cpys _ => (List.range e.c.gx.total).foldl needEntry e
    | _ => e
  if e.stop.isSome then (e, false)
  else
    let p := e.c.plan
    let e := moveAll e ((p.drop e.c.pos).take budget)
    (e, e.stop.isNone && decide (p.length ≤ e.c.pos))

/-! ## SBC pack (R285, R286) -/

/-- The byte `b` of a pack's source element, cached with its poison in bit 8. -/
def needElem (esz : Nat) (e : Eng) (n : Nat) : Eng :=
  (List.range esz).foldl (fun e b =>
    let k := n * esz + b
    if (Tab.find k e.c.aux).isSome || e.stop.isSome then e
    else
      match needByte e (elemSrc e.c n b) with
      | (e, none) => e
      | (e, some (v, p)) =>
        { e with c := { e.c with aux := Tab.put k (v.setWidth 64 ||| (if p then 0x100#64 else 0#64)) e.c.aux } }) e

def packByte (c : Copy) (esz n b : Nat) : Byte × Bool :=
  let v := Tab.get 0 (n * esz + b) c.aux
  (v.setWidth 8, v.getLsbD 8)

/-- An element is present when a byte of it is not zero. -/
def packHas (c : Copy) (esz n : Nat) : Bool := (List.range esz).any (fun b => (packByte c esz n b).1 != 0#8)

/-- The items of a stream in order: mask byte `k` of group `g`, or byte `b` of element `n`. -/
inductive PItem where
  | mask (g k : Nat)
  | elem (n b : Nat)

def packItems (n esz : Nat) : List PItem :=
  (List.range ((n + 63) / 64)).flatMap (fun g =>
    (List.range 8).map (fun k => PItem.mask g k) ++
      (List.range (min 64 (n - 64 * g))).flatMap (fun i => (List.range esz).map (fun b => PItem.elem (64 * g + i) b)))

/-- One item written at stream offset `o`; the answer holds the next offset. -/
def packItem (esz n : Nat) (q : Eng × Nat) (it : PItem) : Eng × Nat :=
  let (e, o) := q
  if e.stop.isSome then (e, o)
  else
    let a := e.c.dside.at (e.c.gd.origin + BitVec.ofNat 64 o)
    let put (e : Eng) (b : Byte × Bool) : Eng × Nat :=
      let e := writeStaged e.c.dside e [(a, b)]
      if e.stop.isSome then (e, o) else ({ e with c := { e.c with pos := e.c.pos + 1 } }, o + 1)
    match it with
    | .mask g k =>
      let ns := (List.range 8).map (fun i => 64 * g + 8 * k + i) |>.filter (fun i => decide (i < n))
      let e := ns.foldl (needElem esz) e
      if e.stop.isSome then (e, o)
      else put e (BitVec.ofNat 8 (ns.foldl (fun m i => if packHas e.c esz i then m + 2 ^ (i % 8) else m) 0), false)
    | .elem i b =>
      if packHas e.c esz i then put e (packByte e.c esz i b) else ({ e with c := { e.c with pos := e.c.pos + 1 } }, o)

def runPack (e : Eng) (budget : Nat) : Eng × Bool :=
  let esz := eszOf e.c.op
  let n := e.c.gs.total
  let items := packItems n esz
  let o := (items.take e.c.pos).foldl (fun o it =>
    match it with
    | .mask _ _ => o + 1
    | .elem i _ => if packHas e.c esz i then o + 1 else o) 0
  let e := (((items.drop e.c.pos).take budget).foldl (packItem esz n) (e, o)).1
  (e, e.stop.isNone && decide (items.length ≤ e.c.pos))

/-! ## Collectives (R293) -/

/-- The levels of a collective's tree (R293): `val` by rank. -/
def collLevels (f : RedFmt) (op : RedOp) (g : Nat) : Nat → Nat → List Word32 → List Word32
  | 0, _, v => v
  | fuel + 1, l, v =>
    if g ≤ 2 ^ l then v
    else collLevels f op g fuel (l + 1) ((enumFrom 0 v).map (fun p =>
      if p.1 % 2 ^ (l + 1) = 0 && decide (p.1 + 2 ^ l < g) then redOp f op p.2 (v.getD (p.1 + 2 ^ l) 0) else p.2))

/-- Key of the result of element `n` of a collective, beside the element's own value at key `n`; key of its number among the
collectives of the run. -/
def collKey (n : Nat) : Nat := 2 ^ 33 + n
def collInst : Nat := 2 ^ 34
/-- Whether a collective has read an element, has its result, and has the results of all. -/
def Copy.collHas (c : Copy) (n : Nat) : Bool := (Tab.find n c.rows).isSome
def Copy.collGot (c : Copy) (n : Nat) : Bool := (Tab.find (collKey n) c.aux).isSome
def Copy.collDone (c : Copy) : Bool := (List.range c.gs.total).all c.collGot

/-- Its own source read into `aux`, an element at a time. -/
def collFetch (f : RedFmt) (esz : Nat) (e : Eng) (n : Nat) : Eng :=
  if e.stop.isSome || e.c.collHas n then e
  else
    match readElem e n esz with
    | (e, none) => e
    | (e, some bs) =>
      { e with c := { e.c with aux := Tab.put n ((redDecode f (leNat (bs.map (·.1)))).setWidth 64) e.c.aux,
                               rows := Tab.put n (bs.any (·.2)) e.c.rows } }

/-- The collective that a local rank has in progress on a group: the oldest of its context whose results are not all there. -/
def State.collOf (s : State) (launch : Nat) (l : Launch) (grp : Nat) (lcid : Nat) : Option Copy :=
  let g := l.gcidAt lcid
  if (s.core (coreOf g)).launch != some launch then none
  else
    ((s.copiesOf g).filter (fun c => match c.op with
      | .coll _ => decide (c.sx.toNat % 256 = grp) && !c.collDone
      | _ => false)).foldl (fun best c =>
        match best with
        | none => some c
        | some b => if c.seq < b.seq then some c else some b) none

/-- A copy put back in its channel. -/
def State.putCopy (s : State) (c : Copy) : State :=
  s.modCore (coreOf c.gcid) (fun q => { q with ch := mapVals (fun _ (h : Chan) =>
    { h with copies := h.copies.map (fun d => if d.gcid == c.gcid && d.seq == c.seq then c else d) }) q.ch })

/-- What a collective keeps of its group's entry (R480): ranks, first local rank, local members, ports of its routes. -/
structure CollGroup where
  gsize : Nat
  rbase : Nat
  members : List Nat
  ports : List Nat

def Copy.group (c : Copy) : CollGroup :=
  match c.grp with
  | gsize :: rbase :: nloc :: l => ⟨gsize, rbase, l.take nloc, l.drop nloc⟩
  | _ => ⟨0, 0, [], []⟩

/-- The result of one element, and its poison, from the local ranks' values and the remote ones', which are open, combined in
the tree of R293. -/
def collResult (f : FColl) (q : CollGroup) (cs : List Copy) (inst : Word) (i : Nat) : Word32 × Bool :=
  let val (r : Nat) : Word32 :=
    if q.rbase ≤ r && decide (r < q.rbase + cs.length) then
      match cs[r - q.rbase]? with
      | some c => (Tab.get 0 i c.aux).setWidth 32
      | none => 0
    else Config.collRank inst r i
  ((collLevels f.fmt f.op q.gsize 13 0 ((List.range q.gsize).map val)).headD 0, cs.any (fun c => Tab.get false i c.rows))

/-- The elements that every local rank has read are combined; every local rank takes the same results (R293, R481). -/
def State.collCombine (s : State) (f : FColl) (q : CollGroup) (cs : List Copy) (inst : Word) : State :=
  let n := (cs.head?.map (fun c => c.gs.total)).getD 0
  let now := (List.range n).filter (fun i => cs.all (fun c => c.collHas i) && !cs.all (fun c => c.collGot i))
  let res := now.map (fun i => (i, collResult f q cs inst i))
  cs.foldl (fun s c => s.putCopy { c with aux := res.foldl (fun a p =>
    Tab.put (collKey p.1) (p.2.1.setWidth 64 ||| (if p.2.2 then 2 ^ 32 else 0)) a) (Tab.put collInst inst c.aux) }) s

/-- The element that supplies a destination byte, and which of its bytes it is: the latest in nest order (R278). -/
def Target.elem : Target → Option (Nat × Nat)
  | (_, (_, .red n b) :: _) => some (n, b)
  | _ => none

/-- A result byte of a collective. -/
def Copy.collByte (c : Copy) (f : RedFmt) (n b : Nat) : Byte × Bool :=
  let w := Tab.get 0 (collKey n) c.aux
  ((BitVec.ofNat 64 (redEncode f (w.setWidth 32)) >>> (8 * b)).setWidth 8, w.getLsbD 32)

/-- The results that have come are written in ascending order, from the first byte not yet written on. -/
def collWrite (f : RedFmt) : Eng → List Target → Eng
  | e, [] => e
  | e, t :: l =>
    match t.elem with
    | none => e
    | some (n, b) =>
      if e.c.collGot n then
        let e := writeStaged e.c.dside e [(t.1, match e.c.staging with
          | q :: _ => q
          | [] => e.c.collByte f n b)]
        if e.stop.isSome then e else collWrite f { e with c := { e.c with pos := e.c.pos + 1 } } l
      else e

/-- COLL (R279, R293): it reads its source, in the order of its destination, until a read stops; it writes what has come; it
stops where the next byte to write is of the element whose read stopped. -/
def runColl (f : FColl) (e : Eng) (budget : Nat) : Eng × Bool :=
  let esz := eszOf e.c.op
  let l := e.c.plan
  let order := (l.filterMap (fun t => t.elem.map Prod.fst)).eraseDups
  let r := (order ++ (List.range e.c.gs.total).filter (fun n => !order.contains n)).foldl (collFetch f.fmt esz) e
  let e := collWrite f.fmt { r with stop := none } ((l.drop r.c.pos).take budget)
  if e.stop.isSome then (e, false)
  else
    let due : Bool := match l[e.c.pos]? with
      | some t => (t.elem.map (fun q => !e.c.collHas q.1)).getD true
      | none => true
    let e := if due then { e with stop := r.stop } else e
    (e, e.stop.isNone && decide (l.length ≤ e.c.pos) && e.c.collDone)

/-! ## Deduplicating writes: CPYD (R288 to R290) -/

/-- The level-0 table entry of an address: its physical address (R449). -/
def State.pteFrom (s : State) (va : Nat) : Nat → Nat → Option Nat
  | 0, tbl => if inData tbl then some (tbl + 8 * bits va 12 9) else none
  | lvl + 1, tbl =>
    if !inData tbl then none
    else
      let e := s.pte (tbl + 8 * bits va (12 + 9 * (lvl + 1)) 9)
      if eBit e 0 && !eBit e 1 then State.pteFrom s va lvl (eFrame e) else none

def State.pteAddr (s : State) (part va : Nat) : Option Nat :=
  s.pteFrom va 3 (bits (s.part part).xroot.toNat 12 40 * 4096)

/-- Keys of what a CPYD keeps of page `p`: fingerprint, bytes written, outcome record, bytes of the record written. -/
def dFp (p : Nat) : Nat := 4 * p
def dPos (p : Nat) : Nat := 4 * p + 1
def dOut (p : Nat) : Nat := 4 * p + 2
def dRec (p : Nat) : Nat := 4 * p + 3

def Copy.setAux (c : Copy) (k : Nat) (v : Nat) : Copy := { c with aux := Tab.put k (BitVec.ofNat 64 v) c.aux }
def Copy.auxN (c : Copy) (k : Nat) : Nat := (Tab.get 0 k c.aux).toNat

/-- The table: entry `j` of `T` (R288). -/
def Copy.dEntry (c : Copy) (fp j : Nat) : Word := c.gx.elemAddr ((fp + j) % c.gx.total)

/-- The addresses of a table entry: none outside the edge, where it reads as zeros and takes no write (R276). -/
def Copy.dPlaces (c : Copy) (fp j : Nat) : List Nat :=
  if c.gx.elemOut ((fp + j) % c.gx.total) then [] else c.xside.run (c.dEntry fp j) 32

/-- The probe of the four entries as one atomic-class access: checked as a whole, then read (R289). -/
def probe (e : Eng) (fp : Nat) : Except Stop (State × List (List Byte) × List (List Hit)) :=
  let as := (List.range 4).map (e.c.dPlaces fp)
  let chk := as.map (fun l => l.map (fun a => e.s.copyCheck e.c .atomic .atomic e.c.xside a))
  match chk.flatten.findSome? (fun r => match r with
    | .error st => some st
    | .ok _ => none) with
  | some st => .error st
  | none =>
    let hits := chk.map (fun l => l.filterMap (fun r => match r with
      | .ok h => some h
      | .error _ => none))
    let s := hits.flatten.foldl (fun s h => s.copyTouch e.c .atomic h) e.s
    .ok (s, hits.map (fun l => l.map (fun h => s.memByte h.sp h.addr)), hits)

/-- Fields of a table entry. -/
def entFp (b : List Byte) : Nat := leNat (b.take 8)
def entValid (b : List Byte) : Bool := ((b.getD 8 0).getLsbD 0)
def entFrame (b : List Byte) : Nat := bits (leNat b) 76 40 * 4096
def entRef (b : List Byte) : Nat := leNat ((b.drop 16).take 8)

/-- An entry with fields replaced. -/
def mkEnt (fp valid frame ref : Nat) : List Byte :=
  natLe 32 (fp + valid * 2 ^ 64 + frame / 4096 * 2 ^ 76 + ref * 2 ^ 128)

def State.putHits (s : State) (hs : List Hit) (bs : List Byte) : State :=
  (hs.zip bs).foldl (fun s p => s.setByte p.1.sp p.1.addr p.2) s

/-- Whether an entry of a TLB is of an invalidation's ASID and its page (R457). -/
def Inval.covers (i : Inval) (l : Leaf) : Bool :=
  l.asid == i.asid && decide (l.va < i.va + i.size) && decide (i.va < l.va + l.size)

/-- Whether an invalidation does not wait on a context's pins (R458). -/
def State.exempt (s : State) (i : Inval) (g : Nat) : Bool :=
  i.issuer == some g || (i.copyOf.map Prod.fst) == some g ||
    !((s.ctx g).st == .primary || (s.ctx g).st == .secondary)

/-- Whether a pin stands in an invalidation's way. -/
def Inval.pinned (i : Inval) (p : Pin) : Bool :=
  decide (0 < p.left) && (match p.leaf with | some l => i.covers l | none => false)

/-- The pins on an invalidation's page are released of the contexts in its scope that `which` names, with their windows kept; an active
stream loses its own (R458). -/
def State.dropPins (s : State) (i : Inval) (which : State → Nat → Bool) : State :=
  (i.cores.flatMap (fun k => (List.range 4).map (fun c => k * 4 + c))).foldl (fun s g =>
    if which s g && (s.ctx g).pins.any i.pinned then
      s.modCtx g (fun c => { c with pins := c.pins.map (fun p =>
        if i.pinned p then { p with leaf := none, lost := c.st == .primary || c.st == .secondary } else p) })
    else s) s

/-- Pins that an invalidation does not wait on are released (R458). -/
def State.releasePins (s : State) (i : Inval) : State := s.dropPins i (fun s => s.exempt i)

/-- A context that has left its stream loses its pins on the pages of every invalidation in progress at once (R458). -/
def State.idlePins (s : State) : State :=
  s.invals.foldl (fun s i =>
    if i.done then s else s.dropPins i (fun s g => !((s.ctx g).st == .primary || (s.ctx g).st == .secondary))) s

/-- A marker in a channel: the partition's copies there stand ahead of it (R174). The marker of a CPYD's remap stands ahead of
the copies that cannot go on before the CPYD, `later`; they take the new mapping, whose entry is `pte` (R289, R405; log 20). -/
def Inval.mark (i : Inval) (later : List (Nat × Nat)) (pte : Option (Nat × List Byte)) (c : Copy) : Copy :=
  if c.part != i.part || i.copyOf == some (c.gcid, c.seq) then c
  else if later.contains (c.gcid, c.seq) then
    { c with held := c.held.filter (fun l => !i.covers l), snap := c.snap.map (fun m =>
        match pte with
        | some (a, bs) => m.writeN a bs
        | none => m) }
  else { c with marks := i.no :: c.marks }

/-- A new invalidation: its marker enters the channels of the scope's cores, and the pins that it does not wait on are released
at once (R174, R457, R458). `pte` is the entry that a remap has written. -/
def State.startInval (s : State) (part va size : Nat) (cores : List Nat) (issuer : Option Nat)
    (copyOf : Option (Nat × Nat)) (pte : Option (Nat × List Byte)) (xinv : Bool) : State :=
  let i : Inval := ⟨s.invalNo, part, s.asidOf part, va, size, cores, issuer, copyOf, xinv, false⟩
  let later := match copyOf with
    | some q => s.dependent (coreOf q.1) (fun c => (c.gcid, c.seq) == q)
    | none => []
  let s := cores.foldl (fun s core =>
    s.modCore core (fun q => { q with ch := mapVals (fun _ (h : Chan) =>
      { h with copies := h.copies.map (i.mark later pte) }) q.ch })) s
  { s with invalNo := i.no + 1, invals := s.invals ++ [i] }.releasePins i

/-- The cores of a partition (R448). -/
def State.partCores (s : State) (p : Nat) : List Nat :=
  (List.range 256).filter (fun k => (s.part p).clmask.getLsbD (k / 8))

/-- A remap: the leaf entry takes the frame and loses W, and the page is invalidated at device scope (R289, R453). -/
def State.remap (s : State) (c : Copy) (va frame : Nat) : State :=
  match s.pteAddr c.part va with
  | none => s
  | some pa =>
    let e := s.pte pa
    let e' := e - bits e 12 40 * 4096 + frame % 2 ^ 52 - (if eBit e 3 then 8 else 0)
    let s := s.setBytes .dram pa (natLe 8 e')
    s.startInval c.part va 4096 (s.partCores c.part) none (some (c.gcid, c.seq)) (some (pa, natLe 8 e')) false

/-- The page is written from the source page's bytes, from the byte it stopped at on; an element outside the edge is dropped
(R276). -/
def dWrite (e : Eng) (p : Nat) (bs : List (Byte × Bool)) : Eng :=
  let base := e.c.gd.origin + BitVec.ofNat 64 (4096 * p)
  let from' := e.c.auxN (dPos p)
  (((enumFrom 0 bs).drop from').foldl (fun e q =>
    if e.stop.isSome then e
    else if e.c.gd.elemOut (512 * p + q.1 / 8) then { e with c := e.c.setAux (dPos p) (q.1 + 1) }
    else
      match e.s.copyWrite e.c .mem (base + BitVec.ofNat 64 q.1).toNat q.2 with
      | .error st => { e with stop := some st }
      | .ok s => { e with s := s, c := e.c.setAux (dPos p) (q.1 + 1) }) e)

/-- The frame that maps an address, as an OUT record gives it (R290). -/
def frameOf (l : Option Leaf) (va : Nat) : Nat :=
  match l with
  | some l => (l.pa + (va - l.va)) / 4096 * 4096
  | none => 0

/-- One page: fingerprint, probe, and either a remap or a write with an entry (R289). The source page's bytes are read
once and staged until the page is done. -/
def dPage (e : Eng) (p : Nat) : Eng :=
  let got := if e.c.staging.isEmpty then readSome e.c e.c.sside e.s (e.c.pageSrc p) else .ok (e.s, e.c.staging)
  match got with
  | .error (s, st) => { e with s := s, stop := some st }
  | .ok (s, bs) =>
    let e := { e with s := s, c := { e.c with staging := bs } }
    let fp := (crc64 (bs.map (·.1))).toNat
    match probe e fp with
    | .error st => { e with stop := some st }
    | .ok (s, ents, hits) =>
      let e := { e with s := s }
      let va := (e.c.gd.origin + BitVec.ofNat 64 (4096 * p)).toNat
      let leaf := s.copyLeaf e.c .store va
      let ok := match leaf with
        | some l => decide (l.size = 4096) && l.w && l.dd
        | none => false
      let frame := frameOf leaf va
      let same (j : Nat) : Bool :=
        let b := ents.getD j []
        s.memBytes .dram (entFrame b) 4096 == bs.map (·.1)
      let matching := (List.range 4).filter (fun j => entValid (ents.getD j []) && decide (entFp (ents.getD j []) = fp))
      match (if ok then matching.find? same else none) with
      | some j =>
        let b := ents.getD j []
        let s := s.putHits ((hits.getD j []).drop 16 |>.take 8) (natLe 8 (entRef b + 1))
        let s := s.remap e.c va (entFrame b)
        { e with s := s, c := { e.c.setAux (dOut p) (entFrame b + 1 + 2 ^ 60) with staging := [] } }
      | none =>
        let e := dWrite e p bs
        if e.stop.isSome then e
        else
          let free := (List.range 4).find? (fun j => !entValid (ents.getD j []))
          match (if ok then free else none) with
          | some j =>
            let s := e.s.putHits (hits.getD j []) (mkEnt fp 1 frame 1)
            let out := if matching.any (fun j => !same j) then 3 else 0
            { e with s := s, c := { e.c.setAux (dOut p) (frame + out + 2 ^ 60) with staging := [] } }
          | none => { e with c := { e.c.setAux (dOut p) (frame + 2 + 2 ^ 60) with staging := [] } }

/-- The outcome record of page `p` in HD's region (R290). -/
def dRecord (e : Eng) (p : Nat) : Eng :=
  match e.c.grp with
  | [] => { e with c := { e.c with pos := e.c.pos + 1 } }
  | off :: _ =>
    let bs := natLe 8 (e.c.auxN (dOut p) % 2 ^ 60)
    let e := ((enumFrom 0 bs).drop (e.c.auxN (dRec p))).foldl (fun e q =>
      if e.stop.isSome then e
      else
        match e.s.copyWrite e.c (.sp (clusterOf e.c.gcid) 0 0) (off + 8 * p + q.1) (q.2, false) with
        | .error st => { e with stop := some st }
        | .ok s => { e with s := s, c := e.c.setAux (dRec p) (q.1 + 1) }) e
    if e.stop.isSome then e else { e with c := { e.c with pos := e.c.pos + 1 } }

/-- Whether a CPYD has written its last byte. -/
def Copy.dedupDone (c : Copy) : Bool := decide (c.gs.total / 512 ≤ c.pos)

def dStep (e : Eng) (p : Nat) : Eng :=
  if e.stop.isSome then e
  else
    let e := if (Tab.find (dOut p) e.c.aux).isSome then e else dPage e p
    if e.stop.isSome then e else dRecord e p

/-- CPYD: its pages in order; it has written everything when the last is done, and retires once the invalidations of its remaps
are complete (R278, R289). -/
def runDedup (e : Eng) (budget : Nat) : Eng × Bool :=
  let n := e.c.gs.total / 512
  let e := (((List.range n).drop e.c.pos).take budget).foldl dStep e
  let open' := e.s.invals.any (fun i => i.copyOf == some (e.c.gcid, e.c.seq) && !i.done)
  (e, e.stop.isNone && e.c.dedupDone && !open')

/-! ## A copy runs -/

/-- The engine moves at most `budget` bytes, elements or pages of a copy. -/
def runCopy (e : Eng) (budget : Nat) : Eng × Bool :=
  match e.c.op with
  | .cpyxPack _ => runPack e budget
  | .coll f => runColl f e budget
  | .cpyd _ => runDedup e budget
  | .cpmark _ => (e, true)
  | _ => runBytes e budget

end Sys2Proof.Machine
end

