-- ==== Sys2Proof/Machine/Ports.lean ====
section
/-! DEFINITION. The flits of the Viaduct ports: sending with credits and a replay buffer, receiving in order, negative
acknowledgement and replay, calibration flits (R478, R479, R482). -/

namespace Sys2Proof.Machine

open Sys2Proof

/-- A flit: header, payload, CRC over both (R478). -/
def flitOf (seq ack : BitVec 12) (typ : BitVec 4) (credits : BitVec 8) (payload : BitVec 1920) : BitVec 2048 :=
  let body : BitVec 1984 := payload ++ (0#28 ++ credits ++ typ ++ ack ++ seq : BitVec 64)
  crc64 (natLe 248 body.toNat) ++ body

def flitSeq (f : BitVec 2048) : BitVec 12 := f.setWidth 12
def flitAck (f : BitVec 2048) : BitVec 12 := (f >>> 12).setWidth 12
def flitType (f : BitVec 2048) : Nat := bits f.toNat 24 4
def flitCredits (f : BitVec 2048) : Nat := bits f.toNat 28 8
def flitPayload (f : BitVec 2048) : BitVec 1920 := (f >>> 64).setWidth 1920

/-- Whether the CRC of a flit holds (R478). -/
def flitOk (f : BitVec 2048) : Bool := crc64 (natLe 248 f.toNat) == (f >>> 1984).setWidth 64

/-- Flits of the replay buffer after a sequence number that is acknowledged: SEQ is at most 2,048 ahead of it (R478). -/
def laterThan (ack : BitVec 12) (l : List (BitVec 2048)) : List (BitVec 2048) :=
  l.filter (fun f => flitSeq f != ack && decide ((flitSeq f - ack).toNat ≤ 2048))

/-- A flit goes out; after 2^24 without an idle one a calibration flit follows it (R482). The credits that it grants are open
(log 42). -/
def Port.emit (p : Port) (typ : BitVec 4) (f : BitVec 2048) (free : BitVec 8) : Port :=
  let n := if typ = 0#4 then 0 else p.idle + 1
  let p := { p with out := p.out ++ [f], idle := n }
  if 2 ^ 24 ≤ n then { p with out := p.out ++ [flitOf p.txSeq p.rxSeq 2#4 free 0], idle := 0 } else p

/-- The next data flit goes out while the far end has granted a credit and the replay buffer of 2,048 flits has room (R478). -/
def Port.sendData (p : Port) (free : BitVec 8) : Port :=
  match p.txq with
  | [] => p
  | d :: l =>
    if p.st == .up && decide (0 < p.credits) && decide (p.replay.length < 2048) then
      let f := flitOf (p.txSeq + 1) p.rxSeq 1#4 free d
      { p with txq := l, txSeq := p.txSeq + 1, credits := p.credits - 1, replay := p.replay ++ [f] }.emit 1#4 f free
    else p

/-- Every data flit that can go out does. -/
def Port.pump (p : Port) (free : BitVec 8) : Port := p.txq.foldl (fun p _ => p.sendData free) p

/-- Data for a port waits to be sent. -/
def State.sendOn (s : State) (n : Nat) (d : BitVec 1920) : State :=
  { s.modPort n (fun p => { p with txq := p.txq ++ [d] }.pump (Config.free 8 s.freeN)) with freeN := s.freeN + 1 }

/-- A negative acknowledgement goes out: it names the last good SEQ (R478). -/
def Port.sendNak (p : Port) (free : BitVec 8) : Port :=
  { p with nak := true }.emit 3#4 (flitOf p.txSeq p.rxSeq 3#4 free 0) free

/-- The flits up to an acknowledged SEQ leave the replay buffer; the oldest that stays is a new one if any left. -/
def Port.acked (p : Port) (ack : BitVec 12) : Port :=
  let kept := laterThan ack p.replay
  { p with replay := kept, tries := if kept.length < p.replay.length then 0 else p.tries }

/-- Whether a negative acknowledgement makes the port fail: it would replay a flit that 16 replays in succession have not brought
over (R479). -/
def Port.exhausted (p : Port) : Bool := !p.replay.isEmpty && decide (16 ≤ p.tries)

/-- Every flit of the replay buffer goes out again; each replay counts (R478, R479). -/
def Port.again (p : Port) (free : BitVec 8) : Port :=
  if p.replay.isEmpty then p
  else p.replay.foldl (fun p f => p.emit 1#4 f free) { p with tries := p.tries + 1, retry := sat32 (p.retry + 1) }

/-- A good flit that is no NAK: its acknowledgement and credits count, and data in SEQ order is delivered, once each; a later SEQ
tells that one is missing (R478; log 42). -/
def Port.take (p : Port) (f : BitVec 2048) (free : BitVec 8) : Port :=
  let p := p.acked (flitAck f)
  let p := { p with credits := p.credits + flitCredits f }
  let ahead := decide ((flitSeq f - p.rxSeq).toNat < 2048) && flitSeq f != p.rxSeq
  let p :=
    if flitType f ≠ 1 then p
    else if flitSeq f = p.rxSeq + 1#12 then { p with rxSeq := flitSeq f, rx := p.rx ++ [flitPayload f], nak := false }
    else if ahead && !p.nak then p.sendNak free
    else p
  p.pump free

end Sys2Proof.Machine
end

