-- ==== Sys2Proof/Machine/CopyOps.lean ====
section
/-! DEFINITION. The CP slot and the events of its engine: copy starts, handle operations, completion, stops, resume and
abort (R121 to R124, R132, R135, R274 to R295, R437 to R439). -/

namespace Sys2Proof.Machine

open Sys2Proof

/-! ## Handles and channels -/

/-- The word of a handle (R121). -/
def hstCode : HState → Nat
  | .free => 0 | .filling => 1 | .full => 2 | .draining => 3

def Handle.word (h : Handle) : Word :=
  BitVec.ofNat 64 (hstCode h.st + h.offset % 2 ^ 24 * 2 ^ 24 + h.lsize % 32 * 2 ^ 48 + boolBit h.flt 53 +
    h.err.toNat * 2 ^ 56)

/-- The handles that a copy names: destination and source. -/
def copyHd : Instr → Option (Fin 64)
  | .cpy f | .cpyxPack f | .cpyxUnpack f | .cpyf f => f.hd
  | .cpyg f => f.cp.hd
  | .cpys f | .cpyd f => f.cp.hd
  | .cpyr f => f.cp.hd
  | .coll f => f.cp.hd
  | .cpfill f => f.hd
  | .cpmark f => f.hd
  | _ => none

def copyHs : Instr → Option (Fin 64)
  | .cpy f | .cpyxPack f | .cpyxUnpack f | .cpyf f => f.hs
  | .cpyg f => f.cp.hs
  | .cpys f | .cpyd f => f.cp.hs
  | .cpyr f => f.cp.hs
  | .coll f => f.cp.hs
  | _ => none

def State.modHandle (s : State) (g : Nat) (h : Option (Fin 64)) (f : Handle → Handle) : State :=
  match h with
  | none => s
  | some n => s.setHandle g n.val (f ((s.ctx g).handle n.val))

/-- The channels of a core changed. -/
def State.modChan (s : State) (core ch : Nat) (f : Chan → Chan) : State :=
  s.modCore core (fun q => { q with ch := Tab.put ch (f (Tab.get Chan.reset ch q.ch)) q.ch })

/-- The channel that holds a copy. -/
def State.chanOf (s : State) (c : Copy) : Nat :=
  ((List.range 4).find? (fun ch => (s.chan (coreOf c.gcid) ch).copies.any (fun d => d.gcid == c.gcid && d.seq == c.seq))).getD 0

/-- A copy leaves its channel, and its ranges the scoreboard (R135, R136). -/
def State.dropCopy (s : State) (c : Copy) : State :=
  (s.modChan (coreOf c.gcid) (s.chanOf c) (fun h =>
    { h with copies := h.copies.filter (fun d => !(d.gcid == c.gcid && d.seq == c.seq)) })).unrecord c

/-- Whether a CPYD has completed and waits for the invalidations of its remaps to retire (R278, R289). -/
def Copy.finished (c : Copy) : Bool :=
  match c.op with
  | .cpyd _ => Tab.get false 0 c.rows
  | _ => false

/-- Whether a read of a DRAINING handle's region that started before the handle became so has not completed, the copy that names
the handle as its source among them (R122). -/
def State.handleRead (s : State) (g n : Nat) : Bool :=
  let h := (s.ctx g).handle n
  let region : List Rg := if h.lsize = 0 then [] else [⟨.sp (clusterOf g), h.offset, h.offset + 2 ^ h.lsize⟩]
  s.cores.any (fun q => q.2.ch.any (fun c => c.2.copies.any (fun d =>
    !d.finished && ((d.gcid == g && (copyHs d.op).map Fin.val == some n) || (decide (d.no < h.mark) && meet d.srcRgs region)))))

/-- A DRAINING handle becomes FREE once no such read is left (R122). -/
def State.drained (s : State) (g n : Nat) : State :=
  let h := (s.ctx g).handle n
  if h.st == .draining && !s.handleRead g n then s.setHandle g n { h with st := .free } else s

/-- The source handle of a copy that has completed or been aborted becomes FREE, unless other reads of its region hold it
(R122, R278, R438). -/
def State.freeSource (s : State) (c : Copy) : State :=
  match copyHs c.op with
  | some n => s.drained c.gcid n.val
  | none => s

/-- A copy completes: HD FULL, HS FREE (R278); it is no longer in its channel, or has finished there. -/
def State.finishCopy (s : State) (c : Copy) : State :=
  (s.modHandle c.gcid (copyHd c.op) (fun h => { h with st := .full, flt := false })).freeSource c

/-- A copy retires complete. -/
def State.retire (s : State) (c : Copy) : State :=
  let s := s.dropCopy c
  if c.finished then s else s.finishCopy c

/-- A CPYD completes when its last byte is written (R278). -/
def State.finishDedup (s : State) (c : Copy) : State × Copy :=
  match c.op with
  | .cpyd _ =>
    if c.dedupDone && !c.finished then
      let c := { c with rows := Tab.put 0 true c.rows }
      ((s.putCopy c).finishCopy c, c)
    else (s, c)
  | _ => (s, c)

/-- An entry of a core's queue leaves it. -/
def State.dropTrap (s : State) (core n : Nat) : State :=
  s.modCore core (fun q => { q with trapQ := q.trapQ.filter (fun m => m != n) })

/-- A copy is aborted with a code: HD takes it, or else the channel, and HS is FREE once the reads of its region are over (R122,
R280, R438). A record of its stop that still waits goes with it (R476; log 29). -/
def State.abort (s : State) (c : Copy) (err : BitVec 8) : State :=
  let ch := s.chanOf c
  let s := if c.stop.isSome then s.dropTrap (coreOf c.gcid) (8 + ch) else s
  let s := s.dropCopy c
  let s := match (copyHd c.op) with
    | some _ => s.modHandle c.gcid (copyHd c.op) (fun h => { h with st := .free, flt := false, err := err })
    | none => s.modChan (coreOf c.gcid) ch (fun h => { h with err := err })
  s.freeSource c

/-- CPSTOPc of a channel (R437). -/
def State.cpstop (s : State) (core ch : Nat) : Word :=
  match (s.chan core ch).copies with
  | [] => 0
  | c :: _ =>
    match c.stop with
    | none => 0
    | some st =>
      BitVec.ofNat 64 (2 ^ 63 + st.cause % 256 * 2 ^ 52 + c.gcid % 4 * 2 ^ 50 +
        (match (copyHd c.op) with
          | some h => 2 ^ 49 + h.val * 2 ^ 43
          | none => 0))

/-- CPFADc of a channel. -/
def State.cpfad (s : State) (core ch : Nat) : Word :=
  match (s.chan core ch).copies with
  | [] => 0
  | c :: _ =>
    match c.stop with
    | none => 0
    | some st => BitVec.ofNat 64 st.addr

/-- The record of a stopped copy; it waits, as 8 + channel in the core's queue, while the arbiter is full (R279, R476). -/
def State.stopEvent (s : State) (core ch : Nat) : State :=
  match (s.chan core ch).copies with
  | [] => s
  | c :: _ =>
    if c.stop.isNone then s
    else if !s.arbRoom (dieOf c.gcid) then s.modCore core (fun q => { q with trapQ := q.trapQ ++ [8 + ch] })
    else
      let pay : BitVec 256 := (0#64 ++ BitVec.ofNat 64 ch ++ s.cpfad core ch ++ s.cpstop core ch : BitVec 256)
      s.offer ⟨2, some c.part, dieOf c.gcid, some c.gcid, ltagOn s core, pay⟩

/-! ## Copy starts (R275, R277) -/

/-- The side of a generator: an error is REGRANGE or ILLOP. `aux` is true for an index list or table.
SPACE 3 reaches the Mantel (R277; against R130, log 45). -/
def State.sideOf (s : State) (g : Gen) (h : Option (Fin 64)) (aux : Bool) : Except Nat Side :=
  let inRegion (cl : Nat) : Except Nat Side :=
    match s.regionAt cl g.base.toNat with
    | none => .error cRegrange
    | some r => .ok (.sp cl r.off (2 ^ r.lsize))
  match g.space with
  | 0 => .ok .mem
  | 1 =>
    if aux then inRegion (clusterOf s.cur)
    else
      match h with
      | none => .error cIllop
      | some n =>
        let q := s.me.handle n.val
        if q.lsize ≠ 0 && decide (q.offset ≤ g.base.toNat) && decide (g.base.toNat < q.offset + 2 ^ q.lsize) then
          .ok (.sp (clusterOf s.cur) q.offset (2 ^ q.lsize))
        else .error cIllop
  | 2 =>
    match s.launchOn (coreOf s.cur) with
    | none => .error cRegrange
    | some (_, l) => if g.vcl < l.nvcl then inRegion (l.phys g.vcl) else .error cRegrange
  | _ => .ok (.mantel (dieOf s.cur))

/-- What a copy start names: generators (none where the copy has no such side), handles, operand. -/
structure Start where
  op : Instr
  ch : Fin 4
  gs : Option (Fin 16)
  gd : Option (Fin 16)
  gx : Option (Fin 16)
  sx : Word

/-- The side of an optional generator. -/
def State.startSide (s : State) (g : Option (Fin 16)) (h : Option (Fin 64)) (aux : Bool) : Except Nat Side :=
  match g with
  | none => .ok .mem
  | some n => s.sideOf (s.gen n) h aux

def eqErr (c : Nat) : Except Nat Side → Bool
  | .error e => e == c
  | .ok _ => false

/-- The translations that a copy of a core keeps as it starts: what the TLBs hold, without what an invalidation ahead of it
covers (R174). -/
def State.heldNow (s : State) (core part : Nat) : List Leaf :=
  (s.tlbOf core part).filter (fun l => !s.invals.any (fun i => !i.done && i.cores.contains core && i.covers l))

/-- Whether a channel has no place for one more copy of the context, which may hold a reservation (R275). -/
def State.chanFull (s : State) (ch : Nat) : Bool :=
  !s.me.resv.contains (.chan ch) &&
    decide (16 ≤ (s.chan (coreOf s.cur) ch).copies.length + (s.me.resv.filter (fun r => r == .chan ch)).length)

/-- A COPY START (R275): the checks of R426 in order, then, at commit, HD FILLING, HS DRAINING and the copy in its
channel. A full channel keeps a lenient start waiting, but not one that has a handle's error code to raise (R20).
A CPMARK names no generator: its stream is that of the zero generator, 0 (R134; log 31). `legal` is the entry's own condition on the generators; `grp` what a COLL or CPYD keeps of its group or region. -/
def startCopy (s : State) (q : Start) (legal : (gs gd gx : Gen) → Bool) (grp : Option (List Nat)) : SlotR :=
  let hd := copyHd q.op
  let hs := copyHs q.op
  let ss := s.startSide q.gs hs false
  let ds := s.startSide q.gd hd false
  let xs := s.startSide q.gx none true
  let g (n : Option (Fin 16)) : Gen := match n with
    | some n => s.gen n
    | none => Gen.zero
  let sides := [ss, ds, xs]
  let err (h : Option (Fin 64)) : Bool := match h with
    | some n => (s.me.handle n.val).err != 0#8
    | none => false
  let inSt (h : Option (Fin 64)) (st : HState) : Bool := match h with
    | some n => (s.me.handle n.val).st == st
    | none => true
  chk (s.me.chmask.getLsbD q.ch.val && !sides.any (eqErr cRegrange)) cRegrange (
  chk (!sides.any (eqErr cIllop) && (g q.gs).dimsRaw != 7 && (g q.gd).dimsRaw != 7 && (g q.gx).dimsRaw != 7 &&
    legal (g q.gs) (g q.gd) (g q.gx) && grp.isSome) cIllop (
  if s.chanFull q.ch.val && s.strict s.cur then .trap { cause := cCpfull, ch := q.ch.val }
  else if s.chanFull q.ch.val && !(err hd || err hs) then .block
  else
    chk (q.gd.isNone || (g q.gd).space != 3) cWswrite (
    if err hd then .trap { cause := cCopyfault, hdl := hd.map Fin.val }
    else if err hs then .trap { cause := cCopyfault, hdl := hs.map Fin.val }
    else if (s.chan (coreOf s.cur) q.ch.val).err != 0#8 then .trap { cause := cCopyfault, ch := q.ch.val }
    else if !(inSt hd .free && inSt hs .full) then .block
    else
      match ss, ds, xs with
      | .ok sside, .ok dside, .ok xside =>
        let c : Copy :=
          { op := q.op, gcid := s.cur, seq := s.me.copySeq, no := s.copyNo, part := s.partOf s.cur, priv := s.me.view.priv, gs := g q.gs,
            gd := g q.gd, gx := g q.gx, sx := q.sx, sside := sside, dside := dside, xside := xside, grp := grp.getD [],
            pos := 0, aux := [], rows := [], staging := [], held := s.heldNow (coreOf s.cur) (s.partOf s.cur),
            snap := [s.dram], stop := none, marks := [] }
        let s := { s with copyNo := s.copyNo + 1 }
        let s := s.modMe (fun m => { m with copySeq := m.copySeq + 1, resv := dropResv (.chan q.ch.val) m.resv })
        let s := s.modHandle s.cur hd (fun h => { h with st := .filling, flt := false })
        let s := s.modHandle s.cur hs (fun h => { h with st := .draining, mark := s.copyNo })
        .ok ((s.modChan (coreOf s.cur) q.ch.val (fun h => { h with copies := h.copies ++ [c] })).recordCopy c)
      | _, _, _ => .trap (trapOf cIllop))))

/-- A copy start with a source and a destination. -/
def cpyStart (s : State) (op : Instr) (f : FCpy) (gx : Option (Fin 16)) (sx : Word) (legal : Gen → Gen → Gen → Bool)
    (grp : Option (List Nat)) : SlotR :=
  startCopy s ⟨op, f.ch, some f.gs, some f.gd, gx, sx⟩ legal grp

/-- Equal nests (R276). -/
def sameNest (gs gd _gx : Gen) : Bool := gs.total == gd.total

/-- The pages of a page layout (R287): none where the layout is another. -/
def pageLayout (g : Gen) : Bool :=
  g.dims == 1 && g.d0.stp == 8#48 && g.origin.toNat % 4096 == 0 && g.total % 512 == 0

def execCpy (f : FCpy) (s : State) : Out :=
  runHandle s f.c none [] (0, 0) (fun s _ => cpyStart s (.cpy f) f none 0 sameNest (some []))

/-- CPYG (R282, R283). -/
def execCpyg (f : FCpyg) (s : State) : Out :=
  runHandle s f.cp.c none [f.sx] (0, 0) (fun s vs =>
    cpyStart s (.cpyg f) f.cp (some f.gx) (vs.getD 0 0) (fun gs gd gx =>
      decide (gs.dimsRaw ≤ 5) &&
        (match f.blk with
          | none => gd.total == gx.total * gs.total
          | some lb => gd.total % gs.total == 0 && decide (gd.total / gs.total ≤ gx.total * 2 ^ lb.val))) (some []))

/-- CPYS (R284). -/
def execCpys (f : FCpyx) (s : State) : Out :=
  runHandle s f.cp.c none [] (0, 0) (fun s _ =>
    cpyStart s (.cpys f) f.cp (some f.gx) 0 (fun gs gd gx =>
      decide (gd.dimsRaw ≤ 5) && gs.total == gx.total * gd.total) (some []))

/-- CPYX (R286): only one side's counts are used. -/
def execCpyxPack (f : FCpy) (s : State) : Out :=
  runHandle s f.c none [] (0, 0) (fun s _ => cpyStart s (.cpyxPack f) f none 0 (fun _ _ _ => true) (some []))
def execCpyxUnpack (f : FCpy) (s : State) : Out :=
  runHandle s f.c none [] (0, 0) (fun s _ => cpyStart s (.cpyxUnpack f) f none 0 (fun _ _ _ => true) (some []))

/-- CPYF (R287). -/
def execCpyf (f : FCpy) (s : State) : Out :=
  runHandle s f.c none [] (0, 0) (fun s _ =>
    cpyStart s (.cpyf f) f none 0 (fun gs gd _ => pageLayout gs && gd.total == gs.total / 512) (some []))

/-- CPYD (R288, R290). -/
def execCpyd (f : FCpyx) (s : State) : Out :=
  runHandle s f.cp.c none [] (0, 0) (fun s _ =>
    let h := f.cp.hd.map (fun n => s.me.handle n.val)
    cpyStart s (.cpyd f) f.cp (some f.gx) 0 (fun gs gd gx =>
      let t := gx.total
      pageLayout gs && pageLayout gd && gd.space == 0 && gs.total == gd.total && decide (gx.space ≤ 1) && gx.dims == 1 &&
        gx.d0.stp == 32#48 && decide (4 ≤ t) && t == 2 ^ Nat.log2 t &&
        (match h with
          | none => true
          | some q => q.lsize != 0 && decide (8 * (gs.total / 512) ≤ 2 ^ q.lsize)))
      (some (match h with
        | none => []
        | some q => [q.offset])))

/-- CPYR (R291, R292). -/
def execCpyr (f : FCpyr) (s : State) : Out :=
  runHandle s f.cp.c none [] (0, 0) (fun s _ => cpyStart s (.cpyr f) f.cp none 0 sameNest (some []))

/-- A group-table entry read as a COLL starts (R480): group size, first local rank, local ranks, members, ports of the routes;
none where the start raises ILLOP. -/
def State.group (s : State) (part n lcid : Nat) : Option (List Nat) :=
  let e := leNat (s.memBytes .dram ((s.part part).grpbase.toNat / 4096 * 4096 + 32 * n) 32)
  let gsize := bits e 16 16
  let rbase := bits e 32 16
  let nloc := bits e 48 16
  let members := (List.range nloc).map (fun j => leNat (s.memBytes .dram (bits e 64 64 + 2 * j) 2))
  let routes := (List.range (bits e 192 16)).map (fun j => leNat (s.memBytes .dram (bits e 128 64 + 8 * j) 8))
  let remote (r : Nat) : Bool := !(decide (rbase ≤ r) && decide (r < rbase + nloc))
  let routed (r : Nat) : Bool := routes.any (fun t => decide (bits t 0 12 ≤ r) && decide (r ≤ bits t 12 12))
  let up := routes.all (fun t => (s.port (bits t 32 4)).st == .up)
  if bits e 0 1 = 1 && decide (1 ≤ gsize) && decide (gsize ≤ 4096) && members.contains lcid &&
      (List.range gsize).all (fun r => !remote r || routed r) && up then
    some (gsize :: rbase :: nloc :: (members ++ routes.map (fun t => bits t 32 4)))
  else none

/-- A member of a group issues its part of a collective that has been aborted already: its copy takes the code as it starts
(R280, R293). -/
def State.collLate (s : State) (g seq grp : Nat) : State :=
  match s.launchOn (coreOf g) with
  | none => s
  | some (k, l) =>
    match l.collGone.find? (fun p => p.1 == grp && p.2.1 == s.lcid g), (s.copiesOf g).find? (fun c => c.seq == seq) with
    | some p, some c => (s.setLaunch k { l with collGone := l.collGone.erase p }).abort c p.2.2
    | _, _ => s

/-- COLL (R293, R480). -/
def execColl (f : FColl) (s : State) : Out :=
  runHandle s f.cp.c none [f.sx] (0, 0) (fun s vs =>
    let grp := (vs.getD 0 0).toNat % 256
    match cpyStart s (.coll f) f.cp none (vs.getD 0 0) sameNest (s.group (s.partOf s.cur) grp (s.lcid s.cur)) with
    | .ok t => .ok (t.collLate s.cur s.me.copySeq grp)
    | r => r)

/-- CPFILL (R281). -/
def execCpfill (f : FCpfill) (s : State) : Out :=
  runHandle s f.c none [f.sx] (0, 0) (fun s vs =>
    startCopy s ⟨.cpfill f, f.ch, none, some f.gd, none, vs.getD 0 0⟩ (fun _ _ _ => true) (some []))

/-- CPMARK (R295). -/
def execCpmark (f : FCpmark) (s : State) : Out :=
  runHandle s f.c none [] (0, 0) (fun s _ =>
    startCopy s ⟨.cpmark f, f.ch, none, none, none, 0⟩ (fun _ _ _ => true) (some []))

/-! ## Handle operations (R294) -/

def execHset (f : FHset) (s : State) : Out :=
  runHandle s f.c none [f.sx] (0, 0) (fun s vs =>
    let off := (vs.getD 0 0).toNat % 2 ^ 24
    let inside := match s.regionAt (clusterOf s.cur) off with
      | some r => decide (off + 2 ^ f.lsize.val ≤ r.off + 2 ^ r.lsize)
      | none => false
    chk (off % 2 ^ f.lsize.val = 0 && inside) cRegrange (
      needHandle s f.hd.val .free (fun h =>
        .ok (s.setHandle s.cur f.hd.val { h with offset := off, lsize := f.lsize.val }))))

def execHdrain (f : FH) (s : State) : Out :=
  runHandle s f.c none [] (0, 0) (fun s _ =>
    needHandle s f.hd.val .full (fun h => .ok (s.setHandle s.cur f.hd.val { h with st := .draining, mark := s.copyNo })))

def execHfree (f : FH) (s : State) : Out :=
  runHandle s f.c none [] (0, 0) (fun s _ =>
    needHandle s f.hd.val .full (fun h => .ok (s.setHandle s.cur f.hd.val { h with st := .free })))

def execHq (f : FHq) (s : State) : Out :=
  runSlot s f.c none [] false (xCnt f.d) (fun s _ =>
    .ok (s.result .handle (.x f.d.val (s.me.handle f.hd.val).word)))

def execHwait (f : FHwait) (s : State) : Out :=
  runHandle s f.c none [] (0, 0) (fun s _ => needHandle s f.hd.val f.st (fun _ => .ok s))

/-! ## Events of the engine -/

/-- Whether two collectives agree in nest size, operation and format (R293). -/
def collAgree (a b : Copy) : Bool :=
  match a.op, b.op with
  | .coll f, .coll g => a.gs.total == b.gs.total && f.op == g.op && f.fmt == g.fmt
  | _, _ => false

/-- A collective is aborted on every local member of its group: those that have not issued it yet take the code as they come
(R280, R293). -/
def State.collAbort (s : State) (k : Nat) (l : Launch) (grp : Nat) (q : CollGroup) (code : BitVec 8) : State :=
  let here := q.members.filterMap (s.collOf k l grp)
  let gone := (q.members.filter (fun m => (s.collOf k l grp m).isNone)).map (fun m => (grp, m, code))
  here.foldl (fun s d => s.abort d code) (s.setLaunch k { l with collGone := l.collGone ++ gone })

/-- The number of a collective, given as it is first combined. -/
def State.collNo (s : State) (c : Copy) : Word :=
  match Tab.find collInst c.aux with
  | some v => v
  | none => BitVec.ofNat 64 (s.freeN * 256 + c.sx.toNat % 256)

/-- As a collective is first combined, its values go to the ports of its group's routes; how many flits they fill and how is open,
and the model sends one on each (R481; log 42). -/
def State.collSend (s : State) (c : Copy) (q : CollGroup) : State :=
  if (Tab.find collInst c.aux).isSome then s
  else q.ports.eraseDups.foldl (fun s n => s.sendOn n (Config.free 1920 s.freeN)) s

/-- A context's collective in progress goes on: a mismatch aborts it on every participant, with a code that is not 0 and
otherwise open, that of a remote rank being open too; with every local rank's copy there, what all have read is combined
(R293; log 13). -/
def State.collTry (s : State) (g : Nat) (q : CollGroup) (grp : Nat) : State :=
  match s.launchOn (coreOf g) with
  | none => s
  | some (k, l) =>
    match s.collOf k l grp (s.lcid g) with
    | none => s
    | some c =>
      let here := q.members.filterMap (s.collOf k l grp)
      let inst := s.collNo c
      let far := if q.members.length < q.gsize then Config.collMismatch inst else 0
      let code : BitVec 8 := if Config.free 8 s.freeN = 0#8 then 1#8 else Config.free 8 s.freeN
      let t := { s with freeN := s.freeN + 1 }
      if here.any (fun d => !collAgree c d) then t.collAbort k l grp q code
      else if far ≠ 0#8 then t.collAbort k l grp q far
      else
        match c.op with
        | .coll f =>
          if here.length = q.members.length then (t.collSend c q).collCombine f q here inst else s
        | _ => s

/-- What a copy that has run does for the collective that it is part of. -/
def State.collStep (s : State) (c : Copy) : State :=
  match c.op with
  | .coll _ => s.collTry c.gcid c.group (c.sx.toNat % 256)
  | _ => s

/-- A copy stops (R279, R152). -/
def State.stopCopy (s : State) (core ch : Nat) (c : Copy) (st : Stop) : State :=
  let s := s.putCopy { c with stop := some st }
  (s.modHandle c.gcid (copyHd c.op) (fun h => { h with flt := true })).stopEvent core ch

/-- The head copy of a channel runs for at most `budget` bytes, elements or pages: it completes, stops or goes on. A
stopped copy, and one that waits on an earlier copy, moves nothing (R135, R137, R173). -/
def State.runChannel (s : State) (core ch budget : Nat) : State :=
  match (s.chan core ch).copies with
  | [] => s
  | c :: _ =>
    if c.stop.isSome || s.copyWaits c then s
    else
      let s := s.perform (fun w => w.gcid == c.gcid && w.strm == c.gd.strm)
      let (e, done) := runCopy ⟨s, c, none⟩ budget
      let s := { e.s with freeN := e.s.freeN + 1 }
      match e.stop with
      | some st => (s.stopCopy core ch e.c st).collStep e.c
      | none =>
        let (s, c) := s.finishDedup e.c
        if done then s.retire c else (s.putCopy c).collStep c

def execCopyComplete (core : Fin 256) (ch : Fin 4) (budget : Nat) (s : State) : Out :=
  .next (s.runChannel core.val ch.val budget)

/-- COPY_STOP: the head copy runs until it stops; where it would not stop, nothing happens. -/
def execCopyStop (core : Fin 256) (ch : Fin 4) (s : State) : Out :=
  let t := s.runChannel core.val ch.val (2 ^ 64)
  match (t.chan core.val ch.val).copies with
  | c :: _ => if c.stop.isSome then .next t else .next s
  | [] => .next s

/-- A DRAINING handle becomes FREE once no copy reads its region (R122). -/
def execHandleDrainComplete (ctx : Fin 1024) (n : Fin 64) (s : State) : Out := .next (s.drained ctx.val n.val)

/-- Whether the record of a channel's stopped copy still waits for room; the copy then stays stopped (R476; log 29). -/
def State.stopUnsaid (s : State) (core ch : Nat) : Bool := (s.core core).trapQ.contains (8 + ch)

/-- Resume: the stopped head copy goes on from its kept positions, with the tables as they are now for what it could not reach
(R174, R438, R439; log 20). -/
def State.resumeCopy (s : State) (core ch : Nat) : State :=
  match (s.chan core ch).copies with
  | [] => s
  | c :: _ =>
    if c.stop.isSome && !s.stopUnsaid core ch then
      (s.putCopy { c with stop := none, snap := c.snap ++ [s.dram] }).modHandle c.gcid (copyHd c.op) (fun h => { h with flt := false })
    else s

/-- Abort: the stopped head copy retires with a code, 0 being written as 1 (R438). Of a collective this aborts the one copy: the
other participants wait on, and meet its context's next COLL on the group (log 31). -/
def State.abortCopy (s : State) (core ch : Nat) (err : BitVec 8) : State :=
  match (s.chan core ch).copies with
  | [] => s
  | c :: _ => if c.stop.isSome && !s.stopUnsaid core ch then s.abort c (if err = 0#8 then 1#8 else err) else s

def execCopyResume (core : Fin 256) (ch : Fin 4) (s : State) : Out := .next (s.resumeCopy core.val ch.val)
def execCopyAbort (core : Fin 256) (ch : Fin 4) (err : BitVec 8) (s : State) : Out :=
  .next (s.abortCopy core.val ch.val err)

/-- A CPCMD write (R437, R438). -/
def State.cpcmd (s : State) (core : Nat) (v : Word) : State :=
  let ch := bits v.toNat 0 2
  match bits v.toNat 16 2 with
  | 1 => s.resumeCopy core ch
  | 2 => s.abortCopy core ch (BitVec.ofNat 8 (bits v.toNat 8 8))
  | _ => s

end Sys2Proof.Machine
end

