-- ==== Sys2Proof/Machine/LoadStore.lean ====
section
/-! DEFINITION. The LD and ST slots: tile and scalar accesses, touch windows, acquire, release and fence, atomics, scratchpad
allocation, routing counters, Chimney pushes (R138, R155 to R157, R169, R252 to R273). -/

namespace Sys2Proof.Machine

open Sys2Proof

/-! ## Tiles (R255 to R259) -/

/-- A byte of a tile: its address on the side and the bits of it that lie inside the edge. -/
abbrev TByte := Nat × Nat

/-- The shape of a tile: rows, bytes per row, element width, elements per row (R256). -/
structure TShape where
  m : Nat
  b : Nat
  w : Nat
  e : Nat
deriving DecidableEq, Repr

def tshape (nrow nu : Fin 32) (fmt : Fmt) : TShape :=
  let b := 16 * (nu.val + 1)
  let w := fmtWidth fmt
  ⟨nrow.val + 1, b, w, 8 * b / w⟩

/-- The registers that a tile occupies. -/
def TShape.regs (t : TShape) : Nat := (t.m * t.b + 511) / 512

/-- Whether a coordinate of dimension `d` is outside the edge (R257). -/
def Gen.past (g : Gen) (d c : Nat) : Bool := (g.dim d).bnd != 0#32 && decide ((g.dim d).bnd.toNat ≤ c)

/-- Whether dimensions 2 to 4 put the whole tile outside the edge. -/
def Gen.past234 (g : Gen) : Bool := [2, 3, 4].any (fun d => g.past d (g.dim d).idx.toNat)

/-- The bits of byte `b` of a row whose elements `inside` accepts; bits beyond the last element go with it (R256). -/
def maskByte (t : TShape) (inside : Nat → Bool) (b : Nat) : Nat :=
  (List.range 8).foldl (fun m i => if inside (min ((8 * b + i) / t.w) (t.e - 1)) then m + 2 ^ i else m) 0

/-- A row of consecutive bytes from an address. -/
def rowBytes (sd : Side) (t : TShape) (a : Word) (edge : Bool) (inside : Nat → Bool) : List TByte :=
  (List.range t.b).map (fun b => (sd.at (a + BitVec.ofNat 64 b), if edge then maskByte t inside b else 255))

/-- The address of row `i`. -/
def Gen.rowAddr (g : Gen) (i : Int) : Word := g.origin + g.stride5 i

/-- The bytes of a tile, row by row (R256, R257). -/
def tileBytes (sd : Side) (g : Gen) (t : TShape) : List (List TByte) :=
  (List.range t.m).map (fun (i : Nat) =>
    rowBytes sd t (g.rowAddr (i : Int)) g.edge (fun j =>
      !(g.past 0 (g.d0.idx.toNat * t.e + j) || g.past 1 (g.d1.idx.toNat * t.m + i) || g.past234)))

/-- The bytes of a transposed tile: element j of row i is source element (j, i) (R258). -/
def tileBytesT (sd : Side) (g : Gen) (t : TShape) : List (List TByte) :=
  let k := t.w / 8
  (List.range t.m).map (fun (i : Nat) => (List.range t.e).flatMap (fun (j : Nat) =>
    let out := g.edge && (g.past 0 (g.d0.idx.toNat * t.m + i) || g.past 1 (g.d1.idx.toNat * t.e + j) || g.past234)
    (List.range k).map (fun b =>
      (sd.at (g.rowAddr (j : Int) + BitVec.ofNat 64 (i * k + b)), if out then 0 else 255))))

/-- The bytes of a gather through an index vector (R259). -/
def gatherBytes (sd : Side) (g : Gen) (t : TShape) (vx : VReg) : List (List TByte) :=
  (List.range t.m).map (fun (i : Nat) =>
    let idx : Int := ((vx >>> (32 * i)).setWidth 32 : BitVec 32).toInt
    let gone := decide (idx = -1) || (g.edge && (decide (idx < 0) || g.past 1 idx.toNat || g.past234))
    if gone then (List.range t.b).map (fun _ => (0, 0))
    else rowBytes sd t (g.rowAddr idx) g.edge (fun j => !g.past 0 (g.d0.idx.toNat * t.e + j)))

/-- The side of a generator of a load or a store: an error is REGRANGE or ILLOP (R128, R255). -/
def State.tileSide (s : State) (g : Gen) (spaces : List Nat) : Except Nat Side :=
  if !spaces.contains g.space || g.dimsRaw == 6 || g.dimsRaw == 7 then
    (if spaces.contains g.space && g.space == 1 && (s.regionAt (clusterOf s.cur) g.base.toNat).isNone then .error cRegrange
      else .error cIllop)
  else
    match g.space with
    | 0 => .ok .mem
    | 1 =>
      match s.regionAt (clusterOf s.cur) g.base.toNat with
      | none => .error cRegrange
      | some r => .ok (.sp (clusterOf s.cur) r.off (2 ^ r.lsize))
    | _ => .ok (.mantel (dieOf s.cur))

/-- The addresses that a tile touches. -/
def touched (rows : List (List TByte)) : List Nat := (rows.flatten.filter (fun q => q.2 != 0)).map (·.1)

/-- The bytes of a tile read with their edges; `k` receives the rows. A read of a Mantel bank that is not assigned is PROT, one
of its poisoned bytes ECCU (R305), and one of a refreshing bank counts (R130, R131); a wait on a copy stalls (R137); the stream's earlier writes are performed first
(R168). -/
def State.readTile (s : State) (strm : Nat) (sd : Side) (rows : List (List TByte)) (k : State → List (List Byte) → SlotR) : SlotR :=
  let as := touched rows
  let cut (f : Nat → Byte) : List (List Byte) :=
    rows.map (fun r => r.map (fun q => if q.2 = 0 then 0#8 else f q.1 &&& BitVec.ofNat 8 q.2))
  match sd.asp with
  | none =>
    match s.mantelTrap as with
    | some t => .trap t
    | none => k ((s.inOrder s.cur strm).refreshStall s.cur (dieOf s.cur) as) (cut (s.mantelByte (dieOf s.cur)))
  | some asp =>
    if s.rangeWait s.cur false asp as then .stall
    else
      match s.check s.cur .load .read asp as with
      | .error t => .trap t
      | .ok ac =>
        k ((s.inOrder s.cur strm).applyAccess s.cur .read ac) (cut (fun a => s.ownByte s.cur (ac.at a).1 (ac.at a).2))

/-- Rows as a span of registers (R256). -/
def spanRegs (t : TShape) (rows : List (List Byte)) : List VReg :=
  toRegs t.regs (packN 8 (rows.flatten.map BitVec.toNat))

/-- A check of a vector destination or share: REGRANGE (R92, R99). -/
def State.okV (s : State) (v : VOp) (n : Nat) : Bool := (s.checkV v n).isNone

/-- A tile load into a run of registers (R255, R256): `lay` gives the bytes and `fmtOk` the MATFMT check. -/
def loadTile (s : State) (c : Common) (vd : VOp) (gn : Fin 16) (t : TShape) (spaces : List Nat) (k : LatClass)
    (fmtOk : Bool) (lay : Side → Gen → List (List TByte)) : Out :=
  runSlot s c none [] false (vcnt vd t.regs) (fun s _ =>
    let g := s.gen gn
    match s.tileSide g spaces with
    | .error e =>
      if e = cIllop && !s.okV vd t.regs then .trap (trapOf cRegrange) else .trap (trapOf e)
    | .ok sd =>
      chk (s.okV vd t.regs) cRegrange (
      chk fmtOk cMatfmt (
      s.readTile g.strm sd (lay sd g) (fun s rows => .ok (s.writeRun k vd (spanRegs t rows))))))

/-- The formats of a transposed read (R258). -/
def transFmt : Fmt → Bool
  | .bf16 | .fp16 | .e4m3 | .e5m2 | .int8 => true
  | _ => false

def execLdt (f : FM) (s : State) : Out :=
  let t := tshape f.nrow f.nu f.fmt
  loadTile s f.c f.vd f.gn t [1] .ldm (!f.t || transFmt f.fmt)
    (fun sd g => if f.t then tileBytesT sd g t else tileBytes sd g t)

def execLdtm (f : FM) (s : State) : Out :=
  let t := tshape f.nrow f.nu f.fmt
  loadTile s f.c f.vd f.gn t [0] .ldm true (fun sd g => tileBytes sd g t)

def execLdw (f : FM) (s : State) : Out :=
  let t := tshape f.nrow f.nu f.fmt
  loadTile s f.c f.vd f.gn t [3] .ldw true (fun sd g => tileBytes sd g t)

/-- LDO (R255); the Mantel by SPACE 3 (R130; log 45). -/
def execLdo (f : FM) (s : State) : Out :=
  let t := tshape f.nrow f.nu f.fmt
  loadTile s f.c f.vd f.gn t [0, 1, 3] .ldm true (fun sd g => tileBytes sd g t)

/-- Rows as a latch: row i at the low bytes of latch row i (R256). -/
def latchOf (rows : List (List Byte)) : LatchRows :=
  BitVec.ofNat 49152 (packN 1536 (rows.map (fun r => packN 8 (r.map BitVec.toNat))))

/-- LDL (R255, R256); the Mantel by SPACE 3 (R130; log 45). -/
def execLdl (f : FM) (s : State) : Out :=
  let t := tshape f.nrow f.nu f.fmt
  runSlot s f.c none [] false (0, 2) (fun s _ =>
    let g := s.gen f.gn
    let share := decide (f.vd.idx.val < s.me.lats.count)
    match s.tileSide g [0, 1, 3] with
    | .error e => if e = cIllop && !share then .trap (trapOf cRegrange) else .trap (trapOf e)
    | .ok sd =>
      chk share cRegrange (
      s.readTile g.strm sd (tileBytes sd g t) (fun s rows => .ok (s.result .ldm (.k f.vd.idx.val (latchOf rows))))))

/-- LDG (R259). -/
def execLdg (f : FMx) (s : State) : Out :=
  let t := tshape f.nrow f.nu f.fmt
  runSlot s f.c none [] false (vcnt f.vd t.regs) (fun s _ =>
    let g := s.gen f.gn
    let names := s.okV f.vd t.regs && s.okV f.vx 1
    match s.tileSide g [0, 1] with
    | .error e => if e = cIllop && !names then .trap (trapOf cRegrange) else .trap (trapOf e)
    | .ok sd =>
      chk names cRegrange (
      let vx := s.readV f.vx
      s.withDead [vx] (fun s =>
        s.readTile g.strm sd (gatherBytes sd g t vx.val) (fun s rows =>
          withPois [vx] (.ok (s.writeRun .ldm f.vd (spanRegs t rows)))))))

/-- A byte of a store at its place with the bits that it writes. -/
abbrev Cell := (Space × Nat) × Nat × Byte

/-- The bytes of a store one after another, the latest first: of one that is cut only its bits change what an earlier byte of the store
left there, or `old` (R256). -/
def layCells (old : Space × Nat → Byte) (l : List Cell) : List (Space × Nat × Byte) :=
  l.foldl (fun acc q =>
    if q.2.1 = 255 then (q.1.1, q.1.2, q.2.2) :: acc
    else
      let m := BitVec.ofNat 8 q.2.1
      let was := ((acc.find? (fun p => (p.1, p.2.1) == q.1)).map (·.2.2)).getD (old q.1)
      (q.1.1, q.1.2, (q.2.2 &&& m) ||| (was &&& ~~~m)) :: acc) []

/-- The places whose bytes a store writes in part only. -/
def cutPlaces (l : List Cell) : List (Space × Nat) :=
  ((l.filter (fun q => q.2.1 != 255)).map (·.1)).filter (fun p =>
    (l.filter (fun q => q.1 == p)).foldl (fun m q => m ||| q.2.1) 0 != 255)

/-- Bytes stored at places: only the bits inside the edge change (R256), and a byte that the store writes in part only keeps its poison
(R254, R462). Where rows overlap, the later one is stored last (log 41). -/
def State.storeTile (s : State) (strm : Nat) (asp : ASpace) (rows : List (List TByte)) (val : List Byte)
    (rs : List VRead) : SlotR :=
  let cells := (rows.flatten.zip val).filter (fun q => q.1.2 != 0)
  let as := cells.map (·.1.1)
  if s.rangeWait s.cur true asp as then .stall
  else
    match s.check s.cur .store .write asp as with
    | .error t => .trap t
    | .ok ac =>
      withPois rs (
        let t := s.applyAccess s.cur .write ac
        let l : List Cell := cells.map (fun q => (ac.at q.1.1, q.1.2, q.2))
        let t := t.commitStore s.cur strm (layCells (fun p => s.ownByte s.cur p.1 p.2) l).reverse
        .ok (((cutPlaces l).filter (fun p => s.poisoned p.1 p.2)).foldl (fun t p => t.poison p.1 p.2) t))

/-- The bytes of a run of registers. -/
def regBytes (vals : List VReg) (n : Nat) : List Byte := natLe n (ofRegs vals)

/-- A tile store (R255, R256). -/
def storeOp (f : FM) (s : State) (space : Nat) : Out :=
  let t := tshape f.nrow f.nu f.fmt
  runSlot s f.c none [] false (0, 0) (fun s _ =>
    let g := s.gen f.gn
    match s.tileSide g [space] with
    | .error e => if e = cIllop && !s.okV f.vd t.regs then .trap (trapOf cRegrange) else .trap (trapOf e)
    | .ok sd =>
      chk (s.okV f.vd t.regs) cRegrange (
      let rs := s.readRun f.vd t.regs
      s.withDead rs (fun s =>
        s.storeTile g.strm (sd.asp.getD .mem) (tileBytes sd g t) (regBytes (rs.map (·.val)) (t.m * t.b)) rs)))

def execStt (f : FM) (s : State) : Out := storeOp f s 1
def execSttm (f : FM) (s : State) : Out := storeOp f s 0

/-! ## Scalar accesses (R253, R260) -/

/-- The places of a checked scalar access; `k` receives them. -/
def State.access (s : State) (k : Acc) (cls : Cls) (store : Bool) (asp : ASpace) (as : List Nat)
    (go : Access → SlotR) : SlotR :=
  if s.rangeWait s.cur store asp as then .stall
  else
    match s.check s.cur k cls asp as with
    | .error t => .trap t
    | .ok ac => go ac

/-- A core-block register of the window as a privileged context reads it (R437, R468). -/
def State.windowRead (s : State) (part off : Nat) : Word :=
  if 0x1000000 ≤ off ∧ off < 0x1000000 + 256 * 4096 ∧ off % 8 = 0 then
    let core := (off - 0x1000000) / 4096
    let r := off % 4096
    if !(s.partCores part).contains core then 0
    else if r < 0x20 then s.cpstop core (r / 8)
    else if r < 0x40 then s.cpfad core (r / 8 - 4)
    else 0
  else 0

/-- TRESUME (R434, R469): a TRAPPED context resumes, but for one that a running delivered handler handles. -/
def State.tresume (s : State) (core i : Nat) : State :=
  let g := core * 4 + i
  let handled := (List.range 4).any (fun j =>
    let h := s.ctx (core * 4 + j)
    h.csr.hdl && h.csr.hctxV && decide (h.csr.hctxC.toNat = i) && h.st != .halted && h.st != .empty)
  if (s.ctx g).st == .trapped && !handled then
    (s.returnTrap g).modCore core (fun q => { q with trapQ := q.trapQ.filter (fun n => n != i && n != 4 + i) })
  else s

/-- A core-block register written by a privileged context (R437, R468). -/
def State.windowWrite (s : State) (part off : Nat) (v : Word) : State :=
  if 0x1000000 ≤ off ∧ off < 0x1000000 + 256 * 4096 then
    let core := (off - 0x1000000) / 4096
    if !(s.partCores part).contains core then s
    else if off % 4096 = 0x40 then s.cpcmd core v
    else if off % 4096 = 0x48 then s.tresume core (v.toNat % 4)
    else s
  else s

/-- The window offset of an aligned 8-byte access, if it lies in the register window (R467). -/
def windowOff (p : Space × Nat) (n : Nat) : Option Nat :=
  match p.1 with
  | .dram =>
    match zoneOf p.2 with
    | .regs o => if n = 8 ∧ o % 8 = 0 then some o else none
    | _ => none
  | _ => none

/-- LDS (R260); loads are performed in program order, where R168 leaves those of different streams unordered (log 49). -/
def execLds (f : FLds) (s : State) : Out :=
  runSlot s f.c none [f.a] false (xCnt f.d) (fun s vs =>
    let n := 2 ^ f.sz.val
    match s.sAddrs f.sp (vs.getD 0 0) f.off n with
    | .error e => .trap (trapOf e)
    | .ok (asp, as) =>
      s.access .load .read false asp as (fun ac =>
        let v := match windowOff (ac.at (as.headD 0)) n with
          | some o => s.windowRead (s.partOf s.cur) o
          | none => BitVec.ofNat 64 (leNat (s.readAccess s.cur ac as))
        let t := (s.inOrder s.cur f.strm.val).applyAccess s.cur .read ac
        .ok (t.result .lds (.x f.d.val v))))

def execSts (f : FSts) (s : State) : Out :=
  runSlot s f.c none [f.a, f.b] false (0, 0) (fun s vs =>
    let n := 2 ^ f.sz.val
    match s.sAddrs f.sp (vs.getD 0 0) f.off n with
    | .error e => .trap (trapOf e)
    | .ok (asp, as) =>
      s.access .store .write true asp as (fun ac =>
        let t := s.applyAccess s.cur .write ac
        match windowOff (ac.at (as.headD 0)) n with
        | some o => .ok (t.windowWrite (s.partOf s.cur) o (vs.getD 1 0))
        | none =>
          .ok (t.commitStore s.cur f.strm.val ((as.zip (natLe n (vs.getD 1 0).toNat)).map (fun q =>
            ((ac.at q.1).1, (ac.at q.1).2, q.2))))))

/-- WSPHASE (R131). -/
def execWsphase (f : FSd) (s : State) : Out :=
  runSlot s f.c none [] false (xCnt f.d) (fun s _ =>
    .ok (s.result .lds (.x f.d.val ((s.die (dieOf s.cur)).wsc.setWidth 64))))

/-- PRF: a hint that the C96 may ignore, and does (R262). -/
def execPrf (f : FPrf) (s : State) : Out := runSlot s f.c none [f.a, f.b] false (0, 0) (fun s _ => .ok s)

/-! ## Touch windows (R138, R139, R261) -/

/-- How far a walk that fails at an address may skip, else the leaf (R449). -/
def State.walkSkip (s : State) (asid va : Nat) : Nat → Nat → Sum Nat Leaf
  | 0, tbl =>
    match s.walk0 asid va tbl with
    | some l => .inr l
    | none => .inl (va / 4096 * 4096 + 4096)
  | lvl + 1, tbl =>
    let next := (va / 2 ^ (12 + 9 * (lvl + 1)) + 1) * 2 ^ (12 + 9 * (lvl + 1))
    if !inData tbl then .inl next
    else
      let e := s.pte (tbl + 8 * bits va (12 + 9 * (lvl + 1)) 9)
      if !eBit e 0 then .inl next
      else if eBit e 1 then
        (if lvl = 2 || eBit e 9 then .inl next
          else match mkLeaf asid va (2 ^ (12 + 9 * (lvl + 1))) e with
            | some l => .inr l
            | none => .inl next)
      else if bits e 52 12 ≠ 0 then .inl next
      else State.walkSkip s asid va lvl (eFrame e)

/-- The next address at or after `va` that a table maps, or that ends a hole of the tables. -/
def State.afterHole (s : State) (part va : Nat) : Nat :=
  if !canonical va then 2 ^ 64 - 2 ^ 47
  else
    match s.walkSkip (s.asidOf part) va 3 (bits (s.part part).xroot.toNat 12 40 * 4096) with
    | .inl next => next
    | .inr l => l.va + l.size

/-- What a touched range meets: the pages that have a translation, in ascending order, and the first fault. -/
structure Touched where
  pages : List Leaf
  fault : Option Trap

/-- The pages of a range from `a` to `e`; a range of more than 16 is not walked to its end (R139). A TLB may hold a page
that the tables no longer map (R456). -/
def State.touchPages (s : State) (k : Acc) (e : Nat) : Nat → Nat → Touched → Touched
  | 0, _, t => t
  | fuel + 1, a, t =>
    if e ≤ a ∨ 16 < t.pages.length then t
    else
      let fault (c : Nat) : Option Trap := t.fault <|> some { cause := c, addr := BitVec.ofNat 64 (a / 64 * 64) }
      let core := coreOf s.cur
      let part := s.partOf s.cur
      match s.xlate core part a with
      | none =>
        let held := ((s.tlbOf core part).map (·.va)).filter (fun v => decide (a < v))
        State.touchPages s k e fuel (held.foldl min (max (a + 1) (s.afterHole part a))) { t with fault := fault cPage }
      | some l =>
        let f := if l.permits k then (match l.place s.me.view.priv a with
          | .error c => fault c
          | .ok _ => t.fault) else fault cProt
        State.touchPages s k e fuel (l.va + l.size) ⟨t.pages ++ [l], f⟩

/-- A page pinned: one that is pinned already takes the new window, with the permissions of both, and keeps its old window
for the rest of the bundle (R138, R261). -/
def addPin (write : Bool) (ps : List Pin) (l : Leaf) : List Pin :=
  let old := ps.filter (fun p => p.va == l.va && decide (0 < p.left))
  ps.filter (fun p => p.va != l.va) ++
    (old.filter (fun p => decide (p.left ≤ 64))).map (fun p => { p with left := 1 }) ++
    [⟨l.va, l.size, write || old.any (fun p => p.write), 65, some l, false⟩]

/-- How many pages are pinned: those of the pins in their windows, the last bundle among them, and of those made in this bundle
(R138, R139; log 38). -/
def pinCount (ps : List Pin) : Nat := ((ps.filter (fun p => decide (0 < p.left))).map (·.va)).eraseDups.length

/-- TOUCH and TOUCHW (R138, R139, R261): more than 16 pins are ILLOP before any PAGE or PROT (R426; log 38). -/
def touchOp (f : FTouch) (s : State) (write : Bool) : Out :=
  runSlot s f.c none [f.a, f.b] false (0, 0) (fun s vs =>
    let a := (vs.getD 0 0 + f.off.signExtend 64).toNat
    let e := a + (vs.getD 1 0).toNat
    chk (decide (e ≤ 2 ^ 64)) cIllop (
    let r := s.touchPages (if write then .atomic else .load) e (2 ^ 52) a ⟨[], none⟩
    let ps := r.pages.foldl (addPin write) s.me.pins
    chk (decide (pinCount ps ≤ 16)) cIllop (
    match r.fault with
    | some t => .trap t
    | none =>
      let s := r.pages.foldl (fun s l => s.fill (coreOf s.cur) l) s
      .ok (s.modMe (fun c => { c with pins := if r.pages.isEmpty then c.pins else ps })))))

def execTouch (f : FTouch) (s : State) : Out := touchOp f s false
def execTouchw (f : FTouch) (s : State) : Out := touchOp f s true

/-! ## Atomics (R266, R267) -/

/-- An aligned flag or word of an atomic-class access: its address space and bytes. -/
def State.word (s : State) (sp : Bool) (base : Word) (off : BitVec 16) (w64 : Bool) : Except Nat (ASpace × List Nat) :=
  let n := if w64 then 8 else 4
  match s.sAddrs sp base off n with
  | .error e => .error e
  | .ok r => if (base + off.signExtend 64).toNat % n = 0 then .ok r else .error cIllop

/-- The context's own committed writes to the granules of an access are performed (R168), before an atomic-class access
gives their tags a state that others may take over (R145, R150). -/
def State.settle (s : State) (ac : Access) (as : List Nat) : State :=
  s.perform (fun w => w.gcid == s.cur && as.any (fun a =>
    let g := (ac.at a).2 / 64 * 64
    w.sp == (ac.at a).1 && decide (w.addr < g + 64) && decide (g < w.addr + w.bytes.length)))

/-- The word at the places of an atomic-class access: the performed bytes, or a register of the window (R467). -/
def State.readWord (s : State) (ac : Access) (as : List Nat) : Nat :=
  match windowOff (ac.at (as.headD 0)) as.length with
  | some o => (s.windowRead (s.partOf s.cur) o).toNat
  | none => leNat (as.map (fun a => s.memByte (ac.at a).1 (ac.at a).2))

/-- The word written there at once. -/
def State.writeWord (s : State) (ac : Access) (as : List Nat) (v : Nat) : State :=
  match windowOff (ac.at (as.headD 0)) as.length with
  | some o => s.windowWrite (s.partOf s.cur) o (BitVec.ofNat 64 v)
  | none => (as.zip (natLe as.length v)).foldl (fun s q => s.setByte (ac.at q.1).1 (ac.at q.1).2 q.2) s

/-- An atomic: the old word to D, the new word performed at once (R171). -/
def atomOp (f : FAtom) (more : List Src) (s : State) (op : (w : Nat) → (m v : Nat) → (c : Nat) → Nat) : Out :=
  runSlot s f.c none ([f.a, f.b] ++ more) false (xCnt f.d) (fun s vs =>
    match s.word f.sp (vs.getD 0 0) f.off f.w64 with
    | .error e => .trap (trapOf e)
    | .ok (asp, as) =>
      s.access .atomic .atomic true asp as (fun ac =>
        let w := 8 * as.length
        let s := (s.settle ac as).applyAccess s.cur .atomic ac
        let m := s.readWord ac as
        let v := op w m ((vs.getD 1 0).toNat % 2 ^ w) ((vs.getD 2 0).toNat % 2 ^ w)
        let s := s.writeWord ac as v
        .ok (s.result .lds (.x f.d.val (BitVec.ofNat 64 m)))))

def sgn (w x : Nat) : Int := signedOf w x

def execAadd (f : FAtom) (s : State) : Out := atomOp f [] s (fun w m v _ => (m + v) % 2 ^ w)
def execAmin (f : FAtom) (s : State) : Out := atomOp f [] s (fun w m v _ => if sgn w v < sgn w m then v else m)
def execAmax (f : FAtom) (s : State) : Out := atomOp f [] s (fun w m v _ => if sgn w m < sgn w v then v else m)
def execAminn (f : FAtom) (s : State) : Out := atomOp f [] s (fun _ m v _ => min m v)
def execAmaxn (f : FAtom) (s : State) : Out := atomOp f [] s (fun _ m v _ => max m v)
def execAand (f : FAtom) (s : State) : Out := atomOp f [] s (fun _ m v _ => m &&& v)
def execAor (f : FAtom) (s : State) : Out := atomOp f [] s (fun _ m v _ => m ||| v)
def execAxor (f : FAtom) (s : State) : Out := atomOp f [] s (fun _ m v _ => m ^^^ v)
def execAswp (f : FAtom) (s : State) : Out := atomOp f [] s (fun _ _ v _ => v)
def execAcas (f : FAcas) (s : State) : Out :=
  atomOp ⟨f.c, f.d, f.a, f.b, f.off, f.w64, f.sp, f.strm⟩ [f.cmp] s (fun _ m v c => if m = c then v else m)

/-! ## Acquire, release, fence (R153 to R157, R169, R263 to R265) -/

def scopeCode : Scope → Nat
  | .context => 0 | .core => 1 | .cluster => 2 | .die => 3 | .device => 4 | .system => 5

/-- Whether two contexts lie in one unit of a scope (R153). -/
def sameUnit (code a b : Nat) : Bool :=
  match code with
  | 0 => a == b
  | 1 => a / 4 == b / 4
  | 2 => a / 32 == b / 32
  | 3 => a / 256 == b / 256
  | _ => true

/-- Tags in a list of ranges changed, each with the granules that the change names the context in. -/
def State.mapTags (s : State) (rs : List GRange) (f : BitVec 32 → BitVec 32) : State :=
  let inR (sp : Space) (gr : Nat) : Bool := rs.any (fun r => r.sp == sp && decide (r.lo ≤ gr) && decide (gr < r.hi))
  let go (sp : Space) (l : Tab (BitVec 32)) : Tab (BitVec 32) := l.map (fun q => if inR sp q.1 then (q.1, f q.2) else q)
  { s with dtags := go .dram s.dtags,
           clus := mapVals (fun c (q : Cluster) => { q with tags := go (.sp c) q.tags }) s.clus }

/-- The granules of ranges whose tag a change leaves naming a context. -/
def State.tagged (s : State) (rs : List GRange) (p : BitVec 32 → Bool) : List (Space × Nat) :=
  let inR (sp : Space) (gr : Nat) : Bool := rs.any (fun r => r.sp == sp && decide (r.lo ≤ gr) && decide (gr < r.hi))
  let go (sp : Space) (l : Tab (BitVec 32)) : List (Space × Nat) :=
    (l.filter (fun q => inR sp q.1 && p q.2)).map (fun q => (sp, q.1))
  go .dram s.dtags ++ s.clus.flatMap (fun q => go (.sp q.1) q.2.tags)

/-- Whether a release record of context `c` is live for the generation `lg`: its flag still carries its token (R156); a flag
in untagged memory has no tag. -/
def State.recLive (s : State) (lg c : Nat) (r : RelRec) : Bool :=
  match r.flagSp with
  | .host => true
  | sp =>
    let t := s.tag sp r.flagG
    effSt lg t == 5 && tagCtx t == c && tagTok t == r.tok

/-- What an acquire of a flag with tag `t` converts (R157). -/
def State.acquire (s : State) (scp : Scope) (t : BitVec 32) : State :=
  let lg := s.lgenOf s.cur
  let rel := tagCtx t
  if effSt lg t = 5 ∧ tagTok t ≠ 0 then
    match (s.ctx rel).recs.find? (fun r => r.tok == tagTok t && s.recLive lg rel r) with
    | none => s
    | some r =>
      if !sameUnit (min (scopeCode r.scope) (scopeCode scp)) s.cur rel then s
      else
        let handed (x : BitVec 32) : Bool := effSt lg x == 4 && tagCtx x == rel && tagTok x == tagTok t
        let other (x : BitVec 32) : Bool := effSt lg x == 1 && tagCtx x != s.cur
        let named := s.tagged r.ranges (fun x => handed x || other x)
        let s := s.mapTags r.ranges (fun x =>
          if handed x then mkTag 1 s.cur lg 0 else if other x then mkTag 2 s.cur lg 0 else x)
        s.modMe (fun c => { c with owned := named.foldl (fun l q => addOwned q.1 q.2 l) c.owned })
  else s

/-- ACQ (R157, R263). -/
def execAcq (f : FAcq) (s : State) : Out :=
  runSlot s f.c none [f.a] false (xCnt f.d) (fun s vs =>
    match s.word f.sp (vs.getD 0 0) f.off f.w64 with
    | .error e => .trap (trapOf e)
    | .ok (asp, as) =>
      s.access .load .acq false asp as (fun ac =>
        let s := s.settle ac as
        let v := s.readWord ac as
        let flag := match ac.head? with
          | some p => if p.2.tagged then s.tag p.2.sp (p.2.addr / 64) else 0
          | none => 0
        let s := (s.applyAccess s.cur .acq ac).acquire f.scp flag
        .ok (s.result .lds (.x f.d.val (BitVec.ofNat 64 v)))))

/-- The mapped pages of a virtual range: each translation with the address in it where the range begins and the length
(R155). -/
def State.rangePages (s : State) (part e : Nat) : Nat → Nat → List (Leaf × Nat × Nat)
  | 0, _ => []
  | fuel + 1, a =>
    if e ≤ a then []
    else
      match s.walk part a with
      | none => State.rangePages s part e fuel (max (a + 1) (s.afterHole part a))
      | some l => (l, l.pa + (a - l.va), min e (l.va + l.size) - a) :: State.rangePages s part e fuel (l.va + l.size)

/-- The space of a page. -/
def Leaf.space (l : Leaf) : Space := if l.host then .host else .dram

/-- The ranges of a REL, each a base and a length (R155, R264). -/
def State.relRanges (s : State) (f : FRel) : List (Nat × Nat) :=
  (List.range f.nr.val).map (fun j =>
    let r (n : Nat) : Nat := if n = 0 then 0 else (Tab.get 0 n s.me.x).toNat
    (r (f.k.val + 2 * j), r (f.k.val + 2 * j + 1)))

/-- The mapped pages of a virtual range of a REL, from `a` to `e`. -/
def State.relPages (s : State) (a e : Nat) : List (Leaf × Nat × Nat) :=
  s.rangePages (s.partOf s.cur) (min (2 ^ 64) e) (2 ^ 52) a

/-- The tagged granules that the ranges cover, widened outward: pages without a translation and untagged pages hold none. The record
keeps these granules, and an ACQ takes them whatever its ranges are mapped to by then (log 36). -/
def State.relGrans (s : State) (f : FRel) : List GRange :=
  (s.relRanges f).flatMap (fun q =>
    if q.2 = 0 then []
    else if f.rsp then
      (if q.1 < 2 ^ 24 then [⟨.sp (clusterOf s.cur), q.1 / 64, (min (q.1 + q.2) (2 ^ 24) + 63) / 64⟩] else [])
    else ((s.relPages (q.1 / 64 * 64) ((q.1 + q.2 + 63) / 64 * 64)).filter (fun p => p.1.rc && inData p.2.1)).map
      (fun p => ⟨.dram, p.2.1 / 64, (p.2.1 + p.2.2 + 63) / 64⟩))

/-- Where the bytes of the ranges lie, tagged or not, widened to the granules that are handed off with every write of the context
performed (R145, R150): space, first address, length. -/
def State.relPlaces (s : State) (f : FRel) : List (Space × Nat × Nat) :=
  (s.relRanges f).flatMap (fun q =>
    let lo := q.1 / 64 * 64
    let hi := (q.1 + q.2 + 63) / 64 * 64
    if q.2 = 0 then []
    else if f.rsp then [(.sp (clusterOf s.cur), lo, hi - lo)]
    else (s.relPages lo hi).map (fun p => (p.1.space, p.2.1, p.2.2)))

/-- The ranges as a copy's ranges are recorded. -/
def State.relRgs (s : State) (f : FRel) : List Rg :=
  ((s.relRanges f).filter (fun q => q.2 != 0)).map (fun q =>
    ⟨if f.rsp then .sp (clusterOf s.cur) else .mem, q.1, q.1 + q.2⟩)

/-- A release at its commit point (R155, R264). -/
def relBody (f : FRel) (s : State) (vs : List Word) : SlotR :=
  match s.word f.sp (vs.getD 0 0) 0 f.w64 with
  | .error e => .trap (trapOf e)
  | .ok (asp, as) =>
    chk (!(s.relRanges f).any (fun q => decide (2 ^ 64 < q.1 + q.2))) cIllop (
    let tok := if s.me.tok + 1 = 4096 then 1 else s.me.tok + 1
    s.access .atomic (.rel tok) true asp as (fun ac =>
      let c := s.cur
      let lg := s.lgenOf c
      let grs := s.relGrans f
      let s := s.settle ac as
      let s := s.mapTags grs (fun x =>
        if tagCtx x = c ∧ (effSt lg x = 1 ∨ effSt lg x = 3 ∨ effSt lg x = 4 ∨ effSt lg x = 5) then mkTag 4 c lg tok
        else x)
      let flag : Space × Nat := match ac.head? with
        | some p => if p.2.tagged then (p.2.sp, p.2.addr / 64) else (.host, 0)
        | none => (.host, 0)
      let s := s.writeWord ac as (vs.getD 1 0).toNat
      let s := match ac.head? with
        | some p => if p.2.tagged then
            (s.setTag p.2.sp (p.2.addr / 64) (mkTag 5 c lg tok)).modMe (fun m =>
              { m with owned := addOwned p.2.sp (p.2.addr / 64) m.owned })
          else s
        | none => s
      let live : List RelRec := s.me.recs.filter (fun r => s.recLive lg c r && r.tok != tok)
      let live : List RelRec := if 16 ≤ live.length then live.drop (live.length - 15) else live
      .ok (s.modMe (fun m => { m with tok := tok, recs := live ++ [⟨tok, flag.1, flag.2, grs, f.scp⟩] }))))

/-- The waits of a REL (R155): its stream's writes and copies, and the context's writes and copies into the ranges. -/
def relWait (f : FRel) (s : State) : State × Bool :=
  match s.srcs none [f.a, f.b] with
  | none => (s, false)
  | some (_, vs) =>
    match relBody f s vs with
    | .ok _ =>
      let ps := s.relPlaces f
      let rgs := s.relRgs f
      let s := s.perform (fun w => w.gcid == s.cur && ps.any (fun r =>
        r.1 == w.sp && decide (w.addr < r.2.1 + r.2.2) && decide (r.2.1 < w.addr + w.bytes.length)))
      waitCopies (fun t => t == f.strm.val) (fun c => decide (c.gd.strm = f.strm.val) || meet c.dstRgs rgs) s
    | _ => (s, false)

def execRel (f : FRel) (s : State) : Out :=
  runWait s f.c (relWait f) (fun s => runSlot s f.c none [f.a, f.b] false (0, 0) (relBody f))

/-- FENCE (R169, R265). -/
def execFence (f : FFence) (s : State) : Out :=
  runWait s f.c (waitCopies (fun t => f.mask.getLsbD t && scopeCode f.scp != 0) (fun c => f.mask.getLsbD c.gd.strm))
    (fun s => runSlot s f.c none [] false (0, 0) (fun s _ => .ok s))

/-! ## Scratchpad allocation (R126, R127, R272, R273) -/

/-- The lowest free region of a size below the launch's SPSIZE. -/
def State.allocAt (s : State) (cl spsize lsize : Nat) : Option Nat :=
  let size := 2 ^ lsize
  (List.range (spsize / size)).findSome? (fun i =>
    let o := i * size
    if (s.clu cl).regions.any (fun r => decide (r.off < o + size) && decide (o < r.off + 2 ^ r.lsize)) then none else some o)

def execSpalloc (f : FSpalloc) (s : State) : Out :=
  runSlot s f.c none [] false (xCnt f.d) (fun s _ =>
    let cl := clusterOf s.cur
    let sz := match s.launchOn (coreOf s.cur) with
      | some (_, l) => l.spsize
      | none => 0
    match s.allocAt cl sz f.lsize.val with
    | none => .ok (s.result .lds (.x f.d.val (BitVec.allOnes 64)))
    | some o =>
      let e := o + 2 ^ f.lsize.val
      let s := s.modClu cl (fun q =>
        { q with regions := q.regions ++ [⟨o, f.lsize.val, f.skew⟩],
                 uncleared := q.uncleared.filter (fun r => !(decide (o ≤ r.1) && decide (r.2 ≤ e))) ++ [(o, e)],
                 tags := q.tags.filter (fun t => !(decide (o / 64 ≤ t.1) && decide (t.1 < e / 64))) })
      .ok (s.result .lds (.x f.d.val (BitVec.ofNat 64 o))))

/-- The contexts of a cluster that a launch describes or that run in it. -/
def clusterCtxs (cl : Nat) : List Nat := (List.range 32).map (fun i => cl * 32 + i)

def execSpfree (f : FSa) (s : State) : Out :=
  runSlot s f.c none [f.a] false (0, 0) (fun s vs =>
    let cl := clusterOf s.cur
    match (s.clu cl).regions.find? (fun r => BitVec.ofNat 64 r.off == vs.getD 0 0) with
    | none => .trap (trapOf cIllop)
    | some r =>
      let e := r.off + 2 ^ r.lsize
      let inside (h : Handle) : Bool := h.lsize != 0 && decide (r.off ≤ h.offset) && decide (h.offset + 2 ^ h.lsize ≤ e)
      chk (!(clusterCtxs cl).any (fun g => (s.ctx g).h.any (fun q => inside q.2 && q.2.st != .free))) cIllop (
      let s := s.perform (fun w => w.sp == .sp cl && decide (w.addr < e) && decide (r.off < w.addr + w.bytes.length))
      let s := s.modClu cl (fun q =>
        { q with regions := q.regions.erase r,
                 uncleared := q.uncleared.filter (fun u => !(decide (r.off ≤ u.1) && decide (u.2 ≤ e))) })
      .ok ((clusterCtxs cl).foldl (fun s g =>
        if (s.ctx g).h.any (fun q => inside q.2) then
          s.modCtx g (fun c => { c with h := mapVals (fun _ h => if inside h then { h with lsize := 0 } else h) c.h })
        else s) s)))

/-! ## Chimney and routing counters (R268 to R271) -/

/-- Whether the die's Chimney has no place for one more record of the context (R19). -/
def State.chimFull (s : State) : Bool :=
  let d := dieOf s.cur
  let held := (s.ctxs.filter (fun q => dieOf q.1 == d && q.2.resv.contains .chimney)).length
  let mine := s.me.resv.contains .chimney
  decide (1024 ≤ (s.die d).chim.length + held - (if mine then 1 else 0))

def execMbox (f : FSab) (s : State) : Out :=
  runSlot s f.c none [f.a, f.b] false (0, 0) (fun s vs =>
    if s.chimFull then .block
    else
      let (strm, ltag, ser) : Nat × BitVec 32 × Nat := match s.launchOn (coreOf s.cur) with
        | some (k, l) => (k, l.ltag, l.serial)
        | none => (0, 0, 0)
      let s := s.modMe (fun c => { c with resv := dropResv .chimney c.resv })
      .ok (s.modDie (dieOf s.cur) (fun d =>
        { d with chim := d.chim ++ [⟨vs.getD 0 0, vs.getD 1 0, s.partOf s.cur, strm, ltag, ser⟩] })))

/-- One counter raised, saturating. -/
def ecBump (k : Nat) (ec : Tab (BitVec 32)) : Tab (BitVec 32) :=
  Tab.put k (BitVec.ofNat 32 (min ((Tab.get 0 k ec).toNat + 1) (2 ^ 32 - 1))) ec

/-- EC.INC (R268). -/
def execEcInc (f : FEc) (s : State) : Out :=
  runSlot s f.c none [] false (0, 0) (fun s _ =>
    chk (s.okV f.v 1) cRegrange (
    s.withReads [s.readV f.v] (fun s vs =>
      let es := unpackN 16 256 (vs.headD 0).toNat
      let cl := clusterOf s.cur
      let ec := es.foldl (fun ec e => if e ≤ f.en.val then ecBump (f.eb.val + e) ec else ec) (s.clu cl).ec
      .ok (s.modClu cl (fun q => { q with ec := ec })))))

/-- EC.SNAP (R269). -/
def execEcSnap (f : FEc) (s : State) : Out :=
  let n := f.en.val + 1
  let regs := (4 * n + 511) / 512
  runSlot s f.c none [] false (vcnt f.v regs) (fun s _ =>
    chk (s.okV f.v regs) cRegrange (
    let cl := clusterOf s.cur
    let vals := (List.range n).map (fun k => (Tab.get 0 (f.eb.val + k) (s.clu cl).ec).toNat)
    let s := s.modClu cl (fun q => { q with ec := q.ec.filter (fun p =>
      !(decide (f.eb.val ≤ p.1) && decide (p.1 < f.eb.val + n))) })
    .ok (s.writeRun .ldm f.v (toRegs regs (packN 32 vals)))))

end Sys2Proof.Machine
end

