-- ==== Sys2Proof/Machine/Matrix.lean ====
section
/-! DEFINITION. The MX slot: matrix operands, patterns, products and semirings, latches, whole tiles, norms and
bounded-influence staging (R78 to R87, R108 to R115, R196, R296 to R317). -/

namespace Sys2Proof.Machine

open Sys2Proof

/-! ## Tiles in Hearth order (R36) -/

/-- A tile of the context as the Hearth finds it: the latest result issued to it, else the file (R36, R48). -/
def State.tileNow (s : State) (n : Nat) : Tile :=
  match s.me.latest (Res.same (.tile n Tile.zero)) with
  | some (.tile _ t) => t
  | _ => Tab.get Tile.zero (s.me.accs.base + n) s.myCore.tiles

/-- A tile as another reader finds it (R37). -/
def State.tileSeen (s : State) (n : Nat) : Tile := Tab.get Tile.zero (s.me.accs.base + n) s.myCore.tiles

/-- Whether a tile's register is poisoned for a reader in Hearth order, and for another reader (R484). -/
def State.tileSeenBad (s : State) (n : Nat) : Bool := s.myCore.pois.contains (poisTile (s.me.accs.base + n))
def State.tileNowBad (s : State) (n : Nat) : Bool :=
  (s.me.latest (Res.same (.tile n Tile.zero))).isNone && s.tileSeenBad n

/-- Tiles `n` to `n + m − 1` lie within a63 and the share (R92, R207). -/
def State.tilesOk (s : State) (n m : Nat) : Bool := decide (n + m ≤ 64) && decide (n + m ≤ s.me.accs.count)

def Tile.u (t : Tile) : Bool := t.md.getLsbD 7
def Tile.tag (t : Tile) : Int := (t.md.setWidth 7).toInt
def mkMd (u : Bool) (tag : Int) : BitVec 8 := (if u then 0x80#8 else 0#8) ||| (BitVec.ofInt 7 tag).setWidth 8

/-- The words of a tile, and back. -/
def Tile.list (t : Tile) : List Word32 := (unpackN 32 1024 t.words.toNat).map (BitVec.ofNat 32)
def tileOf (ws : List Word32) (md : BitVec 8) : Tile := ⟨BitVec.ofNat 32768 (packN 32 (ws.map BitVec.toNat)), md⟩

/-! ## Items of an operand row (R85) -/

/-- An entry of an operand: a structural zero, an exact 1, or a value. -/
inductive Item where
  | skip
  | one
  | v (x : Val)
deriving DecidableEq, Repr

/-- Rows of an operand. -/
abbrev Rows := List (List Item)

/-- A format's own depth (R297). -/
def depth : Fmt → Nat
  | .bf16 | .fp16 | .int4g => 96
  | .e4m3 | .e5m2 | .int8 | .mxe4m3 | .mxe5m2 | .mxi8 | .bx8 | .bx7 => 192
  | .e2m3 | .e3m2 | .mxe2m3 | .mxe3m2 | .bx6 => 256
  | .e2m1 | .mxe2m1 | .bx4 => 384
  | .bx5 => 288
  | .bx3 => 512
  | .bx2 => 768
  | _ => 32

def hasScale : Fmt → Bool
  | .mxe4m3 | .mxe5m2 | .mxe2m3 | .mxe3m2 | .mxe2m1 | .mxi8 | .int4g => true
  | f => f.isBx

/-- How many scale registers an operand's set takes (R62). -/
def setRegs (f : Fmt) (k : Nat) : Nat := if !hasScale f then 0 else if f == .int4g then 1 else (k + 511) / 512

/-- The scale registers of a set, wrapped modulo 16 (R62). -/
def setNames (scn : Nat) (n : Nat) : List Nat := (List.range n).map (fun t => (scn + t) % 16)

/-- The bytes of a scale set as one number. -/
def State.scaleSet (s : State) (names : List Nat) : Nat :=
  ofRegs (names.map (fun n => Tab.get 0 (s.me.scs.base + n) s.myCore.sc))

def State.scBad (s : State) (names : List Nat) : Bool :=
  names.any (fun n => s.myCore.pois.contains (poisSc (s.me.scs.base + n)))

/-- The value of an element of row `i`, element `k`, with its scale (R58, R59 to R61). An INT4G product that overflows
BF16 sets OVF. -/
def scaled (f : Fmt) (set nb i k code : Nat) : Val × Flags :=
  if f == .int4g then
    let g := 3 * i + k / 32
    let v := decInt4g code (bits set (8 * (192 + g / 2) + 4 * (g % 2)) 4) (bits set (16 * g) 16)
    let (c, fl) := bf16F.encode true true .rne v
    (bf16F.decode c, if v.isFin then fl &&& fOvf else 0#6)
  else if hasScale f then (decBlock f (bits set (8 * (i * nb + k / 32)) 8) code, 0#6)
  else (decElem f code, 0#6)

/-- Codes (none outside an edge) as items. -/
def decRows (f : Fmt) (set k : Nat) (codes : List (List (Option Nat))) : Rows × Flags :=
  let rs := (enumFrom 0 codes).map (fun p => (enumFrom 0 p.2).map (fun q =>
    match q.2 with
    | none => (Item.skip, 0#6)
    | some c => let r := scaled f set (k / 32) p.1 q.1 c; (Item.v r.1, r.2)))
  (rs.map (fun r => r.map (·.1)), rs.flatten.foldl (fun a q => a ||| q.2) 0#6)

/-! ## Patterns (R112 to R115, R120) -/

def patKind (d : BitVec 128) : Nat := bits d.toNat 0 4
def patOff (d : BitVec 128) : Int := signedOf 8 (bits d.toNat 8 8)
def patNdiag (d : BitVec 128) : Nat := bits d.toNat 5 3
def patKlim (d : BitVec 128) : Nat := bits d.toNat 16 10
def patKw (d : BitVec 128) : Nat := bits d.toNat 26 10
def patTt (d : BitVec 128) : Nat := bits d.toNat 16 3
def patRowb (d : BitVec 128) : Nat := bits d.toNat 19 7
def patColb (d : BitVec 128) : Nat := bits d.toNat 26 7
def patCoef (d : BitVec 128) (code : Nat) : Val := if bits d.toNat 4 1 = 1 then fp16F.decode code else bf16F.decode code
def capAt (c : BitVec 512) (i : Nat) : Nat := bits c.toNat (16 * i) 16

/-- Fields of a token-tree node (R119). -/
def Tree.node (t : Tree) (n : Nat) : Word := Tab.get nodeReset n t.nodes
def nodeValid (w : Word) : Bool := w.getLsbD 14
def nodeAcc (w : Word) : Bool := w.getLsbD 15
def nodeParent (w : Word) : Nat := bits w.toNat 0 7
def nodeDepth (w : Word) : Nat := bits w.toNat 7 7
def nodeToken (w : Word) : Nat := bits w.toNat 16 32

/-- Whether `a` is on the chain of parents from `b`, within a number of steps, through valid nodes (R120). -/
def Tree.above (t : Tree) (a : Nat) : Nat → Nat → Bool
  | 0, _ => false
  | fuel + 1, b =>
    let p := nodeParent (t.node b)
    if p = 127 || !nodeValid (t.node b) || !nodeValid (t.node p) then false
    else if p = a then true
    else Tree.above t a fuel p

def Tree.isAnc (t : Tree) (a b : Nat) : Bool := t.above a 127 b

/-- The extent of a pattern for a depth (R114). -/
def patExtent (d : BitVec 128) (k : Nat) : Nat :=
  if patKind d = 9 then 32
  else if patKind d = 11 then min k (128 - patColb d)
  else if patKind d = 7 ∨ patKlim d = 0 then k else patKlim d

/-- Whether row `i` of a data-derived pattern has a void index (R86, R115). -/
def patVoid (p : Pattern) (k i : Nat) : Bool :=
  let kind := patKind p.desc
  if kind = 9 ∨ kind = 10 then
    let x := signedOf 16 (capAt p.cap i)
    decide (x < 0) || decide ((patExtent p.desc k : Int) ≤ x) ||
      (kind = 9 && (List.range i).any (fun j => capAt p.cap j == capAt p.cap i))
  else false

def patAnyVoid (p : Pattern) (k : Nat) : Bool := (List.range 32).any (patVoid p k)

/-- The entry G(i, k) (R114, R115). -/
def patItem (p : Pattern) (t : Tree) (kk i k : Nat) : Item :=
  let d := p.desc
  let e := patExtent d kk
  let o := (i : Int) + patOff d
  let kz := (k : Int)
  let on (b : Bool) : Item := if b then .one else .skip
  if e ≤ k then .skip
  else
    match patKind d with
    | 0 => .one
    | 1 => on (kz = o)
    | 2 => on (kz ≤ o)
    | 3 => on (kz < o)
    | 4 => on (o ≤ kz)
    | 5 => on (o < kz)
    | 6 => let w := if patKw d = 0 then e else patKw d; on (kz = o.emod w)
    | 7 => let t := kz - o; if 0 ≤ t ∧ t < patNdiag d then .v (patCoef d (bits d.toNat (16 * t.toNat + 16) 16)) else .skip
    | 8 => if kz = o then .v (patCoef d (capAt p.cap i)) else .skip
    | 9 => on (!patVoid p kk i && kz = signedOf 16 (capAt p.cap i))
    | 10 => on (!patVoid p kk i && kz = signedOf 16 (capAt p.cap i))
    | 11 =>
      let r := patRowb d + i
      let c := patColb d + k
      on (decide (r < 128) && nodeValid (t.node r) && nodeValid (t.node c) && (r == c || t.isAnc c r))
    | _ => .skip

/-- A pattern whose extent is limited to the depth of MMP (R308); kinds 7, 9 and 11 have no KLIM that counts (R112, R114). -/
def Pattern.limit (p : Pattern) (k : Nat) : Pattern :=
  if patKind p.desc = 7 ∨ patKind p.desc = 9 ∨ patKind p.desc = 11 ∨ patKlim p.desc ≤ k then p
  else { p with desc := BitVec.ofNat 128 (p.desc.toNat - patKlim p.desc * 2 ^ 16 + k * 2 ^ 16) }

def patRows (p : Pattern) (t : Tree) (k : Nat) : Rows :=
  (List.range 32).map (fun i => (List.range k).map (patItem p t k i))

def State.pattern (s : State) (n : Nat) : Pattern := Tab.get Pattern.zero (s.me.pats.base + n) s.myCore.pat
def State.treeSeen (s : State) (n : Nat) : Tree := Tab.get Tree.reset (s.me.tts.base + n) s.myCore.tt

/-! ## Operands (R196, R299 to R304) -/

/-- A matrix operand before it is read: whether its names lie in their shares, whether its generator is legal, the
registers it reads, whether a latch or scale register is poisoned, scratchpad and Mantel bytes, its codes from the bytes, and
the streams of its reads. -/
structure Opnd where
  range : Bool
  legal : Bool
  regs : List VRead
  pois : Bool
  sp : List Nat
  ws : List Nat
  codes : (Nat → Byte) → List (List (Option Nat))
  strms : List Nat

/-- The codes of rows in a byte-addressed store. -/
def tileCodes (rows : List (List TByte)) (w k : Nat) (rd : Nat → Byte) : List (List (Option Nat)) :=
  rows.map (fun r =>
    let v := unpackN w k (packN 8 (r.map (fun q => if q.2 = 0 then 0 else (rd q.1).toNat)))
    let m := unpackN w k (packN 8 (r.map (·.2)))
    (v.zip m).map (fun q => if q.2 = 0 then none else some q.1))

/-- The formats of an SBC operand (R303). -/
def sbcFmt : Fmt → Bool
  | .bf16 | .fp16 | .e4m3 | .e5m2 | .int8 | .mxe4m3 | .mxe5m2 | .mxi8 => true
  | _ => false

/-- The offsets of an SBC stream's elements, from its masks (R285, R303): none for an absent element. -/
def sbcLayout (n esz : Nat) (rd : Nat → Byte) : List (Option Nat) × Nat :=
  ((List.range ((n + 63) / 64)).foldl (fun (acc : List (List (Option Nat)) × Nat) g =>
    let cnt := min 64 (n - 64 * g)
    let m := leNat ((List.range 8).map (fun b => rd (acc.2 + b))) % 2 ^ cnt
    let els := (List.range cnt).foldl (fun (a : List (Option Nat) × Nat) i =>
      if m.testBit i then (a.1 ++ [some a.2], a.2 + esz) else (a.1 ++ [none], a.2)) ([], acc.2 + 8)
    (acc.1 ++ [els.1], els.2)) ([], 0)) |> (fun r => (r.1.flatten, r.2))

/-- An operand through a generator (R300 to R303). -/
def State.genOpnd (s : State) (g : Gen) (space : Nat) (f : Fmt) (k : Nat) (t : Bool) (peek : Side → Nat → Byte) : Opnd :=
  let w := fmtWidth f
  let sh : TShape := ⟨32, k * w / 8, w, k⟩
  match s.tileSide g [space] with
  | .error e => ⟨e != cRegrange, e != cIllop, [], false, [], [], fun _ => [], []⟩
  | .ok sd =>
    let place (as : List Nat) : List Nat × List Nat := if space = 1 then (as, []) else ([], as)
    if g.sbc then
      let at' (o : Nat) : Nat := sd.at (g.origin + BitVec.ofNat 64 o)
      let lay := sbcLayout (32 * k) (w / 8) (fun o => peek sd (at' o))
      let as := (List.range lay.2).map at'
      ⟨true, sbcFmt f && !t, [], false, (place as).1, (place as).2, fun rd =>
        (List.range 32).map (fun i => (sliceD none lay.1 (i * k) k).map (fun q =>
          match q with
          | none => some 0
          | some o => some (leNat ((List.range (w / 8)).map (fun b => rd (at' (o + b))))))), [g.strm]⟩
    else
      let rows := if t then tileBytesT sd g sh else tileBytes sd g sh
      let as := touched rows
      ⟨true, true, [], false, (place as).1, (place as).2, tileCodes rows w k, [g.strm]⟩

/-- A byte of a scratchpad or Mantel side as the context reads it. -/
def State.peek (s : State) (sd : Side) (a : Nat) : Byte :=
  match sd with
  | .sp c _ _ => s.ownByte s.cur (.sp c) a
  | .mantel d => s.mantelByte d a
  | .mem => 0#8

/-- 192-byte rows of a number. -/
def rowCodes (w k : Nat) (x : Nat) : List (List (Option Nat)) :=
  (unpackN 1536 32 x).map (fun r => (unpackN w k r).map some)

/-- A data operand (R196): `isB` tells a B field, whose last kind is a latch. -/
def State.opnd (s : State) (o : MOp) (isB : Bool) (f : Fmt) (k : Nat) (t : Bool) : Opnd :=
  match o.kind with
  | .group =>
    let rs := s.readRun (groupOp o.idx) 12
    ⟨s.okV (groupOp o.idx) 12, true, rs, false, [], [], fun _ => rowCodes (fmtWidth f) k (ofRegs (rs.map (·.val))), []⟩
  | .sp => s.genOpnd (s.gen (Fin.ofNat 16 o.idx.val)) 1 f k t s.peek
  | .store =>
    if isB then
      let n := o.idx.val
      let p := s.me.lats.base + n
      ⟨decide (n < s.me.lats.count), true, [], s.myCore.pois.contains (poisK p), [], [],
        fun _ => rowCodes (fmtWidth f) k (Tab.get 0 p s.myCore.lat).toNat, []⟩
    else s.genOpnd (s.gen (Fin.ofNat 16 o.idx.val)) 3 f k t s.peek
  | .pat => ⟨true, true, [], false, [], [], fun _ => [], []⟩

/-- The bank groups of scratchpad bytes (R125, R302). -/
def bankGroups (as : List Nat) : List Nat := (as.map (· / 2 ^ 22)).eraseDups

/-! ## Products (R79 to R84) -/

/-- The product of two items under a semiring; none is a structural zero. -/
def itemProd (sr : Semiring) (a b : Item) : Option Val :=
  match a, b with
  | .skip, _ => none
  | _, .skip => none
  | .one, .one => some (if sr == .maxPlus || sr == .minPlus then vZero else vOne)
  | .one, .v x => some x
  | .v x, .one => some x
  | .v x, .v y =>
    match sr with
    | .plusTimes => some (x.mul y)
    | .maxPlus | .minPlus => some (x.add y)
    | .orAnd => some (if x.isZero || y.isZero then vZero else vOne)

def itemNan : Item → Bool
  | .v x => x.isNan
  | _ => false

/-- Blocks of 32 of a list. -/
def blocks {α : Type} : Nat → List α → List (List α)
  | 0, _ => []
  | n + 1, l => l.take 32 :: blocks n (l.drop 32)

def sumVals : List Val → Val
  | [] => vZero
  | v :: l => l.foldl Val.add v

/-- NAN where a result is a NaN and nothing it came from is (R80). -/
def freshNan (r : Val) (had : Bool) : Flags := flagIf (r.isNan && !had) fNan

/-- One element of a plus-times FP32 product (R79 to R81); none where every block is passed over. -/
def plusElem (bs : List (List (Item × Item))) (old : Option Val) : Option Val × Flags :=
  bs.foldl (fun (acc : Option Val × Flags) blk =>
    let ps := blk.filterMap (fun q => itemProd .plusTimes q.1 q.2)
    if ps.isEmpty then acc
    else
      let had := blk.any (fun q => (itemProd .plusTimes q.1 q.2).isSome && (itemNan q.1 || itemNan q.2))
      let x := sumVals ps
      let p := rne32 x
      let fl := freshNan x had ||| (flags32 x &&& fOvf)
      match acc.1 with
      | none => (some p, acc.2 ||| fl)
      | some o =>
        let y := o.add p
        (some (rne32 y), acc.2 ||| fl ||| freshNan y (had || o.isNan) ||| (flags32 y &&& fOvf))) (old, 0#6)

/-- One element of a max-plus or min-plus FP32 product (R83, R84). -/
def tropElem (sr : Semiring) (ps : List (Item × Item)) (old : Option Val) : Option Val × Flags :=
  ps.foldl (fun (acc : Option Val × Flags) q =>
    match itemProd sr q.1 q.2 with
    | none => acc
    | some x =>
      let p := rne32 x
      let fl := freshNan x (itemNan q.1 || itemNan q.2) ||| (flags32 x &&& fOvf)
      match acc.1 with
      | none => (some p, acc.2 ||| fl)
      | some o => (some (if sr == .maxPlus then o.max2 p else o.min2 p), acc.2 ||| fl)) (old, 0#6)

/-- The identity of a semiring in an FP32 tile (R83). -/
def identity (sr : Semiring) : Word32 :=
  match sr with
  | .plusTimes | .orAnd => 0#32
  | .maxPlus => 0xFF800000#32
  | .minPlus => 0x7F800000#32

def someBits (o : Option Val) (d : Word32) : Word32 :=
  match o with
  | some v => f32Bits v
  | none => d

/-- One element of a matrix instruction in an FP32 tile: a new element, or, where no product is taken, the old one, a NaN in
its canonical form (R55). -/
def fpElem (sr : Semiring) (a b : List Item) (old : Option Word32) : Word32 × Flags :=
  let ps := a.zip b
  if ps.all (fun q => (itemProd sr q.1 q.2).isNone) then
    (match old with
      | some w => if sr == .orAnd then (if (f32Val w).isZero then 0#32 else 0x3F800000#32) else if (f32Val w).isNan then canonNan else w
      | none => identity sr, 0#6)
  else
    match sr with
    | .plusTimes =>
      let r := plusElem (blocks (ps.length / 32) ps) (old.map f32Val)
      (someBits r.1 0, r.2)
    | .orAnd =>
      let on := (match old with
        | some w => !(f32Val w).isZero
        | none => false) || ps.any (fun q => match itemProd .orAnd q.1 q.2 with
          | some v => !v.isZero
          | none => false)
      (if on then 0x3F800000#32 else 0#32, 0#6)
    | _ =>
      let r := tropElem sr ps (old.map f32Val)
      (someBits r.1 0, r.2)

/-- The integer of an INT8 item. -/
def itemInt : Item → Option Int
  | .v (.fin s n _) => some (if s then -(n : Int) else n)
  | _ => none

/-- One element of an INT8 × INT8 instruction (R82 to R84). -/
def intElem (sr : Semiring) (a b : List Item) (old : Option Word32) : Word32 × Flags :=
  let ps := (a.zip b).map (fun q => match itemInt q.1, itemInt q.2 with
    | some x, some y => some (x, y)
    | _, _ => none)
  let o := old.map BitVec.toInt
  match sr with
  | .plusTimes =>
    let r := (blocks (ps.length / 32) ps).foldl (fun (acc : Option Int × Flags) blk =>
      let l := blk.filterMap id
      if l.isEmpty then acc
      else
        let p := l.foldl (fun s q => s + q.1 * q.2) 0
        match acc.1 with
        | none => (some p, acc.2)
        | some x => let y := addSat32 x p; (some y.1, acc.2 ||| y.2)) (o, 0#6)
    (BitVec.ofInt 32 (r.1.getD 0), r.2)
  | .orAnd =>
    let on := (match o with
      | some x => decide (x ≠ 0)
      | none => false) || (ps.filterMap id).any (fun q => decide (q.1 ≠ 0 ∧ q.2 ≠ 0))
    (if on then 1#32 else 0#32, 0#6)
  | .maxPlus =>
    let l := (ps.filterMap id).map (fun q => q.1 + q.2)
    (BitVec.ofInt 32 (l.foldl max (o.getD (-(2 ^ 31)))), 0#6)
  | .minPlus =>
    let l := (ps.filterMap id).map (fun q => q.1 + q.2)
    (BitVec.ofInt 32 (l.foldl min (o.getD (2 ^ 31 - 1))), 0#6)

/-- The whole tile: A's rows against B's rows. -/
def matTile (int : Bool) (sr : Semiring) (a b : Rows) (old : Option (List Word32)) : List Word32 × Flags :=
  let r := (enumFrom 0 a).flatMap (fun p => (enumFrom 0 b).map (fun q =>
    let o := old.map (fun l => l.getD (32 * p.1 + q.1) 0)
    if int then intElem sr p.2 q.2 o else fpElem sr p.2 q.2 o))
  (r.map (·.1), r.foldl (fun a q => a ||| q.2) 0#6)

/-! ## Loss scale (R87) -/

/-- Every word times 2^k, rounded once; infinities and NaNs stay. -/
def rescaleWord (k : Int) (w : Word32) : Word32 × Flags :=
  let v := f32Val w
  if v.isFin then (f32Bits (v.scale2 k), flags32 (v.scale2 k)) else (w, 0#6)

/-- A tile as a G-bit instruction takes it: retagged, rescaled where its tag differs. -/
def retag (g : Bool) (lse : Int) (t : Tile) : List Word32 × Int × Flags :=
  if !g then (t.list, t.tag, 0#6)
  else if !t.u || t.tag = lse then (t.list, lse, 0#6)
  else
    let r := t.list.map (rescaleWord (lse - t.tag))
    (r.map (·.1), lse, r.foldl (fun a q => a ||| q.2) 0#6)

/-! ## The matrix instructions (R305 to R312) -/

/-- What a matrix instruction is about to do. -/
structure MmPlan where
  acc : Fin 64
  a : Opnd
  b : Opnd
  /-- Further names in their shares, further conditions, and what else is poisoned. -/
  range : Bool
  legal : Bool
  regs : List VRead
  pois : Bool
  fmtOk : Bool
  void : Bool
  /-- Whether the old tile is read. -/
  readsTile : Bool
  /-- The new words and metadata, with flags. -/
  run : (codesA codesB : List (List (Option Nat))) → Tile × Flags
  /-- The due distance beyond the class latency, and the class. -/
  occ : Nat
  cls : LatClass

/-- Where a tile's new value is due (R37, R298). -/
def State.tileDue (s : State) (p : MmPlan) : Nat := s.me.idx + p.occ + s.lat s.cur p.cls

/-- The bytes of Mantel and scratchpad operands checked: the Mantel's first, then the scratchpad's; `k` goes on with a
reader of bytes (R130, R254, R305; log 16). -/
def State.readOps (s : State) (a b : Opnd) (k : State → SlotR) : SlotR :=
  let ws := a.ws ++ b.ws
  let sp := a.sp ++ b.sp
  let d := dieOf s.cur
  match s.mantelTrap ws with
  | some t => .trap t
  | none =>
    match s.check s.cur .load .read (.sp (clusterOf s.cur)) sp with
    | .error t => .trap t
    | .ok ac =>
      let s := (a.strms ++ b.strms).foldl (fun s n => s.inOrder s.cur n) s
      k ((s.refreshStall s.cur d ws).applyAccess s.cur .read ac)

/-- A MATRIX INSTRUCTION (R305): its checks in the order of R426, then the tile. -/
def runMm (s : State) (c : Common) (plan : State → MmPlan) : Out :=
  runSlot s c none [] false (0, 1) (fun s _ =>
    let p := plan s
    chk (s.tilesOk p.acc.val 1 && p.a.range && p.b.range && p.range) cRegrange (
    chk (p.a.legal && p.b.legal && p.legal) cIllop (
    let rs := p.a.regs ++ p.b.regs ++ p.regs
    s.withDead rs (fun s =>
      chk p.fmtOk cMatfmt (
      chk (!(p.void && s.strict s.cur)) cPatidx (
      let clash := !p.a.sp.isEmpty && !p.b.sp.isEmpty &&
        (bankGroups p.a.sp).any (fun g => (bankGroups p.b.sp).contains g)
      chk (!(clash && s.strict s.cur)) cMatbank (
      if s.rangeWait s.cur false (.sp (clusterOf s.cur)) (p.a.sp ++ p.b.sp) then .stall
      else
        s.readOps p.a p.b (fun s =>
          withPois rs (
          chk (!(p.a.pois || p.b.pois || p.pois || (p.readsTile && s.tileNowBad p.acc.val))) cEccu (
          let cl := clusterOf s.cur
          let d := dieOf s.cur
          let rd (o : Opnd) (x : Nat) : Byte := if o.ws.isEmpty then s.ownByte s.cur (.sp cl) x else s.mantelByte d x
          let r := p.run (p.a.codes (rd p.a)) (p.b.codes (rd p.b))
          let s := s.flag (r.2 ||| flagIf p.void fOor)
          let s := if clash then
              (s.contract 2#3).modCsr (fun c => { c with mbser := satInc c.mbser })
            else s
          .ok (s.modMe (fun m => m.push (s.tileDue p) (.tile p.acc.val r.1)))))))))))))

/-- LSE as visible at the bundle, the loss-scale exponent of a G bit (R87). -/
def State.lse (s : State) : Int := s.me.view.lse.toInt

/-- An empty operand. -/
def Opnd.none : Opnd := ⟨true, true, [], false, [], [], fun _ => [], []⟩

/-- The occupancy of an instruction whose A operand is BX (R298, R308). -/
def bxOcc (af : Fmt) (k : Nat) : Nat := (k + 95) / 96 * fmtWidth af

/-- The sets of an instruction's scale field: A's, then B's (R62). -/
def State.sets (s : State) (af bf : Fmt) (scr : Fin 16) (k : Nat) (useA useB : Bool) : Nat × Nat × Bool × Bool :=
  let na := if useA then setRegs af k else 0
  let nb := if useB then setRegs bf k else 0
  let la := setNames scr.val na
  let lb := setNames (scr.val + na) nb
  (s.scaleSet la, s.scaleSet lb, (la ++ lb).all (fun n => decide (n < s.me.scs.count)), s.scBad (la ++ lb))

/-- MM and MMZ (R306, R307). -/
def mmPlan (f : FMm) (z : Bool) (s : State) : MmPlan :=
  let k := min (depth f.af) (depth f.bf)
  let st := s.sets f.af f.bf f.scr k true true
  let int := f.af == .int8 && f.bf == .int8
  { acc := f.acc, a := s.opnd f.a false f.af k f.t, b := s.opnd f.b true f.bf k false, range := st.2.2.1, legal := true,
    regs := [], pois := st.2.2.2, fmtOk := !f.t || transFmt f.af, void := false, readsTile := !z,
    run := fun ca cb =>
      let a := decRows f.af st.1 k ca
      let b := decRows f.bf st.2.1 k cb
      let old := s.tileNow f.acc.val
      let rt := retag (f.g && !z) s.lse old
      let tag := if f.g then s.lse else old.tag
      let r := matTile int f.sr a.1 b.1 (if z then none else some rt.1)
      (tileOf r.1 (mkMd true tag), a.2 ||| b.2 ||| rt.2.2 ||| r.2),
    occ := if f.af.isBx then bxOcc f.af k else 0, cls := if f.af.isBx then .mxb else .mxf }

def execMm (f : FMm) (s : State) : Out := runMm s f.c (mmPlan f false)
def execMmz (f : FMm) (s : State) : Out := runMm s f.c (mmPlan f true)

/-- The share of a pattern and of the tree it names. -/
def State.patOk (s : State) (n : Nat) : Bool :=
  decide (n < s.me.pats.count) &&
    (patKind (s.pattern n).desc != 11 || decide (patTt (s.pattern n).desc < s.me.tts.count))

/-- MMP (R308, R309). -/
def execMmp (f : FMm) (s : State) : Out :=
  runMm s f.c (fun s =>
    let pa := f.a.kind == .pat
    let df := if pa then f.bf else f.af
    let k := depth df
    let n := if pa then f.a.idx.val else f.b.idx.val
    let p := (s.pattern n).limit k
    let st := s.sets f.af f.bf f.scr k (!pa) pa
    let pr := patRows p (s.treeSeen (patTt p.desc)) k
    { acc := f.acc, a := if pa then Opnd.none else s.opnd f.a false f.af k f.t,
      b := if pa then s.opnd f.b true f.bf k false else Opnd.none, range := st.2.2.1 && s.patOk n, legal := true,
      regs := [], pois := st.2.2.2, fmtOk := pa || !f.t || transFmt f.af, void := patAnyVoid p k, readsTile := true,
      run := fun ca cb =>
        let d := if pa then decRows f.bf st.2.1 k cb else decRows f.af st.1 k ca
        let old := s.tileNow f.acc.val
        let rt := retag f.g s.lse old
        let r := matTile false f.sr (if pa then pr else d.1) (if pa then d.1 else pr) (some rt.1)
        (tileOf r.1 (mkMd true rt.2.1), d.2 ||| rt.2.2 ||| r.2),
      occ := if !pa && f.af.isBx then bxOcc f.af k else 0, cls := if !pa && f.af.isBx then .mxb else .mxf })

/-- MMD (R310). -/
def execMmd (f : FMmd) (s : State) : Out :=
  runMm s f.c (fun s =>
    let k := depth f.af
    let st := s.sets f.af f.bf f.scr k true false
    let d := s.readV f.d
    let w := fmtWidth f.bf
    { acc := f.acc, a := s.opnd f.a false f.af k f.t, b := Opnd.none, range := st.2.2.1 && s.okV f.d 1, legal := true,
      regs := [d], pois := st.2.2.2, fmtOk := !f.t || transFmt f.af, void := false, readsTile := true,
      run := fun ca _ =>
        let a := decRows f.af st.1 k ca
        let ds := (unpackN w 32 d.val.toNat).map (decElem f.bf)
        let b := (enumFrom 0 ds).map (fun q => (List.range k).map (fun x => if x = q.1 then Item.v q.2 else .skip))
        let rt := retag f.g s.lse (s.tileNow f.acc.val)
        let r := matTile false f.sr a.1 b (some rt.1)
        (tileOf r.1 (mkMd true rt.2.1), a.2 ||| rt.2.2 ||| r.2),
      occ := if f.af.isBx then bxOcc f.af k else 0, cls := if f.af.isBx then .mxb else .mxf })

/-- MMT (R311). -/
def execMmt (f : FMmt) (s : State) : Out :=
  runMm s f.c (fun s =>
    let p := s.pattern f.p.val
    let kind := patKind p.desc
    let t := s.treeSeen (patTt p.desc)
    { acc := f.acc, a := s.opnd f.a false f.af 32 f.t, b := Opnd.none, range := s.patOk f.p.val,
      legal := kind != 7 && kind != 8, regs := [], pois := false, fmtOk := !f.t || transFmt f.af,
      void := patAnyVoid p 32, readsTile := false,
      run := fun ca _ =>
        let a := (decRows f.af 0 32 ca).1
        let ws := (enumFrom 0 a).flatMap (fun r => (enumFrom 0 r.2).map (fun q =>
          match patItem p t 32 r.1 q.1, q.2 with
          | .one, .v x => if f.sr == .orAnd then (if x.isZero then 0#32 else 0x3F800000#32) else f32Bits x
          | _, _ => identity f.sr))
        (tileOf ws (mkMd true (if f.g then s.lse else (s.tileNow f.acc.val).tag)), 0#6),
      occ := 0, cls := .mxf })

/-- OUTER (R312). -/
def execOuter (f : FOuter) (s : State) : Out :=
  runMm s f.c (fun s =>
    let va := s.readV f.va
    let vb := s.readV f.vb
    { acc := f.acc, a := Opnd.none, b := Opnd.none, range := s.okV f.va 1 && s.okV f.vb 1, legal := true,
      regs := [va, vb], pois := false, fmtOk := true, void := false, readsTile := true,
      run := fun _ _ =>
        let as := (unpackN (fmtWidth f.af) 32 va.val.toNat).map (decElem f.af)
        let bs := (unpackN (fmtWidth f.bf) 32 vb.val.toNat).map (decElem f.bf)
        let rt := retag f.g s.lse (s.tileNow f.acc.val)
        let r := (enumFrom 0 as).flatMap (fun p => (enumFrom 0 bs).map (fun q =>
          let o := f32Val (rt.1.getD (32 * p.1 + q.1) 0)
          let x := p.2.mul q.2
          let y := o.add x
          (f32Bits y, freshNan y (o.isNan || p.2.isNan || q.2.isNan) ||| (flags32 y &&& fOvf))))
        (tileOf (r.map (·.1)) (mkMd true rt.2.1), rt.2.2 ||| r.foldl (fun a q => a ||| q.2) 0#6),
      occ := 0, cls := .mxf })

/-! ## Latches and whole tiles (R109, R313) -/

def execLatch (f : FLatch) (s : State) : Out :=
  runSlot s f.c none [] false (0, 2) (fun s _ =>
    chk (decide (f.k.val < s.me.lats.count) && s.okV (groupOp f.v) 12) cRegrange (
    s.withReads (s.readRun (groupOp f.v) 12) (fun s vs =>
      .ok (s.result .mxf (.k f.k.val (BitVec.ofNat 49152 (ofRegs vs)))))))

/-- ACLR also clears the tile's mark (R109, R315). -/
def execAclr (f : FAcc) (s : State) : Out :=
  runSlot s f.c none [] false (1, 1) (fun s _ =>
    chk (s.tilesOk f.acc.val 1) cRegrange (
    .ok ((s.result .mxf (.tile f.acc.val Tile.zero)).result .mxf (.mark f.acc.val 0))))

/-- AMOV reads its source under the declared latency (R37, R313). -/
def execAmov (f : FAmov) (s : State) : Out :=
  runSlot s f.c none [] false (0, 1) (fun s _ =>
    chk (s.tilesOk f.ad.val 1 && s.tilesOk f.as.val 1) cRegrange (
    chk (f.ad != f.as) cIllop (
    chk (!s.tileSeenBad f.as.val) cEccu (
    .ok (s.result .mxf (.tile f.ad.val (s.tileSeen f.as.val)))))))

/-- ASCALE (R313). -/
def execAscale (f : FAscale) (s : State) : Out :=
  runSlot s f.c none [f.a] false (0, 1) (fun s vs =>
    chk (s.tilesOk f.acc.val 1) cRegrange (
    chk (!s.tileNowBad f.acc.val) cEccu (
    let t := s.tileNow f.acc.val
    let m := f32Val ((vs.getD 0 0).setWidth 32)
    let r := t.list.map (fun w =>
      let x := f32Val w
      let y := x.mul m
      (f32Bits y, freshNan y (x.isNan || m.isNan) ||| flags32 y))
    let s := s.flag (r.foldl (fun a q => a ||| q.2) 0#6)
    .ok (s.result .mxf (.tile f.acc.val (tileOf (r.map (·.1)) (mkMd true t.tag)))))))

/-! ## Norms and staging (R314 to R317) -/

/-- The elements of a tile times 2^−TAG, rounded only where that under- or overflows; an overflow sets OVF. -/
def Tile.untagged (t : Tile) : List Val × Flags :=
  let l := t.list.map (fun w => (f32Val w).scale2 (-t.tag))
  (l.map rne32, l.foldl (fun a v => a ||| (flags32 v &&& fOvf)) 0#6)

/-- One step of ANORM2: FP32 with the flag of an overflow. A NaN is canonical. -/
def roundStep (v : Val) : Val × Flags := (rne32 v, flags32 v &&& fOvf)

/-- The squared norm of tiles (R314). -/
def norm2 (ts : List Tile) : Val × Flags :=
  let step (t : Tile) : Val × Flags :=
    let u := t.untagged
    let r := roundStep (sumVals (u.1.map (fun v => v.mul v)))
    (r.1, r.2 ||| u.2)
  match ts.map step with
  | [] => (vZero, 0#6)
  | r :: l => l.foldl (fun acc q =>
      let y := roundStep (acc.1.add q.1)
      (y.1, acc.2 ||| q.2 ||| y.2)) r

def maxAbs (ts : List Tile) : Val × Flags :=
  let us := ts.map Tile.untagged
  ((us.flatMap (·.1)).foldl (fun a v => a.max2 v.abs) vZero, us.foldl (fun a u => a ||| u.2) 0#6)

/-- The result of a norm in D; OVF where a rounding overflowed and no element is NaN (R314). -/
def normOp (f : FNorm) (s : State) (op : List Tile → Val × Flags) : Out :=
  runSlot s f.c none [] false (xCnt f.d) (fun s _ =>
    let ns := (List.range (f.n1.val + 1)).map (fun t => f.acc.val + t)
    chk (s.tilesOk f.acc.val (f.n1.val + 1)) cRegrange (
    chk (!ns.any s.tileSeenBad) cEccu (
    let r := op (ns.map s.tileSeen)
    let fl := if r.1.isNan then 0#6 else r.2
    .ok ((s.flag fl).result .mxf (.x f.d.val ((f32Bits r.1).setWidth 64))))))

def execAnorm2 (f : FNorm) (s : State) : Out := normOp f s norm2
def execAmaxabs (f : FNorm) (s : State) : Out := normOp f s maxAbs

/-- A mark as visible at the bundle (R315). -/
def State.markSeen (s : State) (n : Nat) : BitVec 128 := Tab.get 0 (s.me.accs.base + n) s.myCore.marks

/-- BIM.STAGE (R316). -/
def execBimStage (f : FBimStage) (s : State) : Out :=
  let n := f.n1.val + 1
  runSlot s f.c none [] false (0, n) (fun s _ =>
    chk (s.tilesOk f.acc.val n && s.tilesOk f.ac.val n) cRegrange (
    let apart := decide (f.acc.val + n ≤ f.ac.val) || decide (f.ac.val + n ≤ f.acc.val)
    chk (apart && !(s.markSeen f.acc.val).getLsbD 0) cIllop (
    chk (!(List.range n).any (fun t => s.tileSeenBad (f.ac.val + t) || s.tileNowBad (f.acc.val + t))) cEccu (
    .ok ((List.range n).foldl (fun s t =>
      let src := s.tileSeen (f.ac.val + t)
      let old := s.tileNow (f.acc.val + t)
      let r := (src.list.zip old.list).map (fun q =>
        let e := f32Val q.1
        let x0 := if f.g then e.scale2 (-src.tag) else e
        let x := if f.g then rne32 x0 else e
        let o := f32Val q.2
        let y := o.add x
        (f32Bits y, (if f.g then flags32 x0 &&& fOvf else 0#6) ||| freshNan y (o.isNan || e.isNan) ||| (flags32 y &&& fOvf)))
      (s.flag (r.foldl (fun a q => a ||| q.2) 0#6)).result .mxf
        (.tile (f.acc.val + t) (tileOf (r.map (·.1)) (mkMd true old.tag)))) s)))))

/-- The factor of a mark (R317). -/
def bimFactor (n2 lim : Val) : Val :=
  match n2 with
  | .nan => .nan
  | .inf _ => if lim.isInf && !lim.sign then vOne else vZero
  | .fin _ n d =>
    let (rn, rd) := sqrtFrac n d
    let norm := rne32 (.fin false rn rd)
    if lim.isNan then .nan
    else if norm.lt lim || norm.eqv lim then vOne
    else rne32 (lim.div norm)

def mkMark (cnt lcid ord : Nat) (n2 f : Word32) : BitVec 128 :=
  BitVec.ofNat 128 (1 + cnt % 64 * 2 ^ 16 + lcid % 1024 * 2 ^ 22 + ord % 2 ^ 32 * 2 ^ 32 + n2.toNat * 2 ^ 64 +
    f.toNat * 2 ^ 96)

/-- BIM.MARK (R317): its group is read in Hearth order; it sets no flag. A group past a63 is REGRANGE by R207, which R317 cites as it says
ILLOP (log 34). -/
def execBimMark (f : FBimMark) (s : State) : Out :=
  runSlot s f.c none [] false (1, 0) (fun s _ =>
    let ns := (List.range (f.n1.val + 1)).map (fun t => f.acc.val + t)
    chk (s.tilesOk f.acc.val (f.n1.val + 1)) cRegrange (
    chk (!(s.markSeen f.acc.val).getLsbD 0) cIllop (
    chk (!ns.any s.tileNowBad) cEccu (
    let n2 := (norm2 (ns.map s.tileNow)).1
    let m := mkMark f.n1.val (s.lcid s.cur) s.me.ordc.toNat (f32Bits n2)
      (f32Bits (bimFactor n2 (f32Val s.me.view.bimlim)))
    let s := s.modMe (fun c => { c with ordc := c.ordc + 1#32 })
    .ok (s.result .mxf (.mark f.acc.val m))))))

end Sys2Proof.Machine
end

