-- ==== Sys2Proof/Machine/Scale.lean ====
section
/-! DEFINITION. The SC slot: scale registers, patterns, the loss-scale exponent, the rounding generator's registers, the
bounded-influence limit and token trees (R112, R113, R119, R318 to R329). -/

namespace Sys2Proof.Machine

open Sys2Proof

/-! ## Scale registers (R319, R320) -/

def State.scOk (s : State) (ns : List Nat) : Bool := ns.all (fun n => decide (n < s.me.scs.count))

/-- LSC (R319): 512 or 1,024 consecutive bytes from the origin; EDGE and the bounds are not used; the
Mantel by SPACE 3 (R130; log 45). -/
def execLsc (f : FLsc) (s : State) : Out :=
  let ns := setNames f.scn.val (if f.two then 2 else 1)
  runSlot s f.c none [] false (ns.length, 0) (fun s _ =>
    let g := s.gen f.gn
    let region := s.regionAt (clusterOf s.cur) g.base.toNat
    chk (s.scOk ns && (g.space != 1 || region.isSome)) cRegrange (
    chk (g.space != 2 && g.dimsRaw != 7) cIllop (
    let sd : Side :=
      match g.space, region with
      | 0, _ => .mem
      | 1, some r => .sp (clusterOf s.cur) r.off (2 ^ r.lsize)
      | _, _ => .mantel (dieOf s.cur)
    let row : List TByte := (List.range (512 * ns.length)).map (fun b => (sd.at (g.origin + BitVec.ofNat 64 b), 255))
    s.readTile g.strm sd [row] (fun s rows =>
      let vs := toRegs ns.length (packN 8 (rows.flatten.map BitVec.toNat))
      .ok ((ns.zip vs).foldl (fun s p => s.result .scale (.sc p.1 p.2)) s)))))

/-- SCSET (R320): one 64-bit word of a scale register. -/
def execScset (f : FScset) (s : State) : Out :=
  runSlot s f.c none [f.a] false (1, 0) (fun s vs =>
    chk (s.scOk [f.scn.val]) cRegrange (.ok (s.result .scale (.scw f.scn.val f.woff.val [vs.getD 0 0]))))

/-! ## Patterns (R113, R321 to R323) -/

/-- The payload bits from `lo` up are zero. -/
def payZeroFrom (d : BitVec 128) (lo : Nat) : Bool := d.toNat / 2 ^ lo == 0

/-- A descriptor that R113 allows. -/
def patLegal (d : BitVec 128) : Bool :=
  let k := patKind d
  let klim := decide (patKlim d ≤ 768)
  if k ≤ 5 then patNdiag d == 0 && klim && payZeroFrom d 26
  else if k = 6 then patNdiag d == 0 && klim && decide (patKw d ≤ 768) && payZeroFrom d 36
  else if k = 7 then patNdiag d != 0 && payZeroFrom d (16 * patNdiag d + 16)
  else if k ≤ 10 then patNdiag d == 0 && klim && bits d.toNat 26 10 == 0 && payZeroFrom d 49
  else if k = 11 then patNdiag d == 0 && payZeroFrom d 33
  else false

def State.patShare (s : State) (n : Nat) : Bool := decide (n < s.me.pats.count)

/-- PSET (R321); a descriptor that R113 forbids is ILLENC whatever the guard (R192; log 44). -/
def execPset (f : FPset) (s : State) : Out :=
  let d (vs : List Word) : BitVec 128 := vs.getD 1 0 ++ vs.getD 0 0
  runSlot s f.c none [f.a, f.b] false (1, 0) (fun s vs =>
    chk (s.patShare f.pn.val) cRegrange (.ok (s.result .pattern (.pat f.pn.val (d vs) none))))
    (fun vs => !patLegal (d vs))

/-- The 13-bit code of a vector operand (R195). -/
def vopBits (v : VOp) : Nat := v.lvl.ctorIdx * 2 ^ 11 + v.idx.val

/-- The descriptor that PSETD writes, from the one visible (R322). -/
def psetdDesc (old : BitVec 128) (kc : PKind) (vs : VOp) : BitVec 128 :=
  BitVec.ofNat 128 (8 + kc.ctorIdx + bits old.toNat 4 1 * 2 ^ 4 + bits old.toNat 8 8 * 2 ^ 8 +
    bits old.toNat 16 10 * 2 ^ 16 + vopBits vs * 2 ^ 36)

/-- PSETD (R322). The descriptor's own check needs a pattern of the share; it is made whatever the guard (R192; log 44). -/
def execPsetd (f : FPsetd) (s : State) : Out :=
  let d := psetdDesc (s.pattern f.pn.val).desc f.kc f.vs
  runSlot s f.c none [] false (1, 0) (fun s _ =>
    chk (s.patShare f.pn.val && s.okV f.vs 1) cRegrange (
    s.withReads [s.readV f.vs] (fun s vs =>
      .ok (s.result .pattern (.pat f.pn.val d (some ((vs.getD 0 0).setWidth 512)))))))
    (fun _ => s.patShare f.pn.val && !patLegal d)

/-- PSETT (R323). -/
def execPsett (f : FPsett) (s : State) : Out :=
  runSlot s f.c none [f.a] false (1, 0) (fun s vs =>
    let x := (vs.getD 0 0).toNat
    let d := BitVec.ofNat 128 (11 + f.tt.val * 2 ^ 16 + bits x 0 7 * 2 ^ 19 + bits x 8 7 * 2 ^ 26)
    chk (s.patShare f.pn.val && decide (f.tt.val < s.me.tts.count)) cRegrange (
    .ok (s.result .pattern (.pat f.pn.val d none))))

/-! ## Exponent, generator registers and limit (R324, R325) -/

def execSetls (f : FSetls) (s : State) : Out :=
  runSlot s f.c none [] false (1, 0) (fun s _ => .ok (s.result .scale (.lse f.lse)))

def execSetlsRegister (f : FSca) (s : State) : Out :=
  runSlot s f.c none [f.a] false (1, 0) (fun s vs =>
    let v := (vs.getD 0 0).toInt
    chk (decide (-64 ≤ v) && decide (v ≤ 63)) cIllop (.ok (s.result .scale (.lse (BitVec.ofInt 7 v)))))

def execSrseed (f : FSca) (s : State) : Out :=
  runSlot s f.c none [f.a] false (0, 0) (fun s vs => .ok (s.resultNext (.srseed (vs.getD 0 0))))

def execSrctrset (f : FSca) (s : State) : Out :=
  runSlot s f.c none [f.a] false (0, 0) (fun s vs => .ok (s.resultNext (.srctr (vs.getD 0 0))))

/-- BIMLIM (R325): a value that is a NaN or not above zero is ILLOP. -/
def execBimlim (f : FSca) (s : State) : Out :=
  runSlot s f.c none [f.a] false (0, 0) (fun s vs =>
    let v := (vs.getD 0 0).setWidth 32
    chk (vZero.lt (f32Val v)) cIllop (.ok (s.resultNext (.bimlim v))))

/-! ## Token trees (R119, R326 to R329) -/

/-- A tree as the latest earlier token-tree write of the context left it (R326). -/
def State.treeNow (s : State) (n : Nat) : Tree :=
  match s.me.latest (Res.same (.tree n Tree.reset)) with
  | some (.tree _ t) => t
  | _ => s.treeSeen n

/-- A node written (R119). -/
def mkNode (parent depth tok : Nat) (valid acc : Bool) : Word :=
  BitVec.ofNat 64 (parent + depth * 2 ^ 7 + boolBit valid 14 + boolBit acc 15 + tok * 2 ^ 16)

/-- A node of a tree replaced. -/
def Tree.setNode (t : Tree) (n : Nat) (w : Word) : Tree := { t with nodes := Tab.put n w t.nodes }

/-- TTADD on a tree (R328); none is ILLOP. -/
def Tree.add (t : Tree) (a b : Word) : Option Tree :=
  let n := bits a.toNat 0 7
  let q := bits a.toNat 8 7
  let w := t.node n
  if a.getLsbD 16 then
    (if nodeValid w then some (t.setNode n (w ||| BitVec.ofNat 64 (2 ^ 15))) else none)
  else if nodeValid w || q == n then none
  else if q = 127 then some (t.setNode n (mkNode 127 0 (b.toNat % 2 ^ 32) true false))
  else
    let p := t.node q
    if !nodeValid p || nodeDepth p == 127 then none
    else some (t.setNode n (mkNode q (nodeDepth p + 1) (b.toNat % 2 ^ 32) true false))

/-- The accepted nodes in ascending depth, those of one depth by number; only valid nodes can be accepted. -/
def Tree.accepted (t : Tree) : List Nat :=
  (List.range 128).flatMap (fun d =>
    (List.range 128).filter (fun n => nodeValid (t.node n) && nodeAcc (t.node n) && nodeDepth (t.node n) == d))

/-- The check of TTPRUNE (R329). -/
def Tree.pathOk (t : Tree) (as : List Nat) : Bool :=
  (enumFrom 0 as).all (fun p =>
    nodeDepth (t.node p.2) == p.1 && nodeParent (t.node p.2) == (if p.1 = 0 then 127 else as.getD (p.1 - 1) 0))

/-- The tree that TTPRUNE leaves (R329). -/
def Tree.prune (t : Tree) (as : List Nat) : Tree :=
  match as.getLast? with
  | none => { t with gen := t.gen + 1, nodes := [] }
  | some l =>
    { gen := t.gen + 1, basepos := t.basepos + BitVec.ofNat 32 (as.length - 1),
      nodes := [(0, mkNode 127 0 (nodeToken (t.node l)) true false)] }

/-- 128 words of 32 bits as a vector register. -/
def words128 (f : Nat → Nat) : VReg := BitVec.ofNat 4096 (packN 32 ((List.range 128).map f))

/-- The permutation of TTPRUNE (R329). -/
def permWords (as : List Nat) : VReg := words128 (fun j => as.getD j (2 ^ 32 - 1))

def State.ttShare (s : State) (n : Nat) : Bool := decide (n < s.me.tts.count)

def execTtnew (f : FTta) (s : State) : Out :=
  runSlot s f.c none [f.a] false (0, 1) (fun s vs =>
    chk (s.ttShare f.tt.val) cRegrange (
    .ok (s.result .ttree (.tree f.tt.val ⟨(s.treeNow f.tt.val).gen, (vs.getD 0 0).setWidth 32, []⟩))))

def execTtadd (f : FTtadd) (s : State) : Out :=
  runSlot s f.c none [f.a, f.b] false (0, 1) (fun s vs =>
    chk (s.ttShare f.tt.val) cRegrange (
    match (s.treeNow f.tt.val).add (vs.getD 0 0) (vs.getD 1 0) with
    | none => .trap (trapOf cIllop)
    | some t => .ok (s.result .ttree (.tree f.tt.val t))))

/-- TTPOS: positions of the valid nodes of the tree as visible (R327). -/
def execTtpos (f : FTtv) (s : State) : Out :=
  runSlot s f.c none [] false (vcnt f.vd 1) (fun s _ =>
    chk (s.ttShare f.tt.val && s.okV f.vd 1) cRegrange (
    let t := s.treeSeen f.tt.val
    let v := words128 (fun n =>
      if nodeValid (t.node n) then (t.basepos.toNat + nodeDepth (t.node n)) % 2 ^ 32 else 2 ^ 32 - 1)
    .ok (s.writeRun .ttree f.vd [v])))

def execTtprune (f : FTtv) (s : State) : Out :=
  runSlot s f.c none [] false ((vcnt f.vd 1).1, 1) (fun s _ =>
    chk (s.ttShare f.tt.val && s.okV f.vd 1) cRegrange (
    let t := s.treeNow f.tt.val
    let as := t.accepted
    chk (t.pathOk as) cIllop (
    .ok ((s.writeRun .ttree f.vd [permWords as]).result .ttree (.tree f.tt.val (t.prune as))))))

def execTtchk (f : FTtchk) (s : State) : Out :=
  runSlot s f.c none [f.a] false (guardCnt f.bd) (fun s vs =>
    chk (s.ttShare f.tt.val) cRegrange (
    .ok (s.result .ttree (.guard f.bd.val ((s.treeSeen f.tt.val).gen == (vs.getD 0 0).setWidth 8)))))

def execTtgen (f : FTt) (s : State) : Out :=
  runSlot s f.c none [] false (0, 1) (fun s _ =>
    chk (s.ttShare f.tt.val) cRegrange (
    let t := s.treeNow f.tt.val
    .ok (s.result .ttree (.tree f.tt.val { t with gen := t.gen + 1 }))))

end Sys2Proof.Machine
end

