-- ==== Sys2Proof/Machine/Flue.lean ====
section
/-! DEFINITION. The FL slot: drains, conversions, block codecs, norms, optimiser steps, the bounded-influence commit,
prefix sums and sampling descent (R330 to R354). -/

namespace Sys2Proof.Machine

open Sys2Proof

/-! ## Runs, flags and the generator (R66 to R68, R331) -/

/-- Registers of a run of `n` elements of `w` bits. -/
def runRegs (w n : Nat) : Nat := (n * w + 4095) / 4096

/-- The codes of a run. -/
def runCodes (w n : Nat) (vals : List VReg) : List Nat := unpackN w n (ofRegs vals)

/-- Codes as the registers of a run, zero beyond it. -/
def codeRegs (w : Nat) (cs : List Nat) : List VReg := toRegs (runRegs w cs.length) (packN w cs)

def orFlags (l : List Flags) : Flags := l.foldl (· ||| ·) 0#6

/-- The rounding of element `i` of an instruction (R65, R66, R68). -/
def State.rnd (s : State) (rm : RMode) (i : Nat) : Rnd :=
  match rm with
  | .rne => .rne
  | .rtz => .rtz
  | .sr => .sr (srU s.me.csr.srseed (s.lcid s.cur) (s.me.csr.srctr + BitVec.ofNat 64 i))

/-- SRCTR advances by `n` at commit, unless an earlier slot of the bundle wrote it (R67, R68). -/
def State.srStep (s : State) (n : Nat) : State :=
  if (s.me.wroteSr true).isSome then s else s.resultNext (.srctr (s.me.csr.srctr + BitVec.ofNat 64 n))

def State.srAdvance (s : State) (rm : RMode) (n : Nat) : State := if rm == .sr then s.srStep n else s

/-- An FL-slot operation: its names, its sources, its tiles, what else it reads; `body` takes the sources' registers (R332, R333). -/
def flueOp (s : State) (c : Common) (cnt : Nat × Nat) (srcs : List (VOp × Nat)) (dst : VOp × Nat) (tile nt : Nat)
    (share : State → Bool) (body : State → List (List VReg) → SlotR) (more : State → List VRead := fun _ => []) : Out :=
  runSlot s c none [] false cnt (fun s _ =>
    chk (srcs.all (fun p => s.okV p.1 p.2) && s.okV dst.1 dst.2 && s.tilesOk tile nt && share s) cRegrange (
    let rs := srcs.map (fun p => s.readRun p.1 p.2)
    s.withDead (rs.flatten ++ more s) (fun s =>
      withPois (rs.flatten ++ more s) (
      chk (!(List.range nt).any (fun t => s.tileSeenBad (tile + t))) cEccu (
      body s (rs.map (fun r => r.map (·.val))))))))

/-! ## The epilogue (R336) -/

/-- The bounds of EPCLP. -/
def Csrs.lo (c : Csrs) : Val := f32Val (c.epclp.setWidth 32)
def Csrs.hi (c : Csrs) : Val := f32Val ((c.epclp >>> 32).setWidth 32)

/-- The clamp: a NaN passes; CLAMPED where the value changed. -/
def clampVal (lo hi x : Val) : Val × Flags :=
  let y := if x.lt lo then lo else x
  let y := if hi.lt y then hi else y
  (y, flagIf (!x.isNan && !(y.eqv x && y.sign == x.sign)) fClamped)

/-- What the steps of a drain need beside the element. -/
structure EpiEnv where
  tag : Int
  scl : Val
  lo : Val
  hi : Val
  bias : Option (List Val)
deriving Repr

/-- One more step on a value with the flags so far. -/
def thenStep (a : Val × Flags) (on : Bool) (f : Val → Val × Flags) : Val × Flags :=
  if on then let r := f a.1; (r.1, a.2 ||| r.2) else a

/-- The steps of R336 before the encoding, for column `j`. -/
def epilogue (e : Epi) (v : EpiEnv) (j : Nat) (x : Val) : Val × Flags :=
  let a := thenStep (x, 0#6) e.g (fun x => scale32 x (-v.tag))
  let a := thenStep a e.se (fun x => mul32 x v.scl)
  let a := thenStep a v.bias.isSome (fun x => add32 x ((v.bias.getD []).getD j vZero))
  let a := match e.fn with
    | some f => thenStep a true (fnApply f)
    | none => a
  thenStep a e.ce (clampVal v.lo v.hi)

def State.epiEnv (s : State) (t : Tile) (bias : Option VReg) : EpiEnv :=
  { tag := t.tag, scl := f32Val s.me.view.epscl, lo := s.me.view.lo, hi := s.me.view.hi,
    bias := bias.map (fun b => (unpackN 32 32 b.toNat).map (fun c => f32Val (BitVec.ofNat 32 c))) }

/-! ## Drains (R337 to R339) -/

/-- A word of an integer tile drained (R338). -/
def drainInt (df : Fmt) (w : Word32) : Nat × Flags :=
  if df == .int8 then
    let x := w.toInt
    let y := min 127 (max (-128) x)
    ((y % 256).toNat, flagIf (decide (x ≠ y)) fSat)
  else (w.toNat, 0#6)

/-- The elements of a drain, each at its column and its number in the output. -/
def State.drainElems (s : State) (e : Epi) (v : EpiEnv) (l : List (Nat × Word32)) : List (Nat × Flags) :=
  (enumFrom 0 l).map (fun p =>
    if e.df.isInt then drainInt e.df p.2.2
    else
      let a := epilogue e v p.2.1 (f32Val p.2.2)
      let r := encElem e.df e.prop (s.rnd e.rm p.1) a.1
      (r.1, a.2 ||| r.2))

/-- A drain of some elements of a tile. -/
def drainOp (s : State) (c : Common) (acc : Fin 64) (vd : VOp) (e : Epi) (vb : Option VOp) (n : Nat)
    (pick : List Word32 → List (Nat × Word32)) : Out :=
  let k := runRegs (fmtWidth e.df) n
  flueOp s c (vcnt vd k) (match vb with | some b => [(b, 1)] | none => []) (vd, k) acc.val 1 (fun _ => true)
    (fun s vs =>
      let t := s.tileSeen acc.val
      let r := s.drainElems e (s.epiEnv t (vb.map (fun _ => (vs.getD 0 []).getD 0 0))) (pick t.list)
      let s := s.flag (orFlags (r.map (·.2)))
      .ok ((s.writeRun .drain vd (codeRegs (fmtWidth e.df) (r.map (·.1)))).srAdvance e.rm n))

def execDrain (f : FDrain) (s : State) : Out :=
  drainOp s f.c f.acc f.vd f.e f.vb 1024 (fun l => (enumFrom 0 l).map (fun p => (p.1 % 32, p.2)))

def execDrainr (f : FDrainR) (s : State) : Out :=
  drainOp s f.c f.acc f.vd f.e none 32 (fun l => enumFrom 0 (sliceD 0 l (32 * f.rc.val) 32))

def execDrainc (f : FDrainR) (s : State) : Out :=
  drainOp s f.c f.acc f.vd f.e none 32 (fun l =>
    (List.range 32).map (fun i => (f.rc.val, l.getD (32 * i + f.rc.val) 0)))

/-- DRAINQ (R339): the scale codes replace bytes 0 to 31 of scN; its write to that register counts once (R42). -/
def execDrainq (f : FDrainQ) (s : State) : Out :=
  let w := fmtWidth f.e.df
  let k := runRegs w 1024
  flueOp s f.c ((vcnt f.vd k).1 + 1, 0) [] (f.vd, k) f.acc.val 1 (fun s => s.scOk [f.scn.val]) (fun s _ =>
    let t := s.tileSeen f.acc.val
    let v := s.epiEnv t none
    let xs := (enumFrom 0 t.list).map (fun p => epilogue f.e v (p.1 % 32) (f32Val p.2))
    let rows := (enumFrom 0 (blocks 32 xs)).map (fun r =>
      encBlock f.e.df f.e.prop (fun j => s.rnd f.e.rm (32 * r.1 + j)) (r.2.map (fun a => some a.1)))
    let s := s.flag (orFlags (xs.map (·.2)) ||| orFlags (rows.map (·.2.2)))
    let s := s.writeRun .drain f.vd (codeRegs w (rows.flatMap (·.2.1)))
    let code := packN 8 (rows.map (·.1))
    let s := s.result .drain (.scw f.scn.val 0 ((unpackN 64 4 code).map (BitVec.ofNat 64)))
    .ok (s.srAdvance f.e.rm 1024))

/-! ## ARGSEL (R340) -/

/-- The column of the largest element that is not a NaN, the lowest of its equals; −1 with none. -/
def argRow (l : List Val) : Int :=
  ((enumFrom 0 l).foldl (fun (best : Option (Nat × Val)) p =>
    if p.2.isNan then best
    else
      match best with
      | none => some p
      | some b => if b.2.lt p.2 then some p else best) none).elim (-1) (fun p => (p.1 : Int))

def execArgsel (f : FFa) (s : State) : Out :=
  flueOp s f.c (vcnt f.vd 1) [] (f.vd, 1) f.acc.val 1 (fun _ => true) (fun s _ =>
    let rows := blocks 32 ((s.tileSeen f.acc.val).list.map f32Val)
    .ok (s.writeRun .drain f.vd [BitVec.ofNat 4096 (packN 32 (rows.map (fun r => (BitVec.ofInt 32 (argRow r)).toNat)))]))

/-! ## Element-wise conversion (R341) -/

/-- N of a V-form operation. -/
def vN (nr : Fin 64) : Nat := 128 * (nr.val + 1)

/-- Each element decoded, stepped and encoded once. -/
def convOp (f : FV) (s : State) (step : State → Val → Val × Flags) : Out :=
  let n := vN f.nr
  let ws := fmtWidth f.sf
  let wd := fmtWidth f.df
  flueOp s f.c (vcnt f.vd (runRegs wd n)) [(f.vs, runRegs ws n)] (f.vd, runRegs wd n) 0 0 (fun _ => true) (fun s vs =>
    let r := (enumFrom 0 (runCodes ws n (vs.getD 0 []))).map (fun p =>
      let a := step s (decElem f.sf p.2)
      let e := encElem f.df f.prop (s.rnd f.rm p.1) a.1
      (e.1, a.2 ||| e.2))
    let s := s.flag (orFlags (r.map (·.2)))
    .ok ((s.writeRun .drain f.vd (codeRegs wd (r.map (·.1)))).srAdvance f.rm n))

def execCvt (f : FV) (s : State) : Out := convOp f s (fun _ x => (x, 0#6))
def execFn (f : FVfn) (s : State) : Out := convOp f.v s (fun _ x => fnApply f.fn (rne32 x))
def execClampv (f : FV) (s : State) : Out := convOp f s (fun s x => clampVal s.me.view.lo s.me.view.hi x)
def execScalev (f : FV) (s : State) : Out := convOp f s (fun s x => (x.mul (f32Val s.me.view.epscl), 0#6))

/-! ## Generator fill (R342) -/

/-- u as FP32, exact. -/
def uBits (u : Nat) : Nat := (f32Bits (vRat u (2 ^ 24))).toNat

def execRng (f : FRng) (s : State) : Out :=
  let n := vN f.nr
  flueOp s f.c (vcnt f.vd (runRegs 32 n)) [] (f.vd, runRegs 32 n) 0 0 (fun _ => true) (fun s _ =>
    let seed := s.me.csr.srseed
    let at' (i : Nat) : Word := s.me.csr.srctr + BitVec.ofNat 64 i
    let l := s.lcid s.cur
    let cs := (List.range n).map (fun i =>
      if f.int then (srZ seed l (at' i)).toNat / 2 ^ 32 else uBits (srU seed l (at' i)))
    .ok ((s.writeRun .drain f.vd (codeRegs 32 cs)).srStep n))

/-! ## Block codecs (R343, R344) -/

/-- Chunks of `k` elements. -/
def chunks {α : Type} (k : Nat) : Nat → List α → List (List α)
  | 0, _ => []
  | n + 1, l => l.take k :: chunks k n (l.drop k)

/-- One register from bytes given as a packed number. -/
def regOf (x : Nat) : VReg := BitVec.ofNat 4096 x

/-- Q8B: the codes and the scale area. -/
def q8bRun (sgn prop : Bool) (r : Nat → Rnd) (xs : List Val) : List Nat × VReg × Flags :=
  let bs := (enumFrom 0 (chunks 256 (xs.length / 256) xs)).map (fun b => encB8q sgn prop (fun i => r (256 * b.1 + i)) b.2)
  (bs.flatMap (·.2.1), regOf (packN 32 (bs.map (fun b => b.1.toNat))), orFlags (bs.map (·.2.2)))

/-- QMX: the codes and the scale area (R61, R71 to R74). -/
def qmxRun (df : Fmt) (prop : Bool) (r : Nat → Rnd) (xs : List Val) : List Nat × VReg × Flags :=
  let cs := enumFrom 0 (chunks 32 (xs.length / 32) xs)
  if df == .int4g then
    let bs := cs.map (fun b => encInt4g prop (fun i => r (32 * b.1 + i)) b.2)
    (bs.flatMap (·.2.2.1),
      regOf (packN 16 (bs.map (·.1)) % 2 ^ 1536 + 2 ^ 1536 * packN 4 (bs.map (·.2.1))), orFlags (bs.map (·.2.2.2)))
  else
    let bs := cs.map (fun b => encBlock df prop (fun i => r (32 * b.1 + i)) (b.2.map some))
    (bs.flatMap (·.2.1), regOf (packN 8 (bs.map (·.1))), orFlags (bs.map (·.2.2)))

/-- An encoder to a block-coded run. -/
def quantOp (f : FV) (s : State) (run : (Nat → Rnd) → List Val → List Nat × VReg × Flags) : Out :=
  let n := vN f.nr
  let ws := fmtWidth f.sf
  let k := runRegs (fmtWidth f.df) n + 1
  flueOp s f.c (vcnt f.vd k) [(f.vs, runRegs ws n)] (f.vd, k) 0 0 (fun _ => true) (fun s vs =>
    let r := run (s.rnd f.rm) ((runCodes ws n (vs.getD 0 [])).map (decElem f.sf))
    .ok (((s.flag r.2.2).writeRun .drain f.vd (codeRegs (fmtWidth f.df) r.1 ++ [r.2.1])).srAdvance f.rm n))

def execQ8b (f : FV) (s : State) : Out := quantOp f s (q8bRun (f.df == .b8qs) f.prop)
def execQmx (f : FV) (s : State) : Out := quantOp f s (qmxRun f.df f.prop)

/-- A decoder of a block-coded run: `val` gives element `i`'s value from its code and the scale area. -/
def dequantOp (f : FV) (s : State) (val : VReg → Nat → Nat → Val) : Out :=
  let n := vN f.nr
  let k := runRegs (fmtWidth f.sf) n
  let wd := fmtWidth f.df
  flueOp s f.c (vcnt f.vd (runRegs wd n)) [(f.vs, k + 1)] (f.vd, runRegs wd n) 0 0 (fun _ => true) (fun s vs =>
    let regs := vs.getD 0 []
    let sc := regs.getD k 0
    let r := (enumFrom 0 (runCodes (fmtWidth f.sf) n (regs.take k))).map (fun p =>
      encElem f.df f.prop (s.rnd f.rm p.1) (val sc p.1 p.2))
    let s := s.flag (orFlags (r.map (·.2)))
    .ok ((s.writeRun .drain f.vd (codeRegs wd (r.map (·.1)))).srAdvance f.rm n))

/-- The absolute maximum of block `b` in a scale area. -/
def absmaxAt (sc : VReg) (b : Nat) : Word32 := (sc >>> (32 * b)).setWidth 32

def execDq8b (f : FV) (s : State) : Out :=
  dequantOp f s (fun sc i c => decB8q (f.sf == .b8qs) c (absmaxAt sc (i / 256)))

def execDqmx (f : FV) (s : State) : Out :=
  dequantOp f s (fun sc i c =>
    let b := i / 32
    if f.sf == .int4g then
      decInt4g c (bits sc.toNat (8 * (192 + b / 2) + 4 * (b % 2)) 4) (bits sc.toNat (16 * b) 16)
    else decBlock f.sf (bits sc.toNat (8 * b) 8) c)

/-! ## Norms and step scaling (R345 to R347) -/

/-- A sum rounded to FP32 with OVF only. -/
def sumSq (l : List Val) : Val × Flags := roundStep (sumVals (l.map (fun v => v.mul v)))

def execNormv (f : FNormv) (s : State) : Out :=
  let n := vN f.nr
  let ws := fmtWidth f.sf
  flueOp s f.c (vcnt f.vd 1) [(f.vs, runRegs ws n)] (f.vd, 1) 0 0 (fun _ => true) (fun s vs =>
    let xs := (runCodes ws n (vs.getD 0 [])).map (decElem f.sf)
    let r : Val × Flags :=
      match (chunks 32 (n / 32) xs).map sumSq with
      | [] => (vZero, 0#6)
      | a :: l => l.foldl (fun acc q => let y := roundStep (acc.1.add q.1); (y.1, acc.2 ||| q.2 ||| y.2)) a
    let m := xs.foldl (fun a v => a.max2 v.abs) vZero
    .ok ((s.flag r.2).writeRun .drain f.vd [regOf (packN 32 [(f32Bits r.1).toNat, (f32Bits m).toNat])]))

/-- Bytes 4i + 3 : 4i of a register. -/
def wordAt (v : VReg) (i : Nat) : Word32 := (v >>> (32 * i)).setWidth 32

/-- A register with its low two words replaced. -/
def withPair (v : VReg) (a b : Word32) : VReg := (v >>> 64 <<< 64) ||| (b ++ a : BitVec 64).setWidth 4096

/-- TRUST1 (R346); DEADREAD of its chained vD, which R426 does not place, comes before ECCU of vB and of the tile (log 16). -/
def execTrust1 (f : FTrust1) (s : State) : Out :=
  flueOp s f.c (vcnt f.vd 1) [(f.vb, 8)] (f.vd, 1) f.acc.val 1 (fun _ => true) (fun s vs =>
    let o := (s.readChained 1 f.vd).val
    let ws := ((runCodes 32 1024 (vs.getD 0 [])).map (fun c => f32Val (BitVec.ofNat 32 c)))
    let t := s.tileSeen f.acc.val
    let us : List Val × Flags := if f.g then t.untagged else (t.list.map f32Val, 0#6)
    let w := sumSq ws
    let u := sumSq us.1
    let a := add32 (f32Val (wordAt o 0)) w.1
    let b := add32 (f32Val (wordAt o 1)) u.1
    let s := s.flag (us.2 ||| w.2 ||| u.2 ||| a.2 ||| b.2)
    .ok (s.writeRun .drain f.vd [withPair o (f32Bits a.1) (f32Bits b.1)] 1))
    (fun s => [s.readChained 1 f.vd])

/-- Correctly rounded square root and reciprocal (R89). -/
def sqrt32 (v : Val) : Val := fnVal .sqrt 0 v
def rcp32 (v : Val) : Val := fnVal .rcp 0 v

/-- A product and a sum rounded to FP32. -/
def mulR (a b : Val) : Val := rne32 (a.mul b)
def addR (a b : Val) : Val := rne32 (a.add b)

/-- Every element of a run times a factor (R347), whose own roundings set no flag: OVF and UNF are those of the products (log 33). -/
def factorOp (f : FVn) (s : State) (factor : State → Val → Val → Val) : Out :=
  let n := vN f.nr
  let k := f.nr.val + 1
  flueOp s f.c (vcnt f.vd k) [(f.vs, 1), (f.vd, k)] (f.vd, k) 0 0 (fun _ => true) (fun s vs =>
    let p := (vs.getD 0 []).getD 0 0
    let m := factor s (f32Val (wordAt p 0)) (f32Val (wordAt p 1))
    let r := (runCodes 32 n (vs.getD 1 [])).map (fun c =>
      let y := mul32 (f32Val (BitVec.ofNat 32 c)) m
      ((f32Bits y.1).toNat, y.2))
    let s := s.flag (orFlags (r.map (·.2)) ||| flagIf m.isNan fNan)
    .ok (s.writeRun .drain f.vd (codeRegs 32 (r.map (·.1)))))

def execTrust2 (f : FVn) (s : State) : Out :=
  factorOp f s (fun s a b =>
    let r := if a.isNan || b.isNan then .nan
      else if a.isZero || b.isZero then vOne else mulR (sqrt32 a) (rcp32 (sqrt32 b))
    mulR r (f32Val s.me.view.epscl))

def execClipg (f : FVn) (s : State) : Out :=
  factorOp f s (fun _ a lim =>
    let nrm := sqrt32 a
    if nrm.isNan || lim.isNan then .nan
    else if !lim.lt nrm then vOne else mulR lim (rcp32 nrm))

/-! ## Optimiser updates (R348 to R350) -/

/-- The parameters of the register after the gradient. -/
structure UpdPar where
  lr : Val
  b1 : Val
  ob1 : Val
  b2 : Val
  ob2 : Val
  eps : Val
  wd : Val
  c1 : Val
  c2 : Val
  gsc : Val
deriving Repr

def updPar (v : VReg) : UpdPar :=
  let w (i : Nat) : Val := f32Val (wordAt v i)
  ⟨w 0, w 1, w 2, w 3, w 4, w 5, w 6, w 7, w 8, w 9⟩

/-- One element of UPD.ADAM: the moments and the weight (R349). -/
def adamElem (p : UpdPar) (w g0 m v : Val) : Val × Val × Val :=
  let g := mulR g0 p.gsc
  let m' := addR (mulR p.b1 m) (mulR p.ob1 g)
  let v' := addR (mulR p.b2 v) (mulR p.ob2 (mulR g g))
  let den := addR (sqrt32 (mulR v' p.c2)) p.eps
  let d := mulR p.lr (addR (mulR (mulR m' p.c1) (rcp32 den)) (mulR p.wd w))
  (m', v', addR w d.neg)

/-- One element of UPD.SGDM (R350). -/
def sgdmElem (p : UpdPar) (w g0 m : Val) : Val × Val :=
  let g := addR (mulR g0 p.gsc) (mulR p.wd w)
  let m' := addR (mulR p.b1 m) g
  (m', addR w (mulR p.lr m').neg)

/-- The registers of the state span: W, O, MC, VC, AM. -/
structure UpdLay where
  e : Nat
  o : Nat
  mc : Nat
  vc : Nat
deriving DecidableEq, Repr

def updLay (nr : Fin 64) (adam : Bool) : UpdLay :=
  let e := nr.val + 1
  ⟨e, e / 2, (e + 3) / 4, if adam then (e + 3) / 4 else 0⟩

def UpdLay.regs (l : UpdLay) : Nat := l.e + l.o + l.mc + l.vc + 1

/-- Decoded moments, rounded to FP32 (R63): the area's codes, and the absolute maxima from word `j` of AM. -/
def moments (sgn : Bool) (n : Nat) (area : List VReg) (am : VReg) (j : Nat) : List Val :=
  (enumFrom 0 (runCodes 8 n area)).map (fun p => rne32 (decB8q sgn p.2 (absmaxAt am (j + p.1 / 256))))

/-- An optimiser step. Flags are those of the encodings (R70, R75). -/
def updOp (f : FV) (s : State) (adam : Bool) : Out :=
  let n := vN f.nr
  let l := updLay f.nr adam
  let gw := fmtWidth f.sf
  let gk := runRegs gw n
  flueOp s f.c (vcnt f.vd l.regs) [(f.vs, gk + 1), (f.vd, l.regs)] (f.vd, l.regs) 0 0 (fun _ => true) (fun s vs =>
    let gr := vs.getD 0 []
    let st := vs.getD 1 []
    let p := updPar (gr.getD gk 0)
    let area (i k : Nat) : List VReg := sliceD 0 st i k
    let am := st.getD (l.regs - 1) 0
    let gs := (runCodes gw n (gr.take gk)).map (decElem f.sf)
    let ws := (runCodes 32 n (area 0 l.e)).map (fun c => f32Val (BitVec.ofNat 32 c))
    let ms := moments true n (area (l.e + l.o) l.mc) am 0
    let vv := if adam then moments false n (area (l.e + l.o + l.mc) l.vc) am 32 else ws
    let r := ((ws.zip gs).zip (ms.zip vv)).map (fun q =>
      if adam then adamElem p q.1.1 q.1.2 q.2.1 q.2.2
      else let y := sgdmElem p q.1.1 q.1.2 q.2.1; (y.1, vZero, y.2))
    let om := if adam then 2 * n else n
    let m' := q8bRun true f.prop (s.rnd f.rm) (r.map (·.1))
    let v' := q8bRun false f.prop (fun i => s.rnd f.rm (n + i)) (r.map (·.2.1))
    let os := (enumFrom 0 r).map (fun q => encElem f.df f.prop (s.rnd f.rm (om + q.1)) q.2.2.2)
    let am' : VReg := if adam then m'.2.1 ||| (v'.2.1 <<< 1024) else m'.2.1
    let out := codeRegs 32 (r.map (fun q => (f32Bits q.2.2).toNat)) ++ codeRegs 16 (os.map (·.1)) ++ codeRegs 8 m'.1 ++
      (if adam then codeRegs 8 v'.1 else []) ++ [am']
    let s := s.flag (orFlags (os.map (·.2)) ||| m'.2.2 ||| (if adam then v'.2.2 else 0#6))
    .ok ((s.writeRun .drain f.vd out).srAdvance f.rm (om + n)))

def execUpdAdam (f : FV) (s : State) : Out := updOp f s true
def execUpdSgdm (f : FV) (s : State) : Out := updOp f s false

/-! ## The bounded-influence commit (R351, R352) -/

/-- Fields of a mark (R315). -/
def markV (m : BitVec 128) : Bool := m.getLsbD 0
def markN (m : BitVec 128) : Nat := if markV m then bits m.toNat 16 6 + 1 else 1
def markLcid (m : BitVec 128) : Nat := bits m.toNat 22 10
def markOrd (m : BitVec 128) : Nat := bits m.toNat 32 32
def markF (m : BitVec 128) : Word32 := (m >>> 96).setWidth 32

/-- One word of a total with a contribution, the product exact. -/
def commitWord (m : Val) (tot x : Word32) : Word32 × Flags :=
  let t := f32Val tot
  let e := f32Val x
  let y := t.add (m.mul e)
  (f32Bits y, freshNan y (t.isNan || e.isNan || m.isNan) ||| (flags32 y &&& fOvf))

/-- BIM.COMMIT: the total's registers and the mark's clear count toward R42. The names of the group that a valid mark gives are checked,
however large it is, and without one those of one tile's (R212, R351, R426). -/
def execBimCommit (f : FFa) (s : State) : Out :=
  let m := s.markSeen f.acc.val
  let sized := markV m && decide (markN m ≤ 8)
  let n := markN m
  runSlot s f.c none [] false (if sized then ((vcnt f.vd (8 * n)).1 + 1, 0) else (0, 0)) (fun s _ =>
    chk (s.okV f.vd (8 * n) && s.tilesOk f.acc.val n) cRegrange (
    chk (sized && markLcid m == s.lcid s.cur && markOrd m == s.me.commitn.toNat) cIllop (
    let tot := (List.range (8 * n)).map (fun t => s.readChained 2 (vplus f.vd t))
    s.withReads tot (fun s ts =>
      chk (!(List.range n).any (fun t => s.tileSeenBad (f.acc.val + t))) cEccu (
      let ss := (List.range n).flatMap (fun t => (s.tileSeen (f.acc.val + t)).list)
      let r := ((runCodes 32 (1024 * n) ts).zip ss).map (fun q => commitWord (f32Val (markF m)) (BitVec.ofNat 32 q.1) q.2)
      let s := s.flag (orFlags (r.map (·.2)))
      let s := s.writeRun .drain f.vd (codeRegs 32 (r.map (fun q => q.1.toNat))) 2
      let s := s.result .drain (.mark f.acc.val (m &&& ~~~1#128))
      .ok (s.modMe (fun c => { c with commitn := c.commitn + 1#32 })))))))

/-! ## Prefix sums and sampling descent (R353, R354) -/

/-- The global inclusive prefix of segments of 32. -/
def prefixRun : Option Val → List (List Val) → List (Val × Flags)
  | _, [] => []
  | c, seg :: l =>
    let out : List (Val × Flags) := seg.map (fun x =>
      match c with
      | none => (x, 0#6)
      | some b => add32 x b)
    out ++ prefixRun ((out.getLast?).map (·.1)) l

def execPsum (f : FVn) (s : State) : Out :=
  let n := vN f.nr
  let k := f.nr.val + 1
  flueOp s f.c (vcnt f.vd k) [(f.vs, k)] (f.vd, k) 0 0 (fun _ => true) (fun s vs =>
    let xs := (runCodes 32 n (vs.getD 0 [])).map (fun c => f32Val (BitVec.ofNat 32 c))
    let r := prefixRun none (chunks 32 (n / 32) xs)
    let s := s.flag (orFlags (r.map (·.2)))
    .ok (s.writeRun .drain f.vd (codeRegs 32 (r.map (fun q => (f32Bits q.1).toNat)))))

/-- A product rounded toward zero to FP32, with UNF. -/
def rtz32 (v : Val) : Val × Flags :=
  let r := fp32F.encode true true .rtz v
  (fp32F.decode r.1, r.2 &&& fUnf)

/-- The child that a residual selects: the first k with T < P(k), else the first with P(k) = P(31). -/
def sampChild (t : Val) (ps : List Val) : Nat :=
  match (enumFrom 0 ps).find? (fun p => t.lt p.2) with
  | some p => p.1
  | none => (((enumFrom 0 ps).find? (fun p => p.2.eqv (ps.getD 31 .nan))).map (·.1)).getD 31

/-- A descent step on T, IDX and LVL: the new T and IDX, with flags. -/
def sampStep (u : Nat) (t : Val) (idx : Nat) (start : Bool) (ps : List Val) : Val × Nat × Flags :=
  let r : Val × Flags := if start then rtz32 ((vRat u (2 ^ 24)).mul (ps.getD 31 .nan)) else (t, 0#6)
  let idx := if start then 0 else idx
  if r.1.isNan || ps.any (·.isNan) then (.nan, idx * 32 % 2 ^ 32, r.2 ||| fNan)
  else
    let k := sampChild r.1 ps
    let y := if k = 0 then (r.1, 0#6) else add32 r.1 (ps.getD (k - 1) vZero).neg
    (y.1, (idx * 32 + k) % 2 ^ 32, r.2 ||| y.2)

def execSampd (f : FSampd) (s : State) : Out :=
  flueOp s f.c (vcnt f.vd 1) [(f.vs, 1), (f.vd, 1)] (f.vd, 1) 0 0 (fun _ => true) (fun s vs =>
    let pv := (vs.getD 0 []).getD 0 0
    let st := (vs.getD 1 []).getD 0 0
    let lvl := wordAt st 2
    let start := lvl == 0#32
    let r := sampStep (srU s.me.csr.srseed (s.lcid s.cur) s.me.csr.srctr) (f32Val (wordAt st 0)) (wordAt st 1).toNat start
      ((List.range 32).map (fun k => f32Val (wordAt pv k)))
    let s := s.flag r.2.2
    let s := s.writeRun .drain f.vd [regOf (packN 32 [(f32Bits r.1).toNat, r.2.1, (lvl + 1#32).toNat])]
    .ok (if start then s.srStep 1 else s))

end Sys2Proof.Machine
end

