-- ==== Sys2Proof/Machine/Bundle.lean ====
section
/-! DEFINITION. A bundle as a whole: the resources its slots read and write, the checks of R211, what its slots wait for
before it issues, and what they reserve (R19, R20, R96, R102, R135, R194, R211 to R213, R225). -/

namespace Sys2Proof.Machine

open Sys2Proof

/-! ## Resources (R212, R213) -/

/-- The kinds of a resource; a resource is a kind and an index. -/
inductive RKind where
  | x | v | o | last | acc | latch | sc | pat | guard | gen | tree | handle
deriving DecidableEq, Repr

abbrev Rc := RKind × Nat

/-- `n` names from `a` on. -/
def rspan (k : RKind) (a n : Nat) : List Rc := (List.range n).map (fun t => (k, a + t))

/-- The names of a run of vector operands; the special level is no resource. -/
def rv (v : VOp) (n : Nat) : List Rc :=
  match v.lvl with
  | .main => rspan .v v.idx.val n
  | .opf => rspan .o v.idx.val n
  | .latch => [(.last, 0)]
  | .special => []

def rx (n : Nat) : List Rc := if n = 0 then [] else [(.x, n)]
def rb (n : Nat) : List Rc := if n = 0 then [] else [(.guard, n)]
def rsrc : Src → List Rc
  | .x n => rx n.val
  | _ => []
def rdst : Dst → List Rc
  | .x n => rx n.val
  | _ => []
def ropt (o : Option (Fin 64)) : List Rc :=
  match o with
  | some h => [(.handle, h.val)]
  | none => []
def rsets (f : Fmt) (k scn skip : Nat) : List Rc := (setNames (scn + skip) (setRegs f k)).map (fun n => (.sc, n))

/-- The resources that a matrix operand field reads. -/
def rmop (o : MOp) (isB : Bool) : List Rc :=
  match o.kind with
  | .group => rspan .v o.idx.val 12
  | .sp => [(.gen, o.idx.val)]
  | .pat => [(.pat, o.idx.val)]
  | .store => if isB then [(.latch, o.idx.val)] else [(.gen, o.idx.val)]

/-- What a slot operation states: common fields, scalar sources in order, destination, further resources read and written,
generators named for an access (R225). -/
structure Facts where
  c : Common
  srcs : List Src
  dst : Option Dst
  rd : List Rc
  wr : List Rc
  gens : List Nat
deriving Repr

/-- The facts of an operation without generators. -/
def fct (c : Common) (srcs : List Src := []) (dst : Option Dst := none) (rd : List Rc := []) (wr : List Rc := [])
    (gens : List Nat := []) : Facts := ⟨c, srcs, dst, rd, wr, gens⟩

def fR (f : FR) : Facts := fct f.c [f.a, f.b] (some f.d)
def fR1 (f : FR1) : Facts := fct f.c [f.a] (some f.d)
def xd (n : Fin 32) : Option Dst := some (.x n)
def fTile (f : FM) (store : Bool) : Facts :=
  let r := rv f.vd (tshape f.nrow f.nu f.fmt).regs
  fct f.c [] none (if store then r else []) (if store then [] else r) [f.gn.val]
def fAtom (f : FAtom) : Facts := fct f.c [f.a, f.b] (xd f.d)
def fCpy (f : FCpy) (more : List Nat) (srcs : List Src) : Facts :=
  fct f.c srcs none [] (ropt f.hd ++ ropt f.hs) ([f.gs.val, f.gd.val] ++ more)

/-- The scale sets of A and B in a matrix instruction. -/
def rscale (af bf : Fmt) (scr : Fin 16) (k : Nat) (useA useB : Bool) : List Rc :=
  let na := if useA then setRegs af k else 0
  (if useA then rsets af k scr.val 0 else []) ++ (if useB then rsets bf k scr.val na else [])

/-- The generators of matrix operands. -/
def mgens (o : MOp) (isB : Bool) : List Nat :=
  match o.kind with
  | .sp => [o.idx.val]
  | .store => if isB then [] else [o.idx.val]
  | _ => []

def fMm (f : FMm) : Facts :=
  let pa := f.a.kind == .pat
  let pb := f.b.kind == .pat
  let k := if pa then depth f.bf else if pb then depth f.af else min (depth f.af) (depth f.bf)
  fct f.c [] none (rmop f.a false ++ rmop f.b true ++ rscale f.af f.bf f.scr k (!pa) (!pb)) [(.acc, f.acc.val)]
    (mgens f.a false ++ mgens f.b true)

/-- A V-form operation by its spans. -/
def fV (c : Common) (vd : VOp) (nd : Nat) (rd : List Rc) : Facts := fct c [] none rd (rv vd nd)

def fConv (f : FV) : Facts := fV f.c f.vd (runRegs (fmtWidth f.df) (vN f.nr)) (rv f.vs (runRegs (fmtWidth f.sf) (vN f.nr)))
def fUpd (f : FV) (adam : Bool) : Facts :=
  fV f.c f.vd (updLay f.nr adam).regs (rv f.vs (runRegs (fmtWidth f.sf) (vN f.nr) + 1))
def fVn (f : FVn) (ns : Nat) : Facts := fV f.c f.vd (f.nr.val + 1) (rv f.vs ns)
def fDr (f : FDrainR) : Facts := fct f.c [] none [(.acc, f.acc.val)] (rv f.vd (runRegs (fmtWidth f.e.df) 32))

/-- The facts of a slot operation; a device step has none. -/
def facts : Instr → Option Facts
  | .add f | .sub f | .mul f | .mulh f | .mulhn f | .div f | .divn f | .rem f | .remn f | .and f | .or f | .xor f
  | .andn f | .shl f | .shr f | .sar f | .rol f | .min f | .max f | .minn f | .maxn f => some (fR f)
  | .clz f | .ctz f | .popc f | .mov f | .seqsel f | .admitReq f | .retire f => some (fR1 f)
  | .cmp f => some (fct f.c [f.a, f.b] none [] (rb f.bd.val))
  | .sel f => some (fct f.c [f.a, f.b] (xd f.dx) (rb f.bs.val))
  | .li f => some (fct f.c [] (some f.d))
  | .lih f => some (fct f.c [f.a] (some f.d))
  | .sext f | .zext f => some (fct f.c [f.a] (some f.d))
  | .gand f | .gor f => some (fct f.c [] none (rb f.ba.val ++ rb f.bb.val) (rb f.bd.val))
  | .gnot f => some (fct f.c [] none (rb f.ba.val) (rb f.bd.val))
  | .gset f | .gsetE f => some (fct f.c [f.a, f.b] none [] [(.gen, f.gn.val)])
  | .gbase f => some (fct f.c [f.a, f.b] none [] [(.gen, f.gn.val)])
  | .gstep f => some (fct f.c [] none [] [(.gen, f.gn.val)])
  | .gread f => some (fct f.c [] (some f.d) [(.gen, f.gn.val)])
  | .csrr f => some (fct f.c [] (some f.d))
  | .csrw f | .csrs f | .csrc f =>
    some (fct f.c [f.a] (some f.d) [] (if f.csr = .guard then rspan .guard 1 7 else []))
  | .br f => some (fct f.c)
  | .brc f => some (fct f.c [f.a])
  | .brx f | .ret f | .ldepthset f | .ctxl f => some (fct f.c [f.a])
  | .call f => some (fct f.c [] (some f.d))
  | .loop f =>
    some (fct f.c [] none (match f.cnt with
      | .regs sa nd => ((List.range (nd.val + 1)).map (fun d => sa.val + d)).flatMap rx
      | .lit _ => []))
  | .loopx f | .rot f | .yield f | .halt f | .tret f => some (fct f.c)
  | .grow f | .shrink f => some (fct f.c)
  | .bara f | .barw f | .bar f => some (fct f.c)
  | .waith f => some (fct f.c [] none [(.handle, f.h.val)])
  | .waitq f => some (fct f.c)
  | .trap f => some (fct f.c)
  | .tlbi f => some (fct f.c [f.a, f.b])
  | .ldt f | .ldtm f | .ldw f | .ldo f => some (fTile f false)
  | .ldl f => some (fct f.c [] none [] [(.latch, f.vd.idx.val)] [f.gn.val])
  | .ldg f => some (fct f.c [] none (rv f.vx 1) (rv f.vd (tshape f.nrow f.nu f.fmt).regs) [f.gn.val])
  | .lds f => some (fct f.c [f.a] (xd f.d))
  | .touch f | .touchw f => some (fct f.c [f.a, f.b])
  | .acq f => some (fct f.c [f.a] (xd f.d))
  | .prf f => some (fct f.c [f.a, f.b])
  | .wsphase f => some (fct f.c [] (xd f.d))
  | .stt f | .sttm f => some (fTile f true)
  | .sts f => some (fct f.c [f.a, f.b])
  | .rel f =>
    some (fct f.c [f.a, f.b] none ((List.range (2 * f.nr.val)).flatMap (fun j => rx (f.k.val + j))))
  | .fence f => some (fct f.c)
  | .spalloc f => some (fct f.c [] (xd f.d))
  | .spfree f => some (fct f.c [f.a])
  | .mbox f => some (fct f.c [f.a, f.b])
  | .ecInc f => some (fct f.c [] none (rv f.v 1))
  | .ecSnap f => some (fct f.c [] none [] (rv f.v ((4 * (f.en.val + 1) + 511) / 512)))
  | .aadd f | .amin f | .amax f | .aminn f | .amaxn f | .aand f | .aor f | .axor f | .aswp f => some (fAtom f)
  | .acas f => some (fct f.c [f.a, f.b, f.cmp] (xd f.d))
  | .cpy f | .cpyxPack f | .cpyxUnpack f | .cpyf f => some (fCpy f [] [])
  | .cpyg f => some (fCpy f.cp [f.gx.val] [f.sx])
  | .cpys f | .cpyd f => some (fCpy f.cp [f.gx.val] [])
  | .cpyr f => some (fCpy f.cp [] [])
  | .coll f => some (fCpy f.cp [] [f.sx])
  | .cpfill f => some (fct f.c [f.sx] none [] (ropt f.hd) [f.gd.val])
  | .cpmark f => some (fct f.c [] none [] (ropt f.hd))
  | .hset f => some (fct f.c [f.sx] none [] [(.handle, f.hd.val)])
  | .hdrain f | .hfree f => some (fct f.c [] none [] [(.handle, f.hd.val)])
  | .hq f => some (fct f.c [] (xd f.d) [(.handle, f.hd.val)])
  | .hwait f => some (fct f.c [] none [(.handle, f.hd.val)])
  | .mm f | .mmz f | .mmp f => some (fMm f)
  | .mmd f =>
    some (fct f.c [] none (rmop f.a false ++ rv f.d 1 ++ rscale f.af f.bf f.scr (depth f.af) true false)
      [(.acc, f.acc.val)] (mgens f.a false))
  | .mmt f => some (fct f.c [] none (rmop f.a false ++ [(.pat, f.p.val)]) [(.acc, f.acc.val)] (mgens f.a false))
  | .outer f => some (fct f.c [] none (rv f.va 1 ++ rv f.vb 1) [(.acc, f.acc.val)])
  | .latch f => some (fct f.c [] none (rspan .v f.v.val 12) [(.latch, f.k.val)])
  | .aclr f => some (fct f.c [] none [] [(.acc, f.acc.val)])
  | .amov f => some (fct f.c [] none [(.acc, f.as.val)] [(.acc, f.ad.val)])
  | .ascale f => some (fct f.c [f.a] none [] [(.acc, f.acc.val)])
  | .anorm2 f | .amaxabs f => some (fct f.c [] (xd f.d) (rspan .acc f.acc.val (f.n1.val + 1)))
  | .bimStage f =>
    some (fct f.c [] none (rspan .acc f.ac.val (f.n1.val + 1)) (rspan .acc f.acc.val (f.n1.val + 1)))
  | .bimMark f => some (fct f.c [] none (rspan .acc f.acc.val (f.n1.val + 1)))
  | .drain f =>
    some (fct f.c [] none ((.acc, f.acc.val) :: (match f.vb with | some b => rv b 1 | none => []))
      (rv f.vd (runRegs (fmtWidth f.e.df) 1024)))
  | .drainr f | .drainc f => some (fDr f)
  | .drainq f =>
    some (fct f.c [] none [(.acc, f.acc.val)] ((.sc, f.scn.val) :: rv f.vd (runRegs (fmtWidth f.e.df) 1024)))
  | .argsel f => some (fct f.c [] none [(.acc, f.acc.val)] (rv f.vd 1))
  | .bimCommit f =>
    some (fct f.c [] none (rspan .acc f.acc.val (min 8 (64 - f.acc.val)))
      (match f.vd.lvl with
        | .main => rspan .v f.vd.idx.val (min 64 (1536 - f.vd.idx.val))
        | .opf => rspan .o f.vd.idx.val (min 64 (32 - f.vd.idx.val))
        | _ => []))
  | .trust1 f => some (fct f.c [] none ((.acc, f.acc.val) :: rv f.vb 8) (rv f.vd 1))
  | .cvt f | .clampv f | .scalev f => some (fConv f)
  | .fn f => some (fConv f.v)
  | .rng f => some (fV f.c f.vd (runRegs 32 (vN f.nr)) [])
  | .q8b f | .qmx f =>
    some (fV f.c f.vd (runRegs (fmtWidth f.df) (vN f.nr) + 1) (rv f.vs (runRegs (fmtWidth f.sf) (vN f.nr))))
  | .dq8b f | .dqmx f =>
    some (fV f.c f.vd (runRegs (fmtWidth f.df) (vN f.nr)) (rv f.vs (runRegs (fmtWidth f.sf) (vN f.nr) + 1)))
  | .normv f => some (fV f.c f.vd 1 (rv f.vs (runRegs (fmtWidth f.sf) (vN f.nr))))
  | .psum f => some (fVn f (f.nr.val + 1))
  | .trust2 f | .clipg f => some (fVn f 1)
  | .sampd f => some (fV f.c f.vd 1 (rv f.vs 1))
  | .updAdam f => some (fUpd f true)
  | .updSgdm f => some (fUpd f false)
  | .lsc f => some (fct f.c [] none [] ((setNames f.scn.val (if f.two then 2 else 1)).map (fun n => (.sc, n))) [f.gn.val])
  | .scset f => some (fct f.c [f.a] none [] [(.sc, f.scn.val)])
  | .pset f => some (fct f.c [f.a, f.b] none [] [(.pat, f.pn.val)])
  | .psetd f => some (fct f.c [] none (rv f.vs 1) [(.pat, f.pn.val)])
  | .psett f => some (fct f.c [f.a] none [] [(.pat, f.pn.val)])
  | .setls f => some (fct f.c)
  | .setlsRegister f | .srseed f | .srctrset f | .bimlim f => some (fct f.c [f.a])
  | .ttnew f => some (fct f.c [f.a] none [] [(.tree, f.tt.val)])
  | .ttadd f => some (fct f.c [f.a, f.b] none [] [(.tree, f.tt.val)])
  | .ttpos f => some (fct f.c [] none [(.tree, f.tt.val)] (rv f.vd 1))
  | .ttprune f => some (fct f.c [] none [] ((.tree, f.tt.val) :: rv f.vd 1))
  | .ttchk f => some (fct f.c [f.a] none [(.tree, f.tt.val)] (rb f.bd.val))
  | .ttgen f => some (fct f.c [] none [] [(.tree, f.tt.val)])
  | .bundleIssue _ | .vacancyFill _ | .promotion _ | .resultWrite _ | .loopPassEnd _ | .pinExpiry _
  | .copyComplete _ _ _ | .copyStop _ _ | .handleDrainComplete _ _ | .copyResume _ _ | .copyAbort _ _ _
  | .barrierCompletion _ _ | .damperRelease _ _ _ | .lgenIncrement _ | .tagSweep _ _ | .scratchpadClear _
  | .mantelRefresh _ | .invalidationComplete _ | .trapDelivery _ | .tresume _ _
  | .launch _ | .launchPlacement _ | .launchEnd _ | .preemption _ | .semwait _ | .semsig _ | .wsload _
  | .tgadd _ | .tgrun _ | .taskComplete _ _ | .fenceCommand _ | .mark _ | .preempt _
  | .sqtail _ _ | .streamEnable _ _ | .kill _ | .xinvGo _ _ | .translationRootWrite _ _ _
  | .partitionConfigWrite _ _ _ | .registerWrite _ _ | .chimneyRecordTake _ | .frameWrite _ | .eventLogWrite _
  | .hostMemoryAccess _ | .portEnable _ | .portUp _ _ | .portFail _ | .flitReceive _ _ | .flitReplay _ _
  | .linkCalibration _ | .patrolScrub _ _ _ | .dramRefresh _ _ | .correctedError _ | .uncorrectableError _
  | .telemetrySample _ _ | .throttle _ _ | .clockRestore _ _ | .thermalStop | .powerUp | .attest | .cert
  | .fwupdate _ | .devlog _ | .writePerformed _ _ | .wsloadComplete _ | .streamDisable _ _ | .portDisable _
  | .powerDown => none

/-- The resources a slot reads: sources, guard bit, operands, generators. -/
def Facts.reads (f : Facts) : List Rc :=
  rb f.c.gs.val ++ f.srcs.flatMap rsrc ++ f.rd ++ f.gens.map (fun g => (.gen, g))

def Facts.writes (f : Facts) : List Rc :=
  (match f.dst with
    | some d => rdst d
    | none => []) ++ f.wr

/-- R211: no two slots write one resource, and no slot reads what another writes. -/
def clash : List Facts → Bool
  | [] => false
  | f :: l =>
    l.any (fun g => f.writes.any (fun r => g.writes.contains r || g.reads.contains r) ||
      f.reads.any (fun r => g.writes.contains r)) || clash l

/-- The facts of a bundle's slots. -/
def bundleFacts (l : List (Nat × Instr)) : List Facts := l.filterMap (fun p => facts p.2)

/-- The checks of a decoded bundle that need more than its bytes: resources, and a queue push needs ALU latency 1 (R194,
R211). -/
def State.bundleLegal (s : State) (g : Nat) (l : List (Nat × Instr)) : Bool :=
  let fs := bundleFacts l
  !clash fs && (s.lat g .alu == 1 || fs.all (fun f => match f.dst with | some d => !dIsQ d | none => true))

/-- The generators that the slots of a bundle name for an access (R225, R233). -/
def accessGens (l : List (Nat × Instr)) : List Nat := ((bundleFacts l).flatMap (·.gens)).eraseDups

/-! ## Blocking (R19, R20) -/

/-- The pops and pushes of message queues that a slot makes: pops by queue, the queue it pushes to. -/
def Facts.pops (f : Facts) : List Nat := f.srcs.filterMap (fun a => match a with | .mq n => some n.val | _ => none)
def Facts.pushTo (f : Facts) : Option Nat := match f.dst with | some (.mq n) => some n.val | _ => none

/-- Whether a handle keeps an instruction waiting: not in the state, and no error code to raise (R20, R123). -/
def Ctx.handleWaits (c : Ctx) (n : Nat) (st : HState) : Bool :=
  let h := c.handle n
  h.err == 0#8 && h.st != st

def Ctx.optWaits (c : Ctx) (o : Option (Fin 64)) (st : HState) : Bool :=
  match o with
  | some h => c.handleWaits h.val st
  | none => false

/-- Whether a handle that a copy start names has an error code to raise: the bundle then waits neither for its handles nor for
its channel (R20, R124). -/
def Ctx.optErr (c : Ctx) (o : Option (Fin 64)) : Bool :=
  match o with
  | some h => (c.handle h.val).err != 0#8
  | none => false

/-- The channel of a copy start. -/
def copyCh : Instr → Option (Fin 4)
  | .cpy f | .cpyxPack f | .cpyxUnpack f | .cpyf f => some f.ch
  | .cpyg f => some f.cp.ch
  | .cpys f | .cpyd f => some f.cp.ch
  | .cpyr f => some f.cp.ch
  | .coll f => some f.cp.ch
  | .cpfill f => some f.ch
  | .cpmark f => some f.ch
  | _ => none

/-- What a bundle waits for or takes: pops and pushes counted per queue, and the rest as conditions. -/
structure Needs where
  pops : List Nat
  push : List (Nat × Nat)
  chans : List Nat
  chim : Nat
  units : List Nat
  /-- Some further condition does not hold. -/
  stop : Bool
  /-- A copy start meets a full channel in lenient mode. -/
  full : List Nat
deriving Repr

def Needs.none : Needs := ⟨[], [], [], 0, [], false, []⟩

def countOf (a : Nat) (l : List Nat) : Nat := (l.filter (fun b => b == a)).length

/-- How many entries of an inbound queue nothing has reserved (R96, R243). -/
def State.freeEntriesOf (s : State) (core mq : Nat) : Nat :=
  ((Tab.get [] mq (s.core core).mq).filter (fun e => e.taken.isNone)).length

/-- Whether a GROW of another context of the core first blocked before one of context `i` and still waits (R102). -/
def State.growAhead (s : State) (core i : Nat) : Bool :=
  ((s.core core).growQ.takeWhile (fun k => k != i)).any (fun k =>
    match (s.ctx (core * 4 + k)).st with
    | .trapped => false
    | .empty => false
    | .halted => false
    | _ => true)

/-- What one operation adds, its guard being on. -/
def State.needsOf (s : State) (g : Nat) (i : Instr) (n : Needs) : Needs :=
  let c := s.ctx g
  let stop (b : Bool) : Needs := { n with stop := n.stop || b }
  let start (ch : Fin 4) : Needs :=
    let full := decide (16 ≤ (s.chan (coreOf g) ch.val).copies.length)
    let w := c.optWaits (copyHd i) .free || c.optWaits (copyHs i) .full
    if c.optErr (copyHd i) || c.optErr (copyHs i) then n
    else if full then (if s.strict g then n else { n with full := n.full ++ [ch.val] })
    else { n with chans := n.chans ++ [ch.val], stop := n.stop || w }
  match i with
  | .waith f => stop (c.handleWaits f.h.val f.hs)
  | .hwait f => stop (c.handleWaits f.hd.val f.st)
  | .hset f => stop (c.handleWaits f.hd.val .free)
  | .hdrain f | .hfree f => stop (c.handleWaits f.hd.val .full)
  | .waitq f => stop (decide (s.freeEntriesOf (coreOf g) f.mq.val < f.ne1.val + 1 + countOf f.mq.val n.pops))
  | .barw f =>
    match s.seat g with
    | some (_, l, pos) => stop ((l.bar (l.barKey f.bsc f.bn.val pos)).blocksW s.cycle pos).isSome
    | none => n
  | .grow f =>
    if f.n.val = 0 ∨ 24 < c.csr.vallot + f.n.val then n
    else
      if s.growAhead (coreOf g) (g % 4) || decide (s.freeUnits (coreOf g) < f.n.val) then stop true else { n with units := n.units ++ [f.n.val] }
  | .mbox _ => { n with chim := n.chim + 1 }
  | i =>
    match copyCh i with
    | some ch => start ch
    | none => n

/-- The target of a push (R95), by the queue targets visible at the bundle (R229). -/
def Ctx.mqTo (c : Ctx) (g n : Nat) : Nat := clusterOf g * 8 + bits c.view.mqdst.toNat (3 * n) 3

/-- What the slots of a bundle wait for, in slot order: a guarded-off slot only pops (R19, R192). -/
def State.needs (s : State) (g : Nat) : List (Nat × Instr) → Needs → Needs
  | [], n => n
  | (_, i) :: l, n =>
    match facts i with
    | none => State.needs s g l n
    | some f =>
      let n := { n with pops := n.pops ++ f.pops }
      if (s.ctx g).guardOn f.c then
        let n := match f.pushTo with
          | some q => { n with push := n.push ++ [((s.ctx g).mqTo g q, q)] }
          | none => n
        State.needs s g l (s.needsOf g i n)
      else State.needs s g l n

/-- Whether every wait of a bundle is over (R19). -/
def State.needsMet (s : State) (g : Nat) (n : Needs) : Bool :=
  let q (k mq : Nat) : Nat := (Tab.get [] mq (s.core k).mq).length
  let d := dieOf g
  let held := (s.ctxs.filter (fun p => dieOf p.1 == d && p.2.resv.contains .chimney)).length
  !n.stop && n.full.isEmpty && n.pops.all (fun m => decide (countOf m n.pops ≤ s.freeEntriesOf (coreOf g) m)) &&
    n.push.all (fun p => decide (q p.1 p.2 + reservedPush s p.1 p.2 + (n.push.filter (fun r => r == p)).length ≤ 16)) &&
    (n.chim == 0 || decide ((s.die d).chim.length + held + n.chim ≤ 1024))

/-- The oldest entry that nothing reserves is reserved by context `i`. -/
def markEntry (i : Nat) : List MqEntry → List MqEntry
  | [] => []
  | e :: l => if e.taken.isNone then { e with taken := some i } :: l else e :: markEntry i l

/-- The reservations of a bundle: an entry for each pop, in the order of the pops, and what the other slots wait for (R19,
R96). -/
def State.reserve (s : State) (g : Nat) (n : Needs) : State :=
  let s := s.modCore (coreOf g) (fun q =>
    { q with mq := n.pops.foldl (fun t m => Tab.put m (markEntry (g % 4) (Tab.get [] m t)) t) q.mq })
  s.modCtx g (fun c =>
    { c with resv := n.push.map (fun p => .push p.1 p.2) ++ n.chans.map .chan ++ List.replicate n.chim .chimney ++
        n.units.map .units })

end Sys2Proof.Machine
end

