-- ==== Sys2Proof/Machine/System.lean ====
section
/-! DEFINITION. Privileged operations: return from a trap, translation invalidation, and the loading of a context image by
CTXL or by delivery (R174, R249 to R251, R430, R432, R433, R442 to R444, R457, R458). -/

namespace Sys2Proof.Machine

open Sys2Proof

/-! ## TRET (R249) -/

/-- The trap of a context is returned from: its entries leave the core's queue (R430, R434). -/
def State.resumeTrap (s : State) (g : Nat) : State :=
  (s.returnTrap g).modCore (coreOf g) (fun q => { q with trapQ := q.trapQ.filter (fun n => n != g % 4 && n != 4 + g % 4) })

def execTret (f : FZ) (s : State) : Out :=
  runSlot s f.c none [] false (0, 0) (fun s _ =>
    let h := coreOf s.cur * 4 + s.me.view.hctxC.toNat
    chk s.me.view.priv cPriv (
    chk (s.me.view.hctxV && (s.ctx h).st == .trapped) cIllop (
      .ok ((s.resumeTrap h).modCsr (fun c => { c with hctxV := false })))))

/-! ## Invalidation (R174, R457, R458) -/

def pageSize : PSize → Nat
  | .k4 => 2 ^ 12
  | .k64 => 2 ^ 16
  | .m2 => 2 ^ 21
  | .g1 => 2 ^ 30

/-- The cores of a scope about a core. -/
def scopeCores (sc : TScope) (core : Nat) : List Nat :=
  match sc with
  | .core => [core]
  | .cluster => (List.range 8).map (fun i => core / 8 * 8 + i)
  | .die => (List.range 64).map (fun i => core / 64 * 64 + i)
  | .device => List.range 256

/-- Whether a copy that depends on a stopped one stands ahead of a marker (R21). -/
def State.markStuck (s : State) (n : Nat) : Bool :=
  s.cores.any (fun q =>
    let st := s.stuckCopies q.1
    q.2.ch.any (fun c => c.2.copies.any (fun d => d.marks.contains n && st.contains (d.gcid, d.seq))))

/-- TLBI at its commit point: the first time, its writes are performed and its markers enter; then it waits, BLOCKED while
a stopped copy holds a marker (R21, R250, R457). -/
def tlbiWait (f : FTlbi) (s : State) : State × Bool :=
  match s.srcs f.lit [f.a, f.b] with
  | none => (s, false)
  | some (_, vs) =>
    if !s.me.view.priv || (vs.getD 1 0).toNat % 2 ^ 16 ≠ (s.part (s.partOf s.cur)).xasid.toNat % 2 ^ 16 then (s, false)
    else
      match s.invals.find? (fun i => i.issuer == some s.cur) with
      | some i => if i.done then (s, false) else (if s.markStuck i.no then s.block s.cur else s, true)
      | none =>
        let p := s.partOf s.cur
        let sz := pageSize f.size
        let s := s.performAll s.cur
        let cores := (scopeCores f.scope (coreOf s.cur)).filter (fun k => (s.partCores p).contains k)
        (s.startInval p ((vs.getD 0 0).toNat / sz * sz) sz cores (some s.cur) none none false, true)

def execTlbi (f : FTlbi) (s : State) : Out :=
  runWait s f.c (tlbiWait f) (fun s => runSlot s f.c f.lit [f.a, f.b] false (0, 0) (fun s vs =>
    chk s.me.view.priv cPriv (
    chk ((vs.getD 1 0).toNat % 2 ^ 16 = (s.part (s.partOf s.cur)).xasid.toNat % 2 ^ 16) cIllop (
      .ok { s with invals := s.invals.filter (fun i => i.issuer != some s.cur) }))))

/-! ## Reading a context image (R442 to R444) -/

/-- The pieces of an image that have been read: offset and little-endian value. -/
abbrev Image := Tab Nat

/-- A way to read memory: at most 64 bytes of one granule, or a trap. -/
abbrev Reader := Nat → Nat → Except Trap (List Byte)

/-- Bytes of virtual memory, granule by granule. -/
def readVa (rd : Reader) : Nat → Nat → Nat → Except Trap (List Byte)
  | 0, _, _ => .ok []
  | _, _, 0 => .ok []
  | fuel + 1, va, n + 1 =>
    let k := min (n + 1) (64 - va % 64)
    match rd va k with
    | .error t => .error t
    | .ok bs =>
      match readVa rd fuel (va + k) (n + 1 - k) with
      | .error t => .error t
      | .ok r => .ok (bs ++ r)

/-- A context's own reads of an image: PAGE, PROT or ECCU, no race tags (R251; log 21). -/
def State.imageRead (s : State) (g : Nat) : Reader := fun va n =>
  let at' (c : Nat) : Trap := { cause := c, addr := BitVec.ofNat 64 (va / 64 * 64) }
  match s.reach g .load va with
  | .error c => .error (at' c)
  | .ok h =>
    if (List.range n).any (fun i => s.poisoned h.sp (h.addr + i) && !s.ownWrote g h.sp (h.addr + i)) then .error (at' cEccu)
    else .ok ((List.range n).map (fun i => s.ownByte g h.sp (h.addr + i)))

/-- The reads of a delivery: through a new walk of the partition (R432). -/
def State.deliverRead (s : State) (part : Nat) : Reader := fun va n =>
  match s.walk part va with
  | none => .error (trapOf cPage)
  | some l =>
    if !l.permits .load then .error (trapOf cProt)
    else
      match l.place false va with
      | .error c => .error (trapOf c)
      | .ok h =>
        if (List.range n).any (fun i => s.poisoned h.sp (h.addr + i)) then .error (trapOf cEccu)
        else .ok ((List.range n).map (fun i => s.memByte h.sp (h.addr + i)))

/-- Pieces read in order. -/
def readPieces (rd : Reader) (base : Nat) : List (Nat × Nat) → Except Trap Image
  | [] => .ok []
  | (o, n) :: l =>
    match readVa rd (n + 1) (base + o) n with
    | .error t => .error t
    | .ok bs =>
      match readPieces rd base l with
      | .error t => .error t
      | .ok r => .ok ((o, leNat bs) :: r)

/-- A field of the control block: offset and size in bytes. -/
def cbf (cb o n : Nat) : Nat := bits cb (8 * o) (8 * n)

/-- MAGIC, version and STATE are those of R443. -/
def cbOk (cb : Nat) : Bool :=
  cbf cb 0 4 == 0x4358565A && cbf cb 4 2 == 1 && decide (1 ≤ cbf cb 6 1) && decide (cbf cb 6 1 ≤ 3)

/-- Share `k` of the control block, in the order of R216. -/
def cbShare (cb k : Nat) : Share := ⟨cbf cb (0x192 + 2 * k) 1, cbf cb (0x193 + 2 * k) 1⟩

/-- The sizes of the files with shares (R91). -/
def fileSizes : List Nat := [32, 64, 4, 16, 16, 8]

def Ctx.shares (c : Ctx) : List Share := [c.opf, c.accs, c.lats, c.scs, c.pats, c.tts]

def Share.overlaps (a b : Share) : Bool :=
  a.count != 0 && b.count != 0 && decide (a.base < b.base + b.count) && decide (b.base < a.base + a.count)

/-- The other contexts of a context's core that are not EMPTY. -/
def State.others (s : State) (g : Nat) : List Ctx :=
  ((List.range 4).filter (fun i => i != g % 4 && (s.ctx (coreOf g * 4 + i)).st != .empty)).map
    (fun i => s.ctx (coreOf g * 4 + i))

def State.masksClash (s : State) (g cb : Nat) : Bool :=
  (s.others g).any (fun o => o.chmask &&& BitVec.ofNat 4 (cbf cb 0x191 1) != 0#4)

/-- The checks of R251 on an image's control block. -/
def State.imageFits (s : State) (g cb : Nat) : Bool :=
  let own := if (s.ctx g).st == .empty then 0 else (s.ctx g).csr.vallot
  decide (cbf cb 0x190 1 ≤ s.freeUnits (coreOf g) + own) &&
    ((enumFrom 0 fileSizes).all (fun p => decide ((cbShare cb p.1).base + (cbShare cb p.1).count ≤ p.2))) &&
    ((s.others g).all (fun o => (enumFrom 0 o.shares).all (fun p => !(cbShare cb p.1).overlaps p.2))) &&
    !s.masksClash g cb

/-- Whether bit `i` of a map of the control block is set. -/
def cbBit (cb o i : Nat) : Bool := bits cb (8 * o + i) 1 == 1

/-- Tiles, vector registers and Ember entries that an image holds. -/
def cbTiles (cb : Nat) : List Nat := (List.range (cbShare cb 1).count).filter (cbBit cb 0x280)
def cbVecs (cb : Nat) : List Nat := (List.range (64 * cbf cb 0x190 1)).filter (cbBit cb 0x1C0)
def cbNarrow (cb : Nat) : Nat := min 64 (cbf cb 0x19E 2)
def cbWide (cb : Nat) : Nat := min 32 (cbf cb 0x1A2 2)
def cbPins (cb : Nat) : Nat := min 16 (cbf cb 0x1A0 2)

/-- `n` pieces of a size from an offset. -/
def run (o sz n : Nat) : List (Nat × Nat) := (List.range n).map (fun i => (o + sz * i, sz))

/-- The pieces of an image beside its control block (R442), omitted content left out. -/
def imagePieces (cb : Nat) (owner : Bool) : List (Nat × Nat) :=
  run 0x1000 8 32 ++ run 0x1100 8 16 ++ run 0x1180 160 16 ++ run 0x1C00 16 (cbPins cb) ++ run 0x2000 16 64 ++
    run 0x3000 528 (cbNarrow cb) ++ run 0xC000 80 (cbShare cb 4).count ++ run 0xC800 1032 (cbShare cb 5).count ++
    run 0x10000 512 (cbShare cb 3).count ++ run 0x12000 6144 (cbShare cb 2).count ++
    run 0x18000 512 (cbShare cb 0).count ++ (cbTiles cb).map (fun i => (0x1C000 + 32 * i, 32)) ++
    (if owner then [(0x1C800, 512)] else []) ++ (cbTiles cb).map (fun i => (0x1D000 + 4096 * i, 4096)) ++
    (cbVecs cb).map (fun i => (0x5D000 + 512 * i, 512)) ++ run 0x11D000 4112 (cbWide cb)

/-! ## The contents of an image -/

/-- A dimension of a generator record (R442). -/
def genDim (v d : Nat) : Dim :=
  ⟨BitVec.ofNat 32 (cbf v (4 * d + 8) 4), BitVec.ofNat 48 (cbf v (8 * d + 32) 8), BitVec.ofNat 32 (cbf v (4 * d + 80) 4),
    BitVec.ofNat 32 (cbf v (4 * d + 104) 4)⟩

/-- A generator of its record; the reserved bits of ATTR are ignored (R9, R116). -/
def genOf (v : Nat) : Gen :=
  { base := BitVec.ofNat 64 (cbf v 0 8), d0 := genDim v 0, d1 := genDim v 1, d2 := genDim v 2, d3 := genDim v 3,
    d4 := genDim v 4, d5 := genDim v 5, attr := BitVec.ofNat 32 (cbf v 128 2) }

def hstOf : Nat → HState
  | 0 => .free
  | 1 => .filling
  | 2 => .full
  | _ => .draining

/-- A handle from its word (R121). -/
def handleOf (v : Nat) : Handle :=
  { err := BitVec.ofNat 8 (bits v 56 8), flt := bits v 53 1 == 1, lsize := bits v 48 5, offset := bits v 24 24,
    st := hstOf (bits v 0 2), mark := 0 }

/-- A token tree from its header and nodes; reserved bits are ignored (R9, R119). -/
def treeOf (v : Nat) : Tree :=
  { gen := BitVec.ofNat 8 (bits v 32 8), basepos := BitVec.ofNat 32 (bits v 0 32),
    nodes := (List.range 128).map (fun i => (i, BitVec.ofNat 64 (cbf v (8 + 8 * i) 6))) }

/-- A mark from its entry (R315). -/
def markOf (v : Nat) : BitVec 128 := BitVec.ofNat 128 (v % 2 + v / 2 ^ 16 * 2 ^ 16)

/-- The write to a generator that an Ember entry of kind 6 holds; the index coding is the model's (log 22). -/
def genWrOf (k v : Nat) : GenWr :=
  if k < 6 then .dim k (BitVec.ofNat 32 (bits v 0 32)) (BitVec.ofNat 48 (bits v 32 48))
  else if k < 14 then .edge (k - 8) (BitVec.ofNat 32 (bits v 0 32)) (BitVec.ofNat 32 (bits v 32 32))
  else if k = 16 then .base (BitVec.ofNat 64 (bits v 0 64)) (BitVec.ofNat 32 (bits v 64 16))
  else .step

/-- A write to a scale register that an Ember entry of kind 7 holds: the whole register, word `k - 1`, or the four words of a
DRAINQ; the index coding is the model's (log 22). -/
def scaleRes (n k v : Nat) : Res :=
  if k = 0 then .sc n (BitVec.ofNat 4096 v)
  else if k ≤ 64 then .scw n (k - 1) [BitVec.ofNat 64 v]
  else .scw n 0 ((List.range 4).map (fun i => BitVec.ofNat 64 (v / 2 ^ (64 * i))))

/-- A write to a pattern register that an Ember entry of kind 8 holds: a capture part that is zero is that of a PSET or a PSETT and is
not written (R112, R444; log 22). -/
def patRes (n v : Nat) : Res :=
  .pat n (BitVec.ofNat 128 v) (if BitVec.ofNat 512 (v / 2 ^ 128) = 0 then none else some (BitVec.ofNat 512 (v / 2 ^ 128)))

/-- A write to a control register that an Ember entry of kind 11 holds, by its number (R226, R444). -/
def csrRes (n v : Nat) : Option Res :=
  match decCsr n with
  | .error _ => none
  | .ok c =>
    match c with
    | .guard => some (.guards (BitVec.ofNat 8 v))
    | .lse => some (.lse (BitVec.ofNat 7 v))
    | .srseed => some (.srseed (BitVec.ofNat 64 v))
    | .srctr => some (.srctr (BitVec.ofNat 64 v))
    | .bimlim => some (.bimlim (BitVec.ofNat 32 v))
    | c => some (.csr c (BitVec.ofNat 64 v))

/-- The result of an Ember entry (R444): none for a destination outside the image's registers. `born` is the rotation count
that a vector result takes. -/
def emberRes (cb born e : Nat) : Option Res :=
  let kind := bits e 12 4
  let ix := bits e 0 12
  let v := e / 2 ^ 128
  let sh (k : Nat) (r : Res) : Option Res := if ix % 16 < (cbShare cb k).count then some r else none
  let shw (k : Nat) (r : Res) : Option Res := if ix < (cbShare cb k).count then some r else none
  match kind with
  | 0 => some (.x (ix % 32) (BitVec.ofNat 64 v))
  | 1 => some (.q (BitVec.ofNat 64 v))
  | 2 => if ix < 64 * cbf cb 0x190 1 then some (.v ix (BitVec.ofNat 4096 v) born) else none
  | 3 => shw 0 (.o ix (BitVec.ofNat 4096 v))
  | 4 => some (.last (BitVec.ofNat 4096 v))
  | 5 => some (.guard (ix % 8) (v % 2 == 1))
  | 6 => some (.gen (ix % 16) (genWrOf (ix / 16) v))
  | 7 => sh 3 (scaleRes (ix % 16) (ix / 16) v)
  | 8 => sh 4 (patRes (ix % 16) v)
  | 9 => shw 5 (.tree ix (treeOf v))
  | 10 => shw 2 (.k ix (if bits e 16 8 = 0 then BitVec.ofNat 49152 (v % 2 ^ 24576) else BitVec.ofNat 49152 (v * 2 ^ 24576)))
  | 11 => csrRes ix v
  | 12 => shw 1 (.tile ix ⟨BitVec.ofNat 32768 v, BitVec.ofNat 8 (bits e 24 8)⟩)
  | 13 => shw 1 (.mark ix (markOf (v % 2 ^ 128)))
  | _ => none

/-- Ember entries as pending results; the second part of a latch joins the first (R444). -/
def emberPend (cb born : Nat) (es : List Nat) : List Pend :=
  es.foldl (fun acc e =>
    let due := bits e 64 64
    match emberRes cb born e with
    | none => acc
    | some r =>
      match acc.getLast?, r with
      | some ⟨d, src, cnt, ch, .k m rows⟩, .k n more =>
        if d = due && m == n && bits e 16 8 == 1 then acc.dropLast ++ [⟨d, src, cnt, ch, .k m (rows ||| more)⟩]
        else acc ++ [⟨due, due - 1, true, 3, r⟩]
      | _, _ => acc ++ [⟨due, due - 1, true, 3, r⟩]) []

/-- The generators that the first `k` bundles of a body name for an access (R225, R233). -/
def State.bodyGens (s : State) (g : Nat) : Nat → Word → List Nat → List Nat
  | 0, _, acc => acc
  | k + 1, va, acc =>
    match s.fetch g va with
    | .error _ => acc
    | .ok b => State.bodyGens s g k (b.pc + BitVec.ofNat 64 b.len) (acc ++ (accessGens b.slots).filter (fun n => !acc.contains n))

/-- The CSRs of an image (R443); reserved bits are ignored (R9). The mode's strictness is the launch's (R251). -/
def imageCsrs (cb : Nat) (strict hdl : Bool) (rot : Nat) : Csrs :=
  let w (o : Nat) : Word := BitVec.ofNat 64 (cbf cb o 8)
  let rbase := w 0x48 &&& 0x87FF07FF#64
  let rs := bits rbase.toNat 16 11
  { pri := (w 0x40).setWidth 2, strict := strict, priv := (w 0x40).getLsbD 8, hdl := hdl, vallot := cbf cb 0x190 1,
    rbase := rbase, ldepth := w 0x50 &&& 0x7FF#64, rpos := if rs = 0 then 0 else cbf cb 0x58 8 % 2 ^ 11 % rs, rot := rot,
    nstat := (w 0x60).setWidth 6, cstat := (w 0x68).setWidth 3, mqdst := (w 0x70).setWidth 12, lse := (w 0x80).setWidth 7,
    srseed := w 0x88, srctr := w 0x90, epscl := (w 0x98).setWidth 32, epclp := w 0xA0, bimlim := (w 0xA8).setWidth 32,
    dlen := (w 0xB0).setWidth 8, lpass := w 0x170, wsstl := w 0xB8,
    chstl := (List.range 4).map (fun i => (i, w (0xC0 + 8 * i))), mbser := w 0xE0,
    bkt := (List.range 16).map (fun i => (i, w (0xF0 + 8 * i) &&& 0xFFFFFFFF01FF01FF#64)),
    hctxV := (w 0xE8).getLsbD 8, hctxC := (w 0xE8).setWidth 2 }

/-- How many rotations a loaded live register is taken to be old: open, below the live depth (R106, R442; log 22). -/
def loadAge (n : Nat) (cb : Nat) : Nat := (Config.free 11 n).toNat % max 1 (cbf cb 0x50 8 % 2 ^ 11)

/-- Whether a slot is a control transfer (R230). -/
def isTransfer : Instr → Bool
  | .br _ | .brc _ | .brx _ | .call _ | .ret _ => true
  | _ => false

/-- The address after a bundle that an image re-enters at slot `first`: the next in sequence, or open where a transfer may
have committed before (R429; log 22). -/
def State.afterLoaded (s : State) (g : Nat) (pc : Word) (first : Nat) (other : Word) : Word :=
  match s.fetch g pc with
  | .error _ => other
  | .ok b => if b.slots.any (fun p => decide (p.1 < first) && isTransfer p.2) then other else b.pc + BitVec.ofNat 64 b.len

/-- The context of an image (R430, R442, R443): READY; an image saved TRAPPED returns to its slot of the bundle that TSW1 and
TSW2 name, which has not issued before where BIX is its index (R429). The generators of a body are found again from its bytes; a
nest field without passes left says that bundles are still to be passed over (R232; log 22). What the context's hardware keeps
of releases and tags stays (R155, R156, R159). -/
def State.imageCtx (s : State) (g : Nat) (m : Image) (strict hdl : Bool) : Ctx :=
  let cb := Tab.get 0 0 m
  let p (o : Nat) : Nat := Tab.get 0 o m
  let csr := imageCsrs cb strict hdl 2048
  let trapped := cbf cb 6 1 == 2
  let tsw0 := cbf cb 0x20 8
  let bix := cbf cb 0x10 8
  let idx := if trapped then cbf cb 0x30 8 else bix
  let pc : Word := BitVec.ofNat 64 (cbf cb (if trapped then 0x28 else 8) 8)
  let nw := cbf cb 0x180 8
  let body : Word := BitVec.ofNat 64 (cbf cb 0x178 8)
  let first := if bits tsw0 11 1 = 1 then 8 else bits tsw0 8 3
  let pos := bits nw 8 4 + (if trapped && first == 8 && body.ule pc then 1 else 0)
  let born := 2048 - loadAge s.freeN cb
  let f (i : Nat) : Word := Config.free 64 (s.freeN + 1 + i)
  { Ctx.reset with
    st := .ready, pc := pc, npc := if trapped && bix != idx then s.afterLoaded g pc first (f 4) else pc, bix := bix, idx := idx,
    cyc := BitVec.ofNat 64 (cbf cb 0x18 8),
    x := (List.range 32).map (fun i => (i, if i = 0 then 0#64 else BitVec.ofNat 64 (p (0x1000 + 8 * i)))),
    q := (List.range 16).map (fun i => BitVec.ofNat 64 (p (0x1100 + 8 * i))),
    b := BitVec.ofNat 8 (cbf cb 0x78 1) ||| 1#8,
    g := (List.range 16).map (fun i => (i, genOf (p (0x1180 + 160 * i)))),
    h := (List.range 64).map (fun i => (i, handleOf (p (0x2000 + 16 * i)))),
    csr := csr, view := csr,
    nest := if csr.lpass = 0#64 then none
      else some ⟨body, bits nw 0 4, pos, s.bodyGens g pos body [], []⟩,
    skip := if csr.lpass = 0#64 ∧ bits nw 8 4 = 1 then bits nw 0 4 + 1 else 0,
    tsw0 := f 0, tsw1 := f 1, tsw2 := f 2, tsw3 := f 3,
    ordc := BitVec.ofNat 32 (cbf cb 0x188 4), commitn := BitVec.ofNat 32 (cbf cb 0x18C 4),
    chmask := BitVec.ofNat 4 (cbf cb 0x191 1), opf := cbShare cb 0, accs := cbShare cb 1, lats := cbShare cb 2,
    scs := cbShare cb 3, pats := cbShare cb 4, tts := cbShare cb 5,
    v := (cbVecs cb).map (fun i => (i, BitVec.ofNat 4096 (p (0x5D000 + 512 * i)))),
    vborn := (cbVecs cb).map (fun i => (i, 2048 - loadAge (s.freeN + 10 + i) cb)),
    vdead := (List.range (64 * csr.vallot)).filter (fun i => !cbBit cb 0x1C0 i),
    pend := emberPend cb born ((List.range (cbNarrow cb)).map (fun i => p (0x3000 + 528 * i)) ++
      (List.range (cbWide cb)).map (fun i => p (0x11D000 + 4112 * i))),
    pins := (List.range (cbPins cb)).map (fun i =>
      let v := p (0x1C00 + 16 * i)
      ⟨bits v 0 64 / 4096 * 4096, 4096, v % 2 == 1,
        if trapped then min 65 (bits v 64 64) else min 64 (bits v 64 64) + 1, none, false⟩),
    resume := if trapped then some first else none,
    tok := (s.ctx g).tok, recs := (s.ctx g).recs, owned := (s.ctx g).owned, copySeq := (s.ctx g).copySeq }

/-- The core's files take what an image holds of its shares (R92, R442); a tile that is left out reads as zero (R109). -/
def CoreSt.loadImage (q : CoreSt) (c : Ctx) (m : Image) (owner : Bool) : CoreSt :=
  let p (o : Nat) : Nat := Tab.get 0 o m
  let cb := p 0
  let put {α : Type} (sh : Share) (f : Nat → α) (t : Tab α) : Tab α :=
    (List.range sh.count).foldl (fun t i => Tab.put (sh.base + i) (f i) t) t
  let has (i : Nat) : Bool := cbBit cb 0x280 i
  let span (sh : Share) (k : Nat → Nat) : List Nat := (List.range sh.count).map (fun i => k (sh.base + i))
  let clean := span c.opf poisO ++ span c.lats poisK ++ span c.scs poisSc ++ span c.accs poisTile ++
    (if owner then [poisLast] else [])
  { q with
    opf := put c.opf (fun i => BitVec.ofNat 4096 (p (0x18000 + 512 * i))) q.opf,
    lat := put c.lats (fun i => BitVec.ofNat 49152 (p (0x12000 + 6144 * i))) q.lat,
    sc := put c.scs (fun i => BitVec.ofNat 4096 (p (0x10000 + 512 * i))) q.sc,
    pat := put c.pats (fun i => ⟨BitVec.ofNat 128 (p (0xC000 + 80 * i)),
      BitVec.ofNat 512 (p (0xC000 + 80 * i) / 2 ^ 128)⟩) q.pat,
    tt := put c.tts (fun i => treeOf (p (0xC800 + 1032 * i))) q.tt,
    tiles := put c.accs (fun i => if has i then
      ⟨BitVec.ofNat 32768 (p (0x1D000 + 4096 * i)), BitVec.ofNat 8 (cbf (p (0x1C000 + 32 * i)) 0 1)⟩ else Tile.zero) q.tiles,
    marks := put c.accs (fun i => if has i then markOf (cbf (p (0x1C000 + 32 * i)) 16 16) else 0) q.marks,
    last := if owner then BitVec.ofNat 4096 (p 0x1C800) else q.last,
    pois := q.pois.filter (fun k => !clean.contains k) }

/-- An image loaded into a context of a core that a launch holds (R251). -/
def State.loadCtx (s : State) (g : Nat) (m : Image) (hdl : Bool) (hctx : Option Nat) : State :=
  let strict := match s.launchOn (coreOf g) with
    | some (_, l) => l.strict
    | none => false
  let owner := (s.core (coreOf g)).lastOwner == some (g % 4)
  let c := s.imageCtx g m strict hdl
  let c := match hctx with
    | some t => { c with csr := { c.csr with hctxV := true, hctxC := BitVec.ofNat 2 t },
                         view := { c.view with hctxV := true, hctxC := BitVec.ofNat 2 t } }
    | none => c
  let s := s.modCore (coreOf g) (fun q => q.loadImage c m owner)
  { s.setCtx g c with freeN := s.freeN + 2048 }

/-- The image of a context read through a reader: its control block first, then the rest (R251). The checks of the control
block precede a fault of the rest, by the order of R426 (log 21). -/
def State.readImage (s : State) (rd : Reader) (g base : Nat) (fits : Nat → Bool) : Except Trap Image :=
  match readPieces rd base [(0, 0x288)] with
  | .error t => .error t
  | .ok c =>
    let cb := Tab.get 0 0 c
    if !cbOk cb || !fits cb then .error (trapOf cIllop)
    else
      match readPieces rd base (imagePieces cb ((s.core (coreOf g)).lastOwner == some (g % 4))) with
      | .error t => .error t
      | .ok m => .ok (c ++ m)

/-- CTXL (R251). -/
def execCtxl (f : FRa) (s : State) : Out :=
  runSlot s f.c f.lit [f.a] false (0, 0) (fun s vs =>
    let a := (vs.getD 0 0).toNat
    let t := coreOf s.cur * 4 + a % 4
    chk s.me.view.priv cPriv (
    chk (bits a 2 10 == 0 && ((s.ctx t).st == .empty || (s.ctx t).st == .halted)) cIllop (
      match s.readImage (s.imageRead s.cur) t (a / 4096 * 4096) (s.imageFits t) with
      | .error e => .trap e
      | .ok m => .ok (s.loadCtx t m false none))))

/-- Delivery of the trap of context `i` of a core into the handler context, from the image at HIMG; none where it fails
(R432, R433). -/
def State.deliver (s : State) (core i : Nat) : Option State :=
  let g := core * 4 + i
  let p := s.partOf g
  let cfg := (s.ctx g).trcfg
  let h := core * 4 + bits cfg.toNat 8 2
  let fits (cb : Nat) : Bool :=
    cbf cb 0x190 1 == 0 && (List.range 6).all (fun k => (cbShare cb k).count == 0) && !s.masksClash h cb
  match s.readImage (s.deliverRead p) h (cfg.toNat / 4096 * 4096) fits with
  | .error _ => none
  | .ok m => some (s.loadCtx h m true (some i))

end Sys2Proof.Machine
end

