-- ==== Sys2Proof/Machine/Issue.lean ====
section
/-! DEFINITION. Issue: the streams of a core and how they are filled, the point before a bundle, the bundle's fetch, its
blocking and its issue, the end of a bundle and of a loop pass, due results and expiring pins (R18 to R34, R138, R140, R189,
R211, R225, R232 to R237, R427, R429). -/

namespace Sys2Proof.Machine

open Sys2Proof

/-! ## Streams (R22 to R27) -/

/-- Whether a context's launch is being saved, so that it issues nothing (R45, R440). -/
def State.stopped (s : State) (g : Nat) : Bool :=
  match s.launchOn (coreOf g) with
  | some (_, l) => l.stopping
  | none => false

/-- Whether a context has come to the bundle boundary at which it is taken for the save (R45, R440). -/
def State.held (s : State) (g : Nat) : Bool := s.stopped g && (s.ctx g).todo.isEmpty

/-- The best READY context of a core (R24); one that is taken for a save is not chosen. -/
def State.bestReady (s : State) (core : Nat) : Option Nat :=
  let order := (List.range 4).map (fun i => ((s.core core).rotp + i) % 4)
  let ready := order.filter (fun i => (s.ctx (core * 4 + i)).st == .ready && !s.held (core * 4 + i))
  ready.foldl (fun best i =>
    match best with
    | none => some i
    | some b => if (s.ctx (core * 4 + b)).csr.pri.ult (s.ctx (core * 4 + i)).csr.pri then some i else some b) none

/-- The best READY context becomes a stream and the rotation pointer moves past it (R23, R24). -/
def State.pick (s : State) (core : Nat) (st : CtxSt) (put : Nat → CoreSt → CoreSt) : State :=
  match s.bestReady core with
  | none => s
  | some i =>
    (s.modCtx (core * 4 + i) (fun c => { c with st := st })).modCore core (fun q => put i { q with rotp := (i + 1) % 4 })

/-- Vacant streams of a core are filled (R23). -/
def State.fillVacancy (s : State) (core : Nat) : State :=
  let q := s.core core
  let s := match q.prim, q.sec with
    | none, some i => (s.modCtx (core * 4 + i) (fun c => { c with st := .primary })).modCore core (fun q =>
        { q with prim := some i, sec := none })
    | _, _ => s
  let s := if (s.core core).prim.isNone then s.pick core .primary (fun i q => { q with prim := some i }) else s
  if (s.core core).sec.isNone then s.pick core .secondary (fun i q => { q with sec := some i }) else s

def execVacancyFill (core : Fin 256) (s : State) : Out := .next (s.fillVacancy core.val)

/-- The roles swap for one cycle once the SECONDARY has been held back 256 times (R26). -/
def execPromotion (core : Fin 256) (s : State) : Out :=
  .next (if 256 ≤ (s.core core.val).promo then s.modCore core.val (fun q => { q with swap := true }) else s)

/-! ## Between bundles -/

/-- A bundle is whole and the context has no part of one to execute: it stands before its next bundle. -/
def Ctx.between (c : Ctx) : Bool := c.todo.isEmpty && c.resume.isNone && c.st != .trapped

/-- Whether the bundle that a context issues next has not issued before: it goes on after a whole bundle, or re-enters one that
trapped before it issued (R30, R429). -/
def Ctx.fresh (c : Ctx) : Bool := c.resume.isNone || c.bix == c.idx

/-- The index of the bundle that a context executes or issues next; that of the bundle where it trapped. -/
def Ctx.nextIdx (c : Ctx) : Nat := if c.between then c.bix else c.idx

/-- A write of RBASE makes every register of the region dead from the next bundle (R105, R106). -/
def State.killRegion (s : State) (g : Nat) : State :=
  s.modCtx g (fun c =>
    if c.rbNew then c.killed else c)

/-- The access generators of a pass step (R118, R225, R233). -/
def Ctx.stepGens (c : Ctx) (gens : List Nat) : Ctx :=
  { c with g := gens.foldl (fun t k => Tab.put k (Tab.get Gen.zero k t).step t) c.g }

/-- The end of a loop pass: generators named in the pass step after every other write due then, the region rotates, LPASS
falls, and the next bundle is the body's first or the one after it (R225, R233). -/
def State.passEnd (s : State) (g : Nat) : State :=
  let c := s.ctx g
  match c.nest with
  | none => s
  | some n =>
    if n.pos ≤ n.bl || !c.between then s
    else
      let s := (s.killRegion g).landDue g c.bix
      s.modCtx g (fun c =>
        let csr := if c.view.ren then c.csr.rotate else c.csr
        let left := csr.lpass - 1#64
        { c.stepGens n.gens with csr := { csr with lpass := left },
                                 nest := if left = 0#64 then none else some { n with pos := 0, gens := [] },
                                 npc := if left = 0#64 then c.npc else n.body })

def execLoopPassEnd (ctx : Fin 1024) (s : State) : Out := .next (s.passEnd ctx.val)

/-- What a context's next bundle meets: the end of a pass, a region that an RBASE write made dead, and the results due by its
index (R31, R33, R105, R225). -/
def State.arrive (s : State) (g : Nat) : State :=
  let s := s.passEnd g
  let s := if (s.ctx g).between then s.killRegion g else s
  s.landDue g (s.ctx g).nextIdx

/-- Results due at or before the next bundle are written (R33). -/
def execResultWrite (ctx : Fin 1024) (s : State) : Out := .next (s.arrive ctx.val)

/-- The windows of the pins move on by one bundle (R138). -/
def tickPins (ps : List Pin) : List Pin := (ps.filter (fun p => decide (0 < p.left))).map (fun p => { p with left := p.left - 1 })

def execPinExpiry (ctx : Fin 1024) (s : State) : Out :=
  .next (s.modCtx ctx.val (fun c => { c with pins := c.pins.filter (fun p => decide (0 < p.left)) }))

/-- A pin made again, by a new walk, with the permission it was made with (R140, R458). -/
def State.repinOne (s : State) (g : Nat) (p : Pin) : Except Nat Pin :=
  match s.walk (s.partOf g) p.va with
  | none => .error cPage
  | some l =>
    if !l.permits p.acc then .error cProt
    else
      match l.place (s.ctx g).csr.priv p.va with
      | .error c => .error c
      | .ok _ => .ok { p with va := l.va, size := l.size, leaf := some l, lost := false }

/-- Every released pin with bundles left is made again; the first that cannot be traps, or, where an active stream has lost it,
stays released (R140, R458). `live` is the least count of a pin that reaches the next bundle. -/
def State.repin (s : State) (g live : Nat) : List Pin → Except Trap (List Pin)
  | [] => .ok []
  | p :: l =>
    let rest (p : Pin) : Except Trap (List Pin) :=
      match State.repin s g live l with
      | .error t => .error t
      | .ok r => .ok (p :: r)
    if p.leaf.isSome || decide (p.left < live) then rest p
    else
      match s.repinOne g p with
      | .ok q => rest q
      | .error c => if p.lost then rest p else .error { cause := c, addr := BitVec.ofNat 64 (p.va / 64 * 64) }

/-- The bundles of a body that no pass runs are passed over (R232). -/
def State.skipBody (s : State) (g : Nat) : Nat → Except (Trap × Word) State
  | 0 => .ok s
  | f + 1 =>
    if (s.ctx g).skip = 0 then .ok s
    else
      match s.fetchLen g (s.ctx g).npc with
      | .error e => .error e
      | .ok (pc, len) =>
        State.skipBody (s.modCtx g (fun c => { c with npc := pc + BitVec.ofNat 64 len, skip := c.skip - 1 })) g f

/-! ## The next bundle -/

/-- What stands before a context's next bundle: nothing to issue, or the bundle with its first slot to execute. -/
inductive Prep where
  | no (s : State)
  | go (s : State) (b : Fetched) (first : Nat)

/-- A trap before any slot of the next bundle, at index `n`, with the address TSW1 takes (R140, R211, R427). -/
def State.earlyTrap (s : State) (g n : Nat) (va : Word) (t : Trap) : State :=
  (s.modCtx g (fun c => { c with pc := va, idx := n })).takeTrap g t

/-- The next bundle as the loop buffer holds it, from the second pass of a nest on (R233). -/
def Ctx.buffered (c : Ctx) : Option Fetched :=
  match c.nest with
  | some n => if c.resume.isNone then n.buf[n.pos]? else none
  | none => none

/-- The next bundle of a context: from the loop buffer, or fetched; one that is re-entered is fetched anew (R429). -/
def State.nextBundle (s : State) (g : Nat) : Except (Trap × Word) Fetched :=
  let c := s.ctx g
  match c.buffered with
  | some b => .ok b
  | none => s.fetch g (if c.fresh then c.npc else c.pc)

/-- The address of the next bundle's header (R425). -/
def State.nextHeader (s : State) (g : Nat) : Word :=
  let c := s.ctx g
  match c.buffered with
  | some b => b.pc
  | none => if c.fresh then s.nextSeq g c.npc else c.pc

/-- Whether a context is a stream: only then do the slots of its bundle commit (R18, R21). -/
def Ctx.runs (c : Ctx) : Bool :=
  match c.st with
  | .primary => true
  | .secondary => true
  | _ => false

/-- A context that is taken for a save leaves its stream, so that another can run on to its own bundle boundary (R45; log 24). -/
def State.rest (s : State) (g : Nat) : State := (s.modCtx g (fun c => if c.runs then { c with st := .ready } else c)).leaveStream g

/-- A GROW of the bundle waits for units (R19, R102). -/
def State.growWaits (s : State) (g : Nat) (l : List (Nat × Instr)) : Bool :=
  l.any (fun p =>
    match p.2 with
    | .grow f => (s.ctx g).guardOn f.c && (s.needsOf g p.2 Needs.none).stop
    | _ => false)

/-- The episode that a BARW of the bundle waits for (R242). -/
def State.barwWait (s : State) (g : Nat) (l : List (Nat × Instr)) : Option (BarKey × Nat) :=
  match s.seat g with
  | none => none
  | some (_, lc, pos) =>
    l.findSome? (fun p =>
      match p.2 with
      | .barw f =>
        if (s.ctx g).guardOn f.c then
          ((lc.bar (lc.barKey f.bsc f.bn.val pos)).blocksW s.cycle pos).map (fun ep => (lc.barKey f.bsc f.bn.val pos, ep))
        else none
      | _ => none)

/-- The bundle blocks (R19, R20, R102, R135, R242, R436). -/
def State.blockBundle (s : State) (g : Nat) (l : List (Nat × Instr)) (n : Needs) : State :=
  let s :=
    if n.full.isEmpty || (s.ctx g).chBlk then s
    else
      s.modCtx g (fun c =>
        { c with chBlk := true,
                 csr := { c.csr with cstat := c.csr.cstat ||| 4#3,
                                     chstl := n.full.eraseDups.foldl (fun t ch =>
                                       Tab.put ch (satInc (Tab.get 0 ch t)) t) c.csr.chstl } })
  let s :=
    if s.growWaits g l && !(s.core (coreOf g)).growQ.contains (g % 4) then
      s.modCore (coreOf g) (fun q => { q with growQ := q.growQ ++ [g % 4] })
    else s
  (s.modCtx g (fun c => { c with barWait := s.barwWait g l })).block g

/-- Whether the barrier release that a BAR waits for still stands out (R242). -/
def State.barHolds (s : State) (g : Nat) : Bool :=
  match (s.ctx g).barWait, s.seat g with
  | some (k, ep), some (_, l, pos) => (l.bar k).holds s.cycle pos ep
  | _, _ => false

/-- A return past a whole bundle goes on at the next (R429). -/
def Ctx.pastBundle (c : Ctx) : Ctx := if c.resume = some 8 then { c with resume := none, bix := c.idx + 1 } else c

/-- The registers as a bundle that has not issued before sees them: the CSRs as they stand, and no vector register beyond the
allotment (R31, R103, R229). -/
def Ctx.renew (c : Ctx) : Ctx := { c.trimV with view := c.csr }

/-- THE POINT BEFORE A BUNDLE: a barrier wait, the end of a pass, due results, CSRs, skipped bundles, pins, the fetch and its
checks, and the conditions of R19, in this order. A context whose bundle's slots have not all committed, or whose launch is
being saved, issues none (R21, R45; log 35). -/
def State.prep (s : State) (g : Nat) : Prep :=
  if !(s.ctx g).todo.isEmpty then .no s
  else if s.stopped g then .no (s.rest g)
  else if s.barHolds g then .no (s.block g)
  else
    let s := (s.modCtx g (fun c => { c.pastBundle with barWait := none })).arrive g
    let fresh := (s.ctx g).fresh
    let n := (s.ctx g).nextIdx
    let s := if fresh then s.modCtx g Ctx.renew else s
    match (if fresh then s.skipBody g 16 else .ok s) with
    | .error (t, va) => .no (s.earlyTrap g n va t)
    | .ok s =>
      match s.repin g (if fresh then 2 else 1) (s.ctx g).pins with
      | .error t => .no (s.earlyTrap g n (s.nextHeader g) t)
      | .ok ps =>
        let s := s.modCtx g (fun c => { c with pins := ps })
        match s.nextBundle g with
        | .error (t, at') => .no (s.earlyTrap g n at' t)
        | .ok b =>
          if !s.bundleLegal g b.slots then .no (s.earlyTrap g n b.pc (trapOf cIllenc))
          else
            let first := (s.ctx g).resume.getD 0
            let l := b.slots.filter (fun p => decide (first ≤ p.1))
            let nd := s.needs g l Needs.none
            if s.needsMet g nd then .go s b first else .no (s.blockBundle g l nd)

/-- The slots of a bundle as a mask (R26). -/
def slotMask (first : Nat) (b : Fetched) : Nat :=
  (b.slots.filter (fun p => decide (first ≤ p.1))).foldl (fun m p => m ||| 2 ^ p.1) 0

/-- A BUNDLE ISSUES: BIX rises, what its slots wait for is reserved, and its slots from the first on wait to execute (R19,
R30, R429). -/
def State.issueBundle (s : State) (g : Nat) (b : Fetched) (first : Nat) : State :=
  let fresh := (s.ctx g).fresh
  let n := (s.ctx g).nextIdx
  let l := b.slots.filter (fun p => decide (first ≤ p.1))
  let nd := s.needs g l Needs.none
  let s := if (s.ctx g).buffered.isSome then s else s.holdLine g b.pc
  let s := s.modCtx g (fun c =>
    { c with pc := b.pc, idx := n, bix := n + 1, npc := if first ≤ 1 then b.pc + BitVec.ofNat 64 b.len else c.npc,
             slots := b.slots, todo := l, resume := none, chBlk := false,
             pins := if fresh then tickPins c.pins else c.pins })
  { s.reserve g nd with cur := g }

/-! ## The end of a bundle -/

/-- A bundle of a loop body counts in its pass, with the generators its slots name, and enters the loop buffer in its turn
(R225, R233, R237). -/
def Ctx.countBody (c : Ctx) (pc : Word) (slots : List (Nat × Instr)) : Ctx :=
  match c.nest with
  | none => c
  | some n =>
    if n.body.ule pc then
      { c with nest := some { n with pos := n.pos + 1,
                                     gens := n.gens ++ (accessGens slots).filter (fun k => !n.gens.contains k),
                                     buf := if n.buf.length = n.pos then n.buf ++ [⟨pc, slots, (c.npc - pc).toNat⟩]
                                       else n.buf } }
    else c

/-- The end of a bundle whose slots have all committed; after HALT the context is HALTED and its later results are
discarded (R244); after YIELD it is READY (R22). -/
def State.endBundle (s : State) (g : Nat) : State :=
  let c := s.ctx g
  if !c.runs || !c.todo.isEmpty || c.slots.isEmpty then s
  else
    let c := { c.countBody c.pc c.slots with slots := [], resv := [] }
    if c.halting then (s.setCtx g { c with st := .halted, halting := false, pend := [] }).leaveStream g
    else if c.yielding then (s.setCtx g { c with st := .ready, yielding := false }).leaveStream g
    else s.setCtx g c

/-- After a slot of a context: a trap that resumes at the next bundle has completed its bundle (R245, R429). -/
def State.afterSlot (s t : State) : State :=
  let c := s.me
  if t.me.st == .trapped && t.me.tsw0.getLsbD 11 then t.modMe (fun d => d.countBody c.pc c.slots) else t

/-- Whether a slot has made no progress. -/
def State.stuck (s t : State) : Bool := t.me.todo.length == s.me.todo.length

/-! ## A cycle of a core (R26) -/

/-- A cycle of the core ends. -/
def CoreSt.endCycle (q : CoreSt) : CoreSt :=
  { q with phase := 0, mask := 0, swap := false, promo := if q.swap then 0 else q.promo }

/-- The second stream's chance in the cycle: it issues whole where the masks are disjoint, else a SECONDARY able to issue is
counted. -/
def State.issueSecond (s : State) (core : Nat) : State :=
  let q := s.core core
  match (if q.swap then q.prim else q.sec) with
  | none => s.modCore core CoreSt.endCycle
  | some i =>
    let g := core * 4 + i
    match s.prep g with
    | .no s => s.modCore core CoreSt.endCycle
    | .go s b first =>
      if slotMask first b &&& q.mask = 0 then
        (s.issueBundle g b first).modCore core (fun p => { p.endCycle with promo := 0 })
      else s.modCore core (fun p => { p.endCycle with promo := if q.swap then 0 else p.promo + 1 })

/-- One bundle of a core: the first stream's, and where it has none to issue, or has issued in this cycle, the second's. -/
def State.issueCore (s : State) (core : Nat) : State :=
  let q := s.core core
  if q.phase = 0 then
    match (if q.swap then q.sec else q.prim) with
    | none => s.issueSecond core
    | some i =>
      let g := core * 4 + i
      match s.prep g with
      | .no s => s.issueSecond core
      | .go s b first =>
        (s.issueBundle g b first).modCore core (fun p => { p with phase := 1, mask := slotMask first b })
  else s.issueSecond core

/-- BUNDLE ISSUE; a stopped package issues nothing (R488). -/
def execBundleIssue (core : Fin 256) (s : State) : Out := .next (if s.power == .on then s.issueCore core.val else s)

/-! ## Leaving BLOCKED (R18, R20, R21) -/

/-- Whether a BLOCKED context with no slot under way can issue: the release has come, the bundle's conditions hold, or its
fetch traps. -/
def State.canIssue (s : State) (g : Nat) : Bool :=
  if s.barHolds g then false
  else if (s.ctx g).barWait.isSome then true
  else
    let c := s.ctx g
    match s.nextBundle g with
    | .error _ => true
    | .ok b =>
      let l := b.slots.filter (fun p => decide (c.resume.getD 0 ≤ p.1))
      s.needsMet g (s.needs g l Needs.none)

/-- A BLOCKED context whose condition has cleared is READY. -/
def State.unblock (s : State) (g : Nat) : State :=
  let c := s.ctx g
  if c.st == .blocked && c.todo.isEmpty && s.canIssue g then s.modCtx g (fun c => { c with st := .ready }) else s

end Sys2Proof.Machine
end

