-- ==== Sys2Proof/Machine/Save.lean ====
section
/-! DEFINITION. The save area of a pre-empted launch: context images, the launch block, clusters (R442 to R445). -/

namespace Sys2Proof.Machine

open Sys2Proof

/-- Bytes to write at an offset: offset, size, value. -/
abbrev Field := Nat × Nat × Nat

/-- Bytes written through a partition's translation, a granule at a time; what cannot be written is left (log 24). -/
def State.writeVa (s : State) (part : Nat) : Nat → Nat → List Byte → State
  | 0, _, _ => s
  | _, _, [] => s
  | fuel + 1, va, bs =>
    let k := 64 - va % 64
    let now := bs.take k
    let s := match s.walk part va with
      | none => s
      | some l =>
        if !l.permits .store then s
        else
          match l.place false va with
          | .error _ => s
          | .ok h => s.setBytes h.sp h.addr now
    State.writeVa s part fuel (va + k) (bs.drop k)

def State.writeFields (s : State) (part base : Nat) (l : List Field) : State :=
  l.foldl (fun s f => s.writeVa part (f.2.1 + 1) (base + f.1) (natLe f.2.1 f.2.2)) s

/-! ## A context image -/

/-- The slot at which a context's bundle is re-entered, where it stands inside one. -/
def Ctx.point (c : Ctx) : Option Nat :=
  match c.todo with
  | p :: _ => some p.1
  | [] => c.resume

/-- STATE of an image (R443): a context that a stopped copy holds inside a bundle is kept as one that re-enters it (log 22). -/
def Ctx.imageState (c : Ctx) : Nat :=
  match c.st with
  | .halted => 3
  | .trapped => 2
  | _ => if c.point.isSome then 2 else 1

/-- Words of an image that state where a context stands. -/
def Ctx.placeFields (c : Ctx) : List Field :=
  let st := c.imageState
  let inside := st == 2
  let r := c.point.getD 0
  let t0 := if c.st == .trapped then c.tsw0.toNat else if r = 8 then 2 ^ 11 else r * 2 ^ 8
  let t1 := if c.st == .trapped then c.tsw1 else c.pc
  let t2 := if c.st == .trapped then c.tsw2.toNat else c.idx
  let nb := bits t0 11 1 == 1
  [(0, 4, 0x4358565A), (4, 2, 1), (6, 1, st), (8, 8, (if inside then t1 else c.npc).toNat), (0x10, 8, c.bix),
    (0x18, 8, c.cyc.toNat)] ++
    (if inside then [(0x20, 8, t0), (0x28, 8, t1.toNat), (0x30, 8, t2), (0x38, 8, if c.st == .trapped then c.tsw3.toNat else 0)]
      else []) ++
    (match c.nest with
      | none => if c.skip = 0 then [] else [(0x178, 8, c.npc.toNat), (0x180, 8, c.skip - 1 + 2 ^ 8)]
      | some n =>
        let pos := if inside && nb && n.body.ule c.pc then n.pos - 1 else n.pos
        [(0x178, 8, n.body.toNat), (0x180, 8, n.bl + pos * 2 ^ 8 + (if inside && !nb then bits t0 8 3 * 2 ^ 16 else 0))])

/-- Whether a context stands inside a bundle that has issued, whose remaining slots see the registers as the bundle did (R429). -/
def Ctx.inBundle (c : Ctx) : Bool := c.imageState == 2 && !(c.st == .trapped && c.tsw0.getLsbD 11) && c.bix != c.idx

/-- The control registers of an image: inside a bundle those that its slots go by are as it sees them, and what its earlier slots
have written to them stands in Ember entries (R48, R229). -/
def Ctx.imageCsr (c : Ctx) : Csrs :=
  if c.inBundle then
    { c.csr with vallot := c.view.vallot, rbase := c.view.rbase, ldepth := c.view.ldepth, rpos := c.view.rpos, mqdst := c.view.mqdst,
                 epscl := c.view.epscl, epclp := c.view.epclp, dlen := c.view.dlen, hctxV := c.view.hctxV, hctxC := c.view.hctxC }
  else c.csr

/-- The writes to control registers that a context inside a bundle has pending for the next (R229, R444). -/
def Ctx.csrPend (c : Ctx) : List Pend :=
  let v := c.imageCsr
  let moved := c.inBundle && c.rbNew
  let w (b : Bool) (n : CsrName) (x : Word) : List Pend := if b then [⟨c.idx + 1, c.idx, false, 0, .csr n x⟩] else []
  w (c.csr.vallot != v.vallot) .vallot (BitVec.ofNat 64 c.csr.vallot) ++ w moved .rbase c.csr.rbase ++
    w (c.csr.ldepth != v.ldepth) .ldepth c.csr.ldepth ++
    w (c.csr.rpos != if moved then 0 else v.rpos) .rpos (BitVec.ofNat 64 c.csr.rpos) ++
    w (c.csr.mqdst != v.mqdst) .mqdst (c.csr.mqdst.setWidth 64) ++ w (c.csr.epscl != v.epscl) .epscl (c.csr.epscl.setWidth 64) ++
    w (c.csr.epclp != v.epclp) .epclp c.csr.epclp ++ w (c.csr.dlen != v.dlen) .dlen (c.csr.dlen.setWidth 64) ++
    w (c.csr.hctxWord != v.hctxWord) .hctx c.csr.hctxWord

/-- The CSRs of a control block (R443). -/
def Ctx.csrFields (c : Ctx) : List Field :=
  let v := c.imageCsr
  [(0x40, 8, v.modeWord.toNat), (0x48, 8, v.rbase.toNat), (0x50, 8, v.ldepth.toNat), (0x58, 8, v.rpos),
    (0x60, 8, v.nstat.toNat), (0x68, 8, v.cstat.toNat), (0x70, 8, v.mqdst.toNat), (0x78, 8, (c.b ||| 1#8).toNat),
    (0x80, 8, (v.lse.signExtend 64).toNat), (0x88, 8, v.srseed.toNat), (0x90, 8, v.srctr.toNat),
    (0x98, 8, v.epscl.toNat), (0xA0, 8, v.epclp.toNat), (0xA8, 8, v.bimlim.toNat), (0xB0, 8, v.dlen.toNat),
    (0xB8, 8, v.wsstl.toNat)] ++
    (List.range 4).map (fun i => (0xC0 + 8 * i, 8, (Tab.get 0 i v.chstl).toNat)) ++
    [(0xE0, 8, v.mbser.toNat), (0xE8, 8, v.hctxWord.toNat)] ++
    (List.range 16).map (fun i => (0xF0 + 8 * i, 8, (Tab.get 0 i v.bkt).toNat)) ++
    [(0x170, 8, v.lpass.toNat), (0x188, 4, c.ordc.toNat), (0x18C, 4, c.commitn.toNat), (0x190, 1, v.vallot),
      (0x191, 1, c.chmask.toNat)] ++
    (enumFrom 0 c.shares).flatMap (fun p => [(0x192 + 2 * p.1, 1, p.2.base), (0x193 + 2 * p.1, 1, p.2.count)])

/-- A generator record (R442). -/
def genWord (g : Gen) : Nat :=
  g.base.toNat + g.attr.toNat * 2 ^ 1024 +
    (List.range 6).foldl (fun a d =>
      let v := g.dim d
      a + v.cnt.toNat * 2 ^ (8 * (4 * d + 8)) + (v.stp.signExtend 64).toNat * 2 ^ (8 * (8 * d + 32)) +
        v.idx.toNat * 2 ^ (8 * (4 * d + 80)) + v.bnd.toNat * 2 ^ (8 * (4 * d + 104))) 0

def treeWord (t : Tree) : Nat :=
  t.basepos.toNat + t.gen.toNat * 2 ^ 32 +
    (List.range 128).foldl (fun a i => a + (Tab.get nodeReset i t.nodes).toNat * 2 ^ (64 * (i + 1))) 0

/-- The Ember entries of a pending result: whether wide, and the entry as a number (R444). -/
def emberOf (p : Pend) : List (Bool × Nat) :=
  let e (kind ix part md v : Nat) : Nat := ix + kind * 2 ^ 12 + part * 2 ^ 16 + md * 2 ^ 24 + p.due * 2 ^ 64 + v * 2 ^ 128
  match p.res with
  | .x n v => [(false, e 0 n 0 0 v.toNat)]
  | .q v => [(false, e 1 0 0 0 v.toNat)]
  | .v n v _ => [(false, e 2 n 0 0 v.toNat)]
  | .o n v => [(false, e 3 n 0 0 v.toNat)]
  | .last v => [(false, e 4 0 0 0 v.toNat)]
  | .guard n v => [(false, e 5 n 0 0 (if v then 1 else 0))]
  | .gen n w =>
    let put (k v : Nat) : List (Bool × Nat) := [(false, e 6 (n + 16 * k) 0 0 v)]
    match w with
    | .dim d cnt stp => put d (cnt.toNat + stp.toNat * 2 ^ 32)
    | .edge d idx bnd => put (8 + d) (idx.toNat + bnd.toNat * 2 ^ 32)
    | .base v attr => put 16 (v.toNat + attr.toNat * 2 ^ 64)
    | .step => put 17 0
  | .sc n v => [(false, e 7 n 0 0 v.toNat)]
  | .scw n w vs => [(false, e 7 (n + 16 * (if vs.length = 1 then w + 1 else 65)) 0 0
      ((enumFrom 0 vs).foldl (fun a p => a + p.2.toNat * 2 ^ (64 * p.1)) 0))]
  | .pat n d none => [(false, e 8 n 0 0 d.toNat)]
  | .pat n d (some c) => [(false, e 8 n 0 0 (d.toNat + c.toNat * 2 ^ 128))]
  | .tree n t => [(true, e 9 n 0 0 (treeWord t))]
  | .k n rows => [(true, e 10 n 0 0 (rows.toNat % 2 ^ 24576)), (true, e 10 n 1 0 (rows.toNat / 2 ^ 24576))]
  | .csr n v => [(false, e 11 n.code 0 0 v.toNat)]
  | .guards v => [(false, e 11 0x0A 0 0 v.toNat)]
  | .lse v => [(false, e 11 0x0B 0 0 v.toNat)]
  | .srseed v => [(false, e 11 0x0C 0 0 v.toNat)]
  | .srctr v => [(false, e 11 0x0D 0 0 v.toNat)]
  | .bimlim v => [(false, e 11 0x10 0 0 v.toNat)]
  | .tile n t => [(true, e 12 n 0 t.md.toNat t.words.toNat)]
  | .mark n m => [(false, e 13 n 0 0 m.toNat)]

/-- The bundles that a pin's window still covers; one that the trapped bundle itself made has 65 (log 22). -/
def Ctx.window (c : Ctx) (p : Pin) : Nat := if c.imageState == 2 then p.left else p.left - 1

/-- The pins of an image: for each page the one with the most bundles left (R139, R140). -/
def Ctx.imagePins (c : Ctx) : List Pin :=
  let l := c.pins.filter (fun p => decide (0 < c.window p))
  (l.filter (fun p => !l.any (fun q => q.va == p.va && decide (p.left < q.left)))).take 16

/-- The narrow entries of a context's pending results. -/
def Ctx.narrow (c : Ctx) : Nat := (((c.csrPend ++ c.pend).flatMap emberOf).filter (fun e => !e.1)).length

/-- The results that R42 does not count are written to the control block. -/
def State.landUncounted (s : State) (g : Nat) : State :=
  let c := s.ctx g
  (sortDue (c.pend.filter (fun p => !p.cnt))).foldl (fun s p => s.land g p.res)
    (s.setCtx g { c with view := c.csr, pend := c.pend.filter (·.cnt) })

/-- A context as its image shows it (R45, R107, R442): one that stands between two bundles as its next bundle will see it; the
writes that R42 does not count are in the control block where the Ember entries would not hold them all (R47; log 22). -/
def State.imaged (s : State) (g : Nat) : State :=
  let c := s.ctx g
  let s := if c.between && c.st != .empty && c.st != .halted then ((s.passEnd g).killRegion g).modCtx g Ctx.renew else s
  if 64 < (s.ctx g).narrow then s.landUncounted g else s

/-- The image of a context (R442 to R444); dead and unused content is left out, and what the layout does not list is zero. -/
def State.imageFields (s : State) (g : Nat) : List Field :=
  let s := s.imaged g
  let c := s.ctx g
  let q := s.core (coreOf g)
  let es := (sortDue (c.csrPend ++ c.pend)).flatMap emberOf
  let nar := (es.filter (fun e => !e.1)).take 64
  let wid := (es.filter (fun e => e.1)).take 32
  let pins := c.imagePins
  let live := (List.range (64 * c.imageCsr.vallot)).filter (fun n => !c.deadAt n)
  let used := (List.range c.accs.count).filter (fun i => (Tab.get Tile.zero (c.accs.base + i) q.tiles).md.getLsbD 7)
  let mapOf (l : List Nat) : Nat := l.foldl (fun a i => a + 2 ^ i) 0
  let owned (sh : Share) (o sz : Nat) (f : Nat → Nat) : List Field :=
    (List.range sh.count).map (fun i => (o + sz * i, sz, f (sh.base + i)))
  [(0, 4096, 0), (0x1C00, 256, 0), (0x13D200, 0xE00, 0)] ++ c.placeFields ++ c.csrFields ++
    [(0x19E, 2, nar.length), (0x1A0, 2, pins.length), (0x1A2, 2, wid.length), (0x1C0, 192, mapOf live),
      (0x280, 8, mapOf used)] ++
    (List.range 32).map (fun i => (0x1000 + 8 * i, 8, (Tab.get 0 i c.x).toNat)) ++
    (List.range 16).map (fun i => (0x1100 + 8 * i, 8, (c.q.getD i 0).toNat)) ++
    (List.range 16).map (fun i => (0x1180 + 160 * i, 160, genWord (Tab.get Gen.zero i c.g))) ++
    (enumFrom 0 pins).map (fun p =>
      (0x1C00 + 16 * p.1, 16, p.2.va + (if p.2.write then 1 else 0) + c.window p.2 * 2 ^ 64)) ++
    (List.range 64).map (fun i => (0x2000 + 16 * i, 16, (c.handle i).word.toNat)) ++
    (enumFrom 0 nar).map (fun p => (0x3000 + 528 * p.1, 528, p.2.2)) ++
    owned c.pats 0xC000 80 (fun i =>
      let p := Tab.get Pattern.zero i q.pat
      p.desc.toNat + p.cap.toNat * 2 ^ 128) ++
    owned c.tts 0xC800 1032 (fun i => treeWord (Tab.get Tree.reset i q.tt)) ++
    owned c.scs 0x10000 512 (fun i => (Tab.get 0 i q.sc).toNat) ++
    owned c.lats 0x12000 6144 (fun i => (Tab.get 0 i q.lat).toNat) ++
    owned c.opf 0x18000 512 (fun i => (Tab.get 0 i q.opf).toNat) ++
    used.map (fun i => (0x1C000 + 32 * i, 32, (Tab.get Tile.zero (c.accs.base + i) q.tiles).md.toNat +
      (Tab.get 0 (c.accs.base + i) q.marks).toNat * 2 ^ 128)) ++
    (if q.lastOwner == some (g % 4) then [(0x1C800, 512, q.last.toNat)] else []) ++
    used.map (fun i => (0x1D000 + 4096 * i, 4096, (Tab.get Tile.zero (c.accs.base + i) q.tiles).words.toNat)) ++
    live.map (fun i => (0x5D000 + 512 * i, 512, (Tab.get 0 i c.v).toNat)) ++
    (enumFrom 0 wid).map (fun p => (0x11D000 + 4112 * p.1, 4112, p.2.2))

/-! ## The launch block and the clusters (R445) -/

/-- An arrival map: one bit per participant in descriptor order. -/
def arrMap (ps arr : List Nat) : Nat := (enumFrom 0 ps).foldl (fun a p => if arr.contains p.2 then a + 2 ^ p.1 else a) 0

/-- A barrier record with maps of `n` bytes. -/
def Launch.barFields (l : Launch) (o n : Nat) (k : BarKey) : List Field :=
  let b := l.bar k
  let ps := l.participants k
  [(o, 8, b.ep % 2 ^ 32), (o + 8, n, arrMap ps b.arr), (o + 8 + n, n, arrMap ps b.arrNext)]

/-- The die groups of a launch: their lowest virtual clusters, ascending (R445). -/
def Launch.groups (l : Launch) : List Nat := ((List.range l.nvcl).map l.groupOf).eraseDups

def Launch.blockFields (l : Launch) : List Field :=
  [(0, 4, l.nvcl), (4, 4, l.ltag.toNat), (8, 4, l.stale)] ++
    (List.range 256).map (fun i =>
      let r := l.slot i
      (0x100 + 2 * i, 2, r.inc.toNat + (if r.act then 2 ^ 15 else 0))) ++
    (List.range l.nvcl).flatMap (fun v => (List.range 64).flatMap (fun b =>
      l.barFields (0x400 + 16 * (64 * v + b)) 4 ⟨.cluster, v, b⟩)) ++
    (enumFrom 0 l.groups).flatMap (fun p => (List.range 64).flatMap (fun b =>
      l.barFields (0x8400 + 80 * (64 * p.1 + b)) 32 ⟨.die, p.2, b⟩ ++ [(0x8400 + 80 * (64 * p.1 + b) + 72, 8, 0)])) ++
    l.barFields 0xD400 128 ⟨.launch, 0, 0⟩ ++
    (List.range l.nvcl).map (fun v => (0xD600 + v, 1, l.groups.idxOf (l.groupOf v)))

/-- A cluster's counters, queues and regions; the inner layout of queues and regions is the model's (log 24). -/
def State.clusterFields (s : State) (cl : Nat) : List Field :=
  let q := s.clu cl
  (List.range 256).map (fun i => (4 * i, 4, (Tab.get 0 i q.ec).toNat)) ++
    (List.range 8).flatMap (fun k => (List.range 4).flatMap (fun m =>
      (enumFrom 0 (Tab.get [] m (s.core (8 * cl + k)).mq)).map (fun p =>
        (0x400 + 512 * k + 128 * m + 8 * p.1, 8, p.2.val.toNat)))) ++
    (0x1400, 8, q.regions.length) :: (enumFrom 0 q.regions).map (fun p =>
      (0x1408 + 8 * p.1, 8, p.2.off + p.2.lsize * 2 ^ 32 + (if p.2.skew then 2 ^ 40 else 0)))

/-- The contexts of a launch in the order of their images: descriptors, then delivered handlers (R445). -/
def Launch.imageOrder (l : Launch) (s : State) : List Nat :=
  l.descs.map (fun d => l.gcidAt d.pos) ++
    (List.range l.nvcl).flatMap (fun v => (List.range 32).filterMap (fun i =>
      let g := l.phys v * 32 + i
      if (s.ctx g).csr.hdl && (s.ctx g).st != .empty then some g else none))

/-- The record of one core and channel: for each copy 128 bytes whose layout is internal and open, the head's staging store after
its own; zero where there is no copy (R445; log 24). -/
def State.copyRecord (s : State) (core ch : Nat) : List Byte :=
  let cs := (s.chan core ch).copies
  let part (i : Nat) : List Byte :=
    if i < cs.length then natLe 128 (Config.free 1024 (s.freeN + 64 * core + 16 * ch + i)).toNat else List.replicate 128 0#8
  let staged := ((cs.head?.map (fun c => c.staging.map (·.1))).getD []).take 4096
  part 0 ++ staged ++ List.replicate (4096 - staged.length) 0#8 ++ (List.range 15).flatMap (fun i => part (i + 1)) 

/-- THE SAVE AREA of a launch written at `base` (R445). -/
def State.writeSave (s : State) (l : Launch) (base : Nat) : State :=
  let p := l.part
  let t := s.writeFields p base l.blockFields
  let t := (List.range l.nvcl).foldl (fun t v =>
    let t := t.writeFields p (base + 0x10000 + 0x40000 * v) (s.clusterFields (l.phys v))
    let t := (List.range 32).foldl (fun t i =>
      t.writeVa p 6145 (base + 0x10000 + 0x40000 * v + 0xA000 + 6144 * i) (s.copyRecord (8 * l.phys v + i / 4) (i % 4))) t
    t.writeVa p (l.spsize + 1) (base + 0x10000 + 0x40000 * l.nvcl + l.spsize * v)
      (s.memBytes (.sp (l.phys v)) 0 l.spsize)) t
  (enumFrom 0 (l.imageOrder s)).foldl (fun t q =>
    t.writeFields p (base + 0x10000 + (0x40000 + l.spsize) * l.nvcl + 0x13E000 * q.1) (s.imageFields q.2)) t

end Sys2Proof.Machine
end

