-- ==== Sys2Proof/Machine/Frontend.lean ====
section
/-! DEFINITION. Command streams and the launch path: packets, launches, placement, pre-emption, weight-store loads, task
graphs, semaphores, fences and marks (R214 to R217, R407 to R423, R440, R441, R445). -/

namespace Sys2Proof.Machine

open Sys2Proof

/-! ## Packets (R411, R412) -/

/-- A field of a packet or a descriptor: byte offset and size. -/
def pkt (p : BitVec 256) (o n : Nat) : Nat := bits p.toNat (8 * o) (8 * n)

/-- The bytes of a packet that a command lists (R412). -/
def cmdBytes (op : Nat) : List (Nat × Nat) :=
  match op with
  | 1 => [(4, 4), (8, 8), (16, 8)]
  | 2 => [(8, 8), (16, 8)]
  | 3 => [(1, 1), (8, 8), (16, 8)]
  | 4 => [(1, 1), (8, 8), (16, 4), (20, 4)]
  | 5 => [(1, 1), (2, 1), (8, 8)]
  | 6 => [(1, 1)]
  | 8 => [(1, 1), (8, 8), (16, 8)]
  | 9 => [(1, 1)]
  | _ => []

/-- The bound of a command's byte fields; a value beyond it counts as a reserved bit set (R412; log 25). -/
def cmdBound (op o : Nat) : Nat :=
  match op, o with
  | 3, 1 => 2
  | 4, 1 => 4
  | 5, 1 => 16
  | 5, 2 => 64
  | 6, 1 => 16
  | 8, 1 => 2
  | 9, 1 => 16
  | _, _ => 256

/-- An opcode that is assigned, with every byte not listed zero and every field in its range (R411, ERR 0x01). -/
def pktOk (p : BitVec 256) : Bool :=
  let op := pkt p 0 1
  let l := cmdBytes op
  decide (1 ≤ op) && decide (op ≤ 9) &&
    (List.range 32).all (fun i => i == 0 || l.any (fun f => decide (f.1 ≤ i) && decide (i < f.1 + f.2)) || pkt p i 1 == 0) &&
    l.all (fun f => f.2 != 1 || decide (pkt p f.1 1 < cmdBound op f.1))

/-- The alignment of a command's addresses and sizes (R412, ERR 0x02). -/
def pktAligned (p : BitVec 256) : Bool :=
  match pkt p 0 1 with
  | 1 => pkt p 8 8 % 64 == 0 && pkt p 16 8 % 16 == 0
  | 2 | 3 | 8 => pkt p 8 8 % 8 == 0
  | 4 => pkt p 16 4 % 64 == 0 && pkt p 20 4 % 64 == 0
  | 5 => pkt p 8 8 % 64 == 0
  | _ => true

/-! ## Streams (R408 to R411) -/

/-- The ring's bytes. -/
def Stream.ring (q : Stream) : Nat := 2 ^ q.lsize

/-- Whether commands are pending (R408). -/
def Stream.pending (q : Stream) : Bool := q.head != q.tail % q.ring

/-- The packet at HEAD; none on a translation or permission fault. -/
def State.packet (s : State) (n : Nat) : Option (BitVec 256) :=
  let q := s.stream n
  (s.engineRead q.part (q.sqbase.toNat / 4096 * 4096 + q.head) 32).map (fun b => BitVec.ofNat 256 (leNat b))

/-- Whether a stream's next command can begin (R408 to R410); a stopped package runs nothing (R488), nor does one whose
firmware was rejected (R489). -/
def State.canBegin (s : State) (n : Nat) : Bool :=
  let q := s.stream n
  s.power == .on && !s.recov && q.en && !q.busy && q.st != .stop && q.pending

/-- A command of a stream no longer holds the FENCEs that wait for it (R413). -/
def State.unfence (s : State) (n : Nat) : State :=
  { s with streams := mapVals (fun _ (q : Stream) => { q with fence := q.fence.filter (fun m => m != n) }) s.streams }

/-- A command completes: HEAD moves past it, unless EN has been set anew meanwhile (R408, R409). -/
def State.completeCmd (s : State) (n : Nat) : State :=
  (s.modStream n (fun q =>
    let q := { q with busy := false, detached := false, head := if q.detached then q.head else (q.head + 32) % q.ring }
    { q with st := if !q.en then .off else if q.pending then .run else .idle })).unfence n

/-- A command fails and stops its stream (R411). A stream that is OFF stays OFF. -/
def State.stopStream (s : State) (n err : Nat) : State :=
  ((s.modStream n (fun q =>
    { q with busy := false, detached := false, st := if q.en then .stop else .off, err := BitVec.ofNat 8 err,
             foff := if q.busy then q.cmdOff else q.head })).unfence n).irq n

/-- A command begins: its packet and its place in the ring are kept and its stream runs. -/
def State.begin (s : State) (n : Nat) (p : BitVec 256) : State :=
  s.modStream n (fun q => { q with busy := true, st := .run, cmd := p, cmdOff := q.head })

/-- The state of a stream whose command goes on or waits; a disabled one reads OFF (R410). -/
def Stream.enter (q : Stream) (st : StreamSt) : Stream := { q with st := if q.en then st else .off }

/-- A command step of a stream: a bad packet stops the stream whatever the step; a packet of opcode `op` begins and `go`
acts on it; another packet waits for its own step. -/
def State.command (s : State) (n op : Nat) (go : State → BitVec 256 → State) : State :=
  if !s.canBegin n then s
  else
    match s.packet n with
    | none => s.stopStream n 3
    | some p =>
      if !pktOk p then s.stopStream n 1
      else if pkt p 0 1 ≠ op then s
      else if !pktAligned p then s.stopStream n 2
      else go (s.begin n p) p

/-- The command that a stream has in progress, if its opcode is `op`. -/
def State.inCmd (s : State) (n op : Nat) : Option (BitVec 256) :=
  let q := s.stream n
  if q.busy && pkt q.cmd 0 1 == op then some q.cmd else none

/-! ## Semaphores, FENCE, MARK (R413) -/

/-- SEMWAIT: it completes once the n64 is at least VALUE, else its stream waits. -/
def State.semTry (s : State) (n : Nat) (p : BitVec 256) : State :=
  match s.engineRead (s.stream n).part (pkt p 8 8) 8 with
  | none => s.stopStream n 3
  | some b =>
    if pkt p 16 8 ≤ leNat b then s.completeCmd n else s.modStream n (fun q => q.enter .wait)

def execSemwait (n : Fin 16) (s : State) : Out :=
  .next (match s.inCmd n.val 2 with
    | some p => s.semTry n.val p
    | none => s.command n.val 2 (fun s p => s.semTry n.val p))

/-- SEMSIG: one atomic-class access of system scope (R171). Earlier commands' writes are performed already. -/
def execSemsig (n : Fin 16) (s : State) : Out :=
  .next (s.command n.val 3 (fun s p =>
    match s.enginePlaces (s.stream n.val).part .atomic (consec (BitVec.ofNat 64 (pkt p 8 8)) 8) with
    | none => s.stopStream n.val 3
    | some ps =>
      let old := leNat (ps.map (fun q => s.memByte q.1 q.2))
      let v := if pkt p 1 1 = 1 then pkt p 16 8 else (old + pkt p 16 8) % 2 ^ 64
      ((ps.zip (natLe 8 v)).foldl (fun s q => s.setByte q.1.1 q.1.2 q.2) s).completeCmd n.val))

/-- The commands begun before a FENCE: those in progress of the partition's other streams. -/
def State.begunIn (s : State) (n : Nat) : List Nat :=
  (List.range 16).filter (fun m => m != n && (s.stream m).busy && (s.stream m).part == (s.stream n).part)

/-- FENCE completes once every command begun before it has completed. -/
def State.fenceTry (s : State) (n : Nat) : State :=
  if (s.stream n).fence.isEmpty then s.completeCmd n else s

def execFenceCommand (n : Fin 16) (s : State) : Out :=
  .next (match s.inCmd n.val 7 with
    | some _ => s.fenceTry n.val
    | none => s.command n.val 7 (fun s _ =>
        (s.modStream n.val (fun q => { q with fence := s.begunIn n.val })).fenceTry n.val))

def execMark (n : Fin 16) (s : State) : Out :=
  .next (s.command n.val 8 (fun s p =>
    match s.engineWrite (s.stream n.val).part (pkt p 8 8) (natLe 8 (pkt p 16 8)) with
    | none => s.stopStream n.val 3
    | some s =>
      let s := s.completeCmd n.val
      if pkt p 1 1 = 1 then s.irq n.val else s))

/-! ## Reading a binary (R1, R214 to R217) -/

/-- The share fields of a descriptor. -/
def descShare (d k : Nat) : Share := ⟨bits d (8 * (16 + 2 * k)) 8, bits d (8 * (17 + 2 * k)) 8⟩

def descOf (d : Nat) : Desc :=
  { vcl := bits d 0 8, core := bits d 8 8, ctx := bits d 16 8, pri := bits d 24 2, owner := bits d 26 1 == 1,
    vallot := bits d 32 8, chmask := bits d 40 4, entry := bits d 64 64, opf := descShare d 0, accs := descShare d 1,
    lats := descShare d 2, scs := descShare d 3, pats := descShare d 4, tts := descShare d 5 }

def Desc.shares (d : Desc) : List Share := [d.opf, d.accs, d.lats, d.scs, d.pats, d.tts]

/-- The reserved bits of a descriptor are zero (R216). -/
def descClean (d : Nat) : Bool :=
  bits d 27 5 == 0 && bits d 44 4 == 0 && bits d 48 16 == 0 && bits d 224 32 == 0

/-- The fields of a header that R217 checks before the descriptors are read. -/
def headerOk (h : Nat) : Bool :=
  let f (o n : Nat) : Nat := bits h (8 * o) (8 * n)
  let sp := f 0x24 4
  decide (f 0xC 4 < 2) && f 0x1D 3 == 0 && f 0x38 8 == 0 && (List.range 13).all (fun i => f (0x10 + i) 1 != 0) &&
    decide (1 ≤ f 0x20 1) && decide (f 0x20 1 ≤ 32) && decide (f 0x21 1 < 3) && decide (1 ≤ f 0x22 2) &&
    decide (f 0x22 2 ≤ 1024) && sp == 2 ^ Nat.log2 sp && decide (4096 ≤ sp) && decide (sp ≤ 2 ^ 24) && f 0x28 8 % 64 == 0

/-- Every two of a list satisfy a relation. -/
def pairwise {α : Type} (r : α → α → Bool) : List α → Bool
  | [] => true
  | a :: l => l.all (r a) && pairwise r l

/-- The descriptors that name one core of a virtual cluster do not clash (R217). -/
def coreOk (ds : List Desc) : Bool :=
  decide ((ds.map Desc.vallot).foldl (· + ·) 0 ≤ 24) && decide ((ds.filter Desc.owner).length ≤ 1) &&
    pairwise (fun a b => a.ctx != b.ctx && (BitVec.ofNat 4 a.chmask &&& BitVec.ofNat 4 b.chmask) == 0#4 &&
      (a.shares.zip b.shares).all (fun p => !p.1.overlaps p.2)) ds

/-- The checks of R217 on the descriptors. -/
def descsOk (nvcl codesz : Nat) (ds : List Desc) : Bool :=
  ds.all (fun d => decide (d.vcl < nvcl) && decide (d.core < 8) && decide (d.ctx < 4) && decide (d.vallot ≤ 24) &&
    decide (d.entry < codesz) && (d.shares.zip fileSizes).all (fun p => decide (p.1.base + p.1.count ≤ p.2))) &&
    ds.all (fun d => coreOk (ds.filter (fun e => e.vcl == d.vcl && e.core == d.core)))

/-- The binary of a LAUNCH, or the code of its refusal (R411). -/
def State.readBinary (s : State) (part : Nat) (p : BitVec 256) : Except Nat Launch :=
  let bin := pkt p 8 8
  match s.engineRead part bin 64 with
  | none => .error 0x13
  | some b =>
    let h := leNat b
    let f (o n : Nat) : Nat := bits h (8 * o) (8 * n)
    if f 0 4 ≠ 0x5856575A ∨ f 4 2 ≠ 2 ∨ f 6 2 ≠ 0 then .error 0x10
    else if !headerOk h then .error 0x11
    else
      match s.engineRead part (bin + 64) (32 * f 0x22 2) with
      | none => .error 0x13
      | some db =>
        let raw := (List.range (f 0x22 2)).map (fun i => leNat ((db.drop (32 * i)).take 32))
        let ds := raw.map descOf
        if !(raw.all descClean && descsOk (f 0x20 1) (f 0x30 8) ds) then .error 0x11
        else
          .ok { part := part, serial := 0, ltag := BitVec.ofNat 32 (pkt p 4 4), cpl := BitVec.ofNat 64 (pkt p 16 8),
                codebase := BitVec.ofNat 64 (bin + f 0x28 8), nvcl := f 0x20 1, shape := f 0x21 1, spsize := sp h,
                strict := f 0xC 4 == 1, lat := (List.range 13).map (fun i => f (0x10 + i) 1), descs := ds, map := [],
                placed := false, order := 0, req := [], stale := 0, bars := [], saved := none, group := [],
                lastDies := [], killed := false, stopping := false, collGone := [] }
where
  sp (h : Nat) : Nat := bits h (8 * 0x24) 32

/-! ## Where a launch can stand (R414, R415, R421, R422) -/

/-- The clusters of a partition. -/
def State.partClusters (s : State) (p : Nat) : List Nat := (List.range 32).filter (fun c => (s.part p).clmask.getLsbD c)

/-- Whether a launch holds a cluster. -/
def State.heldCluster (s : State) (c : Nat) : Bool := (List.range 8).any (fun i => (s.core (8 * c + i)).launch.isSome)

/-- Whether a WSLOAD of a partition waits or runs on a die (R417). -/
def State.loading (s : State) (p d : Nat) : Bool :=
  (List.range 16).any (fun n => (s.stream n).part == p && (match s.inCmd n 4 with
    | some c => pkt c 1 1 == d
    | none => false))

/-- The free clusters of a partition on which a launch may be placed. -/
def State.freeClusters (s : State) (p : Nat) : List Nat :=
  (s.partClusters p).filter (fun c => !s.heldCluster c && !s.loading p (c / 8))

/-- The virtual clusters that must share a die: by SHAPE, or as a pre-empted launch was grouped (R414, R422). -/
def Launch.dieGroups (l : Launch) : List (List Nat) :=
  let key (v : Nat) : Nat :=
    if l.saved.isSome then Tab.get v v l.group
    else
      match l.shape with
      | 1 => v / 8
      | 2 => v / 2
      | _ => v
  ((List.range l.nvcl).map key).eraseDups.map (fun k => (List.range l.nvcl).filter (fun v => key v == k))

/-- Groups put on the lowest dies that have room for them; `apart` keeps different groups on different dies, with other dies tried
where the lowest leaves no place for the rest. The answer lists virtual and physical clusters. -/
def placeGroups (apart : Bool) : List (List Nat) → List Nat → List Nat → Option (List (Nat × Nat))
  | [], _, _ => some []
  | g :: gs, free, used =>
    let on (d : Nat) : List Nat := free.filter (fun c => c / 8 == d)
    let fits (d : Nat) : Bool := decide (g.length ≤ (on d).length) && !(apart && used.contains d)
    let go (d : Nat) : Option (List (Nat × Nat)) :=
      let took := (on d).take g.length
      (placeGroups apart gs (free.filter (fun c => !took.contains c)) (d :: used)).map (fun m => g.zip took ++ m)
    if apart then ((List.range 4).filter fits).findSome? go
    else
      match (List.range 4).find? fits with
      | none => none
      | some d => go d

def Launch.place (l : Launch) (free : List Nat) : Option (List (Nat × Nat)) := placeGroups l.saved.isSome l.dieGroups free []

/-- The launches of a partition that wait for a place, by stream. -/
def State.waiting (s : State) (p : Nat) : List (Nat × Launch) :=
  s.launches.filter (fun q => q.2.part == p && !q.2.placed)

/-- THE PLACEMENT CANDIDATE of a partition (R421). -/
def State.candidate (s : State) (p : Nat) : Option Nat :=
  let ws := s.waiting p
  let top := ws.foldl (fun a q => max a (s.stream q.1).pri) 0
  let start := Tab.get 0 top (s.part p).lastPlaced
  ((List.range 16).map (fun i => (start + i) % 16)).find? (fun n => ws.any (fun q => q.1 == n) && (s.stream n).pri == top)

/-- The clusters that a launch can take now. -/
def State.admits (s : State) (n : Nat) (more : List Nat) : Option (List (Nat × Nat)) :=
  match s.launch n with
  | none => none
  | some l =>
    if !s.ready || !(s.part l.part).en then none
    else
      let free := (s.partClusters l.part).filter (fun c =>
        (!s.heldCluster c || more.contains c) && !s.loading l.part (c / 8))
      l.place free

/-- The running launches that a partition's candidate may pre-empt, in the order of R422. -/
def State.lower (s : State) (p pri : Nat) : List (Nat × Launch) :=
  let run := s.launches.filter (fun q => q.2.part == p && q.2.placed && decide ((s.stream q.1).pri < pri))
  run.foldr (fun q acc =>
    let before (a b : Nat × Launch) : Bool :=
      decide ((s.stream a.1).pri < (s.stream b.1).pri) ||
        ((s.stream a.1).pri == (s.stream b.1).pri && decide (b.2.order < a.2.order))
    acc.takeWhile (fun b => before b q) ++ q :: acc.dropWhile (fun b => before b q)) []

/-- The launches that are to be pre-empted for a partition's candidate (R422): none where even all of them would not make room
it, or where it can be placed. -/
def State.victims (s : State) (p : Nat) : List Nat :=
  match s.candidate p with
  | none => []
  | some n =>
    let ls := s.lower p (s.stream n).pri
    let clusters (k : Nat) : List Nat := (ls.take k).flatMap (fun q => q.2.map.map (·.2))
    match (List.range (ls.length + 1)).find? (fun k => (s.admits n (clusters k)).isSome) with
    | none => []
    | some k => (ls.take k).map (·.1)

/-! ## A launch begins and ends (R415, R416) -/

/-- The completion record written at CPL (R416): none on a fault. -/
def State.writeRecord (s : State) (l : Launch) (status code : Nat) : Option State :=
  if l.cpl = 0#64 then some s
  else
    s.engineWrite l.part l.cpl.toNat
      (natLe 16 (status + code * 2 ^ 8 + l.stale * 2 ^ 64 + l.ltag.toNat * 2 ^ 96))

/-- A refused launch: its record, then the stop of its stream with the code (R416). -/
def State.refuse (s : State) (n code : Nat) (p : BitVec 256) (part : Nat) : State :=
  let l : Launch := { part := part, serial := 0, ltag := BitVec.ofNat 32 (pkt p 4 4), cpl := BitVec.ofNat 64 (pkt p 16 8),
                      codebase := 0, nvcl := 1, shape := 0, spsize := 0, strict := false, lat := [], descs := [], map := [], placed := false,
                      order := 0, req := [], stale := 0, bars := [], saved := none, group := [], lastDies := [],
                      killed := false, stopping := false, collGone := [] }
  ((s.writeRecord l 2 code).getD s).stopStream n code

/-- LAUNCH: the binary is read and checked, and the launch waits for its place (R415). -/
def execLaunch (n : Fin 16) (s : State) : Out :=
  .next (s.command n.val 1 (fun s p =>
    let part := (s.stream n.val).part
    match s.readBinary part p with
    | .error code => s.refuse n.val code p part
    | .ok l =>
      if (l.place (s.partClusters part)).isNone then s.refuse n.val 0x12 p part
      else ({ s with launchNo := s.launchNo + 1 }.setLaunch n.val { l with serial := s.launchNo + 1 }).modStream n.val (fun q =>
        { q with st := .wait })))

/-- A cluster without a launch: no regions, counters at 0; its race tags and its TLB stay. -/
def Cluster.emptied (c : Cluster) : Cluster := { Cluster.reset with tags := c.tags, tlb := c.tlb }

/-- A core given to a launch: its register files are fresh, lines and first-level entries of the partition are gone
(R91, R461). -/
def CoreSt.forLaunch (q : CoreSt) (n asid : Nat) (owner : Option Nat) : CoreSt :=
  { CoreSt.reset with launch := some n, lastOwner := owner, tlb := q.tlb.filter (fun l => l.asid != asid),
                      icache := q.icache.filter (fun l => l.asid != asid) }

/-- A core given back. -/
def CoreSt.free (q : CoreSt) : CoreSt := { CoreSt.reset with tlb := q.tlb, icache := q.icache }

/-- A context as launch placement loads it (R91, R227, R415). -/
def Desc.ctx0 (d : Desc) (l : Launch) : Ctx :=
  let csr := { Csrs.reset with pri := BitVec.ofNat 2 d.pri, strict := l.strict, vallot := d.vallot }
  let at' := l.codebase + BitVec.ofNat 64 d.entry
  { Ctx.reset with st := .ready, pc := at', npc := at', csr := csr, view := csr, chmask := BitVec.ofNat 4 d.chmask,
                   opf := d.opf, accs := d.accs, lats := d.lats, scs := d.scs, pats := d.pats, tts := d.tts }

/-- The latch owner of a core of a virtual cluster (R15). -/
def Launch.ownerOf (l : Launch) (v core : Nat) : Option Nat :=
  (l.descs.find? (fun d => d.vcl == v && d.core == core && d.owner)).map Desc.ctx

/-- The clusters, cores and contexts of a launch take their state at placement (R415 step 4). -/
def State.loadLaunch (s : State) (n : Nat) (l : Launch) : State :=
  let s := l.map.foldl (fun s m =>
    let s := s.modClu m.2 Cluster.emptied
    (List.range 8).foldl (fun s i =>
      let k := 8 * m.2 + i
      let s := s.modCore k (fun q => q.forLaunch n (s.asidOf l.part) (l.ownerOf m.1 i))
      (List.range 4).foldl (fun s j => s.setCtx (4 * k + j) Ctx.reset) s) s) s
  l.descs.foldl (fun s d => s.setCtx (l.gcidAt d.pos) (d.ctx0 l)) s

/-- The contexts that a launch's clusters hold. -/
def Launch.gcids (l : Launch) : List Nat := l.map.flatMap (fun m => (List.range 32).map (fun i => m.2 * 32 + i))

/-- A context that holds no image any more; its releases and its owned granules stay until LGEN rises (R156, R159). -/
def Ctx.emptied (c : Ctx) : Ctx := { Ctx.reset with tok := c.tok, recs := c.recs, owned := c.owned }

/-- A launch's clusters return to the partition: contexts are EMPTY, their committed writes performed, their copies and
regions gone, and no invalidation of theirs is left to wait for (R416). -/
def State.freeLaunch (s : State) (l : Launch) : State :=
  let gs := l.gcids
  let s := s.perform (fun w => gs.contains w.gcid)
  let s := l.map.foldl (fun s m =>
    let s := s.modClu m.2 Cluster.emptied
    (List.range 8).foldl (fun s i =>
      let k := 8 * m.2 + i
      let s := s.modCore k CoreSt.free
      (List.range 4).foldl (fun s j => s.modCtx (4 * k + j) Ctx.emptied) s) s) s
  { s with invals := (s.invals.filter (fun i => !(i.done && (i.issuer.any gs.contains)))).map (fun i =>
      { i with issuer := i.issuer.filter (fun g => !gs.contains g),
               copyOf := i.copyOf.filter (fun q => !gs.contains q.1) }) }

/-- A launch has run: its record, the end of its command, or the stop of its stream where the record cannot be written
(R416). -/
def State.finish (s : State) (n : Nat) (l : Launch) (status : Nat) : State :=
  let s := { s with launches := Tab.erase n s.launches }
  match s.writeRecord l status 0 with
  | none => s.stopStream n 3
  | some s => s.completeCmd n

/-- Whether a launch has ended: every context HALTED and every copy retired (R416). -/
def State.launchDone (s : State) (l : Launch) : Bool :=
  l.placed && l.descs.all (fun d => (s.ctx (l.gcidAt d.pos)).st == .halted) &&
    l.gcids.all (fun g => (s.ctx g).st == .halted || (s.ctx g).st == .empty) &&
    l.map.all (fun m => (List.range 8).all (fun i => (List.range 4).all (fun ch =>
      (s.chan (8 * m.2 + i) ch).copies.isEmpty)))

def execLaunchEnd (n : Fin 16) (s : State) : Out :=
  .next (match s.launch n.val with
    | none => s
    | some l => if s.launchDone l then (s.freeLaunch l).finish n.val l 1 else s)

/-- KILL ends the stream's running or pre-empted launch (R416), one that is being saved after the save (R423); a launch that still
waits for its first place goes on waiting. -/
def State.kill (s : State) (n : Nat) : State :=
  match s.launch n with
  | none => s
  | some l =>
    if l.stopping then s.setLaunch n { l with killed := true }
    else if l.placed then (s.freeLaunch l).finish n l 3
    else if l.saved.isSome then s.finish n l 3
    else s

def execKill (n : Fin 16) (s : State) : Out := .next (s.kill n.val)

/-! ## Pre-emption (R422, R423, R440, R445) -/

/-- Every copy of a launch runs until it retires, stops, or waits on a stopped copy (R440 step 2). -/
def State.runCopies (s : State) (l : Launch) : State :=
  (List.range 64).foldl (fun s _ =>
    l.map.foldl (fun s m => (List.range 8).foldl (fun s i => (List.range 4).foldl (fun s ch =>
      s.runChannel (8 * m.2 + i) ch (2 ^ 64)) s) s) s) s

/-- A context as a pre-emption keeps it: its pins released (R140), its stream left. -/
def Ctx.saved (c : Ctx) : Ctx :=
  { c with pins := c.pins.map (fun p => { p with leaf := none, lost := false }), recs := [], owned := [], tok := 0,
           st := match c.st with
             | .primary => .ready
             | .secondary => .ready
             | .blocked => .ready
             | st => st }

/-- Whether every copy of a launch that was to run before the save has run: the head of a channel is stopped, waits on another copy, or
is a collective whose other members have not come; a CPYD whose remaps are not yet invalidated everywhere has not retired (R289,
R440). -/
def State.copiesRest (s : State) (l : Launch) : Bool :=
  l.map.all (fun m => (List.range 8).all (fun i => (List.range 4).all (fun ch =>
    match (s.chan (8 * m.2 + i) ch).copies with
    | [] => true
    | c :: _ => c.stop.isSome || s.copyWaits c || (match c.op with
      | .coll _ => true
      | _ => false))))

/-- Whether every context of a launch stands at a bundle boundary, or cannot reach one because it depends on a stopped copy, so
that the launch can be saved (R21, R45, R440; log 22). -/
def State.saveReady (s : State) (l : Launch) : Bool :=
  s.copiesRest l && l.gcids.all (fun g =>
    (s.ctx g).todo.isEmpty || (s.ctx g).st == .blocked || s.stuckOnStop g (fun _ => true))

/-- The state of a launch is kept and written to the stream's save area, and its clusters are free (R440); a KILL that came
meanwhile takes effect (R423). Copies are kept without their translations (log 24). -/
def State.saveLaunch (s : State) (n : Nat) (l : Launch) : State :=
  let s := l.gcids.foldl State.passEnd s
  let cores := l.map.flatMap (fun m => (List.range 8).map (fun i =>
    let k := 8 * m.2 + i
    let q := s.core k
    let drop (h : Chan) : Chan := { h with copies := h.copies.map (fun c => { c with held := [], snap := [], marks := [] }) }
    (⟨m.1, i, { q with prim := none, sec := none, promo := 0, swap := false, phase := 0, mask := 0, tlb := [], icache := [],
                       ch := mapVals (fun _ => drop) q.ch, trapQ := q.trapQ.filter (fun t => decide (t < 8)) },
      (List.range 4).map (fun j => (s.ctx (4 * k + j)).saved)⟩ : SavedCore)))
  let clus := l.map.map (fun m => (⟨m.1, { s.clu m.2 with tags := [], tlb := [] }⟩ : SavedCluster))
  let s := s.writeSave l ((s.stream n).sqsave.toNat / 4096 * 4096)
  let s := { s with freeN := s.freeN + 2 ^ 15 }
  let l := { l with saved := some (cores, clus), placed := false, stopping := false,
                                      group := (List.range l.nvcl).map (fun v => (v, l.groupOf v)),
                                      lastDies := (l.map.map (fun m => m.2 / 8)).eraseDups }
  let s := ((s.freeLaunch l).setLaunch n l).modStream n (fun q => q.enter .preempted)
  if l.killed then s.finish n l 3 else s

/-- A pre-emption goes on (R45, R440): issue stops, copies run on, writes are performed; what the contexts have issued commits
before the launch is saved. -/
def State.preemptLaunch (s : State) (n : Nat) (l : Launch) : State :=
  let s := (s.setLaunch n { l with stopping := true }).runCopies l
  let s := s.perform (fun w => l.gcids.contains w.gcid)
  if s.saveReady l then s.saveLaunch n ((s.launch n).getD l) else s

/-- Whether a launch is the next to be pre-empted for its partition's candidate, or is being saved already (R422). -/
def State.preempts (s : State) (n : Nat) (l : Launch) : Bool :=
  l.placed && (l.stopping || (s.victims l.part).head? == some n)

/-- PREEMPTION: of a launch that stands in the way of its partition's candidate (R422). -/
def execPreemption (n : Fin 16) (s : State) : Out :=
  .next (match s.launch n.val with
    | none => s
    | some l => if s.preempts n.val l then s.preemptLaunch n.val l else s)

/-- The launch of a stream that runs since placement `no`; since any placement, where that is 0. -/
def State.running (s : State) (t no : Nat) : Option Launch :=
  (s.launch t).filter (fun l => l.placed && (no == 0 || l.order + 1 == no))

/-- The command PREEMPT goes on: it completes when its target runs no launch, or when the launch that it has hit has been saved or has
ended, whatever has been placed since (R423). -/
def State.preemptTry (s : State) (n t : Nat) : State :=
  match s.running t (s.stream n).preNo with
  | none => (s.modStream n (fun q => { q with preNo := 0 })).completeCmd n
  | some l =>
    let s := (s.modStream n (fun q => { q with preNo := l.order + 1 })).preemptLaunch t l
    if (s.running t (l.order + 1)).isSome then s else (s.modStream n (fun q => { q with preNo := 0 })).completeCmd n

/-- PREEMPT (R423). -/
def execPreempt (n : Fin 16) (s : State) : Out :=
  .next (match s.inCmd n.val 9 with
    | some p => s.preemptTry n.val (pkt p 1 1)
    | none => s.command n.val 9 (fun s p =>
        let t := pkt p 1 1
        if !(s.stream n.val).priv || (s.stream t).part != (s.stream n.val).part then s.stopStream n.val 5
        else (s.modStream n.val (fun q => { q with preNo := 0 })).preemptTry n.val t))

/-! ## Placement (R415, R421, R422, R441) -/

/-- A side of a saved copy moved with its clusters. -/
def Side.moved (f : Nat → Nat) (die : Nat) : Side → Side
  | .mem => .mem
  | .sp c b z => .sp (f c) b z
  | .mantel _ => .mantel die

/-- A saved copy entered again: its context's new GCID, its sides moved, its translations taken anew (R440, R441). -/
def Copy.moved (c : Copy) (f : Nat → Nat) (g : Nat) : Copy :=
  { c with gcid := g, sside := c.sside.moved f (dieOf g), dside := c.dside.moved f (dieOf g),
           xside := c.xside.moved f (dieOf g) }

/-- A range of the scoreboard, and a reservation, moved with their cluster. -/
def BoardEntry.moved (b : BoardEntry) (f : Nat → Nat) (k : Nat) : BoardEntry :=
  { b with gcid := 4 * k + b.gcid % 4, rgs := b.rgs.map (fun r =>
      match r.asp with
      | .sp c => { r with asp := .sp (f c) }
      | .mem => r) }

def Resv.moved (k : Nat) : Resv → Resv
  | .push core mq => .push (k / 8 * 8 + core % 8) mq
  | r => r

/-- A pre-empted launch restored on its new clusters (R440, R441, R461). -/
def State.restoreLaunch (s : State) (n : Nat) (l old : Launch) (cores : List SavedCore) (clus : List SavedCluster) : State :=
  let f (c : Nat) : Nat := l.phys (old.vclOf c)
  let s := clus.foldl (fun s c => s.modClu (l.phys c.vcl) (fun q => { c.cl with tags := q.tags, tlb := q.tlb })) s
  cores.foldl (fun s c =>
    let k := 8 * l.phys c.vcl + c.core
    let t := s.core k
    let id := s.asidOf l.part
    let s := s.setCore k { c.cs with launch := some n, tlb := t.tlb.filter (fun q => q.asid != id),
                                     icache := t.icache.filter (fun q => q.asid != id),
                                     board := c.cs.board.map (fun b => b.moved f k),
                                     ch := mapVals (fun _ (h : Chan) => { h with copies := h.copies.map (fun d =>
                                       d.moved f (4 * k + d.gcid % 4)) }) c.cs.ch }
    let s := (enumFrom 0 c.ctxs).foldl (fun s q =>
      s.setCtx (4 * k + q.1) { q.2 with resv := q.2.resv.map (Resv.moved k) }) s
    (List.range 4).foldl (fun s ch =>
      let s := s.modCore k (fun q => { q with ch := Tab.put ch { Tab.get Chan.reset ch q.ch with
        copies := (Tab.get Chan.reset ch q.ch).copies.map (fun d => { d with held := s.heldNow k l.part, snap := [s.dram] }) } q.ch })
      match (s.chan k ch).copies with
      | d :: _ => if d.stop.isSome then s.stopEvent k ch else s
      | [] => s) s) s

/-- LAUNCH PLACEMENT in one step: LGEN rises, and the launch is loaded or restored on the lowest clusters that have room for it
(R415, R421, R422). -/
def State.placeLaunch (s : State) (n : Nat) (l : Launch) (m : List (Nat × Nat)) : State :=
  let map := m.foldl (fun t q => Tab.put q.1 q.2 t) ([] : Tab Nat)
  let new := { l with map := map, placed := true, order := s.placeNo + 1, saved := none, lastDies := [] }
  let s := s.bumpLgen l.part
  let s := { s with placeNo := s.placeNo + 1 }
  let s := s.setLaunch n new
  let s := match l.saved with
    | none => s.loadLaunch n new
    | some (cores, clus) => s.restoreLaunch n new l cores clus
  let s := s.modPart l.part (fun q => { q with lastPlaced := Tab.put (s.stream n).pri ((n + 1) % 16) q.lastPlaced })
  s.modStream n (fun q => { q with st := if q.en then .run else .off })

def execLaunchPlacement (n : Fin 16) (s : State) : Out :=
  .next (match s.launch n.val with
    | none => s
    | some l =>
      if l.placed || s.candidate l.part != some n.val then s
      else
        match s.admits n.val [] with
        | none => s
        | some m => s.placeLaunch n.val l m)

/-! ## Weight-store loads (R417) -/

/-- The banks that a WSLOAD touches. -/
def wsBanks (p : BitVec 256) : List Nat :=
  let off := pkt p 16 4
  let len := pkt p 20 4
  if len = 0 then [] else (List.range 64).filter (fun b =>
    decide (off / 2 ^ 24 ≤ b) && decide (b ≤ (off + len - 1) / 2 ^ 24))

/-- Whether a launch of a partition holds a cluster on a die. -/
def State.holdsDie (s : State) (p d : Nat) : Bool :=
  s.launches.any (fun q => q.2.part == p && q.2.placed && q.2.map.any (fun m => m.2 / 8 == d))

/-- A WSLOAD waits until its die is free of the partition's launches, then runs. -/
def State.wsTry (s : State) (n : Nat) (p : BitVec 256) : State :=
  if s.holdsDie (s.stream n).part (pkt p 1 1) then s.modStream n (fun q => { q.enter .wait with wsPos := 0 })
  else s.modStream n (fun q => { q.enter .run with wsPos := 1 })

/-- A set of banks as a mask. -/
def bankMask (l : List Nat) : BitVec 64 := l.foldl (fun a b => a ||| ((1#64) <<< b)) 0

/-- A WSLOAD takes note of the removed banks that a WSMASK has been written with before it: these it brings back (R484). -/
def State.wsBegin (s : State) (n : Nat) (p : BitVec 256) : State :=
  (s.modStream n (fun q => { q with wsBack := (s.die (pkt p 1 1)).remask &&& bankMask (wsBanks p) })).wsTry n p

def execWsload (n : Fin 16) (s : State) : Out :=
  .next (match s.inCmd n.val 4 with
    | some p => if (s.stream n.val).wsPos = 0 then s.wsTry n.val p else s
    | none => s.command n.val 4 (fun s p =>
        let ws := Tab.get 0 (pkt p 1 1) (s.part (s.stream n.val).part).wsmask
        if 2 ^ 30 < pkt p 16 4 + pkt p 20 4 ∨ !(wsBanks p).all (fun b => ws.getLsbD b) then s.stopStream n.val 4
        else s.wsBegin n.val p))

/-- The bytes of a WSLOAD with their poison, in order up to the first that cannot be read (log 26). -/
def State.wsBytes (s : State) (part src : Nat) : Nat → List (Byte × Bool) × Bool
  | 0 => ([], true)
  | k + 1 =>
    let r := State.wsBytes s part src k
    if r.2 then
      match s.engineTake part ((src + k) % 2 ^ 64) 1 with
      | some b => (r.1 ++ b, true)
      | none => (r.1, false)
    else r

/-- Bytes loaded into a Mantel from an offset on: they keep the poison that they had (R462). -/
def Die.load (d : Die) (off : Nat) (bs : List (Byte × Bool)) : Die :=
  { d with mantel := d.mantel.writeN off (bs.map (·.1)),
           mpois := ((enumFrom off bs).filter (fun q => q.2.2)).map (·.1) ++
             d.mpois.filter (fun a => !(decide (off ≤ a) && decide (a < off + bs.length))) }

/-- Removed banks are back (R484). -/
def Die.regain (d : Die) (m : BitVec 64) : Die :=
  { d with lost := d.lost &&& ~~~m, remask := d.remask &&& ~~~m }

/-- WSLOAD_COMPLETE: every byte is written and the command completes, and the banks that an error had removed, and that a WSMASK was
written with before it began, are back (R484); a source fault stops the stream (ERR 0x03). -/
def execWsloadComplete (n : Fin 16) (s : State) : Out :=
  .next (match s.inCmd n.val 4 with
    | none => s
    | some p =>
      if (s.stream n.val).wsPos = 0 then s
      else
        let (bs, ok) := s.wsBytes (s.stream n.val).part (pkt p 8 8) (pkt p 20 4)
        let back := if ok then (s.stream n.val).wsBack else 0
        let s := s.modDie (pkt p 1 1) (fun d => (d.load (pkt p 16 4) bs).regain back)
        let s := s.modStream n.val (fun q => { q with wsPos := 0, wsBack := 0 })
        if ok then s.completeCmd n.val else s.stopStream n.val 3)

/-! ## Task graphs (R418 to R420) -/

/-- A descriptor of a node: none where a field is out of its range or a reserved byte is set (log 25). -/
def tgNode (d : Nat) : Option TgNode :=
  let f (o n : Nat) : Nat := bits d (8 * o) (8 * n)
  if f 32 1 < 4 ∧ f 33 1 < 4 ∧ f 34 1 < 64 ∧ f 35 29 = 0 then
    some { src := BitVec.ofNat 64 (f 0 8), dst := BitVec.ofNat 64 (f 8 8), len := BitVec.ofNat 64 (f 16 8),
           succ := BitVec.ofNat 64 (f 24 8), xf := f 32 1, esz := f 33 1, cnt := f 34 1 }
  else none

/-- LEN is a multiple of the element size, or of a page for a fingerprint (R418). -/
def TgNode.lenOk (t : TgNode) : Bool :=
  if t.xf = 3 then t.len.toNat % 4096 == 0 else t.len.toNat % 2 ^ t.esz == 0

/-- TGADD (R418). -/
def execTgadd (n : Fin 16) (s : State) : Out :=
  .next (s.command n.val 5 (fun s p =>
    match s.engineRead (s.stream n.val).part (pkt p 8 8) 64 with
    | none => s.stopStream n.val 3
    | some b =>
      match tgNode (leNat b) with
      | none => s.stopStream n.val 1
      | some t =>
        if !t.lenOk then s.stopStream n.val 2
        else
          (s.modStream n.val (fun q => { q with nodes := Tab.put (64 * pkt p 1 1 + pkt p 2 1) t q.nodes })).completeCmd n.val))

/-- The nodes of a graph. -/
def Stream.graph (q : Stream) (g : Nat) : List (Nat × TgNode) :=
  (List.range 64).filterMap (fun m => (Tab.find (64 * g + m) q.nodes).map (fun t => (m, t)))

/-- Nodes whose predecessors are all gone are taken away, round by round; a rest is a cycle. -/
def peel : Nat → List (Nat × TgNode) → List (Nat × TgNode)
  | 0, l => l
  | f + 1, l => peel f (l.filter (fun q => l.any (fun r => r.2.succ.getLsbD q.1)))

/-- A valid graph (R420). -/
def graphOk (l : List (Nat × TgNode)) : Bool :=
  !l.isEmpty && (List.range 64).all (fun m => !l.any (fun q => q.2.succ.getLsbD m) || l.any (fun q => q.1 == m)) &&
    l.all (fun q => q.2.cnt == (l.filter (fun r => r.2.succ.getLsbD q.1)).length) && (peel 64 l).isEmpty

/-- Whether a cluster of a partition is free for task copies. -/
def State.taskCluster (s : State) (p : Nat) : Bool := (s.partClusters p).any (fun c => !s.heldCluster c)

/-- The state of a stream whose graph runs: WAIT while no cluster is free. -/
def State.tgWait (s : State) (n : Nat) : State :=
  s.modStream n (fun q => q.enter (if s.taskCluster q.part then .run else .wait))

/-- TGRUN: a valid graph's counters are set, and its nodes whose counter is 0 are dispatched (R419, R420). -/
def execTgrun (n : Fin 16) (s : State) : Out :=
  .next (match s.inCmd n.val 6 with
    | some _ => s.tgWait n.val
    | none => s.command n.val 6 (fun s p =>
        let l := (s.stream n.val).graph (pkt p 1 1)
        if !graphOk l then s.stopStream n.val 6
        else
          (s.modStream n.val (fun q =>
            { q with tgLeft := l.map (fun r => (r.1, r.2.cnt)), tgDone := [], tgPos := 0 })).tgWait n.val))

/-- A byte of a task's source with its poison; none on a fault. -/
def State.taskByte (s : State) (part : Nat) (a : Word) : Option (Byte × Bool) :=
  match s.enginePlaces part .load [a.toNat] with
  | some [p] => some (s.memByte p.1 p.2, s.poisoned p.1 p.2)
  | _ => none

/-- `n` source bytes; none where one of them faults. -/
def State.taskBytes (s : State) (part : Nat) (a : Word) : Nat → Option (List (Byte × Bool))
  | 0 => some []
  | n + 1 =>
    match s.taskByte part a with
    | none => none
    | some b => (State.taskBytes s part (a + 1#64) n).map (fun l => b :: l)

/-- Bytes written in order; the second answer is false where one faults, those before it being written. -/
def State.taskWrite (s : State) (part : Nat) (a : Word) : List (Byte × Bool) → State × Bool
  | [] => (s, true)
  | b :: l =>
    match s.enginePlaces part .store [a.toNat] with
    | some [p] =>
      let s := s.setByte p.1 p.2 b.1
      State.taskWrite (if b.2 then s.poison p.1 p.2 else s) part (a + 1#64) l
    | _ => (s, false)

/-- A plain copy, byte by byte. -/
def State.taskCopy (s : State) (part : Nat) (src dst : Word) : Nat → State × Bool
  | 0 => (s, true)
  | n + 1 =>
    match s.taskByte part src with
    | none => (s, false)
    | some b =>
      match s.taskWrite part dst [b] with
      | (s, false) => (s, false)
      | (s, true) => State.taskCopy s part (src + 1#64) (dst + 1#64) n

/-- Elements of `e` bytes. -/
def chunksOf {α : Type} (e : Nat) : Nat → List α → List (List α)
  | 0, _ => []
  | n + 1, l => l.take e :: chunksOf e n (l.drop e)

/-- The SBC stream of a list of elements (R285). -/
def sbcPack : Nat → List (List (Byte × Bool)) → List (Byte × Bool)
  | 0, _ => []
  | _ + 1, [] => []
  | f + 1, l =>
    let grp := l.take 64
    let has (x : List (Byte × Bool)) : Bool := x.any (fun b => b.1 != 0#8)
    let m := (enumFrom 0 grp).foldl (fun a p => if has p.2 then a + 2 ^ p.1 else a) 0
    (natLe 8 m).map (fun b => (b, false)) ++ (grp.filter has).flatten ++ sbcPack f (l.drop 64)

/-- The elements of an SBC stream read from `a` on, `n` of them, each of `e` bytes (R285). -/
def State.sbcUnpack (s : State) (part e : Nat) : Nat → Word → Nat → Option (List (Byte × Bool))
  | 0, _, _ => some []
  | f + 1, a, n =>
    if n = 0 then some []
    else
      let k := min 64 n
      match s.taskBytes part a 8 with
      | none => none
      | some mb =>
        let m := leNat (mb.map (·.1)) % 2 ^ k
        match s.taskBytes part (a + 8#64) (popNat m * e) with
        | none => none
        | some bs =>
          let out := (List.range k).flatMap (fun i =>
            if m.testBit i then (bs.drop (popNat (m % 2 ^ i) * e)).take e else List.replicate e (0#8, false))
          (State.sbcUnpack s part e f (a + BitVec.ofNat 64 (8 + popNat m * e)) (n - k)).map (fun r => out ++ r)

/-- A task's copy (R418): the state it leaves, and whether it ran without a fault. -/
def State.runTask (s : State) (part : Nat) (t : TgNode) : State × Bool :=
  let e := 2 ^ t.esz
  let n := t.len.toNat
  let out : Option (List (Byte × Bool)) :=
    match t.xf with
    | 1 => (s.taskBytes part t.src n).map (fun bs => sbcPack (n + 1) (chunksOf e (n / e) bs))
    | 2 => s.sbcUnpack part e (n + 1) t.src (n / e)
    | _ => (s.taskBytes part t.src n).map (fun bs => (chunksOf 4096 (n / 4096) bs).flatMap (fun pg =>
        (natLe 8 (crc64 (pg.map (·.1))).toNat).map (fun b => (b, pg.any (·.2)))))
  if t.xf = 0 then s.taskCopy part t.src t.dst n
  else
    match out with
    | none => (s, false)
    | some bs => s.taskWrite part t.dst bs

/-- A node and all that follow it. -/
def after (l : List (Nat × TgNode)) : Nat → List Nat → List Nat
  | 0, acc => acc
  | f + 1, acc =>
    after l f (acc ++ (l.filter (fun q => l.any (fun r => acc.contains r.1 && r.2.succ.getLsbD q.1) &&
      !acc.contains q.1)).map (·.1))

/-- A dispatched node: its counter is 0 and it has not completed. -/
def Stream.taskReady (q : Stream) (m : Nat) : Bool :=
  Tab.find m q.tgLeft == some 0 && !q.tgDone.contains m

/-- The end of a graph's run: every node has completed, or was aborted by a fault (R419). After a fault the nodes that are no successors
of it run on, and the stream stops when they have completed (log 27). -/
def State.tgEnd (s : State) (n : Nat) : State :=
  let q := s.stream n
  if q.tgLeft.all (fun r => q.tgDone.contains r.1) then
    (if q.tgPos = 0 then s.completeCmd n else s.stopStream n 7)
  else s.tgWait n

/-- TASK_COMPLETE: a dispatched node's copy runs; its successors' counters fall, or, where it faults, it and all its
successors are aborted (R419). -/
def execTaskComplete (n : Fin 16) (m : Fin 64) (s : State) : Out :=
  .next (match s.inCmd n.val 6 with
    | none => s
    | some p =>
      let q := s.stream n.val
      let l := q.graph (pkt p 1 1)
      match l.find? (fun r => r.1 == m.val) with
      | none => s
      | some (_, t) =>
        if !q.taskReady m.val || !s.taskCluster q.part then s
        else
          match s.runTask q.part t with
          | (s, true) =>
            (s.modStream n.val (fun q =>
              { q with tgDone := q.tgDone ++ [m.val],
                       tgLeft := q.tgLeft.map (fun r => if t.succ.getLsbD r.1 then (r.1, r.2 - 1) else r) })).tgEnd n.val
          | (s, false) =>
            (s.modStream n.val (fun q => { q with tgDone := q.tgDone ++ after l 64 [m.val], tgPos := 1 })).tgEnd n.val)

end Sys2Proof.Machine
end

