-- ==== Sys2Proof/Machine/Device.lean ====
section
/-! DEFINITION. The device around the cores: the register window, partitions, translation registers, the mailbox, power and
firmware (R407, R431, R437, R446, R447, R466 to R470, R479, R486 to R492). -/

namespace Sys2Proof.Machine

open Sys2Proof

/-! ## Translation registers (R446, R447, R457) -/

/-- Every TLB entry and instruction-cache line of an address space goes, those of a partition that has it as its ASID (R446,
R455). -/
def State.dropXlate (s : State) (asid : Nat) : State :=
  { s with cores := mapVals (fun _ (q : CoreSt) =>
             { q with tlb := q.tlb.filter (fun l => l.asid != asid), icache := q.icache.filter (fun l => l.asid != asid) }) s.cores,
           clus := mapVals (fun _ (q : Cluster) => { q with tlb := q.tlb.filter (fun l => l.asid != asid) }) s.clus }

/-- Whether a launch of a partition is placed, waiting or pre-empted. -/
def State.hasLaunch (s : State) (p : Nat) : Bool := s.launches.any (fun q => q.2.part == p)

/-- A write of XROOT or XASID: ignored while a launch of the partition stands (R446). -/
def State.writeXreg (s : State) (p : Nat) (r : XReg) (v : Word) : State :=
  if s.hasLaunch p then s
  else
    (s.dropXlate (s.asidOf p)).modPart p (fun q =>
      match r with
      | .xroot => { q with xroot := v &&& 0x000FFFFFFFFFF000#64 }
      | .xasid => { q with xasid := v &&& 0xFFFF#64 })

/-- The page size of XINV's SIZE. -/
def xinvSize (v : Word) : Nat :=
  match bits v.toNat 8 2 with
  | 0 => 2 ^ 12
  | 1 => 2 ^ 16
  | 2 => 2 ^ 21
  | _ => 2 ^ 30

/-- A write of XINV: with GO set and nothing in progress it starts an invalidation at device scope (R447). -/
def State.writeXinv (s : State) (p : Nat) (v : Word) : State :=
  let s := s.modPart p (fun q => { q with xinv := v &&& 0xFFFFFFFFFFFFF300#64 })
  if !v.getLsbD 0 || (s.part p).xinvBusy then s
  else
    let sz := xinvSize v
    (s.modPart p (fun q => { q with xinvBusy := true })).startInval p (v.toNat / 4096 * 4096 / sz * sz) sz
      (s.partCores p) none none none true

def execXinvGo (p : Fin 8) (v : Word) (s : State) : Out := .next (s.writeXinv p.val (v ||| 1#64))
def execTranslationRootWrite (p : Fin 8) (r : XReg) (v : Word) (s : State) : Out := .next (s.writeXreg p.val r v)

/-! ## Partitions (R469, R470) -/

/-- The clusters that a partition's launches hold. -/
def State.heldBy (s : State) (p c : Nat) : Bool :=
  s.launches.any (fun q => q.2.part == p && q.2.placed && q.2.map.any (fun m => m.2 == c))

/-- Whether a partition holds a bank of a die (R470). -/
def State.bankHeld (s : State) (p d b : Nat) : Bool :=
  ((Tab.get 0 d (s.part p).wsmask).getLsbD b &&
    s.launches.any (fun q => q.2.part == p && ((q.2.placed && q.2.map.any (fun m => m.2 / 8 == d)) || q.2.lastDies.contains d))) ||
  (List.range 16).any (fun n => (s.stream n).part == p && (match s.inCmd n 4 with
    | some c => pkt c 1 1 == d && (wsBanks c).contains b
    | none => false))

def otherParts (p : Nat) : List Nat := (List.range 8).filter (fun q => q != p)

/-- Whether a write to PCFG or WSMASK is ignored: `new` is the partition as it would stand (R470). -/
def State.cfgClash (s : State) (p : Nat) (new : Part) : Bool :=
  let old := s.part p
  let mask (q : Part) (d : Nat) : BitVec 64 := Tab.get 0 d q.wsmask
  (new.en && (otherParts p).any (fun o =>
    let q := s.part o
    q.en && ((q.clmask &&& new.clmask) != 0#32 || (List.range 4).any (fun d => (mask q d &&& mask new d) != 0#64)))) ||
  (List.range 32).any (fun c =>
    (old.clmask.getLsbD c && !new.clmask.getLsbD c && s.heldBy p c) ||
    (!old.clmask.getLsbD c && new.clmask.getLsbD c && (otherParts p).any (fun o => s.heldBy o c))) ||
  (List.range 4).any (fun d => (List.range 64).any (fun b =>
    ((mask old d).getLsbD b && !(mask new d).getLsbD b && s.bankHeld p d b) ||
    (!(mask old d).getLsbD b && (mask new d).getLsbD b && (otherParts p).any (fun o => s.bankHeld o d b))))

/-- A write of PCFG or WSMASK; EN from 0 to 1 starts the search of R421 anew, and a WSMASK written with a removed bank lets a later WSLOAD
bring it back (R484). -/
def State.writePreg (s : State) (p : Nat) (r : PReg) (v : Word) : State :=
  let old := s.part p
  let new : Part := match r with
    | .pcfg => { old with en := v.getLsbD 63, clmask := v.setWidth 32,
                          lastPlaced := if !old.en && v.getLsbD 63 then [] else old.lastPlaced }
    | .wsmask d => { old with wsmask := Tab.put d.val v old.wsmask }
  if s.cfgClash p new then s
  else
    match r with
    | .pcfg => s.setPart p new
    | .wsmask d => (s.setPart p new).modDie d.val (fun e => { e with remask := e.remask ||| (e.lost &&& v) })

def execPartitionConfigWrite (p : Fin 8) (r : PReg) (v : Word) (s : State) : Out := .next (s.writePreg p.val r v)

/-- A ring control's LSIZE: other values than 12 to 24 count as 12. -/
def ringLsize (v : Word) : Nat :=
  let n := bits v.toNat 0 5
  if 12 ≤ n ∧ n ≤ 24 then n else 12

def base12 (v : Word) : Word := v &&& 0xFFFFFFFFFFFFF000#64

/-- A frame in build closes where R391 says so and no closed frame waits (R393). -/
def State.closeFrame (s : State) (p : Nat) : State :=
  let q := s.part p
  match q.build, q.closed with
  | some f, none =>
    if 64 ≤ f.recs.length || !(s.die f.die).chim.any (fun r => r.part == p) then
      s.setPart p { q with build := none, closed := some f }
    else s
  | _, _ => s

/-- A write of EGCTL: a ring of another size starts at its first byte (log 29). -/
def Part.egctl (q : Part) (v : Word) : Part :=
  { q with egen := v.getLsbD 5, eglsize := ringLsize v, egpos := if ringLsize v = q.eglsize then q.egpos else 0 }

/-- A write in a partition's block (R431, R446, R469). -/
def State.writePart (s : State) (p o : Nat) (v : Word) : State :=
  match o with
  | 0x00 => s.writePreg p .pcfg v
  | 0x08 => s.writePreg p (.wsmask 0) v
  | 0x10 => s.writePreg p (.wsmask 1) v
  | 0x18 => s.writePreg p (.wsmask 2) v
  | 0x20 => s.writePreg p (.wsmask 3) v
  | 0x28 => s.modPart p (fun q => { q with trcfg := v &&& 0xFFFFFFFFFFFFF301#64 })
  | 0x30 => s.modPart p (fun q => { q with trroute := v &&& 0x3FFFE#64 })
  | 0x38 => s.writeXreg p .xroot v
  | 0x40 => s.writeXreg p .xasid v
  | 0x48 => s.writeXinv p v
  | 0x50 => s.modPart p (fun q => { q with elbase := base12 v })
  | 0x58 => s.modPart p (fun q => { q with elen := v.getLsbD 5, ellsize := ringLsize v })
  | 0x60 => s.modPart p (fun q => { q with elcons := v })
  | 0x68 => s.modPart p (fun q => { q with egbase := base12 v, egpos := 0 })
  | 0x70 => (s.modPart p (fun q => q.egctl v)).closeFrame p
  | 0x78 => s.modPart p (fun q => { q with egcons := v })
  | 0x80 => s.modPart p (fun q => { q with grpbase := base12 v })
  | _ => s

/-! ## Streams' registers (R407, R408, R416) -/

/-- A write of SQTAIL (R408, R410). -/
def State.writeTail (s : State) (n : Nat) (v : Word) : State :=
  s.modStream n (fun q =>
    let q := { q with tail := v.toNat % 2 ^ 24 / 32 * 32 }
    if q.st == .idle && q.pending then { q with st := .run } else q)

/-- The fields of SQCTL that a disabled stream takes. -/
def Stream.setFields (q : Stream) (v : Word) : Stream :=
  { q with priv := v.getLsbD 29, part := bits v.toNat 24 3, pri := bits v.toNat 16 2, lsize := ringLsize v }

/-- A write of SQCTL: KILL first, then the fields while EN is 0, then EN (R407, R408). -/
def State.writeSqctl (s : State) (n : Nat) (v : Word) : State :=
  let s := if v.getLsbD 31 then s.kill n else s
  s.modStream n (fun q =>
    match q.en, v.getLsbD 30 with
    | false, false => q.setFields v
    | false, true =>
      let q := q.setFields v
      { q with en := true, head := q.tail % q.ring, err := 0, st := .idle, detached := q.busy }
    | true, true => q
    | true, false => { q with en := false, st := .off })

def State.writeStream (s : State) (n o : Nat) (v : Word) : State :=
  match o with
  | 0x00 => s.modStream n (fun q => if q.en then q else { q with sqbase := base12 v })
  | 0x08 => s.writeSqctl n v
  | 0x10 => s.writeTail n v
  | 0x28 => s.modStream n (fun q => if q.en then q else { q with sqsave := base12 v })
  | _ => s

def execSqtail (n : Fin 16) (v : Word) (s : State) : Out := .next (s.writeTail n.val v)
def execStreamEnable (n : Fin 16) (v : Word) (s : State) : Out :=
  .next (s.writeSqctl n.val ((v ||| 0x40000000#64) &&& ~~~0x80000000#64))
def execStreamDisable (n : Fin 16) (v : Word) (s : State) : Out :=
  .next (s.writeSqctl n.val (v &&& ~~~0xC0000000#64))

/-! ## Firmware and the mailbox (R489 to R492) -/

/-- Bytes of a firmware image that the model keeps (log 30). -/
def fwBytes : Nat := 4096

/-- The image of a flash slot: what FWUPDATE wrote, else what the package was made with. -/
def State.fwImage (s : State) (slot : Bool) : List Byte :=
  (List.range fwBytes).map (fun i => Tab.get (Config.firmware slot i) (fwBytes * (if slot then 1 else 0) + i) s.flash)

/-- A command of the mailbox ends (R491). -/
def State.mbEnd (s : State) (err : BitVec 8) (data : List Byte) : State :=
  { s with mbbusy := false, mbdone := true, mberr := err, mblen := data.length,
           mbdata := s.mbdata.writeN 0 data }.irq 40

/-- The registers that an attestation report measures, taken in one step as the command starts (R492). -/
def State.measure (s : State) : List Word :=
  (List.range 8).flatMap (fun p =>
    let q := s.part p
    [BitVec.ofNat 64 (q.clmask.toNat + (if q.en then 2 ^ 63 else 0))] ++
      (List.range 4).map (fun d => Tab.get 0 d q.wsmask) ++ [q.xroot, q.trcfg])

/-- DSTAT (R469). -/
def State.dstat (s : State) : Word :=
  BitVec.ofNat 64 (boolBit s.ready 0 + boolBit s.recov 1 + boolBit s.slotB 2 + boolBit s.therm 3 + s.fwsvn.toNat * 16)

/-- Bytes of a word. -/
def wordBytes (w : Word) : List Byte := natLe 8 w.toNat

/-- An attestation report (R492): the boot ROM's digest and the signature are open (log 30). -/
def State.report (s : State) : List Byte :=
  let open' (k n : Nat) (arg : List Byte) : List Byte := (List.range n).map (Config.document k arg)
  let body := natLe 4 0x5441565A ++ natLe 2 1 ++ natLe 2 0 ++ s.mbdata.readN 0 32 ++ open' 0 32 [] ++
    sha256 (s.fwImage s.slotB) ++ sha256 (s.mbsnap.flatMap wordBytes) ++ natLe 8 s.fwsvn.toNat ++ wordBytes s.dstat
  body ++ open' 3 384 body

/-- An event record's 64 bytes (R477). -/
def EvRec.bytes (e : EvRec) (eseq : Nat) : List Byte :=
  natLe 8 eseq ++
    [BitVec.ofNat 8 e.type, BitVec.ofNat 8 (e.die + (e.part.getD 0) * 4 + (if e.gcid.isSome then 128 else 0))] ++
    natLe 2 (e.gcid.getD 0) ++ natLe 4 e.ltag.toNat ++ natLe 32 e.payload.toNat ++ natLe 16 0

/-- The command that the mailbox holds runs (R491). -/
def State.mbRun (s : State) : State :=
  match s.mbop.toNat with
  | 1 => s.mbEnd 0 s.report
  | 2 => s.mbEnd 0 ((List.range (Config.free 12 0).toNat).map (fun i => Config.document 4 [] i))
  | 3 =>
    let a := s.mbarg.toNat
    if (List.range fwBytes).all (fun i => inData (a + i)) then
      let img := s.memBytes .dram a fwBytes
      if Config.signatureOk img then
        let o := fwBytes * (if s.slotB then 0 else 1)
        let flash := (enumFrom 0 img).foldl (fun (t : Tab Byte) (p : Nat × Byte) => Tab.put (o + p.1) p.2 t) s.flash
        { s with flash := flash }.mbEnd 0 []
      else s.mbEnd 3 []
    else s.mbEnd 2 []
  | 4 =>
    let out := s.devlog.take 64
    let bs := (enumFrom 0 out).flatMap (fun p => p.2.bytes (s.devseq + 1 + p.1))
    let s := { s with devlog := s.devlog.drop 64, devseq := s.devseq + out.length }
    { (s.setBytes .host (s.mbarg.toNat % 2 ^ 52 * 4096) bs).mbEnd 0 [] with mblen := bs.length }
  | _ => s.mbEnd 1 []

/-- A write of MBCMD: ignored while a command runs (R491) and in a stopped package (R488); an unknown OP completes at once. -/
def State.writeMbcmd (s : State) (v : Word) : State :=
  if s.mbbusy || s.power != .on then s
  else
    let s := { s with mbbusy := true, mbop := v.setWidth 8, mbarg := (v >>> 8).setWidth 56, mbsnap := s.measure }
    if 1 ≤ v.toNat % 256 ∧ v.toNat % 256 ≤ 4 then s else s.mbRun

/-- A mailbox step: the command written is completed; with none running, it is written and completed. -/
def State.mailbox (s : State) (op : Nat) (arg : Word) : State :=
  let s := if s.mbbusy then s else s.writeMbcmd (BitVec.ofNat 64 (op + arg.toNat * 256))
  if s.mbop.toNat = op then s.mbRun else s

def execAttest (s : State) : Out := .next (s.mailbox 1 0)
def execCert (s : State) : Out := .next (s.mailbox 2 0)
def execFwupdate (arg : Word) (s : State) : Out := .next (s.mailbox 3 arg)
def execDevlog (arg : Word) (s : State) : Out := .next (s.mailbox 4 arg)

/-! ## Ports' registers (R479) -/

/-- A write of VPCTL: EN from 0 to 1 starts training, EN to 0 takes the port to DOWN and its link layer back to its start; RETRY and
PEERID stay. -/
def State.writeVpctl (s : State) (n : Nat) (v : Word) : State :=
  s.modPort n (fun p =>
    let p := { p with peer := (v >>> 8).setWidth 8 }
    match p.en, v.getLsbD 0 with
    | false, true => { p with en := true, st := .train }
    | true, false => { Port.reset with peer := p.peer, peerid := p.peerid, retry := p.retry, rx := p.rx, out := p.out }
    | _, _ => p)

def execPortEnable (n : Fin 16) (s : State) : Out :=
  .next (s.writeVpctl n.val (((s.port n.val).peer.setWidth 64 <<< 8) ||| 1#64))
def execPortDisable (n : Fin 16) (s : State) : Out :=
  .next (s.writeVpctl n.val ((s.port n.val).peer.setWidth 64 <<< 8))

/-! ## The window (R466 to R468) -/

/-- A write in the global block. -/
def State.writeGlobal (s : State) (o : Nat) (v : Word) : State :=
  match o with
  | 0x18 => { s with devid := v.setWidth 8 }
  | 0x20 =>
    let w := v.toNat % 2048
    if 400 ≤ w ∧ w ≤ 1800 then { s with pwrcap := v.setWidth 11 } else s
  | 0x100 => s.writeMbcmd v
  | 0x108 => if v.getLsbD 1 then { s with mbdone := false } else s
  | o => if 0x1000 ≤ o ∧ o < 0x2000 then { s with mbdata := s.mbdata.writeN (o - 0x1000) (wordBytes v) } else s

/-- A register of a die's block: the Damper (R165). -/
def State.writeDie (s : State) (d o : Nat) (v : Word) : State :=
  match o with
  | 0x00 => s.modDie d (fun q => { q with dmpgap := v })
  | 0x08 | 0x10 | 0x18 | 0x20 =>
    s.modDie d (fun q => { q with dmpph := Tab.put (o / 8 - 1) (v &&& 0x7777777777777777#64) q.dmpph })
  | _ => s

/-- A register of a core's block (R437, R469). -/
def State.writeCore (s : State) (k o : Nat) (v : Word) : State :=
  if o = 0x40 then s.cpcmd k v else if o = 0x48 then s.tresume k (bits v.toNat 0 2) else s

/-- A HOST WRITE of a register: an aligned 8-byte access at a window offset (R466, R467). -/
def State.regWrite (s : State) (o : Nat) (v : Word) : State :=
  if o % 8 ≠ 0 then s
  else if o < 0x10000 then s.writeGlobal o v
  else if o < 0x11000 then s.writeStream ((o - 0x10000) / 0x100) (o % 0x100) v
  else if o < 0x20000 then s
  else if o < 0x28000 then s.writePart ((o - 0x20000) / 0x1000) (o % 0x1000) v
  else if o < 0x30000 then s
  else if o < 0x34000 then s.writeDie ((o - 0x30000) / 0x1000) (o % 0x1000) v
  else if o < 0x40000 then s
  else if o < 0x41000 then (if o % 0x100 = 0 then s.writeVpctl ((o - 0x40000) / 0x100) v else s)
  else if o < 0x1000000 then s
  else if o < 0x1100000 then s.writeCore ((o - 0x1000000) / 0x1000) (o % 0x1000) v
  else s

def execRegisterWrite (o : Nat) (v : Word) (s : State) : Out := .next (s.regWrite o v)

/-! ## What a host read of the window answers -/

def streamCode : StreamSt → Nat
  | .idle => 0 | .run => 1 | .wait => 2 | .preempted => 3 | .stop => 4 | .off => 5

def portCode : PortSt → Nat
  | .down => 0 | .train => 1 | .up => 2 | .fail => 3

def State.readGlobal (s : State) (o : Nat) : Nat :=
  match o with
  | 0x10 => s.dstat.toNat
  | 0x18 => s.devid.toNat
  | 0x20 => s.pwrcap.toNat
  | 0x108 => boolBit s.mbbusy 0 + boolBit s.mbdone 1 + s.mberr.toNat * 2 ^ 8 + s.mblen * 2 ^ 32
  | o => if 0x1000 ≤ o ∧ o < 0x2000 then leNat (s.mbdata.readN (o - 0x1000) 8) else 0

def Stream.readReg (q : Stream) (o : Nat) : Nat :=
  match o with
  | 0x00 => q.sqbase.toNat
  | 0x08 => q.lsize + q.pri * 2 ^ 16 + q.part * 2 ^ 24 + boolBit q.priv 29 + boolBit q.en 30
  | 0x10 => q.tail
  | 0x18 => q.head
  | 0x20 => streamCode q.st + q.err.toNat * 2 ^ 8 + q.foff * 2 ^ 32
  | 0x28 => q.sqsave.toNat
  | _ => 0

def Part.readReg (q : Part) (o : Nat) : Nat :=
  match o with
  | 0x00 => q.clmask.toNat + boolBit q.en 63
  | 0x08 => (Tab.get 0 0 q.wsmask).toNat
  | 0x10 => (Tab.get 0 1 q.wsmask).toNat
  | 0x18 => (Tab.get 0 2 q.wsmask).toNat
  | 0x20 => (Tab.get 0 3 q.wsmask).toNat
  | 0x28 => q.trcfg.toNat
  | 0x30 => q.trroute.toNat
  | 0x38 => q.xroot.toNat
  | 0x40 => q.xasid.toNat
  | 0x48 => q.xinv.toNat + boolBit q.xinvBusy 1
  | 0x50 => q.elbase.toNat
  | 0x58 => q.ellsize + boolBit q.elen 5 + q.eldrop * 2 ^ 32
  | 0x60 => q.elcons.toNat
  | 0x68 => q.egbase.toNat
  | 0x70 => q.eglsize + boolBit q.egen 5 + q.egdrop * 2 ^ 32
  | 0x78 => q.egcons.toNat
  | 0x80 => q.grpbase.toNat
  | _ => 0

def Die.readReg (d : Die) (o : Nat) : Nat :=
  match o with
  | 0x00 => d.dmpgap.toNat
  | 0x08 | 0x10 | 0x18 | 0x20 => (Tab.get 0 (o / 8 - 1) d.dmpph).toNat
  | _ => 0

def Port.readReg (p : Port) (o : Nat) : Nat :=
  match o with
  | 0x00 => boolBit p.en 0 + p.peer.toNat * 2 ^ 8
  | 0x08 => portCode p.st + p.peerid.toNat * 2 ^ 8 + p.retry * 2 ^ 32
  | _ => 0

/-- A HOST READ of a register; unlisted offsets read as zero (R466, R467). -/
def State.regRead (s : State) (o : Nat) : Word :=
  BitVec.ofNat 64 (
    if o % 8 ≠ 0 then 0
    else if o < 0x10000 then s.readGlobal o
    else if o < 0x11000 then (s.stream ((o - 0x10000) / 0x100)).readReg (o % 0x100)
    else if o < 0x20000 then 0
    else if o < 0x28000 then (s.part ((o - 0x20000) / 0x1000)).readReg (o % 0x1000)
    else if o < 0x30000 then 0
    else if o < 0x34000 then (s.die ((o - 0x30000) / 0x1000)).readReg (o % 0x1000)
    else if o < 0x40000 then 0
    else if o < 0x41000 then (s.port ((o - 0x40000) / 0x100)).readReg (o % 0x100)
    else if o < 0x1000000 then 0
    else if o < 0x1100000 then
      let k := (o - 0x1000000) / 0x1000
      let r := o % 0x1000
      if r < 0x20 then (s.cpstop k (r / 8)).toNat else if r < 0x40 then (s.cpfad k (r / 8 - 4)).toNat else 0
    else 0)

def execTresume (core : Fin 256) (ctx : Fin 4) (s : State) : Out := .next (s.tresume core.val ctx.val)

/-! ## Power (R486 to R489) -/

/-- A die's clock changes by a step of 125 MHz between 1,000 and 2,000 MHz, with its event and THERM (R487). -/
def State.setClock (s : State) (d clk : Nat) (temp : BitVec 32) : State :=
  let s := s.modDie d (fun q => { q with clk := clk, throttled := decide (clk < 2000), cool := 0 })
  let hot := (List.range 4).any (fun i => (s.die i).throttled)
  let s := if hot == s.therm then s else { s with therm := hot }.irq 40
  s.offer ⟨7, none, d, none, 0, BitVec.ofNat 256 (d + clk / 125 * 2 ^ 64 + temp.toNat * 2 ^ 128)⟩

/-- The cause of a lower clock: package power above PWRCAP.W, or a junction above 100 degrees Celsius (R487). -/
def State.hot (s : State) (d : Nat) : Bool :=
  decide (s.pwrcap.toNat < s.watts.toNat) || decide (100 < (s.die d).temp.toNat)

/-- A junction temperature is measured; the time without a cause starts anew while there is one. -/
def State.sense (s : State) (d : Nat) (temp : BitVec 32) : State :=
  let s := s.modDie d (fun q => { q with temp := temp })
  if s.hot d then s.modDie d (fun q => { q with cool := 0 }) else s

/-- Every die stops until the next power-up (R488). -/
def State.thermalStop (s : State) : State :=
  let e : EvRec := ⟨7, none, 0, none, 0, 0⟩
  { s with power := .stopped, ready := false, devlog := s.devlog ++ [e] }.irq 40

/-- The stop comes with the first temperature measured at 115 degrees Celsius or above (R488). -/
def State.overheat (s : State) : State :=
  if s.power == .on && (List.range 4).any (fun d => decide (115 ≤ (s.die d).temp.toNat)) then s.thermalStop else s

/-- THROTTLE: with the cause present the clock falls by a step, down to 1,000 MHz. -/
def execThrottle (d : Fin 4) (temp : BitVec 32) (s : State) : Out :=
  .next (
    let s := s.sense d.val temp
    (if s.hot d.val && decide (1000 < (s.die d.val).clk) then s.setClock d.val (max 1000 ((s.die d.val).clk - 125)) temp
    else s).overheat)

/-- The clock rises once the cause has been absent for 2^20 cycles of the die. -/
def execClockRestore (d : Fin 4) (temp : BitVec 32) (s : State) : Out :=
  .next (
    let s := s.sense d.val temp
    (if !s.hot d.val && decide ((s.die d.val).clk < 2000) && decide (2 ^ 20 ≤ (s.die d.val).cool) then
      s.setClock d.val (min 2000 ((s.die d.val).clk + 125)) temp
    else s).overheat)

/-- THERMAL STOP: the event that a junction has reached 115 degrees Celsius, whatever was measured last (R488; log 29). -/
def execThermalStop (s : State) : Out := .next s.thermalStop

/-- What outlasts the package's power: host memory, the flash, fused values, and the model's own fields. -/
def State.keep (s : State) (t : State) : State :=
  { t with cur := s.cur, inbox := s.inbox, pace := s.pace, freeN := s.freeN, host := s.host, hpois := s.hpois, flash := s.flash,
           irqs := s.irqs, hostRead := s.hostRead, turn := s.turn,
           dies := (List.range 4).map (fun d => (d, { Die.reset with wsc := Config.free 16 (s.freeN + d) })) }

def execPowerDown (s : State) : Out := .next { s.keep State.reset with power := .off, freeN := s.freeN + 4 }

/-- POWER UP: slot A, else slot B, else recovery; every register at its reset value, storage cleared, READY (R489). Where the registers
are at their reset values already and READY is not set, as right after reset, what the host has given since stays. A package
that is READY or in recovery is not powered up again. -/
def execPowerUp (s : State) : Out :=
  .next (
    if s.power == .on && (s.ready || s.recov) then s
    else
      let a := Config.signatureOk (s.fwImage false)
      let b := Config.signatureOk (s.fwImage true)
      let t := if s.power == .on then s else { s.keep State.reset with freeN := s.freeN + 4 }
      { t with ready := a || b, recov := !(a || b), slotB := !a && b }.irq 40)

end Sys2Proof.Machine
end

