-- ==== Sys2Proof/Machine/Background.lean ====
section
/-! DEFINITION. The engines beneath the cores: barriers and the Damper, generations and the sweeper, the clearer,
invalidations, trap delivery, the Chimney and its frames, the event logs, host memory accesses, Viaduct ports, errors and
telemetry (R127, R131, R139 to R141, R161 to R167, R174, R390 to R394, R432 to R434, R457, R458, R465, R473 to R485). -/

namespace Sys2Proof.Machine

open Sys2Proof

/-! ## Writes (R141) -/

/-- The oldest committed write of a context in a stream is performed, with the earlier ones it overlaps. -/
def execWritePerformed (ctx : Fin 1024) (strm : Fin 16) (s : State) : Out :=
  .next (match s.wbuf.find? (fun w => w.gcid == ctx.val && w.strm == strm.val) with
    | none => s
    | some v => s.perform (fun w => w == v))

/-! ## Barriers, the Damper, generations (R161 to R167) -/

/-- The key of a barrier that a step names. -/
def barKeyOf (b : BarId) : BarKey := ⟨b.scope, b.unit, b.bn.val⟩

/-- A barrier of a stream's running launch completes, if its episode is complete. -/
def State.tryComplete (s : State) (n : Nat) (k : BarKey) : State :=
  match s.launch n with
  | none => s
  | some l => if l.placed && s.barDone l k then s.completeBar n l k else s

def execBarrierCompletion (n : Fin 16) (b : BarId) (s : State) : Out := .next (s.tryComplete n.val (barKeyOf b))

/-- Whether a release is due: its cycle has come, and no waiter of a lower phase on its die is unreleased (R166, R167, R185). -/
def Launch.relDue (l : Launch) (now : Nat) (b : Bar) (r : Rel) : Bool :=
  decide (r.cycle ≤ now) &&
    !b.rels.any (fun q => q.waiter && decide (q.phase < r.phase) && dieOf (l.gcidAt q.gcid) == dieOf (l.gcidAt r.gcid))

/-- The releases of one phase that are due (R166, R167). -/
def State.release (s : State) (n : Nat) (k : BarKey) (phase : Nat) : State :=
  match s.launch n with
  | none => s
  | some l =>
    let b := l.bar k
    let due (r : Rel) : Bool := r.phase == phase && l.relDue s.cycle b r
    let out := b.rels.filter due
    let s := s.setLaunch n (l.setBar k { b with rels := b.rels.filter (fun r => !due r) })
    if !l.placed then s
    else
      out.foldl (fun s r =>
        let g := l.gcidAt r.gcid
        if (s.ctx g).waitsFor k r.ep && (s.ctx g).st == .blocked then s.modCtx g (fun c => { c with st := .ready }) else s) s

def execDamperRelease (n : Fin 16) (b : BarId) (phase : Fin 8) (s : State) : Out :=
  .next (s.release n.val (barKeyOf b) phase.val)

/-- LGEN_INCREMENT: the increment that a complete launch-scope barrier of the partition waits for, with that barrier's
completion (R162, R163). The increment of a placement is part of LAUNCH_PLACEMENT. -/
def execLgenIncrement (p : Fin 8) (s : State) : Out :=
  .next ((s.launches.filter (fun q => q.2.part == p.val)).foldl (fun s q => s.tryComplete q.1 ⟨.launch, 0, 0⟩) s)

def execTagSweep (u : SweepUnit) (gr : Nat) (s : State) : Out :=
  .next (match u with
    | .die d =>
      match zoneOf (gr * 64) with
      | .data e _ => if e = d.val then s.sweep .dram gr d.val (tagAddr gr) else s
      | _ => s
    | .cluster c => s.sweep (.sp c.val) gr (c.val / 8) (gr * 64))

/-- The clearer fills 256 bytes of the first range that it has not reached (R127). -/
def execScratchpadClear (c : Fin 32) (s : State) : Out :=
  .next (s.modClu c.val (fun q =>
    (List.range 4).foldl (fun q _ =>
      match q.uncleared with
      | [] => q
      | (a, _) :: _ => q.clearLine a) q))

/-- A Mantel refresh changes no value; what waits for it is counted at the read (R131, R482). -/
def execMantelRefresh (_d : Fin 4) (s : State) : Out := .next s

/-! ## Invalidations complete (R139, R174, R457, R458) -/

/-- Whether a copy ahead of a marker has not yet retired. -/
def State.marked (s : State) (n : Nat) : Bool :=
  s.cores.any (fun q => q.2.ch.any (fun c => c.2.copies.any (fun d => d.marks.contains n)))

/-- Whether a pin still holds an invalidation back. -/
def State.pinsHold (s : State) (i : Inval) : Bool :=
  i.cores.any (fun k => (List.range 4).any (fun c => !s.exempt i (k * 4 + c) && (s.ctx (k * 4 + c)).pins.any i.pinned))

/-- TLB entries and code lines of an invalidation's page leave the caches that the cores in its scope reach, their clusters' TLBs
among them (R455, R457). -/
def State.flush (s : State) (i : Inval) : State :=
  let line (l : Line) : Bool := l.asid == i.asid && decide (l.va < i.va + i.size) && decide (i.va < l.va + 64)
  i.cores.foldl (fun s k =>
    (s.modCore k (fun q =>
      { q with tlb := q.tlb.filter (fun l => !i.covers l), icache := q.icache.filter (fun l => !line l) })).modClu (k / 8)
      (fun q => { q with tlb := q.tlb.filter (fun l => !i.covers l) })) s

/-- An invalidation completes once its markers are at the heads of their channels and its pins have expired; a TLBI's or a
CPYD's is kept as done for the one that waits for it. -/
def State.invalDone (s : State) (n : Nat) : State :=
  match s.invals.find? (fun i => i.no == n && !i.done) with
  | none => s
  | some i =>
    let s := s.releasePins i
    if s.marked n || s.pinsHold i then s
    else
      let s := s.flush i
      let rest := s.invals.filter (fun j => j.no != n)
      let s := { s with invals := if i.issuer.isSome then rest ++ [{ i with done := true }] else rest }
      if i.xinv then s.modPart i.part (fun q => { q with xinvBusy := false }) else s

def execInvalidationComplete (n : Nat) (s : State) : Out := .next (s.invalDone n)

/-! ## Trap delivery (R432 to R434, R476) -/

/-- Whether an entry of a core's queue can go on: a trap to the handler as first of its kind with the handler's context
free, a record with room in the arbiter. -/
def State.trapReady (s : State) (core n : Nat) : Bool :=
  if n < 4 then
    let h := core * 4 + bits (s.ctx (core * 4 + n)).trcfg.toNat 8 2
    (s.core core).trapQ.find? (fun m => decide (m < 4)) == some n &&
      ((s.ctx (core * 4 + n)).st != .trapped || (s.ctx h).st == .empty || (s.ctx h).st == .halted)
  else s.arbRoom (core / 64)

/-- TRAP_DELIVERY: the first entry of the core's queue that can go on (R432 to R434, R476). -/
def State.deliverTrap (s : State) (core : Nat) : State :=
  match (s.core core).trapQ.find? (s.trapReady core) with
  | none => s
  | some n =>
    let s := s.dropTrap core n
    if n < 4 then
      if (s.ctx (core * 4 + n)).st != .trapped then s else (s.deliver core n).getD (s.hostTrap (core * 4 + n))
    else if n < 8 then s.hostTrap (core * 4 + n - 4)
    else s.stopEvent core (n - 8)

def execTrapDelivery (core : Fin 256) (s : State) : Out := .next (s.deliverTrap core.val)

/-! ## The Chimney and its frames (R390 to R394) -/

/-- Whether a frame can take one more record: of its launch, with room for it (R391, R393), and of its die and the next after its own,
since a header names one die and one first RSEQ (R392; log 29). -/
def Frame.takes (f : Frame) (die rseq : Nat) (r : ChimRec) : Bool :=
  f.die == die && f.stream == r.stream && f.serial == r.serial && decide (f.recs.length < 64) && f.rseq + f.recs.length == rseq

/-- A record that a frame takes, or a new frame with it. -/
def addRec (f : Option Frame) (die rseq : Nat) (r : ChimRec) : Frame :=
  match f with
  | some f => { f with recs := f.recs ++ [(r.lo, r.hi)] }
  | none => ⟨die, r.stream, r.ltag, r.serial, rseq, [(r.lo, r.hi)]⟩

/-- CHIMNEY_RECORD_TAKE (R391, R393): discarded and counted with egress disabled; else into the frame in build, which
closes first where it cannot take the record; with a closed frame waiting as well the record stays. -/
def State.takeRecord (s : State) (d : Nat) : State :=
  match (s.die d).chim with
  | [] => s
  | r :: rest =>
    let q := s.part r.part
    let n := Tab.get 0 r.part (s.die d).rseq
    let pop (s : State) : State := s.modDie d (fun e => { e with chim := rest, rseq := Tab.put r.part (n + 1) e.rseq })
    if !q.egen then ((pop s).modPart r.part (fun q => { q with egdrop := sat32 (q.egdrop + 1) })).closeFrame r.part
    else
      match q.build, q.closed with
      | some f, closed =>
        if f.takes d n r then
          ((pop s).modPart r.part (fun q => { q with build := some (addRec (some f) d n r) })).closeFrame r.part
        else
          match closed with
          | some _ => s
          | none =>
            ((pop s).modPart r.part (fun q => { q with closed := some f, build := some (addRec none d n r) })).closeFrame r.part
      | none, _ => ((pop s).modPart r.part (fun q => { q with build := some (addRec none d n r) })).closeFrame r.part

/-- Whether the oldest record of a Chimney can be taken. -/
def State.canTake (s : State) (d : Nat) : Bool :=
  match (s.die d).chim with
  | [] => false
  | r :: _ =>
    let q := s.part r.part
    !q.egen || q.closed.isNone || (match q.build with
      | some f => f.takes d (Tab.get 0 r.part (s.die d).rseq) r
      | none => true)

def execChimneyRecordTake (d : Fin 4) (s : State) : Out := .next (s.takeRecord d.val)

/-- The bytes of a frame's length (R392). -/
def Frame.len (f : Frame) : Nat := 32 + (f.recs.length + 1) / 2 * 32

/-- A frame header: `nrec` 0 for a pad frame. -/
def frameHeader (f : Frame) (p nrec len fseq : Nat) : List Byte :=
  natLe 32 (len + p * 2 ^ 55 + f.die * 2 ^ 58 + f.stream * 2 ^ 60 + nrec * 2 ^ 64 + f.ltag.toNat * 2 ^ 96 + f.rseq * 2 ^ 128 +
    fseq * 2 ^ 192)

/-- Whether bytes of host memory overlap a frame that the host has not consumed (R393). -/
def Part.ringBusy (q : Part) (lo hi : Nat) : Bool :=
  q.egseqs.any (fun e => decide (q.egcons.toNat < e.2.2) && decide (e.1 < hi) && decide (lo < e.2.1))

/-- Where the ring's next frame begins in host memory. -/
def Part.ringAt (q : Part) : Nat := q.egbase.toNat + q.egpos

/-- Bytes put into the ring at its position, the frame's sequence number kept with its place, FSEQ last (R393); the partition's egress
interrupt is raised (R475). -/
def State.putFrame (s : State) (p len : Nat) (bs : List Byte) : State :=
  let q := s.part p
  let lo := q.ringAt
  let s := s.setBytes .host lo bs
  (s.setPart p { q with egpos := (q.egpos + len) % 2 ^ q.eglsize, fseq := q.fseq + 1,
                        egseqs := q.egseqs.filter (fun e => !(decide (e.1 < lo + len) && decide (lo < e.2.1))) ++
                          [(lo, lo + len, q.fseq)] }).irq (32 + p)

/-- FRAME_WRITE: the closed frame, or the pad frame before it, once the ring has room (R392, R393). Of a pad frame the header is
written; what host memory held after it stays (log 29). -/
def State.frameWrite (s : State) (p : Nat) : State :=
  let q := s.part p
  match q.closed with
  | none => s
  | some f =>
    if !q.egen then s
    else
      let left := 2 ^ q.eglsize - q.egpos
      if left < f.len then
        if q.ringBusy q.ringAt (q.ringAt + left) then s
        else s.putFrame p left (frameHeader f p 0 left q.fseq)
      else if q.ringBusy q.ringAt (q.ringAt + f.len) then s
      else
        let body := f.recs.flatMap (fun r => wordBytes r.1 ++ wordBytes r.2)
        let pad := if f.recs.length % 2 = 1 then List.replicate 16 0#8 else []
        let s := s.putFrame p f.len (frameHeader f p f.recs.length f.len q.fseq ++ body ++ pad)
        (s.modPart p (fun q => { q with closed := none })).closeFrame p

/-- Whether the closed frame of a partition, or the pad before it, has room in the ring. -/
def State.frameRoom (s : State) (p : Nat) : Bool :=
  let q := s.part p
  match q.closed with
  | none => false
  | some f =>
    let left := 2 ^ q.eglsize - q.egpos
    q.egen && !q.ringBusy q.ringAt (q.ringAt + (if left < f.len then left else f.len))

def execFrameWrite (p : Fin 8) (s : State) : Out := .next (s.frameWrite p.val)

/-! ## Event logs (R175, R475 to R477) -/

/-- Where a log's next record begins in host memory. -/
def Part.logAt (q : Part) : Nat := q.elbase.toNat + 64 * ((q.eseq - 1) % (2 ^ q.ellsize / 64))

/-- Whether bytes of host memory hold a record that the host has not consumed (R477). -/
def Part.logBusy (q : Part) (a : Nat) : Bool :=
  q.elrecs.any (fun e => decide (q.elcons.toNat < e.2) && decide (e.1 < a + 64) && decide (a < e.1 + 64))

/-- Whether a record can be taken from an arbiter now: its log is off, or its place is free (R476, R477). -/
def State.logReady (s : State) (e : EvRec) : Bool :=
  match e.part with
  | none => true
  | some p =>
    let q := s.part p
    !q.elen || !q.logBusy q.logAt

/-- A record goes to its log: discarded and counted where the log is off; else written with ESEQ last (R476, R477). -/
def State.logWrite (s : State) (e : EvRec) : State :=
  match e.part with
  | none => { s with devlog := s.devlog ++ [e] }.irq 40
  | some p =>
    let q := s.part p
    if !q.elen then s.setPart p { q with eldrop := sat32 (q.eldrop + 1) }
    else
      let s := s.setBytes .host q.logAt (e.bytes q.eseq)
      let old := q.elrecs.filter (fun r => !(decide (r.1 < q.logAt + 64) && decide (q.logAt < r.1 + 64)))
      (s.setPart p { q with eseq := q.eseq + 1, elrecs := old ++ [(q.logAt, q.eseq)] }).irq (24 + p)

/-- EVENT_LOG_WRITE: the first record of an arbiter that no full log holds back. -/
def State.arbTake (s : State) (d : Nat) : State :=
  match (s.die d).arb.find? s.logReady with
  | none => s
  | some e => (s.modDie d (fun q => { q with arb := q.arb.erase e })).logWrite e

def execEventLogWrite (d : Fin 4) (s : State) : Out := .next (s.arbTake d.val)

/-! ## Accesses of the host to device memory over CXL.mem and to its own (R472 to R474) -/

/-- The device physical address of an HDM offset. -/
def hdmAddr (h : Nat) : Option Nat := if h < 4 * dieData then some (dieBase (h / dieData) + h % dieData) else none

/-- A write of the host, byte by byte; one with poison poisons its granules. -/
def State.hostWrite (s : State) (poison : Bool) : Nat → List Byte → State
  | _, [] => s
  | h, b :: l =>
    let s := match hdmAddr h with
      | none => s
      | some a =>
        let s := s.setByte .dram a b
        if poison then (List.range 64).foldl (fun s i => s.poison .dram (a / 64 * 64 + i)) s else s
    State.hostWrite s poison (h + 1) l

def execHostMemoryAccess (a : HostAcc) (s : State) : Out :=
  .next (match a with
    | .read h n =>
      { s with hostRead := (List.range n).filterMap (fun i =>
          (hdmAddr (h + i)).map (fun a => (s.memByte .dram a, s.poisoned .dram a))) }
    | .write h bs poison => s.hostWrite poison h bs
    | .hostRead a n => { s with hostRead := (List.range n).map (fun i => (s.memByte .host (a + i), s.poisoned .host (a + i))) }
    | .hostWrite a bs => s.setBytes .host a bs)

/-! ## Viaduct ports (R478, R479, R481) -/

/-- A port trains to UP with the expected peer; with another it stays in TRAIN. -/
def execPortUp (n : Fin 16) (peer : BitVec 8) (s : State) : Out :=
  .next (s.modPort n.val (fun p =>
    if p.en && p.st == .train then { p with peerid := peer, st := if peer = p.peer then .up else .train } else p))

/-- Whether a copy is a collective whose group had a route over a port as it started (R480). -/
def Copy.over (c : Copy) (port : Nat) : Bool :=
  (match c.op with
    | .coll _ => true
    | _ => false) && c.group.ports.contains port

/-- A collective in flight is aborted on every local participant (R280, R481); one that has the results of all still writes them. -/
def State.collFail (s : State) (c : Copy) : State :=
  if !(s.copiesOf c.gcid).any (fun d => d.seq == c.seq) then s
  else
    match s.launchOn (coreOf c.gcid) with
    | none => s
    | some (k, l) =>
      if c.collDone then s.abort c 0x20#8 else s.collAbort k l (c.sx.toNat % 256) c.group 0x20#8

/-- The handles of an aborted copy in a saved context (R280). -/
def Ctx.abortSaved (m : Ctx) (err : BitVec 8) (c : Copy) : Ctx :=
  let put (h : Option (Fin 64)) (f : Handle → Handle) (m : Ctx) : Ctx :=
    match h with
    | none => m
    | some n => { m with h := Tab.put n.val (f (m.handle n.val)) m.h }
  put (copyHs c.op) (fun h => { h with st := .free }) (put (copyHd c.op) (fun h => { h with st := .free, flt := false, err := err }) m)

/-- The copies that a saved core holds. -/
def SavedCore.copies (q : SavedCore) : List Copy := q.cs.ch.flatMap (fun h => h.2.copies)

/-- Copies of a saved core aborted with a code. -/
def SavedCore.abort (q : SavedCore) (err : BitVec 8) (hit : Copy → Bool) : SavedCore :=
  let gone := q.copies.filter hit
  let chan (h : Chan) : Chan :=
    { copies := h.copies.filter (fun c => !hit c), err := if h.copies.any (fun c => hit c && (copyHd c.op).isNone) then err else h.err }
  let left (b : BoardEntry) : BoardEntry :=
    { b with seqs := b.seqs.filter (fun n => !gone.any (fun c => c.gcid == b.gcid && c.seq == n)) }
  { q with cs := { q.cs with ch := mapVals (fun _ => chan) q.cs.ch,
                             board := (q.cs.board.map left).filter (fun b => !b.seqs.isEmpty) },
           ctxs := (enumFrom 0 q.ctxs).map (fun p =>
             (gone.filter (fun c => c.gcid % 4 == p.1)).foldl (fun m c => m.abortSaved err c) p.2) }

/-- The collectives in flight of a pre-empted launch are aborted when one of their ports fails; members that have not issued theirs
take the code as they do (R280, R293, R481). -/
def Launch.collFail (l : Launch) (port : Nat) : Launch :=
  match l.saved with
  | none => l
  | some (cores, clus) =>
    let lcid (q : SavedCore) (c : Copy) : Nat := q.vcl * 32 + q.core * 4 + c.gcid % 4
    let run := cores.flatMap (fun q => (q.copies.filter (fun c => c.over port && !c.collDone)).map (fun c => (lcid q c, c)))
    let grps := (run.map (fun r => r.2.sx.toNat % 256)).eraseDups
    let gone := grps.flatMap (fun g =>
      let here := run.filter (fun r => decide (r.2.sx.toNat % 256 = g))
      let ms := (here.head?.map (fun r => r.2.group.members)).getD []
      let num (m : Nat) : Nat := (here.filter (fun r => r.1 == m)).length
      let most := ms.foldl (fun a m => max a (num m)) 0
      ms.flatMap (fun m => List.replicate (most - num m) (g, m, 0x20#8)))
    { l with saved := some (cores.map (fun q => q.abort 0x20#8 (fun c => c.over port)), clus), collGone := l.collGone ++ gone }

/-- A port fails: its event, and every collective in flight over it is aborted with code 0x20 (R479, R481). -/
def State.portFail (s : State) (n : Nat) : State :=
  let p := s.port n
  if p.st == .train || p.st == .up then
    let s := s.setPort n { p with st := .fail, nak := false }
    let s := s.offer ⟨6, none, n / 4, none, 0, BitVec.ofNat 256 (n + portCode p.st * 2 ^ 64 + portCode .fail * 2 ^ 128)⟩
    let cs := s.cores.flatMap (fun q => q.2.ch.flatMap (fun c => c.2.copies.filter (fun d => d.over n)))
    let s := cs.foldl State.collFail s
    { s with launches := mapVals (fun _ (l : Launch) => l.collFail n) s.launches }
  else s

def execPortFail (n : Fin 16) (s : State) : Out := .next (s.portFail n.val)

/-- A negative acknowledgement: the flits up to the named SEQ have arrived; every flit after it is replayed, or, where 16 replays of
the oldest have failed, the port fails (R478, R479). -/
def State.replay (s : State) (n : Nat) (nak : BitVec 12) : State :=
  let p := (s.port n).acked nak
  if p.st != .up then s
  else if p.exhausted then (s.setPort n p).portFail n
  else { s.setPort n (p.again (Config.free 8 s.freeN)) with freeN := s.freeN + 1 }

def execFlitReplay (n : Fin 16) (nak : BitVec 12) (s : State) : Out := .next (s.replay n.val nak)

/-- A received flit: one whose CRC fails is discarded and answered by a NAK; a NAK replays; any other is taken (R478). -/
def execFlitReceive (n : Fin 16) (flit : BitVec 2048) (s : State) : Out :=
  .next (
    let p := s.port n.val
    let free := Config.free 8 s.freeN
    let t := { s with freeN := s.freeN + 1 }
    if p.st != .up then s
    else if !flitOk flit then t.setPort n.val (p.sendNak free)
    else if flitType flit = 3 then
      (s.setPort n.val { p with credits := p.credits + flitCredits flit }).replay n.val (flitAck flit)
    else t.setPort n.val (p.take flit free))

/-- LINK_CALIBRATION: a port calibrates on an idle flit, which goes out; a Trestle bridge has no state of its own (R482). -/
def execLinkCalibration (l : Link) (s : State) : Out :=
  .next (match l with
    | .port n =>
      let p := s.port n.val
      let free := Config.free 8 s.freeN
      if p.st == .up then
        { s.setPort n.val (p.emit 0#4 (flitOf p.txSeq p.rxSeq 0#4 free 0) free) with freeN := s.freeN + 1 }
      else s
    | .trestle _ _ => s)

/-! ## Errors (R483 to R485) -/

/-- The code of a structure and an address within it, for records (log 28). -/
def eccCode : EccUnit → Nat × Nat
  | .vector g i => (1, g.val * 4096 + i)
  | .operand k i => (2, k.val * 4096 + i)
  | .latch k i => (3, k.val * 4096 + i)
  | .scale k i => (4, k.val * 4096 + i)
  | .lastLatch k => (5, k.val * 4096)
  | .tile k i => (6, k.val * 4096 + i)
  | .scratch c g => (7, c.val * 2 ^ 24 + g * 64)
  | .dram g => (8, g * 64)
  | .mantel d b => (9, d.val * 2 ^ 30 + b.val * 2 ^ 24)
  | .tag g => (10, tagAddr g)
  | .scratchTag c g => (10, c.val * 2 ^ 24 + g * 64)

/-- The die of a unit, and the partition whose state it is. -/
def eccDie : EccUnit → Nat
  | .vector g _ => dieOf g.val
  | .operand k _ | .latch k _ | .scale k _ | .lastLatch k | .tile k _ => k.val / 64
  | .scratch c _ | .scratchTag c _ => c.val / 8
  | .dram g | .tag g => (match zoneOf (g * 64) with
    | .data d _ => d
    | .carve d _ => d
    | _ => 0)
  | .mantel d _ => d.val

def State.eccPart (s : State) (u : EccUnit) : Option Nat :=
  match u with
  | .vector g _ => (s.launchOn (coreOf g.val)).map (fun q => q.2.part)
  | .operand k _ | .latch k _ | .scale k _ | .lastLatch k | .tile k _ => (s.launchOn k.val).map (fun q => q.2.part)
  | .scratch c _ | .scratchTag c _ => s.partOfCluster c.val
  | .dram _ | .tag _ | .mantel _ _ => none

/-- A corrected error counts; each 2^16th emits a record (R483). -/
def execCorrectedError (u : EccUnit) (s : State) : Out :=
  .next (
    let k := (eccCode u).1
    let n := Tab.get 0 k (s.die (eccDie u)).ecc + 1
    let s := s.modDie (eccDie u) (fun d => { d with ecc := Tab.put k n d.ecc })
    if n % 2 ^ 16 = 0 then s.offer ⟨4, s.eccPart u, (eccDie u), none, 0, BitVec.ofNat 256 (k + n * 2 ^ 64)⟩ else s)

/-- A tag that an error has spoiled: STATE 6, every other field 0 (R147, R485; log 43). -/
def spoiltTag : BitVec 32 := mkTag 6 0 0 0

/-- A 64-byte granule of a die's DRAM becomes poisoned: data bytes, or, in the carve-out, the tags that it holds (R463, R484,
R485). -/
def State.poisonGranule (s : State) (g : Nat) : State :=
  match zoneOf (g * 64) with
  | .data _ _ => (List.range 64).foldl (fun s i => s.poison .dram (g * 64 + i)) s
  | .carve d o => (List.range 16).foldl (fun s i =>
      match tagGranule d (o + 4 * i) with
      | some t => s.setTag .dram t spoiltTag
      | none => (List.range 4).foldl (fun s j => s.poison .dram (g * 64 + 4 * i + j)) s) s
  | _ => s

/-- A unit becomes poisoned (R484, R485); a Mantel bank leaves every WSMASK, and comes back with a WSLOAD only that
begins after a WSMASK has been written with it. -/
def State.poisonUnit (s : State) (u : EccUnit) : State :=
  let key (k : Fin 256) (n : Nat) : State := s.modCore k.val (fun q => { q with pois := n :: unpoison n q.pois })
  match u with
  | .vector g i => s.modCtx g.val (fun c => { c with vpois := i :: unpoison i c.vpois })
  | .operand k i => key k (poisO i)
  | .latch k i => key k (poisK i)
  | .scale k i => key k (poisSc i)
  | .lastLatch k => key k poisLast
  | .tile k i => key k (poisTile i)
  | .scratch c g => (List.range 64).foldl (fun s i => s.poison (.sp c.val) (g * 64 + i)) s
  | .dram g => s.poisonGranule g
  | .mantel d b =>
    let drop (q : Part) : Part :=
      { q with wsmask := Tab.put d.val (Tab.get 0 d.val q.wsmask &&& ~~~((1#64) <<< b.val)) q.wsmask }
    let bit : BitVec 64 := (1#64) <<< b.val
    { s with parts := mapVals (fun _ q => drop q) s.parts,
             streams := mapVals (fun _ (q : Stream) =>
               if pkt q.cmd 1 1 = d.val then { q with wsBack := q.wsBack &&& ~~~bit } else q) s.streams }.modDie d.val (fun e =>
      { e with lost := e.lost ||| bit, remask := e.remask &&& ~~~bit })
  | .tag g => if inData (g * 64) then s.setTag .dram g spoiltTag else s
  | .scratchTag c g => s.setTag (.sp c.val) g spoiltTag

/-- An uncorrectable error: the unit is poisoned and a record is emitted. -/
def State.uncorrectable (s : State) (u : EccUnit) : State :=
  (s.poisonUnit u).offer ⟨3, s.eccPart u, (eccDie u), none, 0, BitVec.ofNat 256 ((eccCode u).1 + (eccCode u).2 * 2 ^ 64 + 2 ^ 128)⟩

def execUncorrectableError (u : EccUnit) (s : State) : Out := .next (s.uncorrectable u)

/-- PATROL_SCRUB of a granule of a die: an uncorrectable word poisons it (R482, R485). -/
def execPatrolScrub (d : Fin 4) (g : Nat) (bad : Bool) (s : State) : Out :=
  .next (
    let here := match zoneOf (g * 64) with
      | .data e _ | .carve e _ => e == d.val
      | _ => false
    if bad && here then s.uncorrectable (.dram g) else s)

/-- DRAM refresh changes no value (R482). -/
def execDramRefresh (_d : Fin 4) (_hot : Bool) (s : State) : Out := .next s

/-- TELEMETRY_SAMPLE: one record per die, to the device log (R486); what it has measured stands until the next (R487),
and 115 degrees stop the device (R488). -/
def execTelemetrySample (power : BitVec 32) (temps : List (BitVec 32)) (s : State) : Out :=
  .next (
    let n := s.telem
    let s := (List.range 4).foldl (fun s d =>
      s.offer ⟨8, none, d, none, 0, BitVec.ofNat 256 (n + d * 2 ^ 64 + power.toNat * 2 ^ 128 +
        (temps.getD d 0).toNat * 2 ^ 192)⟩) s
    let s := (List.range 4).foldl (fun s d => s.modDie d (fun q => { q with temp := temps.getD d 0 })) s
    { s with telem := n + 1, watts := power }.overheat)

/-! ## Time -/

/-- A cycle of the model passes. In it the main clock of a die may or may not end a cycle, which the model leaves open: then its WSC
rises, its time without a cause to throttle, and CYC of every context loaded on it (R49, R131, R487; log 39). -/
def State.tick (s : State) : State :=
  let ends (d : Nat) : Bool := Config.dieStep d s.cycle
  { s with cycle := s.cycle + 1, turn := 0,
           dies := (List.range 4).foldl (fun t d =>
             let q := Tab.get Die.reset d t
             if ends d then Tab.put d { q with wsc := q.wsc + 1#16, cool := if s.hot d then 0 else q.cool + 1 } t else t) s.dies,
           ctxs := mapVals (fun g (c : Ctx) =>
             if c.st == .empty || !ends (dieOf g) then c else { c with cyc := c.cyc + 1#64 }) s.ctxs }

end Sys2Proof.Machine
end

