-- ==== Sys2Proof/Machine/Dispatch.lean ====
section
/-! DEFINITION. The machine's dispatch: one arm per row of the opcode table. -/

namespace Sys2Proof.Machine

open Sys2Proof

def exec (i : Instr) (s : State) : Host.Outcome State Fault Refusal :=
  match i with
  | .add f => Sys2Proof.Machine.execAdd f s
  | .sub f => Sys2Proof.Machine.execSub f s
  | .mul f => Sys2Proof.Machine.execMul f s
  | .mulh f => Sys2Proof.Machine.execMulh f s
  | .mulhn f => Sys2Proof.Machine.execMulhn f s
  | .div f => Sys2Proof.Machine.execDiv f s
  | .divn f => Sys2Proof.Machine.execDivn f s
  | .rem f => Sys2Proof.Machine.execRem f s
  | .remn f => Sys2Proof.Machine.execRemn f s
  | .and f => Sys2Proof.Machine.execAnd f s
  | .or f => Sys2Proof.Machine.execOr f s
  | .xor f => Sys2Proof.Machine.execXor f s
  | .andn f => Sys2Proof.Machine.execAndn f s
  | .shl f => Sys2Proof.Machine.execShl f s
  | .shr f => Sys2Proof.Machine.execShr f s
  | .sar f => Sys2Proof.Machine.execSar f s
  | .rol f => Sys2Proof.Machine.execRol f s
  | .clz f => Sys2Proof.Machine.execClz f s
  | .ctz f => Sys2Proof.Machine.execCtz f s
  | .popc f => Sys2Proof.Machine.execPopc f s
  | .min f => Sys2Proof.Machine.execMin f s
  | .max f => Sys2Proof.Machine.execMax f s
  | .minn f => Sys2Proof.Machine.execMinn f s
  | .maxn f => Sys2Proof.Machine.execMaxn f s
  | .cmp f => Sys2Proof.Machine.execCmp f s
  | .sel f => Sys2Proof.Machine.execSel f s
  | .mov f => Sys2Proof.Machine.execMov f s
  | .li f => Sys2Proof.Machine.execLi f s
  | .lih f => Sys2Proof.Machine.execLih f s
  | .sext f => Sys2Proof.Machine.execSext f s
  | .zext f => Sys2Proof.Machine.execZext f s
  | .gand f => Sys2Proof.Machine.execGand f s
  | .gor f => Sys2Proof.Machine.execGor f s
  | .gnot f => Sys2Proof.Machine.execGnot f s
  | .gset f => Sys2Proof.Machine.execGset f s
  | .gsetE f => Sys2Proof.Machine.execGsetE f s
  | .gbase f => Sys2Proof.Machine.execGbase f s
  | .gstep f => Sys2Proof.Machine.execGstep f s
  | .gread f => Sys2Proof.Machine.execGread f s
  | .csrr f => Sys2Proof.Machine.execCsrr f s
  | .csrw f => Sys2Proof.Machine.execCsrw f s
  | .csrs f => Sys2Proof.Machine.execCsrs f s
  | .csrc f => Sys2Proof.Machine.execCsrc f s
  | .br f => Sys2Proof.Machine.execBr f s
  | .brc f => Sys2Proof.Machine.execBrc f s
  | .brx f => Sys2Proof.Machine.execBrx f s
  | .call f => Sys2Proof.Machine.execCall f s
  | .ret f => Sys2Proof.Machine.execRet f s
  | .loop f => Sys2Proof.Machine.execLoop f s
  | .loopx f => Sys2Proof.Machine.execLoopx f s
  | .rot f => Sys2Proof.Machine.execRot f s
  | .ldepthset f => Sys2Proof.Machine.execLdepthset f s
  | .grow f => Sys2Proof.Machine.execGrow f s
  | .shrink f => Sys2Proof.Machine.execShrink f s
  | .bara f => Sys2Proof.Machine.execBara f s
  | .barw f => Sys2Proof.Machine.execBarw f s
  | .bar f => Sys2Proof.Machine.execBar f s
  | .waith f => Sys2Proof.Machine.execWaith f s
  | .waitq f => Sys2Proof.Machine.execWaitq f s
  | .yield f => Sys2Proof.Machine.execYield f s
  | .halt f => Sys2Proof.Machine.execHalt f s
  | .trap f => Sys2Proof.Machine.execTrap f s
  | .seqsel f => Sys2Proof.Machine.execSeqsel f s
  | .admitReq f => Sys2Proof.Machine.execAdmit f s
  | .retire f => Sys2Proof.Machine.execRetire f s
  | .tret f => Sys2Proof.Machine.execTret f s
  | .tlbi f => Sys2Proof.Machine.execTlbi f s
  | .ctxl f => Sys2Proof.Machine.execCtxl f s
  | .ldt f => Sys2Proof.Machine.execLdt f s
  | .ldtm f => Sys2Proof.Machine.execLdtm f s
  | .lds f => Sys2Proof.Machine.execLds f s
  | .ldw f => Sys2Proof.Machine.execLdw f s
  | .ldl f => Sys2Proof.Machine.execLdl f s
  | .ldo f => Sys2Proof.Machine.execLdo f s
  | .ldg f => Sys2Proof.Machine.execLdg f s
  | .touch f => Sys2Proof.Machine.execTouch f s
  | .touchw f => Sys2Proof.Machine.execTouchw f s
  | .acq f => Sys2Proof.Machine.execAcq f s
  | .prf f => Sys2Proof.Machine.execPrf f s
  | .wsphase f => Sys2Proof.Machine.execWsphase f s
  | .stt f => Sys2Proof.Machine.execStt f s
  | .sttm f => Sys2Proof.Machine.execSttm f s
  | .sts f => Sys2Proof.Machine.execSts f s
  | .rel f => Sys2Proof.Machine.execRel f s
  | .fence f => Sys2Proof.Machine.execFence f s
  | .spalloc f => Sys2Proof.Machine.execSpalloc f s
  | .spfree f => Sys2Proof.Machine.execSpfree f s
  | .mbox f => Sys2Proof.Machine.execMbox f s
  | .ecInc f => Sys2Proof.Machine.execEcInc f s
  | .ecSnap f => Sys2Proof.Machine.execEcSnap f s
  | .aadd f => Sys2Proof.Machine.execAadd f s
  | .amin f => Sys2Proof.Machine.execAmin f s
  | .amax f => Sys2Proof.Machine.execAmax f s
  | .aminn f => Sys2Proof.Machine.execAminn f s
  | .amaxn f => Sys2Proof.Machine.execAmaxn f s
  | .aand f => Sys2Proof.Machine.execAand f s
  | .aor f => Sys2Proof.Machine.execAor f s
  | .axor f => Sys2Proof.Machine.execAxor f s
  | .aswp f => Sys2Proof.Machine.execAswp f s
  | .acas f => Sys2Proof.Machine.execAcas f s
  | .cpy f => Sys2Proof.Machine.execCpy f s
  | .cpyg f => Sys2Proof.Machine.execCpyg f s
  | .cpys f => Sys2Proof.Machine.execCpys f s
  | .cpyxPack f => Sys2Proof.Machine.execCpyxPack f s
  | .cpyxUnpack f => Sys2Proof.Machine.execCpyxUnpack f s
  | .cpyf f => Sys2Proof.Machine.execCpyf f s
  | .cpyd f => Sys2Proof.Machine.execCpyd f s
  | .cpyr f => Sys2Proof.Machine.execCpyr f s
  | .coll f => Sys2Proof.Machine.execColl f s
  | .cpfill f => Sys2Proof.Machine.execCpfill f s
  | .hset f => Sys2Proof.Machine.execHset f s
  | .hdrain f => Sys2Proof.Machine.execHdrain f s
  | .hfree f => Sys2Proof.Machine.execHfree f s
  | .hq f => Sys2Proof.Machine.execHq f s
  | .hwait f => Sys2Proof.Machine.execHwait f s
  | .cpmark f => Sys2Proof.Machine.execCpmark f s
  | .mm f => Sys2Proof.Machine.execMm f s
  | .mmz f => Sys2Proof.Machine.execMmz f s
  | .mmp f => Sys2Proof.Machine.execMmp f s
  | .mmd f => Sys2Proof.Machine.execMmd f s
  | .mmt f => Sys2Proof.Machine.execMmt f s
  | .outer f => Sys2Proof.Machine.execOuter f s
  | .latch f => Sys2Proof.Machine.execLatch f s
  | .aclr f => Sys2Proof.Machine.execAclr f s
  | .amov f => Sys2Proof.Machine.execAmov f s
  | .ascale f => Sys2Proof.Machine.execAscale f s
  | .anorm2 f => Sys2Proof.Machine.execAnorm2 f s
  | .amaxabs f => Sys2Proof.Machine.execAmaxabs f s
  | .bimStage f => Sys2Proof.Machine.execBimStage f s
  | .bimMark f => Sys2Proof.Machine.execBimMark f s
  | .drain f => Sys2Proof.Machine.execDrain f s
  | .drainq f => Sys2Proof.Machine.execDrainq f s
  | .drainr f => Sys2Proof.Machine.execDrainr f s
  | .drainc f => Sys2Proof.Machine.execDrainc f s
  | .argsel f => Sys2Proof.Machine.execArgsel f s
  | .bimCommit f => Sys2Proof.Machine.execBimCommit f s
  | .trust1 f => Sys2Proof.Machine.execTrust1 f s
  | .cvt f => Sys2Proof.Machine.execCvt f s
  | .fn f => Sys2Proof.Machine.execFn f s
  | .clampv f => Sys2Proof.Machine.execClampv f s
  | .rng f => Sys2Proof.Machine.execRng f s
  | .q8b f => Sys2Proof.Machine.execQ8b f s
  | .dq8b f => Sys2Proof.Machine.execDq8b f s
  | .qmx f => Sys2Proof.Machine.execQmx f s
  | .dqmx f => Sys2Proof.Machine.execDqmx f s
  | .normv f => Sys2Proof.Machine.execNormv f s
  | .scalev f => Sys2Proof.Machine.execScalev f s
  | .psum f => Sys2Proof.Machine.execPsum f s
  | .sampd f => Sys2Proof.Machine.execSampd f s
  | .updAdam f => Sys2Proof.Machine.execUpdAdam f s
  | .updSgdm f => Sys2Proof.Machine.execUpdSgdm f s
  | .trust2 f => Sys2Proof.Machine.execTrust2 f s
  | .clipg f => Sys2Proof.Machine.execClipg f s
  | .lsc f => Sys2Proof.Machine.execLsc f s
  | .scset f => Sys2Proof.Machine.execScset f s
  | .pset f => Sys2Proof.Machine.execPset f s
  | .psetd f => Sys2Proof.Machine.execPsetd f s
  | .psett f => Sys2Proof.Machine.execPsett f s
  | .setls f => Sys2Proof.Machine.execSetls f s
  | .setlsRegister f => Sys2Proof.Machine.execSetlsRegister f s
  | .srseed f => Sys2Proof.Machine.execSrseed f s
  | .srctrset f => Sys2Proof.Machine.execSrctrset f s
  | .ttnew f => Sys2Proof.Machine.execTtnew f s
  | .ttadd f => Sys2Proof.Machine.execTtadd f s
  | .ttpos f => Sys2Proof.Machine.execTtpos f s
  | .ttprune f => Sys2Proof.Machine.execTtprune f s
  | .ttchk f => Sys2Proof.Machine.execTtchk f s
  | .ttgen f => Sys2Proof.Machine.execTtgen f s
  | .bimlim f => Sys2Proof.Machine.execBimlim f s
  | .bundleIssue core => Sys2Proof.Machine.execBundleIssue core s
  | .vacancyFill core => Sys2Proof.Machine.execVacancyFill core s
  | .promotion core => Sys2Proof.Machine.execPromotion core s
  | .resultWrite ctx => Sys2Proof.Machine.execResultWrite ctx s
  | .loopPassEnd ctx => Sys2Proof.Machine.execLoopPassEnd ctx s
  | .pinExpiry ctx => Sys2Proof.Machine.execPinExpiry ctx s
  | .copyComplete core ch budget => Sys2Proof.Machine.execCopyComplete core ch budget s
  | .copyStop core ch => Sys2Proof.Machine.execCopyStop core ch s
  | .handleDrainComplete ctx h => Sys2Proof.Machine.execHandleDrainComplete ctx h s
  | .copyResume core ch => Sys2Proof.Machine.execCopyResume core ch s
  | .copyAbort core ch err => Sys2Proof.Machine.execCopyAbort core ch err s
  | .barrierCompletion stream b => Sys2Proof.Machine.execBarrierCompletion stream b s
  | .damperRelease stream b phase => Sys2Proof.Machine.execDamperRelease stream b phase s
  | .lgenIncrement part => Sys2Proof.Machine.execLgenIncrement part s
  | .tagSweep u granule => Sys2Proof.Machine.execTagSweep u granule s
  | .scratchpadClear cluster => Sys2Proof.Machine.execScratchpadClear cluster s
  | .mantelRefresh die => Sys2Proof.Machine.execMantelRefresh die s
  | .invalidationComplete n => Sys2Proof.Machine.execInvalidationComplete n s
  | .trapDelivery core => Sys2Proof.Machine.execTrapDelivery core s
  | .tresume core ctx => Sys2Proof.Machine.execTresume core ctx s
  | .launch stream => Sys2Proof.Machine.execLaunch stream s
  | .launchPlacement stream => Sys2Proof.Machine.execLaunchPlacement stream s
  | .launchEnd stream => Sys2Proof.Machine.execLaunchEnd stream s
  | .preemption stream => Sys2Proof.Machine.execPreemption stream s
  | .semwait stream => Sys2Proof.Machine.execSemwait stream s
  | .semsig stream => Sys2Proof.Machine.execSemsig stream s
  | .wsload stream => Sys2Proof.Machine.execWsload stream s
  | .tgadd stream => Sys2Proof.Machine.execTgadd stream s
  | .tgrun stream => Sys2Proof.Machine.execTgrun stream s
  | .taskComplete stream node => Sys2Proof.Machine.execTaskComplete stream node s
  | .fenceCommand stream => Sys2Proof.Machine.execFenceCommand stream s
  | .mark stream => Sys2Proof.Machine.execMark stream s
  | .preempt stream => Sys2Proof.Machine.execPreempt stream s
  | .sqtail stream v => Sys2Proof.Machine.execSqtail stream v s
  | .streamEnable stream v => Sys2Proof.Machine.execStreamEnable stream v s
  | .kill stream => Sys2Proof.Machine.execKill stream s
  | .xinvGo part v => Sys2Proof.Machine.execXinvGo part v s
  | .translationRootWrite part r v => Sys2Proof.Machine.execTranslationRootWrite part r v s
  | .partitionConfigWrite part r v => Sys2Proof.Machine.execPartitionConfigWrite part r v s
  | .registerWrite off v => Sys2Proof.Machine.execRegisterWrite off v s
  | .chimneyRecordTake die => Sys2Proof.Machine.execChimneyRecordTake die s
  | .frameWrite part => Sys2Proof.Machine.execFrameWrite part s
  | .eventLogWrite die => Sys2Proof.Machine.execEventLogWrite die s
  | .hostMemoryAccess a => Sys2Proof.Machine.execHostMemoryAccess a s
  | .portEnable port => Sys2Proof.Machine.execPortEnable port s
  | .portUp port peer => Sys2Proof.Machine.execPortUp port peer s
  | .portFail port => Sys2Proof.Machine.execPortFail port s
  | .flitReceive port flit => Sys2Proof.Machine.execFlitReceive port flit s
  | .flitReplay port nak => Sys2Proof.Machine.execFlitReplay port nak s
  | .linkCalibration link => Sys2Proof.Machine.execLinkCalibration link s
  | .patrolScrub die granule bad => Sys2Proof.Machine.execPatrolScrub die granule bad s
  | .dramRefresh die hot => Sys2Proof.Machine.execDramRefresh die hot s
  | .correctedError u => Sys2Proof.Machine.execCorrectedError u s
  | .uncorrectableError u => Sys2Proof.Machine.execUncorrectableError u s
  | .telemetrySample power temps => Sys2Proof.Machine.execTelemetrySample power temps s
  | .throttle die temp => Sys2Proof.Machine.execThrottle die temp s
  | .clockRestore die temp => Sys2Proof.Machine.execClockRestore die temp s
  | .thermalStop => Sys2Proof.Machine.execThermalStop s
  | .powerUp => Sys2Proof.Machine.execPowerUp s
  | .attest => Sys2Proof.Machine.execAttest s
  | .cert => Sys2Proof.Machine.execCert s
  | .fwupdate arg => Sys2Proof.Machine.execFwupdate arg s
  | .devlog arg => Sys2Proof.Machine.execDevlog arg s
  | .writePerformed ctx strm => Sys2Proof.Machine.execWritePerformed ctx strm s
  | .wsloadComplete stream => Sys2Proof.Machine.execWsloadComplete stream s
  | .streamDisable stream v => Sys2Proof.Machine.execStreamDisable stream v s
  | .portDisable port => Sys2Proof.Machine.execPortDisable port s
  | .powerDown => Sys2Proof.Machine.execPowerDown s

end Sys2Proof.Machine
end

