-- ==== Sys2Proof/Machine/Schedule.lean ====
section
/-! DEFINITION. What happens next: an event that stands in the inbox, else the model's own order of the cores' cycles and of
the engines' work, one event per step, and the passing of a cycle where nothing is left to do (log 7). The spec leaves that
order open (R26, R127, R135, R141, R415); the inbox can put any other order in its place. -/

namespace Sys2Proof.Machine

open Sys2Proof

/-! ## What waits to be done -/

/-- Whether a core has a vacant stream that a context can fill (R23). -/
def State.vacant (s : State) (core : Nat) : Bool :=
  let q := s.core core
  (q.prim.isNone && q.sec.isSome) || ((q.prim.isNone || q.sec.isNone) && (s.bestReady core).isSome)

/-- Whether a core has a stream. -/
def State.streaming (s : State) (core : Nat) : Bool := (s.core core).prim.isSome || (s.core core).sec.isSome

/-- Work of the copy engines: the head of every channel that can move, and handles being drained (R122, R135). -/
def State.copyWork (s : State) : List Instr :=
  s.cores.flatMap (fun q => (List.range 4).flatMap (fun ch =>
    match (s.chan q.1 ch).copies with
    | [] => []
    | c :: _ => if c.stop.isSome || s.copyWaits c then [] else [.copyComplete (Fin.ofNat 256 q.1) (Fin.ofNat 4 ch) 4096])) ++
  s.ctxs.flatMap (fun q => (q.2.h.filter (fun h => h.2.st == .draining && !s.handleRead q.1 h.1)).map (fun h =>
    .handleDrainComplete (Fin.ofNat 1024 q.1) (Fin.ofNat 64 h.1)))

/-- A barrier as an event names it. -/
def BarKey.id (k : BarKey) : BarId := ⟨k.scope, k.unit, Fin.ofNat 64 k.bn⟩

/-- Barriers that can complete, and releases that are due (R161, R166). -/
def State.barWork (s : State) : List Instr :=
  s.launches.flatMap (fun q =>
    if !q.2.placed then []
    else
      let n := Fin.ofNat 16 q.1
      (q.2.bars.filter (fun b => s.barDone q.2 b.1)).map (fun b => .barrierCompletion n b.1.id) ++
        q.2.bars.flatMap (fun b => (b.2.rels.filter (q.2.relDue s.cycle b.2)).map (fun r =>
          .damperRelease n b.1.id (Fin.ofNat 8 r.phase))))

/-- Work of the memory side: writes to perform, invalidations, scratchpads to clear (R127, R141, R457). -/
def State.memWork (s : State) : List Instr :=
  (match s.wbuf with
    | [] => []
    | w :: _ => [.writePerformed (Fin.ofNat 1024 w.gcid) (Fin.ofNat 16 w.strm)]) ++
  (s.invals.filter (fun i => !i.done && !s.marked i.no && !(s.releasePins i).pinsHold i)).map (fun i => .invalidationComplete i.no) ++
  (s.clus.filter (fun q => !q.2.uncleared.isEmpty)).map (fun q => .scratchpadClear (Fin.ofNat 32 q.1))

/-- The step that begins a stream's next command. -/
def beginStep (n : Fin 16) (op : Nat) : Instr :=
  match op with
  | 2 => .semwait n
  | 3 => .semsig n
  | 4 => .wsload n
  | 5 => .tgadd n
  | 6 => .tgrun n
  | 7 => .fenceCommand n
  | 8 => .mark n
  | 9 => .preempt n
  | _ => .launch n

/-- The steps that a stream's command in progress can take now. -/
def State.busySteps (s : State) (n : Fin 16) : List Instr :=
  let q := s.stream n.val
  match pkt q.cmd 0 1 with
  | 2 =>
    (match s.engineRead q.part (pkt q.cmd 8 8) 8 with
    | some b => if pkt q.cmd 16 8 ≤ leNat b then [.semwait n] else []
    | none => [.semwait n])
  | 4 => if q.wsPos != 0 then [.wsloadComplete n] else if s.holdsDie q.part (pkt q.cmd 1 1) then [] else [.wsload n]
  | 6 =>
    if s.taskCluster q.part then
      ((List.range 64).filter q.taskReady).map (fun m => .taskComplete n (Fin.ofNat 64 m))
    else if q.st == .wait then [] else [.tgrun n]
  | 7 => if q.fence.isEmpty then [.fenceCommand n] else []
  | 9 => [.preempt n]
  | _ => []

/-- Work of the front end: commands, placement, pre-emption, the ends of launches (R408 to R423). -/
def State.cmdWork (s : State) : List Instr :=
  s.streams.flatMap (fun q =>
    let n := Fin.ofNat 16 q.1
    if q.2.busy then s.busySteps n
    else if s.canBegin q.1 then [beginStep n (((s.packet q.1).map (fun p => pkt p 0 1)).getD 1)]
    else []) ++
  s.launches.flatMap (fun q =>
    let n := Fin.ofNat 16 q.1
    if q.2.placed then
      (if s.launchDone q.2 then [.launchEnd n] else []) ++
        (if s.preempts q.1 q.2 then [.preemption n] else [])
    else if s.candidate q.2.part == some q.1 && (s.admits q.1 []).isSome then [.launchPlacement n] else [])

/-- Work of the system side: traps, the Chimney, frames, event logs, the mailbox (R391 to R393, R432, R476, R491). -/
def State.sysWork (s : State) : List Instr :=
  (s.cores.filter (fun q => q.2.trapQ.any (s.trapReady q.1))).map (fun q => .trapDelivery (Fin.ofNat 256 q.1)) ++
  s.dies.flatMap (fun q =>
    (if s.canTake q.1 then [.chimneyRecordTake (Fin.ofNat 4 q.1)] else []) ++
      (if q.2.arb.any s.logReady then [.eventLogWrite (Fin.ofNat 4 q.1)] else [])) ++
  (s.parts.filter (fun q => s.frameRoom q.1)).map (fun q => .frameWrite (Fin.ofNat 8 q.1)) ++
  (if s.mbbusy then
    match s.mbop.toNat with
    | 1 => [.attest]
    | 2 => [.cert]
    | 3 => [.fwupdate (s.mbarg.setWidth 64)]
    | 4 => [.devlog (s.mbarg.setWidth 64)]
    | _ => []
  else [])

/-- Everything that the engines could do now. -/
def State.work (s : State) : List Instr := s.memWork ++ s.copyWork ++ s.barWork ++ s.cmdWork ++ s.sysWork

/-! ## The model's own order -/

/-- The event that stands for a cycle in which nothing happens. -/
def idle : Instr := .dramRefresh 0 false

/-- The turn after which the engines work, and the number of their events in a cycle after which the cycle ends. -/
def engineTurn : Nat := 1024
def engineEvents : Nat := 256

/-- The part of a cycle in which core `k` fills its streams is turn `k`; those in which its first and its second stream
issue are turns 256 + 2k and 257 + 2k. -/
def State.coreTurns (s : State) (k : Nat) : List (Nat × Instr) :=
  let q := s.core k
  let c := Fin.ofNat 256 k
  (if s.vacant k then [(k, .vacancyFill c)] else []) ++
    (if !s.streaming k && q.phase == 0 then []
    else if 256 ≤ q.promo && !q.swap && q.phase == 0 then [(256 + 2 * k, .promotion c)]
    else if q.phase = 0 then [(256 + 2 * k, .bundleIssue c)]
    else [(257 + 2 * k, .bundleIssue c)])

/-- The tag sweepers in this cycle: a die's visits the twelve granules that are due in a pass of 2^27 cycles, a cluster's one (R465);
FREE tags need no visit. Their turns follow those of the cores. -/
def State.sweepTurns (s : State) : List (Nat × Instr) :=
  s.dtags.filterMap (fun q =>
    match zoneOf (q.1 * 64) with
    | .data d o =>
      if tagSt q.2 != 0 && decide (o / 768 = s.cycle % 2 ^ 27) then
        some (768 + 12 * d + o / 64 % 12, .tagSweep (.die (Fin.ofNat 4 d)) q.1)
      else none
    | _ => none) ++
  s.clus.flatMap (fun c => c.2.tags.filterMap (fun q =>
    if tagSt q.2 != 0 && decide (q.1 % 2 ^ 18 = s.cycle % 2 ^ 18) then
      some (816 + c.1 % 32, .tagSweep (.cluster (Fin.ofNat 32 c.1)) q.1)
    else none))

/-- The earliest of the turns not before `t`. -/
def earliest (t : Nat) (l : List (Nat × Instr)) : Option (Nat × Instr) :=
  l.foldl (fun best p =>
    if p.1 < t then best
    else
      match best with
      | none => some p
      | some b => if p.1 < b.1 then some p else some b) none

/-- The next event in the model's own order with the state in which it happens (log 7). -/
def State.scheduled (s : State) : Instr × State :=
  if !s.ready && !s.recov then (.powerUp, s)
  else
    match (if s.turn < engineTurn then earliest s.turn (s.cores.flatMap (fun q => s.coreTurns q.1) ++ s.sweepTurns) else none) with
    | some (t, i) =>
      (i, { s with turn := match i with
        | .bundleIssue _ => t + 1
        | .tagSweep _ _ => t + 1
        | _ => t })
    | none =>
      let w := s.work
      let n := s.turn - engineTurn
      if n < engineEvents then
        match w with
        | [] => (idle, s.tick)
        | i :: l => ((i :: l).getD ((n + s.cycle) % (l.length + 1)) i, { s with turn := max s.turn engineTurn + 1 })
      else (idle, s.tick)

/-- What happens in a package in recovery, where CXL.io and the mailbox only are up: register accesses, mailbox commands, power, and
what the host does with its own memory (R489). -/
def inRecovery (i : Instr) : Bool :=
  match i with
  | .registerWrite _ _ | .sqtail _ _ | .streamEnable _ _ | .streamDisable _ _ | .kill _ | .xinvGo _ _ | .translationRootWrite _ _ _
  | .partitionConfigWrite _ _ _ | .portEnable _ | .portDisable _ | .attest | .cert | .fwupdate _ | .devlog _ | .powerUp
  | .powerDown | .thermalStop | .hostMemoryAccess (.hostRead _ _) | .hostMemoryAccess (.hostWrite _ _) => true
  | _ => false

/-- Whether an event can happen: an operation of a slot is none, a package without power only powers up, and a stopped one
also loses power and answers the host (R488, R489). -/
def State.canHappen (s : State) (i : Instr) : Bool :=
  i.slotKind.isNone &&
    (match s.power with
    | .on => !s.recov || inRecovery i
    | .off => i == .powerUp
    | .stopped =>
      match i with
      | .powerUp => true
      | .powerDown => true
      | .registerWrite _ _ => true
      | .hostMemoryAccess _ => true
      | _ => false)

/-- THE NEXT EVENT: the oldest of the inbox, which leaves it; else the model's own. -/
def State.nextEvent (s : State) : Instr × State :=
  match s.inbox with
  | i :: l => (if s.canHappen i then i else idle, { s with inbox := l })
  | [] => if s.power == .on then s.scheduled else (idle, s)

end Sys2Proof.Machine
end

