-- ==== Sys2Proof/Machine/Run.lean ====
section
/-! DEFINITION. The slots of an issued bundle run one after another, and the contexts that wait try again (R18 to R21, R30,
R39). -/

namespace Sys2Proof.Machine

open Sys2Proof

/-- A step followed by another. -/
def andThen (o : Out) (f : State → Out) : Out :=
  match o with
  | .next s => f s
  | .fault r => .fault r
  | .refused r => .refused r

/-- THE REMAINING SLOTS OF THE CURRENT CONTEXT'S BUNDLE run in ascending slot number until one waits or traps, or the bundle
ends (R20, R30, R44). -/
def drain : Nat → State → Out
  | 0, s => .next (s.endBundle s.cur)
  | f + 1, s =>
    match s.me.runs, s.me.todo with
    | true, (k, i) :: _ =>
      let s := s.modMe (fun c => { c with slot := k })
      andThen (exec i s) (fun t => if s.stuck t then .next t else drain f (s.afterSlot t))
    | _, _ => .next (s.endBundle s.cur)

/-- A context's bundle goes on where it waits, by at most `n` slots: first the pins that it lost while it was no stream are made again,
and one that cannot be traps there (R140, R458). -/
def goOn (n g : Nat) (s : State) : Out :=
  match s.repin g 1 (s.ctx g).pins with
  | .error t => .next (s.takeTrap g t)
  | .ok ps => drain n { s.modCtx g (fun c => { c with pins := ps }) with cur := g }

/-- A context inside a bundle goes on if it is a stream. -/
def goOnIf (n g : Nat) (s : State) : Out := if (s.ctx g).runs && !(s.ctx g).todo.isEmpty then goOn n g s else .next s

/-- A BLOCKED context tries again, before its next bundle or at the slot where it waits. One whose condition has cleared is READY, and
its bundle goes on once it is a stream again (R18, R21): the slot is only tried, to learn whether it still waits. -/
def tryBlocked (g : Nat) (s : State) : Out :=
  let c := s.ctx g
  match c.st, c.todo with
  | .blocked, [] => .next (s.unblock g)
  | .blocked, (k, i) :: _ =>
    andThen (exec i { s.modCtx g (fun c => { c with st := .primary, slot := k }) with cur := g }) (fun t =>
      .next (if (t.ctx g).st == .blocked then t else s.modCtx g (fun c => { c with st := .ready })))
  | _, _ => .next s

/-- A context that waits tries again. -/
def retry (g : Nat) (s : State) : Out := if (s.ctx g).st == .blocked then tryBlocked g s else goOnIf 8 g s

/-- Something is done for contexts in turn; the current context stays the current one. -/
def forAll (gs : List Nat) (f : Nat → State → Out) (s : State) : Out :=
  andThen (gs.foldl (fun o g => andThen o (f g)) (.next s)) (fun t => .next { t with cur := s.cur })

/-- The contexts that wait, or stand inside a bundle. -/
def State.waiters (s : State) : List Nat := (s.ctxs.filter (fun q => q.2.st == .blocked || !q.2.todo.isEmpty)).map (·.1)

/-- Every context that waits tries again. -/
def settle (s : State) : Out := forAll s.waiters retry s

/-- WHAT THE BUNDLES DO IN AN EVENT: the one that it has issued runs, and all that wait try again; or, where `pace` has an entry for
the event, those that it names go on by so many slots, the BLOCKED try again, and the others stay where they are (log 2). -/
def runBundles (s : State) : Out :=
  match s.pace with
  | [] => andThen (drain 8 s) settle
  | l :: rest =>
    andThen (l.foldl (fun o q => andThen o (goOnIf q.2 q.1)) (.next { s with pace := rest })) (fun t =>
      forAll t.waiters tryBlocked t)

/-- An event happens, the bundles go on, pins that an invalidation takes are released, and what has been written to held code lines is
noted (R458, R461). In a package that is off or stopped nothing runs (R488). -/
def happen (i : Instr) (s : State) : Out :=
  andThen (exec i s) (fun t =>
    if t.power == .on then andThen (runBundles t) (fun u => .next (u.idlePins.noteLines s)) else .next t)

end Sys2Proof.Machine
end

