-- ==== Sys2Proof/Machine/Boot.lean ====
section
/-! DEFINITION. A machine that is about to issue one given instruction: what a launch of one context would have left, with
the instruction's bundle as its code (log 8). -/

namespace Sys2Proof.Machine

open Sys2Proof

/-- The device physical addresses of the page that holds the code and of the two tables that map it (R449, R450). -/
def bootPage : Nat := dramBase
def bootRoot : Nat := dramBase + 0x10000
def bootTable : Nat := dramBase + 0x11000

/-- A table entry that names the next table, and a leaf of 1 GiB with every permission (R450). -/
def bootEntry : Nat := bootTable + 1
def bootLeaf : Nat := bootPage + 2 ^ 4 + 2 ^ 3 + 2 ^ 2 + 2 + 1

/-- The descriptor: context 0 of core 0 of virtual cluster 0 with all that a core has (R92, R216). -/
def bootDesc : Desc :=
  { vcl := 0, core := 0, ctx := 0, pri := 0, owner := true, vallot := 24, chmask := 15, entry := 0, opf := ⟨0, 32⟩,
    accs := ⟨0, 64⟩, lats := ⟨0, 4⟩, scs := ⟨0, 16⟩, pats := ⟨0, 16⟩, tts := ⟨0, 8⟩ }

/-- The launch: on cluster 0, every latency 1 (R215). -/
def bootLaunch : Launch :=
  { part := 0, serial := 0, ltag := 0, cpl := 0, codebase := 0, nvcl := 1, shape := 0, spsize := 2 ^ 24, strict := false,
    lat := List.replicate 13 1, descs := [bootDesc], map := [(0, 0)], placed := true, order := 0, req := [], stale := 0,
    bars := [], saved := none, group := [], lastDies := [], killed := false, stopping := false, collGone := [] }

/-- A state with a launch of one context in place, PRIMARY on core 0, whose code is the given bytes at address 0, and core 0
about to issue. -/
def State.withCode (s : State) (code : List Byte) : State :=
  let s := { s with power := .on, ready := true, recov := false, inbox := .bundleIssue 0 :: s.inbox, pace := [] }
  let s := s.modPart 0 (fun p => { p with en := true, clmask := 1, xroot := BitVec.ofNat 64 bootRoot })
  let s := s.setLaunch 0 bootLaunch
  let s := ((s.setBytes .dram bootRoot (natLe 8 bootEntry)).setBytes .dram bootTable (natLe 8 bootLeaf)).setBytes .dram
    bootPage code
  let s := s.dropXlate (s.asidOf 0)
  let s := s.setCore 0 { CoreSt.reset with launch := some 0, prim := some 0, lastOwner := some 0 }
  s.setCtx 0 { bootDesc.ctx0 bootLaunch with st := .primary }

end Sys2Proof.Machine
end

