-- ==== Sys2Proof/Machine/Step.lean ====
section
/-! DEFINITION. One step of the machine, and the placing of an instruction where the next step fetches. -/

namespace Sys2Proof.Machine

open Sys2Proof

/-- ONE STEP: the next event happens. An instruction bundle runs in the step of its BUNDLE_ISSUE. -/
def step (s : State) : Host.Outcome State Fault Refusal := happen s.nextEvent.1 s.nextEvent.2

/-- The instruction of a table word, in a bundle of its own, placed so that the very next step fetches and runs it: a launch
stands on cluster 0 with one context, which issues next (log 8). -/
def State.withFetchWord (s : State) (nbits w : Nat) : State := s.withCode (oneSlotBundle (tableSlot nbits w) w)

end Sys2Proof.Machine
end

