-- ==== Sys2Proof/Safety.lean ====
section
/-! DEFINITION. What counts as a safe run: the canonical form of every memory of the machine, which a step keeps, and runs
that neither fault nor are refused. -/

namespace Sys2Proof.Machine

open Sys2Proof

/-- The device memories that the copies of a core keep for their translations (R174). -/
def CoreSt.snaps (q : CoreSt) : List Memory := q.ch.flatMap (fun h => h.2.copies.flatMap Copy.snap)

/-- The memories that a launch has saved while pre-empted (R440). -/
def Launch.savedMems (l : Launch) : List Memory :=
  match l.saved with
  | some (cores, cl) => cl.map (fun c => c.cl.mem) ++ cores.flatMap (fun c => c.cs.snaps)
  | none => []

/-- Every byte memory of the machine: device DRAM, host memory, the mailbox, scratchpads, Mantels, what copies keep of device DRAM, and
what launches have saved. -/
def State.memories (s : State) : List Memory :=
  [s.dram, s.host, s.mbdata] ++ s.clus.map (fun q => q.2.mem) ++ s.dies.map (fun q => q.2.mantel) ++
    s.cores.flatMap (fun q => q.2.snaps) ++ s.launches.flatMap (fun q => q.2.savedMems)

/-- Every memory is in its canonical form. -/
def State.memWf (s : State) : Prop := ∀ m ∈ s.memories, m.wf = true

/-- A step that goes on. -/
def goesOn (o : Out) : Prop := ∃ t, o = .next t

/-- A run of `n` steps that goes on. -/
def State.runs (s : State) (n : Nat) : Prop := goesOn (Sys2Proof.core.run n s)

end Sys2Proof.Machine
end

