-- ==== Sys2Proof/Certificates/Slice0/Obligations.lean ====
section
/-! DEFINITION. The statements for the provers, from the numbered rules of the spec. -/

open Sys2Proof Sys2Proof.Machine

/-! ## What a statement says of a slot -/

namespace Sys2Proof.Claims

/-- The slot can run and its results fit: its sources are there (`s1` is the state with its message-queue entries taken, `vs`
the values), its guard is on, and with its results no more results are pending than R42 allows. -/
def Goes (s : State) (m : Common) (lit : Lit) (srcs : List Src) (cnt : Nat × Nat) (s1 : State) (vs : List Word) : Prop :=
  s.srcs lit srcs = some (s1, vs) ∧ s.me.guardOn m = true ∧ s.me.over cnt = false

/-- The same of a slot without scalar sources. -/
def Ready (s : State) (m : Common) (cnt : Nat × Nat) : Prop := s.me.guardOn m = true ∧ s.me.over cnt = false

/-- THE STATE AFTER A SLOT THAT ONLY MAKES RESULTS: the results wait to be written, the slot is done, the counter of free
values has advanced, and NOTHING ELSE IN THE MACHINE HAS CHANGED: every register, flag, special register, queue and byte of
memory is what it was in `s`. -/
def done (s : State) (rs : List Pend) : State :=
  { s with freeN := s.freeN + 1,
           ctxs := Tab.put s.cur { s.me with pend := s.me.pend ++ rs, todo := s.me.todo.tail } s.ctxs }

/-- A result of the bundle in a latency class: due as many bundle indices later as the launch declares (R31). -/
def due (s : State) (k : LatClass) (r : Res) : List Pend := [⟨s.me.idx + s.lat s.cur k, s.me.idx, true, 0, r⟩]

/-- A result due at the next bundle. -/
def dueNext (s : State) (r : Res) : List Pend := [⟨s.me.idx + 1, s.me.idx, false, 0, r⟩]

/-- A scalar destination can take a value: the inbound queue that it names, if it names one, has a place. -/
def Takes (s : State) (d : Dst) : Prop := ∀ n v, d = .mq n → s.pushMq n.val v ≠ none

/-- The state after a slot whose one effect is its scalar result: x0 takes nothing, another x register and the result queue
take the value at its due index, and an inbound queue takes it at once. -/
def gives (s : State) (k : LatClass) (d : Dst) (v : Word) : State :=
  match d with
  | .x n => if n.val = 0 then done s [] else done s (due s k (.x n.val v))
  | .q => done s (due s k (.q v))
  | .mq n =>
    match s.pushMq n.val v with
    | some t => done t []
    | none => s

/-- The state after a slot whose one effect is a guard bit; b0 takes nothing. -/
def givesGuard (s : State) (n : Fin 8) (v : Bool) : State :=
  if n.val = 0 then done s [] else done s (due s .alu (.guard n.val v))

/-- The state after a slot whose one effect is an x register (x0 takes nothing). -/
def givesX (s : State) (k : LatClass) (n : Fin 32) (v : Word) : State := gives s k (.x n) v

/-- The state with the current context changed by `f` and nothing else. -/
def withMe (s : State) (f : Ctx → Ctx) : State := { s with ctxs := Tab.put s.cur (f s.me) s.ctxs }

/-- The state after a slot that changes the current context by `f` and is done. -/
def doneWith (s : State) (f : Ctx → Ctx) : State :=
  { s with freeN := s.freeN + 1, ctxs := Tab.put s.cur { f s.me with todo := (f s.me).todo.tail } s.ctxs }

/-- The operation traps with COPYFAULT, which names handle `n` and clears its error code (R124, R425). -/
def Copyfaults (s : State) (i : Instr) (n : Fin 64) (h : Handle) : Prop :=
  ∃ t, exec i s = .next t ∧ t.me.st = .trapped ∧ t.me.tsw0.toNat % 2 ^ 8 = 0x0D ∧ t.me.tsw0.getLsbD 23 = true ∧
    t.me.tsw0.toNat / 2 ^ 17 % 2 ^ 6 = n.val ∧ t.me.handle n.val = { h with err := 0 }

/-- The state with a trap of context `g` in its die's arbiter, and the partition's trap interrupt raised (R434, R475). -/
def toHost (s : State) (core g : Nat) : State :=
  (s.modDie (core / 64) (fun d => { d with arb := d.arb ++
    [⟨1, some (s.partOf g), core / 64, some g, ltagOn s core,
      (s.ctx g).tsw3 ++ (s.ctx g).tsw2 ++ (s.ctx g).tsw1 ++ (s.ctx g).tsw0⟩] })).irq (16 + s.partOf g)

/-- AN EVENT RECORD IS OFFERED TO ITS DIE'S ARBITER (R476): it joins the records there while they are fewer than 1,024; a full arbiter
discards it, and it counts as dropped, with its partition or, where it names none, with the device log. That this holds also of
the records that R476 does not name as discarded is the model's choice (log 29). -/
def told (s : State) (e : EvRec) : State :=
  if (s.die e.die).arb.length < 1024 then s.modDie e.die (fun d => { d with arb := d.arb ++ [e] })
  else
    match e.part with
    | some p => s.modPart p (fun q => { q with eldrop := min (q.eldrop + 1) (2 ^ 32 - 1) })
    | none => { s with devdrop := s.devdrop + 1 }

end Sys2Proof.Claims

open Sys2Proof.Claims

/-! ## Scalar arithmetic (R218 to R223) -/

/-- R219, and R31 and R194 for where the result goes: each operation with two sources answers the next state that holds its
result for its destination and is otherwise the state with the sources taken. The results are written out here from the
table of R219 over the integers that the operands stand for. -/
def Sys2Proof.Claims.TwoSourceArithmetic : Prop :=
  ∀ (f : FR) (s s1 : State) (a b : Word), Goes s f.c f.lit [f.a, f.b] (dcnt f.d) s1 [a, b] → Takes s1 f.d →
    exec (.add f) s = .next (gives s1 .alu f.d (BitVec.ofNat 64 (a.toNat + b.toNat))) ∧
    exec (.sub f) s = .next (gives s1 .alu f.d (BitVec.ofInt 64 (a.toInt - b.toInt))) ∧
    exec (.and f) s = .next (gives s1 .alu f.d (a &&& b)) ∧
    exec (.or f) s = .next (gives s1 .alu f.d (a ||| b)) ∧
    exec (.xor f) s = .next (gives s1 .alu f.d (a ^^^ b)) ∧
    exec (.andn f) s = .next (gives s1 .alu f.d (a &&& ~~~b)) ∧
    exec (.shl f) s = .next (gives s1 .alu f.d (BitVec.ofNat 64 (a.toNat * 2 ^ (b.toNat % 64)))) ∧
    exec (.shr f) s = .next (gives s1 .alu f.d (BitVec.ofNat 64 (a.toNat / 2 ^ (b.toNat % 64)))) ∧
    exec (.sar f) s = .next (gives s1 .alu f.d (BitVec.ofInt 64 (a.toInt / 2 ^ (b.toNat % 64)))) ∧
    exec (.rol f) s = .next (gives s1 .alu f.d
      (if b.toNat % 64 = 0 then a else (a <<< (b.toNat % 64)) ||| (a >>> (64 - b.toNat % 64)))) ∧
    exec (.min f) s = .next (gives s1 .alu f.d (if a.toInt ≤ b.toInt then a else b)) ∧
    exec (.max f) s = .next (gives s1 .alu f.d (if a.toInt ≤ b.toInt then b else a)) ∧
    exec (.minn f) s = .next (gives s1 .alu f.d (if a.toNat ≤ b.toNat then a else b)) ∧
    exec (.maxn f) s = .next (gives s1 .alu f.d (if a.toNat ≤ b.toNat then b else a))

/-- R219 and R220: products and quotients, by the integers that the operands stand for; a divisor of zero gives all ones, or
the dividend as the remainder. The results go to their destinations in the MUL and DIV classes. -/
def Sys2Proof.Claims.ProductsAndQuotients : Prop :=
  ∀ (f : FR) (s s1 : State) (a b : Word), Goes s f.c f.lit [f.a, f.b] (dcnt f.d) s1 [a, b] → Takes s1 f.d →
    exec (.mul f) s = .next (gives s1 .mul f.d (BitVec.ofNat 64 (a.toNat * b.toNat))) ∧
    exec (.mulh f) s = .next (gives s1 .mul f.d (BitVec.ofInt 64 (a.toInt * b.toInt / 2 ^ 64))) ∧
    exec (.mulhn f) s = .next (gives s1 .mul f.d (BitVec.ofNat 64 (a.toNat * b.toNat / 2 ^ 64))) ∧
    exec (.div f) s = .next (gives s1 .div f.d
      (if b.toInt = 0 then BitVec.allOnes 64 else BitVec.ofInt 64 (a.toInt.tdiv b.toInt))) ∧
    exec (.divn f) s = .next (gives s1 .div f.d
      (if b.toNat = 0 then BitVec.allOnes 64 else BitVec.ofNat 64 (a.toNat / b.toNat))) ∧
    exec (.rem f) s = .next (gives s1 .div f.d
      (if b.toInt = 0 then a else BitVec.ofInt 64 (a.toInt - b.toInt * a.toInt.tdiv b.toInt))) ∧
    exec (.remn f) s = .next (gives s1 .div f.d
      (if b.toNat = 0 then a else BitVec.ofNat 64 (a.toNat - b.toNat * (a.toNat / b.toNat))))

/-- R219 and R222: the operations with one source. Leading and trailing zero bits are counted as the shifts of the operand
that give zero, 1 bits one by one; SEXT and ZEXT keep the low 8, 16 or 32 bits. -/
def Sys2Proof.Claims.OneSourceArithmetic : Prop :=
  (∀ (f : FR1) (s s1 : State) (a : Word), Goes s f.c f.lit [f.a] (dcnt f.d) s1 [a] → Takes s1 f.d →
    exec (.clz f) s = .next (gives s1 .alu f.d
      (BitVec.ofNat 64 ((List.range 64).countP (fun i => a.toNat < 2 ^ i)))) ∧
    exec (.ctz f) s = .next (gives s1 .alu f.d
      (BitVec.ofNat 64 ((List.range 64).countP (fun i => a.toNat % 2 ^ (i + 1) = 0)))) ∧
    exec (.popc f) s = .next (gives s1 .alu f.d (BitVec.ofNat 64 ((List.range 64).countP (fun i => a.getLsbD i)))) ∧
    exec (.mov f) s = .next (gives s1 .alu f.d a)) ∧
  (∀ (f : FLih) (s s1 : State) (a : Word), Goes s f.c (some f.imm) [f.a] (dcnt f.d) s1 [a] → Takes s1 f.d →
    exec (.lih f) s = .next (gives s1 .alu f.d (BitVec.ofNat 64 (a.toNat % 2 ^ 32 + f.imm.toNat * 2 ^ 32)))) ∧
  (∀ (f : FExt) (s s1 : State) (a : Word), Goes s f.c f.lit [f.a] (dcnt f.d) s1 [a] → Takes s1 f.d →
    exec (.sext f) s = .next (gives s1 .alu f.d (BitVec.ofInt 64 (a.toInt.bmod (2 ^ extWidth f.w)))) ∧
    exec (.zext f) s = .next (gives s1 .alu f.d (BitVec.ofNat 64 (a.toNat % 2 ^ extWidth f.w)))) ∧
  (∀ (f : FI) (s : State), Ready s f.c (dcnt f.d) → Takes s f.d →
    exec (.li f) s = .next (gives s .alu f.d (match f.imm with
      | .i14 v => BitVec.ofInt 64 v.toInt
      | .lit v => BitVec.ofInt 64 v.toInt)))

/-! ## Compares, guard logic, generators (R116 to R118, R221 to R225) -/

namespace Sys2Proof.Claims

/-- A guard bit as an operation reads it: b0 is 1 (R93). -/
def guardBit (c : Ctx) (n : Fin 8) : Bool := n.val == 0 || c.b.getLsbD n.val

/-- How many pending results a guard bit makes (b0 none). -/
def oneGuard (n : Fin 8) : Nat × Nat := if n.val = 0 then (0, 0) else (1, 0)

/-- The relation that a COND field names, over the integers of R221. -/
def relation (c : Cond) (a b : Word) : Bool :=
  match c with
  | .eq => a == b
  | .ne => !(a == b)
  | .lt => decide (a.toInt < b.toInt)
  | .ge => decide (b.toInt ≤ a.toInt)
  | .ltn => decide (a.toNat < b.toNat)
  | .gen => decide (b.toNat ≤ a.toNat)
  | .tst => !((a &&& b) == 0#64)
  | .ntst => (a &&& b) == 0#64

/-- The place of a generator's indices in the order of its steps: dimension 0 counts fastest. -/
def place (g : Gen) : Nat → Nat
  | 0 => 0
  | d + 1 => place g d + (g.dim d).idx.toNat * prod ((List.range d).map g.count)

end Sys2Proof.Claims

/-- R221 to R223: CMP writes the truth of its relation to its guard bit; SEL takes SA or SB by a guard bit; GAND, GOR and GNOT
combine guard bits, each inverted where its N bit is set. b0 reads 1 and takes nothing; nothing else changes. -/
def Obligations.ComparesAndGuardLogic : Prop :=
  (∀ (f : FC) (s s1 : State) (a b : Word), Goes s f.c f.lit [f.a, f.b] (oneGuard f.bd) s1 [a, b] →
    exec (.cmp f) s = .next (givesGuard s1 f.bd (relation f.cond a b))) ∧
  (∀ (f : FSel) (s s1 : State) (a b : Word), Goes s f.c f.lit [f.a, f.b] (dcnt (.x f.dx)) s1 [a, b] →
    exec (.sel f) s = .next (givesX s1 .alu f.dx (if guardBit s1.me f.bs then a else b))) ∧
  (∀ (f : FG) (s : State), Ready s f.c (oneGuard f.bd) →
    exec (.gand f) s =
      .next (givesGuard s f.bd ((guardBit s.me f.ba != f.na) && (guardBit s.me f.bb != f.nb))) ∧
    exec (.gor f) s =
      .next (givesGuard s f.bd ((guardBit s.me f.ba != f.na) || (guardBit s.me f.bb != f.nb)))) ∧
  (∀ (f : FG1) (s : State), Ready s f.c (oneGuard f.bd) →
    exec (.gnot f) s = .next (givesGuard s f.bd (!(guardBit s.me f.ba != f.na))))

/-- R224: the generator instructions. Each writes its generator in the ALU class and changes nothing else; GSTEP of a
generator whose DIMS is 7 takes ILLOP (R116); GREAD gives the named field. -/
def Sys2Proof.Claims.GeneratorInstructions : Prop :=
  (∀ (f : FA) (s s1 : State) (a b : Word), Goes s f.c f.lit [f.a, f.b] (1, 0) s1 [a, b] →
    exec (.gset f) s = .next (done s1 (due s1 .alu (.gen f.gn.val (.dim f.dim.val
      (BitVec.ofNat 32 (a.toNat % 2 ^ 32)) (BitVec.ofNat 48 (b.toNat % 2 ^ 48)))))) ∧
    exec (.gsetE f) s = .next (done s1 (due s1 .alu (.gen f.gn.val (.edge f.dim.val
      (BitVec.ofNat 32 (b.toNat % 2 ^ 32 % max 1 ((s1.gen f.gn).dim f.dim.val).cnt.toNat))
      (BitVec.ofNat 32 (a.toNat % 2 ^ 32))))))) ∧
  (∀ (f : FAb) (s s1 : State) (a b : Word), Goes s f.c f.lit [f.a, f.b] (1, 0) s1 [a, b] →
    exec (.gbase f) s = .next (done s1 (due s1 .alu (.gen f.gn.val (.base a (BitVec.ofNat 32 (b.toNat % 2 ^ 16))))))) ∧
  (∀ (f : FAg) (s : State), Ready s f.c (1, 0) →
    ((s.gen f.gn).attr.toNat / 2 ^ 13 % 8 ≠ 7 →
      exec (.gstep f) s = .next (done s (due s .alu (.gen f.gn.val .step)))) ∧
    ((s.gen f.gn).attr.toNat / 2 ^ 13 % 8 = 7 → exec (.gstep f) s = .next (s.takeTrap s.cur (trapOf cIllop)))) ∧
  (∀ (f : FQ) (s : State), Ready s f.c (dcnt f.d) → Takes s f.d →
    exec (.gread f) s = .next (gives s .alu f.d (match f.fs with
      | .base => (s.gen f.gn).base
      | .cnt => BitVec.ofNat 64 ((s.gen f.gn).dim f.dim.val).cnt.toNat
      | .stp => BitVec.ofInt 64 ((s.gen f.gn).dim f.dim.val).stp.toInt
      | .idx => BitVec.ofNat 64 ((s.gen f.gn).dim f.dim.val).idx.toNat
      | .bnd => BitVec.ofNat 64 ((s.gen f.gn).dim f.dim.val).bnd.toNat
      | .attr => BitVec.ofNat 64 (s.gen f.gn).attr.toNat)))

/-- R224: what a generator write does when it is due. GSET changes CNT and STP of its dimension alone, GSET.E IDX and BND
alone, GBASE sets BASE and ATTR and every IDX to 0 and keeps counts, strides and bounds, GSTEP takes one step of R118 (what the
step does, GeneratorStepCounts says). -/
def Sys2Proof.Claims.GeneratorWritesChangeTheirFieldsOnly : Prop :=
  ∀ (s : State) (g n : Nat) (d : Nat) (w : GenWr), d < 6 →
    ((s.land g (.gen n w)).ctx g = { s.ctx g with g := ((s.land g (.gen n w)).ctx g).g } ∧
     ∀ m, m ≠ n → Tab.get Gen.zero m ((s.land g (.gen n w)).ctx g).g = Tab.get Gen.zero m (s.ctx g).g) ∧
    (∀ e cnt stp, e < 6 → w = .dim e cnt stp →
      let old := Tab.get Gen.zero n (s.ctx g).g
      let new := Tab.get Gen.zero n ((s.land g (.gen n w)).ctx g).g
      new.base = old.base ∧ new.attr = old.attr ∧
        new.dim d = (if d = e then ⟨cnt, stp, (old.dim d).idx, (old.dim d).bnd⟩ else old.dim d)) ∧
    (∀ e idx bnd, e < 6 → w = .edge e idx bnd →
      let old := Tab.get Gen.zero n (s.ctx g).g
      let new := Tab.get Gen.zero n ((s.land g (.gen n w)).ctx g).g
      new.base = old.base ∧ new.attr = old.attr ∧
        new.dim d = (if d = e then ⟨(old.dim d).cnt, (old.dim d).stp, idx, bnd⟩ else old.dim d)) ∧
    (∀ v attr, w = .base v attr →
      let old := Tab.get Gen.zero n (s.ctx g).g
      let new := Tab.get Gen.zero n ((s.land g (.gen n w)).ctx g).g
      new.base = v ∧ new.attr = attr ∧ new.dim d = ⟨(old.dim d).cnt, (old.dim d).stp, 0, (old.dim d).bnd⟩) ∧
    (w = .step → Tab.get Gen.zero n ((s.land g (.gen n w)).ctx g).g = (Tab.get Gen.zero n (s.ctx g).g).step)

/-- R118: one step counts the indices in use as the digits of one number, dimension 0 fastest, and wraps to 0 after the last;
the indices stay below their counts, and counts, strides, bounds, BASE, ATTR and the dimensions not in use stay. -/
def Sys2Proof.Claims.GeneratorStepCounts : Prop :=
  ∀ g : Gen, g.attr.toNat / 2 ^ 13 % 8 ≠ 7 → (∀ d, d < g.dims → (g.dim d).idx.toNat < g.count d) →
    place g.step g.dims = (place g g.dims + 1) % prod ((List.range g.dims).map g.count) ∧
    (∀ d, d < g.dims → (g.step.dim d).idx.toNat < g.count d) ∧
    (∀ d, (g.step.dim d).cnt = (g.dim d).cnt ∧ (g.step.dim d).stp = (g.dim d).stp ∧ (g.step.dim d).bnd = (g.dim d).bnd) ∧
    (∀ d, g.dims ≤ d → d < 6 → g.step.dim d = g.dim d) ∧ g.step.base = g.base ∧ g.step.attr = g.attr

/-! ## Control and status registers (R226 to R229) -/

namespace Sys2Proof.Claims

/-- The context may name the CSR: HCTX and TSW0 to TSW3 need privilege (R226). -/
def mayName (s : State) (n : CsrName) : Prop := (n = .hctx ∨ ∃ k, n = .tsw k) → s.me.view.priv = true

/-- What a writing CSR instruction leaves in the register's bits (R228): `rw` and `w1c` are the RW and the W1C bits, `old` the
register as earlier operations left it, `a` the source. -/
def csrwValue (rw w1c old a : Word) : Word := (a &&& rw) ||| (old &&& ~~~a &&& w1c)
def csrsValue (rw w1c old a : Word) : Word := ((old ||| a) &&& rw) ||| (old &&& w1c)
def csrcValue (rw w1c old a : Word) : Word := (old &&& ~~~a) &&& (rw ||| w1c)

end Sys2Proof.Claims

/-- R228: CSRR gives the register as visible at the bundle and changes nothing; CSRW, CSRS and CSRC return the same and give
the register's RW and W1C bits the value of R228's table, where the register takes it (RBASE and LDEPTH have the checks of
R105). -/
def Sys2Proof.Claims.CsrInstructions : Prop :=
  (∀ (f : FXr) (s : State), Ready s f.c (dcnt f.d) → Takes s f.d → mayName s f.csr →
    exec (.csrr f) s = .next (gives s .alu f.d (s.csrIn s.me.view f.csr))) ∧
  (∀ (f : FX) (s s1 u : State) (a : Word), Goes s f.c f.lit [f.a] (dcnt f.d) s1 [a] → mayName s1 f.csr →
    (csrMask f.csr).1 ||| (csrMask f.csr).2 ≠ 0#64 → Takes u f.d →
    (s1.csrSet f.csr (csrwValue (csrMask f.csr).1 (csrMask f.csr).2 (s1.csrLive f.csr) a) = .ok u →
      exec (.csrw f) s = .next (gives u .alu f.d (s1.csrIn s1.me.view f.csr))) ∧
    (s1.csrSet f.csr (csrsValue (csrMask f.csr).1 (csrMask f.csr).2 (s1.csrLive f.csr) a) = .ok u →
      exec (.csrs f) s = .next (gives u .alu f.d (s1.csrIn s1.me.view f.csr))) ∧
    (s1.csrSet f.csr (csrcValue (csrMask f.csr).1 (csrMask f.csr).2 (s1.csrLive f.csr) a) = .ok u →
      exec (.csrc f) s = .next (gives u .alu f.d (s1.csrIn s1.me.view f.csr))))

/-- R226 to R229: what a CSR write leaves. In every register but GUARD, SRSEED and SRCTR (whose writes are results due at the
next bundle) the writable bits hold the value written and the other bits read as 0, those of MODE as before; of the machine only
the current context's CSRs change, and with RBASE the mark that its region is new. -/
def Sys2Proof.Claims.CsrWriteTakesEffect : Prop :=
  ∀ (s t : State) (n : CsrName) (v : Word), v &&& ((csrMask n).1 ||| (csrMask n).2) = v → s.csrSet n v = .ok t →
    (n ≠ .guard → n ≠ .srseed → n ≠ .srctr →
      t.csrIn t.me.csr n &&& ((csrMask n).1 ||| (csrMask n).2) = v ∧
      t.csrIn t.me.csr n &&& ~~~((csrMask n).1 ||| (csrMask n).2) =
        (if n = .mode then s.csrIn s.me.csr n &&& ~~~((csrMask n).1 ||| (csrMask n).2) else 0#64) ∧
      t = withMe s (fun c => { c with csr := t.me.csr, rbNew := t.me.rbNew })) ∧
    (n = .guard → t = withMe s (fun c => { c with pend := c.pend ++ dueNext s (.guards (v.setWidth 8)) })) ∧
    (n = .srseed → t = withMe s (fun c => { c with pend := c.pend ++ dueNext s (.srseed v) })) ∧
    (n = .srctr → t = withMe s (fun c => { c with pend := c.pend ++ dueNext s (.srctr v) }))

namespace Sys2Proof.Claims

/-- A register with 1 in the bits from `lo` to `hi` and 0 in the others. -/
def maskOf (hi lo : Nat) : Word := BitVec.ofNat 64 (2 ^ (hi + 1) - 2 ^ lo)

/-- The RW bits of each CSR, as the tables of R95, R104, R226 and R227 name them. -/
def rwBits : CsrName → Word
  | .mode => maskOf 1 0
  | .rbase => maskOf 31 31 ||| maskOf 26 16 ||| maskOf 10 0
  | .ldepth => maskOf 10 0
  | .mqdst => maskOf 11 9 ||| maskOf 8 6 ||| maskOf 5 3 ||| maskOf 2 0
  | .guard => maskOf 7 1
  | .srseed | .srctr | .wsstl | .chstl _ | .mbser => maskOf 63 0
  | .epscl => maskOf 31 0
  | .epclp => maskOf 63 32 ||| maskOf 31 0
  | .dlen => maskOf 7 0
  | .bkt _ => maskOf 63 32 ||| maskOf 24 24 ||| maskOf 23 16 ||| maskOf 8 0
  | .hctx => maskOf 8 8 ||| maskOf 1 0
  | .bix | .cyc | .vallot | .rpos | .nstat | .cstat | .lse | .bimlim | .occ | .lpass | .gcid | .lcid | .codebase | .tsw _ => 0#64

/-- The W1C bits: the flags of NSTAT (R76) and of CSTAT (R436). -/
def w1cBits : CsrName → Word
  | .nstat => maskOf 5 0
  | .cstat => maskOf 2 0
  | .bix | .cyc | .mode | .vallot | .rbase | .ldepth | .rpos | .mqdst | .guard | .lse | .srseed | .srctr | .epscl | .epclp
  | .bimlim | .occ | .dlen | .lpass | .gcid | .lcid | .codebase | .wsstl | .chstl _ | .mbser | .bkt _ | .hctx | .tsw _ => 0#64

end Sys2Proof.Claims

/-- R4, R5, R51, R76, R95, R104, R226, R227, R435 and R436: the bits of each CSR that a write can change, and what CSRR gives
of the registers that no write can: BIX is the index of the bundle that holds the CSRR, CYC the counter as it stands at the
commit, VALLOT, RPOS and LPASS as visible at the bundle, LSE sign-extended from its 7 bits, BIMLIM in bits 31 to 0, GCID the
context's number in the device, LCID the same with the virtual cluster in place of die and cluster, OCC the active request
slots that the launch's table lists, CODEBASE the launch's; TSW0 to TSW3 are those of the context that HCTX names, and of MODE the
fields beside PRI. A write to a register without writable bits takes ILLOP. -/
def Sys2Proof.Claims.ControlRegisterValues : Prop :=
  (∀ n : CsrName, csrMask n = (rwBits n, w1cBits n)) ∧
  (∀ (f : FXr) (s : State) (v : Csrs), Ready s f.c (dcnt f.d) → Takes s f.d → v = s.me.view →
    (f.csr = .bix → exec (.csrr f) s = .next (gives s .alu f.d (BitVec.ofNat 64 s.me.idx))) ∧
    (f.csr = .cyc → exec (.csrr f) s = .next (gives s .alu f.d s.me.cyc)) ∧
    (f.csr = .mode → exec (.csrr f) s = .next (gives s .alu f.d (BitVec.ofNat 64 (v.pri.toNat + v.strict.toNat * 4 +
      v.priv.toNat * 256 + v.hdl.toNat * 512)))) ∧
    (f.csr = .vallot → exec (.csrr f) s = .next (gives s .alu f.d (BitVec.ofNat 64 v.vallot))) ∧
    (f.csr = .rpos → exec (.csrr f) s = .next (gives s .alu f.d (BitVec.ofNat 64 v.rpos))) ∧
    (f.csr = .lpass → exec (.csrr f) s = .next (gives s .alu f.d v.lpass)) ∧
    (f.csr = .lse → exec (.csrr f) s = .next (gives s .alu f.d (BitVec.ofInt 64 v.lse.toInt))) ∧
    (f.csr = .bimlim → exec (.csrr f) s = .next (gives s .alu f.d (BitVec.ofNat 64 v.bimlim.toNat))) ∧
    (f.csr = .guard → exec (.csrr f) s = .next (gives s .alu f.d (BitVec.ofNat 64 (s.me.b.toNat / 2 * 2 + 1)))) ∧
    (f.csr = .gcid → exec (.csrr f) s = .next (gives s .alu f.d (BitVec.ofNat 64 s.cur))) ∧
    (∀ n l, s.launchOn (coreOf s.cur) = some (n, l) →
      (f.csr = .lcid →
        exec (.csrr f) s = .next (gives s .alu f.d (BitVec.ofNat 64 (l.vclOf (clusterOf s.cur) * 32 + s.cur % 32)))) ∧
      (f.csr = .occ → exec (.csrr f) s = .next (gives s .alu f.d (BitVec.ofNat 64 (l.req.countP (fun p => p.2.act))))) ∧
      (f.csr = .codebase → exec (.csrr f) s = .next (gives s .alu f.d l.codebase))) ∧
    (v.priv = true → ∀ h, h = s.ctx (coreOf s.cur * 4 + v.hctxC.toNat) →
      (f.csr = .hctx → exec (.csrr f) s = .next (gives s .alu f.d (BitVec.ofNat 64 (v.hctxC.toNat + v.hctxV.toNat * 256)))) ∧
      (f.csr = .tsw 0 → exec (.csrr f) s = .next (gives s .alu f.d h.tsw0)) ∧
      (f.csr = .tsw 1 → exec (.csrr f) s = .next (gives s .alu f.d h.tsw1)) ∧
      (f.csr = .tsw 2 → exec (.csrr f) s = .next (gives s .alu f.d h.tsw2)) ∧
      (f.csr = .tsw 3 → exec (.csrr f) s = .next (gives s .alu f.d h.tsw3)))) ∧
  (∀ (f : FX) (s s1 : State) (a : Word), Goes s f.c f.lit [f.a] (dcnt f.d) s1 [a] → mayName s1 f.csr →
    rwBits f.csr ||| w1cBits f.csr = 0#64 →
    exec (.csrw f) s = .next (s.takeTrap s.cur (trapOf cIllop)) ∧
    exec (.csrs f) s = .next (s.takeTrap s.cur (trapOf cIllop)) ∧
    exec (.csrc f) s = .next (s.takeTrap s.cur (trapOf cIllop)))

/-- R226 and R249 to R251: without privilege, the privileged CSRs, TRET, TLBI and CTXL take PRIV at their slot and have no
effect of their own. -/
def Sys2Proof.Claims.PrivilegedOperationsTrapWithoutPrivilege : Prop :=
  ∀ (s s1 : State), s.me.view.priv = false →
    (∀ (f : FXr), Ready s f.c (dcnt f.d) → (f.csr = .hctx ∨ ∃ k, f.csr = .tsw k) →
      exec (.csrr f) s = .next (s.takeTrap s.cur (trapOf cPriv))) ∧
    (∀ (f : FX) (a : Word), Goes s f.c f.lit [f.a] (dcnt f.d) s1 [a] → (f.csr = .hctx ∨ ∃ k, f.csr = .tsw k) →
      exec (.csrw f) s = .next (s.takeTrap s.cur (trapOf cPriv)) ∧
      exec (.csrs f) s = .next (s.takeTrap s.cur (trapOf cPriv)) ∧
      exec (.csrc f) s = .next (s.takeTrap s.cur (trapOf cPriv))) ∧
    (∀ (f : FZ), Ready s f.c (0, 0) → exec (.tret f) s = .next (s.takeTrap s.cur (trapOf cPriv))) ∧
    (∀ (f : FTlbi) (a b : Word), Goes s f.c f.lit [f.a, f.b] (0, 0) s1 [a, b] →
      exec (.tlbi f) s = .next (s.takeTrap s.cur (trapOf cPriv))) ∧
    (∀ (f : FRa) (a : Word), Goes s f.c f.lit [f.a] (0, 0) s1 [a] →
      exec (.ctxl f) s = .next (s.takeTrap s.cur (trapOf cPriv)))

/-! ## Control transfers, loops and rotation (R230 to R238) -/

namespace Sys2Proof.Claims

/-- An x register as a bundle reads it (R93). -/
def xReg (s : State) (n : Nat) : Word := if n = 0 then 0#64 else Tab.get 0 n s.me.x

/-- The pass count of a nest: the literal, or the product of the counts in x registers (R232). -/
def passes (s : State) : LoopCnt → Nat
  | .lit v => v.toNat
  | .regs sa nd => prod ((List.range (nd.val + 1)).map (fun d => (xReg s (sa.val + d)).toNat % 2 ^ 32))

/-- The condition of a BRC, over the integer that its source stands for (R230). -/
def branches (c : BCond) (a : Word) : Bool :=
  match c with
  | .eqz => decide (a.toInt = 0)
  | .nez => decide (a.toInt ≠ 0)
  | .ltz => decide (a.toInt < 0)
  | .gez => decide (0 ≤ a.toInt)
  | .gtz => decide (0 < a.toInt)
  | .lez => decide (a.toInt ≤ 0)

end Sys2Proof.Claims

/-- R230: outside a loop body, a transfer makes the bundle at its target the next one, and of the machine only that and a
CALL's result change; a BRC whose condition fails falls through. A BRC reads its own offset where SA names the literal (R190). -/
def Sys2Proof.Claims.ControlTransfersSetTheNextBundle : Prop :=
  (∀ (f : FJ) (s : State), Ready s f.c (0, 0) → s.me.nest = none →
    exec (.br f) s = .next (doneWith s (fun c => { c with npc := s.me.pc + BitVec.ofInt 64 f.off.toInt }))) ∧
  (∀ (f : FK) (s s1 : State) (a : Word), Goes s f.c (some f.off) [f.a] (0, 0) s1 [a] → s.me.nest = none →
    (branches f.cond a = true →
      exec (.brc f) s = .next (doneWith s1 (fun c => { c with npc := s.me.pc + BitVec.ofInt 64 f.off.toInt }))) ∧
    (branches f.cond a = false → exec (.brc f) s = .next (done s1 []))) ∧
  (∀ (f : FRa) (s s1 : State) (a : Word), Goes s f.c f.lit [f.a] (0, 0) s1 [a] → s.me.nest = none →
    exec (.brx f) s = .next (doneWith s1 (fun c => { c with npc := a })) ∧
    exec (.ret f) s = .next (doneWith s1 (fun c => { c with npc := a }))) ∧
  (∀ (f : FJd) (s t : State), Ready s f.c (dcnt f.d) → s.me.nest = none →
    t = withMe s (fun c => { c with npc := s.me.pc + BitVec.ofInt 64 f.off.toInt }) → Takes t f.d →
    exec (.call f) s = .next (gives t .alu f.d (s.nextSeq s.cur s.me.npc)))

/-- R234: a transfer in a loop body, and a LOOP in a body, take ILLOP at their slots. -/
def Sys2Proof.Claims.TransfersAndLoopsInABodyTrap : Prop :=
  ∀ (s s1 : State), s.me.nest ≠ none →
    (∀ f : FJ, Ready s f.c (0, 0) → exec (.br f) s = .next (s.takeTrap s.cur (trapOf cIllop))) ∧
    (∀ (f : FK) (a : Word), Goes s f.c (some f.off) [f.a] (0, 0) s1 [a] →
      exec (.brc f) s = .next (s.takeTrap s.cur (trapOf cIllop))) ∧
    (∀ (f : FRa) (a : Word), Goes s f.c f.lit [f.a] (0, 0) s1 [a] →
      exec (.brx f) s = .next (s.takeTrap s.cur (trapOf cIllop)) ∧
      exec (.ret f) s = .next (s.takeTrap s.cur (trapOf cIllop))) ∧
    (∀ f : FJd, Ready s f.c (dcnt f.d) → exec (.call f) s = .next (s.takeTrap s.cur (trapOf cIllop))) ∧
    (∀ f : FP, Ready s f.c (0, 0) → exec (.loop f) s = .next (s.takeTrap s.cur (trapOf cIllop)))

/-- R234: a LOOP outside a body takes ILLOP where its bundle sees LPASS other than 0. -/
def Sys2Proof.Claims.LoopWithPassesLeftTraps : Prop :=
  ∀ (f : FP) (s : State), Ready s f.c (0, 0) → s.me.nest = none → s.me.view.lpass ≠ 0#64 →
    exec (.loop f) s = .next (s.takeTrap s.cur (trapOf cIllop))

/-- R232, R235 and R238: LOOP sets up its nest with P passes, or skips the body where P is 0; LOOPX leaves one pass; ROT
rotates the region by one; LDEPTHSET writes LDEPTH. Each changes nothing else. -/
def Sys2Proof.Claims.LoopsAndRotation : Prop :=
  (∀ (f : FP) (s : State), Ready s f.c (0, 0) → s.me.nest = none → s.me.view.lpass = 0#64 →
    (passes s f.cnt = 0 →
      exec (.loop f) s = .next (doneWith s (fun c => { c with skip := f.bl.val + 1 }))) ∧
    (0 < passes s f.cnt → passes s f.cnt < 2 ^ 64 →
      exec (.loop f) s = .next (doneWith s (fun c =>
        { c with nest := some ⟨c.npc, f.bl.val, 0, [], []⟩,
                 csr := { c.csr with lpass := BitVec.ofNat 64 (passes s f.cnt) } }))) ∧
    (2 ^ 64 ≤ passes s f.cnt → exec (.loop f) s = .next (s.takeTrap s.cur (trapOf cIllop)))) ∧
  (∀ (f : FZ) (s : State), Ready s f.c (0, 0) →
    (s.me.nest ≠ none → exec (.loopx f) s = .next (doneWith s (fun c => { c with csr := { c.csr with lpass := 1 } }))) ∧
    (s.me.nest = none → exec (.loopx f) s = .next (s.takeTrap s.cur (trapOf cIllop))) ∧
    (s.me.csr.rsize = 0 → exec (.rot f) s = .next (done s [])) ∧
    (0 < s.me.csr.rsize → exec (.rot f) s = .next (doneWith s (fun c =>
      { c with csr := { c.csr with rpos := (c.csr.rpos + 1) % c.csr.rsize, rot := c.csr.rot + 1 } })))) ∧
  (∀ (f : FRa) (s s1 : State) (a : Word), Goes s f.c f.lit [f.a] (0, 0) s1 [a] →
    (a.toNat % 2 ^ 11 ≤ s1.me.csr.rsize → s1.me.csr.rsize % 8 = 0 → s1.me.csr.rfirst + s1.me.csr.rsize ≤ 1536 →
      exec (.ldepthset f) s =
        .next (doneWith s1 (fun c => { c with csr := { c.csr with ldepth := BitVec.ofNat 64 (a.toNat % 2 ^ 11) } }))) ∧
    (s1.me.csr.rsize < a.toNat % 2 ^ 11 → exec (.ldepthset f) s = .next (s.takeTrap s.cur (trapOf cIllop))))

/-- R102, R103 and R239: GROW with units at hand adds n units, whose registers read as zero; without enough free units, and none
reserved for it, it blocks. SHRINK takes n units off the top, with every result on its way to them; that it discards those
results at its commit, and what the registers hold before the next bundle, is the model's reading (log 17): the bundle after a
SHRINK sees no register beyond the allotment. A GROW past 24 and a SHRINK below 0 take ILLOP. A GROW changes beside VALLOT only
the new registers, what the bundle reserved and the core's list of waiting GROWs. -/
def Obligations.GrowAndShrink : Prop :=
  ∀ (f : FN) (s : State), Ready s f.c (0, 0) →
    (s.me.csr.vallot + f.n.val ≤ 24 → f.n.val ≤ s.freeUnits (coreOf s.cur) → ∃ t, exec (.grow f) s = .next t ∧
      t = { s with freeN := s.freeN + 1, ctxs := Tab.put s.cur t.me s.ctxs, cores := t.cores } ∧
      t.me = { s.me with csr := { s.me.csr with vallot := s.me.csr.vallot + f.n.val }, resv := t.me.resv, v := t.me.v,
                         vborn := t.me.vborn, vdead := t.me.vdead, vpois := t.me.vpois, todo := s.me.todo.tail } ∧
      (∀ i, i < 64 * s.me.csr.vallot → Tab.get 0 i t.me.v = Tab.get 0 i s.me.v ∧
        Tab.get 0 i t.me.vborn = Tab.get 0 i s.me.vborn ∧ t.me.vdead.contains i = s.me.vdead.contains i ∧
        t.me.vpois.contains i = s.me.vpois.contains i) ∧
      (0 < f.n.val → ∀ i, 64 * s.me.csr.vallot ≤ i → Tab.get 0 i t.me.v = 0 ∧ t.me.vdead.contains i = false ∧
        t.me.vpois.contains i = false) ∧
      ∀ k, t.core k = { s.core k with growQ := (t.core k).growQ }) ∧
    (s.me.csr.vallot + f.n.val ≤ 24 → s.freeUnits (coreOf s.cur) < f.n.val → s.me.resv.contains (.units f.n.val) = false →
      exec (.grow f) s = .next (s.block s.cur)) ∧
    (24 < s.me.csr.vallot + f.n.val → exec (.grow f) s = .next (s.takeTrap s.cur (trapOf cIllop))) ∧
    (f.n.val ≤ s.me.csr.vallot → ∃ t, exec (.shrink f) s = .next t ∧
      t = { s with freeN := s.freeN + 1, ctxs := Tab.put s.cur t.me s.ctxs } ∧
      t.me = { s.me with csr := { s.me.csr with vallot := s.me.csr.vallot - f.n.val }, todo := s.me.todo.tail,
                         pend := t.me.pend } ∧
      (∀ i, Tab.get 0 i t.me.renew.v = if i < 64 * (s.me.csr.vallot - f.n.val) then Tab.get 0 i s.me.v else 0) ∧
      t.me.pend = s.me.pend.filter (fun p => match p.res with
        | .v i _ _ => decide (i < 64 * (s.me.csr.vallot - f.n.val))
        | _ => true)) ∧
    (s.me.csr.vallot < f.n.val → exec (.shrink f) s = .next (s.takeTrap s.cur (trapOf cIllop)))

/-! ## Barriers, waits, YIELD, HALT and TRAP (R240 to R245) -/

/-- R240 and R241: once the context's earlier writes are performed and its copies retired (`w`), BARA and BAR count one
arrival of their position in the barrier of their scope unit; BAR also remembers the episode it waits for. A third arrival
takes ILLOP, as does a context in a position that no descriptor names. Nothing else changes. -/
def Sys2Proof.Claims.BarrierArrivals : Prop :=
  ∀ (f : FB) (s w : State), s.me.guardOn f.c = true → waitAll s = (w, false) →
    (∀ n l pos b ep, w.seat w.cur = some (n, l, pos) → (l.bar (l.barKey f.bsc f.bn.val pos)).arrive pos = some (b, ep) →
      exec (.bara f) s =
        .next (done { w with launches := Tab.put n (l.setBar (l.barKey f.bsc f.bn.val pos) b) w.launches } []) ∧
      exec (.bar f) s =
        .next (doneWith { w with launches := Tab.put n (l.setBar (l.barKey f.bsc f.bn.val pos) b) w.launches }
          (fun c => { c with barWait := some (l.barKey f.bsc f.bn.val pos, ep) }))) ∧
    (∀ n l pos, w.seat w.cur = some (n, l, pos) → (l.bar (l.barKey f.bsc f.bn.val pos)).arrive pos = none →
      exec (.bara f) s = .next (w.takeTrap w.cur (trapOf cIllop)) ∧
      exec (.bar f) s = .next (w.takeTrap w.cur (trapOf cIllop))) ∧
    (w.seat w.cur = none →
      exec (.bara f) s = .next (w.takeTrap w.cur (trapOf cIllop)) ∧
      exec (.bar f) s = .next (w.takeTrap w.cur (trapOf cIllop)))

/-- R241: an arrival counts toward the pending episode, if its position has not arrived in it; else toward the next, if it
has not arrived in that; else it is one too many. -/
def Sys2Proof.Claims.ArrivalsCountTowardTheirEpisode : Prop :=
  ∀ (b : Bar) (pos : Nat),
    (pos ∉ b.arr → ∃ c, b.arrive pos = some (c, b.ep) ∧ c = { b with arr := b.arr ++ [pos], last := c.last } ∧
      Tab.find pos c.last = some b.ep ∧ ∀ p, p ≠ pos → Tab.find p c.last = Tab.find p b.last) ∧
    (pos ∈ b.arr → pos ∉ b.arrNext → ∃ c, b.arrive pos = some (c, b.ep + 1) ∧
      c = { b with arrNext := b.arrNext ++ [pos], last := c.last } ∧
      Tab.find pos c.last = some (b.ep + 1) ∧ ∀ p, p ≠ pos → Tab.find p c.last = Tab.find p b.last) ∧
    (pos ∈ b.arr → pos ∈ b.arrNext → b.arrive pos = none)

/-- R124, R242 and R243: the waits that find what they wait for are done and change nothing; those that do not leave the context
BLOCKED. A BARW finds its position in no episode, or its latest episode released; a WAITH finds its handle in the state, and one
whose handle holds an error code takes COPYFAULT, which clears the code; a WAITQ finds NE entries that no other context's pop has reserved (a reading of R96; that BARW waits in its own bundle and BAR in
the one after it is a reading of R19 and R242; log 15). -/
def Sys2Proof.Claims.WaitsEndWhenMet : Prop :=
  (∀ (f : FB) (s : State) (n : Nat) (l : Launch) (pos : Nat), Ready s f.c (0, 0) → s.seat s.cur = some (n, l, pos) →
    ((∀ ep, Tab.find pos (l.bar (l.barKey f.bsc f.bn.val pos)).last = some ep →
        (l.bar (l.barKey f.bsc f.bn.val pos)).holds s.cycle pos ep = false) → exec (.barw f) s = .next (done s [])) ∧
    (∀ ep, Tab.find pos (l.bar (l.barKey f.bsc f.bn.val pos)).last = some ep →
      (l.bar (l.barKey f.bsc f.bn.val pos)).holds s.cycle pos ep = true → exec (.barw f) s = .next (s.block s.cur))) ∧
  (∀ (f : FW) (s : State), Ready s f.c (0, 0) → s.me.st ≠ .trapped → (s.me.handle f.h.val).err = 0#8 →
    ((s.me.handle f.h.val).st = f.hs → exec (.waith f) s = .next (done s [])) ∧
    ((s.me.handle f.h.val).st ≠ f.hs → exec (.waith f) s = .next (s.block s.cur))) ∧
  (∀ (f : FW) (s : State), Ready s f.c (0, 0) → (s.me.handle f.h.val).err ≠ 0#8 → s.me.todo ≠ [] →
    (∀ p ∈ s.me.todo, p.1 < 8) → Copyfaults s (.waith f) f.h (s.me.handle f.h.val)) ∧
  (∀ (f : FY) (s : State), Ready s f.c (0, 0) →
    (f.ne1.val + 1 ≤ (Tab.get [] f.mq.val s.myCore.mq).countP (fun e => e.taken = none ∨ e.taken = some (s.cur % 4)) →
      exec (.waitq f) s = .next (done s [])) ∧
    ((Tab.get [] f.mq.val s.myCore.mq).countP (fun e => e.taken = none ∨ e.taken = some (s.cur % 4)) < f.ne1.val + 1 →
      exec (.waitq f) s = .next (s.block s.cur)))

namespace Sys2Proof.Claims

/-- Another context of the current core is READY. -/
def otherReady (s : State) : Prop := ∃ i, i < 4 ∧ i ≠ s.cur % 4 ∧ (s.ctx (coreOf s.cur * 4 + i)).st = .ready

end Sys2Proof.Claims

/-- R22 and R244: YIELD with no other READY context changes nothing; with one, the core's rotation pointer stands past the
context, and when the other slots of its bundle have committed (the model's choice, log 15) it is READY and holds no stream.
HALT, its waits over (`w`), lets the bundle end with the context HALTED, its later results discarded; no register or byte of
memory changes. R433: the HALT of a delivered handler (HDL set) whose HCTX, as its bundle sees it, names a TRAPPED context gives
that context's trap to the host, at once or, where the arbiter has no room, from the core's queue. -/
def Sys2Proof.Claims.YieldAndHalt : Prop :=
  (∀ (f : FZ) (s : State), Ready s f.c (0, 0) →
    (¬ otherReady s → exec (.yield f) s = .next (done s [])) ∧
    (otherReady s → s.me.halting = false →
      exec (.yield f) s = .next { doneWith s (fun c => { c with yielding := true }) with
        cores := Tab.put (coreOf s.cur) { s.core (coreOf s.cur) with rotp := (s.cur % 4 + 1) % 4 } s.cores }) ∧
    (otherReady s → s.me.halting = true → exec (.yield f) s = .next (done s []))) ∧
  (∀ (s : State) (g : Nat), (s.ctx g).st = .primary ∨ (s.ctx g).st = .secondary → (s.ctx g).todo = [] → (s.ctx g).slots ≠ [] →
    (s.ctx g).halting = true ∨ (s.ctx g).yielding = true →
    ((s.endBundle g).ctx g).st = (if (s.ctx g).halting = true then .halted else .ready) ∧
    ((s.endBundle g).ctx g).pend = (if (s.ctx g).halting = true then [] else (s.ctx g).pend) ∧
    ((s.endBundle g).core (coreOf g)).prim ≠ some (g % 4) ∧ ((s.endBundle g).core (coreOf g)).sec ≠ some (g % 4) ∧
    ((s.endBundle g).ctx g).x = (s.ctx g).x ∧ ((s.endBundle g).ctx g).v = (s.ctx g).v ∧
    ((s.endBundle g).ctx g).csr = (s.ctx g).csr ∧ ((s.endBundle g).ctx g).npc = (s.ctx g).npc) ∧
  (∀ (f : FZ) (s w : State) (h : Nat), s.me.guardOn f.c = true → waitAll s = (w, false) →
    h = coreOf w.cur * 4 + w.me.view.hctxC.toNat →
    (¬ (w.me.csr.hdl = true ∧ w.me.view.hctxV = true ∧ (w.ctx h).st = .trapped) →
      exec (.halt f) s = .next (doneWith w (fun c => { c with halting := true }))) ∧
    (w.me.csr.hdl = true → w.me.view.hctxV = true → (w.ctx h).st = .trapped → h ≠ w.cur →
      ((w.die (coreOf w.cur / 64)).arb.length < 1024 →
        exec (.halt f) s = .next (doneWith (toHost w (coreOf w.cur) h) (fun c => { c with halting := true }))) ∧
      (1024 ≤ (w.die (coreOf w.cur / 64)).arb.length →
        exec (.halt f) s = .next (doneWith (w.modCore (coreOf w.cur) (fun q => { q with trapQ := q.trapQ ++ [4 + h % 4] }))
          (fun c => { c with halting := true }))))) ∧
  (∀ (f : FZ) (s : State), s.me.guardOn f.c = false →
    exec (.yield f) s = .next (done s []) ∧ exec (.halt f) s = .next (done s []))

/-- R245 and R425: TRAP takes BREAK for code 0 and TRAPI for another, with the code in the trap status word; its own slot
counts as committed, so the context resumes at the next slot of the bundle, or past the bundle, with NB set, where none is
left. -/
def Sys2Proof.Claims.TrapRaisesItsException : Prop :=
  ∀ (f : FT) (s : State), Ready s f.c (0, 0) → (∀ p ∈ s.me.todo, p.1 < 8) → ∃ t, exec (.trap f) s = .next t ∧
    t.me.st = .trapped ∧ t.me.tsw0.toNat % 2 ^ 8 = (if f.code = 0#8 then 0x11 else 0x10) ∧
    t.me.tsw0.toNat / 2 ^ 32 % 2 ^ 8 = f.code.toNat ∧ t.me.tsw1 = s.me.pc ∧ t.me.tsw2 = BitVec.ofNat 64 s.me.idx ∧
    (s.me.todo.tail = [] → t.me.tsw0.getLsbD 11 = true) ∧
    (∀ p l, s.me.todo.tail = p :: l → t.me.tsw0.getLsbD 11 = false ∧ t.me.tsw0.toNat / 2 ^ 8 % 2 ^ 3 = p.1) ∧
    t.me.x = s.me.x ∧ t.me.v = s.me.v ∧ t.me.pend = s.me.pend ∧ t.me.csr = s.me.csr ∧ t.me.pc = s.me.pc ∧
    t.me.bix = s.me.bix

/-! ## Schedule selection, request slots, privileged operations (R246 to R251) -/

/-- R246: SEQSEL gives the entry of the first bucket that is asked for, valid, and serves the occupancy and the draft length;
all ones where none does. -/
def Sys2Proof.Claims.SeqselTakesTheFirstBucketThatServes : Prop :=
  ∀ (f : FR1) (s s1 : State) (a : Word) (n : Nat) (l : Launch), Goes s f.c f.lit [f.a] (dcnt f.d) s1 [a] → Takes s1 f.d →
    s1.launchOn (coreOf s1.cur) = some (n, l) → l.occ ≤ 256 →
    exec (.seqsel f) s = .next (gives s1 .alu f.d
      (match (List.range 16).find? (fun i =>
          a.getLsbD i && (Tab.get 0 i s1.me.view.bkt).getLsbD 24 &&
            decide (l.occ ≤ (Tab.get 0 i s1.me.view.bkt).toNat % 2 ^ 9) &&
            decide (s1.me.csr.dlen.toNat ≤ (Tab.get 0 i s1.me.view.bkt).toNat / 2 ^ 16 % 2 ^ 8)) with
        | some i => l.codebase + BitVec.ofNat 64 ((Tab.get 0 i s1.me.view.bkt).toNat / 2 ^ 32)
        | none => BitVec.allOnes 64))

/-- R247: ADMIT of an inactive slot activates it and raises its incarnation modulo 256, RETIRE of an active one the same the
other way; each gives incarnation × 256 + slot, or all ones where the slot is not so and then changes no slot. -/
def Sys2Proof.Claims.AdmitAndRetireRequestSlots : Prop :=
  ∀ (f : FR1) (s s1 : State) (a : Word) (n : Nat) (l : Launch), Goes s f.c f.lit [f.a] (dcnt f.d) s1 [a] → Takes s1 f.d →
    s1.launchOn (coreOf s1.cur) = some (n, l) → ∀ r, r = l.slot (a.toNat % 256) →
    let slotTo (act : Bool) : State :=
      { s1 with launches := Tab.put n { l with req := Tab.put (a.toNat % 256) ⟨act, r.inc + 1#8⟩ l.req } s1.launches }
    let id : Word := BitVec.ofNat 64 ((r.inc.toNat + 1) % 256 * 256 + a.toNat % 256)
    (r.act = false → exec (.admitReq f) s = .next (gives (slotTo true) .alu f.d id)) ∧
    (r.act = true → exec (.admitReq f) s = .next (gives s1 .alu f.d (BitVec.allOnes 64))) ∧
    (r.act = true → exec (.retire f) s = .next (gives (slotTo false) .alu f.d id)) ∧
    (r.act = false → exec (.retire f) s = .next (gives s1 .alu f.d (BitVec.allOnes 64)))

/-- R249: TRET in a privileged context that handles the trap of a TRAPPED context of its core makes that context READY at its
slot-resume point and clears HCTX.V; without such a context it takes ILLOP. -/
def Sys2Proof.Claims.TretReturnsTheHandledContext : Prop :=
  ∀ (f : FZ) (s : State) (h : Nat), Ready s f.c (0, 0) → s.me.view.priv = true →
    h = coreOf s.cur * 4 + s.me.view.hctxC.toNat → h ≠ s.cur →
    (s.me.view.hctxV = true → (s.ctx h).st = .trapped → ∃ t, exec (.tret f) s = .next t ∧
      (t.ctx h).st = .ready ∧
      (t.ctx h).resume =
        some (if (s.ctx h).tsw0.getLsbD 11 then 8 else (s.ctx h).tsw0.toNat / 2 ^ 8 % 2 ^ 3) ∧
      (t.ctx h).pc = (s.ctx h).pc ∧ (t.ctx h).x = (s.ctx h).x ∧ (t.ctx h).v = (s.ctx h).v ∧
      (t.ctx h).pend = (s.ctx h).pend ∧ (t.ctx h).csr = (s.ctx h).csr ∧
      t.me = { s.me with csr := { s.me.csr with hctxV := false }, todo := s.me.todo.tail } ∧
      (∀ g, g ≠ h → g ≠ s.cur → t.ctx g = s.ctx g) ∧
      t = { s with freeN := t.freeN, ctxs := t.ctxs, cores := t.cores }) ∧
    ((s.me.view.hctxV = false ∨ (s.ctx h).st ≠ .trapped) →
      exec (.tret f) s = .next (s.takeTrap s.cur (trapOf cIllop)))

/-- R250, R251 and R429: a TLBI of a privileged context that has no invalidation yet performs the context's writes, and its
markers enter the channels of the partition's cores in its scope, behind every copy there; the slot waits. One whose
invalidation has completed is done, and its invalidation is gone. A CTXL of an image that can be read and fits loads it: the
target is READY with the image's BIX, x registers, allotment and shares, at the image's pc, or, where it was saved TRAPPED, at
the bundle that its TSW1 and TSW2 name. -/
def Sys2Proof.Claims.TlbiAndCtxl : Prop :=
  (∀ (f : FTlbi) (s s1 : State) (a b : Word) (p : Nat) (cores : List Nat), Goes s f.c f.lit [f.a, f.b] (0, 0) s1 [a, b] →
    s.me.view.priv = true → p = s.partOf s.cur → b.toNat % 2 ^ 16 = (s.part p).xasid.toNat % 2 ^ 16 →
    cores = (scopeCores f.scope (coreOf s.cur)).filter (fun k => (s.part p).clmask.getLsbD (k / 8)) →
    (∀ i ∈ s.invals, i.issuer ≠ some s.cur) → ∃ t, exec (.tlbi f) s = .next t ∧
      t.invals = s.invals ++ [⟨s.invalNo, p, s.asidOf p, a.toNat / pageSize f.size * pageSize f.size, pageSize f.size, cores,
        some s.cur, none, false, false⟩] ∧
      (∀ w ∈ t.wbuf, w.gcid ≠ s.cur) ∧
      (∀ k ∈ cores, ∀ ch, ∀ c ∈ (Tab.get Chan.reset ch (t.core k).ch).copies, c.part = p → s.invalNo ∈ c.marks) ∧
      t.me = { s.me with pins := t.me.pins }) ∧
  (∀ (f : FTlbi) (s s1 : State) (a b : Word) (i : Inval), Goes s f.c f.lit [f.a, f.b] (0, 0) s1 [a, b] →
    s.me.view.priv = true → b.toNat % 2 ^ 16 = (s.part (s.partOf s.cur)).xasid.toNat % 2 ^ 16 →
    s.invals.find? (fun i => i.issuer == some s.cur) = some i → i.done = true →
    exec (.tlbi f) s = .next (done { s1 with invals := s1.invals.filter (fun i => i.issuer != some s.cur) } [])) ∧
  (∀ (f : FRa) (s s1 : State) (a : Word) (g : Nat) (m : Image), Goes s f.c f.lit [f.a] (0, 0) s1 [a] →
    s1.me.view.priv = true → a.toNat / 4 % 2 ^ 10 = 0 → g = coreOf s1.cur * 4 + a.toNat % 4 → g ≠ s1.cur →
    ((s1.ctx g).st = .empty ∨ (s1.ctx g).st = .halted) →
    s1.readImage (s1.imageRead s1.cur) g (a.toNat / 4096 * 4096) (s1.imageFits g) = .ok m →
    ∃ t, exec (.ctxl f) s = .next t ∧ (t.ctx g).st = .ready ∧
      (t.ctx g).pc = BitVec.ofNat 64 (cbf (Tab.get 0 0 m) (if cbf (Tab.get 0 0 m) 6 1 = 2 then 0x28 else 8) 8) ∧
      (t.ctx g).idx = cbf (Tab.get 0 0 m) (if cbf (Tab.get 0 0 m) 6 1 = 2 then 0x30 else 0x10) 8 ∧
      (t.ctx g).bix = cbf (Tab.get 0 0 m) 0x10 8 ∧
      (∀ n, 0 < n → n < 32 → Tab.get 0 n (t.ctx g).x = BitVec.ofNat 64 (Tab.get 0 (0x1000 + 8 * n) m)) ∧
      (t.ctx g).csr.vallot = cbf (Tab.get 0 0 m) 0x190 1 ∧ (t.ctx g).opf = cbShare (Tab.get 0 0 m) 0 ∧
      (t.ctx g).accs = cbShare (Tab.get 0 0 m) 1 ∧ (t.ctx g).lats = cbShare (Tab.get 0 0 m) 2 ∧
      t.me = { s1.me with todo := s1.me.todo.tail } ∧ (∀ c, c ≠ g → c ≠ s1.cur → t.ctx c = s1.ctx c) ∧
      t = { s1 with freeN := t.freeN, ctxs := t.ctxs, cores := t.cores })

/-! ## Memory accesses (R149 to R157, R252 to R273) -/

namespace Sys2Proof.Claims

/-- An access of the current context can go ahead: it waits on no copy (R137), and every byte passes the checks of R254; `ac`
holds the place of every granule. -/
def Passes (s : State) (k : Acc) (cls : Cls) (store : Bool) (asp : ASpace) (as : List Nat) (ac : Access) : Prop :=
  s.rangeWait s.cur store asp as = false ∧ s.check s.cur k cls asp as = .ok ac

/-- Results added to those that wait to be written. -/
def addPend (rs : List Pend) (c : Ctx) : Ctx := { c with pend := c.pend ++ rs }

/-- No write that waits to be performed lies outside the places that hold data. -/
def PlainWrites (s : State) : Prop := ∀ w ∈ s.wbuf, ∀ i, i < w.bytes.length → dataPlace w.sp (w.addr + i)

/-- THE TAGS AFTER AN ACCESS of class `cls` to checked granules (R149): each tagged granule that it touches takes the tag of the
transition table, and every other granule keeps its own. -/
def tagsAfter (s t : State) (cls : Cls) (ac : Access) : Prop :=
  PlainWrites s → s.cur < 1024 → s.lgenOf s.cur < 64 → ∀ sp gr,
    ((∀ p ∈ ac, p.2.tagged = true → (p.2.sp, p.2.addr / 64) ≠ (sp, gr)) → t.tag sp gr = s.tag sp gr) ∧
    (∀ p ∈ ac, p.2.tagged = true → (p.2.sp, p.2.addr / 64) = (sp, gr) → sp ≠ .host →
      tagNext s.cur (s.lgenOf s.cur) cls (s.tag sp gr) = some (t.tag sp gr))

/-- What an access may change of the machine beside the tags, the memory it stores to and the context itself: the context's
owned-range list, the translations that its core and its cluster hold, and which of the committed writes have been performed. -/
def accessed (s t : State) (f : Ctx → Ctx) : Prop :=
  t = { s with freeN := s.freeN + 1, ctxs := Tab.put s.cur t.me s.ctxs, cores := t.cores, clus := t.clus,
               dtags := t.dtags, dram := t.dram, host := t.host, dpois := t.dpois, hpois := t.hpois, wbuf := t.wbuf } ∧
  t.me = { f s.me with owned := t.me.owned, todo := s.me.todo.tail } ∧
  (∀ k, t.core k = { s.core k with tlb := (t.core k).tlb }) ∧
  (∀ c, (t.clu c).regions = (s.clu c).regions ∧ (t.clu c).ec = (s.clu c).ec)

/-- `t` IS `s` AFTER A LOAD of checked granules, of streams, that did `f` to the context: its slot is done, the context's earlier
writes of those streams have been performed (R168), and besides `f` and the tags only what an access may change has changed. EVERY
BYTE that holds data is, as the context reads it, what it was, and no register or queue has changed. -/
def loaded (s t : State) (strms : List Nat) (ac : Access) (f : Ctx → Ctx) : Prop :=
  accessed s t f ∧ tagsAfter s t .read ac ∧ (∀ w ∈ t.wbuf, w ∈ s.wbuf ∧ ¬ (w.gcid = s.cur ∧ w.strm ∈ strms)) ∧
  (∀ sp a, dataPlace sp a → t.ownByte s.cur sp a = s.ownByte s.cur sp a)

/-- `t` holds what `s` holds after `bytes` were stored to places: as the context reads memory, every place that holds data and is
stored to has the last byte stored there, and EVERY OTHER BYTE OF MEMORY is what it was. -/
def wrote (s t : State) (bytes : List (Space × Nat × Byte)) : Prop :=
  (∀ sp a, dataPlace sp a → t.ownByte s.cur sp a =
    match bytes.reverse.find? (fun b => b.1 == sp && b.2.1 == a) with
    | some b => b.2.2
    | none => s.ownByte s.cur sp a)

/-- `t` IS `s` AFTER A STORE of `bytes` to places that did `f` to the context: of the machine beside those bytes and the tags of the
granules only what an access may change has changed. -/
def stored (s t : State) (cls : Cls) (ac : Access) (bytes : List (Space × Nat × Byte)) (f : Ctx → Ctx) : Prop :=
  accessed s t f ∧ tagsAfter s t cls ac ∧ wrote s t bytes

/-- Every byte of an access lies where data is held. -/
def holdsData (ac : Access) (as : List Nat) : Prop := ∀ a ∈ as, dataPlace (ac.at a).1 (ac.at a).2

/-- The value at the bytes of an access as the context reads them, the first byte lowest. -/
def valueAt (s : State) (ac : Access) (as : List Nat) : Nat :=
  leNat (as.map (fun a => s.ownByte s.cur (ac.at a).1 (ac.at a).2))

/-- The bytes of a number at the places of an access. -/
def bytesAt (ac : Access) (as : List Nat) (v : Nat) : List (Space × Nat × Byte) :=
  (as.zip (natLe as.length v)).map (fun q => ((ac.at q.1).1, (ac.at q.1).2, q.2))

/-- The results of a run of vector registers from `v` on: one for each register that takes a value. -/
def runResults (s : State) (k : LatClass) (v : VOp) (vals : List VReg) : List Pend :=
  (((List.range vals.length).filterMap (fun i => s.vRes (vplus v i) (vals.getD i 0))).filter
    (fun r => !s.me.drops r)).map (fun r => ⟨s.me.idx + s.lat s.cur k, s.me.idx, true, 0, r⟩)

/-- Register `i` of a span of bytes: bytes 512i to 512i + 511, those beyond the span zero (R256). -/
def spanReg (bytes : List Byte) (i : Nat) : VReg := BitVec.ofNat 4096 (leNat ((bytes.drop (512 * i)).take 512))

/-- The bytes of a tile as loaded: a byte outside the edge is 0, and of one that straddles it only the bits inside count. -/
def tileValue (rows : List (List TByte)) (rd : Nat → Byte) : List Byte :=
  rows.flatten.map (fun q => if q.2 = 0 then 0#8 else rd q.1 &&& BitVec.ofNat 8 q.2)

/-- A tile load of layout `rows` from memory or a scratchpad completes from `s` (whose slot is `s`'s own: such an instruction
has no scalar source) with its registers. -/
def TileLoads (s : State) (i : Instr) (c : Common) (vd : VOp) (strm : Nat) (t : TShape) (k : LatClass)
    (rows : List (List TByte)) (asp : ASpace) : Prop :=
  ∀ ac : Access, Ready s c (vcnt vd t.regs) → s.checkV vd t.regs = none → Passes s .load .read false asp (touched rows) ac →
    ∃ u, exec i s = .next u ∧ loaded s u [strm] ac (addPend (runResults s k vd
      ((List.range t.regs).map (spanReg (tileValue rows (fun a => s.ownByte s.cur (ac.at a).1 (ac.at a).2))))))

/-- A byte of the die's Mantel that the current context may read: its bank is the partition's and it is not poisoned. -/
def mantelGood (s : State) (a : Nat) : Prop :=
  s.bankOk (s.partOf s.cur) (dieOf s.cur) a = true ∧ s.mantelBad (dieOf s.cur) a = false

/-- Byte `a` is the lowest of `as` in a granule that holds one of them which may not be read; the trap names that granule, with PROT where
the byte's bank is not the partition's and ECCU where the byte is poisoned (R130, R254, R305). -/
def MantelStops (s : State) (as : List Nat) (t : Trap) : Prop :=
  ∃ a ∈ as, ¬ mantelGood s a ∧ (∀ b ∈ as, ¬ mantelGood s b → a ≤ b) ∧
    t = { cause := if s.bankOk (s.partOf s.cur) (dieOf s.cur) a = true then 0x0F else 0x0B, addr := BitVec.ofNat 64 (a / 64 * 64) }

/-- A tile load from the die's Mantel, whose banks are the partition's and whose bytes are not poisoned, completes with its registers,
the context's earlier writes of its stream performed; a bank being refreshed only raises WSSTL (R131). Else it traps. -/
def MantelLoads (s : State) (i : Instr) (c : Common) (vd : VOp) (strm : Nat) (t : TShape) (k : LatClass)
    (rows : List (List TByte)) : Prop :=
  Ready s c (vcnt vd t.regs) → s.checkV vd t.regs = none →
    ((∀ a ∈ touched rows, mantelGood s a) →
      ∃ w, exec i s = .next (doneWith (s.inOrder s.cur strm) (fun c => addPend (runResults s k vd
        ((List.range t.regs).map (spanReg (tileValue rows (s.mantelByte (dieOf s.cur))))))
        { c with csr := { c.csr with wsstl := w } }))) ∧
    (∀ tr, MantelStops s (touched rows) tr → exec i s = .next (s.takeTrap s.cur tr))

/-- `t` IS `s` AFTER A TILE STORE of `cells`, each a byte of the tile with its mask and the register's byte: of every byte of memory that
holds data only the bits change that the masks name, and where several rows store to one byte each changes its bits in what
the rows before it left there (the model's choice, log 41); every other byte is what it was. Besides, only the granules' tags
and what an access may change have changed. -/
def tileStored (s t : State) (ac : Access) (cells : List (TByte × Byte)) : Prop :=
  accessed s t id ∧ tagsAfter s t .write ac ∧ ∀ sp a, dataPlace sp a → t.ownByte s.cur sp a =
    (cells.filter (fun q => ac.at q.1.1 == (sp, a))).foldl (fun b q =>
      (q.2 &&& BitVec.ofNat 8 q.1.2) ||| (b &&& ~~~BitVec.ofNat 8 q.1.2)) (s.ownByte s.cur sp a)

end Sys2Proof.Claims

/-- R255 and R256: LDT, LDTM, LDO and LDW load their tile into the registers from the named one on, in the LDM or LDW class.
The tile's bytes are the layout's (see TileLayout), each as the context reads it; the
generator, every other register and every byte of memory stay. -/
def Sys2Proof.Claims.TileLoadsWriteTheirRegisters : Prop :=
  ∀ (f : FM) (s : State) (sd : Side) (t : TShape), t = tshape f.nrow f.nu f.fmt →
    (∀ asp, sd.asp = some asp →
      (s.tileSide (s.gen f.gn) [1] = .ok sd → f.t = false →
        TileLoads s (.ldt f) f.c f.vd (s.gen f.gn).strm t .ldm (tileBytes sd (s.gen f.gn) t) asp) ∧
      (s.tileSide (s.gen f.gn) [1] = .ok sd → f.t = true → transFmt f.fmt = true →
        TileLoads s (.ldt f) f.c f.vd (s.gen f.gn).strm t .ldm (tileBytesT sd (s.gen f.gn) t) asp) ∧
      (s.tileSide (s.gen f.gn) [0] = .ok sd →
        TileLoads s (.ldtm f) f.c f.vd (s.gen f.gn).strm t .ldm (tileBytes sd (s.gen f.gn) t) asp) ∧
      (s.tileSide (s.gen f.gn) [0, 1, 3] = .ok sd →
        TileLoads s (.ldo f) f.c f.vd (s.gen f.gn).strm t .ldm (tileBytes sd (s.gen f.gn) t) asp)) ∧
    (sd.asp = none →
      (s.tileSide (s.gen f.gn) [3] = .ok sd →
        MantelLoads s (.ldw f) f.c f.vd (s.gen f.gn).strm t .ldw (tileBytes sd (s.gen f.gn) t)) ∧
      (s.tileSide (s.gen f.gn) [0, 1, 3] = .ok sd →
        MantelLoads s (.ldo f) f.c f.vd (s.gen f.gn).strm t .ldm (tileBytes sd (s.gen f.gn) t)))

/-- R256 and R259: LDL loads row i of its tile into the low bytes of row i of its latch, every other byte of it zero; LDG
gathers its rows through the index vector as visible at the bundle. Nothing else changes but by the access itself. -/
def Sys2Proof.Claims.LatchLoadAndGather : Prop :=
  (∀ (f : FM) (s : State) (sd : Side) (t : TShape) (rows : List (List TByte)) (value : (Nat → Byte) → LatchRows),
    t = tshape f.nrow f.nu f.fmt → rows = tileBytes sd (s.gen f.gn) t → Ready s f.c (0, 2) →
    s.tileSide (s.gen f.gn) [0, 1, 3] = .ok sd → f.vd.idx.val < s.me.lats.count →
    (∀ rd, value rd = latchOf (rows.map (fun r => r.map (fun q => if q.2 = 0 then 0#8 else rd q.1 &&& BitVec.ofNat 8 q.2)))) →
    (∀ asp ac, sd.asp = some asp → Passes s .load .read false asp (touched rows) ac →
      ∃ u, exec (.ldl f) s = .next u ∧ loaded s u [(s.gen f.gn).strm] ac (addPend (due s .ldm (.k f.vd.idx.val
        (value (fun a => s.ownByte s.cur (ac.at a).1 (ac.at a).2)))))) ∧
    (sd.asp = none → (∀ a ∈ touched rows, mantelGood s a) →
      ∃ w, exec (.ldl f) s = .next (doneWith (s.inOrder s.cur (s.gen f.gn).strm) (fun c => addPend (due s .ldm (.k f.vd.idx.val
        (value (s.mantelByte (dieOf s.cur))))) { c with csr := { c.csr with wsstl := w } }))) ∧
    (∀ tr, sd.asp = none → MantelStops s (touched rows) tr → exec (.ldl f) s = .next (s.takeTrap s.cur tr))) ∧
  (∀ (f : FMx) (s : State) (sd : Side) (t : TShape) (asp : ASpace), t = tshape f.nrow f.nu f.fmt →
    s.tileSide (s.gen f.gn) [0, 1] = .ok sd → sd.asp = some asp → s.checkV f.vx 1 = none →
    (s.readV f.vx).dead = false → (s.readV f.vx).pois = false →
    TileLoads s (.ldg f) f.c f.vd (s.gen f.gn).strm t .ldm (gatherBytes sd (s.gen f.gn) t (s.readV f.vx).val) asp)

/-- R256 and R257: byte `b` of row `i` of a tile lies at origin + i × STP5 + b. Without EDGE all its bits count; with EDGE, bit
`k` of it counts exactly when its element lies inside the edge in dimensions 0 to 4. -/
def Sys2Proof.Claims.PlainTileLayout : Prop :=
  ∀ (sd : Side) (g : Gen) (t : TShape) (i b k : Nat), i < t.m → b < t.b → k < 8 →
    (((tileBytes sd g t).getD i []).getD b (0, 0)).1 = sd.at (g.origin + BitVec.ofNat 64 i * g.d5.stp.signExtend 64 + BitVec.ofNat 64 b) ∧
    (g.edge = false → (((tileBytes sd g t).getD i []).getD b (0, 0)).2 = 255) ∧
    (g.edge = true → ((((tileBytes sd g t).getD i []).getD b (0, 0)).2.testBit k = true ↔
      ((g.d0.bnd = 0 ∨ g.d0.idx.toNat * t.e + min ((8 * b + k) / t.w) (t.e - 1) < g.d0.bnd.toNat) ∧
       (g.d1.bnd = 0 ∨ g.d1.idx.toNat * t.m + i < g.d1.bnd.toNat) ∧
       (g.d2.bnd = 0 ∨ g.d2.idx.toNat < g.d2.bnd.toNat) ∧ (g.d3.bnd = 0 ∨ g.d3.idx.toNat < g.d3.bnd.toNat) ∧
       (g.d4.bnd = 0 ∨ g.d4.idx.toNat < g.d4.bnd.toNat))))

/-- R258: byte `b` of element `j` of row `i` of a transposed tile lies at origin + j × STP5 + i × w/8 + b. Without EDGE it counts;
with EDGE it counts exactly when IDX0 × m + i lies inside the edge of dimension 0, IDX1 × E + j inside that of dimension 1, and
IDX2 to IDX4 inside theirs. -/
def Sys2Proof.Claims.TransposedTileLayout : Prop :=
  ∀ (sd : Side) (g : Gen) (t : TShape) (i j b : Nat), i < t.m → j < t.e → b < t.w / 8 →
    (((tileBytesT sd g t).getD i []).getD (j * (t.w / 8) + b) (0, 0)).1 =
      sd.at (g.origin + BitVec.ofNat 64 j * g.d5.stp.signExtend 64 + BitVec.ofNat 64 (i * (t.w / 8) + b)) ∧
    (((tileBytesT sd g t).getD i []).getD (j * (t.w / 8) + b) (0, 0)).2 =
      if g.edge = false ∨ ((g.d0.bnd = 0 ∨ g.d0.idx.toNat * t.m + i < g.d0.bnd.toNat) ∧
        (g.d1.bnd = 0 ∨ g.d1.idx.toNat * t.e + j < g.d1.bnd.toNat) ∧
        (g.d2.bnd = 0 ∨ g.d2.idx.toNat < g.d2.bnd.toNat) ∧ (g.d3.bnd = 0 ∨ g.d3.idx.toNat < g.d3.bnd.toNat) ∧
        (g.d4.bnd = 0 ∨ g.d4.idx.toNat < g.d4.bnd.toNat)) then 255 else 0

/-- R259: byte `b` of row `i` of a gather lies at origin + idx(i) × STP5 + b, idx(i) being word i of the index vector as a signed
number; where idx(i) is -1 nothing is accessed. With EDGE, no bit of a row counts whose index is negative or outside the edge of
dimension 1, or that lies outside it in dimensions 2 to 4, and of the others bit `k` counts exactly when its element lies inside
the edge of dimension 0. -/
def Sys2Proof.Claims.GatherLayout : Prop :=
  ∀ (sd : Side) (g : Gen) (t : TShape) (vx : VReg) (i b k : Nat) (x : Int), i < t.m → b < t.b → k < 8 →
    x = ((vx >>> (32 * i)).setWidth 32).toInt →
    let q := ((gatherBytes sd g t vx).getD i []).getD b (0, 0)
    (x = -1 → q.2 = 0) ∧
    (q.2 ≠ 0 → q.1 = sd.at (g.origin + BitVec.ofInt 64 x * g.d5.stp.signExtend 64 + BitVec.ofNat 64 b)) ∧
    (x ≠ -1 → g.edge = false → q.2 = 255) ∧
    (x ≠ -1 → g.edge = true → (q.2.testBit k = true ↔
      0 ≤ x ∧ (g.d1.bnd = 0 ∨ x < g.d1.bnd.toNat) ∧
        (g.d0.bnd = 0 ∨ g.d0.idx.toNat * t.e + min ((8 * b + k) / t.w) (t.e - 1) < g.d0.bnd.toNat) ∧
        (g.d2.bnd = 0 ∨ g.d2.idx.toNat < g.d2.bnd.toNat) ∧ (g.d3.bnd = 0 ∨ g.d3.idx.toNat < g.d3.bnd.toNat) ∧
        (g.d4.bnd = 0 ∨ g.d4.idx.toNat < g.d4.bnd.toNat)))

namespace Sys2Proof.Claims

/-- The counts, the dimensions in use, and the index of element `n` in dimension `d`, dimension 0 counting fastest (R116, R118, R276). -/
def countOf (g : Gen) (d : Nat) : Nat := max 1 (g.dim d).cnt.toNat
def dimsOf (g : Gen) : Nat := max 1 (g.attr.toNat / 2 ^ 13 % 8)
def digit (g : Gen) (n d : Nat) : Nat := n / ((List.range d).map (countOf g)).prod % countOf g d

/-- THE ADDRESS OF ELEMENT `n` OF A NEST (R117, R276): BASE and, of each dimension in use, the stride times the sum of IDX and the element's
index, modulo 2^64. Element 0 lies at the origin. -/
def elemAt (g : Gen) (n : Nat) : Word :=
  BitVec.ofInt 64 ((g.base.toNat : Int) + ((List.range (dimsOf g)).map (fun d =>
    (((g.dim d).idx.toNat + digit g n d : Nat) : Int) * (g.dim d).stp.toInt)).sum)

/-- Element `n` lies outside the edge (R276). -/
def isOutside (g : Gen) (n : Nat) : Bool :=
  g.attr.getLsbD 12 && (List.range (dimsOf g)).any (fun d =>
    decide ((g.dim d).bnd ≠ 0 ∧ (g.dim d).bnd.toNat ≤ (g.dim d).idx.toNat + digit g n d))

end Sys2Proof.Claims

/-- R117, R118, R128, R255 and R276: the origin of an access, the addresses of a nest's elements and which of them lie outside the edge;
an address on a side is a virtual one as it is, one in a scratchpad wrapped within its region, and a Mantel offset modulo 2^30; and the
side of a tile access is memory, the region of the context's cluster that holds BASE, or the die's Mantel: REGRANGE where no region
does, ILLOP for a space that the access does not have. -/
def Sys2Proof.Claims.NestAddresses : Prop :=
  (∀ (g : Gen) (n : Nat), g.elemAddr n = elemAt g n ∧ g.origin = elemAt g 0 ∧ g.elemOut n = isOutside g n) ∧
  (∀ (a : Word) (cl base k d : Nat), Side.mem.at a = a.toNat ∧ (Side.mantel d).at a = a.toNat % 2 ^ 30 ∧
    (k ≤ 64 → (Side.sp cl base (2 ^ k)).at a = base + (((a.toNat : Int) - (base : Int)) % (2 ^ k : Nat)).toNat)) ∧
  (∀ (s : State) (g : Gen) (spaces : List Nat),
    (g.attr.toNat % 4 ∉ spaces → s.tileSide g spaces = .error 0x02) ∧
    (g.attr.toNat % 4 ∈ spaces → g.attr.toNat / 2 ^ 13 % 8 ≤ 5 →
      (g.attr.toNat % 4 = 0 → s.tileSide g spaces = .ok .mem) ∧
      (g.attr.toNat % 4 = 1 → ∀ r, s.regionAt (clusterOf s.cur) g.base.toNat = some r →
        s.tileSide g spaces = .ok (.sp (clusterOf s.cur) r.off (2 ^ r.lsize))) ∧
      (g.attr.toNat % 4 = 1 → s.regionAt (clusterOf s.cur) g.base.toNat = none → s.tileSide g spaces = .error 0x04) ∧
      (g.attr.toNat % 4 = 3 → s.tileSide g spaces = .ok (.mantel (dieOf s.cur)))))

/-- R260 and R131: LDS gives its bytes as the context reads them, little-endian and zero-extended, or the register of the
register window that it names; WSPHASE gives the die's WSC. -/
def Sys2Proof.Claims.ScalarLoads : Prop :=
  (∀ (f : FLds) (s s1 : State) (b : Word) (asp : ASpace) (as : List Nat) (ac : Access),
    Goes s f.c none [f.a] (dcnt (.x f.d)) s1 [b] → s1.sAddrs f.sp b f.off (2 ^ f.sz.val) = .ok (asp, as) →
    Passes s1 .load .read false asp as ac →
    ∃ t, exec (.lds f) s = .next t ∧ loaded s1 t [f.strm.val] ac (addPend
      (if f.d.val = 0 then [] else due s1 .lds (.x f.d.val
        (match windowOff (ac.at (as.headD 0)) (2 ^ f.sz.val) with
          | some o => s1.windowRead (s1.partOf s1.cur) o
          | none => BitVec.ofNat 64 (valueAt s1 ac as)))))) ∧
  (∀ (f : FSd) (s : State), Ready s f.c (dcnt (.x f.d)) →
    exec (.wsphase f) s = .next (givesX s .lds f.d (BitVec.ofNat 64 (s.die (dieOf s.cur)).wsc.toNat)))

/-- R253: the bytes of an S-form access are consecutive modulo 2^64 from x(SA) + OFF, or, with SP, consecutive within the
region that contains x(SA); where no region does, the access takes REGRANGE. -/
def Sys2Proof.Claims.ScalarAddresses : Prop :=
  ∀ (s : State) (base : Word) (off : BitVec 16) (n : Nat),
    s.sAddrs false base off n =
      .ok (.mem, (List.range n).map (fun i => (base + off.signExtend 64 + BitVec.ofNat 64 i).toNat)) ∧
    (∀ r, s.regionAt (clusterOf s.cur) base.toNat = some r →
      s.sAddrs true base off n = .ok (.sp (clusterOf s.cur), (List.range n).map (fun i =>
        r.off + (base + off.signExtend 64 + BitVec.ofNat 64 i - BitVec.ofNat 64 r.off).toNat % 2 ^ r.lsize))) ∧
    (s.regionAt (clusterOf s.cur) base.toNat = none →
      s.sAddrs true base off n = .error cRegrange ∧
      (∀ (f : FLds) (s0 : State), f.sp = true → Goes s0 f.c none [f.a] (dcnt (.x f.d)) s [base] →
        exec (.lds f) s0 = .next (s0.takeTrap s0.cur (trapOf cRegrange))) ∧
      (∀ (f : FSts) (s0 : State) (v : Word), f.sp = true → Goes s0 f.c none [f.a, f.b] (0, 0) s [base, v] →
        exec (.sts f) s0 = .next (s0.takeTrap s0.cur (trapOf cRegrange))))

/-- R256 and R260: STS stores the low bytes of its source at its address, STT and STTM the bytes of their registers at their
tile's bytes, only the bits inside the edge changing; each stores at commit. Every other byte of memory, as the context
reads it, and every register is unchanged. Where two rows of a tile store to one byte the later row is stored last: that is the
model's choice (log 41). -/
def Obligations.StoresChangeTheirBytesOnly : Prop :=
  (∀ (f : FSts) (s s1 : State) (b v : Word) (asp : ASpace) (as : List Nat) (ac : Access),
    Goes s f.c none [f.a, f.b] (0, 0) s1 [b, v] → s1.sAddrs f.sp b f.off (2 ^ f.sz.val) = .ok (asp, as) →
    Passes s1 .store .write true asp as ac → holdsData ac as →
    ∃ t, exec (.sts f) s = .next t ∧ stored s1 t .write ac (bytesAt ac as v.toNat) id) ∧
  (∀ (f : FM) (s : State) (sd : Side) (t : TShape) (asp : ASpace) (ac : Access) (cells : List (TByte × Byte)),
    t = tshape f.nrow f.nu f.fmt → Ready s f.c (0, 0) → s.checkV f.vd t.regs = none → sd.asp = some asp →
    (∀ r ∈ s.readRun f.vd t.regs, r.dead = false ∧ r.pois = false) →
    cells = ((tileBytes sd (s.gen f.gn) t).flatten.zip
      (natLe (t.m * t.b) (ofRegs ((s.readRun f.vd t.regs).map (·.val))))).filter (fun q => q.1.2 != 0) →
    Passes s .store .write true asp (cells.map (·.1.1)) ac → holdsData ac (cells.map (·.1.1)) →
    (s.tileSide (s.gen f.gn) [1] = .ok sd → ∃ u, exec (.stt f) s = .next u ∧ tileStored s u ac cells) ∧
    (s.tileSide (s.gen f.gn) [0] = .ok sd → ∃ u, exec (.sttm f) s = .next u ∧ tileStored s u ac cells))

namespace Sys2Proof.Claims

/-- An atomic at the word `as` completes with the new word `new`: the old word goes to D, and nothing else changes. -/
def Swaps (s s1 : State) (i : Instr) (d : Fin 32) (ac : Access) (as : List Nat) (new : Nat) : Prop :=
  ∃ t, exec i s = .next t ∧ stored s1 t .atomic ac (bytesAt ac as new) (addPend
    (if d.val = 0 then [] else due s1 .lds (.x d.val (BitVec.ofNat 64 (valueAt s1 ac as)))))

/-- A w-bit word as an integer. -/
def asInt (w x : Nat) : Int := if x < 2 ^ (w - 1) then x else (x : Int) - 2 ^ w

end Sys2Proof.Claims

/-- R266 and R267: each atomic writes its new word, gives the old one, zero-extended, to D, and changes nothing else; a word
that is not aligned takes ILLOP. -/
def Obligations.AtomicsSwapTheirWord : Prop :=
  ∀ (f : FAtom) (s s1 : State) (b v : Word) (asp : ASpace) (as : List Nat) (ac : Access) (n w M V : Nat),
    n = (if f.w64 then 8 else 4) → w = 8 * n → s1.sAddrs f.sp b f.off n = .ok (asp, as) →
    M = valueAt s1 ac as → V = v.toNat % 2 ^ w →
    (Goes s f.c none [f.a, f.b] (dcnt (.x f.d)) s1 [b, v] →
      ((b + f.off.signExtend 64).toNat % n = 0 → Passes s1 .atomic .atomic true asp as ac → holdsData ac as →
        Swaps s s1 (.aadd f) f.d ac as ((M + V) % 2 ^ w) ∧
        Swaps s s1 (.amin f) f.d ac as (if asInt w V < asInt w M then V else M) ∧
        Swaps s s1 (.amax f) f.d ac as (if asInt w M < asInt w V then V else M) ∧
        Swaps s s1 (.aminn f) f.d ac as (min M V) ∧ Swaps s s1 (.amaxn f) f.d ac as (max M V) ∧
        Swaps s s1 (.aand f) f.d ac as (M &&& V) ∧ Swaps s s1 (.aor f) f.d ac as (M ||| V) ∧
        Swaps s s1 (.axor f) f.d ac as (M ^^^ V) ∧ Swaps s s1 (.aswp f) f.d ac as V) ∧
      ((b + f.off.signExtend 64).toNat % n ≠ 0 →
        ∀ i ∈ [Instr.aadd f, .amin f, .amax f, .aminn f, .amaxn f, .aand f, .aor f, .axor f, .aswp f],
          exec i s = .next (s.takeTrap s.cur (trapOf cIllop)))) ∧
    (∀ (g : FAcas) (c : Word), g.c = f.c → g.d = f.d → g.a = f.a → g.b = f.b → g.off = f.off → g.w64 = f.w64 →
      g.sp = f.sp → Goes s f.c none [f.a, f.b, g.cmp] (dcnt (.x f.d)) s1 [b, v, c] →
      ((b + f.off.signExtend 64).toNat % n = 0 → Passes s1 .atomic .atomic true asp as ac → holdsData ac as →
        Swaps s s1 (.acas g) g.d ac as (if M = c.toNat % 2 ^ w then V else M)) ∧
      ((b + f.off.signExtend 64).toNat % n ≠ 0 → exec (.acas g) s = .next (s.takeTrap s.cur (trapOf cIllop))))

/-- R148 and R149: the tag that an access of a context leaves on a granule, or the race that it is. An atomic-class access is an
ACQ, another atomic or the flag write of a REL with its token; it leaves token 0 but for the REL. A tag of another generation than
the one in force counts as FREE. -/
def Obligations.RaceTagTransitions : Prop :=
  ∀ (c d lg tok : Nat), c < 1024 → d < 1024 → lg < 64 → tok < 4096 → c ≠ d →
    (tagNext c lg .read 0#32 = some (mkTag 1 c lg 0) ∧ tagNext c lg .write 0#32 = some (mkTag 3 c lg 0) ∧
     tagNext c lg .read (mkTag 1 c lg 0) = some (mkTag 1 c lg 0) ∧
     tagNext c lg .write (mkTag 1 c lg 0) = some (mkTag 3 c lg 0) ∧
     tagNext c lg .read (mkTag 1 d lg 0) = some (mkTag 2 c lg 0) ∧ tagNext c lg .write (mkTag 1 d lg 0) = none ∧
     tagNext c lg .read (mkTag 3 c lg 0) = some (mkTag 3 c lg 0) ∧
     tagNext c lg .write (mkTag 3 c lg 0) = some (mkTag 3 c lg 0) ∧
     tagNext c lg .read (mkTag 3 d lg 0) = none ∧ tagNext c lg .write (mkTag 3 d lg 0) = none ∧
     tagNext c lg .read (mkTag 4 c lg tok) = some (mkTag 4 c lg tok) ∧ tagNext c lg .write (mkTag 4 c lg tok) = none ∧
     tagNext c lg .read (mkTag 4 d lg tok) = none ∧ tagNext c lg .write (mkTag 4 d lg tok) = none) ∧
    (∀ e, e < 1024 → tagNext c lg .read (mkTag 2 e lg 0) = some (mkTag 2 e lg 0) ∧
      tagNext c lg .write (mkTag 2 e lg 0) = none ∧
      tagNext c lg .read (mkTag 5 e lg tok) = none ∧ tagNext c lg .write (mkTag 5 e lg tok) = none ∧
      tagNext c lg .acq (mkTag 5 e lg tok) = some (mkTag 5 e lg tok) ∧
      tagNext c lg .atomic (mkTag 5 e lg tok) = some (mkTag 5 c lg 0) ∧
      ∀ tk, tagNext c lg (.rel tk) (mkTag 5 e lg tok) = some (mkTag 5 c lg tk)) ∧
    (∀ (k : Cls) (tk : Nat), (k = .acq ∧ tk = 0) ∨ (k = .atomic ∧ tk = 0) ∨ k = .rel tk →
      tagNext c lg k 0#32 = some (mkTag 5 c lg tk) ∧ tagNext c lg k (mkTag 1 c lg 0) = some (mkTag 5 c lg tk) ∧
      tagNext c lg k (mkTag 1 d lg 0) = none ∧ tagNext c lg k (mkTag 3 c lg 0) = some (mkTag 5 c lg tk) ∧
      tagNext c lg k (mkTag 3 d lg 0) = none ∧
      ∀ e, e < 1024 → tagNext c lg k (mkTag 2 e lg 0) = none ∧ tagNext c lg k (mkTag 4 e lg tok) = none) ∧
    (∀ (k : Cls) (st old : Nat), st < 8 → old < 64 → old ≠ lg →
      tagNext c lg k (mkTag st d old tok) = tagNext c lg k 0#32)

namespace Sys2Proof.Claims

/-- The release that an ACQ of scope `scp` takes over, whose flag carries the tag `flag`: ATOMIC with a token of a live record of the tag's
context, which lies with the acquirer in one unit of the narrower scope (R156, R157). -/
def TakesOver (s : State) (scp : Scope) (flag : BitVec 32) (r : RelRec) : Prop :=
  effSt (s.lgenOf s.cur) flag = 5 ∧ tagTok flag ≠ 0 ∧
    (s.ctx (tagCtx flag)).recs.find? (fun r => r.tok == tagTok flag && s.recLive (s.lgenOf s.cur) (tagCtx flag) r) = some r ∧
    sameUnit (min (scopeCode r.scope) (scopeCode scp)) s.cur (tagCtx flag) = true

/-- What an ACQ makes of a granule's tag beside its flag's: a granule that the release handed off becomes the acquirer's READ1, one of its
granules that another context reads becomes READN, and every other tag, and every tag where no release is taken over,
stays (R157). The granules are those found at the REL (log 36). -/
def acquired (s : State) (scp : Scope) (flag : BitVec 32) (sp : Space) (gr : Nat) (y : BitVec 32) : Prop :=
  ((∀ r, ¬ TakesOver s scp flag r) → y = s.tag sp gr) ∧
    ∀ r, TakesOver s scp flag r →
      let lg := s.lgenOf s.cur
      let x := s.tag sp gr
      let inside : Prop := ∃ q ∈ r.ranges, q.sp = sp ∧ q.lo ≤ gr ∧ gr < q.hi
      (inside → effSt lg x = 4 → tagCtx x = tagCtx flag → tagTok x = tagTok flag → y = mkTag 1 s.cur lg 0) ∧
      (inside → effSt lg x = 1 → tagCtx x ≠ s.cur → y = mkTag 2 s.cur lg 0) ∧
      (¬ (inside ∧ ((effSt lg x = 4 ∧ tagCtx x = tagCtx flag ∧ tagTok x = tagTok flag) ∨
        (effSt lg x = 1 ∧ tagCtx x ≠ s.cur))) → y = x)

/-- The tag of the flag of a checked access: that of its granule, or 0 in untagged memory. -/
def flagTag (s : State) (ac : Access) : BitVec 32 :=
  match ac.head? with
  | some p => if p.2.tagged then s.tag p.2.sp (p.2.addr / 64) else 0#32
  | none => 0#32

end Sys2Proof.Claims

/-- R149, R157 and R263: ACQ gives its flag's value, zero-extended, and changes no byte. In the state that the ACQ itself answers, where
the flag's tag names a live release whose scope and the ACQ's take in both contexts, the granules that the release handed off are
the acquirer's READ1 and those of its ranges that another context reads are READN; the flag's own tagged granule is ATOMIC; every
other tag is what it was, as every tag but the flag's is where no release is taken over. That the granules taken are those that the
ranges covered at the REL is the model's (log 36). -/
def Sys2Proof.Claims.AcquireReadsItsFlag : Prop :=
  (∀ (f : FAcq) (s s1 : State) (b : Word) (asp : ASpace) (as : List Nat) (ac : Access) (n : Nat),
    n = (if f.w64 then 8 else 4) → Goes s f.c none [f.a] (dcnt (.x f.d)) s1 [b] →
    s1.sAddrs f.sp b f.off n = .ok (asp, as) →
    ((b + f.off.signExtend 64).toNat % n = 0 → Passes s1 .load .acq false asp as ac → holdsData ac as →
      ∃ t, exec (.acq f) s = .next t ∧ wrote s1 t [] ∧ accessed s1 t (addPend
          (if f.d.val = 0 then [] else due s1 .lds (.x f.d.val (BitVec.ofNat 64 (valueAt s1 ac as))))) ∧
        (PlainWrites s1 → s1.cur < 1024 → s1.lgenOf s1.cur < 64 →
          (∀ p ∈ ac, p.2.tagged = true → p.2.sp ≠ .host →
            effSt (s1.lgenOf s1.cur) (t.tag p.2.sp (p.2.addr / 64)) = 5 ∧
              tagNext s1.cur (s1.lgenOf s1.cur) .acq (s1.tag p.2.sp (p.2.addr / 64)) = some (t.tag p.2.sp (p.2.addr / 64))) ∧
          ∀ sp gr, sp ≠ .host → (∀ p ∈ ac, p.2.tagged = true → (p.2.sp, p.2.addr / 64) ≠ (sp, gr)) →
            acquired s1 f.scp (flagTag s1 ac) sp gr (t.tag sp gr))) ∧
    ((b + f.off.signExtend 64).toNat % n ≠ 0 → exec (.acq f) s = .next (s.takeTrap s.cur (trapOf cIllop))))

/-- R155 and R264: a REL whose waits are over (`w`) takes the next token, never 0, stores its flag, records its ranges and
scope under the token, at most sixteen records being kept, and turns every granule of its ranges that its context reads,
owns, hands off or holds ATOMIC into HANDOFF with the token; its tagged flag granule becomes ATOMIC with the token. Every
other tag of a granule, every other byte and every register stays. -/
def Sys2Proof.Claims.ReleaseHandsItsRangesOff : Prop :=
  ∀ (f : FRel) (s w s1 : State) (b v : Word) (asp : ASpace) (as : List Nat) (ac : Access) (n tok : Nat),
    n = (if f.w64 then 8 else 4) → s.me.guardOn f.c = true → relWait f s = (w, false) →
    Goes w f.c none [f.a, f.b] (0, 0) s1 [b, v] → s1.sAddrs f.sp b 0 n = .ok (asp, as) → b.toNat % n = 0 →
    (∀ q ∈ s1.relRanges f, q.1 + q.2 ≤ 2 ^ 64) → tok = (if s1.me.tok + 1 = 4096 then 1 else s1.me.tok + 1) →
    Passes s1 .atomic (.rel tok) true asp as ac → holdsData ac as →
    ∃ t, exec (.rel f) s = .next t ∧
      wrote s1 t (bytesAt ac as v.toNat) ∧ accessed s1 t (fun c => { c with tok := tok, recs := t.me.recs }) ∧
      (∃ r, t.me.recs.getLast? = some r ∧ r.tok = tok ∧ r.ranges = s1.relGrans f ∧ r.scope = f.scp) ∧
      t.me.recs.length ≤ 16 ∧
      (∀ q, ac.head? = some q → q.2.tagged = true → q.2.sp ≠ .host →
        t.tag q.2.sp (q.2.addr / 64) = mkTag 5 s1.cur (s1.lgenOf s1.cur) tok) ∧
      (∀ sp gr x, sp ≠ .host → x = (s1.settle ac as).tag sp gr →
        (∀ q, ac.head? = some q → q.2.tagged = true → (q.2.sp, q.2.addr / 64) ≠ (sp, gr)) →
        t.tag sp gr =
          open Classical in
          if (∃ q ∈ s1.relGrans f, q.sp = sp ∧ q.lo ≤ gr ∧ gr < q.hi) ∧ tagCtx x = s1.cur ∧
            (effSt (s1.lgenOf s1.cur) x = 1 ∨ effSt (s1.lgenOf s1.cur) x = 3 ∨ effSt (s1.lgenOf s1.cur) x = 4 ∨
              effSt (s1.lgenOf s1.cur) x = 5) then mkTag 4 s1.cur (s1.lgenOf s1.cur) tok
          else x)

/-- R263 and R264: WHEN ACQ AND REL COMPLETE. Of a context with no copy under way, an ACQ or a REL of an aligned scratchpad flag
whose granule's tag is FREE or ATOMIC and whose bytes are good completes: the slot is done, an ACQ's value goes to D, a REL's
flag holds its value and the context its next token. -/
def Sys2Proof.Claims.AcquireAndReleaseComplete : Prop :=
  ∀ (s : State) (b v : Word) (as : List Nat) (cl : Nat), cl = clusterOf s.cur → s.copiesOf s.cur = [] →
    (∀ e ∈ s.myCore.board, e.gcid ≠ s.cur) → as.Nodup →
    (∀ a ∈ as, s.poisoned (.sp cl) a = false ∧ badTag (s.tag (.sp cl) (a / 64)) = false ∧
      (effSt (s.lgenOf s.cur) (s.tag (.sp cl) (a / 64)) = 0 ∨ effSt (s.lgenOf s.cur) (s.tag (.sp cl) (a / 64)) = 5)) →
    (∀ (f : FAcq) (n : Nat), n = (if f.w64 then 8 else 4) → f.sp = true → s.sAddrs true b f.off n = .ok (.sp cl, as) →
      (b + f.off.signExtend 64).toNat % n = 0 → Goes s f.c none [f.a] (dcnt (.x f.d)) s [b] →
      ∃ t, exec (.acq f) s = .next t ∧ t.me.todo = s.me.todo.tail ∧ t.me.st = s.me.st ∧
        t.me.pend = s.me.pend ++ (if f.d.val = 0 then [] else due s .lds (.x f.d.val (BitVec.ofNat 64
          (leNat (as.map (s.ownByte s.cur (.sp cl)))))))) ∧
    (∀ (f : FRel) (n : Nat), n = (if f.w64 then 8 else 4) → f.sp = true → s.sAddrs true b 0 n = .ok (.sp cl, as) →
      b.toNat % n = 0 → (∀ q ∈ s.relRanges f, q.1 + q.2 ≤ 2 ^ 64) → Goes s f.c none [f.a, f.b] (0, 0) s [b, v] →
      ∃ t, exec (.rel f) s = .next t ∧ t.me.todo = s.me.todo.tail ∧ t.me.st = s.me.st ∧ t.me.pend = s.me.pend ∧
        t.me.tok = (if s.me.tok + 1 = 4096 then 1 else s.me.tok + 1) ∧
        leNat (as.map (t.ownByte s.cur (.sp cl))) = v.toNat % 2 ^ (8 * n))

/-- R169 and R265: a FENCE with no copy of its streams under way leaves none of the context's writes in those streams to be
performed, where its scope is wider than the context; the context reads every byte as before, and nothing else changes. With
such a copy under way the slot waits. -/
def Sys2Proof.Claims.FencePerformsItsStreams : Prop :=
  ∀ (f : FFence) (s : State), s.me.guardOn f.c = true →
    ((s.copiesOf s.cur).any (fun c => f.mask.getLsbD c.gd.strm) = false →
      ∃ t, exec (.fence f) s = .next t ∧ wrote s t [] ∧ accessed s t id ∧
        (f.scp ≠ .context → ∀ w ∈ t.wbuf, w.gcid = s.cur → f.mask.getLsbD w.strm = false) ∧
        (∀ w ∈ t.wbuf, w ∈ s.wbuf) ∧ t.cores = s.cores) ∧
    ((s.copiesOf s.cur).any (fun c => f.mask.getLsbD c.gd.strm) = true →
      ∃ t, exec (.fence f) s = .next t ∧ t.me.todo = s.me.todo)

namespace Sys2Proof.Claims

/-- Address `x` of the current context is at fault for an access: it has no translation (PAGE), or one that does not permit the
access or leads where no such access goes (PROT). -/
def pageFault (s : State) (k : Acc) (x c : Nat) : Prop :=
  (s.xlate (coreOf s.cur) (s.partOf s.cur) x = none ∧ c = 0x0A) ∨
    ∃ l, s.xlate (coreOf s.cur) (s.partOf s.cur) x = some l ∧ c = 0x0B ∧
      (l.permits k = true → ∀ h, l.place s.me.view.priv x ≠ .ok h)

/-- THE PAGES OF A RANGE from `a` to `e` (R139): each found page translates an address of the range, in ascending order; where no
more than 16 were found and no address is at fault, every address of the range lies in one of them with the permission; a fault names the
granule of an address at fault, and every address of the range below it lies in a page found. -/
def PagesOf (s : State) (k : Acc) (a e : Nat) (r : Touched) : Prop :=
  (∀ l ∈ r.pages, ∃ x, a ≤ x ∧ x < e ∧ s.xlate (coreOf s.cur) (s.partOf s.cur) x = some l ∧ l.va ≤ x ∧ x < l.va + l.size) ∧
  (r.fault = none → r.pages.length ≤ 16 → ∀ x, a ≤ x → x < e → ∃ l ∈ r.pages, l.va ≤ x ∧ x < l.va + l.size ∧ l.permits k = true) ∧
  (∀ t, r.fault = some t → ∃ x c, a ≤ x ∧ x < e ∧ t = { cause := c, addr := BitVec.ofNat 64 (x / 64 * 64) } ∧ pageFault s k x c ∧
    ∀ y, a ≤ y → y < x → ∃ l ∈ r.pages, l.va ≤ y ∧ y < l.va + l.size ∧ l.permits k = true)

end Sys2Proof.Claims

/-- R138, R139, R261 and R262: TOUCH and TOUCHW, their pages found and no more than 16 pinned, pin every page of their range
for the 64 bundles that follow and change nothing else but what translations the core and the cluster hold; a range of length 0
pins nothing. More than 16 pages take ILLOP, as does a range that wraps; else the first page at fault traps: that the ILLOP comes
before a page at fault is the model's reading (log 38). PRF changes nothing. -/
def Sys2Proof.Claims.TouchPinsItsPages : Prop :=
  (∀ (f : FTouch) (s s1 : State) (b n : Word) (a e : Nat) (write : Bool) (i : Instr) (r : Touched),
    Goes s f.c none [f.a, f.b] (0, 0) s1 [b, n] → a = (b + f.off.signExtend 64).toNat → e = a + n.toNat →
    (write = false ∧ i = .touch f ∨ write = true ∧ i = .touchw f) →
    (e ≤ 2 ^ 64 → r = s1.touchPages (if write then .atomic else .load) e (2 ^ 52) a ⟨[], none⟩ →
      PagesOf s1 (if write then .atomic else .load) a e r ∧
      (pinCount (r.pages.foldl (addPin write) s1.me.pins) ≤ 16 → r.fault = none → ∃ t, exec i s = .next t ∧
        t = { s1 with freeN := s1.freeN + 1, ctxs := Tab.put s1.cur t.me s1.ctxs, cores := t.cores, clus := t.clus } ∧
        t.me = { s1.me with pins := t.me.pins, todo := s1.me.todo.tail } ∧
        (∀ k, t.core k = { s1.core k with tlb := (t.core k).tlb }) ∧
        (∀ k, t.clu k = { s1.clu k with tlb := (t.clu k).tlb }) ∧
        (∀ l ∈ r.pages, ∃ p ∈ t.me.pins, ∃ q ∈ r.pages, p.va = l.va ∧ q.va = l.va ∧ p.size = q.size ∧ p.leaf = some q ∧
          (write = true → p.write = true) ∧ p.left = 65 ∧ p.lost = false) ∧
        (∀ p ∈ s1.me.pins, (∀ l ∈ r.pages, l.va ≠ p.va) → p ∈ t.me.pins) ∧
        (∀ p ∈ t.me.pins, p ∈ s1.me.pins ∨ ∃ l ∈ r.pages, p.va = l.va) ∧
        (n = 0#64 → t.me.pins = s1.me.pins)) ∧
      (16 < pinCount (r.pages.foldl (addPin write) s1.me.pins) → exec i s = .next (s.takeTrap s.cur (trapOf cIllop))) ∧
      (∀ tr, pinCount (r.pages.foldl (addPin write) s1.me.pins) ≤ 16 → r.fault = some tr →
        exec i s = .next (s.takeTrap s.cur tr))) ∧
    (2 ^ 64 < e → exec i s = .next (s.takeTrap s.cur (trapOf cIllop)))) ∧
  (∀ (f : FPrf) (s s1 : State) (vs : List Word), Goes s f.c none [f.a, f.b] (0, 0) s1 vs →
    exec (.prf f) s = .next (done s1 []))

/-- R126, R127 and R272: SPALLOC takes the lowest region of its size, aligned to it and below the launch's SPSIZE, that meets
no region; D gets its offset, the region reads as zero with its tags FREE, and no byte outside it changes. With no such
region it gives all ones and changes nothing else. -/
def Sys2Proof.Claims.ScratchpadAllocation : Prop :=
  ∀ (f : FSpalloc) (s : State) (n : Nat) (l : Launch) (cl size : Nat), Ready s f.c (dcnt (.x f.d)) →
    s.launchOn (coreOf s.cur) = some (n, l) → cl = clusterOf s.cur → size = 2 ^ f.lsize.val →
    let isFree (o : Nat) : Prop := o % size = 0 ∧ o + size ≤ l.spsize ∧
      ∀ r ∈ (s.clu cl).regions, o + size ≤ r.off ∨ r.off + 2 ^ r.lsize ≤ o
    ((∀ o, ¬ isFree o) → exec (.spalloc f) s = .next (givesX s .lds f.d (BitVec.allOnes 64))) ∧
    (∀ o, isFree o → (∀ p, p < o → ¬ isFree p) → ∃ t, exec (.spalloc f) s = .next t ∧
      t = { s with freeN := s.freeN + 1, ctxs := Tab.put s.cur t.me s.ctxs, clus := Tab.put cl (t.clu cl) s.clus } ∧
      t.me = addPend (if f.d.val = 0 then [] else due s .lds (.x f.d.val (BitVec.ofNat 64 o)))
        { s.me with todo := s.me.todo.tail } ∧
      (t.clu cl).regions = (s.clu cl).regions ++ [⟨o, f.lsize.val, f.skew⟩] ∧
      (∀ a, o ≤ a → a < o + size → t.memByte (.sp cl) a = 0#8) ∧
      (∀ a, a < o ∨ o + size ≤ a → t.memByte (.sp cl) a = s.memByte (.sp cl) a) ∧
      (∀ g, o / 64 ≤ g → g < (o + size) / 64 → t.tag (.sp cl) g = 0#32))

/-- R273: SPFREE of a region of the cluster in which no handle is in use returns the region and sets LSIZE to 0 in every
handle that lay in it; an offset that is no region, and a region in use, take ILLOP. Registers and the bytes outside the
region that no write was pending for stay. -/
def Sys2Proof.Claims.ScratchpadFree : Prop :=
  ∀ (f : FSa) (s s1 : State) (v : Word) (cl : Nat), Goes s f.c none [f.a] (0, 0) s1 [v] → cl = clusterOf s1.cur →
    let lies (r : Region) (h : Handle) : Prop :=
      h.lsize ≠ 0 ∧ r.off ≤ h.offset ∧ h.offset + 2 ^ h.lsize ≤ r.off + 2 ^ r.lsize
    ((∀ r ∈ (s1.clu cl).regions, BitVec.ofNat 64 r.off ≠ v) →
      exec (.spfree f) s = .next (s.takeTrap s.cur (trapOf cIllop))) ∧
    (∀ r, (s1.clu cl).regions.find? (fun r => BitVec.ofNat 64 r.off == v) = some r →
      ((∃ g, g / 32 = cl ∧ ∃ h ∈ (s1.ctx g).h, lies r h.2 ∧ h.2.st ≠ .free) →
        exec (.spfree f) s = .next (s.takeTrap s.cur (trapOf cIllop))) ∧
      ((∀ g, g / 32 = cl → ∀ h ∈ (s1.ctx g).h, lies r h.2 → h.2.st = .free) → ∃ t, exec (.spfree f) s = .next t ∧
        (t.clu cl).regions = (s1.clu cl).regions.erase r ∧
        (∀ g, g / 32 = cl → ∀ h ∈ (t.ctx g).h, ¬ lies r h.2) ∧
        (∀ g, (t.ctx g).x = (s1.ctx g).x ∧ (t.ctx g).csr = (s1.ctx g).csr ∧ (t.ctx g).pend = (s1.ctx g).pend) ∧
        (∀ sp a, dataPlace sp a → (∀ w ∈ s1.wbuf, w.sp = sp → ¬ (w.addr ≤ a ∧ a < w.addr + w.bytes.length)) →
          (sp = .sp cl → a < r.off ∨ r.off + 2 ^ r.lsize ≤ a) → t.memByte sp a = s1.memByte sp a)))

/-- R19 and R271: MBOX puts its record, with the partition, stream, tag and number of its launch, at the end of its die's
Chimney and uses up the place its bundle had reserved, and changes nothing else; at a full Chimney the context blocks. -/
def Sys2Proof.Claims.ChimneyPush : Prop :=
  ∀ (f : FSab) (s s1 : State) (a b : Word), Goes s f.c none [f.a, f.b] (0, 0) s1 [a, b] →
    (s1.chimFull = true → exec (.mbox f) s = .next (s.block s.cur)) ∧
    (∀ n l, s1.chimFull = false → s1.launchOn (coreOf s1.cur) = some (n, l) →
      exec (.mbox f) s = .next { s1 with
        freeN := s1.freeN + 1
        ctxs := Tab.put s1.cur { s1.me with resv := s1.me.resv.erase .chimney, todo := s1.me.todo.tail } s1.ctxs
        dies := Tab.put (dieOf s1.cur) { s1.die (dieOf s1.cur) with
          chim := (s1.die (dieOf s1.cur)).chim ++ [⟨a, b, l.part, n, l.ltag, l.serial⟩] } s1.dies })

/-- R268 and R269: EC.INC raises each counter EB + k, k up to EN, by the number of its entries that name k, saturating at
2^32 − 1, and leaves every other counter; EC.SNAP gives the counters EB to EB + EN as 32-bit words and clears them, and
leaves every other. Neither changes anything else. -/
def Sys2Proof.Claims.RoutingCounters : Prop :=
  (∀ (f : FEc) (s : State) (cl : Nat) (v : VReg), Ready s f.c (0, 0) → s.checkV f.v 1 = none →
    s.readV f.v = ⟨v, false, false⟩ → cl = clusterOf s.cur →
    ∃ t, exec (.ecInc f) s = .next t ∧
      t = { s with freeN := s.freeN + 1, ctxs := Tab.put s.cur { s.me with todo := s.me.todo.tail } s.ctxs,
                   clus := Tab.put cl { s.clu cl with ec := (t.clu cl).ec } s.clus } ∧
      (∀ k, k ≤ f.en.val → (Tab.get 0 (f.eb.val + k) (t.clu cl).ec).toNat =
        min (2 ^ 32 - 1) ((Tab.get 0 (f.eb.val + k) (s.clu cl).ec).toNat +
          (List.range 256).countP (fun j => v.toNat / 2 ^ (16 * j) % 2 ^ 16 = k))) ∧
      (∀ j, j < f.eb.val ∨ f.eb.val + f.en.val < j → Tab.get 0 j (t.clu cl).ec = Tab.get 0 j (s.clu cl).ec)) ∧
  (∀ (f : FEc) (s : State) (cl regs : Nat), regs = (4 * (f.en.val + 1) + 511) / 512 → Ready s f.c (vcnt f.v regs) →
    s.checkV f.v regs = none → cl = clusterOf s.cur →
    ∃ t, exec (.ecSnap f) s = .next t ∧
      t = { s with freeN := s.freeN + 1, ctxs := Tab.put s.cur t.me s.ctxs,
                   clus := Tab.put cl { s.clu cl with ec := (t.clu cl).ec } s.clus } ∧
      t.me = addPend (runResults s .ldm f.v ((List.range regs).map (spanReg
        ((List.range (f.en.val + 1)).flatMap (fun k => natLe 4 (Tab.get 0 (f.eb.val + k) (s.clu cl).ec).toNat)))))
        { s.me with todo := s.me.todo.tail } ∧
      (∀ k, k ≤ f.en.val → Tab.get 0 (f.eb.val + k) (t.clu cl).ec = 0) ∧
      (∀ j, j < f.eb.val ∨ f.eb.val + f.en.val < j → Tab.get 0 j (t.clu cl).ec = Tab.get 0 j (s.clu cl).ec))

/-- R93 to R97 and R218: x0 reads 0, another x register and an entry of the result queue what they hold, a literal its value
sign-extended; an mq source takes the oldest entry that its bundle reserved, else the oldest that no bundle has reserved, out
of the queue. A push adds its
value at the newest end of queue N of the core that MQDST names, and finds no place in a queue that is full. -/
def Sys2Proof.Claims.ScalarSourcesAndQueues : Prop :=
  ∀ (s : State),
    (∀ (lit : Lit) (n : Fin 32), s.src lit (.x n) = some (s, if n.val = 0 then 0#64 else Tab.get 0 n.val s.me.x)) ∧
    (∀ (lit : Lit) (n : Fin 16), s.src lit (.q n) = some (s, s.me.q.getD n.val 0)) ∧
    (∀ v : BitVec 32, s.src (some v) .lit = some (s, BitVec.ofInt 64 v.toInt)) ∧
    (∀ (lit : Lit) (n : Fin 4) (e : MqEntry) (p q l : List MqEntry), l = Tab.get [] n.val s.myCore.mq →
      (l = p ++ e :: q → e.taken = some (s.cur % 4) → (∀ x ∈ p, x.taken ≠ some (s.cur % 4)) →
        s.src lit (.mq n) = some (s.modMyCore (fun k => { k with mq := Tab.put n.val (p ++ q) k.mq }), e.val)) ∧
      (l = p ++ e :: q → e.taken = none → (∀ x ∈ l, x.taken ≠ some (s.cur % 4)) → (∀ x ∈ p, x.taken ≠ none) →
        s.src lit (.mq n) = some (s.modMyCore (fun k => { k with mq := Tab.put n.val (p ++ q) k.mq }), e.val)) ∧
      ((∀ x ∈ l, x.taken ≠ some (s.cur % 4) ∧ x.taken ≠ none) → s.src lit (.mq n) = none)) ∧
    (∀ (n : Fin 4) (v : Word) (k : Nat),
      k = s.cur / 32 * 8 + s.me.view.mqdst.toNat / 2 ^ (3 * n.val) % 8 →
      (reservedPush s k n.val = 0 → (Tab.get [] n.val (s.core k).mq).length < 16 → ∃ t, s.pushMq n.val v = some t ∧
        t.core k = { s.core k with mq := Tab.put n.val (Tab.get [] n.val (s.core k).mq ++ [⟨v, none⟩]) (s.core k).mq } ∧
        t = { s with ctxs := Tab.put s.cur { s.me with resv := t.me.resv } s.ctxs,
                     cores := Tab.put k (t.core k) s.cores }) ∧
      (16 ≤ (Tab.get [] n.val (s.core k).mq).length → s.pushMq n.val v = none))

/-! ## Copies and handles (R121 to R124, R274 to R295, R437, R438) -/

namespace Sys2Proof.Claims

/-- A generator that a copy start names; none stands for a side that the copy does not have. -/
def genAt (s : State) : Option (Fin 16) → Gen
  | some n => s.gen n
  | none => Gen.zero

/-- An optional handle is `n`. -/
def named (o : Option (Fin 64)) (n : Nat) : Bool := o.any (fun h => h.val == n)

/-- A COPY START CAN GO AHEAD (R275 to R277, R123, R124): its channel is the context's and has a place and no error code,
its sides are the given ones, no generator has DIMS 7, the destination is no weight store, HD is FREE, HS is FULL. -/
def Startable (s : State) (ch : Fin 4) (gs gd gx : Option (Fin 16)) (hd hs : Option (Fin 64)) (ss ds xs : Side) : Prop :=
  s.me.st ≠ .trapped ∧ s.me.chmask.getLsbD ch.val = true ∧ s.startSide gs hs false = .ok ss ∧ s.startSide gd hd false = .ok ds ∧
    s.startSide gx none true = .ok xs ∧ (∀ g ∈ [gs, gd, gx], (genAt s g).attr.toNat / 2 ^ 13 % 8 ≠ 7) ∧
    s.chanFull ch.val = false ∧ (gd.isSome = true → (genAt s gd).attr.toNat % 4 ≠ 3) ∧
    (s.chan (coreOf s.cur) ch.val).err = 0#8 ∧
    (∀ n, hd = some n → (s.me.handle n.val).st = .free ∧ (s.me.handle n.val).err = 0#8) ∧
    (∀ n, hs = some n → (s.me.handle n.val).st = .full ∧ (s.me.handle n.val).err = 0#8)

/-- THE COPY OF `i` STARTS from `s` (with its sources taken): its channel has one more copy at its end, which holds the
generators, the operand, the sides and the translations as they are now and has moved nothing, and its ranges are on the core's
scoreboard (R136); HD is FILLING, HS is DRAINING, every other handle stays; the numbers of the next copy of the context and of the
device rise and the place reserved in the channel is used up. Nothing else changes: no register, flag, tag or byte of memory. -/
def Started (s0 s : State) (i : Instr) (ch : Fin 4) (gs gd gx : Option (Fin 16)) (sx : Word) (hd hs : Option (Fin 64))
    (ss ds xs : Side) : Prop :=
  ∃ t c, exec i s0 = .next t ∧
    t = { s with freeN := s.freeN + 1, ctxs := Tab.put s.cur t.me s.ctxs,
                 cores := Tab.put (coreOf s.cur) (t.core (coreOf s.cur)) s.cores, copyNo := s.copyNo + 1 } ∧
    (∃ q : Chan, q = ⟨(s.chan (coreOf s.cur) ch.val).copies ++ [c], 0⟩ ∧
      t.core (coreOf s.cur) = { s.myCore with
        ch := Tab.put ch.val q s.myCore.ch
        board := recordRange ⟨s.cur, false, true, c.srcRgs, [c.seq]⟩ (recordRange ⟨s.cur, true, false, c.dstRgs, [c.seq]⟩
          s.myCore.board) }) ∧
    t.me = { s.me with copySeq := s.me.copySeq + 1, resv := s.me.resv.erase (.chan ch.val), h := t.me.h,
                       todo := s.me.todo.tail } ∧
    (∀ n, t.me.handle n =
      if named hd n then { s.me.handle n with st := .filling, flt := false }
      else if named hs n then { s.me.handle n with st := .draining, mark := s.copyNo + 1 }
      else s.me.handle n) ∧
    c.op = i ∧ c.gcid = s.cur ∧ c.seq = s.me.copySeq ∧ c.part = s.partOf s.cur ∧ c.gs = genAt s gs ∧ c.gd = genAt s gd ∧
    c.gx = genAt s gx ∧ c.sx = sx ∧ c.sside = ss ∧ c.dside = ds ∧ c.xside = xs ∧ c.pos = 0 ∧ c.staging = [] ∧ c.stop = none ∧
    c.no = s.copyNo ∧ c.priv = s.me.view.priv ∧ c.aux = [] ∧ c.rows = [] ∧ c.marks = [] ∧ c.snap = [s.dram] ∧
    (∀ l ∈ c.held, l ∈ (s.core (coreOf s.cur)).tlb ∨ l ∈ (s.clu (coreOf s.cur / 8)).tlb)

/-- The number of elements of a nest (R276). -/
def elems (g : Gen) : Nat :=
  prod ((List.range (max 1 (g.attr.toNat / 2 ^ 13 % 8))).map (fun d => max 1 (g.dim d).cnt.toNat))

/-- The page layout of R287. -/
def pages (g : Gen) : Prop :=
  max 1 (g.attr.toNat / 2 ^ 13 % 8) = 1 ∧ g.d0.stp = 8#48 ∧ g.origin.toNat % 4096 = 0 ∧ elems g % 512 = 0

end Sys2Proof.Claims

/-- R275 to R277, R281, R282, R284, R286 to R288, R290 to R293 and R295: each copy start whose generators stand in the relation
that its rule asks for starts its copy. A COLL whose part of a collective has been aborted already starts none that stays: its handle
takes the code at once (a reading of R280 and R293, log 31). -/
def Obligations.CopyStartsFillTheirHandles : Prop :=
  ∀ (s s1 : State) (ss ds xs : Side),
    (∀ (f : FCpy) (gs gd : Gen), Goes s f.c none [] (0, 0) s1 [] → gs = s1.gen f.gs → gd = s1.gen f.gd →
      Startable s1 f.ch (some f.gs) (some f.gd) none f.hd f.hs ss ds xs →
      (elems gs = elems gd →
        Started s s1 (.cpy f) f.ch (some f.gs) (some f.gd) none 0 f.hd f.hs ss ds xs) ∧
      Started s s1 (.cpyxPack f) f.ch (some f.gs) (some f.gd) none 0 f.hd f.hs ss ds xs ∧
      Started s s1 (.cpyxUnpack f) f.ch (some f.gs) (some f.gd) none 0 f.hd f.hs ss ds xs ∧
      (pages gs → elems gd = elems gs / 512 →
        Started s s1 (.cpyf f) f.ch (some f.gs) (some f.gd) none 0 f.hd f.hs ss ds xs)) ∧
    (∀ (f : FCpyg) (v : Word) (gs gd gx : Gen), Goes s f.cp.c none [f.sx] (0, 0) s1 [v] →
      gs = s1.gen f.cp.gs → gd = s1.gen f.cp.gd → gx = s1.gen f.gx →
      Startable s1 f.cp.ch (some f.cp.gs) (some f.cp.gd) (some f.gx) f.cp.hd f.cp.hs ss ds xs →
      gs.attr.toNat / 2 ^ 13 % 8 ≤ 5 →
      (f.blk = none → elems gd = elems gx * elems gs) →
      (∀ lb, f.blk = some lb → elems gd % elems gs = 0 ∧ elems gd / elems gs ≤ elems gx * 2 ^ lb.val) →
      Started s s1 (.cpyg f) f.cp.ch (some f.cp.gs) (some f.cp.gd) (some f.gx) v f.cp.hd f.cp.hs ss ds xs) ∧
    (∀ (f : FCpyx) (gs gd gx : Gen), Goes s f.cp.c none [] (0, 0) s1 [] →
      gs = s1.gen f.cp.gs → gd = s1.gen f.cp.gd → gx = s1.gen f.gx →
      Startable s1 f.cp.ch (some f.cp.gs) (some f.cp.gd) (some f.gx) f.cp.hd f.cp.hs ss ds xs →
      (gd.attr.toNat / 2 ^ 13 % 8 ≤ 5 → elems gs = elems gx * elems gd →
        Started s s1 (.cpys f) f.cp.ch (some f.cp.gs) (some f.cp.gd) (some f.gx) 0 f.cp.hd f.cp.hs ss ds xs) ∧
      (pages gs → pages gd → elems gs = elems gd → gd.attr.toNat % 4 = 0 → gx.attr.toNat % 4 ≤ 1 →
        max 1 (gx.attr.toNat / 2 ^ 13 % 8) = 1 → gx.d0.stp = 32#48 → 4 ≤ elems gx → (∃ k, elems gx = 2 ^ k) →
        (∀ n, f.cp.hd = some n → (s1.me.handle n.val).lsize ≠ 0 ∧
          8 * (elems gs / 512) ≤ 2 ^ (s1.me.handle n.val).lsize) →
        Started s s1 (.cpyd f) f.cp.ch (some f.cp.gs) (some f.cp.gd) (some f.gx) 0 f.cp.hd f.cp.hs ss ds xs)) ∧
    (∀ (f : FCpyr), Goes s f.cp.c none [] (0, 0) s1 [] →
      Startable s1 f.cp.ch (some f.cp.gs) (some f.cp.gd) none f.cp.hd f.cp.hs ss ds xs →
      elems (s1.gen f.cp.gs) = elems (s1.gen f.cp.gd) →
      Started s s1 (.cpyr f) f.cp.ch (some f.cp.gs) (some f.cp.gd) none 0 f.cp.hd f.cp.hs ss ds xs) ∧
    (∀ (f : FColl) (v : Word) (l : List Nat), Goes s f.cp.c none [f.sx] (0, 0) s1 [v] →
      Startable s1 f.cp.ch (some f.cp.gs) (some f.cp.gd) none f.cp.hd f.cp.hs ss ds xs →
      elems (s1.gen f.cp.gs) = elems (s1.gen f.cp.gd) →
      s1.group (s1.partOf s1.cur) (v.toNat % 256) (s1.lcid s1.cur) = some l →
      (∀ k m, s1.launchOn (coreOf s1.cur) = some (k, m) → ∀ p ∈ m.collGone, ¬ (p.1 = v.toNat % 256 ∧ p.2.1 = s1.lcid s1.cur)) →
      Started s s1 (.coll f) f.cp.ch (some f.cp.gs) (some f.cp.gd) none v f.cp.hd f.cp.hs ss ds xs) ∧
    (∀ (f : FColl) (v : Word) (l : List Nat) (k : Nat) (m : Launch) (p : Nat × Nat × BitVec 8) (hd : Fin 64),
      Goes s f.cp.c none [f.sx] (0, 0) s1 [v] → Startable s1 f.cp.ch (some f.cp.gs) (some f.cp.gd) none f.cp.hd f.cp.hs ss ds xs →
      elems (s1.gen f.cp.gs) = elems (s1.gen f.cp.gd) → s1.group (s1.partOf s1.cur) (v.toNat % 256) (s1.lcid s1.cur) = some l →
      s1.launchOn (coreOf s1.cur) = some (k, m) → p.1 = v.toNat % 256 → p.2.1 = s1.lcid s1.cur →
      m.collGone.find? (fun q => q.1 == p.1 && q.2.1 == p.2.1) = some p → (∀ c ∈ s1.copiesOf s1.cur, c.seq < s1.me.copySeq) →
      f.cp.hd = some hd → ∃ t, exec (.coll f) s = .next t ∧ t.me.todo = s.me.todo.tail ∧
        (t.me.handle hd.val).st = .free ∧ (t.me.handle hd.val).err = p.2.2 ∧
        (t.chan (coreOf s1.cur) f.cp.ch.val).copies = (s1.chan (coreOf s1.cur) f.cp.ch.val).copies ∧
        (t.launch k).map Launch.collGone = some (m.collGone.erase p)) ∧
    (∀ (f : FCpfill) (v : Word), Goes s f.c none [f.sx] (0, 0) s1 [v] →
      Startable s1 f.ch none (some f.gd) none f.hd none ss ds xs →
      Started s s1 (.cpfill f) f.ch none (some f.gd) none v f.hd none ss ds xs) ∧
    (∀ (f : FCpmark), Goes s f.c none [] (0, 0) s1 [] → Startable s1 f.ch none none none f.hd none ss ds xs →
      Started s s1 (.cpmark f) f.ch none none none 0 f.hd none ss ds xs)

/-- R121, R123, R124 and R294: the handle operations. In the state that it requires a handle takes its operation's effect and
nothing else changes; in another the context blocks; a handle with an error code raises COPYFAULT, which clears the code, in
every operation but HQ. HSET of an offset that its size does not divide, or of a range in no one region, takes REGRANGE. HQ
gives the fields of R121. -/
def Obligations.HandleOperations : Prop :=
  (∀ (f : FHset) (s s1 : State) (v : Word) (h : Handle), Goes s f.c none [f.sx] (0, 0) s1 [v] →
    h = s1.me.handle f.hd.val → v.toNat % 2 ^ 24 % 2 ^ f.lsize.val = 0 → ∀ r,
    s1.regionAt (clusterOf s1.cur) (v.toNat % 2 ^ 24) = some r →
    v.toNat % 2 ^ 24 + 2 ^ f.lsize.val ≤ r.off + 2 ^ r.lsize → h.err = 0#8 → s.me.st ≠ .trapped →
    (h.st = .free → exec (.hset f) s = .next (doneWith s1 (fun c =>
      { c with h := Tab.put f.hd.val { h with offset := v.toNat % 2 ^ 24, lsize := f.lsize.val } c.h }))) ∧
    (h.st ≠ .free → exec (.hset f) s = .next (s.block s.cur))) ∧
  (∀ (f : FHset) (s s1 : State) (v : Word), Goes s f.c none [f.sx] (0, 0) s1 [v] → s.me.st ≠ .trapped →
    (v.toNat % 2 ^ 24 % 2 ^ f.lsize.val ≠ 0 ∨ (∀ r, s1.regionAt (clusterOf s1.cur) (v.toNat % 2 ^ 24) = some r →
      r.off + 2 ^ r.lsize < v.toNat % 2 ^ 24 + 2 ^ f.lsize.val)) → (∀ p ∈ s.me.todo, p.1 < 8) → s.me.todo ≠ [] →
    exec (.hset f) s = .next (s.takeTrap s.cur (trapOf cRegrange))) ∧
  (∀ (f : FH) (s : State) (h : Handle), Ready s f.c (0, 0) → h = s.me.handle f.hd.val → s.me.st ≠ .trapped →
    (h.err = 0#8 → h.st = .full →
      exec (.hdrain f) s =
        .next (doneWith s (fun c => { c with h := Tab.put f.hd.val { h with st := .draining, mark := s.copyNo } c.h })) ∧
      exec (.hfree f) s = .next (doneWith s (fun c => { c with h := Tab.put f.hd.val { h with st := .free } c.h }))) ∧
    (h.err = 0#8 → h.st ≠ .full →
      exec (.hdrain f) s = .next (s.block s.cur) ∧ exec (.hfree f) s = .next (s.block s.cur)) ∧
    (h.err ≠ 0#8 → s.me.todo ≠ [] → (∀ p ∈ s.me.todo, p.1 < 8) →
      Copyfaults s (.hdrain f) f.hd h ∧ Copyfaults s (.hfree f) f.hd h)) ∧
  (∀ (f : FHset) (s s1 : State) (v : Word) (h : Handle), Goes s f.c none [f.sx] (0, 0) s1 [v] →
    h = s1.me.handle f.hd.val → v.toNat % 2 ^ 24 % 2 ^ f.lsize.val = 0 → ∀ r,
    s1.regionAt (clusterOf s1.cur) (v.toNat % 2 ^ 24) = some r →
    v.toNat % 2 ^ 24 + 2 ^ f.lsize.val ≤ r.off + 2 ^ r.lsize → h.err ≠ 0#8 → s.me.todo ≠ [] → (∀ p ∈ s.me.todo, p.1 < 8) →
    Copyfaults s (.hset f) f.hd h) ∧
  (∀ (f : FHwait) (s : State) (h : Handle), Ready s f.c (0, 0) → h = s.me.handle f.hd.val → h.err ≠ 0#8 → s.me.todo ≠ [] →
    (∀ p ∈ s.me.todo, p.1 < 8) → Copyfaults s (.hwait f) f.hd h) ∧
  (∀ (f : FHwait) (s : State), Ready s f.c (0, 0) → (s.me.handle f.hd.val).err = 0#8 → s.me.st ≠ .trapped →
    ((s.me.handle f.hd.val).st = f.st → exec (.hwait f) s = .next (done s [])) ∧
    ((s.me.handle f.hd.val).st ≠ f.st → exec (.hwait f) s = .next (s.block s.cur))) ∧
  (∀ (f : FHq) (s : State) (h : Handle), Ready s f.c (dcnt (.x f.d)) → h = s.me.handle f.hd.val →
    h.lsize < 32 → h.offset < 2 ^ 24 → ∃ w, exec (.hq f) s = .next (givesX s .handle f.d w) ∧
      w.toNat % 4 = (match h.st with | .free => 0 | .filling => 1 | .full => 2 | .draining => 3) ∧
      w.toNat / 4 % 2 ^ 22 = 0 ∧ w.toNat / 2 ^ 24 % 2 ^ 24 = h.offset ∧ w.toNat / 2 ^ 48 % 32 = h.lsize ∧
      w.getLsbD 53 = h.flt ∧ w.toNat / 2 ^ 54 % 4 = 0 ∧ w.toNat / 2 ^ 56 = h.err.toNat)

namespace Sys2Proof.Claims

/-- `c` heads channel `ch` of its core with `rest` behind it, and no other copy of the core has its number. -/
def Heads (s : State) (core ch : Nat) (c : Copy) (rest : List Copy) : Prop :=
  (s.chan core ch).copies = c :: rest ∧ coreOf c.gcid = core ∧
    (∀ d ∈ rest, ¬ (d.gcid = c.gcid ∧ d.seq = c.seq)) ∧
    ∀ k, k < 4 → k ≠ ch → ∀ d ∈ (s.chan core k).copies, ¬ (d.gcid = c.gcid ∧ d.seq = c.seq)

/-- `t` has the handles of context `g` changed by `f`, and of every context nothing else but the ranges it owns. -/
def OnlyHandles (s t : State) (g : Nat) (f : Nat → Handle → Handle) : Prop :=
  ∀ k, t.ctx k = { s.ctx k with h := (t.ctx k).h, owned := (t.ctx k).owned } ∧
    ∀ n, (t.ctx k).handle n = if k = g then f n ((s.ctx g).handle n) else (s.ctx k).handle n

/-- The handles of a context after a copy that has completed, in the state `t` after it: HD is FULL, and HS FREE unless other reads of its
region, which started before the handle became DRAINING, are under way (R122, R278). -/
def afterCopy (t : State) (c : Copy) (n : Nat) (h : Handle) : Handle :=
  let h := if named (copyHd c.op) n then { h with st := .full, flt := false } else h
  if named (copyHs c.op) n && h.st == .draining && !t.handleRead c.gcid n then { h with st := .free } else h

/-- A read that started before handle `n` of context `g` became DRAINING lies in its region and has not completed (R122): of a copy
not completed that names the handle as its source, or that started earlier on the device and reads a byte of the region; a handle with
LSIZE 0 has no region. -/
def ReadsLeft (s : State) (g n : Nat) : Prop :=
  ∃ q ∈ s.cores, ∃ ch ∈ q.2.ch, ∃ d ∈ ch.2.copies, d.finished = false ∧
    ((d.gcid = g ∧ (copyHs d.op).map Fin.val = some n) ∨
      (d.no < ((s.ctx g).handle n).mark ∧ ((s.ctx g).handle n).lsize ≠ 0 ∧ ∃ r ∈ d.srcRgs, r.asp = .sp (g / 32) ∧
        r.lo < ((s.ctx g).handle n).offset + 2 ^ ((s.ctx g).handle n).lsize ∧ ((s.ctx g).handle n).offset < r.hi))

/-- Channel `ch` of a core holds `cs`, and every other channel is as it was. -/
def OnlyChan (s t : State) (core ch : Nat) (cs : List Copy) : Prop :=
  (t.chan core ch).copies = cs ∧ (∀ k, k ≠ core → t.core k = s.core k) ∧
    ∀ k, k < 4 → k ≠ ch → t.chan core k = s.chan core k

end Sys2Proof.Claims

/-- R122 and R278: a CPY from memory or a scratchpad, at the head of its channel and held back by no other copy, moves its
next destination byte: the byte of its source, as its context reads it, is at its place, and every other byte is as it
was. When that was its last byte the copy retires, HD is FULL and HS is FREE, unless reads of its region by copies that started
earlier are under way; else it goes on from the next byte. -/
def Sys2Proof.Claims.CpyMovesItsBytes : Prop :=
  ∀ (s u : State) (core : Fin 256) (ch : Fin 4) (c : Copy) (rest : List Copy) (f : FCpy) (d b n : Nat)
    (more : List (Nat × BSrc)) (q h : Hit),
    Heads s core.val ch.val c rest → c.op = .cpy f → c.stop = none → c.staging = [] → s.copyWaits c = false →
    (∀ m, c.sside ≠ .mantel m) → c.plan[c.pos]? = some (d, (n, .at b) :: more) →
    u = s.perform (fun w => w.gcid == c.gcid && w.strm == c.gd.strm) →
    u.copyCheck c .load .read c.sside b = .ok q → dataPlace q.sp q.addr →
    (u.copyTouch c .read q).copyCheck c .store .write c.dside d = .ok h → dataPlace h.sp h.addr →
    ∃ t, exec (.copyComplete core ch 1) s = .next t ∧
      t.ownByte c.gcid h.sp h.addr = s.ownByte c.gcid q.sp q.addr ∧
      (∀ sp a, dataPlace sp a → (sp, a) ≠ (h.sp, h.addr) → t.ownByte c.gcid sp a = s.ownByte c.gcid sp a) ∧
      (c.pos + 1 = c.plan.length → OnlyChan s t core.val ch.val rest ∧
        OnlyHandles s t c.gcid (afterCopy t c)) ∧
      (c.pos + 1 < c.plan.length → OnlyChan s t core.val ch.val ({ c with pos := c.pos + 1 } :: rest) ∧
        OnlyHandles s t c.gcid (fun _ h => h))

namespace Sys2Proof.Claims

/-- Destination byte `b` of element `n`, and source byte `b` of source element `n`: zero outside the edge (R276). -/
def dByte (c : Copy) (n b : Nat) : Nat := c.dside.at (elemAt c.gd n + BitVec.ofNat 64 b)
def sByte (c : Copy) (n b : Nat) : BSrc :=
  if isOutside c.gs n then .zero else .at (c.sside.at (elemAt c.gs n + BitVec.ofNat 64 b))

/-- The bytes of a destination nest with elements of `e` bytes, in nest order: place, row, source; none outside the edge. -/
def nestBytes (c : Copy) (e : Nat) (row : Nat → Nat) (src : Nat → Nat → BSrc) : List (Nat × Nat × BSrc) :=
  (List.range (elems c.gd)).flatMap (fun n =>
    if isOutside c.gd n then [] else (List.range e).map (fun b => (dByte c n b, row n, src n b)))

/-- A PLAN FOR BYTES given in nest order (R278): the places are in ascending order, they are those of the bytes, and the candidates
for a place are the bytes given for it, the latest in nest order first. -/
def PlanFor (p : List Target) (ws : List (Nat × Nat × BSrc)) : Prop :=
  p.Pairwise (fun x y => x.1 < y.1) ∧ (∀ a, (∃ q ∈ p, q.1 = a) ↔ ∃ w ∈ ws, w.1 = a) ∧
    ∀ q ∈ p, q.2 = ((ws.filter (fun w => w.1 == q.1)).map (·.2)).reverse

/-- An index or table entry as a signed word (R282). -/
def entry (c : Copy) (j : Nat) : Int := ((Tab.get 0 j c.aux).setWidth 32).toInt

end Sys2Proof.Claims

/-- R276, R278, R281, R282, R284, R286, R287, R292 and R293: WHICH BYTE GOES WHERE. Byte b of destination element n comes, of a CPY, from byte b
of source element n; of a CPFILL from its operand; of a CPYG from byte b of element n mod Nr of the source nest, displaced for row
n / Nr; of a CPYX unpack from element n of the stream; of a CPYF from the fingerprint of page n; of a CPYR and a COLL from the
result for element n. Of a CPYS, source element n Nr + k goes to element k of the destination nest displaced by index n times STP5,
and a row with index −1 nowhere. The bytes are written in ascending order, the latest in nest order where several meet. -/
def Sys2Proof.Claims.CopyPlans : Prop :=
  ∀ c : Copy,
    (∀ f, c.op = .cpy f → PlanFor c.plan (nestBytes c (2 ^ f.esz.val) id (sByte c))) ∧
    (∀ f, c.op = .cpfill f → PlanFor c.plan (nestBytes c (2 ^ f.esz.val) id (fun _ b =>
      .lit (BitVec.ofNat 8 (c.sx.toNat / 2 ^ (8 * (b % 8))))))) ∧
    (∀ f, c.op = .cpyg f → PlanFor c.plan (nestBytes c (2 ^ f.cp.esz.val) (fun m => m / elems c.gs) (fun m b =>
      if isOutside c.gs (m % elems c.gs) then .zero
      else .row (m / elems c.gs) (elemAt c.gs (m % elems c.gs) + BitVec.ofNat 64 b)))) ∧
    (∀ f, c.op = .cpys f → PlanFor c.plan ((List.range (elems c.gx)).flatMap (fun n =>
      if entry c n = -1 then []
      else (List.range (elems c.gd)).flatMap (fun k =>
        if isOutside c.gd k then []
        else (List.range (2 ^ f.cp.esz.val)).map (fun b =>
          (c.dside.at (elemAt c.gd k + BitVec.ofInt 64 (entry c n) * c.gd.d5.stp.signExtend 64 + BitVec.ofNat 64 b), n,
            sByte c (n * elems c.gd + k) b)))))) ∧
    (∀ f, c.op = .cpyxUnpack f → PlanFor c.plan (nestBytes c (2 ^ f.esz.val) id .sbc)) ∧
    (∀ f, c.op = .cpyf f → PlanFor c.plan (nestBytes c 8 id .fp)) ∧
    (∀ f, c.op = .cpyr f → PlanFor c.plan (nestBytes c (2 ^ f.cp.esz.val) id .red)) ∧
    (∀ f, c.op = .coll f → PlanFor c.plan (nestBytes c (2 ^ f.cp.esz.val) id .red))

namespace Sys2Proof.Claims

/-- A copy reads the byte at `a` of a side: `t` is the state after, `v` the byte and whether it is poisoned. -/
def ReadsByte (s : State) (c : Copy) (sd : Side) (a : Nat) (t : State) (v : Byte × Bool) : Prop :=
  ∃ h, s.copyCheck c .load .read sd a = .ok h ∧
    (match sd with
      | .mantel d => t = s.refreshStall c.gcid d [a] ∧ v = (s.mantelByte d a, s.mantelBad d a)
      | .mem => t = s.copyTouch c .read h ∧ v = (t.memByte h.sp h.addr, t.poisoned h.sp h.addr)
      | .sp _ _ _ => t = s.copyTouch c .read h ∧ v = (t.memByte h.sp h.addr, t.poisoned h.sp h.addr))

/-- A copy reads bytes one after another; where there is no address it reads a zero and nothing is accessed. -/
def Reads (c : Copy) (sd : Side) : State → List (Option Nat) → State → List (Byte × Bool) → Prop
  | s, [], t, vs => t = s ∧ vs = []
  | s, none :: l, t, vs => ∃ r, vs = (0#8, false) :: r ∧ Reads c sd s l t r
  | s, some a :: l, t, vs => ∃ u v r, vs = v :: r ∧ ReadsByte s c sd a u v ∧ Reads c sd u l t r

/-- Consecutive bytes of a side. -/
def bytesOf (sd : Side) (a : Word) (n : Nat) : List (Option Nat) :=
  (List.range n).map (fun b => some (sd.at (a + BitVec.ofNat 64 b)))

/-- The bytes of source element `n`. -/
def sourceBytes (c : Copy) (n e : Nat) : List (Option Nat) :=
  if isOutside c.gs n then List.replicate e none else bytesOf c.sside (elemAt c.gs n) e

/-- The 4,096 bytes of source page `p` (R287). -/
def pageBytes (c : Copy) (p : Nat) : List (Option Nat) :=
  (List.range 4096).map (fun i => if isOutside c.gs (512 * p + i / 8) then none
    else some (c.sside.at (elemAt c.gs 0 + BitVec.ofNat 64 (4096 * p + i))))

/-- Entry `j` of the index list or table is known as `w`, or is read now: four bytes at its element, 0 outside the edge. -/
def Entry (s : State) (c : Copy) (j : Nat) (w : Word) (t : State) (d : Copy) : Prop :=
  (Tab.find j c.aux = some w ∧ t = s ∧ d = c) ∨
    (Tab.find j c.aux = none ∧ d = { c with aux := Tab.put j w c.aux } ∧
      ((isOutside c.gx j = true ∧ w = 0#64 ∧ t = s) ∨
        (isOutside c.gx j = false ∧ ∃ bs, Reads c c.xside s (bytesOf c.xside (elemAt c.gx j) 4) t bs ∧
          w = BitVec.ofNat 64 (leNat (bs.map (·.1))))))

/-- The number of 1 bits of a group's mask, and the mask as it counts: no bit at or beyond `n` (R285). -/
def ones (m : Nat) : Nat := (List.range 64).countP (fun i => m.testBit i)
def mask (c : Copy) (n g : Nat) : Nat := (Tab.get 0 g c.aux).toNat % 2 ^ min 64 (n - 64 * g)

/-- Where group `g` of a stream begins (R285). -/
def groupAt (c : Copy) (n e g : Nat) : Nat := ((List.range g).map (fun h => 8 + ones (mask c n h) * e)).sum

/-- The byte that the results known of elements before `n` put at an address of a CPYR's destination, the latest of them in nest
order (R278, R292). -/
def known (c : Copy) (e n a : Nat) : Option (Byte × Bool) :=
  ((List.range n).reverse.find? (fun m => !isOutside c.gd m && ((List.range e).map (dByte c m)).contains a)).map (fun m =>
    (BitVec.ofNat 8 ((Tab.get 0 m c.aux).toNat / 2 ^ (8 * ((List.range e).map (dByte c m)).idxOf a)), Tab.get false m c.rows))

end Sys2Proof.Claims

/-- R276, R282, R285, R287, R291 and R292: WHAT EACH SOURCE GIVES. A byte is read where it lies, through the checks of a copy. A row's index is
read once, from the entry of its list or table; the row is displaced by the index times STP5, and of index −1 it is zeros. An
element of a stream is found by the masks read before it, and is zeros where its bit is 0. A page's fingerprint is the CRC-64 of its
bytes. A CPYR's new element is its operation on the old element, after the results known of earlier elements that share its bytes,
and the source element, encoded; a poisoned byte of either poisons it. -/
def Sys2Proof.Claims.CopySources : Prop :=
  ∀ (s t : State) (c : Copy) (v : Byte × Bool),
    needByte ⟨s, c, none⟩ .zero = (⟨s, c, none⟩, some (0#8, false)) ∧
    (∀ b, needByte ⟨s, c, none⟩ (.lit b) = (⟨s, c, none⟩, some (b, false))) ∧
    (∀ a, ReadsByte s c c.sside a t v → needByte ⟨s, c, none⟩ (.at a) = (⟨t, c, none⟩, some v)) ∧
    (∀ (f : FCpyg) (n : Nat) (a w : Word) (u : State) (d : Copy) (x : Int), c.op = .cpyg f →
      Entry s c (match f.blk with | none => n | some lb => n / 2 ^ lb.val) w u d → x = (w.setWidth 32).toInt →
      (x = -1 → needByte ⟨s, c, none⟩ (.row n a) = (⟨u, d, none⟩, some (0#8, false))) ∧
      (∀ i : Int, x ≠ -1 → i = (match f.blk with | none => x | some lb => x * (2 ^ lb.val : Nat) + (n % 2 ^ lb.val : Nat)) →
        ReadsByte u d c.sside (c.sside.at (a + BitVec.ofInt 64 i * c.gs.d5.stp.signExtend 64)) t v →
        needByte ⟨s, c, none⟩ (.row n a) = (⟨t, d, none⟩, some v))) ∧
    (∀ (j : Nat) (w : Word) (d : Copy), Entry s c j w t d → needEntry ⟨s, c, none⟩ j = ⟨t, d, none⟩) ∧
    (∀ (f : FCpy) (n e el b : Nat), c.op = .cpyxUnpack f → n = elems c.gd → e = 2 ^ f.esz.val →
      (∀ h, h ≤ el / 64 → (Tab.find h c.aux).isSome = true) →
      ((mask c n (el / 64)).testBit (el % 64) = false →
        needByte ⟨s, c, none⟩ (.sbc el b) = (⟨s, c, none⟩, some (0#8, false))) ∧
      ((mask c n (el / 64)).testBit (el % 64) = true →
        ReadsByte s c c.sside (c.sside.at (elemAt c.gs 0 + BitVec.ofNat 64 (groupAt c n e (el / 64) + 8 +
          ones (mask c n (el / 64) % 2 ^ (el % 64)) * e + b))) t v →
        needByte ⟨s, c, none⟩ (.sbc el b) = (⟨t, c, none⟩, some v))) ∧
    (∀ (n e g : Nat) (bs : List (Byte × Bool)), (∀ h, h < g → (Tab.find h c.aux).isSome = true) → Tab.find g c.aux = none →
      Reads c c.sside s (bytesOf c.sside (elemAt c.gs 0 + BitVec.ofNat 64 (groupAt c n e g)) 8) t bs →
      needMasks ⟨s, c, none⟩ n e g = ⟨t, { c with aux := Tab.put g (BitVec.ofNat 64 (leNat (bs.map (·.1)))) c.aux }, none⟩) ∧
    (∀ (p b : Nat) (w : Word), Tab.find p c.aux = some w →
      needByte ⟨s, c, none⟩ (.fp p b) =
        (⟨s, c, none⟩, some (BitVec.ofNat 8 (w.toNat / 2 ^ (8 * b)), Tab.get false p c.rows))) ∧
    (∀ (p : Nat) (bs : List (Byte × Bool)), Tab.find p c.aux = none → Reads c c.sside s (pageBytes c p) t bs →
      needFp ⟨s, c, none⟩ p = ⟨t, { c with aux := Tab.put p (crc64 (bs.map (·.1))) c.aux,
                                           rows := Tab.put p (bs.any (·.2)) c.rows }, none⟩) ∧
    (∀ (f : FCpyr) (n b : Nat) (w : Word), c.op = .cpyr f → Tab.find n c.aux = some w →
      needByte ⟨s, c, none⟩ (.red n b) =
        (⟨s, c, none⟩, some (BitVec.ofNat 8 (w.toNat / 2 ^ (8 * b)), Tab.get false n c.rows))) ∧
    (∀ (f : FCpyr) (n e : Nat) (u : State) (src rd old : List (Byte × Bool)), c.op = .cpyr f → e = 2 ^ f.cp.esz.val →
      Tab.find n c.aux = none →
      (∀ m, m < n → isOutside c.gd m = false → (∃ i j, i < e ∧ j < e ∧ dByte c m i = dByte c n j) → (Tab.find m c.aux).isSome = true) →
      Reads c c.sside s (sourceBytes c n e) u src →
      Reads c c.dside u ((((List.range e).map (dByte c n)).filter (fun a => (known c e n a).isNone)).map some) t rd →
      old = joinOld (known c e n) ((List.range e).map (dByte c n)) rd →
      needRed f (n + 1) ⟨s, c, none⟩ n = ⟨t, { c with
        aux := Tab.put n (BitVec.ofNat 64 (redEncode f.fmt (redOp f.fmt f.op (redDecode f.fmt (leNat (old.map (·.1))))
          (redDecode f.fmt (leNat (src.map (·.1))))))) c.aux,
        rows := Tab.put n (src.any (·.2) || old.any (·.2)) c.rows }, none⟩)

/-- R84, R287 and R291: the CRC-64 of R287, bit by bit from its polynomial; and the reductions: sums, maxima and minima of FP32 values, each
rounded once, a NaN operand giving the canonical NaN, and of INT32 values, sums saturating; elements are decoded to FP32 and
results encoded with RNE. -/
def Sys2Proof.Claims.FingerprintsAndReductions : Prop :=
  (crc64 [] = 0#64 ∧ ∀ (l : List Byte) (b : Byte), crc64 (l ++ [b]) = (List.range 8).foldl (fun (r : Word) i =>
    if r.getLsbD 63 = b.getLsbD (7 - i) then r <<< 1 else (r <<< 1) ^^^ 0x42F0E1EBA9EA3693#64) (crc64 l)) ∧
  (∀ a b : Word32,
    redOp .i32 .add a b = BitVec.ofInt 32 (min (2 ^ 31 - 1) (max (-(2 ^ 31)) (a.toInt + b.toInt))) ∧
    redOp .i32 .max a b = (if a.toInt < b.toInt then b else a) ∧ redOp .i32 .min a b = (if b.toInt < a.toInt then b else a) ∧
    ∀ f : RedFmt, f ≠ .i32 →
      ((f32Val a).isNan = true ∨ (f32Val b).isNan = true → ∀ op, redOp f op a b = 0x7FC00000#32) ∧
      ((f32Val a).isNan = false → (f32Val b).isNan = false → redOp f .add a b = f32Bits ((f32Val a).add (f32Val b)) ∧
        redOp f .max a b = f32Bits ((f32Val a).max2 (f32Val b)) ∧ redOp f .min a b = f32Bits ((f32Val a).min2 (f32Val b)))) ∧
  (∀ n : Nat, redDecode .f32 n = BitVec.ofNat 32 n ∧ redDecode .i32 n = BitVec.ofNat 32 n ∧
    redDecode .bf16 n = f32Bits (decElem .bf16 n) ∧ redDecode .f16 n = f32Bits (decElem .fp16 n)) ∧
  (∀ w : Word32, redEncode .i32 w = w.toNat ∧ redEncode .f32 w = (encElem .fp32 false .rne (f32Val w)).1 ∧
    redEncode .bf16 w = (encElem .bf16 false .rne (f32Val w)).1 ∧ redEncode .f16 w = (encElem .fp16 false .rne (f32Val w)).1)

namespace Sys2Proof.Claims

/-- A copy whose bytes are planned: CPY, CPYG, CPYS, CPYX unpack, CPYF, CPYR and CPFILL. -/
def Planned (i : Instr) : Prop :=
  (∃ f, i = .cpy f) ∨ (∃ f, i = .cpyg f) ∨ (∃ f, i = .cpys f) ∨ (∃ f, i = .cpyxUnpack f) ∨ (∃ f, i = .cpyf f) ∨
    (∃ f, i = .cpyr f) ∨ ∃ f, i = .cpfill f

/-- The head copy of a channel runs: it is not stopped and no other copy holds it back; `u` is the state with its stream's writes of its
context performed. -/
def Runs (s u : State) (core ch : Nat) (c : Copy) (rest : List Copy) : Prop :=
  Heads s core ch c rest ∧ c.stop = none ∧ c.staging = [] ∧ s.copyWaits c = false ∧
    u = s.perform (fun w => w.gcid == c.gcid && w.strm == c.gd.strm)

/-- AFTER ITEM `c.pos` OF `len`: with its last the copy has left its channel, with HD FULL and HS FREE as R122 and R278 say; else it heads
its channel as `d`, at the next item. Of every context beside handles only the owned ranges and, with a Mantel source, the count of
its stalls have changed; other channels stay. -/
def MovedOn (s t : State) (core ch : Nat) (c d : Copy) (rest : List Copy) (len : Nat) : Prop :=
  (∀ k, t.ctx k = { s.ctx k with h := (t.ctx k).h, owned := (t.ctx k).owned,
                                 csr := { (s.ctx k).csr with wsstl := (t.ctx k).csr.wsstl } } ∧
    ((∀ m, c.sside ≠ .mantel m) → t.ctx k = { s.ctx k with h := (t.ctx k).h, owned := (t.ctx k).owned }) ∧
    ∀ n, (t.ctx k).handle n = if k = c.gcid ∧ c.pos + 1 = len then afterCopy t c n ((s.ctx k).handle n) else (s.ctx k).handle n) ∧
  OnlyChan s t core ch (if c.pos + 1 = len then rest else { d with pos := c.pos + 1 } :: rest)

/-- Every byte of memory that holds data, but those at `except`, is as context `g` reads it what it was. -/
def SameBytes (s t : State) (g : Nat) (except : List (Space × Nat)) : Prop :=
  ∀ sp a, dataPlace sp a → (sp, a) ∉ except → t.ownByte g sp a = s.ownByte g sp a

end Sys2Proof.Claims

/-- R278, R279, R283 and R284: A PLANNED COPY MOVES ITS NEXT BYTE. A CPYS has first read its list. The byte's row passes its check, if the CPYG
checks; the source gives the byte `v`, which is then at its place with its poison, and every other byte is what it was. A row that
fails its check is not written: the launch's stale count rises once for it, and the byte is left to an earlier row of the nest, or to
none. With the last byte the copy retires. A CPMARK moves nothing and retires (R295). -/
def Sys2Proof.Claims.PlannedCopiesMove : Prop :=
  (∀ (s u s0 s1 s2 : State) (core : Fin 256) (ch : Fin 4) (c c0 c1 c2 : Copy) (rest : List Copy) (d n : Nat) (src : BSrc)
      (more : List (Nat × BSrc)), Planned c.op → Runs s u core.val ch.val c rest →
    ((∃ f, c.op = .cpys f) → (List.range (elems c.gx)).foldl needEntry ⟨u, c, none⟩ = ⟨s0, c0, none⟩) →
    ((∀ f, c.op ≠ .cpys f) → s0 = u ∧ c0 = c) → c0.plan[c.pos]? = some (d, (n, src) :: more) →
    rowCheck ⟨s0, c0, none⟩ n = ⟨s1, c1, none⟩ →
    ((c.checks = true → Tab.get true n c1.rows = true) → ∀ v h, needByte ⟨s1, c1, none⟩ src = (⟨s2, c2, none⟩, some v) →
      s2.copyCheck c2 .store .write c.dside d = .ok h → dataPlace h.sp h.addr →
      ∃ t, exec (.copyComplete core ch 1) s = .next t ∧ t.ownByte c.gcid h.sp h.addr = v.1 ∧ t.poisoned h.sp h.addr = v.2 ∧
        SameBytes s t c.gcid [(h.sp, h.addr)] ∧ MovedOn s t core.val ch.val c c2 rest c0.plan.length) ∧
    (c.checks = true → Tab.get true n c1.rows = false → more = [] →
      ∃ t, exec (.copyComplete core ch 1) s = .next t ∧ SameBytes s t c.gcid [] ∧
        MovedOn s t core.val ch.val c c1 rest c0.plan.length)) ∧
  (∀ (s : State) (c : Copy) (n : Nat), (c.checks = true ↔ (∃ f, c.op = .cpyg f) ∧ c.sx.getLsbD 16 = true) ∧
    ((c.checks = false ∨ (Tab.find n c.rows).isSome = true) → rowCheck ⟨s, c, none⟩ n = ⟨s, c, none⟩) ∧
    (∀ k l r, c.checks = true → Tab.find n c.rows = none → s.launchOn (coreOf c.gcid) = some (k, l) → r = l.slot (c.sx.toNat % 256) →
      (r.act = true ∧ r.inc.toNat = c.sx.toNat / 256 % 256 →
        rowCheck ⟨s, c, none⟩ n = ⟨s, { c with rows := Tab.put n true c.rows }, none⟩) ∧
      (¬ (r.act = true ∧ r.inc.toNat = c.sx.toNat / 256 % 256) → rowCheck ⟨s, c, none⟩ n =
        ⟨s.setLaunch k { l with stale := min (l.stale + 1) (2 ^ 32 - 1) }, { c with rows := Tab.put n false c.rows }, none⟩))) ∧
  (∀ (s u : State) (core : Fin 256) (ch : Fin 4) (c : Copy) (rest : List Copy) (f : FCpmark) (n : Nat), c.op = .cpmark f →
    Runs s u core.val ch.val c rest → c.pos = 0 →
    ∃ t, exec (.copyComplete core ch n) s = .next t ∧ SameBytes s t c.gcid [] ∧ MovedOn s t core.val ch.val c c rest 1)

namespace Sys2Proof.Claims

/-- The items of an SBC stream of `n` elements of `e` bytes, in order (R285). -/
def streamItems (n e : Nat) : List PItem :=
  (List.range ((n + 63) / 64)).flatMap (fun g => (List.range 8).map (fun k => PItem.mask g k) ++
    (List.range (min 64 (n - 64 * g))).flatMap (fun i => (List.range e).map (fun b => PItem.elem (64 * g + i) b)))

/-- An element is present: a byte of it is not zero. -/
def present (c : Copy) (e n : Nat) : Bool := (List.range e).any (fun b => decide ((Tab.get 0 (n * e + b) c.aux).toNat % 256 ≠ 0))

/-- An item is written: a mask byte, or a byte of a present element. -/
def itemWritten (c : Copy) (e : Nat) : PItem → Bool
  | .mask _ _ => true
  | .elem n _ => present c e n

end Sys2Proof.Claims

/-- R285 and R286: A CPYX PACK WRITES ITS NEXT ITEM. Its elements are read, zeros outside the edge; a mask byte has a 1 for each of its eight
elements that is present, and a byte of a present element follows at the next place of the stream; of an element that is not
present nothing is written. With the last item the copy retires. -/
def Sys2Proof.Claims.PackedCopiesMove : Prop :=
  (∀ (s t : State) (c : Copy) (n e : Nat) (bs : List (Byte × Bool)), (∀ b, b < e → Tab.find (n * e + b) c.aux = none) →
    Reads c c.sside s (sourceBytes c n e) t bs → ∃ aux, needElem e ⟨s, c, none⟩ n = ⟨t, { c with aux := aux }, none⟩ ∧
      (∀ b, b < e → Tab.find (n * e + b) aux = some (BitVec.ofNat 64 ((bs.getD b (0#8, false)).1.toNat +
        (if (bs.getD b (0#8, false)).2 then 256 else 0)))) ∧
      ∀ k, (k < n * e ∨ n * e + e ≤ k) → Tab.find k aux = Tab.find k c.aux) ∧
  (∀ (s u : State) (core : Fin 256) (ch : Fin 4) (c : Copy) (rest : List Copy) (f : FCpy) (n e o : Nat) (it : PItem),
    c.op = .cpyxPack f → Runs s u core.val ch.val c rest → n = elems c.gs → e = 2 ^ f.esz.val →
    (streamItems n e)[c.pos]? = some it → o = ((streamItems n e).take c.pos).countP (itemWritten c e) →
    (∀ g k, it = .mask g k → ∀ i b, i < 8 → 64 * g + 8 * k + i < n → b < e →
      (Tab.find ((64 * g + 8 * k + i) * e + b) c.aux).isSome = true) →
    (itemWritten c e it = false → ∃ t, exec (.copyComplete core ch 1) s = .next t ∧ SameBytes s t c.gcid [] ∧
      MovedOn s t core.val ch.val c c rest (streamItems n e).length) ∧
    (∀ h, itemWritten c e it = true → u.copyCheck c .store .write c.dside (c.dside.at (elemAt c.gd 0 + BitVec.ofNat 64 o)) = .ok h →
      dataPlace h.sp h.addr → ∃ t, exec (.copyComplete core ch 1) s = .next t ∧
        (∀ g k, it = .mask g k → t.ownByte c.gcid h.sp h.addr = BitVec.ofNat 8 (((List.range 8).map (fun i =>
          if 64 * g + 8 * k + i < n ∧ present c e (64 * g + 8 * k + i) = true then 2 ^ i else 0)).sum) ∧
          t.poisoned h.sp h.addr = false) ∧
        (∀ i b, it = .elem i b → t.ownByte c.gcid h.sp h.addr = BitVec.ofNat 8 (Tab.get 0 (i * e + b) c.aux).toNat ∧
          t.poisoned h.sp h.addr = (Tab.get 0 (i * e + b) c.aux).getLsbD 8) ∧
        SameBytes s t c.gcid [(h.sp, h.addr)] ∧ MovedOn s t core.val ch.val c c rest (streamItems n e).length))

namespace Sys2Proof.Claims

/-- A field of a table entry's bytes: lowest bit and width (R288). -/
def entryField (b : List Byte) (lo n : Nat) : Nat := leNat b / 2 ^ lo % 2 ^ n
def entryFrame (b : List Byte) : Nat := entryField b 76 40 * 4096

/-- An entry is valid with fingerprint `fp`. -/
def Matches (fp : Nat) (b : List Byte) : Prop := entryField b 64 1 = 1 ∧ entryField b 0 64 = fp

/-- A translation makes a destination page eligible (R289): of 4 KiB, writable, and granting deduplication. -/
def Eligible (l : Option Leaf) : Prop := ∃ q, l = some q ∧ q.size = 4096 ∧ q.w = true ∧ q.dd = true

/-- THE PROBE of the four entries from `fp` on, as one atomic-class access (R289): `hits` are the places of their bytes, none outside the
edge, and `ents` the bytes, in the state `t` after. -/
def Probed (s : State) (c : Copy) (fp : Nat) (t : State) (ents : List (List Byte)) (hits : List (List Hit)) : Prop :=
  hits.length = 4 ∧ (∀ j, j < 4 → ∀ l, hits[j]? = some l →
    (isOutside c.gx ((fp + j) % elems c.gx) = true → l = []) ∧
    (isOutside c.gx ((fp + j) % elems c.gx) = false → l.length = 32 ∧ ∀ b h, l[b]? = some h →
      s.copyCheck c .atomic .atomic c.xside (c.xside.at (elemAt c.gx ((fp + j) % elems c.gx) + BitVec.ofNat 64 b)) = .ok h)) ∧
  t = hits.flatten.foldl (fun u h => u.copyTouch c .atomic h) s ∧
  ents = hits.map (fun l => l.map (fun h => t.memByte h.sp h.addr))

/-- Bytes written one after another to addresses of a side, each with its poison. -/
def WritesAll (c : Copy) (sd : Side) : State → List (Nat × Byte × Bool) → State → Prop
  | s, [], t => t = s
  | s, (a, v) :: l, t => ∃ h u, s.copyCheck c .store .write sd a = .ok h ∧
      u = (let w := (s.copyTouch c .write h).setByte h.sp h.addr v.1
        if v.2 then w.poison h.sp h.addr else w) ∧ WritesAll c sd u l t

/-- Another invalidation of a copy's remaps is not complete. -/
def RemapOpen (s : State) (c : Copy) : Prop := ∃ i ∈ s.invals, i.copyOf = some (c.gcid, c.seq) ∧ i.done = false

/-- A copy in a list is replaced by `d`, of its number. -/
def replaced (d : Copy) (l : List Copy) : List Copy := l.map (fun q => if q.gcid == d.gcid && q.seq == d.seq then d else q)
def without (d : Copy) (l : List Copy) : List Copy := l.filter (fun q => !(q.gcid == d.gcid && q.seq == d.seq))

end Sys2Proof.Claims

/-- R278 and R288 to R290: A CPYD TREATS ITS NEXT PAGE. The source page is read and fingerprinted and four entries are probed. With an eligible
destination page and a valid entry of that fingerprint whose frame equals the page, the first such entry's count rises and the
destination page is mapped to its frame, W clear, under a device-scope invalidation, and no byte of it is written. Else the page is
written, and where it is eligible the first invalid entry takes the fingerprint and its frame with the count 1. The outcome, with the
frame, goes to HD's region. After the last page HD is FULL; the copy leaves its channel once its invalidations are complete. -/
def Sys2Proof.Claims.DedupPages : Prop :=
  (∀ (s t : State) (c : Copy) (fp : Nat) (ents : List (List Byte)) (hits : List (List Hit)), Probed s c fp t ents hits →
    probe ⟨s, c, none⟩ fp = .ok (t, ents, hits)) ∧
  (∀ (s u t : State) (c : Copy) (p fp va : Nat) (bs : List (Byte × Bool)) (ents : List (List Byte)) (hits : List (List Hit))
      (leaf : Option Leaf), c.staging = [] → Reads c c.sside s (pageBytes c p) u bs → fp = (crc64 (bs.map (·.1))).toNat →
    Probed u { c with staging := bs } fp t ents hits → va = (elemAt c.gd 0 + BitVec.ofNat 64 (4096 * p)).toNat →
    leaf = t.copyLeaf c .store va →
    let ent (j : Nat) : List Byte := ents.getD j []
    let hit (j : Nat) : Prop := Matches fp (ent j) ∧ t.memBytes .dram (entryFrame (ent j)) 4096 = bs.map (·.1)
    let out (v : Nat) (d : Copy) : Copy := { d with aux := Tab.put (dOut p) (BitVec.ofNat 64 (v + 2 ^ 60)) d.aux, staging := [] }
    (∀ j, j < 4 → Eligible leaf → hit j → (∀ i, i < j → ¬ hit i) → dPage ⟨s, c, none⟩ p =
      ⟨(t.putHits (((hits.getD j []).drop 16).take 8) (natLe 8 (entryField (ent j) 128 64 + 1))).remap c va (entryFrame (ent j)),
        out (entryFrame (ent j) + 1) c, none⟩) ∧
    (∀ (w : State) (d : Copy), (Eligible leaf → ∀ j, j < 4 → ¬ hit j) → dWrite ⟨t, { c with staging := bs }, none⟩ p bs = ⟨w, d, none⟩ →
      (∀ j q k, j < 4 → Eligible leaf → leaf = some q → entryField (ent j) 64 1 = 0 → (∀ i, i < j → entryField (ent i) 64 1 = 1) →
        k = (q.pa + (va - q.va)) / 4096 →
        ((∃ i, i < 4 ∧ Matches fp (ent i)) → dPage ⟨s, c, none⟩ p =
          ⟨w.putHits (hits.getD j []) (natLe 32 (fp + 2 ^ 64 + k * 2 ^ 76 + 2 ^ 128)), out (k * 4096 + 3) d, none⟩) ∧
        ((∀ i, i < 4 → ¬ Matches fp (ent i)) → dPage ⟨s, c, none⟩ p =
          ⟨w.putHits (hits.getD j []) (natLe 32 (fp + 2 ^ 64 + k * 2 ^ 76 + 2 ^ 128)), out (k * 4096) d, none⟩)) ∧
      (∀ q, leaf = some q → (¬ Eligible leaf ∨ ∀ i, i < 4 → entryField (ent i) 64 1 = 1) →
        dPage ⟨s, c, none⟩ p = ⟨w, out ((q.pa + (va - q.va)) / 4096 * 4096 + 2) d, none⟩))) ∧
  (∀ (s t : State) (c : Copy) (p : Nat) (bs : List (Byte × Bool)), Tab.get 0 (dPos p) c.aux = 0 →
    WritesAll c .mem s (((enumFrom 0 bs).filter (fun q => !isOutside c.gd (512 * p + q.1 / 8))).map (fun q =>
      ((elemAt c.gd 0 + BitVec.ofNat 64 (4096 * p) + BitVec.ofNat 64 q.1).toNat, q.2))) t →
    ∃ aux, dWrite ⟨s, c, none⟩ p bs = ⟨t, { c with aux := aux }, none⟩ ∧ ∀ k, k ≠ dPos p → Tab.find k aux = Tab.find k c.aux) ∧
  (∀ (s t : State) (c : Copy) (va frame pa : Nat), s.pteAddr c.part va = some pa → (∀ i, i < 8 → dataPlace .dram (pa + i)) →
    frame % 4096 = 0 → frame < 2 ^ 52 → t = s.remap c va frame →
    t.pte pa / 2 ^ 12 % 2 ^ 40 = frame / 4096 ∧ (t.pte pa).testBit 3 = false ∧
      (∀ i, i < 64 → i ≠ 3 → (i < 12 ∨ 52 ≤ i) → (t.pte pa).testBit i = (s.pte pa).testBit i) ∧
      (∀ sp a, (sp = .dram → a < pa ∨ pa + 8 ≤ a) → t.memByte sp a = s.memByte sp a) ∧
      t.invals = s.invals ++ [⟨s.invalNo, c.part, s.asidOf c.part, va, 4096,
        (List.range 256).filter (fun k => (s.part c.part).clmask.getLsbD (k / 8)), none, some (c.gcid, c.seq), false, false⟩]) ∧
  (∀ (s t : State) (c : Copy) (p : Nat),
    (c.grp = [] → dRecord ⟨s, c, none⟩ p = ⟨s, { c with pos := c.pos + 1 }, none⟩) ∧
    (∀ off l, c.grp = off :: l → Tab.get 0 (dRec p) c.aux = 0 →
      WritesAll c (.sp (clusterOf c.gcid) 0 0) s ((List.range 8).map (fun i =>
        (off + 8 * p + i, BitVec.ofNat 8 ((Tab.get 0 (dOut p) c.aux).toNat % 2 ^ 60 / 2 ^ (8 * i)), false))) t →
      ∃ aux, dRecord ⟨s, c, none⟩ p = ⟨t, { c with pos := c.pos + 1, aux := aux }, none⟩)) ∧
  (∀ (s u w w1 : State) (core : Fin 256) (ch : Fin 4) (c d d1 : Copy) (rest : List Copy) (f : FCpyx) (n : Nat), c.op = .cpyd f →
    Runs s u core.val ch.val c rest → n = elems c.gs / 512 → c.pos < n → Tab.find (dOut c.pos) c.aux = none →
    dPage ⟨u, c, none⟩ c.pos = ⟨w1, d1, none⟩ → dRecord ⟨w1, d1, none⟩ c.pos = ⟨w, d, none⟩ → Tab.get false 0 c.rows = false →
    d = { c with aux := d.aux, pos := c.pos + 1 } → ∃ t, exec (.copyComplete core ch 1) s = .next t ∧
      (∀ sp a, t.memByte sp a = w.memByte sp a) ∧ t.invals = w.invals ∧
      (c.pos + 1 < n → (t.chan core.val ch.val).copies = replaced d (w.chan core.val ch.val).copies) ∧
      (c.pos + 1 = n → (∀ h, copyHd c.op = some h → ((t.ctx c.gcid).handle h.val).st = .full) ∧
        (RemapOpen w c → ∃ e, e = { d with rows := Tab.put 0 true d.rows } ∧
          (t.chan core.val ch.val).copies = replaced e (w.chan core.val ch.val).copies) ∧
        (¬ RemapOpen w c → (t.chan core.val ch.val).copies = without d (w.chan core.val ch.val).copies)))

namespace Sys2Proof.Claims

/-- THE TREE OF R293: the value at rank `i` after `l` levels over `g` ranks. -/
def treeAt (op : Word32 → Word32 → Word32) (g : Nat) (val : Nat → Word32) : Nat → Nat → Word32
  | 0, i => val i
  | l + 1, i => if i + 2 ^ l < g then op (treeAt op g val l i) (treeAt op g val l (i + 2 ^ l)) else treeAt op g val l i

/-- The result of element `i` of a collective over the copies `cs` of its local ranks, in rank order (R293): of all ranks' values in the
tree, those of ranks on other devices being free values; poisoned where a local source byte is. -/
def collValue (f : FColl) (q : CollGroup) (cs : List Copy) (inst : Word) (i : Nat) : Word32 :=
  treeAt (redOp f.fmt f.op) q.gsize (fun r =>
    if q.rbase ≤ r ∧ r < q.rbase + cs.length then
      (match cs[r - q.rbase]? with
        | some c => BitVec.ofNat 32 (Tab.get 0 i c.aux).toNat
        | none => 0#32)
    else Config.collRank inst r i) 12 0

end Sys2Proof.Claims

/-- R291 and R293: A COLLECTIVE. Each participant reads and decodes its source; the elements that every local rank has read are combined in the
tree over the ranks, and every local rank takes the same results (values of other devices' ranks are free, log 13); a participant
writes its destination bytes, encoded, as their results have come, and retires with the last. -/
def Sys2Proof.Claims.CollectivesCombine : Prop :=
  (∀ (s t : State) (c : Copy) (f : RedFmt) (n e : Nat) (bs : List (Byte × Bool)), Tab.find n c.rows = none →
    Reads c c.sside s (sourceBytes c n e) t bs → collFetch f e ⟨s, c, none⟩ n = ⟨t, { c with
      aux := Tab.put n (BitVec.ofNat 64 (redDecode f (leNat (bs.map (·.1)))).toNat) c.aux,
      rows := Tab.put n (bs.any (·.2)) c.rows }, none⟩) ∧
  (∀ (f : FColl) (q : CollGroup) (cs : List Copy) (inst : Word) (i : Nat), 1 ≤ q.gsize → q.gsize ≤ 4096 →
    collResult f q cs inst i = (collValue f q cs inst i, cs.any (fun c => Tab.get false i c.rows))) ∧
  (∀ (s t : State) (f : FColl) (q : CollGroup) (cs : List Copy) (inst : Word) (n : Nat), 1 ≤ q.gsize → q.gsize ≤ 4096 →
    (∀ c ∈ cs, elems c.gs = n) → cs.Pairwise (fun a b => ¬ (a.gcid = b.gcid ∧ a.seq = b.seq)) → t = s.collCombine f q cs inst →
    (∀ sp a, t.memByte sp a = s.memByte sp a) ∧ (∀ g, t.ctx g = s.ctx g) ∧
    ∀ core ch, (t.chan core ch).copies.length = (s.chan core ch).copies.length ∧
      ∀ (k : Nat) (d : Copy), (s.chan core ch).copies[k]? = some d →
        ((∀ c ∈ cs, ¬ (coreOf c.gcid = core ∧ c.gcid = d.gcid ∧ c.seq = d.seq)) → (t.chan core ch).copies[k]? = some d) ∧
        (∀ c ∈ cs, coreOf c.gcid = core → c.gcid = d.gcid → c.seq = d.seq →
          ∃ e, (t.chan core ch).copies[k]? = some e ∧ e = { c with aux := e.aux } ∧
            (∀ i, i < 2 ^ 33 → Tab.find i e.aux = Tab.find i c.aux) ∧
            ∀ i, i < n → i < 2 ^ 33 →
              ((∀ b ∈ cs, (Tab.find i b.rows).isSome = true) → (∃ b ∈ cs, Tab.find (2 ^ 33 + i) b.aux = none) →
                Tab.find (2 ^ 33 + i) e.aux = some (BitVec.ofNat 64 ((collValue f q cs inst i).toNat +
                  (if cs.any (fun b => Tab.get false i b.rows) then 2 ^ 32 else 0)))) ∧
              ((∃ b ∈ cs, Tab.find i b.rows = none) → Tab.find (2 ^ 33 + i) e.aux = Tab.find (2 ^ 33 + i) c.aux))) ∧
  (∀ (s u : State) (core : Fin 256) (ch : Fin 4) (c : Copy) (rest : List Copy) (f : FColl) (d m n b : Nat)
      (more : List (Nat × BSrc)) (w : Word) (h : Hit), c.op = .coll f → Runs s u core.val ch.val c rest →
    (∀ i, i < elems c.gs ∨ i < elems c.gd → (Tab.find i c.rows).isSome = true) → c.plan[c.pos]? = some (d, (m, .red n b) :: more) →
    Tab.find (2 ^ 33 + n) c.aux = some w → u.copyCheck c .store .write c.dside d = .ok h → dataPlace h.sp h.addr →
    ∃ t, exec (.copyComplete core ch 1) s = .next t ∧
      t.ownByte c.gcid h.sp h.addr = BitVec.ofNat 8 (redEncode f.fmt (BitVec.ofNat 32 w.toNat) / 2 ^ (8 * b)) ∧
      t.poisoned h.sp h.addr = w.getLsbD 32 ∧ SameBytes s t c.gcid [(h.sp, h.addr)] ∧
      (c.pos + 1 = c.plan.length → (∀ i, i < elems c.gs → (Tab.find (2 ^ 33 + i) c.aux).isSome = true) →
        MovedOn s t core.val ch.val c c rest c.plan.length))

/-- R122, R276, R278, R279, R281 to R293 and R295: copies move their bytes. For every kind of copy: which source byte goes to which destination
byte, what each source gives and what a copy reads for it, the next byte, item or page moved and every other byte as it was, and
the copy's end, with HD FULL and HS FREE as R122 and R278 say. -/
def Obligations.CopiesMoveTheirBytesInOrder : Prop :=
  CpyMovesItsBytes ∧ CopyPlans ∧ CopySources ∧ FingerprintsAndReductions ∧ PlannedCopiesMove ∧ PackedCopiesMove ∧ DedupPages ∧
    CollectivesCombine

/-- R122, R279, R437 and R438: a CPY whose next byte cannot be read stops there, with FLT of HD and CPSTOP and CPFAD set and
every byte as it was; a resume clears V and FLT; an abort retires the copy with its code, 0 being written as 1, in HD, now
FREE, or else in the channel, and HS is FREE unless reads of its region that started earlier are under way; on a copy that is not
stopped both do nothing, nor while the record of its stop waits for room in the arbiter (the model's reading of R476, log 29). A
DRAINING handle whose region no copy reads that started before it was so becomes FREE. -/
def Obligations.CopiesStopResumeAndAbort : Prop :=
  (∀ (s u : State) (core : Fin 256) (ch : Fin 4) (c : Copy) (rest : List Copy) (f : FCpy) (d b n : Nat)
    (more : List (Nat × BSrc)) (st : Stop),
    Heads s core.val ch.val c rest → c.op = .cpy f → c.stop = none → c.staging = [] → s.copyWaits c = false →
    (∀ m, c.sside ≠ .mantel m) → c.plan[c.pos]? = some (d, (n, .at b) :: more) →
    u = s.perform (fun w => w.gcid == c.gcid && w.strm == c.gd.strm) →
    u.copyCheck c .load .read c.sside b = .error st →
    ∃ t, exec (.copyStop core ch) s = .next t ∧
      (t.chan core.val ch.val).copies = { c with stop := some st } :: rest ∧
      OnlyHandles s t c.gcid (fun n h => if named f.hd n then { h with flt := true } else h) ∧
      (∀ sp a, dataPlace sp a → t.ownByte c.gcid sp a = s.ownByte c.gcid sp a) ∧
      (t.cpstop core.val ch.val).getLsbD 63 = true ∧
      (t.cpstop core.val ch.val).toNat / 2 ^ 52 % 2 ^ 8 = st.cause % 2 ^ 8 ∧
      t.cpfad core.val ch.val = BitVec.ofNat 64 st.addr) ∧
  (∀ (s : State) (core : Fin 256) (ch : Fin 4) (c : Copy) (rest : List Copy) (err : BitVec 8),
    Heads s core.val ch.val c rest →
    (c.stop.isSome = true → 8 + ch.val ∉ (s.core core.val).trapQ →
      (∃ t, exec (.copyResume core ch) s = .next t ∧ OnlyChan s t core.val ch.val ({ c with stop := none, snap := c.snap ++ [s.dram] } :: rest) ∧
        OnlyHandles s t c.gcid (fun n h => if named (copyHd c.op) n then { h with flt := false } else h) ∧
        t = { s with ctxs := t.ctxs, cores := t.cores }) ∧
      (∃ t, exec (.copyAbort core ch err) s = .next t ∧ OnlyChan s t core.val ch.val rest ∧
        OnlyHandles s t c.gcid (fun n h =>
          let e := if err = 0#8 then 1#8 else err
          let h' : Handle := if named (copyHd c.op) n then { h with st := .free, flt := false, err := e } else h
          if named (copyHs c.op) n && h'.st == .draining && !t.handleRead c.gcid n then { h' with st := .free } else h') ∧
        (t.chan core.val ch.val).err =
          (if (copyHd c.op).isSome then (s.chan core.val ch.val).err else if err = 0#8 then 1#8 else err) ∧
        t = { s with ctxs := t.ctxs, cores := t.cores })) ∧
    ((c.stop = none ∨ 8 + ch.val ∈ (s.core core.val).trapQ) →
      exec (.copyResume core ch) s = .next s ∧ exec (.copyAbort core ch err) s = .next s)) ∧
  (∀ (s : State) (g n : Nat), s.handleRead g n = true ↔ ReadsLeft s g n) ∧
  (∀ (s : State) (g : Fin 1024) (n : Fin 64) (h : Handle), h = (s.ctx g.val).handle n.val →
    (h.st = .draining → s.handleRead g.val n.val = false → exec (.handleDrainComplete g n) s =
      .next (s.setCtx g.val { s.ctx g.val with h := Tab.put n.val { h with st := .free } (s.ctx g.val).h })) ∧
    ((h.st ≠ .draining ∨ s.handleRead g.val n.val = true) → exec (.handleDrainComplete g n) s = .next s))

/-! ## Matrix instructions, tiles and marks (R78 to R87, R109, R114, R196, R296 to R317) -/

namespace Sys2Proof.Claims

/-- A MATRIX INSTRUCTION CAN GO AHEAD with data operands `a` and `b` (R305): its names lie in their shares, no register read is
dead or poisoned, the operands share no bank group (R302), the Mantel banks are the partition's and the Mantel bytes not poisoned, and
the scratchpad bytes pass the checks of an access. -/
def MatrixReady (s : State) (c : Common) (acc : Fin 64) (a b : Opnd) (ac : Access) : Prop :=
  Ready s c (0, 1) ∧ acc.val < s.me.accs.count ∧
    (∀ o ∈ [a, b], o.range = true ∧ o.legal = true ∧ o.pois = false ∧ ∀ r ∈ o.regs, r.dead = false ∧ r.pois = false) ∧
    (∀ g ∈ bankGroups a.sp, g ∉ bankGroups b.sp) ∧
    (∀ o ∈ a.ws ++ b.ws, mantelGood s o) ∧
    Passes s .load .read false (.sp (clusterOf s.cur)) (a.sp ++ b.sp) ac

/-- The rows of an operand: its codes, from the bytes as the context reads them, decoded with their scale set; an element
outside the edge is a structural zero. -/
def rowsOf (s : State) (f : Fmt) (set k : Nat) (o : Opnd) (i : Nat) : List Item :=
  (decRows f set k (o.codes (fun x =>
    if o.ws.isEmpty then s.ownByte s.cur (.sp (clusterOf s.cur)) x else s.mantelByte (dieOf s.cur) x))).1.getD i []

/-- Word (i, j) of a tile. -/
def tileWord (t : Tile) (i j : Nat) : Word32 := BitVec.ofNat 32 (t.words.toNat / 2 ^ (32 * (32 * i + j)))

/-- The instruction completes from `s` with the words `f` in its tile, due at index `due`, U set and TAG `tag`. Besides the tile
only these change: NSTAT, in which no flag is cleared, WSSTL, and what a checked read changes. -/
def TileGets (s : State) (i : Instr) (acc : Fin 64) (strms : List Nat) (ac : Access) (due : Nat) (f : Nat → Nat → Word32) (tag : BitVec 7) :
    Prop :=
  ∃ u t fl w, exec i s = .next u ∧
    loaded s u strms ac (fun c => addPend [⟨due, s.me.idx, true, 0, .tile acc.val t⟩]
      { c with csr := { c.csr with nstat := c.csr.nstat ||| fl, wsstl := w } }) ∧
    (∀ i j, i < 32 → j < 32 → tileWord t i j = f i j) ∧ t.md = 0x80#8 ||| tag.setWidth 8

/-- The fold of R79 over the blocks of a row's products, none of a block standing for a structural zero. -/
def blockFold : List (List (Option Val)) → Option Val → Option Val
  | [], acc => acc
  | blk :: l, acc =>
    if blk.all Option.isNone then blockFold l acc
    else
      let p := rne32 (sumVals (blk.filterMap id))
      blockFold l (some (match acc with
        | none => p
        | some o => rne32 (o.add p)))

/-- An element of an FP32 tile (R55, R79 to R81, R83 to R85): the products of a row of A and a row of B combined with the old word,
which stands where there is no product, a NaN in its canonical form. -/
def fpWord (sr : Semiring) (a b : List Item) (old : Option Word32) : Word32 :=
  let ps := (a.zip b).map (fun q => itemProd sr q.1 q.2)
  let one (on : Bool) : Word32 := if on then 0x3F800000#32 else 0#32
  let got := ps.filterMap id
  match sr with
  | .orAnd => one (old.any (fun w => !(f32Val w).isZero) || got.any (fun v => !v.isZero))
  | _ =>
    if got.isEmpty then
      match old with
      | some w => if (f32Val w).isNan then 0x7FC00000#32 else w
      | none => identity sr
    else
      match (match sr with
        | .plusTimes => blockFold (blocks (ps.length / 32) ps) (old.map f32Val)
        | _ =>
          let best (a b : Val) : Val := if sr = .maxPlus then a.max2 b else a.min2 b
          (got.map rne32).foldl (fun acc p => some (match acc with
            | none => p
            | some o => best o p)) (old.map f32Val)) with
      | some v => f32Bits v
      | none => 0#32

/-- A signed 32-bit sum that saturates (R82). -/
def satAdd (x y : Int) : Int := min (2 ^ 31 - 1) (max (-(2 ^ 31)) (x + y))

/-- An element of an INT8 × INT8 instruction (R82 to R84): structural zeros give no product. -/
def intWord (sr : Semiring) (a b : List Item) (old : Option Word32) : Word32 :=
  let qs := (a.zip b).map (fun q =>
    match itemInt q.1, itemInt q.2 with
    | some x, some y => some (x, y)
    | _, _ => none)
  let got := qs.filterMap id
  let o := old.map BitVec.toInt
  match sr with
  | .plusTimes =>
    let sums := ((blocks (qs.length / 32) qs).filter (fun b => b.any Option.isSome)).map (fun b =>
      ((b.filterMap id).map (fun q => q.1 * q.2)).sum)
    BitVec.ofInt 32 ((sums.foldl (fun acc p => some (match acc with
      | none => p
      | some x => satAdd x p)) o).getD 0)
  | .maxPlus => BitVec.ofInt 32 ((got.map (fun q => q.1 + q.2)).foldl max (o.getD (-(2 ^ 31))))
  | .minPlus => BitVec.ofInt 32 ((got.map (fun q => q.1 + q.2)).foldl min (o.getD (2 ^ 31 - 1)))
  | .orAnd => if o.any (· ≠ 0) || got.any (fun q => q.1 ≠ 0 ∧ q.2 ≠ 0) then 1#32 else 0#32

/-- The old word of a tile as an instruction takes it: with G and U set and a TAG that differs from LSE, a finite word times
2^(LSE − TAG), rounded once (R87). -/
def oldWord (s : State) (g : Bool) (t : Tile) (i j : Nat) : Word32 :=
  let w := tileWord t i j
  if g = true ∧ t.md.getLsbD 7 = true ∧ t.md.setWidth 7 ≠ s.me.view.lse ∧ (f32Val w).isFin = true then
    f32Bits ((f32Val w).scale2 (s.me.view.lse.toInt - (t.md.setWidth 7).toInt))
  else w

/-- TAG after an instruction: LSE with G, else as it was. -/
def newTag (s : State) (g : Bool) (t : Tile) : BitVec 7 := if g then s.me.view.lse else t.md.setWidth 7

/-- When a tile is due: later by the occupancy where A is BX (R37, R298). -/
def tileAt (s : State) (bx : Bool) (f : Fmt) (k : Nat) : Nat :=
  s.me.idx + (if bx then (k + 95) / 96 * fmtWidth f + s.lat s.cur .mxb else s.lat s.cur .mxf)

/-- The scale sets are the context's and not poisoned (R62). -/
def setsOk (s : State) (ns : List Nat) : Prop := (∀ n ∈ ns, n < s.me.scs.count) ∧ s.scBad ns = false

end Sys2Proof.Claims

namespace Sys2Proof.Claims

/-- The index CAP(i) of a data-derived pattern, an i16 (R112, R114). -/
def capIndex (p : Pattern) (i : Nat) : Int := (p.cap.extractLsb' (16 * i) 16).toInt

/-- The value of a 16-bit coefficient in the format CFMT (R112, R114). -/
def coefOf (p : Pattern) (code : Nat) : Val := if p.desc.getLsbD 4 then fp16F.decode code else bf16F.decode code

/-- Node a is an ancestor of node b in `n` links (R120): each link goes from a valid node to the valid node that its PARENT names, 127
naming none. -/
def Chain (t : Tree) (a : Nat) : Nat → Nat → Prop
  | 0, b => a = b
  | n + 1, b => (t.node b).getLsbD 14 = true ∧ (t.node b).toNat % 2 ^ 7 ≠ 127 ∧ (t.node ((t.node b).toNat % 2 ^ 7)).getLsbD 14 = true ∧
      Chain t a n ((t.node b).toNat % 2 ^ 7)

end Sys2Proof.Claims

/-- R114, R115 and R120: the entry G(i, k) of a pattern. Every entry that R114 does not state, and each from the extent on, is a structural
zero; a kind-9 or kind-10 index outside its extent, and a kind-9 index that an earlier row has, give no entry in their row. -/
def Sys2Proof.Claims.PatternEntries : Prop :=
  ∀ (p : Pattern) (t : Tree) (n i k : Nat), i < 32 → k < n →
    let d := p.desc.toNat
    let kind := d % 2 ^ 4
    let off : Int := (p.desc.extractLsb' 8 8).toInt
    let klim := d / 2 ^ 16 % 2 ^ 10
    let rowb := d / 2 ^ 19 % 2 ^ 7
    let colb := d / 2 ^ 26 % 2 ^ 7
    let ext := if kind = 9 then 32 else if kind = 11 then min n (128 - colb) else if kind = 7 ∨ klim = 0 then n else klim
    let one (c : Prop) : Prop := (c → patItem p t n i k = .one) ∧ (¬ c → patItem p t n i k = .skip)
    let picks : Prop := (k : Int) = capIndex p i
    (ext ≤ k → patItem p t n i k = .skip) ∧
    (k < ext →
      (kind = 0 → one True) ∧ (kind = 1 → one ((k : Int) = i + off)) ∧ (kind = 2 → one ((k : Int) ≤ i + off)) ∧
      (kind = 3 → one ((k : Int) < i + off)) ∧ (kind = 4 → one ((k : Int) ≥ i + off)) ∧ (kind = 5 → one ((k : Int) > i + off)) ∧
      (kind = 6 → ∀ w : Nat, w = (if d / 2 ^ 26 % 2 ^ 10 = 0 then ext else d / 2 ^ 26 % 2 ^ 10) →
        one ((w : Int) ∣ (i + off - k) ∧ k < w)) ∧
      (kind = 7 → (∀ b, b < d / 2 ^ 5 % 2 ^ 3 → (k : Int) = i + off + b →
          patItem p t n i k = .v (coefOf p (d / 2 ^ (16 * b + 16) % 2 ^ 16))) ∧
        ((∀ b, b < d / 2 ^ 5 % 2 ^ 3 → (k : Int) ≠ i + off + (b : Nat)) → patItem p t n i k = .skip)) ∧
      (kind = 8 → ((k : Int) = i + off → patItem p t n i k = .v (coefOf p (p.cap.toNat / 2 ^ (16 * i) % 2 ^ 16))) ∧
        ((k : Int) ≠ i + off → patItem p t n i k = .skip)) ∧
      (kind = 9 → one (picks ∧ ∀ j, j < i → capIndex p j ≠ capIndex p i)) ∧ (kind = 10 → one picks) ∧
      (kind = 11 → one (rowb + i < 128 ∧ (t.node (rowb + i)).getLsbD 14 = true ∧ (t.node (colb + k)).getLsbD 14 = true ∧
        ∃ m, m ≤ 127 ∧ Chain t (colb + k) m (rowb + i))) ∧
      (12 ≤ kind → patItem p t n i k = .skip))

/-- R79 to R87, R297, R298, R306 and R307: MM combines the products of row i of A and row j of B into element (i, j) of its tile,
and MMZ starts from no element; the tile takes U, its TAG, and its words at the due index. R305: a Mantel operand with a byte in a bank that is not the partition's, or with a poisoned byte, traps with what its lowest granule
with a problem meets, where every check before it passes (log 16 on the order), and nothing of the operation happens. That a maximum or minimum with a NaN in the
old element is NaN is the model's choice (log 51). -/
def Obligations.MatrixProducts : Prop :=
  (∀ (f : FMm) (s : State) (k na nb : Nat) (a b : Opnd) (ac : Access) (old : Tile) (la lb : List Nat),
    k = min (depth f.af) (depth f.bf) → a = s.opnd f.a false f.af k f.t → b = s.opnd f.b true f.bf k false →
    na = setRegs f.af k → nb = setRegs f.bf k → la = setNames f.scr.val na → lb = setNames (f.scr.val + na) nb →
    f.a.kind ≠ .pat → f.b.kind ≠ .pat → MatrixReady s f.c f.acc a b ac → setsOk s (la ++ lb) → (f.t = true → transFmt f.af = true) → old = s.tileNow f.acc.val →
    let word (z : Bool) (i j : Nat) : Word32 :=
      let ra := rowsOf s f.af (s.scaleSet la) k a i
      let rb := rowsOf s f.bf (s.scaleSet lb) k b j
      let o := if z then none else some (oldWord s f.g old i j)
      if f.af = .int8 ∧ f.bf = .int8 then intWord f.sr ra rb o else fpWord f.sr ra rb o
    (s.tileNowBad f.acc.val = false →
      TileGets s (.mm f) f.acc (a.strms ++ b.strms) ac (tileAt s f.af.isBx f.af k) (word false) (newTag s f.g old)) ∧
    TileGets s (.mmz f) f.acc (a.strms ++ b.strms) ac (tileAt s f.af.isBx f.af k) (word true) (newTag s f.g old)) ∧
  (∀ (f : FMm) (s : State) (k : Nat) (a b : Opnd) (la lb : List Nat) (tr : Trap),
    k = min (depth f.af) (depth f.bf) → a = s.opnd f.a false f.af k f.t → b = s.opnd f.b true f.bf k false →
    la = setNames f.scr.val (setRegs f.af k) → lb = setNames (f.scr.val + setRegs f.af k) (setRegs f.bf k) →
    f.a.kind ≠ .pat → f.b.kind ≠ .pat → Ready s f.c (0, 1) → f.acc.val < s.me.accs.count →
    (∀ o ∈ [a, b], o.range = true ∧ o.legal = true ∧ ∀ r ∈ o.regs, r.dead = false) → (∀ g ∈ bankGroups a.sp, g ∉ bankGroups b.sp) →
    (∀ n ∈ la ++ lb, n < s.me.scs.count) → (f.t = true → transFmt f.af = true) →
    s.rangeWait s.cur false (.sp (clusterOf s.cur)) (a.sp ++ b.sp) = false → MantelStops s (a.ws ++ b.ws) tr →
    exec (.mm f) s = .next (s.takeTrap s.cur tr) ∧ exec (.mmz f) s = .next (s.takeTrap s.cur tr))

/-- R85, R86, R308 to R312: MMP takes the entries of its pattern for the rows of one operand, MMD the vector D as a diagonal, MMT
keeps A where its pattern holds an exact 1 and takes the identity elsewhere, OUTER adds the products of two vectors, each
product exact and each element rounded once. -/
def Obligations.PatternAndVectorProducts : Prop :=
  (∀ (f : FMm) (s : State) (pa : Bool) (k n : Nat) (df : Fmt) (o : Opnd) (ac : Access) (old : Tile) (ns : List Nat)
      (p : Pattern), pa = (f.a.kind == .pat) → df = (if pa then f.bf else f.af) → k = depth df →
    n = (if pa then f.a.idx.val else f.b.idx.val) → p = (s.pattern n).limit k →
    o = (if pa then s.opnd f.b true f.bf k false else s.opnd f.a false f.af k f.t) → ns = setNames f.scr.val (setRegs df k) →
    (pa = true → f.b.kind ≠ .pat) → MatrixReady s f.c f.acc o Opnd.none ac → setsOk s ns → s.patOk n = true →
    (pa = false → f.t = true → transFmt f.af = true) → (s.me.view.strict = true → patAnyVoid p k = false) →
    s.tileNowBad f.acc.val = false → old = s.tileNow f.acc.val →
    TileGets s (.mmp f) f.acc o.strms ac (tileAt s (!pa && f.af.isBx) f.af k) (fun i j =>
      let g (r : Nat) : List Item := (List.range k).map (patItem p (s.treeSeen (patTt p.desc)) k r)
      let d (r : Nat) : List Item := rowsOf s df (s.scaleSet ns) k o r
      fpWord f.sr (if pa then g i else d i) (if pa then d j else g j) (some (oldWord s f.g old i j)))
      (newTag s f.g old)) ∧
  (∀ (f : FMmd) (s : State) (k : Nat) (a : Opnd) (ac : Access) (old : Tile) (ns : List Nat) (d : VReg),
    k = depth f.af → a = s.opnd f.a false f.af k f.t → ns = setNames f.scr.val (setRegs f.af k) →
    f.a.kind ≠ .pat → MatrixReady s f.c f.acc a Opnd.none ac → setsOk s ns → s.checkV f.d 1 = none → s.readV f.d = ⟨d, false, false⟩ →
    (f.t = true → transFmt f.af = true) → s.tileNowBad f.acc.val = false → old = s.tileNow f.acc.val →
    TileGets s (.mmd f) f.acc a.strms ac (tileAt s f.af.isBx f.af k) (fun i j =>
      fpWord f.sr (rowsOf s f.af (s.scaleSet ns) k a i)
        ((List.range k).map (fun x => if x = j then .v (decElem f.bf (d.toNat / 2 ^ (fmtWidth f.bf * j) % 2 ^ fmtWidth f.bf))
          else .skip)) (some (oldWord s f.g old i j))) (newTag s f.g old)) ∧
  (∀ (f : FMmt) (s : State) (a : Opnd) (ac : Access) (p : Pattern), a = s.opnd f.a false f.af 32 f.t →
    p = s.pattern f.p.val → f.a.kind ≠ .pat → MatrixReady s f.c f.acc a Opnd.none ac → s.patOk f.p.val = true →
    patKind p.desc ≠ 7 → patKind p.desc ≠ 8 → (f.t = true → transFmt f.af = true) →
    (s.me.view.strict = true → patAnyVoid p 32 = false) →
    TileGets s (.mmt f) f.acc a.strms ac (tileAt s false f.af 32) (fun i j =>
      match patItem p (s.treeSeen (patTt p.desc)) 32 i j, (rowsOf s f.af 0 32 a i).getD j .skip with
      | .one, .v x => if f.sr = .orAnd then (if x.isZero then 0#32 else 0x3F800000#32) else f32Bits x
      | _, _ => identity f.sr) (newTag s f.g (s.tileNow f.acc.val))) ∧
  (∀ (f : FOuter) (s : State) (ac : Access) (va vb : VReg) (old : Tile), MatrixReady s f.c f.acc Opnd.none Opnd.none ac →
    s.checkV f.va 1 = none → s.checkV f.vb 1 = none → s.readV f.va = ⟨va, false, false⟩ → s.readV f.vb = ⟨vb, false, false⟩ →
    s.tileNowBad f.acc.val = false → old = s.tileNow f.acc.val →
    let elem (f : Fmt) (v : VReg) (i : Nat) : Val := decElem f (v.toNat / 2 ^ (fmtWidth f * i) % 2 ^ fmtWidth f)
    TileGets s (.outer f) f.acc [] ac (tileAt s false f.af 32) (fun i j =>
      f32Bits ((f32Val (oldWord s f.g old i j)).add ((elem f.af va i).mul (elem f.bf vb j)))) (newTag s f.g old))

/-- R109, R313: LATCH loads its latch from a vector group, ACLR clears its tile, U and its mark, AMOV copies a tile with U and TAG
as the declared latency shows it, ASCALE multiplies every element by a factor and rounds once. Each result is due under the
MX-float class, and nothing else changes but, for ASCALE, the flags. -/
def Sys2Proof.Claims.LatchAndTileInstructions : Prop :=
  (∀ (f : FLatch) (s : State) (rs : List VReg), Ready s f.c (0, 2) → f.k.val < s.me.lats.count →
    s.checkV (groupOp f.v) 12 = none → s.readRun (groupOp f.v) 12 = rs.map (fun v => ⟨v, false, false⟩) →
    ∃ rows, exec (.latch f) s = .next (done s (due s .mxf (.k f.k.val rows))) ∧
      ∀ r, r < 32 → rows.toNat / 2 ^ (1536 * r) % 2 ^ 1536 = ofRegs rs / 2 ^ (1536 * r) % 2 ^ 1536) ∧
  (∀ (f : FAcc) (s : State), Ready s f.c (1, 1) → f.acc.val < s.me.accs.count →
    exec (.aclr f) s = .next (done s (due s .mxf (.tile f.acc.val ⟨0, 0⟩) ++ due s .mxf (.mark f.acc.val 0)))) ∧
  (∀ (f : FAmov) (s : State), Ready s f.c (0, 1) → f.ad.val < s.me.accs.count → f.as.val < s.me.accs.count →
    (f.ad ≠ f.as → s.tileSeenBad f.as.val = false →
      exec (.amov f) s = .next (done s (due s .mxf (.tile f.ad.val (s.tileSeen f.as.val))))) ∧
    (f.ad = f.as → exec (.amov f) s = .next (s.takeTrap s.cur (trapOf cIllop)))) ∧
  (∀ (f : FAscale) (s s1 : State) (v : Word) (old : Tile), Goes s f.c none [f.a] (0, 1) s1 [v] →
    f.acc.val < s1.me.accs.count → s1.tileNowBad f.acc.val = false → old = s1.tileNow f.acc.val →
    ∃ t fl, exec (.ascale f) s = .next (doneWith s1 (fun c => addPend (due s1 .mxf (.tile f.acc.val t))
        { c with csr := { c.csr with nstat := c.csr.nstat ||| fl } })) ∧
      (∀ i j, i < 32 → j < 32 → tileWord t i j = f32Bits ((f32Val (tileWord old i j)).mul (f32Val (v.setWidth 32)))) ∧
      t.md = 0x80#8 ||| (old.md.setWidth 7).setWidth 8)

namespace Sys2Proof.Claims

/-- An element of a tile times 2^−TAG, rounded where that under- or overflows (R314). -/
def untag (t : Tile) (i j : Nat) : Val := rne32 ((f32Val (tileWord t i j)).scale2 (-(t.md.setWidth 7).toInt))

/-- The positions of a tile's elements. -/
def places : List (Nat × Nat) := (List.range 32).flatMap (fun i => (List.range 32).map (fun j => (i, j)))

/-- The squared norm of a group of tiles (R314). -/
def normOf (ts : List Tile) : Val :=
  let sq (t : Tile) : Val := rne32 (sumVals (places.map (fun p => (untag t p.1 p.2).mul (untag t p.1 p.2))))
  match ts.map sq with
  | [] => vZero
  | a :: l => l.foldl (fun s x => rne32 (s.add x)) a

end Sys2Proof.Claims

/-- R314: ANORM2 gives the squared norm of its group and AMAXABS its largest magnitude, each element times 2^−TAG, as FP32 bits
in D. R315 and R317: BIM.MARK writes the mark of its group, with this context's ordinal, which rises by one. A valid mark
already there takes ILLOP. That BIM.MARK sets no flag of NSTAT, and that a group past a63 is REGRANGE as R207 says, are the model's choice
where R314 and R317 are silent or R317 says ILLOP (log 34). -/
def Sys2Proof.Claims.NormsAndMarks : Prop :=
  (∀ (f : FNorm) (s : State) (ts : List Tile), Ready s f.c (dcnt (.x f.d)) → f.acc.val + f.n1.val + 1 ≤ 64 →
    f.acc.val + f.n1.val + 1 ≤ s.me.accs.count → (∀ t, t ≤ f.n1.val → s.tileSeenBad (f.acc.val + t) = false) →
    ts = (List.range (f.n1.val + 1)).map (fun t => s.tileSeen (f.acc.val + t)) →
    let gives (i : Instr) (v : Val) : Prop :=
      ∃ fl, exec i s = .next (doneWith s (fun c =>
        addPend (if f.d.val = 0 then [] else due s .mxf (.x f.d.val ((f32Bits v).setWidth 64)))
          { c with csr := { c.csr with nstat := c.csr.nstat ||| fl } }))
    gives (.anorm2 f) (normOf ts) ∧
    gives (.amaxabs f) ((ts.flatMap (fun t => places.map (fun p => untag t p.1 p.2))).foldl
      (fun a v => a.max2 v.abs) vZero)) ∧
  (∀ (f : FBimMark) (s : State) (n2 : Val), Ready s f.c (1, 0) → f.acc.val + f.n1.val + 1 ≤ 64 →
    f.acc.val + f.n1.val + 1 ≤ s.me.accs.count → s.lcid s.cur < 1024 →
    ((s.markSeen f.acc.val).getLsbD 0 = false → (∀ t, t ≤ f.n1.val → s.tileNowBad (f.acc.val + t) = false) →
      n2 = normOf ((List.range (f.n1.val + 1)).map (fun t => s.tileNow (f.acc.val + t))) →
      ∃ m, exec (.bimMark f) s = .next (doneWith s (fun c =>
          addPend (due s .mxf (.mark f.acc.val m)) { c with ordc := c.ordc + 1 })) ∧
        m.getLsbD 0 = true ∧ m.toNat / 2 ^ 16 % 2 ^ 6 = f.n1.val ∧ m.toNat / 2 ^ 22 % 2 ^ 10 = s.lcid s.cur ∧
        m.toNat / 2 ^ 32 % 2 ^ 32 = s.me.ordc.toNat ∧ m.toNat / 2 ^ 64 % 2 ^ 32 = (f32Bits n2).toNat ∧
        m.toNat / 2 ^ 96 = (f32Bits (bimFactor n2 (f32Val s.me.view.bimlim))).toNat) ∧
    ((s.markSeen f.acc.val).getLsbD 0 = true → exec (.bimMark f) s = .next (s.takeTrap s.cur (trapOf cIllop)))) ∧
  (∀ (f : FBimMark) (s : State), Ready s f.c (1, 0) → 64 < f.acc.val + f.n1.val + 1 →
    exec (.bimMark f) s = .next (s.takeTrap s.cur (trapOf cRegrange)))

/-- R316 and R351: BIM.STAGE adds a group of tiles, with G times 2^−TAG, into its staging group, rounding each element once;
BIM.COMMIT adds the staged group of the context's next mark, times the mark's factor, to the total, each element rounded
once, clears the mark's V, and counts the commit. Overlapping groups, and a staging group whose first tile holds a valid mark, take
ILLOP, as does the commit of a tile without a valid mark, of a mark of more than eight tiles, and of one that is not the
context's next. The names of the group that a valid mark gives, however many they are, are checked first, and take REGRANGE. -/
def Obligations.BoundedInfluence : Prop :=
  (∀ (f : FBimStage) (s : State) (n : Nat), n = f.n1.val + 1 → Ready s f.c (0, n) → f.acc.val + n ≤ 64 →
    f.ac.val + n ≤ 64 → f.acc.val + n ≤ s.me.accs.count → f.ac.val + n ≤ s.me.accs.count →
    (∀ t, t < n → s.tileSeenBad (f.ac.val + t) = false ∧ s.tileNowBad (f.acc.val + t) = false) →
    ((s.markSeen f.acc.val).getLsbD 0 = true → exec (.bimStage f) s = .next (s.takeTrap s.cur (trapOf cIllop))) ∧
    ((s.markSeen f.acc.val).getLsbD 0 = false → (f.acc.val + n ≤ f.ac.val ∨ f.ac.val + n ≤ f.acc.val) → ∃ ts fl, ts.length = n ∧
      exec (.bimStage f) s = .next (doneWith s (fun c =>
        addPend ((enumFrom 0 ts).flatMap (fun p => due s .mxf (.tile (f.acc.val + p.1) p.2)))
          { c with csr := { c.csr with nstat := c.csr.nstat ||| fl } })) ∧
      ∀ t i j, t < n → i < 32 → j < 32 → ∀ src old new, src = s.tileSeen (f.ac.val + t) →
        old = s.tileNow (f.acc.val + t) → ts[t]? = some new →
        new.md = 0x80#8 ||| (old.md.setWidth 7).setWidth 8 ∧
        tileWord new i j = f32Bits ((f32Val (tileWord old i j)).add
          (if f.g then untag src i j else f32Val (tileWord src i j)))) ∧
    (¬ (f.acc.val + n ≤ f.ac.val ∨ f.ac.val + n ≤ f.acc.val) →
      exec (.bimStage f) s = .next (s.takeTrap s.cur (trapOf cIllop)))) ∧
  (∀ (f : FFa) (s : State) (m : BitVec 128) (n : Nat), m = s.markSeen f.acc.val → n = m.toNat / 2 ^ 16 % 2 ^ 6 + 1 →
    m.getLsbD 0 = true → n ≤ 8 → Ready s f.c ((vcnt f.vd (8 * n)).1 + 1, 0) → f.acc.val + n ≤ 64 → f.acc.val + n ≤ s.me.accs.count →
    s.checkV f.vd (8 * n) = none → (∀ t, t < n → s.tileSeenBad (f.acc.val + t) = false) →
    (∀ t, t < 8 * n → (s.readChained 2 (vplus f.vd t)).dead = false ∧ (s.readChained 2 (vplus f.vd t)).pois = false) →
    (m.toNat / 2 ^ 22 % 2 ^ 10 = s.lcid s.cur ∧ m.toNat / 2 ^ 32 % 2 ^ 32 = s.me.commitn.toNat →
      ∃ vs fl, vs.length = 8 * n ∧
        exec (.bimCommit f) s = .next (doneWith s (fun c =>
          addPend ((runResults s .drain f.vd vs).map (fun p => { p with chain := 2 }) ++
              due s .drain (.mark f.acc.val (m &&& ~~~1#128)))
            { c with commitn := c.commitn + 1, csr := { c.csr with nstat := c.csr.nstat ||| fl } })) ∧
        ∀ t i j, t < n → i < 32 → j < 32 → ∀ r w, r = 8 * t + i / 4 → w = 32 * (i % 4) + j →
          (vs.getD r 0).toNat / 2 ^ (32 * w) % 2 ^ 32 =
            (f32Bits ((f32Val (BitVec.ofNat 32 ((s.readChained 2 (vplus f.vd r)).val.toNat / 2 ^ (32 * w)))).add
              ((f32Val (BitVec.ofNat 32 (m.toNat / 2 ^ 96))).mul
                (f32Val (tileWord (s.tileSeen (f.acc.val + t)) i j))))).toNat) ∧
    (¬ (m.toNat / 2 ^ 22 % 2 ^ 10 = s.lcid s.cur ∧ m.toNat / 2 ^ 32 % 2 ^ 32 = s.me.commitn.toNat) →
      exec (.bimCommit f) s = .next (s.takeTrap s.cur (trapOf cIllop)))) ∧
  (∀ (f : FFa) (s : State) (m : BitVec 128) (n : Nat), m = s.markSeen f.acc.val →
    n = (if m.getLsbD 0 then m.toNat / 2 ^ 16 % 2 ^ 6 + 1 else 1) → (m.getLsbD 0 = false ∨ 8 < n) → Ready s f.c (0, 0) →
    (s.checkV f.vd (8 * n) = none → f.acc.val + n ≤ 64 → f.acc.val + n ≤ s.me.accs.count →
      exec (.bimCommit f) s = .next (s.takeTrap s.cur (trapOf cIllop))) ∧
    ((s.checkV f.vd (8 * n) ≠ none ∨ 64 < f.acc.val + n ∨ s.me.accs.count < f.acc.val + n) →
      exec (.bimCommit f) s = .next (s.takeTrap s.cur (trapOf cRegrange))))

/-! ## The Flue (R63 to R77, R89, R330 to R354) -/

namespace Sys2Proof.Claims

/-- A FLUE OPERATION CAN GO AHEAD (R332, R333): every source span has the given registers, none dead or poisoned, the `k`
destination registers are the context's, and so are its tiles, which are not poisoned. -/
def FlueReady (s : State) (c : Common) (cnt : Nat × Nat) (srcs : List (VOp × List VReg)) (vd : VOp) (k : Nat)
    (tiles : List Nat) : Prop :=
  Ready s c cnt ∧
    (∀ p ∈ srcs, s.checkV p.1 p.2.length = none ∧ s.readRun p.1 p.2.length = p.2.map (fun v => ⟨v, false, false⟩)) ∧
    s.checkV vd k = none ∧ ∀ t ∈ tiles, t < 64 ∧ t < s.me.accs.count ∧ s.tileSeenBad t = false

/-- The operation completes from `s` with `k` registers for which `good` holds, written in the DRAIN class, and with the
further results `more`; of the rest of the machine only NSTAT changes, in which no flag is cleared. -/
def FlueGives (s : State) (i : Instr) (vd : VOp) (k : Nat) (good : List VReg → Prop) (more : List Pend) : Prop :=
  ∃ vs fl, vs.length = k ∧ good vs ∧
    exec i s = .next (doneWith s (fun c =>
      addPend (runResults s .drain vd vs ++ more) { c with csr := { c.csr with nstat := c.csr.nstat ||| fl } }))

/-- Field `i` of `w` bits in a run of registers (R56, R331). -/
def elemOf (w : Nat) (vs : List VReg) (i : Nat) : Nat := ofRegs vs / 2 ^ (w * i) % 2 ^ w

/-- An FP32 word of a run as a value. -/
def f32At (vs : List VReg) (i : Nat) : Val := f32Val (BitVec.ofNat 32 (elemOf 32 vs i))

/-- The registers of `n` elements of `w` bits. -/
def regsFor (w n : Nat) : Nat := (n * w + 4095) / 4096

/-- SRCTR rises by `n`, unless an earlier slot of the bundle has written it (R67, R68). -/
def advance (s : State) (n : Nat) : List Pend :=
  if (s.me.wroteSr true).isSome then [] else dueNext s (.srctr (s.me.csr.srctr + BitVec.ofNat 64 n))

/-- The clamp of R336. -/
def clampTo (lo hi x : Val) : Val :=
  let y := if x.lt lo then lo else x
  if hi.lt y then hi else y

/-- The steps of R336 on an element of column `j`. -/
def drained (s : State) (e : Epi) (t : Tile) (bias : Option VReg) (j : Nat) (x : Val) : Val :=
  let x := if e.g then rne32 (x.scale2 (-(t.md.setWidth 7).toInt)) else x
  let x := if e.se then rne32 (x.mul (f32Val s.me.view.epscl)) else x
  let x := match bias with
    | some b => rne32 (x.add (f32At [b] j))
    | none => x
  let x := match e.fn with
    | some f => (fnApply f x).1
    | none => x
  if e.ce then clampTo (f32Val (s.me.view.epclp.setWidth 32)) (f32Val ((s.me.view.epclp >>> 32).setWidth 32)) x else x

/-- The code of a word drained to column `j` as element `n` of the output (R336, R338). -/
def drainCode (s : State) (e : Epi) (t : Tile) (bias : Option VReg) (n j : Nat) (w : Word32) : Nat :=
  if e.df = .int8 then ((min 127 (max (-128) w.toInt)) % 256).toNat
  else if e.df = .int32 then w.toNat
  else (encElem e.df e.prop (s.rnd e.rm n) (drained s e t bias j (f32Val w))).1

end Sys2Proof.Claims

/-- R336 to R340: DRAIN writes element (i, j) of its tile, after the steps of R336 and one encoding, as element 32i + j of its
run; DRAINR a row, DRAINC a column; DRAINQ encodes each row as a block of 32 with its scale code in byte i of scN; ARGSEL
gives for each row the lowest column of its largest element. The tile, its tag and every other register stay. -/
def Obligations.Drains : Prop :=
  ∀ (s : State) (t : Tile) (acc : Fin 64), t = s.tileSeen acc.val →
    (∀ (f : FDrain) (bias : Option VReg) (k : Nat), f.acc = acc → k = regsFor (fmtWidth f.e.df) 1024 →
      bias.isSome = f.vb.isSome →
      FlueReady s f.c (vcnt f.vd k) (match f.vb, bias with | some b, some v => [(b, [v])] | _, _ => []) f.vd k [acc.val] →
      FlueGives s (.drain f) f.vd k (fun vs => ∀ i j, i < 32 → j < 32 → elemOf (fmtWidth f.e.df) vs (32 * i + j) =
        drainCode s f.e t bias (32 * i + j) j (tileWord t i j) % 2 ^ fmtWidth f.e.df)
        (if f.e.rm = .sr then advance s 1024 else [])) ∧
    (∀ (f : FDrainR) (k : Nat), f.acc = acc → k = regsFor (fmtWidth f.e.df) 32 →
      FlueReady s f.c (vcnt f.vd k) [] f.vd k [acc.val] →
      FlueGives s (.drainr f) f.vd k (fun vs => ∀ j, j < 32 → elemOf (fmtWidth f.e.df) vs j =
        drainCode s f.e t none j j (tileWord t f.rc.val j) % 2 ^ fmtWidth f.e.df)
        (if f.e.rm = .sr then advance s 32 else []) ∧
      FlueGives s (.drainc f) f.vd k (fun vs => ∀ i, i < 32 → elemOf (fmtWidth f.e.df) vs i =
        drainCode s f.e t none i f.rc.val (tileWord t i f.rc.val) % 2 ^ fmtWidth f.e.df)
        (if f.e.rm = .sr then advance s 32 else [])) ∧
    (∀ (f : FDrainQ) (k w : Nat), f.acc = acc → w = fmtWidth f.e.df → k = regsFor w 1024 → f.scn.val < s.me.scs.count →
      FlueReady s f.c ((vcnt f.vd k).1 + 1, 0) [] f.vd k [acc.val] → ∃ x : List Word, x.length = 4 ∧
      let row (i : Nat) : Nat × List Nat × Flags := encBlock f.e.df f.e.prop (fun j => s.rnd f.e.rm (32 * i + j))
        ((List.range 32).map (fun j => some (drained s f.e t none j (f32Val (tileWord t i j)))))
      (∀ i, i < 32 → (x.getD (i / 8) 0).toNat / 2 ^ (8 * (i % 8)) % 2 ^ 8 = (row i).1 % 2 ^ 8) ∧
      FlueGives s (.drainq f) f.vd k (fun vs => ∀ i j, i < 32 → j < 32 →
        elemOf w vs (32 * i + j) = (row i).2.1.getD j 0 % 2 ^ w)
        (due s .drain (.scw f.scn.val 0 x) ++ (if f.e.rm = .sr then advance s 1024 else []))) ∧
    (∀ (f : FFa), f.acc = acc → FlueReady s f.c (vcnt f.vd 1) [] f.vd 1 [acc.val] →
      FlueGives s (.argsel f) f.vd 1 (fun vs => (∀ i, 32 ≤ i → i < 128 → elemOf 32 vs i = 0) ∧ ∀ i, i < 32 →
        let v (j : Nat) : Val := f32Val (tileWord t i j)
        ((∀ j, j < 32 → (v j).isNan = true) → elemOf 32 vs i = 2 ^ 32 - 1) ∧
        (∀ j, j < 32 → (v j).isNan = false → (∀ l, l < 32 → (v j).lt (v l) = false) →
          (∀ l, l < j → (v l).isNan = true ∨ (v l).lt (v j) = true) → elemOf 32 vs i = j)) [])

/-- R341, R342, R345 and R353: CVT, FN, CLAMPV and SCALEV decode each element, take their step, and encode it once; RNG writes
the generator's output and advances SRCTR by its number of elements; NORMV gives the squared norm and the largest magnitude;
PSUM joins segments of 32 prefix sums, rounding each element once. -/
def Obligations.ElementwiseFlue : Prop :=
  (∀ (s : State) (f : FV) (fn : FnCode) (n ws wd k : Nat) (src : List VReg), n = 128 * (f.nr.val + 1) →
    ws = fmtWidth f.sf → wd = fmtWidth f.df → src.length = regsFor ws n → k = regsFor wd n →
    FlueReady s f.c (vcnt f.vd k) [(f.vs, src)] f.vd k [] →
    let steps (step : Val → Val) (vs : List VReg) : Prop := ∀ i, i < n → elemOf wd vs i =
      (encElem f.df f.prop (s.rnd f.rm i) (step (decElem f.sf (elemOf ws src i)))).1 % 2 ^ wd
    let adv := if f.rm = .sr then advance s n else []
    FlueGives s (.cvt f) f.vd k (steps id) adv ∧
    FlueGives s (.fn ⟨f, fn⟩) f.vd k (steps (fun x => (fnApply fn (rne32 x)).1)) adv ∧
    FlueGives s (.clampv f) f.vd k (steps
      (clampTo (f32Val (s.me.view.epclp.setWidth 32)) (f32Val ((s.me.view.epclp >>> 32).setWidth 32)))) adv ∧
    FlueGives s (.scalev f) f.vd k (steps (fun x => x.mul (f32Val s.me.view.epscl))) adv) ∧
  (∀ (s : State) (f : FRng) (n : Nat), n = 128 * (f.nr.val + 1) →
    FlueReady s f.c (vcnt f.vd (f.nr.val + 1)) [] f.vd (f.nr.val + 1) [] →
    FlueGives s (.rng f) f.vd (f.nr.val + 1) (fun vs => ∀ i, i < n →
      let z := srZ s.me.csr.srseed (s.lcid s.cur) (s.me.csr.srctr + BitVec.ofNat 64 i)
      elemOf 32 vs i = if f.int then z.toNat / 2 ^ 32 else (f32Bits (.fin false (z.toNat / 2 ^ 40) (2 ^ 24))).toNat)
      (advance s n)) ∧
  (∀ (s : State) (f : FNormv) (n ws : Nat) (src : List VReg) (x : Nat → Val), n = 128 * (f.nr.val + 1) →
    ws = fmtWidth f.sf → src.length = regsFor ws n → FlueReady s f.c (vcnt f.vd 1) [(f.vs, src)] f.vd 1 [] →
    x = (fun i => decElem f.sf (elemOf ws src i)) →
    let block (b : Nat) : Val := rne32 (sumVals ((List.range 32).map (fun i => (x (32 * b + i)).mul (x (32 * b + i)))))
    FlueGives s (.normv f) f.vd 1 (fun vs =>
      elemOf 32 vs 0 = (f32Bits ((List.range (n / 32 - 1)).foldl (fun a b => rne32 (a.add (block (b + 1)))) (block 0))).toNat ∧
      elemOf 32 vs 1 = (f32Bits ((List.range n).foldl (fun a i => a.max2 (x i).abs) vZero)).toNat ∧
      ∀ i, 2 ≤ i → i < 128 → elemOf 32 vs i = 0) []) ∧
  (∀ (s : State) (f : FVn) (src : List VReg) (carry : Nat → Option Val), src.length = f.nr.val + 1 →
    FlueReady s f.c (vcnt f.vd (f.nr.val + 1)) [(f.vs, src)] f.vd (f.nr.val + 1) [] →
    let out (i : Nat) : Val := match carry (i / 32) with
      | none => f32At src i
      | some c => rne32 ((f32At src i).add c)
    carry 0 = none → (∀ b, carry (b + 1) = some (out (32 * b + 31))) →
    FlueGives s (.psum f) f.vd (f.nr.val + 1) (fun vs => ∀ i, i < 128 * (f.nr.val + 1) →
      elemOf 32 vs i = (f32Bits (out i)).toNat) [])

/-- R63, R71 to R75, R343 and R344: Q8B and QMX encode each block of their source into codes and a scale in the register after
them; DQ8B and DQMX decode each element by its block's scale and encode it once. -/
def Obligations.BlockCodecs : Prop :=
  ∀ (s : State) (f : FV) (n ws wd ks kd : Nat), n = 128 * (f.nr.val + 1) → ws = fmtWidth f.sf → wd = fmtWidth f.df →
    ks = regsFor ws n → kd = regsFor wd n →
    let adv := if f.rm = .sr then advance s n else []
    (∀ (src : List VReg) (x : Nat → Val), src.length = ks → x = (fun i => decElem f.sf (elemOf ws src i)) →
      FlueReady s f.c (vcnt f.vd (kd + 1)) [(f.vs, src)] f.vd (kd + 1) [] →
      (n % 256 = 0 → wd = 8 → FlueGives s (.q8b f) f.vd (kd + 1) (fun vs => ∀ b, b < n / 256 →
        let q := encB8q (f.df == .b8qs) f.prop (fun i => s.rnd f.rm (256 * b + i)) ((List.range 256).map (fun i => x (256 * b + i)))
        elemOf 32 [vs.getD kd 0] b = q.1.toNat ∧ ∀ i, i < 256 → elemOf 8 vs (256 * b + i) = q.2.1.getD i 0 % 2 ^ 8) adv) ∧
      (f.df ≠ .int4g → FlueGives s (.qmx f) f.vd (kd + 1) (fun vs => ∀ b, b < n / 32 →
        let q := encBlock f.df f.prop (fun i => s.rnd f.rm (32 * b + i)) ((List.range 32).map (fun i => some (x (32 * b + i))))
        elemOf 8 [vs.getD kd 0] b = q.1 % 2 ^ 8 ∧ ∀ i, i < 32 → elemOf wd vs (32 * b + i) = q.2.1.getD i 0 % 2 ^ wd) adv) ∧
      (f.df = .int4g → n ≤ 3072 → FlueGives s (.qmx f) f.vd (kd + 1) (fun vs => ∀ b, b < n / 32 →
        let q := encInt4g f.prop (fun i => s.rnd f.rm (32 * b + i)) ((List.range 32).map (fun i => x (32 * b + i)))
        elemOf 16 [vs.getD kd 0] b = q.1 % 2 ^ 16 ∧ elemOf 4 [vs.getD kd 0] (384 + b) = q.2.1 % 2 ^ 4 ∧
          ∀ i, i < 32 → elemOf wd vs (32 * b + i) = q.2.2.1.getD i 0 % 2 ^ wd) adv)) ∧
    (∀ (src : List VReg) (sc : VReg), src.length = ks → FlueReady s f.c (vcnt f.vd kd) [(f.vs, src ++ [sc])] f.vd kd [] →
      let dec (val : Nat → Nat → Val) (vs : List VReg) : Prop := ∀ i, i < n →
        elemOf wd vs i = (encElem f.df f.prop (s.rnd f.rm i) (val i (elemOf ws src i))).1 % 2 ^ wd
      FlueGives s (.dq8b f) f.vd kd (dec (fun i c =>
        decB8q (f.sf == .b8qs) c (BitVec.ofNat 32 (sc.toNat / 2 ^ (32 * (i / 256)))))) adv ∧
      FlueGives s (.dqmx f) f.vd kd (dec (fun i c =>
        if f.sf = .int4g then decInt4g c (elemOf 4 [sc] (384 + i / 32)) (elemOf 16 [sc] (i / 32))
        else decBlock f.sf (elemOf 8 [sc] (i / 32)) c)) adv)

/-- R348 to R350: UPD.ADAM and UPD.SGDM compute each element's moments and weight, every operation rounded once to FP32, from
the state span, the gradient and the parameter register as read at the bundle; they write the weights to W, their encodings
to O, and the moments, encoded in blocks of 256, to MC, VC and AM. -/
def Obligations.OptimiserSteps : Prop :=
  ∀ (s : State) (f : FV) (e n gw gk mc kA kS : Nat) (gs : List VReg) (par : VReg) (w g m v : Nat → Val) (am : VReg)
    (st : List VReg) (adam : Bool), e = f.nr.val + 1 → e % 2 = 0 → n = 128 * e → gw = fmtWidth f.sf → gk = regsFor gw n →
    gs.length = gk → mc = (e + 3) / 4 → kA = e + e / 2 + 2 * mc + 1 → kS = e + e / 2 + mc + 1 → fmtWidth f.df = 16 →
    st.length = (if adam then kA else kS) → am = st.getD ((if adam then kA else kS) - 1) 0 →
    FlueReady s f.c (vcnt f.vd st.length) [(f.vs, gs ++ [par]), (f.vd, st)] f.vd st.length [] →
    g = (fun i => decElem f.sf (elemOf gw gs i)) → w = (fun i => f32At st i) →
    m = (fun i => rne32 (decB8q true (elemOf 8 (st.drop (e + e / 2)) i) (BitVec.ofNat 32 (elemOf 32 [am] (i / 256))))) →
    v = (fun i => rne32 (decB8q false (elemOf 8 (st.drop (e + e / 2 + mc)) i)
      (BitVec.ofNat 32 (elemOf 32 [am] (32 + i / 256))))) →
    let p (k : Nat) : Val := f32At [par] k
    let mul (a b : Val) : Val := rne32 (a.mul b)
    let add (a b : Val) : Val := rne32 (a.add b)
    let root (a : Val) : Val := fnVal .sqrt 0 a
    let inv (a : Val) : Val := fnVal .rcp 0 a
    let gA (i : Nat) : Val := mul (g i) (p 9)
    let mA (i : Nat) : Val := add (mul (p 1) (m i)) (mul (p 2) (gA i))
    let vA (i : Nat) : Val := add (mul (p 3) (v i)) (mul (p 4) (mul (gA i) (gA i)))
    let wA (i : Nat) : Val := add (w i) (mul (p 0) (add (mul (mul (mA i) (p 7))
      (inv (add (root (mul (vA i) (p 8))) (p 5)))) (mul (p 6) (w i)))).neg
    let mS (i : Nat) : Val := add (mul (p 1) (m i)) (add (mul (g i) (p 9)) (mul (p 6) (w i)))
    let wS (i : Nat) : Val := add (w i) (mul (p 0) (mS i)).neg
    let written (vs : List VReg) (w : Nat → Val) (o : Nat) : Prop := ∀ i, i < n →
      elemOf 32 vs i = (f32Bits (w i)).toNat ∧
      elemOf 16 (vs.drop e) i = (encElem f.df f.prop (s.rnd f.rm (o + i)) (w i)).1 % 2 ^ 16
    let codes (vs : List VReg) (sgn : Bool) (area word r : Nat) (x : Nat → Val) : Prop := ∀ b, b < n / 256 →
      let q := encB8q sgn f.prop (fun i => s.rnd f.rm (r + 256 * b + i)) ((List.range 256).map (fun i => x (256 * b + i)))
      elemOf 32 [vs.getD (vs.length - 1) 0] (word + b) = q.1.toNat ∧
        ∀ i, i < 256 → elemOf 8 (vs.drop area) (256 * b + i) = q.2.1.getD i 0 % 2 ^ 8
    (adam = true → e ≤ 30 → FlueGives s (.updAdam f) f.vd kA (fun vs =>
      written vs wA (2 * n) ∧ codes vs true (e + e / 2) 0 0 mA ∧ codes vs false (e + e / 2 + mc) 32 n vA)
      (if f.rm = .sr then advance s (3 * n) else [])) ∧
    (adam = false → e ≤ 36 → FlueGives s (.updSgdm f) f.vd kS (fun vs =>
      written vs wS n ∧ codes vs true (e + e / 2) 0 0 mS) (if f.rm = .sr then advance s (2 * n) else []))

/-- R346, R347 and R354: TRUST1 adds the squared norms of the weights and of the tile to its pair, which it reads chained; TRUST2
and CLIPG multiply every element by a factor computed from a pair; SAMPD takes one step of a descent. -/
def Obligations.TrustRatiosAndSampling : Prop :=
  (∀ (s : State) (f : FTrust1) (ws : List VReg) (t : Tile) (old : VReg), ws.length = 8 → t = s.tileSeen f.acc.val →
    FlueReady s f.c (vcnt f.vd 1) [(f.vb, ws)] f.vd 1 [f.acc.val] → s.readChained 1 f.vd = ⟨old, false, false⟩ →
    let u (i j : Nat) : Val := if f.g then untag t i j else f32Val (tileWord t i j)
    let sq (l : List Val) : Val := rne32 (sumVals (l.map (fun x => x.mul x)))
    ∃ v fl, exec (.trust1 f) s = .next (doneWith s (fun c =>
        addPend ((runResults s .drain f.vd [v]).map (fun p => { p with chain := 1 }))
          { c with csr := { c.csr with nstat := c.csr.nstat ||| fl } })) ∧
      elemOf 32 [v] 0 = (f32Bits (rne32 ((f32At [old] 0).add (sq ((List.range 1024).map (f32At ws)))))).toNat ∧
      elemOf 32 [v] 1 = (f32Bits (rne32 ((f32At [old] 1).add (sq (places.map (fun p => u p.1 p.2)))))).toNat ∧
      ∀ i, 2 ≤ i → i < 128 → elemOf 32 [v] i = elemOf 32 [old] i) ∧
  (∀ (s : State) (f : FVn) (pair : VReg) (old : List VReg), old.length = f.nr.val + 1 →
    FlueReady s f.c (vcnt f.vd (f.nr.val + 1)) [(f.vs, [pair]), (f.vd, old)] f.vd (f.nr.val + 1) [] →
    let a := f32At [pair] 0
    let b := f32At [pair] 1
    let root (a : Val) : Val := fnVal .sqrt 0 a
    let inv (a : Val) : Val := fnVal .rcp 0 a
    let times (m : Val) (vs : List VReg) : Prop := ∀ i, i < 128 * (f.nr.val + 1) →
      elemOf 32 vs i = (f32Bits (rne32 ((f32At old i).mul m))).toNat
    FlueGives s (.trust2 f) f.vd (f.nr.val + 1) (times (rne32 ((if a.isNan || b.isNan then .nan
      else if a.isZero || b.isZero then vOne else rne32 ((root a).mul (inv (root b)))).mul (f32Val s.me.view.epscl)))) [] ∧
    FlueGives s (.clipg f) f.vd (f.nr.val + 1) (times (if (root a).isNan || b.isNan then .nan
      else if b.lt (root a) then rne32 (b.mul (inv (root a))) else vOne)) []) ∧
  (∀ (s : State) (f : FSampd) (ps st : VReg) (u k : Nat) (t : Val) (start : Bool),
    FlueReady s f.c (vcnt f.vd 1) [(f.vs, [ps]), (f.vd, [st])] f.vd 1 [] → start = (elemOf 32 [st] 2 == 0) →
    u = srU s.me.csr.srseed (s.lcid s.cur) s.me.csr.srctr →
    let p (k : Nat) : Val := f32At [ps] k
    let idx := if start then 0 else elemOf 32 [st] 1
    t = (if start then (rtz32 ((vRat u (2 ^ 24)).mul (p 31))).1 else f32At [st] 0) →
    let more := if start then advance s 1 else []
    let becomes (t : Val) (k : Nat) (vs : List VReg) : Prop := elemOf 32 vs 0 = (f32Bits t).toNat ∧
      elemOf 32 vs 1 = (idx * 32 + k) % 2 ^ 32 ∧ elemOf 32 vs 2 = (elemOf 32 [st] 2 + 1) % 2 ^ 32 ∧
      ∀ i, 3 ≤ i → i < 128 → elemOf 32 vs i = 0
    ((t.isNan = true ∨ ∃ k, k < 32 ∧ (p k).isNan = true) → FlueGives s (.sampd f) f.vd 1 (becomes .nan 0) more) ∧
    (t.isNan = false → (∀ k, k < 32 → (p k).isNan = false) → k < 32 →
      ((t.lt (p k) = true ∧ ∀ l, l < k → t.lt (p l) = false) ∨
        ((∀ l, l < 32 → t.lt (p l) = false) ∧ (p k).eqv (p 31) = true ∧ ∀ l, l < k → (p l).eqv (p 31) = false)) →
      FlueGives s (.sampd f) f.vd 1 (becomes (if k = 0 then t else rne32 (t.add (p (k - 1)).neg)) k) more))

/-! ## The number formats (R52 to R75, R87 to R89), over integers and rationals -/

namespace Sys2Proof.Claims

/-- The magnitude of a finite value. -/
def magOf : Val → Rat
  | .fin _ n d => (n : Rat) / (d : Rat)
  | _ => 0

/-- The number of a finite value. -/
def numOf (v : Val) : Rat := if v.sign then -magOf v else magOf v

/-- A finite value is a fraction. -/
def Sound (v : Val) : Prop := ∀ s n d, v = .fin s n d → 0 < d

/-- R65: THE INTEGER `m` IS THE ROUNDING of a magnitude that counts `x` units of the last place. -/
def Rounds (r : Rnd) (x : Rat) (m : Nat) : Prop :=
  match r with
  | .rne => 2 * x ≤ 2 * (m : Rat) + 1 ∧ 2 * (m : Rat) ≤ 2 * x + 1 ∧
      (2 * x = 2 * (m : Rat) + 1 ∨ 2 * (m : Rat) = 2 * x + 1 → m % 2 = 0)
  | .rtz => (m : Rat) ≤ x ∧ x < (m : Rat) + 1
  | .sr u => (m : Rat) ≤ x + (u : Rat) / 2 ^ 24 ∧ x + (u : Rat) / 2 ^ 24 < (m : Rat) + 1

/-- R65: `2^e` is the unit of the last place at the magnitude `x`, with `fw` fraction bits and smallest normal `2^emin`. -/
def UlpAt (fw : Nat) (emin : Int) (x : Rat) (e : Int) : Prop :=
  emin ≤ e + fw ∧ x < (2 : Rat) ^ (e + fw + 1) ∧ (e + fw = emin ∨ (2 : Rat) ^ (e + fw) ≤ x)

/-- A row of R53: the format, the bits of its exponent and fraction, its bias, and the magnitudes of its largest finite code,
its infinity and its canonical NaN. -/
structure FloatRow where
  fmt : Fmt
  ew : Nat
  fw : Nat
  bias : Nat
  top : Nat
  inf : Option Nat
  nan : Option Nat

/-- The table of R53. -/
def floatRows : List FloatRow :=
  [⟨.fp32, 8, 23, 127, 0x7F7FFFFF, some 0x7F800000, some 0x7FC00000⟩, ⟨.bf16, 8, 7, 127, 0x7F7F, some 0x7F80, some 0x7FC0⟩,
   ⟨.fp16, 5, 10, 15, 0x7BFF, some 0x7C00, some 0x7E00⟩, ⟨.e4m3, 4, 3, 7, 0x7E, none, some 0x7F⟩,
   ⟨.e5m2, 5, 2, 15, 0x7B, some 0x7C, some 0x7E⟩, ⟨.e2m3, 2, 3, 1, 0x1F, none, none⟩,
   ⟨.e3m2, 3, 2, 3, 0x1F, none, none⟩, ⟨.e2m1, 2, 1, 1, 0x7, none, none⟩]

/-- The code of a magnitude with its sign on top. -/
def FloatRow.code (t : FloatRow) (s : Bool) (c : Nat) : Nat := (if s then 2 ^ (t.ew + t.fw) else 0) + c

/-- The largest finite magnitude of the row. -/
def FloatRow.topVal (t : FloatRow) : Rat := magOf (decElem t.fmt t.top)

/-- Code `c` of the row's width stands for the number of sign `s` and magnitude `y`. -/
def FloatRow.stands (t : FloatRow) (c : Nat) (s : Bool) (y : Rat) : Prop :=
  c < 2 ^ (1 + t.ew + t.fw) ∧ ∃ n d : Nat, 0 < d ∧ decElem t.fmt c = .fin s n d ∧ (n : Rat) / (d : Rat) = y

/-- R53 and R54: what each code of the row stands for. -/
def FloatRow.Decodes (t : FloatRow) : Prop :=
  fmtWidth t.fmt = 1 + t.ew + t.fw ∧ ∀ (s : Bool) (x g c : Nat), x < 2 ^ t.ew → g < 2 ^ t.fw → c = x * 2 ^ t.fw + g →
    (c ≤ t.top → t.stands (t.code s c) s (if x = 0 then (g : Rat) * (2 : Rat) ^ ((1 : Int) - t.bias - t.fw)
      else ((2 ^ t.fw + g : Nat) : Rat) * (2 : Rat) ^ ((x : Int) - t.bias - t.fw))) ∧
    (t.inf = some c → decElem t.fmt (t.code s c) = .inf s) ∧
    (t.top < c → t.inf ≠ some c → decElem t.fmt (t.code s c) = .nan)

/-- R55, R65 and R70: encoding to the row's format, once, with its flags. -/
def FloatRow.Encodes (t : FloatRow) : Prop :=
  ∀ (prop : Bool) (r : Rnd),
    let special (s : Bool) : Nat × Flags := match t.inf, t.nan with
      | some i, _ => (t.code s i, 0#6)
      | none, some n => (n, fNan)
      | none, none => (t.code s t.top, fClamped)
    encElem t.fmt prop r .nan = (t.nan.getD 0, fNan) ∧
    (∀ s, encElem t.fmt prop r (.inf s) = if prop = true ∨ t.fmt = .fp32 then special s else (t.code s t.top, fClamped)) ∧
    ∀ (s : Bool) (n d m : Nat) (e : Int), 0 < d → UlpAt t.fw (1 - t.bias) ((n : Rat) / (d : Rat)) e →
      Rounds r ((n : Rat) / (d : Rat) / (2 : Rat) ^ e) m →
      ((m : Rat) * (2 : Rat) ^ e ≤ t.topVal → t.stands (encElem t.fmt prop r (.fin s n d)).1 s ((m : Rat) * (2 : Rat) ^ e) ∧
        (encElem t.fmt prop r (.fin s n d)).2 = flagIf (decide (n ≠ 0 ∧ m = 0)) fUnf) ∧
      (t.topVal < (m : Rat) * (2 : Rat) ^ e → encElem t.fmt prop r (.fin s n d) =
        if prop then ((special s).1, (special s).2 ||| fOvf) else (t.code s t.top, fOvf ||| fClamped))

/-- A two's-complement code of `w` bits as an integer. -/
def twos (w code : Nat) : Int := if code < 2 ^ (w - 1) then (code : Int) else (code : Int) - (2 ^ w : Nat)

/-- The integer nearest `z` that `w` bits of two's complement have. -/
def fitted (w : Nat) (z : Int) : Int := min ((2 ^ (w - 1) : Nat) - 1) (max (-(2 ^ (w - 1) : Nat)) z)

/-- An integer with a sign. -/
def withSign (s : Bool) (m : Nat) : Int := if s then -(m : Int) else (m : Int)

/-- R57, R65 and R70: INT8 and INT32, of `w` bits. -/
def IntegerFormat (f : Fmt) (w : Nat) : Prop :=
  fmtWidth f = w ∧
  (∀ c, c < 2 ^ w → Sound (decElem f c) ∧ (decElem f c).isFin = true ∧ numOf (decElem f c) = ((twos w c : Int) : Rat)) ∧
  ∀ (prop : Bool) (r : Rnd), encElem f prop r .nan = (0, fNan) ∧
    (∀ s, encElem f prop r (.inf s) = (if s then 2 ^ (w - 1) else 2 ^ (w - 1) - 1, fSat)) ∧
    ∀ (s : Bool) (n d m : Nat), 0 < d → Rounds r ((n : Rat) / (d : Rat)) m → encElem f prop r (.fin s n d) =
      ((fitted w (withSign s m) % (2 ^ w : Nat)).toNat,
        if fitted w (withSign s m) = withSign s m then flagIf (decide (n ≠ 0 ∧ m = 0)) fUnf else fSat)

/-- The element format of each MX format with floating-point elements, by its row, and its emax (R59, R71). -/
def mxRows : List (Fmt × FloatRow × Int) :=
  [(.mxe4m3, ⟨.e4m3, 4, 3, 7, 0x7E, none, some 0x7F⟩, 8), (.mxe5m2, ⟨.e5m2, 5, 2, 15, 0x7B, some 0x7C, some 0x7E⟩, 15),
   (.mxe2m3, ⟨.e2m3, 2, 3, 1, 0x1F, none, none⟩, 2), (.mxe3m2, ⟨.e3m2, 3, 2, 3, 0x1F, none, none⟩, 4),
   (.mxe2m1, ⟨.e2m1, 2, 1, 1, 0x7, none, none⟩, 2)]

/-- The block formats whose elements are integers, by their width; an element of `w` bits counts 2^(code − 127 − (w − 2))
(R59, R60). -/
def intBlocks : List (Fmt × Nat) :=
  [(.mxi8, 8), (.bx2, 2), (.bx3, 3), (.bx4, 4), (.bx5, 5), (.bx6, 6), (.bx7, 7), (.bx8, 8)]

/-- R59, R60 and R64: what an element of a block stands for under its scale code. -/
def BlocksDecode : Prop :=
  (∀ f t em c, (f, t, em) ∈ mxRows → fmtWidth f = 1 + t.ew + t.fw ∧ decBlock f 255 c = .nan ∧ ∀ s, s < 255 →
    match decElem t.fmt c with
    | .nan => decBlock f s c = .nan
    | .inf b => decBlock f s c = .inf b
    | .fin b n d => ∃ n' d' : Nat, 0 < d' ∧ decBlock f s c = .fin b n' d' ∧
        (n' : Rat) / (d' : Rat) = (n : Rat) / (d : Rat) * (2 : Rat) ^ ((s : Int) - 127)) ∧
  (∀ f w c, (f, w) ∈ intBlocks → c < 2 ^ w → fmtWidth f = w ∧ decBlock f 255 c = .nan ∧ ∀ s, s < 255 →
    Sound (decBlock f s c) ∧ (decBlock f s c).isFin = true ∧
      numOf (decBlock f s c) = ((twos w c : Int) : Rat) * (2 : Rat) ^ ((s : Int) - 127 - ((w : Int) - 2)))

/-- R71: the scale code of a block of values `ins`. -/
def ScaleCode (emax bias : Int) (ins : List Val) (code : Nat) : Prop :=
  ((∀ v ∈ ins, magOf v = 0) → code = 0) ∧
  ∀ v ∈ ins, (∀ u ∈ ins, magOf u ≤ magOf v) → ∀ k : Int, (2 : Rat) ^ k ≤ magOf v → magOf v < (2 : Rat) ^ (k + 1) →
    (code : Int) = min 254 (max 0 (k - emax + bias))

/-- R71 to R73: a block of `xs`, of which those outside the edge are `none`, takes the scale code that `scale` allows and each
element the code and the flags that `elem` allows. -/
def BlockEncodes (f : Fmt) (scale : List Val → Nat → Prop) (elem : Nat → Rnd → Val → Nat × Flags → Prop) : Prop :=
  ∀ (prop : Bool) (r : Nat → Rnd) (xs : List (Option Val)), (∀ v, some v ∈ xs → Sound v) →
    let special (v : Val) : Prop := v = .nan ∨ (prop = true ∧ v.isInf = true)
    ((∀ x ∈ xs, x = none) → encBlock f prop r xs = (0x7F, xs.map (fun _ => 0), 0#6)) ∧
    ((∃ v, some v ∈ xs ∧ special v) → encBlock f prop r xs = (0xFF, xs.map (fun _ => 0), fNan)) ∧
    ((∃ v, some v ∈ xs) → (∀ v, some v ∈ xs → ¬ special v) → ∃ (code : Nat) (es : List (Nat × Flags)), es.length = xs.length ∧
      encBlock f prop r xs = (code, es.map (·.1), es.foldl (fun a e => a ||| e.2) 0#6) ∧ scale (xs.filterMap id) code ∧
      ∀ i e, es[i]? = some e → (xs[i]? = some none → e = (0, 0#6)) ∧ ∀ v, xs[i]? = some (some v) → elem code (r i) v e)

/-- R71 and R72: an element with floating-point format `t`. -/
def mxElem (t : FloatRow) (code : Nat) (r : Rnd) (v : Val) (out : Nat × Flags) : Prop :=
  (∀ s, v = .inf s → out = (t.code s t.top, fClamped)) ∧
  ∀ (s : Bool) (n d m : Nat) (e : Int) (y : Rat), v = .fin s n d → y = (n : Rat) / (d : Rat) / (2 : Rat) ^ ((code : Int) - 127) →
    UlpAt t.fw (1 - t.bias) y e → Rounds r (y / (2 : Rat) ^ e) m →
    ((m : Rat) * (2 : Rat) ^ e ≤ t.topVal → t.stands out.1 s ((m : Rat) * (2 : Rat) ^ e) ∧
      out.2 = flagIf (decide (n ≠ 0 ∧ m = 0)) fUnf) ∧
    (t.topVal < (m : Rat) * (2 : Rat) ^ e → out = (t.code s t.top, fClamped))

/-- R71 and R72: an element that is an integer of `w` bits. -/
def intElem (w code : Nat) (r : Rnd) (v : Val) (out : Nat × Flags) : Prop :=
  (∀ s, v = .inf s → out = (if s then 2 ^ (w - 1) else 2 ^ (w - 1) - 1, fClamped)) ∧
  ∀ (s : Bool) (n d m : Nat), v = .fin s n d →
    Rounds r ((n : Rat) / (d : Rat) / (2 : Rat) ^ ((code : Int) - 127 - ((w : Int) - 2))) m →
    out = ((fitted w (withSign s m) % (2 ^ w : Nat)).toNat,
      if fitted w (withSign s m) = withSign s m then flagIf (decide (n ≠ 0 ∧ m = 0)) fUnf else fClamped)

/-- R71 to R73: every MX and BX format. -/
def BlocksEncode : Prop :=
  (∀ f t em, (f, t, em) ∈ mxRows → BlockEncodes f (ScaleCode em 127) (mxElem t)) ∧
  BlockEncodes .mxi8 (ScaleCode 0 127) (intElem 8) ∧
  ∀ f w, (f, w) ∈ intBlocks → f ≠ .mxi8 → BlockEncodes f (ScaleCode ((w : Int) - 2) (127 + ((w : Int) - 2))) (intElem w)

/-- R58, R64 and R74: INT4G. An element is (q − z) × s; a group of 32 takes the scale, the zero point and the codes of R74. -/
def Int4gFormat : Prop :=
  (∀ q z s, match decElem .bf16 s with
    | .nan => decInt4g q z s = .nan
    | .inf b => decInt4g q z s = if q = z then .nan else .inf (decide (q < z) != b)
    | .fin b n d => Sound (decInt4g q z s) ∧ (decInt4g q z s).isFin = true ∧
        numOf (decInt4g q z s) = (((q : Int) - (z : Int) : Int) : Rat) * numOf (.fin b n d)) ∧
  ∀ (prop : Bool) (r : Nat → Rnd) (xs : List Val), (∀ v ∈ xs, Sound v) →
    let special (v : Val) : Prop := v = .nan ∨ (prop = true ∧ v.isInf = true)
    ((∃ v ∈ xs, special v) → encInt4g prop r xs = (0x7FC0, 0, xs.map (fun _ => 0), fNan)) ∧
    ((∀ v ∈ xs, ¬ special v) → ∀ lo hi : Rat,
      lo ≤ 0 → (∀ v ∈ xs, lo ≤ numOf v) → (lo = 0 ∨ ∃ v ∈ xs, numOf v = lo) →
      0 ≤ hi → (∀ v ∈ xs, numOf v ≤ hi) → (hi = 0 ∨ ∃ v ∈ xs, numOf v = hi) →
      ∃ n d s s0 : Nat, 0 < d ∧ (n : Rat) / (d : Rat) = (hi - lo) / 15 ∧ s0 = (encElem .bf16 true .rne (.fin false n d)).1 ∧
        s = (if s0 = 0 then 0x3F80 else s0) ∧
        (s0 < 0x7F80 → ∃ (z m : Nat) (es : List (Nat × Flags)), Rounds .rne (-lo / numOf (decElem .bf16 s)) m ∧ z = min 15 m ∧ es.length = xs.length ∧
          encInt4g prop r xs = (s, z, es.map (·.1), es.foldl (fun a e => a ||| e.2) 0#6) ∧
          ∀ i v e, xs[i]? = some v → es[i]? = some e → (∀ b, v = .inf b → e = (if b then 0 else 15, fClamped)) ∧
            ∀ (b : Bool) (a c k : Nat) (q : Int), v = .fin b a c →
              Rounds (r i) ((a : Rat) / (c : Rat) / numOf (decElem .bf16 s)) k → q = withSign b k + z →
              e = ((min 15 (max 0 q)).toNat, flagIf (decide (min 15 (max 0 q) ≠ q)) fClamped |||
                flagIf (decide (a ≠ 0 ∧ min 15 (max 0 q) = (z : Int))) fUnf)))

/-- R63, R64 and R75: B8Q, signed and unsigned. -/
def B8qFormat : Prop :=
  (∀ (sgn : Bool) (code : Nat) (am : Word32) (c : Int), code < 256 →
    c = (if sgn then (if code = 128 then -127 else twos 8 code) else (code : Int)) →
    match decElem .fp32 am.toNat with
    | .nan => decB8q sgn code am = .nan
    | .inf b => decB8q sgn code am = if c = 0 then .nan else .inf (b != decide (c < 0))
    | .fin b n d => Sound (decB8q sgn code am) ∧ (decB8q sgn code am).isFin = true ∧
        numOf (decB8q sgn code am) = (c : Rat) / (if sgn then 127 else 255) * numOf (.fin b n d)) ∧
  ∀ (sgn prop : Bool) (r : Nat → Rnd) (xs : List Val), (∀ v ∈ xs, Sound v) →
    let special (v : Val) : Prop := v = .nan ∨ (prop = true ∧ v.isInf = true)
    ((∃ v ∈ xs, special v) → encB8q sgn prop r xs = (0x7FC00000#32, xs.map (fun _ => 0), fNan)) ∧
    ((∀ v ∈ xs, ¬ special v) → ∃ (n d : Nat) (am : Word32) (es : List (Nat × Flags)), 0 < d ∧ (∀ v ∈ xs, magOf v ≤ (n : Rat) / (d : Rat)) ∧
      (n = 0 ∨ ∃ v ∈ xs, magOf v = (n : Rat) / (d : Rat)) ∧ am.toNat = (encElem .fp32 true .rne (.fin false n d)).1 ∧
      es.length = xs.length ∧ encB8q sgn prop r xs = (am, es.map (·.1), es.foldl (fun a e => a ||| e.2) 0#6) ∧
      ∀ i v e, xs[i]? = some v → es[i]? = some e →
        (∀ b, v = .inf b → e = (if sgn then (if b then 129 else 127) else (if b then 0 else 255), fClamped)) ∧
        (am = 0 → v.isFin = true → e = (0, 0#6)) ∧
        ∀ (b : Bool) (a c k : Nat), v = .fin b a c → am ≠ 0 → am.toNat < 0x7F800000 →
          (sgn = false → b = true → a ≠ 0 → e = (0, fClamped)) ∧
          ((sgn = true ∨ b = false ∨ a = 0) →
            Rounds (r i) ((if sgn then 127 else 255) * ((a : Rat) / (c : Rat)) / numOf (decElem .fp32 am.toNat)) k →
            e = ((withSign b k % 256).toNat, flagIf (decide (a ≠ 0 ∧ k = 0)) fUnf)))

/-- R80, R87 and R88: sums, products, quotients and powers of two of finite values are exact, and one rounding to FP32 is an
encoding to FP32 (RNE, an overflow giving an infinity). -/
def ExactArithmetic : Prop :=
  (∀ a b : Val, Sound a → Sound b → a.isFin = true → b.isFin = true →
    (Sound (a.add b) ∧ numOf (a.add b) = numOf a + numOf b) ∧ (Sound (a.mul b) ∧ numOf (a.mul b) = numOf a * numOf b) ∧
    (numOf b ≠ 0 → Sound (a.div b) ∧ numOf (a.div b) = numOf a / numOf b) ∧
    (∀ k : Int, Sound (a.scale2 k) ∧ numOf (a.scale2 k) = numOf a * (2 : Rat) ^ k) ∧
    (a.lt b = true ↔ numOf a < numOf b)) ∧
  ∀ v : Val, f32Val (f32Bits v) = decElem .fp32 (encElem .fp32 true .rne v).1 ∧ rne32 v = f32Val (f32Bits v)

/-- R66: the generator of stochastic rounding, over the natural numbers. -/
def StochasticGenerator : Prop :=
  ∀ (seed c : Word) (lcid z z' z'' : Nat), z = (seed.toNat + lcid * 2 ^ 54 + c.toNat * 0x9E3779B97F4A7C15) % 2 ^ 64 →
    z' = (z ^^^ z / 2 ^ 30) * 0xBF58476D1CE4E5B9 % 2 ^ 64 → z'' = (z' ^^^ z' / 2 ^ 27) * 0x94D049BB133111EB % 2 ^ 64 →
    (srZ seed lcid c).toNat = z'' ^^^ z'' / 2 ^ 31 ∧ srU seed lcid c = (z'' ^^^ z'' / 2 ^ 31) / 2 ^ 40

/-- R89: the function table at its special values; a reciprocal and a square root are the FP32 value nearest the exact one; and
every result is an FP32 value. -/
def FunctionTable : Prop :=
  (∀ f, fnApply f .nan = (.nan, 0#6)) ∧
  (∀ s, fnApply .exp2 (.inf s) = (if s then .fin false 0 1 else .inf false, 0#6) ∧
    fnApply .log2 (.inf s) = (if s then (.nan, fNan) else (.inf false, 0#6)) ∧
    fnApply .rcp (.inf s) = (rne32 (.fin s 0 1), 0#6) ∧
    fnApply .rsqrt (.inf s) = (if s then (.nan, fNan) else (.fin false 0 1, 0#6)) ∧
    fnApply .sqrt (.inf s) = (if s then (.nan, fNan) else (.inf false, 0#6)) ∧
    fnApply .tanh (.inf s) = (.fin s 1 1, 0#6) ∧ fnApply .erf (.inf s) = (.fin s 1 1, 0#6) ∧
    fnApply .sigm (.inf s) = (.fin false (if s then 0 else 1) 1, 0#6) ∧
    fnApply .silu (.inf s) = (if s then .fin true 0 1 else .inf false, 0#6) ∧
    fnApply .gelu (.inf s) = (if s then .fin true 0 1 else .inf false, 0#6) ∧
    fnApply .sinpi (.inf s) = (.nan, fNan) ∧ fnApply .cospi (.inf s) = (.nan, fNan)) ∧
  (∀ s d, 0 < d → fnApply .log2 (.fin s 0 d) = (.inf true, 0#6) ∧ fnApply .rcp (.fin s 0 d) = (.inf s, 0#6) ∧
    fnApply .rsqrt (.fin s 0 d) = (.inf s, 0#6) ∧
    ∀ f ∈ [FnCode.sqrt, .tanh, .silu, .gelu, .erf], fnApply f (.fin s 0 d) = (.fin s 0 1, 0#6)) ∧
  (∀ (s : Bool) (n d : Nat), 0 < d → 0 < n →
    (128 ≤ (n : Rat) / (d : Rat) → s = false → fnApply .exp2 (.fin s n d) = (.inf false, fOvf)) ∧
    (s = true → ∀ f ∈ [FnCode.log2, .rsqrt, .sqrt], fnApply f (.fin s n d) = (.nan, fNan)) ∧
    (s = false → n = d → fnApply .log2 (.fin s n d) = (.fin false 0 1, 0#6)) ∧
    (fnApply .rcp (.fin s n d)).1 = decElem .fp32 (encElem .fp32 true .rne (.fin s d n)).1) ∧
  (∀ (s : Bool) (n d k : Nat), 0 < d → (n = k * d → fnApply .sinpi (.fin s n d) = (.fin (decide (s = true ∧ 0 < n)) 0 1, 0#6)) ∧
    (2 * n = (2 * k + 1) * d → fnApply .cospi (.fin s n d) = (.fin false 0 1, 0#6))) ∧
  (∀ c, 0 < c → c ≤ 0x7F7FFFFF → ∃ (s : Bool) (n d : Nat), 0 < d ∧ fnVal .sqrt 0 (decElem .fp32 c) = .fin s n d ∧ s = false ∧
    ∀ c', c' ≤ 0x7F7FFFFF →
      let y := (n : Rat) / (d : Rat)
      let mid := (y + magOf (decElem .fp32 c')) / 2
      (magOf (decElem .fp32 c') < y → mid * mid ≤ magOf (decElem .fp32 c)) ∧
      (y < magOf (decElem .fp32 c') → magOf (decElem .fp32 c) ≤ mid * mid)) ∧
  ∀ f v, Sound v → ∀ t ∈ floatRows, t.fmt = .fp32 → ∀ (s : Bool) (n d : Nat), (fnApply f v).1 = .fin s n d → ∃ c : Nat, t.stands c s ((n : Rat) / (d : Rat))

end Sys2Proof.Claims

/-- R53 to R60, R63 to R66, R70 to R75, R87 to R89: the codes, scales and flags of every number format over the integers and
rationals: what each code stands for, how a value is rounded once and encoded, the scale code and the elements of a block, INT4G
and B8Q, the exact arithmetic and its one rounding to FP32, the generator of stochastic rounding, and the function table at its
special values. (Which of the FP32 values within 2 ulp a function of R89 gives is left open, log 12; that bound, and exp2 between
its special values, speak of real numbers and are not part of this statement.) -/
def Obligations.NumberFormats : Prop :=
  (∀ t ∈ floatRows, t.Decodes ∧ t.Encodes) ∧ IntegerFormat .int8 8 ∧ IntegerFormat .int32 32 ∧ BlocksDecode ∧ BlocksEncode ∧
    Int4gFormat ∧ B8qFormat ∧ ExactArithmetic ∧ StochasticGenerator ∧ FunctionTable

/-! ## Scale registers, patterns and token trees (R112, R113, R119, R318 to R329) -/

namespace Sys2Proof.Claims

/-- A descriptor, as a number, that R113 allows: its payload bits outside those of R112 for its kind are zero, as are the coefficients
from NDIAG on; NDIAG is zero but for kind 7, where it is not; KIND is at most 11, KLIM and KW at most 768. -/
def Allowed (d : Nat) : Prop :=
  let kind := d % 2 ^ 4
  let ndiag := d / 2 ^ 5 % 2 ^ 3
  kind ≤ 11 ∧ (kind ≠ 7 → ndiag = 0) ∧ (kind = 7 → ndiag ≠ 0 ∧ d / 2 ^ (16 * ndiag + 16) = 0) ∧
    (kind ≠ 7 → kind ≠ 11 → d / 2 ^ 16 % 2 ^ 10 ≤ 768) ∧ (kind ≤ 5 → d / 2 ^ 26 = 0) ∧
    (kind = 6 → d / 2 ^ 26 % 2 ^ 10 ≤ 768 ∧ d / 2 ^ 36 = 0) ∧
    (8 ≤ kind → kind ≤ 10 → d / 2 ^ 26 % 2 ^ 10 = 0 ∧ d / 2 ^ 49 = 0) ∧ (kind = 11 → d / 2 ^ 33 = 0)

end Sys2Proof.Claims

/-- R319, R320, R324 and R325: LSC loads one or two scale registers from the bytes at its generator's origin as the context
reads them; SCSET writes one word of a scale register; SETLS writes LSE; SRSEED, SRCTRSET and BIMLIM write their registers
for the next bundle. An LSC from a Mantel with a byte in a bank that is not the partition's, or with a poisoned byte, traps. A SETLS value outside its range and a BIMLIM value that is a NaN or not above zero take ILLOP. -/
def Sys2Proof.Claims.ScaleSlotRegisters : Prop :=
  (∀ (f : FLsc) (s : State) (g : Gen) (sd : Side) (m : Nat) (as : List Nat), g = s.gen f.gn → m = (if f.two then 2 else 1) →
    Ready s f.c (m, 0) → f.scn.val < s.me.scs.count → (f.two = true → (f.scn.val + 1) % 16 < s.me.scs.count) →
    g.attr.toNat / 2 ^ 13 % 8 ≠ 7 →
    (g.attr.toNat % 4 = 0 ∧ sd = .mem ∨ g.attr.toNat % 4 = 3 ∧ sd = .mantel (dieOf s.cur) ∨
      g.attr.toNat % 4 = 1 ∧ ∃ r, s.regionAt (clusterOf s.cur) g.base.toNat = some r ∧
        sd = .sp (clusterOf s.cur) r.off (2 ^ r.lsize)) →
    as = (List.range (512 * m)).map (fun b => sd.at (g.origin + BitVec.ofNat 64 b)) →
    let regs (rd : Nat → Byte) : List Pend := due s .scale (.sc f.scn.val (spanReg (as.map rd) 0)) ++
      (if f.two then due s .scale (.sc ((f.scn.val + 1) % 16) (spanReg (as.map rd) 1)) else [])
    (∀ asp ac, sd.asp = some asp → Passes s .load .read false asp as ac →
      ∃ t, exec (.lsc f) s = .next t ∧
        loaded s t [g.strm] ac (addPend (regs (fun a => s.ownByte s.cur (ac.at a).1 (ac.at a).2)))) ∧
    (∀ tr, sd.asp = none → MantelStops s as tr → exec (.lsc f) s = .next (s.takeTrap s.cur tr)) ∧
    (sd.asp = none → (∀ a ∈ as, mantelGood s a) →
      ∃ w, exec (.lsc f) s = .next (doneWith (s.inOrder s.cur g.strm) (fun c => addPend (regs (s.mantelByte (dieOf s.cur)))
        { c with csr := { c.csr with wsstl := w } })))) ∧
  (∀ (f : FScset) (s s1 : State) (v : Word), Goes s f.c none [f.a] (1, 0) s1 [v] → f.scn.val < s1.me.scs.count →
    exec (.scset f) s = .next (done s1 (due s1 .scale (.scw f.scn.val f.woff.val [v])))) ∧
  (∀ (f : FSetls) (s : State), Ready s f.c (1, 0) → exec (.setls f) s = .next (done s (due s .scale (.lse f.lse)))) ∧
  (∀ (f : FSca) (s s1 : State) (v : Word), Goes s f.c none [f.a] (1, 0) s1 [v] →
    (-64 ≤ v.toInt → v.toInt ≤ 63 →
      exec (.setlsRegister f) s = .next (done s1 (due s1 .scale (.lse (BitVec.ofInt 7 v.toInt))))) ∧
    (v.toInt < -64 ∨ 63 < v.toInt → exec (.setlsRegister f) s = .next (s.takeTrap s.cur (trapOf cIllop)))) ∧
  (∀ (f : FSca) (s s1 : State) (v : Word), Goes s f.c none [f.a] (0, 0) s1 [v] →
    exec (.srseed f) s = .next (done s1 (dueNext s1 (.srseed v))) ∧
    exec (.srctrset f) s = .next (done s1 (dueNext s1 (.srctr v))) ∧
    (0 < v.toNat % 2 ^ 32 → v.toNat % 2 ^ 32 ≤ 0x7F800000 →
      exec (.bimlim f) s = .next (done s1 (dueNext s1 (.bimlim (v.setWidth 32))))) ∧
    (v.toNat % 2 ^ 32 = 0 ∨ 0x7F800000 < v.toNat % 2 ^ 32 →
      exec (.bimlim f) s = .next (s.takeTrap s.cur (trapOf cIllop))))

/-- R112, R113, R321 to R323: PSET writes a descriptor and keeps the capture; PSETD writes KIND 8 + KC, VSRC and the capture and
keeps OFF, CFMT and KLIM; PSETT writes KIND 11 with TT, ROWB and COLB. Each is due in the PATTERN class and nothing else
changes. A descriptor that R113 forbids takes ILLENC, whether the slot is guarded off or not (R192 excepts no ILLENC; log 44). -/
def Sys2Proof.Claims.PatternInstructions : Prop :=
  (∀ (f : FPset) (s s1 : State) (a b : Word), Goes s f.c none [f.a, f.b] (1, 0) s1 [a, b] →
    (Allowed (b.toNat * 2 ^ 64 + a.toNat) → f.pn.val < s1.me.pats.count →
      exec (.pset f) s = .next (done s1 (due s1 .pattern (.pat f.pn.val (b ++ a) none)))) ∧
    (s1.me.pats.count ≤ f.pn.val → Allowed (b.toNat * 2 ^ 64 + a.toNat) →
      exec (.pset f) s = .next (s.takeTrap s.cur (trapOf cRegrange)))) ∧
  (∀ (f : FPset) (s s1 : State) (a b : Word), s.srcs none [f.a, f.b] = some (s1, [a, b]) →
    ¬ Allowed (b.toNat * 2 ^ 64 + a.toNat) → exec (.pset f) s = .next (s.takeTrap s.cur (trapOf cIllenc))) ∧
  (∀ (f : FPsetd) (s : State) (old v : Nat) (r : VReg), Ready s f.c (1, 0) → f.pn.val < s.me.pats.count →
    old = (s.pattern f.pn.val).desc.toNat →
    (old / 2 ^ 16 % 2 ^ 10 ≤ 768 → s.checkV f.vs 1 = none → s.readV f.vs = ⟨r, false, false⟩ →
      v = f.vs.idx.val + 2 ^ 11 * (match f.vs.lvl with | .main => 0 | .opf => 1 | .latch => 2 | .special => 3) → ∃ d,
      exec (.psetd f) s = .next (done s (due s .pattern (.pat f.pn.val d (some (r.setWidth 512))))) ∧
        d.toNat % 2 ^ 4 = (match f.kc with | .diag => 8 | .perm => 9 | .onehot => 10) ∧ d.toNat / 2 ^ 5 % 2 ^ 3 = 0 ∧
        d.toNat / 2 ^ 4 % 2 = old / 2 ^ 4 % 2 ∧ d.toNat / 2 ^ 8 % 2 ^ 8 = old / 2 ^ 8 % 2 ^ 8 ∧
        d.toNat / 2 ^ 16 % 2 ^ 10 = old / 2 ^ 16 % 2 ^ 10 ∧ d.toNat / 2 ^ 26 % 2 ^ 10 = 0 ∧ d.toNat / 2 ^ 36 = v)) ∧
  (∀ (f : FPsetd) (s : State), f.pn.val < s.me.pats.count → 768 < (s.pattern f.pn.val).desc.toNat / 2 ^ 16 % 2 ^ 10 →
    exec (.psetd f) s = .next (s.takeTrap s.cur (trapOf cIllenc))) ∧
  (∀ (f : FPsett) (s s1 : State) (a : Word), Goes s f.c none [f.a] (1, 0) s1 [a] → f.pn.val < s1.me.pats.count →
    (f.tt.val < s1.me.tts.count → ∃ d, exec (.psett f) s = .next (done s1 (due s1 .pattern (.pat f.pn.val d none))) ∧
      d.toNat % 2 ^ 16 = 11 ∧ d.toNat / 2 ^ 16 % 2 ^ 3 = f.tt.val ∧ d.toNat / 2 ^ 19 % 2 ^ 7 = a.toNat % 2 ^ 7 ∧
      d.toNat / 2 ^ 26 = a.toNat / 2 ^ 8 % 2 ^ 7) ∧
    (s1.me.tts.count ≤ f.tt.val → exec (.psett f) s = .next (s.takeTrap s.cur (trapOf cRegrange))))

namespace Sys2Proof.Claims

/-- Fields of a node of a token tree (R119). -/
def isNode (t : Tree) (n : Nat) : Bool := (t.node n).getLsbD 14
def isAcc (t : Tree) (n : Nat) : Bool := (t.node n).getLsbD 15
def parentOf (t : Tree) (n : Nat) : Nat := (t.node n).toNat % 2 ^ 7
def depthOf (t : Tree) (n : Nat) : Nat := (t.node n).toNat / 2 ^ 7 % 2 ^ 7
def tokenOf (t : Tree) (n : Nat) : Nat := (t.node n).toNat / 2 ^ 16 % 2 ^ 32

/-- The accepted nodes are the path `as` from a root (R329). -/
def IsPath (t : Tree) (as : List Nat) : Prop :=
  (∀ n, n < 128 → (n ∈ as ↔ isNode t n = true ∧ isAcc t n = true)) ∧ (∀ n ∈ as, n < 128) ∧
    ∀ j n, as[j]? = some n → depthOf t n = j ∧ parentOf t n = (if j = 0 then 127 else as.getD (j - 1) 0)

end Sys2Proof.Claims

/-- R119 and R326 to R329: each token-tree write makes the tree that its rule gives from the tree as the context's earlier writes
leave it, TTPOS and TTCHK read the tree as visible at the bundle, and each result is due in the TTREE class; nothing else
changes. A TTADD that its conditions forbid and a TTPRUNE without an accepted path take ILLOP. -/
def Obligations.TokenTrees : Prop :=
  (∀ (f : FTta) (s s1 : State) (v : Word), Goes s f.c none [f.a] (0, 1) s1 [v] → f.tt.val < s1.me.tts.count → ∃ t,
    exec (.ttnew f) s = .next (done s1 (due s1 .ttree (.tree f.tt.val t))) ∧ (∀ n, t.node n = 127#64) ∧
      t.basepos = v.setWidth 32 ∧ t.gen = (s1.treeNow f.tt.val).gen) ∧
  (∀ (f : FTtadd) (s s1 : State) (a b : Word) (old : Tree) (n q : Nat), Goes s f.c none [f.a, f.b] (0, 1) s1 [a, b] →
    f.tt.val < s1.me.tts.count → old = s1.treeNow f.tt.val → n = a.toNat % 2 ^ 7 → q = a.toNat / 2 ^ 8 % 2 ^ 7 →
    let free : Prop := isNode old n = false ∧ q ≠ n ∧ (q = 127 ∨ isNode old q = true ∧ depthOf old q ≠ 127)
    let goes (w : Tree → Prop) : Prop := ∃ t, exec (.ttadd f) s = .next (done s1 (due s1 .ttree (.tree f.tt.val t))) ∧
      t.gen = old.gen ∧ t.basepos = old.basepos ∧ (∀ m, m ≠ n → t.node m = old.node m) ∧ w t
    (a.getLsbD 16 = false → free → goes (fun t => isNode t n = true ∧ isAcc t n = false ∧ parentOf t n = q ∧
      depthOf t n = (if q = 127 then 0 else depthOf old q + 1) ∧ tokenOf t n = b.toNat % 2 ^ 32)) ∧
    (a.getLsbD 16 = true → isNode old n = true → goes (fun t => t.node n = old.node n ||| 0x8000#64)) ∧
    ((a.getLsbD 16 = false ∧ ¬ free ∨ a.getLsbD 16 = true ∧ isNode old n = false) →
      exec (.ttadd f) s = .next (s.takeTrap s.cur (trapOf cIllop)))) ∧
  (∀ (f : FTtv) (s : State) (t : Tree), Ready s f.c (vcnt f.vd 1) → f.tt.val < s.me.tts.count → s.checkV f.vd 1 = none →
    t = s.treeSeen f.tt.val → ∃ v, exec (.ttpos f) s = .next (done s (runResults s .ttree f.vd [v])) ∧
      ∀ n, n < 128 → elemOf 32 [v] n =
        if isNode t n then (t.basepos.toNat + depthOf t n) % 2 ^ 32 else 2 ^ 32 - 1) ∧
  (∀ (f : FTtv) (s : State) (old : Tree), Ready s f.c ((vcnt f.vd 1).1, 1) → f.tt.val < s.me.tts.count →
    s.checkV f.vd 1 = none → old = s.treeNow f.tt.val →
    (∀ as, IsPath old as → ∃ v t,
      exec (.ttprune f) s = .next (done s (runResults s .ttree f.vd [v] ++ due s .ttree (.tree f.tt.val t))) ∧
      (∀ j, j < 128 → elemOf 32 [v] j = as.getD j (2 ^ 32 - 1)) ∧ t.gen = old.gen + 1 ∧
      (∀ n, n ≠ 0 → t.node n = 127#64) ∧ (as = [] → t.node 0 = 127#64 ∧ t.basepos = old.basepos) ∧
      (∀ l, as.getLast? = some l → t.basepos = old.basepos + BitVec.ofNat 32 (as.length - 1) ∧ isNode t 0 = true ∧
        isAcc t 0 = false ∧ parentOf t 0 = 127 ∧ depthOf t 0 = 0 ∧ tokenOf t 0 = tokenOf old l)) ∧
    ((∀ as, ¬ IsPath old as) → exec (.ttprune f) s = .next (s.takeTrap s.cur (trapOf cIllop)))) ∧
  (∀ (f : FTtchk) (s s1 : State) (v : Word), Goes s f.c none [f.a] (oneGuard f.bd) s1 [v] → f.tt.val < s1.me.tts.count →
    exec (.ttchk f) s = .next (done s1 (if f.bd.val = 0 then [] else
      due s1 .ttree (.guard f.bd.val ((s1.treeSeen f.tt.val).gen.toNat == v.toNat % 2 ^ 8))))) ∧
  (∀ (f : FTt) (s : State) (old : Tree), Ready s f.c (0, 1) → f.tt.val < s.me.tts.count → old = s.treeNow f.tt.val → ∃ t,
    exec (.ttgen f) s = .next (done s (due s .ttree (.tree f.tt.val t))) ∧ t.gen = old.gen + 1 ∧
      t.basepos = old.basepos ∧ ∀ n, t.node n = old.node n)

/-! ## Issue (R18 to R34, R138, R225, R233) -/

namespace Sys2Proof.Claims

/-- A context can be chosen: it is READY, and not taken at its bundle boundary for the save of its launch (R24, R45; log 24). -/
def Choosable (s : State) (g : Nat) : Prop := (s.ctx g).st = .ready ∧ ¬ (s.stopped g = true ∧ (s.ctx g).todo = [])

/-- THE BEST READY CONTEXT OF A CORE (R24): it can be chosen, and every other that can has a lower priority, or the same and a longer
way from the rotation pointer. -/
def Best (s : State) (core i : Nat) : Prop :=
  i < 4 ∧ Choosable s (core * 4 + i) ∧
    ∀ j, j < 4 → j ≠ i → Choosable s (core * 4 + j) →
      (s.ctx (core * 4 + j)).csr.pri.toNat < (s.ctx (core * 4 + i)).csr.pri.toNat ∨
        ((s.ctx (core * 4 + j)).csr.pri = (s.ctx (core * 4 + i)).csr.pri ∧
          (i + 4 - (s.core core).rotp % 4) % 4 < (j + 4 - (s.core core).rotp % 4) % 4)

/-- No context of a core can be chosen. -/
def NoReady (s : State) (core : Nat) : Prop := ∀ j, j < 4 → ¬ Choosable s (core * 4 + j)

/-- A context takes a vacant stream, and the rotation pointer moves past it. -/
def asPrimary (s : State) (core i : Nat) : State :=
  (s.modCtx (core * 4 + i) (fun c => { c with st := .primary })).modCore core (fun q =>
    { q with prim := some i, rotp := (i + 1) % 4 })
def asSecondary (s : State) (core i : Nat) : State :=
  (s.modCtx (core * 4 + i) (fun c => { c with st := .secondary })).modCore core (fun q =>
    { q with sec := some i, rotp := (i + 1) % 4 })

/-- The SECONDARY becomes PRIMARY. -/
def movedUp (s : State) (core j : Nat) : State :=
  (s.modCtx (core * 4 + j) (fun c => { c with st := .primary })).modCore core (fun q => { q with prim := some j, sec := none })

/-- Nothing stands between a context's last bundle and its next: no pass ends, no result is due, no pin is held, no wait, skip
or return is under way. -/
def Calm (c : Ctx) : Prop :=
  c.st ≠ .trapped ∧ c.todo = [] ∧ c.resume = none ∧ c.nest = none ∧ c.rbNew = false ∧ c.skip = 0 ∧ c.pins = [] ∧ c.barWait = none ∧
    ∀ p ∈ c.pend, c.bix < p.due

/-- The region rotated by one (R238). -/
def turned (c : Csrs) : Csrs := if c.rsize = 0 then c else { c with rpos := (c.rpos + 1) % c.rsize, rot := c.rot + 1 }

end Sys2Proof.Claims

/-- R23 and R24: a vacant PRIMARY is filled by the SECONDARY, and each vacancy that is left by the best READY context, the PRIMARY
first; without one it stays vacant. Nothing else changes, and a core without a vacancy stays as it is. -/
def Sys2Proof.Claims.VacanciesAreFilledByTheBestReadyContext : Prop :=
  ∀ (core : Fin 256) (s : State),
    ((s.core core.val).prim ≠ none → (s.core core.val).sec ≠ none → exec (.vacancyFill core) s = .next s) ∧
    ((s.core core.val).prim ≠ none → (s.core core.val).sec = none →
      (NoReady s core.val → exec (.vacancyFill core) s = .next s) ∧
      (∀ i, Best s core.val i → exec (.vacancyFill core) s = .next (asSecondary s core.val i))) ∧
    (∀ j t, (s.core core.val).prim = none → (s.core core.val).sec = some j → t = movedUp s core.val j →
      (NoReady t core.val → exec (.vacancyFill core) s = .next t) ∧
      (∀ i, Best t core.val i → exec (.vacancyFill core) s = .next (asSecondary t core.val i))) ∧
    ((s.core core.val).prim = none → (s.core core.val).sec = none →
      (NoReady s core.val → exec (.vacancyFill core) s = .next s) ∧
      (∀ i t, Best s core.val i → t = asPrimary s core.val i →
        (NoReady t core.val → exec (.vacancyFill core) s = .next t) ∧
        (∀ k, Best t core.val k → exec (.vacancyFill core) s = .next (asSecondary t core.val k))))

/-- R19, R26, R30 and R49: a bundle of the PRIMARY of a calm context issues where its bytes decode, its resources do not clash and
nothing that it waits for is missing. Its slots wait to execute in order, BIX is one more than its index, the next bundle is the
one after it, the CSRs that it sees are those of its issue; registers, pending results and memory stay. A SECONDARY's bundle that
shares a slot with it is counted, and one that shares none issues; after 256 the roles swap for a cycle. A stream whose launch is being
saved issues no further bundle and, its bundle over, leaves its stream (R45; that it leaves it is the model's choice, log 24). -/
def Sys2Proof.Claims.BundlesIssue : Prop :=
  (∀ (core : Fin 256) (s s1 : State) (i g : Nat) (b : Fetched), s.power = .on → (s.core core.val).phase = 0 →
    (s.core core.val).swap = false → (s.core core.val).prim = some i → g = core.val * 4 + i → i < 4 → Calm (s.ctx g) →
    s.stopped g = false → s1 = s.modCtx g Ctx.renew → s1.fetch g (s.ctx g).npc = .ok b → b.slots ≠ [] →
    s1.bundleLegal g b.slots = true → s1.needsMet g (s1.needs g b.slots Needs.none) = true →
    ∃ t, exec (.bundleIssue core) s = .next t ∧ t.cur = g ∧ (t.ctx g).todo = b.slots ∧ (t.ctx g).pc = b.pc ∧
      (t.ctx g).npc = b.pc + BitVec.ofNat 64 b.len ∧ (t.ctx g).idx = (s.ctx g).bix ∧ (t.ctx g).bix = (s.ctx g).bix + 1 ∧
      (t.ctx g).view = (s.ctx g).csr ∧ (t.ctx g).csr = (s.ctx g).csr ∧ (t.ctx g).x = (s.ctx g).x ∧ (t.ctx g).b = (s.ctx g).b ∧
      (∀ n, n < 64 * (s.ctx g).csr.vallot → Tab.get 0 n (t.ctx g).v = Tab.get 0 n (s.ctx g).v) ∧
      (t.ctx g).slots = b.slots ∧ (t.ctx g).pend = (s.ctx g).pend ∧ (∀ k, k ≠ g → t.ctx k = s.ctx k) ∧
      t = { s with cur := g, ctxs := t.ctxs, cores := t.cores } ∧ (t.core core.val).phase = 1) ∧
  (∀ (core : Fin 256) (s s2 : State) (j : Nat) (b : Fetched) (first : Nat), s.power = .on → (s.core core.val).phase ≠ 0 →
    (s.core core.val).swap = false → (s.core core.val).sec = some j → s.prep (core.val * 4 + j) = .go s2 b first →
    ((∀ k, (slotMask first b).testBit k = true → (s.core core.val).mask.testBit k = false) →
      exec (.bundleIssue core) s = .next ((s2.issueBundle (core.val * 4 + j) b first).modCore core.val (fun q =>
        { q with phase := 0, mask := 0, swap := false, promo := 0 }))) ∧
    ((∃ k, (slotMask first b).testBit k = true ∧ (s.core core.val).mask.testBit k = true) →
      exec (.bundleIssue core) s = .next (s2.modCore core.val (fun q =>
        { q with phase := 0, mask := 0, swap := false, promo := q.promo + 1 })))) ∧
  (∀ (core : Fin 256) (s : State) (i g : Nat), s.power = .on → (s.core core.val).phase = 0 → (s.core core.val).swap = false →
    (s.core core.val).prim = some i → (s.core core.val).sec = none → g = core.val * 4 + i → i < 4 → (s.ctx g).st = .primary →
    (s.ctx g).todo = [] → s.stopped g = true →
    ∃ t, exec (.bundleIssue core) s = .next t ∧ t.ctx g = { s.ctx g with st := .ready } ∧ (∀ k, k ≠ g → t.ctx k = s.ctx k) ∧
      t.core core.val = { s.core core.val with prim := none, mask := 0 } ∧ (∀ k, k ≠ core.val → t.core k = s.core k) ∧
      t = { s with ctxs := t.ctxs, cores := t.cores }) ∧
  (∀ (core : Fin 256) (s : State),
    ((s.core core.val).promo < 256 → exec (.promotion core) s = .next s) ∧
    (256 ≤ (s.core core.val).promo → exec (.promotion core) s = .next (s.modCore core.val (fun q => { q with swap := true }))))

/-- R31 and R33: at the point before the bundle with index BIX, the results due by then are written and no other: of those for one
x register or guard bit the one with the greatest due index is left, and of equals the last that was made; the others go on
waiting, x0 takes nothing, and of the machine only registers change. -/
def Obligations.ResultsLandAtTheirDueIndex : Prop :=
  ∀ (ctx : Fin 1024) (s : State) (c : Ctx), c = s.ctx ctx.val → c.st ≠ .trapped → c.todo = [] → c.resume = none → c.nest = none →
    c.rbNew = false →
    ∃ t, exec (.resultWrite ctx) s = .next t ∧
      (t.ctx ctx.val).pend = c.pend.filter (fun p => decide (c.bix < p.due)) ∧
      t = { s with ctxs := t.ctxs, cores := t.cores } ∧
      (∀ n pre d src cnt chain v post, n ≠ 0 → c.pend = pre ++ ⟨d, src, cnt, chain, .x n v⟩ :: post → d ≤ c.bix →
        (∀ p ∈ pre, ∀ w, p.res = .x n w → p.due ≤ c.bix → p.due ≤ d) →
        (∀ p ∈ post, ∀ w, p.res = .x n w → p.due ≤ c.bix → p.due < d) →
        Tab.get 0 n (t.ctx ctx.val).x = v) ∧
      (∀ n, (∀ p ∈ c.pend, ∀ w, p.res = .x n w → c.bix < p.due) → Tab.get 0 n (t.ctx ctx.val).x = Tab.get 0 n c.x) ∧
      Tab.get 0 0 (t.ctx ctx.val).x = Tab.get 0 0 c.x ∧
      (∀ n pre d src cnt chain v post, 0 < n → n < 8 → c.pend = pre ++ ⟨d, src, cnt, chain, .guard n v⟩ :: post → d ≤ c.bix →
        (∀ p ∈ c.pend, ∀ w, p.res ≠ .guards w) →
        (∀ p ∈ pre, ∀ w, p.res = .guard n w → p.due ≤ c.bix → p.due ≤ d) →
        (∀ p ∈ post, ∀ w, p.res = .guard n w → p.due ≤ c.bix → p.due < d) →
        (t.ctx ctx.val).b.getLsbD n = v)

/-- R138, R225 and R233: after the last bundle of a pass the generators named in it step once, after every write due then (`u`); the
region turns by one where REN is set, LPASS falls by one, and the next bundle is the body's first while passes are left. Inside a
pass nothing changes. A pin goes once no bundle of its window is left. -/
def Sys2Proof.Claims.PassesAndPinsEnd : Prop :=
  (∀ (ctx : Fin 1024) (s u : State) (c d : Ctx) (n : Nest), c = s.ctx ctx.val → c.st ≠ .trapped → c.todo = [] → c.resume = none →
    c.nest = some n → u = (s.killRegion ctx.val).landDue ctx.val c.bix → d = u.ctx ctx.val → n.gens.Nodup →
    (n.pos ≤ n.bl → exec (.loopPassEnd ctx) s = .next s) ∧
    (n.bl < n.pos → ∃ gs, exec (.loopPassEnd ctx) s = .next (u.setCtx ctx.val
        { d with g := gs, csr := { (if d.view.ren then turned d.csr else d.csr) with lpass := d.csr.lpass - 1#64 },
                 nest := if d.csr.lpass = 1#64 then none else some { n with pos := 0, gens := [] },
                 npc := if d.csr.lpass = 1#64 then d.npc else n.body }) ∧
      ∀ k, Tab.get Gen.zero k gs =
        if k ∈ n.gens then (Tab.get Gen.zero k d.g).step else Tab.get Gen.zero k d.g)) ∧
  (∀ (ctx : Fin 1024) (s : State),
    exec (.pinExpiry ctx) s = .next (s.modCtx ctx.val (fun c => { c with pins := c.pins.filter (fun p => decide (0 < p.left)) })))

/-! ## Engines beneath the cores (R127, R131, R137, R141, R161 to R167, R432 to R434, R457, R458, R465) -/

namespace Sys2Proof.Claims

/-- The release phase of a context's core and the gap of a phase on a die (R165). -/
def phase (s : State) (g : Nat) : Nat := (Tab.get 0 (g / 4 % 64 / 16) (s.die (g / 256)).dmpph).toNat / 2 ^ (4 * (g / 4 % 64 % 16)) % 8
def gap (s : State) (die f : Nat) : Nat := (s.die die).dmpgap.toNat / 2 ^ (8 * f) % 256

/-- A context waits in BARW or BAR for an episode of a barrier. -/
def awaits (s : State) (g : Nat) (k : BarKey) (ep : Nat) : Bool :=
  decide ((s.ctx g).barWait = some (k, ep) ∧ (s.ctx g).st ≠ .trapped ∧ (s.ctx g).st ≠ .halted ∧ (s.ctx g).st ≠ .empty)

/-- Some participant on a die waits in a phase. -/
def phaseUsed (s : State) (l : Launch) (k : BarKey) (die f : Nat) : Bool :=
  (l.participants k).any (fun p => decide (l.gcidAt p / 256 = die) && awaits s (l.gcidAt p) k (l.bar k).ep &&
    decide (phase s (l.gcidAt p) = f))

/-- The gaps of the phases in use on a die below a phase (R166). -/
def gapsBelow (s : State) (l : Launch) (k : BarKey) (die f : Nat) : Nat :=
  ((List.range f).map (fun h => if phaseUsed s l k die h then gap s die h else 0)).sum

/-- The first cycle of an episode's release window: its completion, or the end of the window of the episode before (R167). -/
def windowFrom (s : State) (l : Launch) (k : BarKey) : Nat := max s.cycle (l.bar k).window

/-- THE BARRIER AFTER AN EPISODE'S COMPLETION (R166, R167, R241): the next episode is pending with the arrivals that it has, and
every arrived participant has a release at its phase. -/
def barAfter (s : State) (l : Launch) (k : BarKey) : Bar :=
  { ep := (l.bar k).ep + 1, arr := (l.bar k).arrNext, arrNext := [], last := (l.bar k).last,
    rels := (l.bar k).rels ++ ((l.participants k).filter (fun p => (l.bar k).arr.contains p)).map (fun p =>
      { gcid := p, ep := (l.bar k).ep, phase := phase s (l.gcidAt p),
        cycle := windowFrom s l k + gapsBelow s l k (l.gcidAt p / 256) (phase s (l.gcidAt p)),
        waiter := awaits s (l.gcidAt p) k (l.bar k).ep }),
    window := windowFrom s l k + max (max (gapsBelow s l k 0 8) (gapsBelow s l k 1 8))
      (max (gapsBelow s l k 2 8) (gapsBelow s l k 3 8)) }

/-- A granule's tag becomes FREE with the episode (R161): it is in an owned range of a participant and its tag, of this
generation, names a participant in READ1, OWNED, HANDOFF or ATOMIC. -/
def setFree (s : State) (l : Launch) (k : BarKey) (sp : Space) (gr : Nat) : Prop :=
  (∃ p ∈ l.participants k, ∃ r ∈ (s.ctx (l.gcidAt p)).owned, r.sp = sp ∧ r.lo ≤ gr ∧ gr < r.hi) ∧
    (∃ p ∈ l.participants k, l.gcidAt p = tagCtx (s.tag sp gr)) ∧ tagGen (s.tag sp gr) = (s.part l.part).lgen ∧
    (tagSt (s.tag sp gr) = 1 ∨ tagSt (s.tag sp gr) = 3 ∨ tagSt (s.tag sp gr) = 4 ∨ tagSt (s.tag sp gr) = 5)

/-- An episode is complete (R241, R244). -/
def Complete (s : State) (l : Launch) (k : BarKey) : Prop :=
  (∃ p ∈ l.participants k, p ∈ (l.bar k).arr) ∧
    ∀ p ∈ l.participants k, p ∈ (l.bar k).arr ∨ (s.ctx (l.gcidAt p)).st = .halted

/-- A tag that the sweepers set FREE (R465): of a generation that is not that of the partition of its context's cluster. -/
def StaleTag (s : State) (t : BitVec 32) : Prop :=
  0 < tagSt t ∧ tagSt t < 6 ∧ ∃ p, s.partOfCluster (tagCtx t / 32) = some p ∧ tagGen t ≠ (s.part p).lgen

/-- A granule that the sweepers of a partition's pass visit: of a die's DRAM data, or of one of its clusters. -/
def Swept (s : State) (p : Nat) (sp : Space) (gr : Nat) : Prop :=
  (sp = .dram ∧ inData (gr * 64) = true) ∨ ∃ c, c < 32 ∧ (s.part p).clmask.getLsbD c = true ∧ sp = .sp c

/-- A context of a partition's clusters. -/
def inPart (s : State) (p g : Nat) : Prop := (s.part p).clmask.getLsbD (g / 32) = true

/-- The state with every committed write of a barrier's participants performed, participant by participant (R145, R150). -/
def performedAt (s : State) (l : Launch) (k : BarKey) : State :=
  (l.participants k).foldl (fun u p => u.perform (fun w => w.gcid == l.gcidAt p)) s

/-- The state with every committed write of a partition's contexts performed (R163). -/
def quiet (s : State) (p : Nat) : State := s.perform (fun w => (s.part p).clmask.getLsbD (w.gcid / 32))

/-- The launch at `n` has only the barrier `k` changed, to `b`. -/
def OnlyBar (t : State) (n : Nat) (l : Launch) (k : BarKey) (b : Bar) : Prop :=
  ∃ l', t.launch n = some l' ∧ l' = { l with bars := l'.bars } ∧ l'.bar k = b ∧ ∀ k', k' ≠ k → l'.bar k' = l.bar k'

/-- THE STATE AFTER THE COMPLETION OF A LAUNCH-SCOPE BARRIER (R162, R163, R465) from one in which the partition's writes are
performed: the pass of the sweepers has ended, so that stale tags are FREE and every other is as it was, LGEN is one higher
modulo 64, and the partition's contexts hold no release record and no owned range. -/
def Regenerated (s t : State) (n : Nat) (l : Launch) (k : BarKey) : Prop :=
  OnlyBar t n l k (barAfter s l k) ∧
    t.parts = Tab.put l.part { s.part l.part with lgen := ((s.part l.part).lgen + 1) % 64 } s.parts ∧
    (∀ g, inPart s l.part g → t.ctx g = { s.ctx g with recs := [], owned := [] }) ∧
    (∀ g, ¬ inPart s l.part g → t.ctx g = s.ctx g) ∧
    (∀ c, t.clu c = { s.clu c with tags := (t.clu c).tags }) ∧
    (∀ d, t.die d = { s.die d with arb := (t.die d).arb } ∧ (s.die d).arb <+: (t.die d).arb) ∧
    (∀ sp gr, Swept s l.part sp gr → StaleTag s (s.tag sp gr) → t.tag sp gr = 0#32) ∧
    (∀ sp gr, ¬ (Swept s l.part sp gr ∧ StaleTag s (s.tag sp gr)) → t.tag sp gr = s.tag sp gr) ∧
    t = { s with ctxs := t.ctxs, clus := t.clus, dies := t.dies, dtags := t.dtags, parts := t.parts, launches := t.launches,
                 devdrop := t.devdrop }

end Sys2Proof.Claims

/-- R161 to R163, R166, R167 and R241: a barrier completes once every participant has arrived or is HALTED and one has arrived,
and not before (that a participant that is HALTED needs no arrival, and that one must have arrived, is a reading of R241 and
R244). With it cluster and die scope set the participants' granules FREE, their writes being performed first (R145, R150), and clear
their lists; launch scope raises LGEN, by
the event LGEN_INCREMENT (log 36), the partition's writes being performed and a pass of its tag sweepers ended first. Each arrived
participant's release comes after the gaps of the earlier phases that hold a waiter on its die; that every die's barrier unit
learns of the completion in one cycle, and that the whole schedule starts where the window before it ends, is the model's (logs 47
and 48). -/
def Sys2Proof.Claims.BarriersComplete : Prop :=
  (∀ (n : Fin 16) (u : BarId) (k : BarKey) (s : State) (l : Launch), k = ⟨u.scope, u.unit, u.bn.val⟩ →
    s.launch n.val = some l → l.placed = true →
    (¬ Complete s l k → exec (.barrierCompletion n u) s = .next s) ∧
    (∀ q, Complete s l k → u.scope ≠ .launch → q = performedAt s l k → ∃ t, exec (.barrierCompletion n u) s = .next t ∧
      OnlyBar t n.val l k (barAfter s l k) ∧
      (∀ sp gr, setFree q l k sp gr → t.tag sp gr = 0#32) ∧ (∀ sp gr, ¬ setFree q l k sp gr → t.tag sp gr = q.tag sp gr) ∧
      (∀ p ∈ l.participants k, t.ctx (l.gcidAt p) = { s.ctx (l.gcidAt p) with owned := [] }) ∧
      (∀ g, (∀ p ∈ l.participants k, g ≠ l.gcidAt p) → t.ctx g = s.ctx g) ∧
      (∀ c, t.clu c = { q.clu c with tags := (t.clu c).tags }) ∧
      t = { q with ctxs := t.ctxs, clus := t.clus, dtags := t.dtags, launches := t.launches }) ∧
    (Complete s l k → u.scope = .launch →
      ∃ t, exec (.barrierCompletion n u) s = .next t ∧ Regenerated (quiet s l.part) t n.val l k)) ∧
  (∀ (p : Fin 8) (s : State) (n : Nat) (l : Launch), s.launches = [(n, l)] → l.part = p.val → l.placed = true →
    Complete s l ⟨.launch, 0, 0⟩ →
    ∃ t, exec (.lgenIncrement p) s = .next t ∧ Regenerated (quiet s l.part) t n l ⟨.launch, 0, 0⟩)

/-- R166, R185 and R242: in the cycle of its release, with every waiter of a lower phase on its die released, a BLOCKED participant
that waits for the episode is READY, and the release is gone; other releases, contexts and everything else stay. -/
def Sys2Proof.Claims.TheDamperReleasesWaiters : Prop :=
  ∀ (n : Fin 16) (u : BarId) (k : BarKey) (f : Fin 8) (s : State) (l : Launch) (due : Rel → Prop),
    k = ⟨u.scope, u.unit, u.bn.val⟩ → s.launch n.val = some l → l.placed = true →
    (∀ r, due r ↔ r.phase = f.val ∧ r.cycle ≤ s.cycle ∧
      ∀ q ∈ (l.bar k).rels, q.waiter = true → q.phase < f.val → l.gcidAt q.gcid / 256 ≠ l.gcidAt r.gcid / 256) →
    ∃ t, exec (.damperRelease n u f) s = .next t ∧
      (∃ rels, OnlyBar t n.val l k { l.bar k with rels := rels } ∧ rels.Sublist (l.bar k).rels ∧
        ∀ r, r ∈ rels ↔ r ∈ (l.bar k).rels ∧ ¬ due r) ∧
      (∀ g, (∃ r ∈ (l.bar k).rels, due r ∧ l.gcidAt r.gcid = g ∧ (s.ctx g).st = .blocked ∧
          (s.ctx g).barWait = some (k, r.ep)) → t.ctx g = { s.ctx g with st := .ready }) ∧
      (∀ g, (¬ ∃ r ∈ (l.bar k).rels, due r ∧ l.gcidAt r.gcid = g ∧ (s.ctx g).st = .blocked ∧
          (s.ctx g).barWait = some (k, r.ep)) → t.ctx g = s.ctx g) ∧
      t = { s with ctxs := t.ctxs, launches := t.launches }

/-- R137, R141, R168 and R465: the oldest write of a context's stream is performed with its bytes at its address, where no earlier
write of the context overlaps it; the sweeper sets a stale tag FREE, leaves a current one, and reports one with a state code never written, by a
record whose place, and whose loss in a full arbiter, are the model's (log 29). A Mantel refresh changes nothing. -/
def Sys2Proof.Claims.WritesPerformAndTheSweeperFreesStaleTags : Prop :=
  (∀ (ctx : Fin 1024) (strm : Fin 16) (s : State),
    ((∀ w ∈ s.wbuf, w.gcid = ctx.val → w.strm ≠ strm.val) → exec (.writePerformed ctx strm) s = .next s) ∧
    (∀ pre w post, s.wbuf = pre ++ w :: post → w.gcid = ctx.val → w.strm = strm.val → w ∉ post →
      (∀ u ∈ pre, u.gcid = ctx.val → u.strm ≠ strm.val ∧
        (u.sp ≠ w.sp ∨ u.addr + u.bytes.length ≤ w.addr ∨ w.addr + w.bytes.length ≤ u.addr)) →
      exec (.writePerformed ctx strm) s = .next ({ s with wbuf := pre ++ post }.setBytes w.sp w.addr w.bytes))) ∧
  (∀ (u : SweepUnit) (gr die adr : Nat) (sp : Space) (s : State),
    ((∃ c : Fin 32, u = .cluster c ∧ sp = .sp c.val ∧ die = c.val / 8 ∧ adr = gr * 64) ∨
      (∃ (d : Fin 4) (o : Nat), u = .die d ∧ sp = .dram ∧ die = d.val ∧ zoneOf (gr * 64) = .data d.val o ∧ adr = tagAddr gr)) →
    (tagSt (s.tag sp gr) = 0 → exec (.tagSweep u gr) s = .next s) ∧
    (0 < tagSt (s.tag sp gr) → tagSt (s.tag sp gr) < 6 → ∀ p, s.partOfCluster (tagCtx (s.tag sp gr) / 32) = some p →
      (tagGen (s.tag sp gr) = (s.part p).lgen → exec (.tagSweep u gr) s = .next s) ∧
      (tagGen (s.tag sp gr) ≠ (s.part p).lgen → exec (.tagSweep u gr) s = .next (s.setTag sp gr 0#32))) ∧
    (0 < tagSt (s.tag sp gr) → tagSt (s.tag sp gr) < 6 → s.partOfCluster (tagCtx (s.tag sp gr) / 32) = none →
      exec (.tagSweep u gr) s = .next s) ∧
    (6 ≤ tagSt (s.tag sp gr) → exec (.tagSweep u gr) s =
      .next (told s ⟨5, none, die, none, 0, BitVec.ofNat 256 (adr + (s.tag sp gr).toNat * 2 ^ 64)⟩))) ∧
  (∀ (d : Fin 4) (s : State), exec (.mantelRefresh d) s = .next s)

/-- R127: the clearer changes no byte that is read and no poison that is seen; the first byte that it had not reached is cleared. -/
def Sys2Proof.Claims.TheClearerChangesNothingThatIsRead : Prop :=
  ∀ (c : Fin 32) (s : State), ∃ t, exec (.scratchpadClear c) s = .next t ∧
    t = { s with clus := t.clus } ∧ (∀ k, k ≠ c.val → t.clu k = s.clu k) ∧
    t.clu c.val = { s.clu c.val with mem := (t.clu c.val).mem, pois := (t.clu c.val).pois, uncleared := (t.clu c.val).uncleared } ∧
    (∀ sp a, t.memByte sp a = s.memByte sp a) ∧ (∀ sp a, t.poisoned sp a = s.poisoned sp a) ∧
    (∀ a, (t.clu c.val).isUncleared a = true → (s.clu c.val).isUncleared a = true) ∧
    (∀ lo hi rest, (s.clu c.val).uncleared = (lo, hi) :: rest → lo < hi → (t.clu c.val).isUncleared lo = false)

namespace Sys2Proof.Claims

/-- A translation of the page that an invalidation names. -/
def Stale (i : Inval) (l : Leaf) : Prop := l.asid = i.asid ∧ l.va < i.va + i.size ∧ i.va < l.va + l.size

/-- A TLB without the entries of an invalidation, and with every other. -/
def Flushed (i : Inval) (old new : List Leaf) : Prop :=
  (∀ l ∈ new, l ∈ old ∧ ¬ Stale i l) ∧ ∀ l ∈ old, ¬ Stale i l → l ∈ new

/-- A context whose pins an invalidation waits for (R458): a stream that neither issued it nor started its CPYD. -/
def Waited (s : State) (i : Inval) (g : Nat) : Prop :=
  ((s.ctx g).st = .primary ∨ (s.ctx g).st = .secondary) ∧ i.issuer ≠ some g ∧ ∀ q, i.copyOf = some q → q.1 ≠ g

/-- A live pin on an invalidation's page. -/
def Pinned (i : Inval) (p : Pin) : Prop := 0 < p.left ∧ ∃ l, p.leaf = some l ∧ Stale i l

/-- Whether an entry of a core's queue can go on (R432, R476): a trap to the handler, as the first of its kind, with the handler's
context free; a record with room in the die's arbiter. -/
def GoesOn (s : State) (core n : Nat) : Prop :=
  (n < 4 ∧ (s.core core).trapQ.find? (fun m => decide (m < 4)) = some n ∧
    ((s.ctx (core * 4 + n)).st ≠ .trapped ∨
      (s.ctx (core * 4 + (s.ctx (core * 4 + n)).trcfg.toNat / 2 ^ 8 % 4)).st = .empty ∨
      (s.ctx (core * 4 + (s.ctx (core * 4 + n)).trcfg.toNat / 2 ^ 8 % 4)).st = .halted)) ∨
  (4 ≤ n ∧ (s.die (core / 64)).arb.length < 1024)

/-- Whether a delivered handler of a core that has not halted handles context `i` of the core (R434). -/
def Handled (s : State) (core i : Nat) : Prop :=
  ∃ j, j < 4 ∧ (s.ctx (core * 4 + j)).csr.hdl = true ∧ (s.ctx (core * 4 + j)).csr.hctxV = true ∧
    (s.ctx (core * 4 + j)).csr.hctxC.toNat = i ∧ (s.ctx (core * 4 + j)).st ≠ .halted ∧ (s.ctx (core * 4 + j)).st ≠ .empty

end Sys2Proof.Claims

open Sys2Proof.Claims in
/-- R174, R457 and R458: an invalidation that no copy and no pin of an active stream holds back completes: no TLB that a core in its
scope reaches keeps a translation of its page, nor its code lines, pins of other contexts on it are released with their windows kept, an
XINV is no longer busy, and one with an issuer is kept as done for it. One that a copy ahead of a marker, or a pin, holds back goes
on, and takes only the pins that it does not wait on. -/
def Obligations.InvalidationsComplete : Prop :=
  ∀ (n : Nat) (s : State) (i : Inval), s.invals.find? (fun j => j.no == n && !j.done) = some i →
    ((s.marked n = true ∨ ∃ k ∈ i.cores, ∃ c < 4, Waited s i (k * 4 + c) ∧ ∃ p ∈ (s.ctx (k * 4 + c)).pins, Pinned i p) →
      ∃ t, exec (.invalidationComplete n) s = .next t ∧ t = { s with ctxs := t.ctxs } ∧
        ∀ g, t.ctx g = { s.ctx g with pins := (t.ctx g).pins } ∧
          (t.ctx g).pins.map (fun p => (p.va, p.size, p.write, p.left)) = (s.ctx g).pins.map (fun p => (p.va, p.size, p.write, p.left)) ∧
          ((g / 4 ∉ i.cores ∨ Waited s i g) → t.ctx g = s.ctx g) ∧
          (g / 4 ∈ i.cores → ¬ Waited s i g → ∀ p ∈ (t.ctx g).pins, ¬ Pinned i p)) ∧
    (s.marked n = false → (∀ k ∈ i.cores, ∀ c < 4, Waited s i (k * 4 + c) → ∀ p ∈ (s.ctx (k * 4 + c)).pins, ¬ Pinned i p) →
      ∃ t, exec (.invalidationComplete n) s = .next t ∧
        (∀ k ∈ i.cores, Flushed i (s.core k).tlb (t.core k).tlb ∧ Flushed i (s.clu (k / 8)).tlb (t.clu (k / 8)).tlb ∧
          (∀ l ∈ (t.core k).icache, l ∈ (s.core k).icache ∧
            ¬ (l.asid = i.asid ∧ l.va < i.va + i.size ∧ i.va < l.va + 64))) ∧
        (∀ k, t.core k = { s.core k with tlb := (t.core k).tlb, icache := (t.core k).icache }) ∧
        (∀ k, k ∉ i.cores → t.core k = s.core k) ∧
        (∀ c, t.clu c = { s.clu c with tlb := (t.clu c).tlb }) ∧
        (∀ c, (∀ k ∈ i.cores, k / 8 ≠ c) → t.clu c = s.clu c) ∧
        (∀ g, t.ctx g = { s.ctx g with pins := (t.ctx g).pins } ∧
          (t.ctx g).pins.map (fun p => (p.va, p.size, p.write, p.left)) = (s.ctx g).pins.map (fun p => (p.va, p.size, p.write, p.left)) ∧
          (g / 4 ∈ i.cores → ∀ p ∈ (t.ctx g).pins, ¬ Pinned i p)) ∧
        (∀ g, g / 4 ∉ i.cores → t.ctx g = s.ctx g) ∧
        t.invals = s.invals.filter (fun j => j.no != n) ++ (if i.issuer = none then [] else [{ i with done := true }]) ∧
        (∀ p, t.part p = if i.xinv = true ∧ p = i.part then { s.part p with xinvBusy := false } else s.part p) ∧
        t = { s with ctxs := t.ctxs, cores := t.cores, clus := t.clus, invals := t.invals, parts := t.parts })

open Sys2Proof.Claims in
/-- R432 to R434 and R476: the first entry of a core's queue that can go on leaves it. A trap that goes to the host is recorded with
its trap status words and raises the partition's interrupt, and a stopped copy with its registers, if it is still stopped; a trap delivered leaves the handler
context READY with HDL set and HCTX naming the trapped context, which stays as it is; a trap whose delivery fails goes to the host, or
waits for room in the arbiter. R430 and R434: TRESUME makes a TRAPPED context that no delivered handler handles READY at its slot-resume
point, and no other. -/
def Sys2Proof.Claims.TrapsAreDeliveredAndResumed : Prop :=
  (∀ (core : Fin 256) (s : State), (∀ m ∈ (s.core core.val).trapQ, ¬ GoesOn s core.val m) → exec (.trapDelivery core) s = .next s) ∧
  (∀ (core : Fin 256) (s u : State) (pre rest : List Nat) (n : Nat), (s.core core.val).trapQ = pre ++ n :: rest →
    (∀ m ∈ pre, ¬ GoesOn s core.val m) → GoesOn s core.val n →
    u = s.modCore core.val (fun q => { q with trapQ := (pre ++ rest).filter (fun m => m != n) }) →
    (4 ≤ n → n < 8 → exec (.trapDelivery core) s = .next (toHost u core.val (core.val * 4 + (n - 4)))) ∧
    (∀ ch : Nat, n = 8 + ch → (∀ c l, (s.chan core.val ch).copies = c :: l → c.stop = none) →
      exec (.trapDelivery core) s = .next u) ∧
    (∀ (ch : Nat) (c : Copy) (l : List Copy), n = 8 + ch → (s.chan core.val ch).copies = c :: l → c.stop ≠ none →
      c.gcid / 4 = core.val →
      exec (.trapDelivery core) s = .next (u.modDie (core.val / 64) (fun d => { d with arb := d.arb ++
        [⟨2, some c.part, core.val / 64, some c.gcid, ltagOn u core.val,
          (0#64 ++ BitVec.ofNat 64 ch ++ u.cpfad core.val ch ++ u.cpstop core.val ch : BitVec 256)⟩] }))) ∧
    (n < 4 → (s.ctx (core.val * 4 + n)).st ≠ .trapped → exec (.trapDelivery core) s = .next u) ∧
    (∀ h, n < 4 → (s.ctx (core.val * 4 + n)).st = .trapped → h = core.val * 4 + (s.ctx (core.val * 4 + n)).trcfg.toNat / 2 ^ 8 % 4 →
      (u.deliver core.val n = none → (s.die (core.val / 64)).arb.length < 1024 →
        exec (.trapDelivery core) s = .next (toHost u core.val (core.val * 4 + n))) ∧
      (u.deliver core.val n = none → 1024 ≤ (s.die (core.val / 64)).arb.length →
        exec (.trapDelivery core) s = .next (u.modCore core.val (fun q => { q with trapQ := q.trapQ ++ [4 + n] }))) ∧
      (∀ t, u.deliver core.val n = some t → exec (.trapDelivery core) s = .next t ∧ (t.ctx h).st = .ready ∧
        (t.ctx h).csr.hdl = true ∧ (t.ctx h).csr.hctxV = true ∧ (t.ctx h).csr.hctxC.toNat = n ∧
        (∀ g, g ≠ h → t.ctx g = s.ctx g)))) ∧
  (∀ (core : Fin 256) (i : Fin 4) (s : State) (g : Nat), g = core.val * 4 + i.val →
    ((s.ctx g).st ≠ .trapped ∨ Handled s core.val i.val → exec (.tresume core i) s = .next s) ∧
    ((s.ctx g).st = .trapped → ¬ Handled s core.val i.val →
      ∃ t, exec (.tresume core i) s = .next t ∧ (t.ctx g).st = .ready ∧
        (t.ctx g).resume = some (if (s.ctx g).tsw0.getLsbD 11 then 8 else (s.ctx g).tsw0.toNat / 2 ^ 8 % 2 ^ 3) ∧
        t.ctx g = { s.ctx g with st := .ready, resume := (t.ctx g).resume, tsw0 := (t.ctx g).tsw0, tsw1 := (t.ctx g).tsw1,
                                 tsw2 := (t.ctx g).tsw2, tsw3 := (t.ctx g).tsw3 } ∧
        (∀ k, k ≠ g → t.ctx k = s.ctx k) ∧
        t = { s with freeN := t.freeN, ctxs := t.ctxs, cores := t.cores }))

/-! ## Command streams and the launch path (R214 to R217, R407 to R423) -/

namespace Sys2Proof.Claims

/-- A field of a packet, a header or a descriptor: byte offset and size (R412). -/
def field (p : BitVec 256) (o n : Nat) : Nat := p.toNat / 2 ^ (8 * o) % 2 ^ (8 * n)

/-- A STREAM BEGINS ITS NEXT COMMAND (R408 to R411): it is enabled and not stopped, with no command in progress and one pending; the
packet at HEAD is readable, well formed and aligned with opcode `op`. `t` is the state with the command in progress. -/
def Begins (s : State) (n op : Nat) (t : State) (p : BitVec 256) : Prop :=
  s.power = .on ∧ s.recov = false ∧ (s.stream n).en = true ∧ (s.stream n).busy = false ∧ (s.stream n).detached = false ∧
    (s.stream n).st ≠ .stop ∧ (s.stream n).head ≠ (s.stream n).tail % 2 ^ (s.stream n).lsize ∧ s.packet n = some p ∧
    field p 0 1 = op ∧ pktOk p = true ∧ pktAligned p = true ∧
    t = s.modStream n (fun q => { q with busy := true, st := .run, cmd := p, cmdOff := q.head })

/-- A command of a stream is in progress. -/
def InProgress (s : State) (n op : Nat) (p : BitVec 256) : Prop :=
  (s.stream n).busy = true ∧ (s.stream n).en = true ∧ (s.stream n).detached = false ∧ (s.stream n).cmd = p ∧ field p 0 1 = op

/-- A command begins or is in progress: `t` is the state in which it acts. -/
def Acts (s : State) (n op : Nat) (t : State) (p : BitVec 256) : Prop := Begins s n op t p ∨ (InProgress s n op p ∧ t = s)

/-- No FENCE waits for stream `n` any more (R413). -/
def unwaited (s : State) (n : Nat) : State :=
  { s with streams := mapVals (fun _ (q : Stream) => { q with fence := q.fence.filter (fun m => m != n) }) s.streams }

/-- A COMMAND COMPLETES (R409, R410): HEAD moves past it, and the stream is IDLE or runs on. -/
def finished (s : State) (n : Nat) : State :=
  unwaited (s.modStream n (fun q =>
    { q with busy := false, detached := false, head := (q.head + 32) % 2 ^ q.lsize,
             st := if (q.head + 32) % 2 ^ q.lsize = q.tail % 2 ^ q.lsize then .idle else .run })) n

/-- A COMMAND FAILS (R411): STATE is STOP, ERR holds the code and FOFF the ring offset of the command, HEAD stays and the stream's
interrupt is raised. -/
def stopped (s : State) (n err : Nat) : State :=
  (unwaited (s.modStream n (fun q =>
    { q with busy := false, detached := false, st := .stop, err := BitVec.ofNat 8 err,
             foff := if q.busy then q.cmdOff else q.head })) n).irq n

/-- The clusters and contexts of a launch that have been given back are EMPTY, without regions or counts; release records and owned
ranges stay until LGEN rises (R156, R159, R416). -/
def GivenBack (s t : State) (l : Launch) : Prop :=
  (∀ m ∈ l.map, (t.clu m.2).regions = [] ∧ (t.clu m.2).ec = [] ∧
    ∀ i, i < 8 → (t.core (8 * m.2 + i)).launch = none ∧ (t.core (8 * m.2 + i)).prim = none ∧ (t.core (8 * m.2 + i)).ch = [] ∧
      ∀ j, j < 4 → ∀ c, c = s.ctx (4 * (8 * m.2 + i) + j) →
        t.ctx (4 * (8 * m.2 + i) + j) = { Ctx.reset with tok := c.tok, recs := c.recs, owned := c.owned })

/-- A pre-emption of a launch whose cores have no copies and whose contexts run no loop (R440): its registers are kept with it. -/
def Kept (s t : State) (n : Nat) (l : Launch) : Prop :=
  GivenBack s t l ∧ (t.stream n).st = .preempted ∧
    ∃ l' cores clus, t.launch n = some l' ∧ l'.placed = false ∧ l'.saved = some (cores, clus) ∧
      (∀ m ∈ l.map, ∀ i, i < 8 → ∃ c ∈ cores, c.vcl = m.1 ∧ c.core = i ∧ ∀ j, j < 4 →
        ∃ r : Ctx, c.ctxs.getD j Ctx.reset = { s.ctx (4 * (8 * m.2 + i) + j) with
          st := r.st, pins := r.pins, recs := [], owned := [], tok := 0 }) ∧
      (∀ m ∈ l.map, ∃ c ∈ clus, c.vcl = m.1 ∧ c.cl.regions = (s.clu m.2).regions ∧ c.cl.ec = (s.clu m.2).ec)

/-- A launch that can be kept at once (R45): every context stands at a bundle boundary, no copy stands in its cores, no pass of a
loop and no write is under way, and no KILL waits for the save. -/
def AtRest (s : State) (l : Launch) : Prop :=
  s.wbuf = [] ∧ l.killed = false ∧ ∀ m ∈ l.map, ∀ i, i < 8 → (s.core (8 * m.2 + i)).ch = [] ∧
    ∀ j, j < 4 → (s.ctx (4 * (8 * m.2 + i) + j)).nest = none ∧ (s.ctx (4 * (8 * m.2 + i) + j)).todo = []

/-- The clusters that the launch of a stream holds. -/
def held (s : State) (n : Nat) : List Nat :=
  match s.launch n with
  | some l => l.map.map Prod.snd
  | none => []

/-- A CLUSTER THAT A LAUNCH OF A PARTITION MAY TAKE (R415): of the partition, held by no launch or among those that would be freed, and
on a die where no WSLOAD of the partition waits or runs. -/
def Takeable (s : State) (p : Nat) (more : List Nat) (c : Nat) : Prop :=
  c < 32 ∧ (s.part p).clmask.getLsbD c = true ∧ ((∀ i, i < 8 → (s.core (8 * c + i)).launch = none) ∨ c ∈ more) ∧
    ∀ n, n < 16 → (s.stream n).part = p → (s.stream n).busy = true → field (s.stream n).cmd 0 1 = 4 →
      field (s.stream n).cmd 1 1 ≠ c / 8

/-- Virtual clusters that share a die (R414, R422): those of one group of the shape, or those that shared a die before. -/
def together (l : Launch) (v w : Nat) : Prop :=
  if l.saved.isSome then Tab.get v v l.group = Tab.get w w l.group
  else (l.shape = 1 ∧ v / 8 = w / 8) ∨ (l.shape = 2 ∧ v / 2 = w / 2)

/-- A MAP THAT A LAUNCH ADMITS (R414, R415, R422): every virtual cluster has a cluster of its own among those free, on the die of those
that it is together with, and, where it was pre-empted, on another die than those that it was not together with. -/
def Admitted (l : Launch) (free : List Nat) (f : Nat → Nat) : Prop :=
  (∀ v, v < l.nvcl → f v ∈ free) ∧
    ∀ v w, v < l.nvcl → w < l.nvcl → (v ≠ w → f v ≠ f w) ∧ (together l v w → f v / 8 = f w / 8) ∧
      (l.saved.isSome → v ≠ w → ¬ together l v w → f v / 8 ≠ f w / 8)

/-- A launch of a stream is pre-empted before another (R422): its priority is lower, or it is the same and it was placed later. -/
def Sooner (s : State) (a b : Nat) : Prop :=
  (s.stream a).pri < (s.stream b).pri ∨ ((s.stream a).pri = (s.stream b).pri ∧
    ∀ la lb, s.launch a = some la → s.launch b = some lb → lb.order ≤ la.order)

/-- A field of a header or descriptor of `h`. -/
def part' (h o n : Nat) : Nat := h / 2 ^ (8 * o) % 2 ^ (8 * n)

/-- THE FIELDS OF A HEADER ARE IN THEIR RANGES (R214, R217, R414). -/
def HeaderFits (h : Nat) : Prop :=
  part' h 0x0C 4 < 2 ∧ part' h 0x1D 3 = 0 ∧ part' h 0x38 8 = 0 ∧ (∀ i, i < 13 → part' h (0x10 + i) 1 ≠ 0) ∧
    1 ≤ part' h 0x20 1 ∧ part' h 0x20 1 ≤ 32 ∧ part' h 0x21 1 < 3 ∧ 1 ≤ part' h 0x22 2 ∧ part' h 0x22 2 ≤ 1024 ∧
    (∃ k, 12 ≤ k ∧ k ≤ 24 ∧ part' h 0x24 4 = 2 ^ k) ∧ part' h 0x28 8 % 64 = 0

/-- A DESCRIPTOR (R216). -/
def descAt (d : Nat) : Desc :=
  { vcl := part' d 0 1, core := part' d 1 1, ctx := part' d 2 1, pri := d / 2 ^ 24 % 4, owner := decide (d / 2 ^ 26 % 2 = 1),
    vallot := part' d 4 1, chmask := d / 2 ^ 40 % 16, entry := part' d 8 8, opf := ⟨part' d 16 1, part' d 17 1⟩,
    accs := ⟨part' d 18 1, part' d 19 1⟩, lats := ⟨part' d 20 1, part' d 21 1⟩, scs := ⟨part' d 22 1, part' d 23 1⟩,
    pats := ⟨part' d 24 1, part' d 25 1⟩, tts := ⟨part' d 26 1, part' d 27 1⟩ }

def sharesOf (d : Desc) : List Share := [d.opf, d.accs, d.lats, d.scs, d.pats, d.tts]

/-- Two descriptors of one core do not clash (R217). -/
def NoClash (a b : Desc) : Prop :=
  a.vcl = b.vcl → a.core = b.core → a.ctx ≠ b.ctx ∧ (∀ i, ¬ (a.chmask.testBit i = true ∧ b.chmask.testBit i = true)) ∧
    ∀ q ∈ (sharesOf a).zip (sharesOf b), ¬ (q.1.count ≠ 0 ∧ q.2.count ≠ 0 ∧ q.1.base < q.2.base + q.2.count ∧
      q.2.base < q.1.base + q.1.count)

/-- THE DESCRIPTORS OF A BINARY FIT (R216, R217). -/
def DescriptorsFit (h : Nat) (raw : List Nat) : Prop :=
  (∀ d ∈ raw, d / 2 ^ 27 % 2 ^ 5 = 0 ∧ d / 2 ^ 44 % 2 ^ 4 = 0 ∧ part' d 6 2 = 0 ∧ part' d 28 4 = 0) ∧
    (∀ d ∈ raw.map descAt, d.vcl < part' h 0x20 1 ∧ d.core < 8 ∧ d.ctx < 4 ∧ d.vallot ≤ 24 ∧ d.entry < part' h 0x30 8 ∧
      ∀ q ∈ (sharesOf d).zip [32, 64, 4, 16, 16, 8], q.1.base + q.1.count ≤ q.2) ∧
    (raw.map descAt).Pairwise NoClash ∧
    ∀ v k, ((((raw.map descAt).filter (fun d => decide (d.vcl = v ∧ d.core = k))).map Desc.vallot).sum ≤ 24 ∧
      ((raw.map descAt).filter (fun d => decide (d.vcl = v ∧ d.core = k) && d.owner)).length ≤ 1)

/-- The launch that a binary describes and that waits for its first place (R214 to R216, R415). -/
def newLaunch (part : Nat) (p : BitVec 256) (h : Nat) (raw : List Nat) : Launch :=
  { part := part, serial := 0, ltag := BitVec.ofNat 32 (field p 4 4), cpl := BitVec.ofNat 64 (field p 16 8),
    codebase := BitVec.ofNat 64 (field p 8 8 + part' h 0x28 8), nvcl := part' h 0x20 1, shape := part' h 0x21 1,
    spsize := part' h 0x24 4, strict := decide (part' h 0x0C 4 = 1), lat := (List.range 13).map (fun i => part' h (0x10 + i) 1),
    descs := raw.map descAt, map := [], placed := false, order := 0, req := [], stale := 0, bars := [], saved := none, group := [],
    lastDies := [], killed := false, stopping := false, collGone := [] }

/-- A REFUSED LAUNCH (R416): its completion record with STATUS 2 and the code, where there is one and it can be written, and then its
stream stops with the code. -/
def refused (t : State) (n code : Nat) (p : BitVec 256) : State :=
  stopped ((if field p 16 8 = 0 then none else t.engineWrite (t.stream n).part (field p 16 8)
    (natLe 16 (2 + code * 2 ^ 8 + field p 4 4 * 2 ^ 96))).getD t) n code

end Sys2Proof.Claims

/-- R411: a packet that cannot be read stops its stream with ERR 0x03, an opcode not assigned with ERR 0x01. R413: SEMWAIT completes
once its word is at least VALUE and else waits; SEMSIG adds VALUE to its word or stores it; MARK stores VALUE and may raise the
stream's interrupt; FENCE completes once no command begun before it in the partition is in progress (a command that failed counts as completed, log 27). Each changes nothing else, and a
fault stops the stream with ERR 0x03. -/
def Obligations.SemaphoresMarksAndFences : Prop :=
  (∀ (n : Fin 16) (s : State), s.canBegin n.val = true → (s.stream n.val).en = true →
    (s.packet n.val = none → exec (.fenceCommand n) s = .next (stopped s n.val 3)) ∧
    (∀ p, s.packet n.val = some p → (field p 0 1 = 0 ∨ 9 < field p 0 1) → exec (.fenceCommand n) s = .next (stopped s n.val 1))) ∧
  (∀ (n : Fin 16) (s t : State) (p : BitVec 256), Acts s n.val 2 t p →
    (t.engineRead (t.stream n.val).part (field p 8 8) 8 = none → exec (.semwait n) s = .next (stopped t n.val 3)) ∧
    (∀ b, t.engineRead (t.stream n.val).part (field p 8 8) 8 = some b →
      (field p 16 8 ≤ leNat b → exec (.semwait n) s = .next (finished t n.val)) ∧
      (leNat b < field p 16 8 → exec (.semwait n) s = .next (t.modStream n.val (fun q => { q with st := .wait }))))) ∧
  (∀ (n : Fin 16) (s : State) (b : List Byte), (s.stream n.val).busy = true → (s.stream n.val).en = false →
    field (s.stream n.val).cmd 0 1 = 2 → s.engineRead (s.stream n.val).part (field (s.stream n.val).cmd 8 8) 8 = some b →
    leNat b < field (s.stream n.val).cmd 16 8 →
    exec (.semwait n) s = .next (s.modStream n.val (fun q => { q with st := .off }))) ∧
  (∀ (n : Fin 16) (s t : State) (p : BitVec 256), Begins s n.val 3 t p →
    (∀ ps old, t.enginePlaces (t.stream n.val).part .atomic (consec (BitVec.ofNat 64 (field p 8 8)) 8) = some ps →
      old = leNat (ps.map (fun q => t.memByte q.1 q.2)) →
      exec (.semsig n) s = .next (finished ((ps.zip (natLe 8 (if field p 1 1 = 1 then field p 16 8 else
        (old + field p 16 8) % 2 ^ 64))).foldl (fun u q => u.setByte q.1.1 q.1.2 q.2) t) n.val)) ∧
    (t.enginePlaces (t.stream n.val).part .atomic (consec (BitVec.ofNat 64 (field p 8 8)) 8) = none →
      exec (.semsig n) s = .next (stopped t n.val 3))) ∧
  (∀ (n : Fin 16) (s t : State) (p : BitVec 256), Begins s n.val 8 t p →
    (∀ u, t.engineWrite (t.stream n.val).part (field p 8 8) (natLe 8 (field p 16 8)) = some u →
      (field p 1 1 = 0 → exec (.mark n) s = .next (finished u n.val)) ∧
      (field p 1 1 = 1 → exec (.mark n) s = .next ((finished u n.val).irq n.val))) ∧
    (t.engineWrite (t.stream n.val).part (field p 8 8) (natLe 8 (field p 16 8)) = none →
      exec (.mark n) s = .next (stopped t n.val 3))) ∧
  (∀ (n : Fin 16) (s t : State) (p : BitVec 256), Begins s n.val 7 t p →
    ((∀ m, m < 16 → m ≠ n.val → (t.stream m).busy = true → (t.stream m).part ≠ (t.stream n.val).part) →
      exec (.fenceCommand n) s = .next (finished (t.modStream n.val (fun q => { q with fence := [] })) n.val)) ∧
    (∀ m, m < 16 → m ≠ n.val → (t.stream m).busy = true → (t.stream m).part = (t.stream n.val).part →
      ∃ l, m ∈ l ∧ exec (.fenceCommand n) s = .next (t.modStream n.val (fun q => { q with fence := l })))) ∧
  (∀ (n : Fin 16) (s : State) (p : BitVec 256), InProgress s n.val 7 p →
    ((s.stream n.val).fence = [] → exec (.fenceCommand n) s = .next (finished s n.val)) ∧
    ((s.stream n.val).fence ≠ [] → exec (.fenceCommand n) s = .next s))

open Sys2Proof.Claims in
/-- R1, R214 to R217, R411, R415 and R416: LAUNCH reads its binary, with its checks in this order: a header that cannot be read refuses
it with 0x13, one that is not this machine's with 0x10, one with a field out of its range with 0x11, descriptors that cannot be read with
0x13, descriptors that do not fit with 0x11, and a partition that never has room with 0x12. A refusal writes its record and stops the stream
with its code. A binary that passes waits for its place with the fields of its header and descriptors. The order of 0x11 before 0x13 is the
model's choice (log 27). -/
def Obligations.LaunchReadsItsBinary : Prop :=
  (∀ (n : Fin 16) (s t : State) (p : BitVec 256), Begins s n.val 1 t p →
    (∀ code, t.readBinary (t.stream n.val).part p = .error code → exec (.launch n) s = .next (refused t n.val code p)) ∧
    (∀ l, t.readBinary (t.stream n.val).part p = .ok l →
      (l.place (t.partClusters (t.stream n.val).part) = none → exec (.launch n) s = .next (refused t n.val 0x12 p)) ∧
      (l.place (t.partClusters (t.stream n.val).part) ≠ none →
        exec (.launch n) s = .next ({ t with
          launchNo := t.launchNo + 1, launches := Tab.put n.val { l with serial := t.launchNo + 1 } t.launches,
          streams := Tab.put n.val { t.stream n.val with st := .wait } t.streams })))) ∧
  (∀ (s : State) (part : Nat) (p : BitVec 256),
    (s.engineRead part (field p 8 8) 64 = none → s.readBinary part p = .error 0x13) ∧
    (∀ b h, s.engineRead part (field p 8 8) 64 = some b → h = leNat b →
      (¬ (part' h 0 4 = 0x5856575A ∧ part' h 4 2 = 2 ∧ part' h 6 2 = 0) → s.readBinary part p = .error 0x10) ∧
      (part' h 0 4 = 0x5856575A → part' h 4 2 = 2 → part' h 6 2 = 0 →
        (¬ HeaderFits h → s.readBinary part p = .error 0x11) ∧
        (HeaderFits h →
          (s.engineRead part (field p 8 8 + 64) (32 * part' h 0x22 2) = none → s.readBinary part p = .error 0x13) ∧
          (∀ db raw, s.engineRead part (field p 8 8 + 64) (32 * part' h 0x22 2) = some db →
            raw = (List.range (part' h 0x22 2)).map (fun i => leNat ((db.drop (32 * i)).take 32)) →
            (¬ DescriptorsFit h raw → s.readBinary part p = .error 0x11) ∧
            (DescriptorsFit h raw → s.readBinary part p = .ok (newLaunch part p h raw)))))))

open Sys2Proof.Claims in
/-- R163, R227, R414, R415, R421 and R422: the placement candidate that has room is placed in one step: LGEN rises, its clusters hold no
region and no count, every described context is READY at its entry with BIX 0, zero registers and its shares, and every other context
of its clusters is EMPTY; a pre-empted launch's contexts are as they were kept. That LSE and SRSEED of a placed context are zero is the
model's choice (log 4). Another launch is not placed. R414 and R415: a launch takes free
clusters of its partition that its shape admits, each virtual cluster in ascending order the lowest, and waits only where there are none. -/
def Obligations.LaunchesArePlaced : Prop :=
  (∀ (n : Fin 16) (s : State) (l : Launch), s.launch n.val = some l → l.placed = false →
    (s.candidate l.part ≠ some n.val → exec (.launchPlacement n) s = .next s) ∧
    (s.candidate l.part = some n.val → s.admits n.val [] = none → exec (.launchPlacement n) s = .next s) ∧
    (∀ m, s.candidate l.part = some n.val → s.admits n.val [] = some m → l.saved = none → (m.map Prod.fst).Nodup →
      (m.map Prod.snd).Nodup → (l.descs.map Desc.pos).Nodup →
      (∀ d ∈ l.descs, d.vcl ∈ m.map Prod.fst ∧ d.core < 8 ∧ d.ctx < 4) →
      ∃ t, exec (.launchPlacement n) s = .next t ∧ (t.part l.part).lgen = ((s.part l.part).lgen + 1) % 64 ∧
        (∃ l', t.launch n.val = some l' ∧ l'.placed = true ∧ l'.req = l.req ∧ ∀ q ∈ m, Tab.get 0 q.1 l'.map = q.2) ∧
        (∀ q ∈ m, (t.clu q.2).regions = [] ∧ (t.clu q.2).ec = [] ∧ (t.clu q.2).mem = []) ∧
        (∀ q ∈ m, ∀ d ∈ l.descs, d.vcl = q.1 → ∀ c, c = t.ctx (q.2 * 32 + d.core * 4 + d.ctx) →
          c.st = .ready ∧ c.pc = l.codebase + BitVec.ofNat 64 d.entry ∧ c.npc = c.pc ∧ c.bix = 0 ∧ c.x = [] ∧ c.v = [] ∧
            c.csr = { Csrs.reset with pri := BitVec.ofNat 2 d.pri, strict := l.strict, vallot := d.vallot } ∧
            c.opf = d.opf ∧ c.accs = d.accs ∧ c.lats = d.lats ∧ c.scs = d.scs ∧ c.pats = d.pats ∧ c.tts = d.tts) ∧
        (∀ q ∈ m, ∀ i, i < 32 → (∀ d ∈ l.descs, d.vcl = q.1 → d.core * 4 + d.ctx ≠ i) → t.ctx (q.2 * 32 + i) = Ctx.reset) ∧
        ((s.stream n.val).en = true → (t.stream n.val).st = .run) ∧
        t = { quiet s l.part with
          ctxs := t.ctxs, cores := t.cores, clus := t.clus, dies := t.dies, dtags := t.dtags, parts := t.parts,
          placeNo := s.placeNo + 1, launches := t.launches, streams := t.streams, devdrop := t.devdrop }) ∧
    (∀ m cores clus, s.candidate l.part = some n.val → s.admits n.val [] = some m → l.saved = some (cores, clus) →
      (m.map Prod.fst).Nodup → (m.map Prod.snd).Nodup → (cores.map (fun c => (c.vcl, c.core))).Nodup →
      (∀ c ∈ cores, c.vcl ∈ m.map Prod.fst ∧ c.core < 8 ∧ c.ctxs.length = 4) →
      ∃ t, exec (.launchPlacement n) s = .next t ∧ (t.part l.part).lgen = ((s.part l.part).lgen + 1) % 64 ∧
        (∃ l', t.launch n.val = some l' ∧ l'.placed = true ∧ l'.saved = none ∧ ∀ q ∈ m, Tab.get 0 q.1 l'.map = q.2) ∧
        (∀ c ∈ cores, ∀ q ∈ m, q.1 = c.vcl → ∀ j, j < 4 → ∃ r, t.ctx (q.2 * 32 + c.core * 4 + j) =
          { c.ctxs.getD j Ctx.reset with resv := r }))) ∧
  (∀ (n : Nat) (s : State) (l : Launch) (more free : List Nat), s.launch n = some l →
    (s.ready = false ∨ (s.part l.part).en = false → s.admits n more = none) ∧
    (s.ready = true → (s.part l.part).en = true → free.Pairwise (· < ·) → (∀ c, c ∈ free ↔ Takeable s l.part more c) →
      s.admits n more = l.place free)) ∧
  (∀ (l : Launch) (free : List Nat), l.shape < 3 → l.nvcl ≤ 32 → free.Pairwise (· < ·) → (∀ c ∈ free, c < 32) →
    ((∃ f, Admitted l free f) → l.place free ≠ none) ∧
    (∀ m, l.place free = some m → (m.map Prod.fst).Perm (List.range l.nvcl) ∧ ∃ f, Admitted l free f ∧ (∀ q ∈ m, f q.1 = q.2) ∧
      ∀ f', Admitted l free f' → ∀ v, v < l.nvcl → (∀ w, w < v → f' w = f w) → f v ≤ f' v))

open Sys2Proof.Claims in
/-- R416, R422, R423 and R440: a launch whose contexts are HALTED with no copy left ends: its clusters are free, its record is
written, and its command completes. KILL ends a placed or a saved one, one that is being saved after the save, and leaves one that waits
for its first place, to end it then (log 27). A pre-empted launch goes on from what the model kept, which is what it wrote to the
save area (log 24). PREEMPT of a running launch of the partition keeps its state and frees its clusters, without one it
completes, it completes once the launch that it hit has been saved or has ended, whatever runs on that stream since, and it stops an
unprivileged stream with ERR 0x05. For a candidate that has no room the fewest launches of lower priority are
pre-empted, one after another, the lowest priority first and the latest placed first, and only where they make room for it. -/
def Obligations.LaunchesEndAndArePreempted : Prop :=
  (∀ (n : Fin 16) (s u : State) (l : Launch), s.launch n.val = some l → (s.stream n.val).en = true →
    (s.stream n.val).detached = false → u = { s.freeLaunch l with launches := Tab.erase n.val (s.freeLaunch l).launches } →
    (s.launchDone l = true →
      (l.cpl = 0#64 → exec (.launchEnd n) s = .next (finished u n.val)) ∧
      (l.cpl ≠ 0#64 → ∀ r, r = u.engineWrite l.part l.cpl.toNat (natLe 16 (1 + l.stale * 2 ^ 64 + l.ltag.toNat * 2 ^ 96)) →
        (∀ w, r = some w → exec (.launchEnd n) s = .next (finished w n.val)) ∧
        (r = none → exec (.launchEnd n) s = .next (stopped u n.val 3)))) ∧
    (s.launchDone l = false → exec (.launchEnd n) s = .next s) ∧
    (l.placed = true → l.stopping = false →
      (l.cpl = 0#64 → exec (.kill n) s = .next (finished u n.val)) ∧
      (∀ w, l.cpl ≠ 0#64 → u.engineWrite l.part l.cpl.toNat (natLe 16 (3 + l.stale * 2 ^ 64 + l.ltag.toNat * 2 ^ 96)) = some w →
        exec (.kill n) s = .next (finished w n.val))) ∧
    (l.stopping = true → exec (.kill n) s = .next (s.setLaunch n.val { l with killed := true })) ∧
    (l.placed = false → l.stopping = false → l.saved = none → exec (.kill n) s = .next s) ∧
    (l.placed = false → l.stopping = false → l.saved ≠ none → l.cpl = 0#64 →
      exec (.kill n) s = .next (finished { s with launches := Tab.erase n.val s.launches } n.val)) ∧
    GivenBack s u l ∧ (∀ g, (∀ m ∈ l.map, g / 32 ≠ m.2) → u.ctx g = s.ctx g)) ∧
  (∀ (n : Fin 16) (s : State), s.launch n.val = none → exec (.kill n) s = .next s) ∧
  (∀ (n : Fin 16) (s t : State) (p : BitVec 256), Begins s n.val 9 t p → field p 1 1 ≠ n.val →
    (((s.stream n.val).priv = false ∨ (s.stream (field p 1 1)).part ≠ (s.stream n.val).part) →
      exec (.preempt n) s = .next (stopped t n.val 5)) ∧
    ((s.stream n.val).priv = true → (s.stream (field p 1 1)).part = (s.stream n.val).part →
      ((∀ l, s.launch (field p 1 1) = some l → l.placed = false) →
        exec (.preempt n) s = .next (finished (t.modStream n.val (fun q => { q with preNo := 0 })) n.val)) ∧
      (∀ l, s.launch (field p 1 1) = some l → l.placed = true → AtRest s l → (s.stream (field p 1 1)).en = true →
        (l.map.map Prod.snd).Nodup → ∃ u, exec (.preempt n) s = .next u ∧ Kept s u (field p 1 1) l))) ∧
  (∀ (n : Fin 16) (s : State) (p : BitVec 256), InProgress s n.val 9 p → (s.stream n.val).preNo ≠ 0 →
    (∀ l, s.launch (field p 1 1) = some l → l.placed = true → l.order + 1 ≠ (s.stream n.val).preNo) →
    exec (.preempt n) s = .next (finished (s.modStream n.val (fun q => { q with preNo := 0 })) n.val)) ∧
  (∀ (n : Fin 16) (s : State) (l : Launch), s.launch n.val = some l → l.placed = true →
    (l.stopping = false → (s.victims l.part).head? ≠ some n.val → exec (.preemption n) s = .next s) ∧
    ((s.victims l.part).head? = some n.val → AtRest s l → (s.stream n.val).en = true → (l.map.map Prod.snd).Nodup →
      ∃ u, exec (.preemption n) s = .next u ∧ Kept s u n.val l)) ∧
  (∀ (s : State) (p : Nat), (s.launches.map Prod.fst).Nodup →
    (s.victims p).Pairwise (Sooner s) ∧
    (∀ m ∈ s.victims p, ∀ k l, (k, l) ∈ s.launches → l.part = p → l.placed = true → k ∉ s.victims p →
      (∀ n, s.candidate p = some n → (s.stream k).pri < (s.stream n).pri) → Sooner s m k) ∧
    (∀ m ∈ s.victims p, ∃ n, s.candidate p = some n ∧ (s.stream m).pri < (s.stream n).pri ∧
      (∃ l, s.launch m = some l ∧ l.part = p ∧ l.placed = true) ∧
      s.admits n ((s.victims p).flatMap (held s)) ≠ none ∧
      ∀ k, k < (s.victims p).length → s.admits n (((s.victims p).take k).flatMap (held s)) = none))

/-- R417: WSLOAD stops with ERR 0x04 for a range outside the Mantel or a bank that the partition does not hold, waits while a launch of
the partition holds a cluster on the die, and else runs; when it completes, the die's Mantel holds the source's bytes at OFF, poisoned
where the source's are, and every other byte as before; a source fault stops the stream with ERR 0x03, the bytes before it loaded (log 26).
R484: of the banks that an error had removed those are back that a WSMASK was written with before the WSLOAD began and that it covers
(log 26). -/
def Sys2Proof.Claims.WeightStoreLoads : Prop :=
  (∀ (n : Fin 16) (s t : State) (p : BitVec 256), Begins s n.val 4 t p →
    (2 ^ 30 < field p 16 4 + field p 20 4 → exec (.wsload n) s = .next (stopped t n.val 4)) ∧
    (∀ b, field p 16 4 / 2 ^ 24 ≤ b → b * 2 ^ 24 < field p 16 4 + field p 20 4 → 0 < field p 20 4 → b < 64 →
      (Tab.get 0 (field p 1 1) (t.part (t.stream n.val).part).wsmask).getLsbD b = false →
      exec (.wsload n) s = .next (stopped t n.val 4)) ∧
    (field p 16 4 + field p 20 4 ≤ 2 ^ 30 →
      (∀ b, field p 16 4 / 2 ^ 24 ≤ b → b * 2 ^ 24 < field p 16 4 + field p 20 4 → b < 64 →
        (Tab.get 0 (field p 1 1) (t.part (t.stream n.val).part).wsmask).getLsbD b = true) →
      ∃ k, (∀ b, b < 64 → k.getLsbD b = ((t.die (field p 1 1)).remask.getLsbD b &&
          decide (0 < field p 20 4 ∧ field p 16 4 / 2 ^ 24 ≤ b ∧ b * 2 ^ 24 < field p 16 4 + field p 20 4))) ∧
        (t.holdsDie (t.stream n.val).part (field p 1 1) = true →
          exec (.wsload n) s = .next (t.modStream n.val (fun q => { q with wsBack := k, st := .wait, wsPos := 0 }))) ∧
        (t.holdsDie (t.stream n.val).part (field p 1 1) = false →
          exec (.wsload n) s = .next (t.modStream n.val (fun q => { q with wsBack := k, st := .run, wsPos := 1 }))))) ∧
  (∀ (n : Fin 16) (s : State) (p : BitVec 256), InProgress s n.val 4 p → (s.stream n.val).wsPos = 0 →
    s.holdsDie (s.stream n.val).part (field p 1 1) = false →
    exec (.wsload n) s = .next (s.modStream n.val (fun q => { q with st := .run, wsPos := 1 }))) ∧
  (∀ (n : Fin 16) (s : State) (p : BitVec 256) (bs : List (Byte × Bool)) (d off : Nat), InProgress s n.val 4 p →
    (s.stream n.val).wsPos ≠ 0 → d = field p 1 1 → off = field p 16 4 → bs.length ≤ field p 20 4 →
    (∀ i, i < bs.length → s.engineTake (s.stream n.val).part ((field p 8 8 + i) % 2 ^ 64) 1 = some [bs.getD i (0, false)]) →
    let loaded (t : State) : Prop :=
      (∀ i, i < bs.length → (t.die d).mantel.read (off + i) = (bs.getD i (0, false)).1) ∧
        (∀ a, (a < off ∨ off + bs.length ≤ a) → (t.die d).mantel.read a = (s.die d).mantel.read a) ∧
        ∀ a, a ∈ (t.die d).mpois ↔ (∃ i, i < bs.length ∧ a = off + i ∧ (bs.getD i (0, false)).2 = true) ∨
          (a ∈ (s.die d).mpois ∧ (a < off ∨ off + bs.length ≤ a))
    (bs.length = field p 20 4 → ∃ t, exec (.wsloadComplete n) s = .next t ∧ loaded t ∧
      t = finished ((s.modDie d (fun e => { e with
          mantel := (t.die d).mantel, mpois := (t.die d).mpois, lost := e.lost &&& ~~~(s.stream n.val).wsBack,
          remask := e.remask &&& ~~~(s.stream n.val).wsBack })).modStream n.val (fun q => { q with wsPos := 0, wsBack := 0 })) n.val) ∧
    (bs.length < field p 20 4 →
      s.engineTake (s.stream n.val).part ((field p 8 8 + bs.length) % 2 ^ 64) 1 = none →
      ∃ t, exec (.wsloadComplete n) s = .next t ∧ loaded t ∧
        t = stopped ((s.modDie d (fun e => { e with mantel := (t.die d).mantel, mpois := (t.die d).mpois })).modStream n.val
          (fun q => { q with wsPos := 0, wsBack := 0 })) n.val 3))

namespace Sys2Proof.Claims

/-- The node of a graph (R418). -/
def nodeOf (q : Stream) (g m : Nat) : Option TgNode := Tab.find (64 * g + m) q.nodes

/-- A VALID GRAPH (R420): a node is present, links name present nodes, counts are those of the links, and the links can be followed
upward in some numbering, so that no cycle exists. -/
def ValidGraph (q : Stream) (g : Nat) : Prop :=
  (∃ m, m < 64 ∧ nodeOf q g m ≠ none) ∧
    (∀ m t, m < 64 → nodeOf q g m = some t →
      (∀ k, k < 64 → t.succ.getLsbD k = true → nodeOf q g k ≠ none) ∧
      t.cnt = ((List.range 64).filter (fun k => (nodeOf q g k).any (fun r => r.succ.getLsbD m))).length) ∧
    ∃ rank : Nat → Nat, ∀ m k t, m < 64 → k < 64 → nodeOf q g m = some t → t.succ.getLsbD k = true → rank m < rank k

end Sys2Proof.Claims

/-- R418 to R420: TGADD puts the descriptor it reads into its node; TGRUN of a valid graph sets every present node's counter to its CNT
and of another stops the stream with ERR 0x06. A task whose copy runs without a fault is done, its successors' counters fall by
one, and with the last one TGRUN completes; one that faults aborts the graph and at the end stops the stream with ERR 0x07. -/
def Sys2Proof.Claims.TaskGraphs : Prop :=
  (∀ (n : Fin 16) (s t : State) (p : BitVec 256) (b : List Byte) (d : Nat), Begins s n.val 5 t p →
    t.engineRead (t.stream n.val).part (field p 8 8) 64 = some b → d = leNat b →
    d / 2 ^ 256 % 2 ^ 8 < 4 → d / 2 ^ 264 % 2 ^ 8 < 4 → d / 2 ^ 272 % 2 ^ 8 < 64 → d / 2 ^ 280 % 2 ^ 232 = 0 →
    (d / 2 ^ 256 % 2 ^ 8 ≠ 3 → d / 2 ^ 128 % 2 ^ 64 % 2 ^ (d / 2 ^ 264 % 2 ^ 8) = 0) →
    (d / 2 ^ 256 % 2 ^ 8 = 3 → d / 2 ^ 128 % 2 ^ 64 % 4096 = 0) →
    exec (.tgadd n) s = .next (finished (t.modStream n.val (fun q => { q with
      nodes := Tab.put (64 * field p 1 1 + field p 2 1)
        { src := BitVec.ofNat 64 d, dst := BitVec.ofNat 64 (d / 2 ^ 64), len := BitVec.ofNat 64 (d / 2 ^ 128),
          succ := BitVec.ofNat 64 (d / 2 ^ 192), xf := d / 2 ^ 256 % 2 ^ 8, esz := d / 2 ^ 264 % 2 ^ 8,
          cnt := d / 2 ^ 272 % 2 ^ 8 } q.nodes })) n.val)) ∧
  (∀ (n : Fin 16) (s t : State) (p : BitVec 256), Begins s n.val 6 t p →
    (¬ ValidGraph (t.stream n.val) (field p 1 1) → exec (.tgrun n) s = .next (stopped t n.val 6)) ∧
    (ValidGraph (t.stream n.val) (field p 1 1) → ∃ u, exec (.tgrun n) s = .next u ∧
      u = t.modStream n.val (fun q => { q with tgLeft := (u.stream n.val).tgLeft, tgDone := [], tgPos := 0,
                                               st := if t.taskCluster (t.stream n.val).part then .run else .wait }) ∧
      ∀ m, m < 64 → Tab.find m (u.stream n.val).tgLeft = (nodeOf (t.stream n.val) (field p 1 1) m).map TgNode.cnt)) ∧
  (∀ (n : Fin 16) (m : Fin 64) (s : State) (p : BitVec 256) (t : TgNode), InProgress s n.val 6 p →
    nodeOf (s.stream n.val) (field p 1 1) m.val = some t → Tab.find m.val (s.stream n.val).tgLeft = some 0 →
    m.val ∉ (s.stream n.val).tgDone → s.taskCluster (s.stream n.val).part = true →
    (∀ u, s.runTask (s.stream n.val).part t = (u, true) → u.streams = s.streams → ∃ v w, exec (.taskComplete n m) s = .next w ∧
      v = u.modStream n.val (fun q => { q with
        tgDone := q.tgDone ++ [m.val],
        tgLeft := q.tgLeft.map (fun r => if t.succ.getLsbD r.1 then (r.1, r.2 - 1) else r) }) ∧
      ((∀ r ∈ (v.stream n.val).tgLeft, r.1 ∈ (v.stream n.val).tgDone) →
        w = if (s.stream n.val).tgPos = 0 then finished v n.val else stopped v n.val 7) ∧
      ((∃ r ∈ (v.stream n.val).tgLeft, r.1 ∉ (v.stream n.val).tgDone) →
        w = v.modStream n.val (fun q => { q with st := if v.taskCluster q.part then .run else .wait }))) ∧
    (∀ u, s.runTask (s.stream n.val).part t = (u, false) → u.streams = s.streams → ∃ w, exec (.taskComplete n m) s = .next w ∧
      ((w.stream n.val).st = .stop ∧ (w.stream n.val).err = 7#8 ∨ ((w.stream n.val).tgPos = 1 ∧ m.val ∈ (w.stream n.val).tgDone ∧
        ∀ k r, k < 64 → t.succ.getLsbD k = true → nodeOf (s.stream n.val) (field p 1 1) k = some r → k ∈ (w.stream n.val).tgDone))))

/-! ## The register window, partitions and translation registers (R407 to R410, R431, R446, R447, R457, R466 to R470) -/

namespace Sys2Proof.Claims

/-- Where an address register of a partition points: bits 63:12. -/
def page63 (v : Word) : Word := v &&& 0xFFFFFFFFFFFFF000#64

/-- LSIZE as a ring control takes it: 12 to 24, any other value counts as 12. -/
def lsizeOf (v : Word) : Nat := if 12 ≤ v.toNat % 32 ∧ v.toNat % 32 ≤ 24 then v.toNat % 32 else 12

/-- Every cached translation and code line of an address space is gone and nothing else of the cores and clusters has changed. -/
def Forgotten (s t : State) (asid : Nat) : Prop :=
  (∀ k, t.core k = { s.core k with tlb := (s.core k).tlb.filter (fun l => l.asid != asid),
                                   icache := (s.core k).icache.filter (fun l => l.asid != asid) }) ∧
    ∀ c, t.clu c = { s.clu c with tlb := (s.clu c).tlb.filter (fun l => l.asid != asid) }

/-- A bank of a partition's die. -/
def bank (q : Part) (d b : Nat) : Bool := (Tab.get 0 d q.wsmask).getLsbD b

/-- A WRITE OF PCFG OR WSMASK IS IGNORED (R470): with the partition as `new`, two enabled partitions would hold one cluster or bank, or
one that a launch holds would leave its partition or go to another. -/
def Refused (s : State) (p : Nat) (new : Part) : Prop :=
  (new.en = true ∧ ∃ o, o < 8 ∧ o ≠ p ∧ (s.part o).en = true ∧
    ((∃ c, c < 32 ∧ (s.part o).clmask.getLsbD c = true ∧ new.clmask.getLsbD c = true) ∨
      ∃ d b, d < 4 ∧ b < 64 ∧ bank (s.part o) d b = true ∧ bank new d b = true)) ∨
  (∃ c, c < 32 ∧ (s.part p).clmask.getLsbD c = true ∧ new.clmask.getLsbD c = false ∧ s.heldBy p c = true) ∨
  (∃ c o, c < 32 ∧ o < 8 ∧ o ≠ p ∧ (s.part p).clmask.getLsbD c = false ∧ new.clmask.getLsbD c = true ∧ s.heldBy o c = true) ∨
  (∃ d b, d < 4 ∧ b < 64 ∧ bank (s.part p) d b = true ∧ bank new d b = false ∧ s.bankHeld p d b = true) ∨
  (∃ d b o, d < 4 ∧ b < 64 ∧ o < 8 ∧ o ≠ p ∧ bank (s.part p) d b = false ∧ bank new d b = true ∧ s.bankHeld o d b = true)

end Sys2Proof.Claims

/-- R431, R446, R466, R467, R469 and R165: a host write of a register leaves the value in its writable bits and changes nothing else; a
write that is not aligned, or at an offset that no table lists, is ignored; DEVID, PWRCAP, the log, egress, group and trap
registers and the Damper's read back as written. That a write of EGBASE and a change of EGCTL's size put the writer of frames back to the
start of the buffer is the model's choice (log 29). -/
def Sys2Proof.Claims.HostRegisterWrites : Prop :=
  (∀ (o : Nat) (v : Word) (s : State), (o % 8 ≠ 0 ∨ (0x11000 ≤ o ∧ o < 0x20000) ∨ (0x28000 ≤ o ∧ o < 0x30000) ∨
      (0x34000 ≤ o ∧ o < 0x40000) ∨ (0x41000 ≤ o ∧ o < 0x1000000) ∨ 0x1100000 ≤ o ∨ o < 0x18 ∨ (0x2000 ≤ o ∧ o < 0x10000)) →
    exec (.registerWrite o v) s = .next s ∧ (o % 8 ≠ 0 → s.regRead o = 0#64)) ∧
  (∀ (v : Word) (s : State),
    exec (.registerWrite 0x18 v) s = .next { s with devid := v.setWidth 8 } ∧
    (400 ≤ v.toNat % 2048 → v.toNat % 2048 ≤ 1800 →
      exec (.registerWrite 0x20 v) s = .next { s with pwrcap := BitVec.ofNat 11 v.toNat }) ∧
    ((v.toNat % 2048 < 400 ∨ 1800 < v.toNat % 2048) → exec (.registerWrite 0x20 v) s = .next s)) ∧
  (∀ (p : Fin 8) (o : Nat) (v : Word) (s : State), o = 0x20000 + 0x1000 * p.val →
    exec (.registerWrite (o + 0x28) v) s = .next (s.modPart p.val (fun q => { q with trcfg := v &&& 0xFFFFFFFFFFFFF301#64 })) ∧
    exec (.registerWrite (o + 0x30) v) s = .next (s.modPart p.val (fun q => { q with trroute := v &&& 0x3FFFE#64 })) ∧
    exec (.registerWrite (o + 0x50) v) s = .next (s.modPart p.val (fun q => { q with elbase := page63 v })) ∧
    exec (.registerWrite (o + 0x58) v) s =
      .next (s.modPart p.val (fun q => { q with elen := v.getLsbD 5, ellsize := lsizeOf v })) ∧
    exec (.registerWrite (o + 0x60) v) s = .next (s.modPart p.val (fun q => { q with elcons := v })) ∧
    exec (.registerWrite (o + 0x68) v) s = .next (s.modPart p.val (fun q => { q with egbase := page63 v, egpos := 0 })) ∧
    (∃ t, exec (.registerWrite (o + 0x70) v) s = .next t ∧
      t = s.modPart p.val (fun q => { q with
        egen := v.getLsbD 5, eglsize := lsizeOf v, egpos := if lsizeOf v = q.eglsize then q.egpos else 0,
        build := (t.part p.val).build, closed := (t.part p.val).closed }) ∧
      (∀ f, (s.part p.val).build = some f → (s.part p.val).closed = none →
        (64 ≤ f.recs.length ∨ ∀ r ∈ (s.die f.die).chim, r.part ≠ p.val) → (t.part p.val).build = none ∧ (t.part p.val).closed = some f) ∧
      (((s.part p.val).build = none ∨ (s.part p.val).closed ≠ none ∨ ∃ f, (s.part p.val).build = some f ∧ f.recs.length < 64 ∧
          ∃ r ∈ (s.die f.die).chim, r.part = p.val) →
        (t.part p.val).build = (s.part p.val).build ∧ (t.part p.val).closed = (s.part p.val).closed)) ∧
    exec (.registerWrite (o + 0x78) v) s = .next (s.modPart p.val (fun q => { q with egcons := v })) ∧
    exec (.registerWrite (o + 0x80) v) s = .next (s.modPart p.val (fun q => { q with grpbase := page63 v })) ∧
    (∀ r m t, (r, m) ∈ [(0x28, 0xFFFFFFFFFFFFF301#64), (0x30, 0x3FFFE#64), (0x50, 0xFFFFFFFFFFFFF000#64),
        (0x60, BitVec.allOnes 64), (0x68, 0xFFFFFFFFFFFFF000#64), (0x78, BitVec.allOnes 64), (0x80, 0xFFFFFFFFFFFFF000#64)] →
      exec (.registerWrite (o + r) v) s = .next t → t.regRead (o + r) = v &&& m)) ∧
  (∀ (d : Fin 4) (i : Fin 4) (v : Word) (s : State),
    exec (.registerWrite (0x30000 + 0x1000 * d.val) v) s = .next (s.modDie d.val (fun q => { q with dmpgap := v })) ∧
    exec (.registerWrite (0x30000 + 0x1000 * d.val + 8 + 8 * i.val) v) s = .next (s.modDie d.val (fun q =>
      { q with dmpph := Tab.put i.val (v &&& 0x7777777777777777#64) q.dmpph })))

/-- R470, R446, R447, R457 and R484: PCFG and WSMASK take their value unless R470 ignores the write, and a bank that an error had removed
may then come back with a WSLOAD; XROOT and XASID take theirs, with every
cached translation of the partition dropped, while no launch of it stands; XINV with GO starts an invalidation of its page at the
whole device, which has no effect while one runs. -/
def Sys2Proof.Claims.PartitionAndTranslationRegisters : Prop :=
  (∀ (p : Fin 8) (v : Word) (s : State) (new : Part),
    new = { s.part p.val with
      en := v.getLsbD 63, clmask := BitVec.ofNat 32 v.toNat,
      lastPlaced := if (s.part p.val).en = false ∧ v.getLsbD 63 = true then [] else (s.part p.val).lastPlaced } →
    (Refused s p.val new → exec (.partitionConfigWrite p .pcfg v) s = .next s) ∧
    (¬ Refused s p.val new →
      exec (.partitionConfigWrite p .pcfg v) s = .next { s with parts := Tab.put p.val new s.parts })) ∧
  (∀ (p : Fin 8) (d : Fin 4) (v : Word) (s : State) (new : Part),
    new = { s.part p.val with wsmask := Tab.put d.val v (s.part p.val).wsmask } →
    (Refused s p.val new → exec (.partitionConfigWrite p (.wsmask d) v) s = .next s) ∧
    (¬ Refused s p.val new →
      exec (.partitionConfigWrite p (.wsmask d) v) s = .next ({ s with parts := Tab.put p.val new s.parts }.modDie d.val (fun e =>
        { e with remask := e.remask ||| (e.lost &&& v) })))) ∧
  (∀ (p : Fin 8) (r : XReg) (v : Word) (s : State),
    ((∃ n l, (n, l) ∈ s.launches ∧ l.part = p.val) → exec (.translationRootWrite p r v) s = .next s) ∧
    ((∀ n l, (n, l) ∈ s.launches → l.part ≠ p.val) → ∃ t, exec (.translationRootWrite p r v) s = .next t ∧
      Forgotten s t ((s.part p.val).xasid.toNat % 2 ^ 16) ∧
      t = { s.modPart p.val (fun q => match r with
        | .xroot => { q with xroot := BitVec.ofNat 64 (v.toNat % 2 ^ 52 / 2 ^ 12 * 2 ^ 12) }
        | .xasid => { q with xasid := BitVec.ofNat 64 (v.toNat % 2 ^ 16) }) with cores := t.cores, clus := t.clus })) ∧
  (∀ (p : Fin 8) (v : Word) (s : State),
    ((s.part p.val).xinvBusy = true →
      exec (.xinvGo p v) s = .next (s.modPart p.val (fun q => { q with xinv := v &&& 0xFFFFFFFFFFFFF300#64 }))) ∧
    (∀ sz, (s.part p.val).xinvBusy = false → sz = [2 ^ 12, 2 ^ 16, 2 ^ 21, 2 ^ 30].getD (v.toNat / 2 ^ 8 % 4) 0 →
      ∃ t, exec (.xinvGo p v) s = .next t ∧
        t.part p.val = { s.part p.val with xinv := v &&& 0xFFFFFFFFFFFFF300#64, xinvBusy := true } ∧
        (∀ q, q ≠ p.val → t.part q = s.part q) ∧
        t.invals = s.invals ++ [⟨s.invalNo, p.val, (s.part p.val).xasid.toNat % 2 ^ 16, v.toNat / 2 ^ 12 * 2 ^ 12 / sz * sz, sz,
          (List.range 256).filter (fun k => (s.part p.val).clmask.getLsbD (k / 8)), none, none, true, false⟩] ∧
        t = { s with cores := t.cores, ctxs := t.ctxs, parts := t.parts, invals := t.invals, invalNo := s.invalNo + 1 }))

/-- R407 to R410: SQTAIL takes its offset and an IDLE stream with commands pending runs; EN going to 1 takes the stream's fields, sets
HEAD to TAIL, ERR to 0 and the state to IDLE; EN going to 0 leaves it OFF; while EN is 1 the fields and SQBASE do not change. -/
def Sys2Proof.Claims.StreamRegisters : Prop :=
  (∀ (n : Fin 16) (v : Word) (s : State),
    exec (.sqtail n v) s = .next (s.modStream n.val (fun q =>
      { q with tail := v.toNat % 2 ^ 24 / 32 * 32,
               st := if q.st = .idle ∧ q.head ≠ v.toNat % 2 ^ 24 / 32 * 32 % 2 ^ q.lsize then .run else q.st }))) ∧
  (∀ (n : Fin 16) (v : Word) (s : State),
    ((s.stream n.val).en = false → exec (.streamEnable n v) s = .next (s.modStream n.val (fun q =>
      { q with en := true, priv := v.getLsbD 29, part := v.toNat / 2 ^ 24 % 8, pri := v.toNat / 2 ^ 16 % 4, lsize := lsizeOf v,
               head := q.tail % 2 ^ lsizeOf v, err := 0, st := .idle, detached := q.busy }))) ∧
    ((s.stream n.val).en = true → exec (.streamEnable n v) s = .next (s.modStream n.val (fun q => q))) ∧
    ((s.stream n.val).en = true → exec (.streamDisable n v) s = .next (s.modStream n.val (fun q =>
      { q with en := false, st := .off }))) ∧
    ((s.stream n.val).en = false → exec (.streamDisable n v) s = .next (s.modStream n.val (fun q =>
      { q with priv := v.getLsbD 29, part := v.toNat / 2 ^ 24 % 8, pri := v.toNat / 2 ^ 16 % 4, lsize := lsizeOf v }))) ∧
    ((s.stream n.val).en = true →
      exec (.registerWrite (0x10000 + 0x100 * n.val) v) s = .next (s.modStream n.val (fun q => q))) ∧
    ((s.stream n.val).en = false →
      exec (.registerWrite (0x10000 + 0x100 * n.val) v) s = .next (s.modStream n.val (fun q => { q with sqbase := page63 v }))))

/-! ## Egress, event logs, host accesses, ports (R390 to R394, R472 to R479) -/

namespace Sys2Proof.Claims

/-- The oldest record of a Chimney leaves it and is counted in RSEQ (R391, R392). -/
def taken (s : State) (d : Nat) (r : ChimRec) (rest : List ChimRec) : State :=
  s.modDie d (fun e => { e with chim := rest, rseq := Tab.put r.part (Tab.get 0 r.part e.rseq + 1) e.rseq })

/-- A frame in build of a partition closes at 64 records and when no further record of the partition stands in its Chimney, unless a
closed frame waits (R391, R393). -/
def shut (s : State) (p : Nat) : State :=
  match (s.part p).build, (s.part p).closed with
  | some f, none =>
    if 64 ≤ f.recs.length ∨ ∀ r ∈ (s.die f.die).chim, r.part ≠ p then
      s.setPart p { s.part p with build := none, closed := some f }
    else s
  | _, _ => s

/-- A partition's frame in build is `f`. -/
def builds (s : State) (p : Nat) (f : Frame) : State := s.setPart p { s.part p with build := some f }

/-- A frame takes a record of a die's Chimney with sequence number `n` (R391, R393): it is of its launch, the next after the frame's
own, and the 64th at most. -/
def Joins (f : Frame) (d n : Nat) (r : ChimRec) : Prop :=
  f.die = d ∧ f.stream = r.stream ∧ f.serial = r.serial ∧ f.recs.length < 64 ∧ f.rseq + f.recs.length = n

/-- A frame's length (R392). -/
def frameLen (f : Frame) : Nat := 32 + (16 * f.recs.length + 31) / 32 * 32

/-- A frame's header (R392). -/
def headerOf (f : Frame) (p nrec len fseq : Nat) : List Byte :=
  natLe 32 (len + p * 2 ^ 55 + f.die * 2 ^ 58 + f.stream * 2 ^ 60 + nrec * 2 ^ 64 + f.ltag.toNat * 2 ^ 96 + f.rseq * 2 ^ 128 +
    fseq * 2 ^ 192)

/-- A frame's bytes: header, records, and 16 zero bytes after an odd number of them. -/
def frameBytes (f : Frame) (p fseq : Nat) : List Byte :=
  headerOf f p f.recs.length (frameLen f) fseq ++ f.recs.flatMap (fun r => natLe 8 r.1.toNat ++ natLe 8 r.2.toNat) ++
    (if f.recs.length % 2 = 1 then List.replicate 16 0#8 else [])

/-- The place in the ring is free: no frame that the host has not consumed lies in it (R393; by its place in host memory, log 29). -/
def RingFree (q : Part) (len : Nat) : Prop :=
  ∀ e ∈ q.egseqs, e.2.2 ≤ q.egcons.toNat ∨ e.2.1 ≤ q.egbase.toNat + q.egpos ∨ q.egbase.toNat + q.egpos + len ≤ e.1

/-- A partition after `len` bytes of its ring were written as one frame. -/
def moved (q : Part) (len : Nat) : Part :=
  let lo := q.egbase.toNat + q.egpos
  { q with egpos := (q.egpos + len) % 2 ^ q.eglsize, fseq := q.fseq + 1,
           egseqs := q.egseqs.filter (fun e => !(decide (e.1 < lo + len) && decide (lo < e.2.1))) ++ [(lo, lo + len, q.fseq)] }

/-- Where a log's next record begins in host memory (R477). -/
def logPlace (q : Part) : Nat := q.elbase.toNat + 64 * ((q.eseq - 1) % (2 ^ q.ellsize / 64))

/-- A record can leave its arbiter (R476, R477): its log is off, or no record that the host has not consumed stands where it goes. -/
def CanLog (s : State) (e : EvRec) : Prop :=
  ∀ p, e.part = some p → (s.part p).elen = true → ∀ r ∈ (s.part p).elrecs,
    r.2 ≤ (s.part p).elcons.toNat ∨ r.1 + 64 ≤ logPlace (s.part p) ∨ logPlace (s.part p) + 64 ≤ r.1

end Sys2Proof.Claims

open Sys2Proof.Claims in
/-- R391, R393 and R394: the oldest record of a Chimney is discarded and counted while its partition's egress is off; else it joins the
frame in build of its launch with less than 64 records, or starts a frame, the one in build being closed. Where a closed frame waits and
the one in build cannot take the record, the record stays. A frame closes at 64 records and when no further record of the
partition stands in the Chimney. -/
def Sys2Proof.Claims.ChimneyRecordsAreFramed : Prop :=
  ∀ (d : Fin 4) (s : State),
    ((s.die d.val).chim = [] → exec (.chimneyRecordTake d) s = .next s) ∧
    (∀ r rest q n, (s.die d.val).chim = r :: rest → q = s.part r.part → n = Tab.get 0 r.part (s.die d.val).rseq →
      (q.egen = false → exec (.chimneyRecordTake d) s = .next (shut ((taken s d.val r rest).modPart r.part (fun q =>
        { q with egdrop := min (q.egdrop + 1) (2 ^ 32 - 1) })) r.part)) ∧
      (q.egen = true → q.build = none → exec (.chimneyRecordTake d) s = .next
        (shut (builds (taken s d.val r rest) r.part ⟨d.val, r.stream, r.ltag, r.serial, n, [(r.lo, r.hi)]⟩) r.part)) ∧
      (∀ f, q.egen = true → q.build = some f →
        (Joins f d.val n r → exec (.chimneyRecordTake d) s = .next
          (shut (builds (taken s d.val r rest) r.part { f with recs := f.recs ++ [(r.lo, r.hi)] }) r.part)) ∧
        (¬ Joins f d.val n r →
          (q.closed ≠ none → exec (.chimneyRecordTake d) s = .next s) ∧
          (q.closed = none → exec (.chimneyRecordTake d) s = .next ((taken s d.val r rest).modPart r.part (fun q =>
            { q with closed := some f, build := some ⟨d.val, r.stream, r.ltag, r.serial, n, [(r.lo, r.hi)]⟩ }))))))

open Sys2Proof.Claims in
/-- R392, R393, R475 to R477: a closed frame goes to the ring at its position with its header, once the place is free, and raises the
partition's egress interrupt; one that would pass the end is preceded by a pad frame, which raises it as well; one without room waits.
The first event record of an arbiter that no full log holds back goes to its partition's log with the next ESEQ and raises the interrupt, to
the device log where it names no partition, and is discarded and counted while the log is off. The fields of a pad frame, the places
kept by their addresses, and the codes in an event record are the model's choice (log 29, log 28). -/
def Sys2Proof.Claims.FramesAndEventRecordsAreWritten : Prop :=
  (∀ (p : Fin 8) (s : State) (q : Part) (f : Frame), q = s.part p.val → q.closed = some f → q.egen = true →
    (frameLen f ≤ 2 ^ q.eglsize - q.egpos → RingFree q (frameLen f) →
      exec (.frameWrite p) s = .next (shut ({ s.setBytes .host (q.egbase.toNat + q.egpos) (frameBytes f p.val q.fseq) with
        parts := Tab.put p.val { moved q (frameLen f) with closed := none } s.parts }.irq (32 + p.val)) p.val)) ∧
    (2 ^ q.eglsize - q.egpos < frameLen f → RingFree q (2 ^ q.eglsize - q.egpos) →
      exec (.frameWrite p) s = .next ({ s.setBytes .host (q.egbase.toNat + q.egpos)
        (headerOf f p.val 0 (2 ^ q.eglsize - q.egpos) q.fseq) with
          parts := Tab.put p.val (moved q (2 ^ q.eglsize - q.egpos)) s.parts }.irq (32 + p.val))) ∧
    (¬ RingFree q (min (frameLen f) (2 ^ q.eglsize - q.egpos)) → exec (.frameWrite p) s = .next s)) ∧
  (∀ (p : Fin 8) (s : State), ((s.part p.val).closed = none ∨ (s.part p.val).egen = false) →
    exec (.frameWrite p) s = .next s) ∧
  (∀ (d : Fin 4) (s : State), (∀ e ∈ (s.die d.val).arb, ¬ CanLog s e) → exec (.eventLogWrite d) s = .next s) ∧
  (∀ (d : Fin 4) (s u : State) (e : EvRec) (pre rest : List EvRec), (s.die d.val).arb = pre ++ e :: rest →
    (∀ r ∈ pre, ¬ CanLog s r) → CanLog s e → u = s.modDie d.val (fun q => { q with arb := pre ++ rest }) →
    (e.part = none → exec (.eventLogWrite d) s = .next ({ u with devlog := u.devlog ++ [e] }.irq 40)) ∧
    (∀ p q, e.part = some p → q = s.part p →
      (q.elen = false → exec (.eventLogWrite d) s = .next (u.setPart p { q with eldrop := min (q.eldrop + 1) (2 ^ 32 - 1) })) ∧
      (q.elen = true → exec (.eventLogWrite d) s = .next ({ u.setBytes .host (logPlace q) (e.bytes q.eseq) with
        parts := Tab.put p { q with
          eseq := q.eseq + 1,
          elrecs := q.elrecs.filter (fun (r : Nat × Nat) => !(decide (r.1 < logPlace q + 64) && decide (logPlace q < r.1 + 64))) ++
            [(logPlace q, q.eseq)] } u.parts }.irq (24 + p))))) ∧
  (∀ (e : EvRec) (k : Nat), (e.bytes k).length = 64 ∧
    leNat (e.bytes k) = k % 2 ^ 64 + e.type % 2 ^ 8 * 2 ^ 64 +
      (e.die + (e.part.getD 0) * 4 + (if e.gcid = none then 0 else 128)) % 2 ^ 8 * 2 ^ 72 + (e.gcid.getD 0) % 2 ^ 16 * 2 ^ 80 +
      e.ltag.toNat * 2 ^ 96 + e.payload.toNat * 2 ^ 128)

namespace Sys2Proof.Claims

/-- The device physical address of an HDM offset (R472). -/
def hdm (h : Nat) : Nat := 0x6000000000 + h / (90 * 2 ^ 30) * 0x1800000000 + h % (90 * 2 ^ 30)

end Sys2Proof.Claims

/-- R472 to R474: a host read of device memory answers each byte of the HDM range with its poison and changes nothing else; a host
write puts its bytes there and nowhere else, makes them unpoisoned, or with the poison indication poisons their granules. The host reads and
writes its own memory, which is what device accesses of host pages reach. -/
def Sys2Proof.Claims.HostAccessesReachDeviceMemory : Prop :=
  (∀ (h n : Nat) (s : State), h + n ≤ 360 * 2 ^ 30 → exec (.hostMemoryAccess (.read h n)) s = .next { s with
    hostRead := (List.range n).map (fun i => (s.memByte .dram (hdm (h + i)), s.poisoned .dram (hdm (h + i)))) }) ∧
  (∀ (h : Nat) (bs : List Byte) (poison : Bool) (s : State), h + bs.length ≤ 360 * 2 ^ 30 →
    ∃ t, exec (.hostMemoryAccess (.write h bs poison)) s = .next t ∧ t = { s with dram := t.dram, dpois := t.dpois } ∧
      (∀ i, i < bs.length → t.memByte .dram (hdm (h + i)) = bs.getD i 0) ∧
      (∀ a, (∀ i, i < bs.length → a ≠ hdm (h + i)) → t.memByte .dram a = s.memByte .dram a) ∧
      (∀ i, i < bs.length → t.poisoned .dram (hdm (h + i)) = poison) ∧
      (∀ a, (∀ i, i < bs.length → a / 64 ≠ hdm (h + i) / 64) → t.poisoned .dram a = s.poisoned .dram a)) ∧
  (∀ (a n : Nat) (s : State), exec (.hostMemoryAccess (.hostRead a n)) s = .next { s with
    hostRead := (List.range n).map (fun i => (s.memByte .host (a + i), s.poisoned .host (a + i))) }) ∧
  (∀ (a : Nat) (bs : List Byte) (s : State),
    ∃ t, exec (.hostMemoryAccess (.hostWrite a bs)) s = .next t ∧ t = { s with host := t.host, hpois := t.hpois } ∧
      (∀ i, i < bs.length → t.memByte .host (a + i) = bs.getD i 0 ∧ t.poisoned .host (a + i) = false) ∧
      (∀ b, (b < a ∨ a + bs.length ≤ b) →
        t.memByte .host b = s.memByte .host b ∧ t.poisoned .host b = s.poisoned .host b))

namespace Sys2Proof.Claims

/-- A FLIT (R478): SEQ, ACK, TYPE, zero above the credits, a payload, and a CRC that holds. -/
def Flit (f : BitVec 2048) (seq ack : BitVec 12) (typ : Nat) : Prop :=
  f.toNat % 2 ^ 12 = seq.toNat ∧ f.toNat / 2 ^ 12 % 2 ^ 12 = ack.toNat ∧ f.toNat / 2 ^ 24 % 2 ^ 4 = typ ∧
    f.toNat / 2 ^ 36 % 2 ^ 28 = 0 ∧ (crc64 (natLe 248 f.toNat)).toNat = f.toNat / 2 ^ 1984

/-- A received flit whose CRC holds, with its fields. -/
def Good (f : BitVec 2048) (typ : Nat) (seq ack : BitVec 12) (credits : Nat) : Prop :=
  (crc64 (natLe 248 f.toNat)).toNat = f.toNat / 2 ^ 1984 ∧ f.toNat / 2 ^ 24 % 2 ^ 4 = typ ∧ seq = BitVec.ofNat 12 f.toNat ∧
    ack = BitVec.ofNat 12 (f.toNat / 2 ^ 12) ∧ credits = f.toNat / 2 ^ 28 % 2 ^ 8

/-- The payload of a flit. -/
def payload (f : BitVec 2048) : BitVec 1920 := BitVec.ofNat 1920 (f.toNat / 2 ^ 64)

/-- `t` is the port after a flit that is not idle goes out: after 2^24 without an idle one a calibration flit follows (R482). -/
def Sends (p t : Port) (f : BitVec 2048) : Prop :=
  (p.idle + 1 < 2 ^ 24 → t = { p with out := p.out ++ [f], idle := p.idle + 1 }) ∧
    (2 ^ 24 ≤ p.idle + 1 → ∃ c, Flit c p.txSeq p.rxSeq 2 ∧ t = { p with out := p.out ++ [f, c], idle := 0 })

/-- Flits of the replay buffer that an acknowledged SEQ leaves there: those after it (R478). -/
def after (ack : BitVec 12) (l : List (BitVec 2048)) : List (BitVec 2048) :=
  l.filter (fun f => decide (0 < (BitVec.ofNat 12 f.toNat - ack).toNat ∧ (BitVec.ofNat 12 f.toNat - ack).toNat ≤ 2048))

/-- The port with the flits up to a SEQ acknowledged; the failed replays of the oldest count on only while it is the same. -/
def settled (p : Port) (ack : BitVec 12) : Port :=
  { p with replay := after ack p.replay,
           tries := if (after ack p.replay).length < p.replay.length then 0 else p.tries }

/-- The state with a port changed and one free value used up. -/
def withPort (s : State) (n : Nat) (p : Port) : State := { s.setPort n p with freeN := s.freeN + 1 }

end Sys2Proof.Claims

open Sys2Proof.Claims in
/-- R478, R479 and R482: EN starts training and clearing it takes the port to DOWN; a trained port is UP with the expected peer and stays in
TRAIN with another; a port that fails says so in an event. Data flits are delivered in SEQ order, once each; one whose CRC fails is
discarded and answered by a NAK naming the last good SEQ; a NAK replays every flit after the SEQ it names, and where 16 replays of
one flit have failed the port fails. Data goes out with the next SEQ and stays in the replay buffer. Calibration uses an idle flit. What the
spec leaves open of credits, of a gap without a CRC error and of a restarted link is log 42, the place of a port's record log 29. -/
def Obligations.PortsTrainFailAndDeliverInOrder : Prop :=
  (∀ (n : Fin 16) (s : State),
    ((s.port n.val).en = false → exec (.portEnable n) s = .next (s.modPort n.val (fun p => { p with en := true, st := .train }))) ∧
    ((s.port n.val).en = true → exec (.portDisable n) s = .next (s.modPort n.val (fun p =>
      { Port.reset with peer := p.peer, peerid := p.peerid, retry := p.retry, rx := p.rx, out := p.out }))) ∧
    ((s.port n.val).st ≠ .up → exec (.linkCalibration (.port n)) s = .next s) ∧
    ((s.port n.val).st = .up → ∃ f, Flit f (s.port n.val).txSeq (s.port n.val).rxSeq 0 ∧
      exec (.linkCalibration (.port n)) s = .next (withPort s n.val
        { s.port n.val with out := (s.port n.val).out ++ [f], idle := 0 }))) ∧
  (∀ (a b : Fin 4) (s : State), exec (.linkCalibration (.trestle a b)) s = .next s) ∧
  (∀ (n : Fin 16) (peer : BitVec 8) (s : State), (s.port n.val).en = true → (s.port n.val).st = .train →
    exec (.portUp n peer) s = .next (s.modPort n.val (fun p =>
      { p with peerid := peer, st := if peer = p.peer then .up else .train }))) ∧
  (∀ (n : Fin 16) (s : State), (∀ q ∈ s.cores, ∀ c ∈ q.2.ch, c.2.copies = []) → (∀ q ∈ s.launches, q.2.saved = none) →
    (∀ old, ((s.port n.val).st = .train ∧ old = 1) ∨ ((s.port n.val).st = .up ∧ old = 2) →
      exec (.portFail n) s = .next (told (s.modPort n.val (fun p => { p with st := .fail, nak := false }))
        ⟨6, none, n.val / 4, none, 0, BitVec.ofNat 256 (n.val + old * 2 ^ 64 + 3 * 2 ^ 128)⟩)) ∧
    ((s.port n.val).st = .down ∨ (s.port n.val).st = .fail → exec (.portFail n) s = .next s)) ∧
  (∀ (n : Fin 16) (flit : BitVec 2048) (s : State), (s.port n.val).st ≠ .up → exec (.flitReceive n flit) s = .next s) ∧
  (∀ (n : Fin 16) (flit : BitVec 2048) (s : State) (p : Port), p = s.port n.val → p.st = .up →
    (crc64 (natLe 248 flit.toNat)).toNat ≠ flit.toNat / 2 ^ 1984 → ∃ f t, Flit f p.txSeq p.rxSeq 3 ∧ Sends { p with nak := true } t f ∧
      exec (.flitReceive n flit) s = .next (withPort s n.val t)) ∧
  (∀ (n : Fin 16) (flit : BitVec 2048) (s : State) (p : Port) (typ cr : Nat) (seq ack : BitVec 12), p = s.port n.val → p.st = .up →
    p.txq = [] → Good flit typ seq ack cr →
    (typ = 1 → seq = p.rxSeq + 1#12 → exec (.flitReceive n flit) s = .next (withPort s n.val { settled p ack with
      credits := p.credits + cr, rxSeq := seq, rx := p.rx ++ [payload flit], nak := false })) ∧
    (typ = 1 → seq ≠ p.rxSeq + 1#12 → ((seq - p.rxSeq).toNat < 2048 ∧ seq ≠ p.rxSeq ∧ p.nak = false) →
      ∃ f t, Flit f p.txSeq p.rxSeq 3 ∧ Sends { settled p ack with credits := p.credits + cr, nak := true } t f ∧
        exec (.flitReceive n flit) s = .next (withPort s n.val t)) ∧
    (typ = 1 → seq ≠ p.rxSeq + 1#12 → ¬ ((seq - p.rxSeq).toNat < 2048 ∧ seq ≠ p.rxSeq ∧ p.nak = false) →
      exec (.flitReceive n flit) s = .next (withPort s n.val { settled p ack with credits := p.credits + cr })) ∧
    (typ ≠ 1 → typ ≠ 3 → exec (.flitReceive n flit) s = .next (withPort s n.val { settled p ack with credits := p.credits + cr })) ∧
    (typ = 3 → exec (.flitReceive n flit) s = exec (.flitReplay n ack) (s.setPort n.val { p with credits := p.credits + cr }))) ∧
  (∀ (n : Fin 16) (flit : BitVec 2048) (s : State) (p : Port) (cr : Nat) (ack : BitVec 12) (d : BitVec 1920), p = s.port n.val →
    p.st = .up → p.txq = [d] → Good flit 1 (p.rxSeq + 1#12) ack cr → 0 < p.credits + cr → (after ack p.replay).length < 2048 →
    ∃ f t, Flit f (p.txSeq + 1#12) (p.rxSeq + 1#12) 1 ∧ payload f = d ∧
      Sends { settled p ack with
        credits := p.credits + cr - 1, rxSeq := p.rxSeq + 1#12, rx := p.rx ++ [payload flit], nak := false, txq := [],
        txSeq := p.txSeq + 1#12, replay := after ack p.replay ++ [f] } t f ∧
      exec (.flitReceive n flit) s = .next (withPort s n.val t)) ∧
  (∀ (n : Fin 16) (nak : BitVec 12) (s : State) (p : Port), p = settled (s.port n.val) nak →
    ((s.port n.val).st ≠ .up → exec (.flitReplay n nak) s = .next s) ∧
    ((s.port n.val).st = .up → p.replay = [] → exec (.flitReplay n nak) s = .next (withPort s n.val p)) ∧
    ((s.port n.val).st = .up → p.replay ≠ [] → p.tries < 16 → p.idle + p.replay.length < 2 ^ 24 →
      exec (.flitReplay n nak) s = .next (withPort s n.val { p with
        out := p.out ++ p.replay, idle := p.idle + p.replay.length, tries := p.tries + 1,
        retry := min (p.retry + 1) (2 ^ 32 - 1) })) ∧
    ((s.port n.val).st = .up → p.replay ≠ [] → 16 ≤ p.tries → ∃ t, exec (.flitReplay n nak) s = .next t ∧
      exec (.portFail n) (s.setPort n.val p) = .next t ∧ (t.port n.val).st = .fail))


/-! ## Errors, telemetry, power and the mailbox (R482 to R492) -/

namespace Sys2Proof.Claims

/-- EVERY DIE STOPS (R488): no bundle issues any more, READY is clear, and a record stands in the device log. -/
def Halts (s t : State) : Prop :=
  t.power = .stopped ∧ t.ready = false ∧ t.dram = s.dram ∧ t.ctxs = s.ctxs ∧ t.devlog.length = s.devlog.length + 1

/-- No die is at 115 degrees Celsius or above with die `d` at `temp`, or the package does not run (R488). -/
def Mild (s : State) (d : Nat) (temp : BitVec 32) : Prop :=
  s.power ≠ .on ∨ ∀ e, e < 4 → (if e = d then temp else (s.die e).temp).toNat < 115

/-- Nothing of the package's state outlasts its power but the flash; WSC is unspecified at power-up (R131, R489). -/
def Cleared (t : State) : Prop :=
  (∀ d, ∃ w, t.die d = { Die.reset with wsc := w }) ∧ t.ctxs = [] ∧ t.cores = [] ∧ t.clus = [] ∧ t.parts = [] ∧ t.streams = [] ∧ t.launches = [] ∧ t.ports = [] ∧
    t.dram = [] ∧ t.dtags = [] ∧ t.dpois = [] ∧ t.wbuf = [] ∧ t.invals = [] ∧ t.devlog = [] ∧ t.mbbusy = false ∧ t.devid = 0 ∧
    t.pwrcap = 1800#11 ∧ t.therm = false

/-- A mailbox command has completed (R491). -/
def answered (s : State) (err : BitVec 8) (data : List Byte) : State :=
  { s with mbbusy := false, mbdone := true, mberr := err, mblen := data.length, mbdata := s.mbdata.writeN 0 data,
           irqs := s.irqs ++ [40] }

/-- The state with a mailbox command running. -/
def asked (s : State) (op : Nat) (arg : Word) : State :=
  { s with mbbusy := true, mbop := BitVec.ofNat 8 op, mbarg := BitVec.ofNat 56 arg.toNat, mbsnap := s.measure }

/-- The tag that an uncorrectable error leaves: STATE 6 (R147); its other fields are zero by the model's choice (log 43). -/
def spoilt : BitVec 32 := 0x60000000#32

end Sys2Proof.Claims

open Sys2Proof.Claims in
/-- R482 to R486: refresh changes nothing; a scrub of good data changes nothing, and one that finds a bad word poisons its granule with
an event, in the carve-out the tags it holds; a corrected error adds one to its structure's count, with an event at every 2^16th; an
uncorrectable one poisons its unit, a Mantel bank leaving every WSMASK, and a WSLOAD that has begun brings it back no more; a sample writes one record for each die with the next sample
number, and stops the package where it measures 115 degrees Celsius (R488). Structure codes and the fields of a sample are the model's (log 28). -/
def Sys2Proof.Claims.ErrorsPoisonAndAreCounted : Prop :=
  (∀ (d : Fin 4) (hot : Bool) (s : State), exec (.dramRefresh d hot) s = .next s) ∧
  (∀ (d : Fin 4) (g : Nat) (s : State), exec (.patrolScrub d g false) s = .next s) ∧
  (∀ (d : Fin 4) (g o : Nat) (s : State), zoneOf (g * 64) = .data d.val o →
    ∃ t, exec (.patrolScrub d g true) s = .next t ∧ exec (.uncorrectableError (.dram g)) s = .next t ∧
      (∀ a, t.poisoned .dram a = (decide (a / 64 = g) || s.poisoned .dram a)) ∧
      t = told { s with dpois := t.dpois } ⟨3, none, d.val, none, 0, BitVec.ofNat 256 (8 + g * 64 * 2 ^ 64 + 2 ^ 128)⟩) ∧
  (∀ (d : Fin 4) (g o : Nat) (s : State), zoneOf (g * 64) = .carve d.val o → o + 60 < dieData / 16 →
    ∃ t, exec (.patrolScrub d g true) s = .next t ∧
      (∀ k, (∃ i, i < 16 ∧ tagGranule d.val (o + 4 * i) = some k) → t.tag .dram k = spoilt) ∧
      (∀ sp k, ¬ (sp = .dram ∧ ∃ i, i < 16 ∧ tagGranule d.val (o + 4 * i) = some k) → t.tag sp k = s.tag sp k) ∧
      t = told { s with dtags := t.dtags } ⟨3, none, d.val, none, 0, BitVec.ofNat 256 (8 + g * 64 * 2 ^ 64 + 2 ^ 128)⟩) ∧
  (∀ (c : Fin 32) (g : Nat) (s : State),
    ∃ t, exec (.uncorrectableError (.scratchTag c g)) s = .next t ∧ t.tag (.sp c.val) g = spoilt ∧
      (∀ sp k, ¬ (sp = .sp c.val ∧ k = g) → t.tag sp k = s.tag sp k) ∧
      t = told { s with clus := t.clus } ⟨3, s.partOfCluster c.val, c.val / 8, none, 0,
        BitVec.ofNat 256 (10 + (c.val * 2 ^ 24 + g * 64) * 2 ^ 64 + 2 ^ 128)⟩ ∧
      ∀ k, t.clu k = { s.clu k with tags := (t.clu k).tags }) ∧
  (∀ (u : EccUnit) (s : State) (n : Nat), n = Tab.get 0 (eccCode u).1 (s.die (eccDie u)).ecc + 1 →
    (n % 2 ^ 16 ≠ 0 → exec (.correctedError u) s =
      .next (s.modDie (eccDie u) (fun d => { d with ecc := Tab.put (eccCode u).1 n d.ecc }))) ∧
    (n % 2 ^ 16 = 0 → exec (.correctedError u) s =
      .next (told (s.modDie (eccDie u) (fun d => { d with ecc := Tab.put (eccCode u).1 n d.ecc }))
        ⟨4, s.eccPart u, eccDie u, none, 0, BitVec.ofNat 256 ((eccCode u).1 + n * 2 ^ 64)⟩))) ∧
  (∀ (d : Fin 4) (b : Fin 64) (s : State),
    ∃ t, exec (.uncorrectableError (.mantel d b)) s = .next t ∧
      (∀ p e c, e < 4 → c < 64 → (Tab.get 0 e (t.part p).wsmask).getLsbD c =
        ((Tab.get 0 e (s.part p).wsmask).getLsbD c && !(decide (e = d.val) && decide (c = b.val)))) ∧
      (∀ n, t.stream n = { s.stream n with wsBack := (t.stream n).wsBack } ∧ ∀ c, c < 64 → (t.stream n).wsBack.getLsbD c =
        ((s.stream n).wsBack.getLsbD c && !(decide (field (s.stream n).cmd 1 1 = d.val) && decide (c = b.val)))) ∧
      t = told ({ s with parts := t.parts, streams := t.streams }.modDie d.val (fun e =>
          { e with lost := e.lost ||| ((1#64) <<< b.val), remask := e.remask &&& ~~~((1#64) <<< b.val) }))
        ⟨3, none, d.val, none, 0, BitVec.ofNat 256 (9 + (d.val * 2 ^ 30 + b.val * 2 ^ 24) * 2 ^ 64 + 2 ^ 128)⟩) ∧
  (∀ (g : Fin 1024) (i : Nat) (s : State), (s.core (g.val / 4)).launch = none →
    ∃ t, exec (.uncorrectableError (.vector g i)) s = .next t ∧ (t.ctx g.val).vpois = i :: (s.ctx g.val).vpois.filter (fun k => k != i) ∧
      t.ctx g.val = { s.ctx g.val with vpois := (t.ctx g.val).vpois } ∧ (∀ k, k ≠ g.val → t.ctx k = s.ctx k)) ∧
  (∀ (w : BitVec 32) (temps : List (BitVec 32)) (s : State), (∀ d, d < 4 → (s.die d).arb.length < 1024) →
    (s.power = .on → (∃ d, d < 4 ∧ 115 ≤ (temps.getD d 0).toNat) →
      ∃ t, exec (.telemetrySample w temps) s = .next t ∧ Halts s t ∧ t.telem = s.telem + 1 ∧ t.watts = w ∧
        ∀ d, d < 4 → (t.die d).temp = temps.getD d 0) ∧
    ((s.power ≠ .on ∨ ∀ d, d < 4 → (temps.getD d 0).toNat < 115) → ∃ t, exec (.telemetrySample w temps) s = .next t ∧ t.telem = s.telem + 1 ∧
      (∀ d, d < 4 → t.die d = { s.die d with temp := temps.getD d 0, arb := (s.die d).arb ++ [⟨8, none, d, none, 0,
        BitVec.ofNat 256 (s.telem + d * 2 ^ 64 + w.toNat * 2 ^ 128 + (temps.getD d 0).toNat * 2 ^ 192)⟩] }) ∧
      t = { s with telem := s.telem + 1, watts := w, dies := t.dies }))

open Sys2Proof.Claims in
/-- R487 to R489: while the package's power exceeds PWRCAP.W or a die's junction 100 degrees Celsius, a throttle takes the die's clock down by
125 MHz, never below 1,000, and without a cause it changes nothing; a restore takes it up by one step once the cause has been absent for
2^20 cycles; each sets THERM as some die is throttled and is recorded. A temperature of 115 degrees Celsius, or the event of a thermal stop, clears READY and stops the package, which takes no
mailbox command then; its record's place is the model's (log 29). Power-up boots the first firmware slot that verifies, clears storage, resets registers and sets READY, or
RECOV where none does (which images verify is left free, log 30); power-down clears all that the package holds. The clock steps
and the temperature and power that they are judged by are events and fields of the model (log 39). -/
def Sys2Proof.Claims.PowerAndTemperature : Prop :=
  (∀ (d : Fin 4) (temp : BitVec 32) (s : State) (hot : Prop), (hot ↔ s.pwrcap.toNat < s.watts.toNat ∨ 100 < temp.toNat) →
    (s.die d.val).arb.length < 1024 → Mild s d.val temp →
    (∀ c, hot → c = (s.die d.val).clk → 1000 < c → c ≤ 2000 → c % 125 = 0 →
      ∃ t, exec (.throttle d temp) s = .next t ∧ (t.die d.val).clk = c - 125 ∧ (t.die d.val).throttled = true ∧ t.therm = true ∧
        (t.die d.val).arb = (s.die d.val).arb ++
          [⟨7, none, d.val, none, 0, BitVec.ofNat 256 (d.val + (c - 125) / 125 * 2 ^ 64 + temp.toNat * 2 ^ 128)⟩] ∧
        t.irqs = (if s.therm then s.irqs else s.irqs ++ [40]) ∧ (∀ e, e ≠ d.val → t.die e = s.die e) ∧
        t = { s with dies := t.dies, therm := true, irqs := t.irqs }) ∧
    (hot → (s.die d.val).clk ≤ 1000 →
      exec (.throttle d temp) s = .next (s.modDie d.val (fun q => { q with temp := temp, cool := 0 }))) ∧
    (¬ hot → exec (.throttle d temp) s = .next (s.modDie d.val (fun q => { q with temp := temp }))) ∧
    (∀ c, ¬ hot → c = (s.die d.val).clk → c < 2000 → c % 125 = 0 → 2 ^ 20 ≤ (s.die d.val).cool →
      ∃ t, exec (.clockRestore d temp) s = .next t ∧ (t.die d.val).clk = c + 125 ∧
        (t.die d.val).throttled = decide (c + 125 < 2000) ∧
        (t.therm = true ↔ ∃ e, e < 4 ∧ (t.die e).throttled = true) ∧
        (t.die d.val).arb = (s.die d.val).arb ++
          [⟨7, none, d.val, none, 0, BitVec.ofNat 256 (d.val + (c + 125) / 125 * 2 ^ 64 + temp.toNat * 2 ^ 128)⟩] ∧
        (∀ e, e ≠ d.val → t.die e = s.die e) ∧ t = { s with dies := t.dies, therm := t.therm, irqs := t.irqs }) ∧
    (¬ hot → (2000 ≤ (s.die d.val).clk ∨ (s.die d.val).cool < 2 ^ 20) →
      exec (.clockRestore d temp) s = .next (s.modDie d.val (fun q => { q with temp := temp }))) ∧
    (hot → exec (.clockRestore d temp) s = .next (s.modDie d.val (fun q => { q with temp := temp, cool := 0 })))) ∧
  (∀ (d : Fin 4) (temp : BitVec 32) (s : State), s.power = .on → 115 ≤ temp.toNat →
    (∃ t, exec (.throttle d temp) s = .next t ∧ Halts s t ∧ (t.die d.val).temp = temp) ∧
    ∃ t, exec (.clockRestore d temp) s = .next t ∧ Halts s t ∧ (t.die d.val).temp = temp) ∧
  (∀ s : State, ∃ t, exec .thermalStop s = .next t ∧ Halts s t) ∧
  (∀ (s : State) (v : Word) (core : Fin 256), s.power ≠ .on →
    exec (.registerWrite 0x100 v) s = .next s ∧ exec (.bundleIssue core) s = .next s) ∧
  (∀ s : State, ∃ t, exec .powerDown s = .next t ∧ t.power = .off ∧ Cleared t ∧ t.ready = false ∧ t.flash = s.flash ∧ t.host = s.host) ∧
  (∀ s : State, s.power = .on → (s.ready = true ∨ s.recov = true) → exec .powerUp s = .next s) ∧
  (∀ s : State, ¬ (s.power = .on ∧ (s.ready = true ∨ s.recov = true)) → ∃ t, exec .powerUp s = .next t ∧ t.power = .on ∧
    (s.power ≠ .on → Cleared t) ∧
    (s.power = .on → t = { s with ready := t.ready, recov := t.recov, slotB := t.slotB, irqs := s.irqs ++ [40] }) ∧
    t.flash = s.flash ∧ t.host = s.host ∧
    (t.ready = true ↔ Config.signatureOk (s.fwImage false) = true ∨ Config.signatureOk (s.fwImage true) = true) ∧
    (t.recov = true ↔ t.ready = false) ∧
    (t.slotB = true ↔ Config.signatureOk (s.fwImage false) = false ∧ Config.signatureOk (s.fwImage true) = true))

open Sys2Proof.Claims in
/-- R490 to R492: the mailbox runs one command at a time and each completes with DONE, ERR, LEN and vector 40. ATTEST answers a report of
536 bytes with its magic number, the nonce, the digests of the running firmware and of the partitions' registers as they stood when the command
started, FWSVN and DSTAT at their places; CERT answers a certificate; FWUPDATE writes a verified image to the slot that did not
boot and fails with 2 for a place that does not exist and 3 for an image that does not verify; DEVLOG removes the oldest
records. The boot ROM's digest, the signature, the certificate, the size of an image and ERR 2 are the model's (log 30), and the form of a
record in the device log (log 28, log 29). -/
def Obligations.TheMailboxAnswers : Prop :=
  (∀ s : State, s.power = .on → s.mbbusy = false → ∃ t data, exec .attest s = .next t ∧ t = answered (asked s 1 0) 0 data ∧
    data.length = 536 ∧
    leNat (data.take 8) = 0x5441565A + 2 ^ 32 ∧ (data.drop 8).take 32 = s.mbdata.readN 0 32 ∧
    (data.drop 72).take 32 = sha256 (s.fwImage s.slotB) ∧
    (data.drop 104).take 32 = sha256 (s.measure.flatMap (fun w => natLe 8 w.toNat)) ∧
    leNat ((data.drop 136).take 8) = s.fwsvn.toNat ∧ leNat ((data.drop 144).take 8) = s.dstat.toNat) ∧
  (∀ s : State, s.measure.length = 56 ∧ ∀ p, p < 8 →
    (s.measure.getD (7 * p) 0).toNat = (s.part p).clmask.toNat + (if (s.part p).en then 2 ^ 63 else 0) ∧
    (∀ d, d < 4 → s.measure.getD (7 * p + 1 + d) 0 = Tab.get 0 d (s.part p).wsmask) ∧
    s.measure.getD (7 * p + 5) 0 = (s.part p).xroot ∧ s.measure.getD (7 * p + 6) 0 = (s.part p).trcfg) ∧
  (∀ s : State, s.power = .on → s.mbbusy = true → s.mbop = 1#8 → ∃ data, exec .attest s = .next (answered s 0 data) ∧
    (data.drop 104).take 32 = sha256 (s.mbsnap.flatMap (fun w => natLe 8 w.toNat))) ∧
  (∀ s : State, s.power = .on → s.mbbusy = false → ∃ data, exec .cert s = .next (answered (asked s 2 0) 0 data)) ∧
  (∀ (s u : State) (a : Word) (img : List Byte), s.power = .on → s.mbbusy = false → a.toNat < 2 ^ 56 → u = asked s 3 a →
    img = s.memBytes .dram a.toNat 4096 →
    ((∃ i, i < 4096 ∧ inData (a.toNat + i) = false) → exec (.fwupdate a) s = .next (answered u 2 [])) ∧
    ((∀ i, i < 4096 → inData (a.toNat + i) = true) →
      (Config.signatureOk img = false → exec (.fwupdate a) s = .next (answered u 3 [])) ∧
      (Config.signatureOk img = true → ∃ t, exec (.fwupdate a) s = .next t ∧ t = answered { u with flash := t.flash } 0 [] ∧
        t.fwImage (!s.slotB) = img ∧ t.fwImage s.slotB = s.fwImage s.slotB))) ∧
  (∀ (s : State) (a : Word), s.power = .on → s.mbbusy = false → a.toNat < 2 ^ 52 → s.devlog.length ≤ 64 →
    ∃ t, exec (.devlog a) s = .next t ∧
    t = { answered (asked s 4 a) 0 [] with devlog := [], devseq := s.devseq + s.devlog.length, mblen := 64 * s.devlog.length,
                                           host := t.host, hpois := t.hpois } ∧
    (∀ i, i < s.devlog.length → ∀ j, j < 64 → t.host.read (a.toNat * 4096 + 64 * i + j) =
      ((s.devlog.getD i ⟨0, none, 0, none, 0, 0⟩).bytes (s.devseq + 1 + i)).getD j 0)) ∧
  (∀ (s : State) (v : Word), s.mbbusy = true → exec (.registerWrite 0x100 v) s = .next s)

/-! ## Slots, steps, exceptions, reset (R20, R30, R39, R44, R91, R187 to R192, R424 to R430) -/

/-- R192: a slot that is guarded off takes the message-queue entries that it names and pushes 0 if its destination is the result
queue; nothing else changes, and no check of the operation is made, nor that of R42. This holds of every operation of a slot, but for the
ILLENC of R113, which R192 does not except: a PSET or PSETD of a descriptor that R113 forbids raises it whatever its guard (log 44; in
PatternInstructions). -/
def Sys2Proof.Claims.GuardedOffSlotsOnlyPop : Prop :=
  ∀ (i : Instr) (f : Facts) (s s1 : State) (vs : List Word), facts i = some f → s.srcs none f.srcs = some (s1, vs) →
    s.me.guardOn f.c = false →
    (∀ p a b, i = .pset p → vs = [a, b] → Allowed (b.toNat * 2 ^ 64 + a.toNat)) →
    (∀ p, i = .psetd p → p.pn.val < s.me.pats.count → (s.pattern p.pn.val).desc.toNat / 2 ^ 16 % 2 ^ 10 ≤ 768) →
    exec i s = .next (done s1 (if f.dst = some .q then [⟨s1.me.idx + 1, s1.me.idx, true, 0, .q 0⟩] else []))

/-- R44, R46, R424, R425 and R428: TAKING AN EXCEPTION. The context is TRAPPED and holds no stream; TSW0 has the cause, the slot
where it resumes, NB, the mode, FETCH, the code and the channel at their places, TSW1 the bundle's address, TSW2 its index, TSW3
the address; the rest of the bundle is discarded, and BIX stays what it is, one more than the bundle's index where the bundle has issued
(R30; log 10). Every register, pin, nest and pending result of the
context is kept; other contexts, every other core and every memory stay: of its core only the streams, the queues of GROW and of traps, and
which entries of its message queues its bundle had reserved may change, of its die only the arbiter, which may take the one record of the
trap. R429: RETURNING makes the context READY at that slot, past the whole bundle
where NB is set. -/
def Obligations.ExceptionsAreTakenAndReturnedFrom : Prop :=
  (∀ (s : State) (g : Nat) (t : Trap) (u : State), u = s.takeTrap g t → t.cause < 2 ^ 8 → t.ch < 4 → (∀ h, t.hdl = some h → h < 64) →
    (∀ p ∈ (s.ctx g).todo, p.1 < 8) → (∀ k, (s.ctx g).resume = some k → k < 8) →
    (u.ctx g).st = .trapped ∧ (u.ctx g).todo = [] ∧ (u.ctx g).bix = (s.ctx g).bix ∧ (u.ctx g).pc = (s.ctx g).pc ∧
    (u.ctx g).tsw1 = (s.ctx g).pc ∧ (u.ctx g).tsw2 = BitVec.ofNat 64 (s.ctx g).idx ∧ (u.ctx g).tsw3 = t.addr ∧
    (u.ctx g).tsw0.toNat % 2 ^ 8 = t.cause ∧ (u.ctx g).tsw0.getLsbD 12 = (s.ctx g).view.strict ∧
    (u.ctx g).tsw0.getLsbD 13 = t.fetch ∧ (u.ctx g).tsw0.toNat / 2 ^ 24 % 4 = t.ch ∧
    (u.ctx g).tsw0.toNat / 2 ^ 32 % 2 ^ 8 = t.code.toNat ∧ (u.ctx g).tsw0.toNat / 2 ^ 40 % 8 = t.gst.toNat ∧
    (u.ctx g).tsw0.toNat / 2 ^ 43 % 2 ^ 10 = t.gctx.toNat ∧
    (∀ h, t.hdl = some h → (u.ctx g).tsw0.getLsbD 23 = true ∧ (u.ctx g).tsw0.toNat / 2 ^ 17 % 64 = h) ∧
    (t.hdl = none → (u.ctx g).tsw0.getLsbD 23 = false) ∧
    (u.ctx g).tsw0.getLsbD 11 = decide (t.done = true ∧ (s.ctx g).todo.tail = []) ∧
    (∀ k i l, t.done = false → t.fetch = false → t.cause ≠ 1 → (s.ctx g).todo = (k, i) :: l →
      (u.ctx g).tsw0.toNat / 2 ^ 8 % 8 = k) ∧
    (∀ k i l, t.done = true → t.fetch = false → t.cause ≠ 1 → (s.ctx g).todo.tail = (k, i) :: l →
      (u.ctx g).tsw0.toNat / 2 ^ 8 % 8 = k) ∧
    u.ctx g = { s.ctx g with
      st := .trapped, tsw0 := (u.ctx g).tsw0, tsw1 := (u.ctx g).tsw1, tsw2 := (u.ctx g).tsw2, tsw3 := (u.ctx g).tsw3,
      trcfg := (u.ctx g).trcfg, todo := [], slots := [], resume := none, chBlk := false, yielding := false,
      resv := [] } ∧
    g % 4 ∉ (u.core (g / 4)).growQ ∧
    (∀ m, (Tab.get [] m (u.core (g / 4)).mq).map MqEntry.val = (Tab.get [] m (s.core (g / 4)).mq).map MqEntry.val ∧
      ∀ e ∈ Tab.get [] m (u.core (g / 4)).mq, e.taken ≠ some (g % 4)) ∧
    (u.core (g / 4)).prim ≠ some (g % 4) ∧ (u.core (g / 4)).sec ≠ some (g % 4) ∧ (∀ k, k ≠ g → u.ctx k = s.ctx k) ∧
    u.core (g / 4) = { s.core (g / 4) with
      prim := (u.core (g / 4)).prim, sec := (u.core (g / 4)).sec, growQ := (s.core (g / 4)).growQ.filter (fun i => i != g % 4),
      trapQ := (u.core (g / 4)).trapQ, mq := (u.core (g / 4)).mq } ∧
    (∀ i, i ≠ g % 4 → ((u.core (g / 4)).prim = some i ↔ (s.core (g / 4)).prim = some i) ∧
      ((u.core (g / 4)).sec = some i ↔ (s.core (g / 4)).sec = some i)) ∧
    (∀ k, k ≠ g / 4 → u.core k = s.core k) ∧ (∀ d, d ≠ g / 256 → u.die d = s.die d) ∧
    u.die (g / 256) = { s.die (g / 256) with arb := (u.die (g / 256)).arb } ∧
    ((u.core (g / 4)).trapQ = (s.core (g / 4)).trapQ ++ [g % 4] ∧ u.dies = s.dies ∧ u.irqs = s.irqs ∨
      (u.core (g / 4)).trapQ = (s.core (g / 4)).trapQ ++ [4 + g % 4] ∧ u.dies = s.dies ∧ u.irqs = s.irqs ∨
      (u.core (g / 4)).trapQ = (s.core (g / 4)).trapQ ∧ u.irqs = (s.irq (16 + s.partOf g)).irqs ∧
        ∃ e, (u.die (g / 256)).arb = (s.die (g / 256)).arb ++ [e] ∧ e.type = 1 ∧ e.part = some (s.partOf g) ∧ e.gcid = some g) ∧
    u = { s with freeN := s.freeN + 1, ctxs := u.ctxs, cores := u.cores, dies := u.dies, irqs := u.irqs }) ∧
  (∀ (s : State) (g : Nat) (u : State), u = s.returnTrap g →
    (u.ctx g).st = .ready ∧
    (u.ctx g).resume = some (if (s.ctx g).tsw0.getLsbD 11 then 8 else (s.ctx g).tsw0.toNat / 2 ^ 8 % 8) ∧
    u.ctx g = { s.ctx g with st := .ready, resume := (u.ctx g).resume, tsw0 := (u.ctx g).tsw0, tsw1 := (u.ctx g).tsw1,
                             tsw2 := (u.ctx g).tsw2, tsw3 := (u.ctx g).tsw3 } ∧
    (∀ k, k ≠ g → u.ctx k = s.ctx k) ∧ u = { s with freeN := s.freeN + 4, ctxs := u.ctxs })

/-- R20, R30, R39, R187 to R189: A STEP RUNS WHAT IT DECODES. The bundle at an address is what the decoder reads from the bytes there to
the end of their line; a step in which a core issues runs the issued slots one after another, each as `exec` gives it in the state
that the one before left, until one waits or traps or the bundle ends; then the contexts that wait try again, and held code lines take note of what
was written to them; pins of a context that is no stream, on a page under invalidation, are released. That a step takes its event from the
inbox where one stands there, and that `pace` may let the bundles in an event go on by fewer slots, are the model's choice (logs 7 and 2). -/
def Obligations.AStepRunsTheDecodedBundle : Prop :=
  (∀ (s : State) (g : Nat) (va : Word) (l : List (Byte × Bool)) (b : List (Nat × Instr)) (n : Nat), s.fetchLine g va = .ok l →
    (∀ p ∈ l, p.2 = false) → (∃ h r, l = h :: r ∧ h.1 ≠ 0#8) → decodeBundle (l.map Prod.fst) = .ok (b, n) →
    s.fetch g va = .ok ⟨va, b, n⟩) ∧
  (∀ (s t : State) (core : Fin 256) (rest : List Instr), s.power = .on → s.recov = false → s.inbox = .bundleIssue core :: rest →
    exec (.bundleIssue core) { s with inbox := rest } = .next t → t.power = .on →
    (t.pace = [] → step s = andThen (andThen (drain 8 t) settle) (fun u => .next (u.idlePins.noteLines { s with inbox := rest }))) ∧
    (∀ l more, t.pace = l :: more →
      step s = andThen (andThen (l.foldl (fun o q => andThen o (goOnIf q.2 q.1)) (.next { t with pace := more }))
        (fun u => forAll u.waiters tryBlocked u)) (fun u => .next (u.idlePins.noteLines { s with inbox := rest })))) ∧
  (∀ (s : State) (k n : Nat) (i : Instr) (l : List (Nat × Instr)), s.me.runs = true → s.me.todo = (k, i) :: l →
    drain (n + 1) s = andThen (exec i (s.modMe (fun c => { c with slot := k }))) (fun t =>
      if t.me.todo.length = l.length + 1 then .next t
      else drain n ((s.modMe (fun c => { c with slot := k })).afterSlot t))) ∧
  (∀ (s : State) (n : Nat), s.me.todo = [] → drain n s = .next (s.endBundle s.cur))

/-- Every step of the machine answers a next state: no operation, event or address stops the model (the spec names a trap, a stopped
command or an ignored write for each case in which an effect is turned away). -/
def Obligations.EveryStepGoesOn : Prop :=
  (∀ s : State, goesOn (step s)) ∧ ∀ (i : Instr) (s : State), goesOn (exec i s)

/-- R187, R188 and R191: DECODING IS THE INVERSE OF ENCODING. For every well-formed operation with every value of its fields, the
bundle that holds its word alone, in its own slot or a scalar one in either scalar slot, decodes to it and to nothing more, with
the length of R188. -/
def Obligations.DecodingInvertsEncoding : Prop :=
  ∀ (i : Instr) (e : Enc) (k : Nat) (rest : List Byte), i.wf = true → encode i = some e →
    (k = i.slotNo ∨ (k = 0 ∧ i.slotKind = some .s)) →
    decodeBundle (BitVec.ofNat 8 (2 ^ k) :: (slotImage k e ++ rest)) =
      .ok ([(k, i)], 1 + slotBytes k + (if e.lit = none then 0 else 4))

/-- Every step keeps every byte memory, those that copies keep and launches have saved among them, in its canonical form: listed
addresses rise and no listed byte is what an unlisted address reads as (the model's representation of memory, log 5). -/
def Obligations.StepsKeepMemoriesCanonical : Prop := ∀ s t : State, s.memWf → step s = .next t → t.memWf

/-- The memories are in their canonical form at reset (the model's representation of memory, log 5). -/
def Obligations.ResetMemoriesAreCanonical : Prop := State.reset.memWf

/-- R18, R91, R93, R116, R119, R121, R226, R407, R410, R431, R446, R469, R479, R485 and R489: what reset leaves. Every context is EMPTY with
zero registers, b0 alone set, free handles, unwritten tree nodes with PARENT 127 and the CSRs of R226; streams are OFF with LSIZE
12, ports DOWN, partitions disabled, PWRCAP 1,800; READY is clear, and nothing is stored, pending or queued. -/
def Obligations.ResetValues : Prop :=
  (∀ g, State.reset.ctx g = Ctx.reset) ∧ Ctx.reset.st = .empty ∧ (∀ n, Tab.get 0 n Ctx.reset.x = 0#64) ∧ Ctx.reset.b = 1#8 ∧
    (∀ n, Ctx.reset.q.getD n 0 = 0#64) ∧ (∀ n, Tab.get Gen.zero n Ctx.reset.g = Gen.zero) ∧
    (∀ n, (Ctx.reset.handle n).st = .free ∧ (Ctx.reset.handle n).err = 0#8 ∧ (Ctx.reset.handle n).lsize = 0) ∧
    Ctx.reset.bix = 0 ∧ Ctx.reset.csr.epscl = 0x3F800000#32 ∧ Ctx.reset.csr.epclp = 0x7F800000FF800000#64 ∧
    Ctx.reset.csr.bimlim = 0x7F800000#32 ∧ Ctx.reset.csr.nstat = 0 ∧ Ctx.reset.csr.rbase = 0#64 ∧ Ctx.reset.csr.priv = false ∧
  (∀ k, State.reset.core k = CoreSt.reset) ∧ (∀ n, Tab.get Tile.zero n CoreSt.reset.tiles = Tile.zero) ∧
    (∀ n m, Tab.get nodeReset m (Tab.get Tree.reset n CoreSt.reset.tt).nodes = 127#64) ∧
  (∀ n, (State.reset.stream n).st = .off ∧ (State.reset.stream n).en = false ∧ State.reset.regRead (0x10000 + 0x100 * (n % 16) + 8) = 12#64 ∧
    State.reset.regRead (0x10000 + 0x100 * (n % 16) + 0x20) = 5#64) ∧
  (∀ p, (State.reset.part p).en = false ∧ (State.reset.part p).clmask = 0#32 ∧ (State.reset.part p).xroot = 0#64 ∧
    State.reset.regRead (0x20000 + 0x1000 * (p % 8) + 0x58) = 12#64 ∧ State.reset.regRead (0x20000 + 0x1000 * (p % 8) + 0x70) = 12#64) ∧
  (∀ n, (State.reset.port n).st = .down) ∧ State.reset.pwrcap = 1800#11 ∧ State.reset.devid = 0#8 ∧ State.reset.ready = false ∧
  (∀ sp gr, State.reset.tag sp gr = 0#32) ∧ State.reset.launches = [] ∧ State.reset.invals = [] ∧ State.reset.wbuf = [] ∧
  State.reset.irqs = [] ∧ State.reset.inbox = []

namespace Sys2Proof.Claims

/-- The common field of a word whose guard is b0 as it is (R191). -/
def plain : Common := ⟨false, 0, false⟩

end Sys2Proof.Claims

/-- R187 to R209: one word of each slot, written out from the fields of its encoding, decodes to the operation it stands for. -/
def Obligations.SomeWordsDecode : Prop :=
  -- add x3, x1, x2: form R, opcode 0x00, D 17:12, SA 23:18, SB 29:24
  decodeSlot 1 (3 * 2 ^ 12 + 1 * 2 ^ 18 + 2 * 2 ^ 24) none = .ok (.add ⟨plain, none, .x 3, .x 1, .x 2⟩) ∧
  -- brc.nez x5, -16: form K, opcode 0x21, L, COND 14:12, SA 23:18
  decodeSlot 1 (2 ^ 5 + 0x21 * 2 ^ 6 + 1 * 2 ^ 12 + 5 * 2 ^ 18) (some 0xFFFFFFF0#32) =
    .ok (.brc ⟨plain, 0xFFFFFFF0#32, .x 5, .nez⟩) ∧
  -- ldt: form M, opcode 0x00, VD 26:14 v8, GN 34:31, NU 39:35, NROW 44:40, T 45, FMT 50:46
  decodeSlot 2 (8 * 2 ^ 14 + 3 * 2 ^ 31 + 11 * 2 ^ 35 + 31 * 2 ^ 40 + 2 ^ 45 + 1 * 2 ^ 46) none =
    .ok (.ldt ⟨plain, ⟨.main, 8⟩, .bf16, true, 31, 11, 3⟩) ∧
  -- sts.64.sp.strm2: form S, opcode 0x02, SA 25:20, SB 31:26, OFF 47:32, SZ 49:48, STRM 53:50, SP 54
  decodeSlot 3 (2 * 2 ^ 6 + 4 * 2 ^ 20 + 7 * 2 ^ 26 + 0xFFF8 * 2 ^ 32 + 3 * 2 ^ 48 + 2 * 2 ^ 50 + 2 ^ 54) none =
    .ok (.sts ⟨plain, .x 4, .x 7, 0xFFF8#16, 3, true, 2⟩) ∧
  -- cpy: opcode 0x00, CH 15:14, GS 19:16, GD 23:20, HD 29:24, HDV 30, HS 36:31, HSV 37, ESZ 58:56
  decodeSlot 4 (1 * 2 ^ 14 + 2 * 2 ^ 16 + 3 * 2 ^ 20 + 5 * 2 ^ 24 + 2 ^ 30 + 6 * 2 ^ 31 + 2 ^ 37 + 4 * 2 ^ 56) none =
    .ok (.cpy ⟨plain, 1, 2, 3, some 5, some 6, 4⟩) ∧
  -- mm: opcode 0x00, ACC 19:14, A 32:20 scratchpad through g2, B 45:33 latch k1, AF 50:46, BF 55:51, SCR 59:56, SR 61:60, T 62, G 63
  decodeSlot 5 (9 * 2 ^ 14 + (1 * 2 ^ 11 + 2) * 2 ^ 20 + (3 * 2 ^ 11 + 1) * 2 ^ 33 + 1 * 2 ^ 46 + 3 * 2 ^ 51 + 4 * 2 ^ 56 +
      1 * 2 ^ 60 + 2 ^ 62 + 2 ^ 63) none =
    .ok (.mm ⟨plain, 9, ⟨.sp, 2⟩, ⟨.store, 1⟩, .bf16, .e4m3, 4, .maxPlus, true, true⟩) ∧
  -- cvt: form V, opcode 0x10, NR 19:14, VD 32:20 v16, VS 45:33 o2, DF 50:46, SF 55:51, RM 57:56, PROP 58
  decodeSlot 6 (0x10 * 2 ^ 6 + 3 * 2 ^ 14 + 16 * 2 ^ 20 + (1 * 2 ^ 11 + 2) * 2 ^ 33 + 2 * 2 ^ 46 + 2 * 2 ^ 56 + 2 ^ 58) none =
    .ok (.cvt ⟨plain, ⟨.main, 16⟩, ⟨.opf, 2⟩, 3, .fp32, .fp16, .sr, true⟩) ∧
  -- scset sc3, 63, x6: opcode 0x01, SCN 15:12, SA 21:16, WOFF 27:22
  decodeSlot 7 (1 * 2 ^ 6 + 3 * 2 ^ 12 + 6 * 2 ^ 16 + 63 * 2 ^ 22) none = .ok (.scset ⟨plain, 3, 63, .x 6⟩) ∧
  -- an unassigned opcode, and a field that the opcode does not use
  (∃ x, decodeSlot 1 (0x1C * 2 ^ 6) none = .error x) ∧ (∃ x, decodeSlot 1 (0x0E * 2 ^ 6 + 1 * 2 ^ 24) none = .error x)

/-! ## The statements made of several claims above -/

/-- R31, R194, R219, R220 and R222: every scalar arithmetic instruction with its sources there answers the next state that
holds its result for its destination and is otherwise unchanged: those with two sources, products and quotients, those with
one. -/
def Obligations.ScalarArithmeticGivesItsResults : Prop := TwoSourceArithmetic ∧ ProductsAndQuotients ∧ OneSourceArithmetic

/-- R116, R118 and R224: the generator instructions answer their next states; a generator write changes only the fields it
writes; and GSTEP counts the nest on by one element. -/
def Obligations.GeneratorsAreSetSteppedAndRead : Prop := GeneratorInstructions ∧ GeneratorWritesChangeTheirFieldsOnly ∧ GeneratorStepCounts

/-- R4, R5, R51, R76, R95, R104, R105, R226 to R229, R435 and R436: CSRR, CSRW, CSRS and CSRC give the old value and write
the bits that can be written; a write is seen from the next bundle on; which bits each register has, and what those that are
only read give. -/
def Obligations.ControlRegistersAreReadAndWritten : Prop := CsrInstructions ∧ CsrWriteTakesEffect ∧ ControlRegisterValues

/-- R226, R249 to R251 and R429: privileged operations trap without the privilege; with it TRET, TLBI and CTXL answer their
next states. -/
def Obligations.PrivilegedOperations : Prop := PrivilegedOperationsTrapWithoutPrivilege ∧ TretReturnsTheHandledContext ∧ TlbiAndCtxl

/-- R190, R230 and R234: control transfers set the address of the next bundle, and trap inside a counted loop's body, as
does a LOOP with passes left. -/
def Obligations.ControlTransfers : Prop := ControlTransfersSetTheNextBundle ∧ TransfersAndLoopsInABodyTrap ∧ LoopWithPassesLeftTraps

/-- R138, R225, R232, R233, R235 and R238: LOOP, LOOPX, ROT and LDEPTHSET answer their next states; at the end of a pass the
nest steps, names rotate and pins count down. -/
def Obligations.CountedLoopsRotateAndRepeat : Prop := LoopsAndRotation ∧ PassesAndPinsEnd

/-- R145, R150, R161 to R163, R166, R167, R185, R240 to R242 and R244: BARA and BAR answer their next states; an arrival
counts toward one episode of its participant; a barrier that every participant has reached completes, and its waiters are
released in the Damper's phases. (BARW is in WaitsEndAndContextsYield.) Clauses that rest on choices of the model are marked
where they stand: logs 36, 47 and 48. -/
def Obligations.BarriersAreArrivedAtCompletedAndDamped : Prop := BarrierArrivals ∧ ArrivalsCountTowardTheirEpisode ∧ BarriersComplete ∧ TheDamperReleasesWaiters

/-- R19, R22, R96, R124, R242 to R244 and R433: WAITH, WAITQ and BARW commit when what they wait for holds; YIELD gives up
its stream, HALT ends the context. Clauses that rest on choices of the model are marked where they stand: log 15. -/
def Obligations.WaitsEndAndContextsYield : Prop := WaitsEndWhenMet ∧ YieldAndHalt

/-- R245, R425, R430, R432 to R434 and R476: TRAP raises its exception; a pending trap is delivered to the handler or to the
host, and TRESUME resumes what the host holds. -/
def Obligations.TrapsAreRaisedDeliveredAndResumed : Prop := TrapRaisesItsException ∧ TrapsAreDeliveredAndResumed

/-- R246 and R247: SEQSEL takes the first bucket that serves its request; ADMIT and RETIRE change the request slots. -/
def Obligations.RequestsAreSelectedAdmittedAndRetired : Prop := SeqselTakesTheFirstBucketThatServes ∧ AdmitAndRetireRequestSlots

/-- R255, R256 and R259: the tile loads write their registers or latch with the elements that the generator names. -/
def Obligations.TileLoads : Prop := TileLoadsWriteTheirRegisters ∧ LatchLoadAndGather

/-- R117, R118, R128, R255 to R259 and R276: where the elements of a nest stand, and which byte holds which element of a
tile that a generator names, plain, transposed and gathered. -/
def Obligations.TileLayout : Prop := NestAddresses ∧ PlainTileLayout ∧ TransposedTileLayout ∧ GatherLayout

/-- R131, R253 and R260: LDS reads its bytes, extended, from the address of its base and offset. -/
def Obligations.ScalarLoadsAndAddresses : Prop := ScalarLoads ∧ ScalarAddresses

/-- R149, R155, R157, R263 and R264: ACQ reads its flag and takes the ranges handed to it; REL writes its flag and hands its
ranges off; and when they complete. Clauses that rest on choices of the model are marked where they stand: log 36. -/
def Obligations.AcquireAndRelease : Prop := AcquireReadsItsFlag ∧ ReleaseHandsItsRangesOff ∧ AcquireAndReleaseComplete

/-- R137 to R139, R141, R168, R169, R261, R262, R265 and R465: FENCE performs its streams, TOUCH pins its pages, pending
writes perform in order, and the sweeper frees stale tags. Clauses that rest on choices of the model are marked where they
stand: logs 29 and 38. -/
def Obligations.WritesPerformAndFencesWait : Prop := FencePerformsItsStreams ∧ TouchPinsItsPages ∧ WritesPerformAndTheSweeperFreesStaleTags

/-- R126, R127, R272 and R273: SPALLOC takes the lowest free place, SPFREE gives it back, and the clearer changes nothing
that is read. -/
def Obligations.ScratchpadsAreAllocatedFreedAndCleared : Prop := ScratchpadAllocation ∧ ScratchpadFree ∧ TheClearerChangesNothingThatIsRead

/-- R19, R268, R269 and R271: MBOX pushes a record; EC.INC and EC.SNAP count and read the routing counters. -/
def Obligations.ChimneyPushesAndRoutingCounters : Prop := ChimneyPush ∧ RoutingCounters

/-- R42, R93 to R97, R113, R192 and R218: where scalar sources come from, how message queues are popped and pushed, and that
a slot that is guarded off only pops. Clauses that rest on choices of the model are marked where they stand: log 44. -/
def Obligations.SourcesQueuesAndGuardedOffSlots : Prop := ScalarSourcesAndQueues ∧ GuardedOffSlotsOnlyPop

/-- R109, R207, R313 to R315 and R317: LATCH, ACLR, AMOV, ASCALE, ANORM2, AMAXABS and BIM.MARK answer their next states.
Clauses that rest on choices of the model are marked where they stand: log 34. -/
def Obligations.LatchesTilesNormsAndMarks : Prop := LatchAndTileInstructions ∧ NormsAndMarks

/-- R112 to R115, R120, R192 and R319 to R325: the instructions of the SC slot on scale registers, seeds and patterns answer
their next states, and the entries that a pattern gives. Clauses that rest on choices of the model are marked where they
stand: log 44. -/
def Obligations.ScaleSlotAndPatterns : Prop := ScaleSlotRegisters ∧ PatternInstructions ∧ PatternEntries

/-- R19, R23, R24, R26, R30, R45 and R49: a vacant stream is filled by the best READY context, a swap is promoted, and a
stream issues its bundle. Clauses that rest on choices of the model are marked where they stand: log 24. -/
def Obligations.CoresFillStreamsAndIssueBundles : Prop := VacanciesAreFilledByTheBestReadyContext ∧ BundlesIssue

/-- R417 to R420 and R484: WSLOAD fills the Mantel; TGADD, TGRUN and the tasks run a task graph. Clauses that rest on
choices of the model are marked where they stand: log 26. -/
def Obligations.WeightStoresAndTaskGraphs : Prop := WeightStoreLoads ∧ TaskGraphs

/-- R165, R407 to R410, R431, R446, R447, R457, R466, R467, R469, R470 and R484: what a host write to each register of the
register map does. Clauses that rest on choices of the model are marked where they stand: log 29. -/
def Obligations.RegisterWritesTakeEffect : Prop := HostRegisterWrites ∧ PartitionAndTranslationRegisters ∧ StreamRegisters

/-- R391 to R394 and R472 to R477: Chimney records are framed, frames and event records are written to host memory in order,
and host accesses reach device memory. Clauses that rest on choices of the model are marked where they stand: logs 28 and
29. -/
def Obligations.RecordsReachTheHost : Prop := ChimneyRecordsAreFramed ∧ FramesAndEventRecordsAreWritten ∧ HostAccessesReachDeviceMemory

/-- R482 to R489: errors poison their granules and are counted and reported; what telemetry, throttling, thermal stop and
power do. Clauses that rest on choices of the model are marked where they stand: logs 28, 29, 30 and 39. -/
def Obligations.ErrorsPowerAndTemperature : Prop := ErrorsPoisonAndAreCounted ∧ PowerAndTemperature
end

