-- ==== Sys2Proof/Laws/Tab.lean ====
section
/-! SUPPORT. The laws of tables and of byte memories: a read after a write, one write after another, and the canonical form
that every memory operation keeps. -/

namespace Sys2Proof.Machine

/-! ## Tables -/

@[simp] theorem Tab.get_put_same {α : Type} (d : α) (k : Nat) (v : α) (t : Tab α) :
    Tab.get d k (Tab.put k v t) = v := by
  induction t with
  | nil => simp [Tab.put, Tab.get]
  | cons p t ih =>
    obtain ⟨a, w⟩ := p
    simp only [Tab.put]
    split
    · simp [Tab.get]
    · split
      · simp [Tab.get]
      · next h => simp [Tab.get, h, ih]

theorem Tab.get_put_ne {α : Type} (d : α) {j k : Nat} (v : α) (t : Tab α) (h : j ≠ k) :
    Tab.get d j (Tab.put k v t) = Tab.get d j t := by
  induction t with
  | nil => simp [Tab.put, Tab.get, h.symm]
  | cons p t ih =>
    obtain ⟨a, w⟩ := p
    simp only [Tab.put]
    split
    · simp [Tab.get, h.symm]
    · split
      · next e => subst e; simp [Tab.get, h.symm]
      · simp [Tab.get, ih]

theorem Tab.get_put {α : Type} (d : α) (j k : Nat) (v : α) (t : Tab α) :
    Tab.get d j (Tab.put k v t) = if j = k then v else Tab.get d j t := by
  split
  · next h => subst h; simp
  · next h => exact Tab.get_put_ne d v t h

@[simp] theorem Tab.put_put {α : Type} (k : Nat) (v w : α) (t : Tab α) :
    Tab.put k v (Tab.put k w t) = Tab.put k v t := by
  induction t with
  | nil => simp [Tab.put]
  | cons p t ih =>
    obtain ⟨a, x⟩ := p
    by_cases h1 : k < a
    · simp [Tab.put, h1]
    · by_cases h2 : a = k
      · simp [Tab.put, h2]
      · simp [Tab.put, h1, h2, ih]

@[simp] theorem Tab.find_put_same {α : Type} (k : Nat) (v : α) (t : Tab α) : Tab.find k (Tab.put k v t) = some v := by
  induction t with
  | nil => simp [Tab.put, Tab.find]
  | cons p t ih =>
    obtain ⟨a, w⟩ := p
    simp only [Tab.put]
    split
    · simp [Tab.find]
    · split
      · simp [Tab.find]
      · next h => simp [Tab.find, h, ih]

theorem Tab.find_put_ne {α : Type} {j k : Nat} (v : α) (t : Tab α) (h : j ≠ k) :
    Tab.find j (Tab.put k v t) = Tab.find j t := by
  induction t with
  | nil => simp [Tab.put, Tab.find, h.symm]
  | cons p t ih =>
    obtain ⟨a, w⟩ := p
    simp only [Tab.put]
    split
    · simp [Tab.find, h.symm]
    · split
      · next e => subst e; simp [Tab.find, h.symm]
      · simp [Tab.find, ih]

/-- Every value of a table has a property. -/
theorem Tab.all_put {α : Type} (P : α → Prop) (k : Nat) (v : α) (t : Tab α) (hv : P v) (ht : ∀ q ∈ t, P q.2) :
    ∀ q ∈ Tab.put k v t, P q.2 := by
  induction t with
  | nil => simp [Tab.put, hv]
  | cons p t ih =>
    obtain ⟨a, w⟩ := p
    simp only [List.mem_cons, forall_eq_or_imp] at ht
    simp only [Tab.put]
    split
    · simp only [List.mem_cons, forall_eq_or_imp]; exact ⟨hv, ht.1, ht.2⟩
    · split
      · simp only [List.mem_cons, forall_eq_or_imp]; exact ⟨hv, ht.2⟩
      · simp only [List.mem_cons, forall_eq_or_imp]; exact ⟨ht.1, ih ht.2⟩

theorem Tab.get_all {α : Type} (P : α → Prop) (d : α) (k : Nat) (t : Tab α) (hd : P d) (ht : ∀ q ∈ t, P q.2) :
    P (Tab.get d k t) := by
  induction t with
  | nil => simpa [Tab.get] using hd
  | cons p t ih =>
    obtain ⟨a, w⟩ := p
    simp only [List.mem_cons, forall_eq_or_imp] at ht
    simp only [Tab.get]
    split
    · exact ht.1
    · exact ih ht.2

theorem Tab.find_all {α : Type} (P : α → Prop) (k : Nat) (t : Tab α) (ht : ∀ q ∈ t, P q.2) :
    ∀ v, Tab.find k t = some v → P v := by
  induction t with
  | nil => simp [Tab.find]
  | cons p t ih =>
    obtain ⟨a, w⟩ := p
    simp only [List.mem_cons, forall_eq_or_imp] at ht
    intro v hv
    simp only [Tab.find] at hv
    split at hv
    · cases hv; exact ht.1
    · exact ih ht.2 v hv

/-! ## Byte memories -/

theorem Memory.read_insert (a b : Nat) (v : Byte) (m : Memory) :
    Memory.read b (Memory.insert a v m) = if b = a then v else Memory.read b m := by
  induction m with
  | nil => simp [Memory.insert, Memory.read, eq_comm]
  | cons p t ih =>
    obtain ⟨k, w⟩ := p
    simp only [Memory.insert]
    split
    · simp [Memory.read, eq_comm]
    · split
      · next h => subst h; by_cases h : b = k <;> simp [Memory.read, h, eq_comm]
      · next h =>
        simp only [Memory.read, ih]
        by_cases hb : k = b
        · subst hb; simp [h]
        · simp [hb]

theorem Memory.read_erase (a b : Nat) (m : Memory) :
    Memory.read b (Memory.erase a m) = if b = a then Memory.unlisted else Memory.read b m := by
  induction m with
  | nil => simp [Memory.erase, Memory.read]
  | cons p t ih =>
    obtain ⟨k, w⟩ := p
    simp only [Memory.erase]
    split
    · next h => subst h; rw [ih]; by_cases hb : b = k <;> simp [Memory.read, hb, eq_comm]
    · next h =>
      simp only [Memory.read, ih]
      by_cases hb : k = b
      · subst hb; simp [h]
      · simp [hb]

/-- A read after a write: the byte written at its place, any other byte as before. -/
theorem Memory.read_write (a b : Nat) (v : Byte) (m : Memory) :
    Memory.read b (Memory.write a v m) = if b = a then v else Memory.read b m := by
  simp only [Memory.write]
  split
  · next h => rw [Memory.read_erase, h]
  · exact Memory.read_insert a b v m

@[simp] theorem Memory.read_write_same (a : Nat) (v : Byte) (m : Memory) : Memory.read a (Memory.write a v m) = v := by
  simp [Memory.read_write]

theorem Memory.wfFrom_mono {lo lo' : Nat} (h : lo' ≤ lo) (m : Memory) (hm : m.wfFrom lo = true) : m.wfFrom lo' = true := by
  cases m with
  | nil => rfl
  | cons p t =>
    obtain ⟨k, w⟩ := p
    simp only [Memory.wfFrom, Bool.and_eq_true, decide_eq_true_eq] at hm ⊢
    exact ⟨⟨by omega, hm.1.2⟩, hm.2⟩

theorem Memory.wfFrom_erase (a lo : Nat) (m : Memory) (hm : m.wfFrom lo = true) : (Memory.erase a m).wfFrom lo = true := by
  induction m generalizing lo with
  | nil => rfl
  | cons p t ih =>
    obtain ⟨k, w⟩ := p
    simp only [Memory.wfFrom, Bool.and_eq_true, decide_eq_true_eq] at hm
    simp only [Memory.erase]
    split
    · exact Memory.wfFrom_mono (by omega : lo ≤ k + 1) _ (ih (k + 1) hm.2)
    · simp only [Memory.wfFrom, Bool.and_eq_true, decide_eq_true_eq]
      exact ⟨hm.1, ih (k + 1) hm.2⟩

theorem Memory.wfFrom_insert (a lo : Nat) (v : Byte) (m : Memory) (hv : v ≠ Memory.unlisted) (ha : lo ≤ a)
    (hm : m.wfFrom lo = true) : (Memory.insert a v m).wfFrom lo = true := by
  induction m generalizing lo with
  | nil => simp [Memory.insert, Memory.wfFrom, hv, ha]
  | cons p t ih =>
    obtain ⟨k, w⟩ := p
    simp only [Memory.wfFrom, Bool.and_eq_true, decide_eq_true_eq, bne_iff_ne] at hm
    simp only [Memory.insert]
    split
    · simp only [Memory.wfFrom, Bool.and_eq_true, decide_eq_true_eq, bne_iff_ne]
      exact ⟨⟨ha, hv⟩, ⟨by omega, hm.1.2⟩, hm.2⟩
    · split
      · next h =>
        subst h
        simp only [Memory.wfFrom, Bool.and_eq_true, decide_eq_true_eq, bne_iff_ne]
        exact ⟨⟨ha, hv⟩, hm.2⟩
      · simp only [Memory.wfFrom, Bool.and_eq_true, decide_eq_true_eq, bne_iff_ne]
        exact ⟨hm.1, ih (k + 1) (by omega) hm.2⟩

/-- A write keeps the canonical form. -/
theorem Memory.wf_write (a : Nat) (v : Byte) (m : Memory) (hm : m.wf = true) : (Memory.write a v m).wf = true := by
  simp only [Memory.write]
  split
  · exact Memory.wfFrom_erase a 0 m hm
  · next h => exact Memory.wfFrom_insert a 0 v m h (Nat.zero_le a) hm

theorem Memory.wf_erase (a : Nat) (m : Memory) (hm : m.wf = true) : (Memory.erase a m).wf = true :=
  Memory.wfFrom_erase a 0 m hm

theorem Memory.wf_writeN (l : List Byte) (a : Nat) (m : Memory) (hm : m.wf = true) : (Memory.writeN m a l).wf = true := by
  induction l generalizing a m with
  | nil => exact hm
  | cons b l ih => exact ih (a + 1) _ (Memory.wf_write a b m hm)

theorem Memory.read_of_lt (a lo : Nat) (m : Memory) (hm : m.wfFrom lo = true) (h : a < lo) :
    Memory.read a m = Memory.unlisted := by
  induction m generalizing lo with
  | nil => rfl
  | cons p t ih =>
    obtain ⟨k, w⟩ := p
    simp only [Memory.wfFrom, Bool.and_eq_true, decide_eq_true_eq] at hm
    have hk : k ≠ a := by omega
    simp only [Memory.read, hk, if_false]
    exact ih (k + 1) hm.2 (by omega)

/-- Canonical memories that read alike everywhere are one list. -/
theorem Memory.ext_of_wfFrom (lo : Nat) (m n : Memory) (hm : m.wfFrom lo = true) (hn : n.wfFrom lo = true)
    (h : ∀ a, Memory.read a m = Memory.read a n) : m = n := by
  induction m generalizing lo n with
  | nil =>
    cases n with
    | nil => rfl
    | cons p t =>
      obtain ⟨k, w⟩ := p
      simp only [Memory.wfFrom, Bool.and_eq_true, bne_iff_ne] at hn
      have := h k
      simp only [Memory.read, if_true] at this
      exact absurd this.symm hn.1.2
  | cons p t ih =>
    obtain ⟨k, w⟩ := p
    simp only [Memory.wfFrom, Bool.and_eq_true, bne_iff_ne, decide_eq_true_eq] at hm
    cases n with
    | nil =>
      have := h k
      simp only [Memory.read, if_true] at this
      exact absurd this hm.1.2
    | cons p' t' =>
      obtain ⟨k', w'⟩ := p'
      simp only [Memory.wfFrom, Bool.and_eq_true, bne_iff_ne, decide_eq_true_eq] at hn
      have hk : k = k' := by
        rcases Nat.lt_trichotomy k k' with hlt | heq | hgt
        · have := h k
          simp only [Memory.read, if_true] at this
          rw [if_neg (by omega), Memory.read_of_lt k (k' + 1) t' hn.2 (by omega)] at this
          exact absurd this hm.1.2
        · exact heq
        · have := h k'
          simp only [Memory.read, if_true] at this
          rw [if_neg (by omega), Memory.read_of_lt k' (k + 1) t hm.2 (by omega)] at this
          exact absurd this.symm hn.1.2
      subst hk
      have hw : w = w' := by have := h k; simpa [Memory.read] using this
      subst hw
      have htt : t = t' := by
        refine ih (k + 1) t' hm.2 hn.2 (fun a => ?_)
        by_cases ha : k = a
        · subst ha
          rw [Memory.read_of_lt k (k + 1) t hm.2 (by omega), Memory.read_of_lt k (k + 1) t' hn.2 (by omega)]
        · have := h a
          simpa [Memory.read, ha] using this
      rw [htt]

theorem Memory.ext_of_wf (m n : Memory) (hm : m.wf = true) (hn : n.wf = true)
    (h : ∀ a, Memory.read a m = Memory.read a n) : m = n :=
  Memory.ext_of_wfFrom 0 m n hm hn h

end Sys2Proof.Machine
end

