-- ==== Sys2Proof/Laws/State.lean ====
section
/-! SUPPORT. One law per field of State and per update of it, and what a read gives after an update. -/

namespace Sys2Proof.Machine

open Sys2Proof

variable (s : State) (k j : Nat)


/-! ## setCtx -/

@[simp] theorem State.setCtx_cur (v : Ctx) : (s.setCtx k v).cur = s.cur := rfl
@[simp] theorem State.setCtx_cycle (v : Ctx) : (s.setCtx k v).cycle = s.cycle := rfl
@[simp] theorem State.setCtx_turn (v : Ctx) : (s.setCtx k v).turn = s.turn := rfl
@[simp] theorem State.setCtx_inbox (v : Ctx) : (s.setCtx k v).inbox = s.inbox := rfl
@[simp] theorem State.setCtx_pace (v : Ctx) : (s.setCtx k v).pace = s.pace := rfl
@[simp] theorem State.setCtx_freeN (v : Ctx) : (s.setCtx k v).freeN = s.freeN := rfl
@[simp] theorem State.setCtx_ctxs (v : Ctx) : (s.setCtx k v).ctxs = Tab.put k v s.ctxs := rfl
@[simp] theorem State.setCtx_cores (v : Ctx) : (s.setCtx k v).cores = s.cores := rfl
@[simp] theorem State.setCtx_clus (v : Ctx) : (s.setCtx k v).clus = s.clus := rfl
@[simp] theorem State.setCtx_dies (v : Ctx) : (s.setCtx k v).dies = s.dies := rfl
@[simp] theorem State.setCtx_parts (v : Ctx) : (s.setCtx k v).parts = s.parts := rfl
@[simp] theorem State.setCtx_streams (v : Ctx) : (s.setCtx k v).streams = s.streams := rfl
@[simp] theorem State.setCtx_launches (v : Ctx) : (s.setCtx k v).launches = s.launches := rfl
@[simp] theorem State.setCtx_ports (v : Ctx) : (s.setCtx k v).ports = s.ports := rfl
@[simp] theorem State.setCtx_dram (v : Ctx) : (s.setCtx k v).dram = s.dram := rfl
@[simp] theorem State.setCtx_host (v : Ctx) : (s.setCtx k v).host = s.host := rfl
@[simp] theorem State.setCtx_dtags (v : Ctx) : (s.setCtx k v).dtags = s.dtags := rfl
@[simp] theorem State.setCtx_dpois (v : Ctx) : (s.setCtx k v).dpois = s.dpois := rfl
@[simp] theorem State.setCtx_hpois (v : Ctx) : (s.setCtx k v).hpois = s.hpois := rfl
@[simp] theorem State.setCtx_wbuf (v : Ctx) : (s.setCtx k v).wbuf = s.wbuf := rfl
@[simp] theorem State.setCtx_invals (v : Ctx) : (s.setCtx k v).invals = s.invals := rfl
@[simp] theorem State.setCtx_invalNo (v : Ctx) : (s.setCtx k v).invalNo = s.invalNo := rfl
@[simp] theorem State.setCtx_placeNo (v : Ctx) : (s.setCtx k v).placeNo = s.placeNo := rfl
@[simp] theorem State.setCtx_launchNo (v : Ctx) : (s.setCtx k v).launchNo = s.launchNo := rfl
@[simp] theorem State.setCtx_copyNo (v : Ctx) : (s.setCtx k v).copyNo = s.copyNo := rfl
@[simp] theorem State.setCtx_ready (v : Ctx) : (s.setCtx k v).ready = s.ready := rfl
@[simp] theorem State.setCtx_recov (v : Ctx) : (s.setCtx k v).recov = s.recov := rfl
@[simp] theorem State.setCtx_slotB (v : Ctx) : (s.setCtx k v).slotB = s.slotB := rfl
@[simp] theorem State.setCtx_therm (v : Ctx) : (s.setCtx k v).therm = s.therm := rfl
@[simp] theorem State.setCtx_fwsvn (v : Ctx) : (s.setCtx k v).fwsvn = s.fwsvn := rfl
@[simp] theorem State.setCtx_devid (v : Ctx) : (s.setCtx k v).devid = s.devid := rfl
@[simp] theorem State.setCtx_pwrcap (v : Ctx) : (s.setCtx k v).pwrcap = s.pwrcap := rfl
@[simp] theorem State.setCtx_mbop (v : Ctx) : (s.setCtx k v).mbop = s.mbop := rfl
@[simp] theorem State.setCtx_mbarg (v : Ctx) : (s.setCtx k v).mbarg = s.mbarg := rfl
@[simp] theorem State.setCtx_mbsnap (v : Ctx) : (s.setCtx k v).mbsnap = s.mbsnap := rfl
@[simp] theorem State.setCtx_mbbusy (v : Ctx) : (s.setCtx k v).mbbusy = s.mbbusy := rfl
@[simp] theorem State.setCtx_mbdone (v : Ctx) : (s.setCtx k v).mbdone = s.mbdone := rfl
@[simp] theorem State.setCtx_mberr (v : Ctx) : (s.setCtx k v).mberr = s.mberr := rfl
@[simp] theorem State.setCtx_mblen (v : Ctx) : (s.setCtx k v).mblen = s.mblen := rfl
@[simp] theorem State.setCtx_mbdata (v : Ctx) : (s.setCtx k v).mbdata = s.mbdata := rfl
@[simp] theorem State.setCtx_flash (v : Ctx) : (s.setCtx k v).flash = s.flash := rfl
@[simp] theorem State.setCtx_devlog (v : Ctx) : (s.setCtx k v).devlog = s.devlog := rfl
@[simp] theorem State.setCtx_devdrop (v : Ctx) : (s.setCtx k v).devdrop = s.devdrop := rfl
@[simp] theorem State.setCtx_devseq (v : Ctx) : (s.setCtx k v).devseq = s.devseq := rfl
@[simp] theorem State.setCtx_irqs (v : Ctx) : (s.setCtx k v).irqs = s.irqs := rfl
@[simp] theorem State.setCtx_telem (v : Ctx) : (s.setCtx k v).telem = s.telem := rfl
@[simp] theorem State.setCtx_watts (v : Ctx) : (s.setCtx k v).watts = s.watts := rfl
@[simp] theorem State.setCtx_power (v : Ctx) : (s.setCtx k v).power = s.power := rfl
@[simp] theorem State.setCtx_hostRead (v : Ctx) : (s.setCtx k v).hostRead = s.hostRead := rfl
@[simp] theorem State.ctx_setCtx_same (v : Ctx) : (s.setCtx k v).ctx k = v := by simp [State.ctx]
theorem State.ctx_setCtx (v : Ctx) : (s.setCtx k v).ctx j = if j = k then v else s.ctx j := by
  simp [State.ctx, Tab.get_put]
@[simp] theorem State.setCtx_setCtx (v w : Ctx) : (s.setCtx k w).setCtx k v = s.setCtx k v := by simp [State.setCtx]
@[simp] theorem State.core_setCtx (v : Ctx) : (s.setCtx k v).core j = s.core j := rfl
@[simp] theorem State.clu_setCtx (v : Ctx) : (s.setCtx k v).clu j = s.clu j := rfl
@[simp] theorem State.die_setCtx (v : Ctx) : (s.setCtx k v).die j = s.die j := rfl
@[simp] theorem State.part_setCtx (v : Ctx) : (s.setCtx k v).part j = s.part j := rfl
@[simp] theorem State.stream_setCtx (v : Ctx) : (s.setCtx k v).stream j = s.stream j := rfl
@[simp] theorem State.launch_setCtx (v : Ctx) : (s.setCtx k v).launch j = s.launch j := rfl
@[simp] theorem State.port_setCtx (v : Ctx) : (s.setCtx k v).port j = s.port j := rfl

/-! ## setCore -/

@[simp] theorem State.setCore_cur (v : CoreSt) : (s.setCore k v).cur = s.cur := rfl
@[simp] theorem State.setCore_cycle (v : CoreSt) : (s.setCore k v).cycle = s.cycle := rfl
@[simp] theorem State.setCore_turn (v : CoreSt) : (s.setCore k v).turn = s.turn := rfl
@[simp] theorem State.setCore_inbox (v : CoreSt) : (s.setCore k v).inbox = s.inbox := rfl
@[simp] theorem State.setCore_pace (v : CoreSt) : (s.setCore k v).pace = s.pace := rfl
@[simp] theorem State.setCore_freeN (v : CoreSt) : (s.setCore k v).freeN = s.freeN := rfl
@[simp] theorem State.setCore_ctxs (v : CoreSt) : (s.setCore k v).ctxs = s.ctxs := rfl
@[simp] theorem State.setCore_cores (v : CoreSt) : (s.setCore k v).cores = Tab.put k v s.cores := rfl
@[simp] theorem State.setCore_clus (v : CoreSt) : (s.setCore k v).clus = s.clus := rfl
@[simp] theorem State.setCore_dies (v : CoreSt) : (s.setCore k v).dies = s.dies := rfl
@[simp] theorem State.setCore_parts (v : CoreSt) : (s.setCore k v).parts = s.parts := rfl
@[simp] theorem State.setCore_streams (v : CoreSt) : (s.setCore k v).streams = s.streams := rfl
@[simp] theorem State.setCore_launches (v : CoreSt) : (s.setCore k v).launches = s.launches := rfl
@[simp] theorem State.setCore_ports (v : CoreSt) : (s.setCore k v).ports = s.ports := rfl
@[simp] theorem State.setCore_dram (v : CoreSt) : (s.setCore k v).dram = s.dram := rfl
@[simp] theorem State.setCore_host (v : CoreSt) : (s.setCore k v).host = s.host := rfl
@[simp] theorem State.setCore_dtags (v : CoreSt) : (s.setCore k v).dtags = s.dtags := rfl
@[simp] theorem State.setCore_dpois (v : CoreSt) : (s.setCore k v).dpois = s.dpois := rfl
@[simp] theorem State.setCore_hpois (v : CoreSt) : (s.setCore k v).hpois = s.hpois := rfl
@[simp] theorem State.setCore_wbuf (v : CoreSt) : (s.setCore k v).wbuf = s.wbuf := rfl
@[simp] theorem State.setCore_invals (v : CoreSt) : (s.setCore k v).invals = s.invals := rfl
@[simp] theorem State.setCore_invalNo (v : CoreSt) : (s.setCore k v).invalNo = s.invalNo := rfl
@[simp] theorem State.setCore_placeNo (v : CoreSt) : (s.setCore k v).placeNo = s.placeNo := rfl
@[simp] theorem State.setCore_launchNo (v : CoreSt) : (s.setCore k v).launchNo = s.launchNo := rfl
@[simp] theorem State.setCore_copyNo (v : CoreSt) : (s.setCore k v).copyNo = s.copyNo := rfl
@[simp] theorem State.setCore_ready (v : CoreSt) : (s.setCore k v).ready = s.ready := rfl
@[simp] theorem State.setCore_recov (v : CoreSt) : (s.setCore k v).recov = s.recov := rfl
@[simp] theorem State.setCore_slotB (v : CoreSt) : (s.setCore k v).slotB = s.slotB := rfl
@[simp] theorem State.setCore_therm (v : CoreSt) : (s.setCore k v).therm = s.therm := rfl
@[simp] theorem State.setCore_fwsvn (v : CoreSt) : (s.setCore k v).fwsvn = s.fwsvn := rfl
@[simp] theorem State.setCore_devid (v : CoreSt) : (s.setCore k v).devid = s.devid := rfl
@[simp] theorem State.setCore_pwrcap (v : CoreSt) : (s.setCore k v).pwrcap = s.pwrcap := rfl
@[simp] theorem State.setCore_mbop (v : CoreSt) : (s.setCore k v).mbop = s.mbop := rfl
@[simp] theorem State.setCore_mbarg (v : CoreSt) : (s.setCore k v).mbarg = s.mbarg := rfl
@[simp] theorem State.setCore_mbsnap (v : CoreSt) : (s.setCore k v).mbsnap = s.mbsnap := rfl
@[simp] theorem State.setCore_mbbusy (v : CoreSt) : (s.setCore k v).mbbusy = s.mbbusy := rfl
@[simp] theorem State.setCore_mbdone (v : CoreSt) : (s.setCore k v).mbdone = s.mbdone := rfl
@[simp] theorem State.setCore_mberr (v : CoreSt) : (s.setCore k v).mberr = s.mberr := rfl
@[simp] theorem State.setCore_mblen (v : CoreSt) : (s.setCore k v).mblen = s.mblen := rfl
@[simp] theorem State.setCore_mbdata (v : CoreSt) : (s.setCore k v).mbdata = s.mbdata := rfl
@[simp] theorem State.setCore_flash (v : CoreSt) : (s.setCore k v).flash = s.flash := rfl
@[simp] theorem State.setCore_devlog (v : CoreSt) : (s.setCore k v).devlog = s.devlog := rfl
@[simp] theorem State.setCore_devdrop (v : CoreSt) : (s.setCore k v).devdrop = s.devdrop := rfl
@[simp] theorem State.setCore_devseq (v : CoreSt) : (s.setCore k v).devseq = s.devseq := rfl
@[simp] theorem State.setCore_irqs (v : CoreSt) : (s.setCore k v).irqs = s.irqs := rfl
@[simp] theorem State.setCore_telem (v : CoreSt) : (s.setCore k v).telem = s.telem := rfl
@[simp] theorem State.setCore_watts (v : CoreSt) : (s.setCore k v).watts = s.watts := rfl
@[simp] theorem State.setCore_power (v : CoreSt) : (s.setCore k v).power = s.power := rfl
@[simp] theorem State.setCore_hostRead (v : CoreSt) : (s.setCore k v).hostRead = s.hostRead := rfl
@[simp] theorem State.ctx_setCore (v : CoreSt) : (s.setCore k v).ctx j = s.ctx j := rfl
@[simp] theorem State.core_setCore_same (v : CoreSt) : (s.setCore k v).core k = v := by simp [State.core]
theorem State.core_setCore (v : CoreSt) : (s.setCore k v).core j = if j = k then v else s.core j := by
  simp [State.core, Tab.get_put]
@[simp] theorem State.setCore_setCore (v w : CoreSt) : (s.setCore k w).setCore k v = s.setCore k v := by simp [State.setCore]
@[simp] theorem State.clu_setCore (v : CoreSt) : (s.setCore k v).clu j = s.clu j := rfl
@[simp] theorem State.die_setCore (v : CoreSt) : (s.setCore k v).die j = s.die j := rfl
@[simp] theorem State.part_setCore (v : CoreSt) : (s.setCore k v).part j = s.part j := rfl
@[simp] theorem State.stream_setCore (v : CoreSt) : (s.setCore k v).stream j = s.stream j := rfl
@[simp] theorem State.launch_setCore (v : CoreSt) : (s.setCore k v).launch j = s.launch j := rfl
@[simp] theorem State.port_setCore (v : CoreSt) : (s.setCore k v).port j = s.port j := rfl

/-! ## setClu -/

@[simp] theorem State.setClu_cur (v : Cluster) : (s.setClu k v).cur = s.cur := rfl
@[simp] theorem State.setClu_cycle (v : Cluster) : (s.setClu k v).cycle = s.cycle := rfl
@[simp] theorem State.setClu_turn (v : Cluster) : (s.setClu k v).turn = s.turn := rfl
@[simp] theorem State.setClu_inbox (v : Cluster) : (s.setClu k v).inbox = s.inbox := rfl
@[simp] theorem State.setClu_pace (v : Cluster) : (s.setClu k v).pace = s.pace := rfl
@[simp] theorem State.setClu_freeN (v : Cluster) : (s.setClu k v).freeN = s.freeN := rfl
@[simp] theorem State.setClu_ctxs (v : Cluster) : (s.setClu k v).ctxs = s.ctxs := rfl
@[simp] theorem State.setClu_cores (v : Cluster) : (s.setClu k v).cores = s.cores := rfl
@[simp] theorem State.setClu_clus (v : Cluster) : (s.setClu k v).clus = Tab.put k v s.clus := rfl
@[simp] theorem State.setClu_dies (v : Cluster) : (s.setClu k v).dies = s.dies := rfl
@[simp] theorem State.setClu_parts (v : Cluster) : (s.setClu k v).parts = s.parts := rfl
@[simp] theorem State.setClu_streams (v : Cluster) : (s.setClu k v).streams = s.streams := rfl
@[simp] theorem State.setClu_launches (v : Cluster) : (s.setClu k v).launches = s.launches := rfl
@[simp] theorem State.setClu_ports (v : Cluster) : (s.setClu k v).ports = s.ports := rfl
@[simp] theorem State.setClu_dram (v : Cluster) : (s.setClu k v).dram = s.dram := rfl
@[simp] theorem State.setClu_host (v : Cluster) : (s.setClu k v).host = s.host := rfl
@[simp] theorem State.setClu_dtags (v : Cluster) : (s.setClu k v).dtags = s.dtags := rfl
@[simp] theorem State.setClu_dpois (v : Cluster) : (s.setClu k v).dpois = s.dpois := rfl
@[simp] theorem State.setClu_hpois (v : Cluster) : (s.setClu k v).hpois = s.hpois := rfl
@[simp] theorem State.setClu_wbuf (v : Cluster) : (s.setClu k v).wbuf = s.wbuf := rfl
@[simp] theorem State.setClu_invals (v : Cluster) : (s.setClu k v).invals = s.invals := rfl
@[simp] theorem State.setClu_invalNo (v : Cluster) : (s.setClu k v).invalNo = s.invalNo := rfl
@[simp] theorem State.setClu_placeNo (v : Cluster) : (s.setClu k v).placeNo = s.placeNo := rfl
@[simp] theorem State.setClu_launchNo (v : Cluster) : (s.setClu k v).launchNo = s.launchNo := rfl
@[simp] theorem State.setClu_copyNo (v : Cluster) : (s.setClu k v).copyNo = s.copyNo := rfl
@[simp] theorem State.setClu_ready (v : Cluster) : (s.setClu k v).ready = s.ready := rfl
@[simp] theorem State.setClu_recov (v : Cluster) : (s.setClu k v).recov = s.recov := rfl
@[simp] theorem State.setClu_slotB (v : Cluster) : (s.setClu k v).slotB = s.slotB := rfl
@[simp] theorem State.setClu_therm (v : Cluster) : (s.setClu k v).therm = s.therm := rfl
@[simp] theorem State.setClu_fwsvn (v : Cluster) : (s.setClu k v).fwsvn = s.fwsvn := rfl
@[simp] theorem State.setClu_devid (v : Cluster) : (s.setClu k v).devid = s.devid := rfl
@[simp] theorem State.setClu_pwrcap (v : Cluster) : (s.setClu k v).pwrcap = s.pwrcap := rfl
@[simp] theorem State.setClu_mbop (v : Cluster) : (s.setClu k v).mbop = s.mbop := rfl
@[simp] theorem State.setClu_mbarg (v : Cluster) : (s.setClu k v).mbarg = s.mbarg := rfl
@[simp] theorem State.setClu_mbsnap (v : Cluster) : (s.setClu k v).mbsnap = s.mbsnap := rfl
@[simp] theorem State.setClu_mbbusy (v : Cluster) : (s.setClu k v).mbbusy = s.mbbusy := rfl
@[simp] theorem State.setClu_mbdone (v : Cluster) : (s.setClu k v).mbdone = s.mbdone := rfl
@[simp] theorem State.setClu_mberr (v : Cluster) : (s.setClu k v).mberr = s.mberr := rfl
@[simp] theorem State.setClu_mblen (v : Cluster) : (s.setClu k v).mblen = s.mblen := rfl
@[simp] theorem State.setClu_mbdata (v : Cluster) : (s.setClu k v).mbdata = s.mbdata := rfl
@[simp] theorem State.setClu_flash (v : Cluster) : (s.setClu k v).flash = s.flash := rfl
@[simp] theorem State.setClu_devlog (v : Cluster) : (s.setClu k v).devlog = s.devlog := rfl
@[simp] theorem State.setClu_devdrop (v : Cluster) : (s.setClu k v).devdrop = s.devdrop := rfl
@[simp] theorem State.setClu_devseq (v : Cluster) : (s.setClu k v).devseq = s.devseq := rfl
@[simp] theorem State.setClu_irqs (v : Cluster) : (s.setClu k v).irqs = s.irqs := rfl
@[simp] theorem State.setClu_telem (v : Cluster) : (s.setClu k v).telem = s.telem := rfl
@[simp] theorem State.setClu_watts (v : Cluster) : (s.setClu k v).watts = s.watts := rfl
@[simp] theorem State.setClu_power (v : Cluster) : (s.setClu k v).power = s.power := rfl
@[simp] theorem State.setClu_hostRead (v : Cluster) : (s.setClu k v).hostRead = s.hostRead := rfl
@[simp] theorem State.ctx_setClu (v : Cluster) : (s.setClu k v).ctx j = s.ctx j := rfl
@[simp] theorem State.core_setClu (v : Cluster) : (s.setClu k v).core j = s.core j := rfl
@[simp] theorem State.clu_setClu_same (v : Cluster) : (s.setClu k v).clu k = v := by simp [State.clu]
theorem State.clu_setClu (v : Cluster) : (s.setClu k v).clu j = if j = k then v else s.clu j := by
  simp [State.clu, Tab.get_put]
@[simp] theorem State.setClu_setClu (v w : Cluster) : (s.setClu k w).setClu k v = s.setClu k v := by simp [State.setClu]
@[simp] theorem State.die_setClu (v : Cluster) : (s.setClu k v).die j = s.die j := rfl
@[simp] theorem State.part_setClu (v : Cluster) : (s.setClu k v).part j = s.part j := rfl
@[simp] theorem State.stream_setClu (v : Cluster) : (s.setClu k v).stream j = s.stream j := rfl
@[simp] theorem State.launch_setClu (v : Cluster) : (s.setClu k v).launch j = s.launch j := rfl
@[simp] theorem State.port_setClu (v : Cluster) : (s.setClu k v).port j = s.port j := rfl

/-! ## setDie -/

@[simp] theorem State.setDie_cur (v : Die) : (s.setDie k v).cur = s.cur := rfl
@[simp] theorem State.setDie_cycle (v : Die) : (s.setDie k v).cycle = s.cycle := rfl
@[simp] theorem State.setDie_turn (v : Die) : (s.setDie k v).turn = s.turn := rfl
@[simp] theorem State.setDie_inbox (v : Die) : (s.setDie k v).inbox = s.inbox := rfl
@[simp] theorem State.setDie_pace (v : Die) : (s.setDie k v).pace = s.pace := rfl
@[simp] theorem State.setDie_freeN (v : Die) : (s.setDie k v).freeN = s.freeN := rfl
@[simp] theorem State.setDie_ctxs (v : Die) : (s.setDie k v).ctxs = s.ctxs := rfl
@[simp] theorem State.setDie_cores (v : Die) : (s.setDie k v).cores = s.cores := rfl
@[simp] theorem State.setDie_clus (v : Die) : (s.setDie k v).clus = s.clus := rfl
@[simp] theorem State.setDie_dies (v : Die) : (s.setDie k v).dies = Tab.put k v s.dies := rfl
@[simp] theorem State.setDie_parts (v : Die) : (s.setDie k v).parts = s.parts := rfl
@[simp] theorem State.setDie_streams (v : Die) : (s.setDie k v).streams = s.streams := rfl
@[simp] theorem State.setDie_launches (v : Die) : (s.setDie k v).launches = s.launches := rfl
@[simp] theorem State.setDie_ports (v : Die) : (s.setDie k v).ports = s.ports := rfl
@[simp] theorem State.setDie_dram (v : Die) : (s.setDie k v).dram = s.dram := rfl
@[simp] theorem State.setDie_host (v : Die) : (s.setDie k v).host = s.host := rfl
@[simp] theorem State.setDie_dtags (v : Die) : (s.setDie k v).dtags = s.dtags := rfl
@[simp] theorem State.setDie_dpois (v : Die) : (s.setDie k v).dpois = s.dpois := rfl
@[simp] theorem State.setDie_hpois (v : Die) : (s.setDie k v).hpois = s.hpois := rfl
@[simp] theorem State.setDie_wbuf (v : Die) : (s.setDie k v).wbuf = s.wbuf := rfl
@[simp] theorem State.setDie_invals (v : Die) : (s.setDie k v).invals = s.invals := rfl
@[simp] theorem State.setDie_invalNo (v : Die) : (s.setDie k v).invalNo = s.invalNo := rfl
@[simp] theorem State.setDie_placeNo (v : Die) : (s.setDie k v).placeNo = s.placeNo := rfl
@[simp] theorem State.setDie_launchNo (v : Die) : (s.setDie k v).launchNo = s.launchNo := rfl
@[simp] theorem State.setDie_copyNo (v : Die) : (s.setDie k v).copyNo = s.copyNo := rfl
@[simp] theorem State.setDie_ready (v : Die) : (s.setDie k v).ready = s.ready := rfl
@[simp] theorem State.setDie_recov (v : Die) : (s.setDie k v).recov = s.recov := rfl
@[simp] theorem State.setDie_slotB (v : Die) : (s.setDie k v).slotB = s.slotB := rfl
@[simp] theorem State.setDie_therm (v : Die) : (s.setDie k v).therm = s.therm := rfl
@[simp] theorem State.setDie_fwsvn (v : Die) : (s.setDie k v).fwsvn = s.fwsvn := rfl
@[simp] theorem State.setDie_devid (v : Die) : (s.setDie k v).devid = s.devid := rfl
@[simp] theorem State.setDie_pwrcap (v : Die) : (s.setDie k v).pwrcap = s.pwrcap := rfl
@[simp] theorem State.setDie_mbop (v : Die) : (s.setDie k v).mbop = s.mbop := rfl
@[simp] theorem State.setDie_mbarg (v : Die) : (s.setDie k v).mbarg = s.mbarg := rfl
@[simp] theorem State.setDie_mbsnap (v : Die) : (s.setDie k v).mbsnap = s.mbsnap := rfl
@[simp] theorem State.setDie_mbbusy (v : Die) : (s.setDie k v).mbbusy = s.mbbusy := rfl
@[simp] theorem State.setDie_mbdone (v : Die) : (s.setDie k v).mbdone = s.mbdone := rfl
@[simp] theorem State.setDie_mberr (v : Die) : (s.setDie k v).mberr = s.mberr := rfl
@[simp] theorem State.setDie_mblen (v : Die) : (s.setDie k v).mblen = s.mblen := rfl
@[simp] theorem State.setDie_mbdata (v : Die) : (s.setDie k v).mbdata = s.mbdata := rfl
@[simp] theorem State.setDie_flash (v : Die) : (s.setDie k v).flash = s.flash := rfl
@[simp] theorem State.setDie_devlog (v : Die) : (s.setDie k v).devlog = s.devlog := rfl
@[simp] theorem State.setDie_devdrop (v : Die) : (s.setDie k v).devdrop = s.devdrop := rfl
@[simp] theorem State.setDie_devseq (v : Die) : (s.setDie k v).devseq = s.devseq := rfl
@[simp] theorem State.setDie_irqs (v : Die) : (s.setDie k v).irqs = s.irqs := rfl
@[simp] theorem State.setDie_telem (v : Die) : (s.setDie k v).telem = s.telem := rfl
@[simp] theorem State.setDie_watts (v : Die) : (s.setDie k v).watts = s.watts := rfl
@[simp] theorem State.setDie_power (v : Die) : (s.setDie k v).power = s.power := rfl
@[simp] theorem State.setDie_hostRead (v : Die) : (s.setDie k v).hostRead = s.hostRead := rfl
@[simp] theorem State.ctx_setDie (v : Die) : (s.setDie k v).ctx j = s.ctx j := rfl
@[simp] theorem State.core_setDie (v : Die) : (s.setDie k v).core j = s.core j := rfl
@[simp] theorem State.clu_setDie (v : Die) : (s.setDie k v).clu j = s.clu j := rfl
@[simp] theorem State.die_setDie_same (v : Die) : (s.setDie k v).die k = v := by simp [State.die]
theorem State.die_setDie (v : Die) : (s.setDie k v).die j = if j = k then v else s.die j := by
  simp [State.die, Tab.get_put]
@[simp] theorem State.setDie_setDie (v w : Die) : (s.setDie k w).setDie k v = s.setDie k v := by simp [State.setDie]
@[simp] theorem State.part_setDie (v : Die) : (s.setDie k v).part j = s.part j := rfl
@[simp] theorem State.stream_setDie (v : Die) : (s.setDie k v).stream j = s.stream j := rfl
@[simp] theorem State.launch_setDie (v : Die) : (s.setDie k v).launch j = s.launch j := rfl
@[simp] theorem State.port_setDie (v : Die) : (s.setDie k v).port j = s.port j := rfl

/-! ## setPart -/

@[simp] theorem State.setPart_cur (v : Part) : (s.setPart k v).cur = s.cur := rfl
@[simp] theorem State.setPart_cycle (v : Part) : (s.setPart k v).cycle = s.cycle := rfl
@[simp] theorem State.setPart_turn (v : Part) : (s.setPart k v).turn = s.turn := rfl
@[simp] theorem State.setPart_inbox (v : Part) : (s.setPart k v).inbox = s.inbox := rfl
@[simp] theorem State.setPart_pace (v : Part) : (s.setPart k v).pace = s.pace := rfl
@[simp] theorem State.setPart_freeN (v : Part) : (s.setPart k v).freeN = s.freeN := rfl
@[simp] theorem State.setPart_ctxs (v : Part) : (s.setPart k v).ctxs = s.ctxs := rfl
@[simp] theorem State.setPart_cores (v : Part) : (s.setPart k v).cores = s.cores := rfl
@[simp] theorem State.setPart_clus (v : Part) : (s.setPart k v).clus = s.clus := rfl
@[simp] theorem State.setPart_dies (v : Part) : (s.setPart k v).dies = s.dies := rfl
@[simp] theorem State.setPart_parts (v : Part) : (s.setPart k v).parts = Tab.put k v s.parts := rfl
@[simp] theorem State.setPart_streams (v : Part) : (s.setPart k v).streams = s.streams := rfl
@[simp] theorem State.setPart_launches (v : Part) : (s.setPart k v).launches = s.launches := rfl
@[simp] theorem State.setPart_ports (v : Part) : (s.setPart k v).ports = s.ports := rfl
@[simp] theorem State.setPart_dram (v : Part) : (s.setPart k v).dram = s.dram := rfl
@[simp] theorem State.setPart_host (v : Part) : (s.setPart k v).host = s.host := rfl
@[simp] theorem State.setPart_dtags (v : Part) : (s.setPart k v).dtags = s.dtags := rfl
@[simp] theorem State.setPart_dpois (v : Part) : (s.setPart k v).dpois = s.dpois := rfl
@[simp] theorem State.setPart_hpois (v : Part) : (s.setPart k v).hpois = s.hpois := rfl
@[simp] theorem State.setPart_wbuf (v : Part) : (s.setPart k v).wbuf = s.wbuf := rfl
@[simp] theorem State.setPart_invals (v : Part) : (s.setPart k v).invals = s.invals := rfl
@[simp] theorem State.setPart_invalNo (v : Part) : (s.setPart k v).invalNo = s.invalNo := rfl
@[simp] theorem State.setPart_placeNo (v : Part) : (s.setPart k v).placeNo = s.placeNo := rfl
@[simp] theorem State.setPart_launchNo (v : Part) : (s.setPart k v).launchNo = s.launchNo := rfl
@[simp] theorem State.setPart_copyNo (v : Part) : (s.setPart k v).copyNo = s.copyNo := rfl
@[simp] theorem State.setPart_ready (v : Part) : (s.setPart k v).ready = s.ready := rfl
@[simp] theorem State.setPart_recov (v : Part) : (s.setPart k v).recov = s.recov := rfl
@[simp] theorem State.setPart_slotB (v : Part) : (s.setPart k v).slotB = s.slotB := rfl
@[simp] theorem State.setPart_therm (v : Part) : (s.setPart k v).therm = s.therm := rfl
@[simp] theorem State.setPart_fwsvn (v : Part) : (s.setPart k v).fwsvn = s.fwsvn := rfl
@[simp] theorem State.setPart_devid (v : Part) : (s.setPart k v).devid = s.devid := rfl
@[simp] theorem State.setPart_pwrcap (v : Part) : (s.setPart k v).pwrcap = s.pwrcap := rfl
@[simp] theorem State.setPart_mbop (v : Part) : (s.setPart k v).mbop = s.mbop := rfl
@[simp] theorem State.setPart_mbarg (v : Part) : (s.setPart k v).mbarg = s.mbarg := rfl
@[simp] theorem State.setPart_mbsnap (v : Part) : (s.setPart k v).mbsnap = s.mbsnap := rfl
@[simp] theorem State.setPart_mbbusy (v : Part) : (s.setPart k v).mbbusy = s.mbbusy := rfl
@[simp] theorem State.setPart_mbdone (v : Part) : (s.setPart k v).mbdone = s.mbdone := rfl
@[simp] theorem State.setPart_mberr (v : Part) : (s.setPart k v).mberr = s.mberr := rfl
@[simp] theorem State.setPart_mblen (v : Part) : (s.setPart k v).mblen = s.mblen := rfl
@[simp] theorem State.setPart_mbdata (v : Part) : (s.setPart k v).mbdata = s.mbdata := rfl
@[simp] theorem State.setPart_flash (v : Part) : (s.setPart k v).flash = s.flash := rfl
@[simp] theorem State.setPart_devlog (v : Part) : (s.setPart k v).devlog = s.devlog := rfl
@[simp] theorem State.setPart_devdrop (v : Part) : (s.setPart k v).devdrop = s.devdrop := rfl
@[simp] theorem State.setPart_devseq (v : Part) : (s.setPart k v).devseq = s.devseq := rfl
@[simp] theorem State.setPart_irqs (v : Part) : (s.setPart k v).irqs = s.irqs := rfl
@[simp] theorem State.setPart_telem (v : Part) : (s.setPart k v).telem = s.telem := rfl
@[simp] theorem State.setPart_watts (v : Part) : (s.setPart k v).watts = s.watts := rfl
@[simp] theorem State.setPart_power (v : Part) : (s.setPart k v).power = s.power := rfl
@[simp] theorem State.setPart_hostRead (v : Part) : (s.setPart k v).hostRead = s.hostRead := rfl
@[simp] theorem State.ctx_setPart (v : Part) : (s.setPart k v).ctx j = s.ctx j := rfl
@[simp] theorem State.core_setPart (v : Part) : (s.setPart k v).core j = s.core j := rfl
@[simp] theorem State.clu_setPart (v : Part) : (s.setPart k v).clu j = s.clu j := rfl
@[simp] theorem State.die_setPart (v : Part) : (s.setPart k v).die j = s.die j := rfl
@[simp] theorem State.part_setPart_same (v : Part) : (s.setPart k v).part k = v := by simp [State.part]
theorem State.part_setPart (v : Part) : (s.setPart k v).part j = if j = k then v else s.part j := by
  simp [State.part, Tab.get_put]
@[simp] theorem State.setPart_setPart (v w : Part) : (s.setPart k w).setPart k v = s.setPart k v := by simp [State.setPart]
@[simp] theorem State.stream_setPart (v : Part) : (s.setPart k v).stream j = s.stream j := rfl
@[simp] theorem State.launch_setPart (v : Part) : (s.setPart k v).launch j = s.launch j := rfl
@[simp] theorem State.port_setPart (v : Part) : (s.setPart k v).port j = s.port j := rfl

/-! ## setStream -/

@[simp] theorem State.setStream_cur (v : Stream) : (s.setStream k v).cur = s.cur := rfl
@[simp] theorem State.setStream_cycle (v : Stream) : (s.setStream k v).cycle = s.cycle := rfl
@[simp] theorem State.setStream_turn (v : Stream) : (s.setStream k v).turn = s.turn := rfl
@[simp] theorem State.setStream_inbox (v : Stream) : (s.setStream k v).inbox = s.inbox := rfl
@[simp] theorem State.setStream_pace (v : Stream) : (s.setStream k v).pace = s.pace := rfl
@[simp] theorem State.setStream_freeN (v : Stream) : (s.setStream k v).freeN = s.freeN := rfl
@[simp] theorem State.setStream_ctxs (v : Stream) : (s.setStream k v).ctxs = s.ctxs := rfl
@[simp] theorem State.setStream_cores (v : Stream) : (s.setStream k v).cores = s.cores := rfl
@[simp] theorem State.setStream_clus (v : Stream) : (s.setStream k v).clus = s.clus := rfl
@[simp] theorem State.setStream_dies (v : Stream) : (s.setStream k v).dies = s.dies := rfl
@[simp] theorem State.setStream_parts (v : Stream) : (s.setStream k v).parts = s.parts := rfl
@[simp] theorem State.setStream_streams (v : Stream) : (s.setStream k v).streams = Tab.put k v s.streams := rfl
@[simp] theorem State.setStream_launches (v : Stream) : (s.setStream k v).launches = s.launches := rfl
@[simp] theorem State.setStream_ports (v : Stream) : (s.setStream k v).ports = s.ports := rfl
@[simp] theorem State.setStream_dram (v : Stream) : (s.setStream k v).dram = s.dram := rfl
@[simp] theorem State.setStream_host (v : Stream) : (s.setStream k v).host = s.host := rfl
@[simp] theorem State.setStream_dtags (v : Stream) : (s.setStream k v).dtags = s.dtags := rfl
@[simp] theorem State.setStream_dpois (v : Stream) : (s.setStream k v).dpois = s.dpois := rfl
@[simp] theorem State.setStream_hpois (v : Stream) : (s.setStream k v).hpois = s.hpois := rfl
@[simp] theorem State.setStream_wbuf (v : Stream) : (s.setStream k v).wbuf = s.wbuf := rfl
@[simp] theorem State.setStream_invals (v : Stream) : (s.setStream k v).invals = s.invals := rfl
@[simp] theorem State.setStream_invalNo (v : Stream) : (s.setStream k v).invalNo = s.invalNo := rfl
@[simp] theorem State.setStream_placeNo (v : Stream) : (s.setStream k v).placeNo = s.placeNo := rfl
@[simp] theorem State.setStream_launchNo (v : Stream) : (s.setStream k v).launchNo = s.launchNo := rfl
@[simp] theorem State.setStream_copyNo (v : Stream) : (s.setStream k v).copyNo = s.copyNo := rfl
@[simp] theorem State.setStream_ready (v : Stream) : (s.setStream k v).ready = s.ready := rfl
@[simp] theorem State.setStream_recov (v : Stream) : (s.setStream k v).recov = s.recov := rfl
@[simp] theorem State.setStream_slotB (v : Stream) : (s.setStream k v).slotB = s.slotB := rfl
@[simp] theorem State.setStream_therm (v : Stream) : (s.setStream k v).therm = s.therm := rfl
@[simp] theorem State.setStream_fwsvn (v : Stream) : (s.setStream k v).fwsvn = s.fwsvn := rfl
@[simp] theorem State.setStream_devid (v : Stream) : (s.setStream k v).devid = s.devid := rfl
@[simp] theorem State.setStream_pwrcap (v : Stream) : (s.setStream k v).pwrcap = s.pwrcap := rfl
@[simp] theorem State.setStream_mbop (v : Stream) : (s.setStream k v).mbop = s.mbop := rfl
@[simp] theorem State.setStream_mbarg (v : Stream) : (s.setStream k v).mbarg = s.mbarg := rfl
@[simp] theorem State.setStream_mbsnap (v : Stream) : (s.setStream k v).mbsnap = s.mbsnap := rfl
@[simp] theorem State.setStream_mbbusy (v : Stream) : (s.setStream k v).mbbusy = s.mbbusy := rfl
@[simp] theorem State.setStream_mbdone (v : Stream) : (s.setStream k v).mbdone = s.mbdone := rfl
@[simp] theorem State.setStream_mberr (v : Stream) : (s.setStream k v).mberr = s.mberr := rfl
@[simp] theorem State.setStream_mblen (v : Stream) : (s.setStream k v).mblen = s.mblen := rfl
@[simp] theorem State.setStream_mbdata (v : Stream) : (s.setStream k v).mbdata = s.mbdata := rfl
@[simp] theorem State.setStream_flash (v : Stream) : (s.setStream k v).flash = s.flash := rfl
@[simp] theorem State.setStream_devlog (v : Stream) : (s.setStream k v).devlog = s.devlog := rfl
@[simp] theorem State.setStream_devdrop (v : Stream) : (s.setStream k v).devdrop = s.devdrop := rfl
@[simp] theorem State.setStream_devseq (v : Stream) : (s.setStream k v).devseq = s.devseq := rfl
@[simp] theorem State.setStream_irqs (v : Stream) : (s.setStream k v).irqs = s.irqs := rfl
@[simp] theorem State.setStream_telem (v : Stream) : (s.setStream k v).telem = s.telem := rfl
@[simp] theorem State.setStream_watts (v : Stream) : (s.setStream k v).watts = s.watts := rfl
@[simp] theorem State.setStream_power (v : Stream) : (s.setStream k v).power = s.power := rfl
@[simp] theorem State.setStream_hostRead (v : Stream) : (s.setStream k v).hostRead = s.hostRead := rfl
@[simp] theorem State.ctx_setStream (v : Stream) : (s.setStream k v).ctx j = s.ctx j := rfl
@[simp] theorem State.core_setStream (v : Stream) : (s.setStream k v).core j = s.core j := rfl
@[simp] theorem State.clu_setStream (v : Stream) : (s.setStream k v).clu j = s.clu j := rfl
@[simp] theorem State.die_setStream (v : Stream) : (s.setStream k v).die j = s.die j := rfl
@[simp] theorem State.part_setStream (v : Stream) : (s.setStream k v).part j = s.part j := rfl
@[simp] theorem State.stream_setStream_same (v : Stream) : (s.setStream k v).stream k = v := by simp [State.stream]
theorem State.stream_setStream (v : Stream) : (s.setStream k v).stream j = if j = k then v else s.stream j := by
  simp [State.stream, Tab.get_put]
@[simp] theorem State.setStream_setStream (v w : Stream) : (s.setStream k w).setStream k v = s.setStream k v := by simp [State.setStream]
@[simp] theorem State.launch_setStream (v : Stream) : (s.setStream k v).launch j = s.launch j := rfl
@[simp] theorem State.port_setStream (v : Stream) : (s.setStream k v).port j = s.port j := rfl

/-! ## setLaunch -/

@[simp] theorem State.setLaunch_cur (v : Launch) : (s.setLaunch k v).cur = s.cur := rfl
@[simp] theorem State.setLaunch_cycle (v : Launch) : (s.setLaunch k v).cycle = s.cycle := rfl
@[simp] theorem State.setLaunch_turn (v : Launch) : (s.setLaunch k v).turn = s.turn := rfl
@[simp] theorem State.setLaunch_inbox (v : Launch) : (s.setLaunch k v).inbox = s.inbox := rfl
@[simp] theorem State.setLaunch_pace (v : Launch) : (s.setLaunch k v).pace = s.pace := rfl
@[simp] theorem State.setLaunch_freeN (v : Launch) : (s.setLaunch k v).freeN = s.freeN := rfl
@[simp] theorem State.setLaunch_ctxs (v : Launch) : (s.setLaunch k v).ctxs = s.ctxs := rfl
@[simp] theorem State.setLaunch_cores (v : Launch) : (s.setLaunch k v).cores = s.cores := rfl
@[simp] theorem State.setLaunch_clus (v : Launch) : (s.setLaunch k v).clus = s.clus := rfl
@[simp] theorem State.setLaunch_dies (v : Launch) : (s.setLaunch k v).dies = s.dies := rfl
@[simp] theorem State.setLaunch_parts (v : Launch) : (s.setLaunch k v).parts = s.parts := rfl
@[simp] theorem State.setLaunch_streams (v : Launch) : (s.setLaunch k v).streams = s.streams := rfl
@[simp] theorem State.setLaunch_launches (v : Launch) : (s.setLaunch k v).launches = Tab.put k v s.launches := rfl
@[simp] theorem State.setLaunch_ports (v : Launch) : (s.setLaunch k v).ports = s.ports := rfl
@[simp] theorem State.setLaunch_dram (v : Launch) : (s.setLaunch k v).dram = s.dram := rfl
@[simp] theorem State.setLaunch_host (v : Launch) : (s.setLaunch k v).host = s.host := rfl
@[simp] theorem State.setLaunch_dtags (v : Launch) : (s.setLaunch k v).dtags = s.dtags := rfl
@[simp] theorem State.setLaunch_dpois (v : Launch) : (s.setLaunch k v).dpois = s.dpois := rfl
@[simp] theorem State.setLaunch_hpois (v : Launch) : (s.setLaunch k v).hpois = s.hpois := rfl
@[simp] theorem State.setLaunch_wbuf (v : Launch) : (s.setLaunch k v).wbuf = s.wbuf := rfl
@[simp] theorem State.setLaunch_invals (v : Launch) : (s.setLaunch k v).invals = s.invals := rfl
@[simp] theorem State.setLaunch_invalNo (v : Launch) : (s.setLaunch k v).invalNo = s.invalNo := rfl
@[simp] theorem State.setLaunch_placeNo (v : Launch) : (s.setLaunch k v).placeNo = s.placeNo := rfl
@[simp] theorem State.setLaunch_launchNo (v : Launch) : (s.setLaunch k v).launchNo = s.launchNo := rfl
@[simp] theorem State.setLaunch_copyNo (v : Launch) : (s.setLaunch k v).copyNo = s.copyNo := rfl
@[simp] theorem State.setLaunch_ready (v : Launch) : (s.setLaunch k v).ready = s.ready := rfl
@[simp] theorem State.setLaunch_recov (v : Launch) : (s.setLaunch k v).recov = s.recov := rfl
@[simp] theorem State.setLaunch_slotB (v : Launch) : (s.setLaunch k v).slotB = s.slotB := rfl
@[simp] theorem State.setLaunch_therm (v : Launch) : (s.setLaunch k v).therm = s.therm := rfl
@[simp] theorem State.setLaunch_fwsvn (v : Launch) : (s.setLaunch k v).fwsvn = s.fwsvn := rfl
@[simp] theorem State.setLaunch_devid (v : Launch) : (s.setLaunch k v).devid = s.devid := rfl
@[simp] theorem State.setLaunch_pwrcap (v : Launch) : (s.setLaunch k v).pwrcap = s.pwrcap := rfl
@[simp] theorem State.setLaunch_mbop (v : Launch) : (s.setLaunch k v).mbop = s.mbop := rfl
@[simp] theorem State.setLaunch_mbarg (v : Launch) : (s.setLaunch k v).mbarg = s.mbarg := rfl
@[simp] theorem State.setLaunch_mbsnap (v : Launch) : (s.setLaunch k v).mbsnap = s.mbsnap := rfl
@[simp] theorem State.setLaunch_mbbusy (v : Launch) : (s.setLaunch k v).mbbusy = s.mbbusy := rfl
@[simp] theorem State.setLaunch_mbdone (v : Launch) : (s.setLaunch k v).mbdone = s.mbdone := rfl
@[simp] theorem State.setLaunch_mberr (v : Launch) : (s.setLaunch k v).mberr = s.mberr := rfl
@[simp] theorem State.setLaunch_mblen (v : Launch) : (s.setLaunch k v).mblen = s.mblen := rfl
@[simp] theorem State.setLaunch_mbdata (v : Launch) : (s.setLaunch k v).mbdata = s.mbdata := rfl
@[simp] theorem State.setLaunch_flash (v : Launch) : (s.setLaunch k v).flash = s.flash := rfl
@[simp] theorem State.setLaunch_devlog (v : Launch) : (s.setLaunch k v).devlog = s.devlog := rfl
@[simp] theorem State.setLaunch_devdrop (v : Launch) : (s.setLaunch k v).devdrop = s.devdrop := rfl
@[simp] theorem State.setLaunch_devseq (v : Launch) : (s.setLaunch k v).devseq = s.devseq := rfl
@[simp] theorem State.setLaunch_irqs (v : Launch) : (s.setLaunch k v).irqs = s.irqs := rfl
@[simp] theorem State.setLaunch_telem (v : Launch) : (s.setLaunch k v).telem = s.telem := rfl
@[simp] theorem State.setLaunch_watts (v : Launch) : (s.setLaunch k v).watts = s.watts := rfl
@[simp] theorem State.setLaunch_power (v : Launch) : (s.setLaunch k v).power = s.power := rfl
@[simp] theorem State.setLaunch_hostRead (v : Launch) : (s.setLaunch k v).hostRead = s.hostRead := rfl
@[simp] theorem State.ctx_setLaunch (v : Launch) : (s.setLaunch k v).ctx j = s.ctx j := rfl
@[simp] theorem State.core_setLaunch (v : Launch) : (s.setLaunch k v).core j = s.core j := rfl
@[simp] theorem State.clu_setLaunch (v : Launch) : (s.setLaunch k v).clu j = s.clu j := rfl
@[simp] theorem State.die_setLaunch (v : Launch) : (s.setLaunch k v).die j = s.die j := rfl
@[simp] theorem State.part_setLaunch (v : Launch) : (s.setLaunch k v).part j = s.part j := rfl
@[simp] theorem State.stream_setLaunch (v : Launch) : (s.setLaunch k v).stream j = s.stream j := rfl
@[simp] theorem State.launch_setLaunch_same (v : Launch) : (s.setLaunch k v).launch k = some v := by simp [State.launch]
theorem State.launch_setLaunch_ne (v : Launch) (h : j ≠ k) : (s.setLaunch k v).launch j = s.launch j := by
  simp [State.launch, Tab.find_put_ne, h]
@[simp] theorem State.port_setLaunch (v : Launch) : (s.setLaunch k v).port j = s.port j := rfl

/-! ## setPort -/

@[simp] theorem State.setPort_cur (v : Port) : (s.setPort k v).cur = s.cur := rfl
@[simp] theorem State.setPort_cycle (v : Port) : (s.setPort k v).cycle = s.cycle := rfl
@[simp] theorem State.setPort_turn (v : Port) : (s.setPort k v).turn = s.turn := rfl
@[simp] theorem State.setPort_inbox (v : Port) : (s.setPort k v).inbox = s.inbox := rfl
@[simp] theorem State.setPort_pace (v : Port) : (s.setPort k v).pace = s.pace := rfl
@[simp] theorem State.setPort_freeN (v : Port) : (s.setPort k v).freeN = s.freeN := rfl
@[simp] theorem State.setPort_ctxs (v : Port) : (s.setPort k v).ctxs = s.ctxs := rfl
@[simp] theorem State.setPort_cores (v : Port) : (s.setPort k v).cores = s.cores := rfl
@[simp] theorem State.setPort_clus (v : Port) : (s.setPort k v).clus = s.clus := rfl
@[simp] theorem State.setPort_dies (v : Port) : (s.setPort k v).dies = s.dies := rfl
@[simp] theorem State.setPort_parts (v : Port) : (s.setPort k v).parts = s.parts := rfl
@[simp] theorem State.setPort_streams (v : Port) : (s.setPort k v).streams = s.streams := rfl
@[simp] theorem State.setPort_launches (v : Port) : (s.setPort k v).launches = s.launches := rfl
@[simp] theorem State.setPort_ports (v : Port) : (s.setPort k v).ports = Tab.put k v s.ports := rfl
@[simp] theorem State.setPort_dram (v : Port) : (s.setPort k v).dram = s.dram := rfl
@[simp] theorem State.setPort_host (v : Port) : (s.setPort k v).host = s.host := rfl
@[simp] theorem State.setPort_dtags (v : Port) : (s.setPort k v).dtags = s.dtags := rfl
@[simp] theorem State.setPort_dpois (v : Port) : (s.setPort k v).dpois = s.dpois := rfl
@[simp] theorem State.setPort_hpois (v : Port) : (s.setPort k v).hpois = s.hpois := rfl
@[simp] theorem State.setPort_wbuf (v : Port) : (s.setPort k v).wbuf = s.wbuf := rfl
@[simp] theorem State.setPort_invals (v : Port) : (s.setPort k v).invals = s.invals := rfl
@[simp] theorem State.setPort_invalNo (v : Port) : (s.setPort k v).invalNo = s.invalNo := rfl
@[simp] theorem State.setPort_placeNo (v : Port) : (s.setPort k v).placeNo = s.placeNo := rfl
@[simp] theorem State.setPort_launchNo (v : Port) : (s.setPort k v).launchNo = s.launchNo := rfl
@[simp] theorem State.setPort_copyNo (v : Port) : (s.setPort k v).copyNo = s.copyNo := rfl
@[simp] theorem State.setPort_ready (v : Port) : (s.setPort k v).ready = s.ready := rfl
@[simp] theorem State.setPort_recov (v : Port) : (s.setPort k v).recov = s.recov := rfl
@[simp] theorem State.setPort_slotB (v : Port) : (s.setPort k v).slotB = s.slotB := rfl
@[simp] theorem State.setPort_therm (v : Port) : (s.setPort k v).therm = s.therm := rfl
@[simp] theorem State.setPort_fwsvn (v : Port) : (s.setPort k v).fwsvn = s.fwsvn := rfl
@[simp] theorem State.setPort_devid (v : Port) : (s.setPort k v).devid = s.devid := rfl
@[simp] theorem State.setPort_pwrcap (v : Port) : (s.setPort k v).pwrcap = s.pwrcap := rfl
@[simp] theorem State.setPort_mbop (v : Port) : (s.setPort k v).mbop = s.mbop := rfl
@[simp] theorem State.setPort_mbarg (v : Port) : (s.setPort k v).mbarg = s.mbarg := rfl
@[simp] theorem State.setPort_mbsnap (v : Port) : (s.setPort k v).mbsnap = s.mbsnap := rfl
@[simp] theorem State.setPort_mbbusy (v : Port) : (s.setPort k v).mbbusy = s.mbbusy := rfl
@[simp] theorem State.setPort_mbdone (v : Port) : (s.setPort k v).mbdone = s.mbdone := rfl
@[simp] theorem State.setPort_mberr (v : Port) : (s.setPort k v).mberr = s.mberr := rfl
@[simp] theorem State.setPort_mblen (v : Port) : (s.setPort k v).mblen = s.mblen := rfl
@[simp] theorem State.setPort_mbdata (v : Port) : (s.setPort k v).mbdata = s.mbdata := rfl
@[simp] theorem State.setPort_flash (v : Port) : (s.setPort k v).flash = s.flash := rfl
@[simp] theorem State.setPort_devlog (v : Port) : (s.setPort k v).devlog = s.devlog := rfl
@[simp] theorem State.setPort_devdrop (v : Port) : (s.setPort k v).devdrop = s.devdrop := rfl
@[simp] theorem State.setPort_devseq (v : Port) : (s.setPort k v).devseq = s.devseq := rfl
@[simp] theorem State.setPort_irqs (v : Port) : (s.setPort k v).irqs = s.irqs := rfl
@[simp] theorem State.setPort_telem (v : Port) : (s.setPort k v).telem = s.telem := rfl
@[simp] theorem State.setPort_watts (v : Port) : (s.setPort k v).watts = s.watts := rfl
@[simp] theorem State.setPort_power (v : Port) : (s.setPort k v).power = s.power := rfl
@[simp] theorem State.setPort_hostRead (v : Port) : (s.setPort k v).hostRead = s.hostRead := rfl
@[simp] theorem State.ctx_setPort (v : Port) : (s.setPort k v).ctx j = s.ctx j := rfl
@[simp] theorem State.core_setPort (v : Port) : (s.setPort k v).core j = s.core j := rfl
@[simp] theorem State.clu_setPort (v : Port) : (s.setPort k v).clu j = s.clu j := rfl
@[simp] theorem State.die_setPort (v : Port) : (s.setPort k v).die j = s.die j := rfl
@[simp] theorem State.part_setPort (v : Port) : (s.setPort k v).part j = s.part j := rfl
@[simp] theorem State.stream_setPort (v : Port) : (s.setPort k v).stream j = s.stream j := rfl
@[simp] theorem State.launch_setPort (v : Port) : (s.setPort k v).launch j = s.launch j := rfl
@[simp] theorem State.port_setPort_same (v : Port) : (s.setPort k v).port k = v := by simp [State.port]
theorem State.port_setPort (v : Port) : (s.setPort k v).port j = if j = k then v else s.port j := by
  simp [State.port, Tab.get_put]
@[simp] theorem State.setPort_setPort (v w : Port) : (s.setPort k w).setPort k v = s.setPort k v := by simp [State.setPort]

/-! ## Updates of fields -/

@[simp] theorem State.ctx_freeN (v : Nat) : (State.ctx { s with freeN := v } j) = s.ctx j := rfl
@[simp] theorem State.core_freeN (v : Nat) : (State.core { s with freeN := v } j) = s.core j := rfl
@[simp] theorem State.clu_freeN (v : Nat) : (State.clu { s with freeN := v } j) = s.clu j := rfl
@[simp] theorem State.die_freeN (v : Nat) : (State.die { s with freeN := v } j) = s.die j := rfl
@[simp] theorem State.part_freeN (v : Nat) : (State.part { s with freeN := v } j) = s.part j := rfl
@[simp] theorem State.stream_freeN (v : Nat) : (State.stream { s with freeN := v } j) = s.stream j := rfl
@[simp] theorem State.launch_freeN (v : Nat) : (State.launch { s with freeN := v } j) = s.launch j := rfl
@[simp] theorem State.port_freeN (v : Nat) : (State.port { s with freeN := v } j) = s.port j := rfl
@[simp] theorem State.ctx_cur (v : Nat) : (State.ctx { s with cur := v } j) = s.ctx j := rfl
@[simp] theorem State.core_cur (v : Nat) : (State.core { s with cur := v } j) = s.core j := rfl
@[simp] theorem State.clu_cur (v : Nat) : (State.clu { s with cur := v } j) = s.clu j := rfl
@[simp] theorem State.die_cur (v : Nat) : (State.die { s with cur := v } j) = s.die j := rfl
@[simp] theorem State.part_cur (v : Nat) : (State.part { s with cur := v } j) = s.part j := rfl
@[simp] theorem State.stream_cur (v : Nat) : (State.stream { s with cur := v } j) = s.stream j := rfl
@[simp] theorem State.launch_cur (v : Nat) : (State.launch { s with cur := v } j) = s.launch j := rfl
@[simp] theorem State.port_cur (v : Nat) : (State.port { s with cur := v } j) = s.port j := rfl
@[simp] theorem State.ctx_cycle (v : Nat) : (State.ctx { s with cycle := v } j) = s.ctx j := rfl
@[simp] theorem State.core_cycle (v : Nat) : (State.core { s with cycle := v } j) = s.core j := rfl
@[simp] theorem State.clu_cycle (v : Nat) : (State.clu { s with cycle := v } j) = s.clu j := rfl
@[simp] theorem State.die_cycle (v : Nat) : (State.die { s with cycle := v } j) = s.die j := rfl
@[simp] theorem State.part_cycle (v : Nat) : (State.part { s with cycle := v } j) = s.part j := rfl
@[simp] theorem State.stream_cycle (v : Nat) : (State.stream { s with cycle := v } j) = s.stream j := rfl
@[simp] theorem State.launch_cycle (v : Nat) : (State.launch { s with cycle := v } j) = s.launch j := rfl
@[simp] theorem State.port_cycle (v : Nat) : (State.port { s with cycle := v } j) = s.port j := rfl
@[simp] theorem State.ctx_turn (v : Nat) : (State.ctx { s with turn := v } j) = s.ctx j := rfl
@[simp] theorem State.core_turn (v : Nat) : (State.core { s with turn := v } j) = s.core j := rfl
@[simp] theorem State.clu_turn (v : Nat) : (State.clu { s with turn := v } j) = s.clu j := rfl
@[simp] theorem State.die_turn (v : Nat) : (State.die { s with turn := v } j) = s.die j := rfl
@[simp] theorem State.part_turn (v : Nat) : (State.part { s with turn := v } j) = s.part j := rfl
@[simp] theorem State.stream_turn (v : Nat) : (State.stream { s with turn := v } j) = s.stream j := rfl
@[simp] theorem State.launch_turn (v : Nat) : (State.launch { s with turn := v } j) = s.launch j := rfl
@[simp] theorem State.port_turn (v : Nat) : (State.port { s with turn := v } j) = s.port j := rfl
@[simp] theorem State.ctx_inbox (v : List Instr) : (State.ctx { s with inbox := v } j) = s.ctx j := rfl
@[simp] theorem State.ctx_pace (v : List (List (Nat × Nat))) : (State.ctx { s with pace := v } j) = s.ctx j := rfl
@[simp] theorem State.core_inbox (v : List Instr) : (State.core { s with inbox := v } j) = s.core j := rfl
@[simp] theorem State.core_pace (v : List (List (Nat × Nat))) : (State.core { s with pace := v } j) = s.core j := rfl
@[simp] theorem State.clu_inbox (v : List Instr) : (State.clu { s with inbox := v } j) = s.clu j := rfl
@[simp] theorem State.clu_pace (v : List (List (Nat × Nat))) : (State.clu { s with pace := v } j) = s.clu j := rfl
@[simp] theorem State.die_inbox (v : List Instr) : (State.die { s with inbox := v } j) = s.die j := rfl
@[simp] theorem State.die_pace (v : List (List (Nat × Nat))) : (State.die { s with pace := v } j) = s.die j := rfl
@[simp] theorem State.part_inbox (v : List Instr) : (State.part { s with inbox := v } j) = s.part j := rfl
@[simp] theorem State.part_pace (v : List (List (Nat × Nat))) : (State.part { s with pace := v } j) = s.part j := rfl
@[simp] theorem State.stream_inbox (v : List Instr) : (State.stream { s with inbox := v } j) = s.stream j := rfl
@[simp] theorem State.stream_pace (v : List (List (Nat × Nat))) : (State.stream { s with pace := v } j) = s.stream j := rfl
@[simp] theorem State.launch_inbox (v : List Instr) : (State.launch { s with inbox := v } j) = s.launch j := rfl
@[simp] theorem State.launch_pace (v : List (List (Nat × Nat))) : (State.launch { s with pace := v } j) = s.launch j := rfl
@[simp] theorem State.port_inbox (v : List Instr) : (State.port { s with inbox := v } j) = s.port j := rfl
@[simp] theorem State.port_pace (v : List (List (Nat × Nat))) : (State.port { s with pace := v } j) = s.port j := rfl
@[simp] theorem State.ctx_dram (v : Memory) : (State.ctx { s with dram := v } j) = s.ctx j := rfl
@[simp] theorem State.core_dram (v : Memory) : (State.core { s with dram := v } j) = s.core j := rfl
@[simp] theorem State.clu_dram (v : Memory) : (State.clu { s with dram := v } j) = s.clu j := rfl
@[simp] theorem State.die_dram (v : Memory) : (State.die { s with dram := v } j) = s.die j := rfl
@[simp] theorem State.part_dram (v : Memory) : (State.part { s with dram := v } j) = s.part j := rfl
@[simp] theorem State.stream_dram (v : Memory) : (State.stream { s with dram := v } j) = s.stream j := rfl
@[simp] theorem State.launch_dram (v : Memory) : (State.launch { s with dram := v } j) = s.launch j := rfl
@[simp] theorem State.port_dram (v : Memory) : (State.port { s with dram := v } j) = s.port j := rfl
@[simp] theorem State.ctx_host (v : Memory) : (State.ctx { s with host := v } j) = s.ctx j := rfl
@[simp] theorem State.core_host (v : Memory) : (State.core { s with host := v } j) = s.core j := rfl
@[simp] theorem State.clu_host (v : Memory) : (State.clu { s with host := v } j) = s.clu j := rfl
@[simp] theorem State.die_host (v : Memory) : (State.die { s with host := v } j) = s.die j := rfl
@[simp] theorem State.part_host (v : Memory) : (State.part { s with host := v } j) = s.part j := rfl
@[simp] theorem State.stream_host (v : Memory) : (State.stream { s with host := v } j) = s.stream j := rfl
@[simp] theorem State.launch_host (v : Memory) : (State.launch { s with host := v } j) = s.launch j := rfl
@[simp] theorem State.port_host (v : Memory) : (State.port { s with host := v } j) = s.port j := rfl
@[simp] theorem State.ctx_dtags (v : Tab (BitVec 32)) : (State.ctx { s with dtags := v } j) = s.ctx j := rfl
@[simp] theorem State.core_dtags (v : Tab (BitVec 32)) : (State.core { s with dtags := v } j) = s.core j := rfl
@[simp] theorem State.clu_dtags (v : Tab (BitVec 32)) : (State.clu { s with dtags := v } j) = s.clu j := rfl
@[simp] theorem State.die_dtags (v : Tab (BitVec 32)) : (State.die { s with dtags := v } j) = s.die j := rfl
@[simp] theorem State.part_dtags (v : Tab (BitVec 32)) : (State.part { s with dtags := v } j) = s.part j := rfl
@[simp] theorem State.stream_dtags (v : Tab (BitVec 32)) : (State.stream { s with dtags := v } j) = s.stream j := rfl
@[simp] theorem State.launch_dtags (v : Tab (BitVec 32)) : (State.launch { s with dtags := v } j) = s.launch j := rfl
@[simp] theorem State.port_dtags (v : Tab (BitVec 32)) : (State.port { s with dtags := v } j) = s.port j := rfl
@[simp] theorem State.ctx_dpois (v : List Nat) : (State.ctx { s with dpois := v } j) = s.ctx j := rfl
@[simp] theorem State.core_dpois (v : List Nat) : (State.core { s with dpois := v } j) = s.core j := rfl
@[simp] theorem State.clu_dpois (v : List Nat) : (State.clu { s with dpois := v } j) = s.clu j := rfl
@[simp] theorem State.die_dpois (v : List Nat) : (State.die { s with dpois := v } j) = s.die j := rfl
@[simp] theorem State.part_dpois (v : List Nat) : (State.part { s with dpois := v } j) = s.part j := rfl
@[simp] theorem State.stream_dpois (v : List Nat) : (State.stream { s with dpois := v } j) = s.stream j := rfl
@[simp] theorem State.launch_dpois (v : List Nat) : (State.launch { s with dpois := v } j) = s.launch j := rfl
@[simp] theorem State.port_dpois (v : List Nat) : (State.port { s with dpois := v } j) = s.port j := rfl
@[simp] theorem State.ctx_hpois (v : List Nat) : (State.ctx { s with hpois := v } j) = s.ctx j := rfl
@[simp] theorem State.core_hpois (v : List Nat) : (State.core { s with hpois := v } j) = s.core j := rfl
@[simp] theorem State.clu_hpois (v : List Nat) : (State.clu { s with hpois := v } j) = s.clu j := rfl
@[simp] theorem State.die_hpois (v : List Nat) : (State.die { s with hpois := v } j) = s.die j := rfl
@[simp] theorem State.part_hpois (v : List Nat) : (State.part { s with hpois := v } j) = s.part j := rfl
@[simp] theorem State.stream_hpois (v : List Nat) : (State.stream { s with hpois := v } j) = s.stream j := rfl
@[simp] theorem State.launch_hpois (v : List Nat) : (State.launch { s with hpois := v } j) = s.launch j := rfl
@[simp] theorem State.port_hpois (v : List Nat) : (State.port { s with hpois := v } j) = s.port j := rfl
@[simp] theorem State.ctx_wbuf (v : List PendWrite) : (State.ctx { s with wbuf := v } j) = s.ctx j := rfl
@[simp] theorem State.core_wbuf (v : List PendWrite) : (State.core { s with wbuf := v } j) = s.core j := rfl
@[simp] theorem State.clu_wbuf (v : List PendWrite) : (State.clu { s with wbuf := v } j) = s.clu j := rfl
@[simp] theorem State.die_wbuf (v : List PendWrite) : (State.die { s with wbuf := v } j) = s.die j := rfl
@[simp] theorem State.part_wbuf (v : List PendWrite) : (State.part { s with wbuf := v } j) = s.part j := rfl
@[simp] theorem State.stream_wbuf (v : List PendWrite) : (State.stream { s with wbuf := v } j) = s.stream j := rfl
@[simp] theorem State.launch_wbuf (v : List PendWrite) : (State.launch { s with wbuf := v } j) = s.launch j := rfl
@[simp] theorem State.port_wbuf (v : List PendWrite) : (State.port { s with wbuf := v } j) = s.port j := rfl
@[simp] theorem State.ctx_irqs (v : List Nat) : (State.ctx { s with irqs := v } j) = s.ctx j := rfl
@[simp] theorem State.core_irqs (v : List Nat) : (State.core { s with irqs := v } j) = s.core j := rfl
@[simp] theorem State.clu_irqs (v : List Nat) : (State.clu { s with irqs := v } j) = s.clu j := rfl
@[simp] theorem State.die_irqs (v : List Nat) : (State.die { s with irqs := v } j) = s.die j := rfl
@[simp] theorem State.part_irqs (v : List Nat) : (State.part { s with irqs := v } j) = s.part j := rfl
@[simp] theorem State.stream_irqs (v : List Nat) : (State.stream { s with irqs := v } j) = s.stream j := rfl
@[simp] theorem State.launch_irqs (v : List Nat) : (State.launch { s with irqs := v } j) = s.launch j := rfl
@[simp] theorem State.port_irqs (v : List Nat) : (State.port { s with irqs := v } j) = s.port j := rfl
@[simp] theorem State.ctx_invals (v : List Inval) : (State.ctx { s with invals := v } j) = s.ctx j := rfl
@[simp] theorem State.core_invals (v : List Inval) : (State.core { s with invals := v } j) = s.core j := rfl
@[simp] theorem State.clu_invals (v : List Inval) : (State.clu { s with invals := v } j) = s.clu j := rfl
@[simp] theorem State.die_invals (v : List Inval) : (State.die { s with invals := v } j) = s.die j := rfl
@[simp] theorem State.part_invals (v : List Inval) : (State.part { s with invals := v } j) = s.part j := rfl
@[simp] theorem State.stream_invals (v : List Inval) : (State.stream { s with invals := v } j) = s.stream j := rfl
@[simp] theorem State.launch_invals (v : List Inval) : (State.launch { s with invals := v } j) = s.launch j := rfl
@[simp] theorem State.port_invals (v : List Inval) : (State.port { s with invals := v } j) = s.port j := rfl
@[simp] theorem State.ctx_power (v : Power) : (State.ctx { s with power := v } j) = s.ctx j := rfl
@[simp] theorem State.core_power (v : Power) : (State.core { s with power := v } j) = s.core j := rfl
@[simp] theorem State.clu_power (v : Power) : (State.clu { s with power := v } j) = s.clu j := rfl
@[simp] theorem State.die_power (v : Power) : (State.die { s with power := v } j) = s.die j := rfl
@[simp] theorem State.part_power (v : Power) : (State.part { s with power := v } j) = s.part j := rfl
@[simp] theorem State.stream_power (v : Power) : (State.stream { s with power := v } j) = s.stream j := rfl
@[simp] theorem State.launch_power (v : Power) : (State.launch { s with power := v } j) = s.launch j := rfl
@[simp] theorem State.port_power (v : Power) : (State.port { s with power := v } j) = s.port j := rfl

/-! ## The current context -/

@[simp] theorem State.modMe_me (f : Ctx → Ctx) : (s.modMe f).me = f s.me := by
  simp [State.modMe, State.modCtx, State.me]
@[simp] theorem State.modMe_modMe (f g : Ctx → Ctx) : (s.modMe f).modMe g = s.modMe (fun c => g (f c)) := by
  simp [State.modMe, State.modCtx]
@[simp] theorem State.modMe_core (f : Ctx → Ctx) : (s.modMe f).core j = s.core j := rfl
@[simp] theorem State.modMe_myCore (f : Ctx → Ctx) : (s.modMe f).myCore = s.myCore := rfl
@[simp] theorem State.modMe_launchOn (f : Ctx → Ctx) : (s.modMe f).launchOn j = s.launchOn j := rfl
@[simp] theorem State.modMe_lat (f : Ctx → Ctx) (c : LatClass) : (s.modMe f).lat j c = s.lat j c := rfl
@[simp] theorem State.modMe_partOf (f : Ctx → Ctx) : (s.modMe f).partOf j = s.partOf j := rfl
@[simp] theorem State.modMe_cur (f : Ctx → Ctx) : (s.modMe f).cur = s.cur := rfl
@[simp] theorem State.modMe_cycle (f : Ctx → Ctx) : (s.modMe f).cycle = s.cycle := rfl
@[simp] theorem State.modMe_turn (f : Ctx → Ctx) : (s.modMe f).turn = s.turn := rfl
@[simp] theorem State.modMe_inbox (f : Ctx → Ctx) : (s.modMe f).inbox = s.inbox := rfl
@[simp] theorem State.modMe_pace (f : Ctx → Ctx) : (s.modMe f).pace = s.pace := rfl
@[simp] theorem State.modMe_freeN (f : Ctx → Ctx) : (s.modMe f).freeN = s.freeN := rfl
@[simp] theorem State.modMe_cores (f : Ctx → Ctx) : (s.modMe f).cores = s.cores := rfl
@[simp] theorem State.modMe_clus (f : Ctx → Ctx) : (s.modMe f).clus = s.clus := rfl
@[simp] theorem State.modMe_dies (f : Ctx → Ctx) : (s.modMe f).dies = s.dies := rfl
@[simp] theorem State.modMe_parts (f : Ctx → Ctx) : (s.modMe f).parts = s.parts := rfl
@[simp] theorem State.modMe_streams (f : Ctx → Ctx) : (s.modMe f).streams = s.streams := rfl
@[simp] theorem State.modMe_launches (f : Ctx → Ctx) : (s.modMe f).launches = s.launches := rfl
@[simp] theorem State.modMe_ports (f : Ctx → Ctx) : (s.modMe f).ports = s.ports := rfl
@[simp] theorem State.modMe_dram (f : Ctx → Ctx) : (s.modMe f).dram = s.dram := rfl
@[simp] theorem State.modMe_host (f : Ctx → Ctx) : (s.modMe f).host = s.host := rfl
@[simp] theorem State.modMe_dtags (f : Ctx → Ctx) : (s.modMe f).dtags = s.dtags := rfl
@[simp] theorem State.modMe_dpois (f : Ctx → Ctx) : (s.modMe f).dpois = s.dpois := rfl
@[simp] theorem State.modMe_hpois (f : Ctx → Ctx) : (s.modMe f).hpois = s.hpois := rfl
@[simp] theorem State.modMe_wbuf (f : Ctx → Ctx) : (s.modMe f).wbuf = s.wbuf := rfl
@[simp] theorem State.modMe_invals (f : Ctx → Ctx) : (s.modMe f).invals = s.invals := rfl
@[simp] theorem State.modMe_invalNo (f : Ctx → Ctx) : (s.modMe f).invalNo = s.invalNo := rfl
@[simp] theorem State.modMe_placeNo (f : Ctx → Ctx) : (s.modMe f).placeNo = s.placeNo := rfl
@[simp] theorem State.modMe_launchNo (f : Ctx → Ctx) : (s.modMe f).launchNo = s.launchNo := rfl
@[simp] theorem State.modMe_copyNo (f : Ctx → Ctx) : (s.modMe f).copyNo = s.copyNo := rfl
@[simp] theorem State.modMe_ready (f : Ctx → Ctx) : (s.modMe f).ready = s.ready := rfl
@[simp] theorem State.modMe_recov (f : Ctx → Ctx) : (s.modMe f).recov = s.recov := rfl
@[simp] theorem State.modMe_slotB (f : Ctx → Ctx) : (s.modMe f).slotB = s.slotB := rfl
@[simp] theorem State.modMe_therm (f : Ctx → Ctx) : (s.modMe f).therm = s.therm := rfl
@[simp] theorem State.modMe_fwsvn (f : Ctx → Ctx) : (s.modMe f).fwsvn = s.fwsvn := rfl
@[simp] theorem State.modMe_devid (f : Ctx → Ctx) : (s.modMe f).devid = s.devid := rfl
@[simp] theorem State.modMe_pwrcap (f : Ctx → Ctx) : (s.modMe f).pwrcap = s.pwrcap := rfl
@[simp] theorem State.modMe_mbop (f : Ctx → Ctx) : (s.modMe f).mbop = s.mbop := rfl
@[simp] theorem State.modMe_mbarg (f : Ctx → Ctx) : (s.modMe f).mbarg = s.mbarg := rfl
@[simp] theorem State.modMe_mbsnap (f : Ctx → Ctx) : (s.modMe f).mbsnap = s.mbsnap := rfl
@[simp] theorem State.modMe_mbbusy (f : Ctx → Ctx) : (s.modMe f).mbbusy = s.mbbusy := rfl
@[simp] theorem State.modMe_mbdone (f : Ctx → Ctx) : (s.modMe f).mbdone = s.mbdone := rfl
@[simp] theorem State.modMe_mberr (f : Ctx → Ctx) : (s.modMe f).mberr = s.mberr := rfl
@[simp] theorem State.modMe_mblen (f : Ctx → Ctx) : (s.modMe f).mblen = s.mblen := rfl
@[simp] theorem State.modMe_mbdata (f : Ctx → Ctx) : (s.modMe f).mbdata = s.mbdata := rfl
@[simp] theorem State.modMe_flash (f : Ctx → Ctx) : (s.modMe f).flash = s.flash := rfl
@[simp] theorem State.modMe_devlog (f : Ctx → Ctx) : (s.modMe f).devlog = s.devlog := rfl
@[simp] theorem State.modMe_devdrop (f : Ctx → Ctx) : (s.modMe f).devdrop = s.devdrop := rfl
@[simp] theorem State.modMe_devseq (f : Ctx → Ctx) : (s.modMe f).devseq = s.devseq := rfl
@[simp] theorem State.modMe_irqs (f : Ctx → Ctx) : (s.modMe f).irqs = s.irqs := rfl
@[simp] theorem State.modMe_telem (f : Ctx → Ctx) : (s.modMe f).telem = s.telem := rfl
@[simp] theorem State.modMe_watts (f : Ctx → Ctx) : (s.modMe f).watts = s.watts := rfl
@[simp] theorem State.modMe_power (f : Ctx → Ctx) : (s.modMe f).power = s.power := rfl
@[simp] theorem State.modMe_hostRead (f : Ctx → Ctx) : (s.modMe f).hostRead = s.hostRead := rfl

/-! ## Pending results and the end of a slot -/

@[simp] theorem Ctx.push_drops (c : Ctx) (due : Nat) (r : Res) (cnt : Bool) (chain : Nat) (h : c.drops r = true) :
    c.push due r cnt chain = c := by simp [Ctx.push, h]
theorem Ctx.push_keeps (c : Ctx) (due : Nat) (r : Res) (cnt : Bool) (chain : Nat) (h : c.drops r = false) :
    c.push due r cnt chain = { c with pend := c.pend ++ [⟨due, c.idx, cnt, chain, r⟩] } := by simp [Ctx.push, h]
@[simp] theorem State.commit_freeN : s.commit.freeN = s.freeN + 1 := rfl
@[simp] theorem State.commit_me : s.commit.me = { s.me with todo := s.me.todo.tail } := 
  Tab.get_put_same _ _ _ _
@[simp] theorem State.commit_cur : s.commit.cur = s.cur := rfl
@[simp] theorem State.commit_cycle : s.commit.cycle = s.cycle := rfl
@[simp] theorem State.commit_turn : s.commit.turn = s.turn := rfl
@[simp] theorem State.commit_inbox : s.commit.inbox = s.inbox := rfl
@[simp] theorem State.commit_pace : s.commit.pace = s.pace := rfl
@[simp] theorem State.commit_cores : s.commit.cores = s.cores := rfl
@[simp] theorem State.commit_clus : s.commit.clus = s.clus := rfl
@[simp] theorem State.commit_dies : s.commit.dies = s.dies := rfl
@[simp] theorem State.commit_parts : s.commit.parts = s.parts := rfl
@[simp] theorem State.commit_streams : s.commit.streams = s.streams := rfl
@[simp] theorem State.commit_launches : s.commit.launches = s.launches := rfl
@[simp] theorem State.commit_ports : s.commit.ports = s.ports := rfl
@[simp] theorem State.commit_dram : s.commit.dram = s.dram := rfl
@[simp] theorem State.commit_host : s.commit.host = s.host := rfl
@[simp] theorem State.commit_dtags : s.commit.dtags = s.dtags := rfl
@[simp] theorem State.commit_dpois : s.commit.dpois = s.dpois := rfl
@[simp] theorem State.commit_hpois : s.commit.hpois = s.hpois := rfl
@[simp] theorem State.commit_wbuf : s.commit.wbuf = s.wbuf := rfl
@[simp] theorem State.commit_invals : s.commit.invals = s.invals := rfl
@[simp] theorem State.commit_invalNo : s.commit.invalNo = s.invalNo := rfl
@[simp] theorem State.commit_placeNo : s.commit.placeNo = s.placeNo := rfl
@[simp] theorem State.commit_launchNo : s.commit.launchNo = s.launchNo := rfl
@[simp] theorem State.commit_copyNo : s.commit.copyNo = s.copyNo := rfl
@[simp] theorem State.commit_ready : s.commit.ready = s.ready := rfl
@[simp] theorem State.commit_recov : s.commit.recov = s.recov := rfl
@[simp] theorem State.commit_slotB : s.commit.slotB = s.slotB := rfl
@[simp] theorem State.commit_therm : s.commit.therm = s.therm := rfl
@[simp] theorem State.commit_fwsvn : s.commit.fwsvn = s.fwsvn := rfl
@[simp] theorem State.commit_devid : s.commit.devid = s.devid := rfl
@[simp] theorem State.commit_pwrcap : s.commit.pwrcap = s.pwrcap := rfl
@[simp] theorem State.commit_mbop : s.commit.mbop = s.mbop := rfl
@[simp] theorem State.commit_mbarg : s.commit.mbarg = s.mbarg := rfl
@[simp] theorem State.commit_mbsnap : s.commit.mbsnap = s.mbsnap := rfl
@[simp] theorem State.commit_mbbusy : s.commit.mbbusy = s.mbbusy := rfl
@[simp] theorem State.commit_mbdone : s.commit.mbdone = s.mbdone := rfl
@[simp] theorem State.commit_mberr : s.commit.mberr = s.mberr := rfl
@[simp] theorem State.commit_mblen : s.commit.mblen = s.mblen := rfl
@[simp] theorem State.commit_mbdata : s.commit.mbdata = s.mbdata := rfl
@[simp] theorem State.commit_flash : s.commit.flash = s.flash := rfl
@[simp] theorem State.commit_devlog : s.commit.devlog = s.devlog := rfl
@[simp] theorem State.commit_devdrop : s.commit.devdrop = s.devdrop := rfl
@[simp] theorem State.commit_devseq : s.commit.devseq = s.devseq := rfl
@[simp] theorem State.commit_irqs : s.commit.irqs = s.irqs := rfl
@[simp] theorem State.commit_telem : s.commit.telem = s.telem := rfl
@[simp] theorem State.commit_watts : s.commit.watts = s.watts := rfl
@[simp] theorem State.commit_power : s.commit.power = s.power := rfl
@[simp] theorem State.commit_hostRead : s.commit.hostRead = s.hostRead := rfl
@[simp] theorem State.result_cur (c : LatClass) (r : Res) (b : Bool) (n : Nat) : (s.result c r b n).cur = s.cur := rfl
@[simp] theorem State.resultNext_cur (r : Res) : (s.resultNext r).cur = s.cur := rfl
@[simp] theorem State.flag_cur (f : Flags) : (s.flag f).cur = s.cur := rfl
@[simp] theorem State.contract_cur (f : BitVec 3) : (s.contract f).cur = s.cur := rfl
@[simp] theorem State.result_cycle (c : LatClass) (r : Res) (b : Bool) (n : Nat) : (s.result c r b n).cycle = s.cycle := rfl
@[simp] theorem State.resultNext_cycle (r : Res) : (s.resultNext r).cycle = s.cycle := rfl
@[simp] theorem State.flag_cycle (f : Flags) : (s.flag f).cycle = s.cycle := rfl
@[simp] theorem State.contract_cycle (f : BitVec 3) : (s.contract f).cycle = s.cycle := rfl
@[simp] theorem State.result_turn (c : LatClass) (r : Res) (b : Bool) (n : Nat) : (s.result c r b n).turn = s.turn := rfl
@[simp] theorem State.resultNext_turn (r : Res) : (s.resultNext r).turn = s.turn := rfl
@[simp] theorem State.flag_turn (f : Flags) : (s.flag f).turn = s.turn := rfl
@[simp] theorem State.contract_turn (f : BitVec 3) : (s.contract f).turn = s.turn := rfl
@[simp] theorem State.result_inbox (c : LatClass) (r : Res) (b : Bool) (n : Nat) : (s.result c r b n).inbox = s.inbox := rfl
@[simp] theorem State.result_pace (c : LatClass) (r : Res) (b : Bool) (n : Nat) : (s.result c r b n).pace = s.pace := rfl
@[simp] theorem State.resultNext_inbox (r : Res) : (s.resultNext r).inbox = s.inbox := rfl
@[simp] theorem State.resultNext_pace (r : Res) : (s.resultNext r).pace = s.pace := rfl
@[simp] theorem State.flag_inbox (f : Flags) : (s.flag f).inbox = s.inbox := rfl
@[simp] theorem State.flag_pace (f : Flags) : (s.flag f).pace = s.pace := rfl
@[simp] theorem State.contract_inbox (f : BitVec 3) : (s.contract f).inbox = s.inbox := rfl
@[simp] theorem State.contract_pace (f : BitVec 3) : (s.contract f).pace = s.pace := rfl
@[simp] theorem State.result_freeN (c : LatClass) (r : Res) (b : Bool) (n : Nat) : (s.result c r b n).freeN = s.freeN := rfl
@[simp] theorem State.resultNext_freeN (r : Res) : (s.resultNext r).freeN = s.freeN := rfl
@[simp] theorem State.flag_freeN (f : Flags) : (s.flag f).freeN = s.freeN := rfl
@[simp] theorem State.contract_freeN (f : BitVec 3) : (s.contract f).freeN = s.freeN := rfl
@[simp] theorem State.result_cores (c : LatClass) (r : Res) (b : Bool) (n : Nat) : (s.result c r b n).cores = s.cores := rfl
@[simp] theorem State.resultNext_cores (r : Res) : (s.resultNext r).cores = s.cores := rfl
@[simp] theorem State.flag_cores (f : Flags) : (s.flag f).cores = s.cores := rfl
@[simp] theorem State.contract_cores (f : BitVec 3) : (s.contract f).cores = s.cores := rfl
@[simp] theorem State.result_clus (c : LatClass) (r : Res) (b : Bool) (n : Nat) : (s.result c r b n).clus = s.clus := rfl
@[simp] theorem State.resultNext_clus (r : Res) : (s.resultNext r).clus = s.clus := rfl
@[simp] theorem State.flag_clus (f : Flags) : (s.flag f).clus = s.clus := rfl
@[simp] theorem State.contract_clus (f : BitVec 3) : (s.contract f).clus = s.clus := rfl
@[simp] theorem State.result_dies (c : LatClass) (r : Res) (b : Bool) (n : Nat) : (s.result c r b n).dies = s.dies := rfl
@[simp] theorem State.resultNext_dies (r : Res) : (s.resultNext r).dies = s.dies := rfl
@[simp] theorem State.flag_dies (f : Flags) : (s.flag f).dies = s.dies := rfl
@[simp] theorem State.contract_dies (f : BitVec 3) : (s.contract f).dies = s.dies := rfl
@[simp] theorem State.result_parts (c : LatClass) (r : Res) (b : Bool) (n : Nat) : (s.result c r b n).parts = s.parts := rfl
@[simp] theorem State.resultNext_parts (r : Res) : (s.resultNext r).parts = s.parts := rfl
@[simp] theorem State.flag_parts (f : Flags) : (s.flag f).parts = s.parts := rfl
@[simp] theorem State.contract_parts (f : BitVec 3) : (s.contract f).parts = s.parts := rfl
@[simp] theorem State.result_streams (c : LatClass) (r : Res) (b : Bool) (n : Nat) : (s.result c r b n).streams = s.streams := rfl
@[simp] theorem State.resultNext_streams (r : Res) : (s.resultNext r).streams = s.streams := rfl
@[simp] theorem State.flag_streams (f : Flags) : (s.flag f).streams = s.streams := rfl
@[simp] theorem State.contract_streams (f : BitVec 3) : (s.contract f).streams = s.streams := rfl
@[simp] theorem State.result_launches (c : LatClass) (r : Res) (b : Bool) (n : Nat) : (s.result c r b n).launches = s.launches := rfl
@[simp] theorem State.resultNext_launches (r : Res) : (s.resultNext r).launches = s.launches := rfl
@[simp] theorem State.flag_launches (f : Flags) : (s.flag f).launches = s.launches := rfl
@[simp] theorem State.contract_launches (f : BitVec 3) : (s.contract f).launches = s.launches := rfl
@[simp] theorem State.result_ports (c : LatClass) (r : Res) (b : Bool) (n : Nat) : (s.result c r b n).ports = s.ports := rfl
@[simp] theorem State.resultNext_ports (r : Res) : (s.resultNext r).ports = s.ports := rfl
@[simp] theorem State.flag_ports (f : Flags) : (s.flag f).ports = s.ports := rfl
@[simp] theorem State.contract_ports (f : BitVec 3) : (s.contract f).ports = s.ports := rfl
@[simp] theorem State.result_dram (c : LatClass) (r : Res) (b : Bool) (n : Nat) : (s.result c r b n).dram = s.dram := rfl
@[simp] theorem State.resultNext_dram (r : Res) : (s.resultNext r).dram = s.dram := rfl
@[simp] theorem State.flag_dram (f : Flags) : (s.flag f).dram = s.dram := rfl
@[simp] theorem State.contract_dram (f : BitVec 3) : (s.contract f).dram = s.dram := rfl
@[simp] theorem State.result_host (c : LatClass) (r : Res) (b : Bool) (n : Nat) : (s.result c r b n).host = s.host := rfl
@[simp] theorem State.resultNext_host (r : Res) : (s.resultNext r).host = s.host := rfl
@[simp] theorem State.flag_host (f : Flags) : (s.flag f).host = s.host := rfl
@[simp] theorem State.contract_host (f : BitVec 3) : (s.contract f).host = s.host := rfl
@[simp] theorem State.result_dtags (c : LatClass) (r : Res) (b : Bool) (n : Nat) : (s.result c r b n).dtags = s.dtags := rfl
@[simp] theorem State.resultNext_dtags (r : Res) : (s.resultNext r).dtags = s.dtags := rfl
@[simp] theorem State.flag_dtags (f : Flags) : (s.flag f).dtags = s.dtags := rfl
@[simp] theorem State.contract_dtags (f : BitVec 3) : (s.contract f).dtags = s.dtags := rfl
@[simp] theorem State.result_dpois (c : LatClass) (r : Res) (b : Bool) (n : Nat) : (s.result c r b n).dpois = s.dpois := rfl
@[simp] theorem State.resultNext_dpois (r : Res) : (s.resultNext r).dpois = s.dpois := rfl
@[simp] theorem State.flag_dpois (f : Flags) : (s.flag f).dpois = s.dpois := rfl
@[simp] theorem State.contract_dpois (f : BitVec 3) : (s.contract f).dpois = s.dpois := rfl
@[simp] theorem State.result_hpois (c : LatClass) (r : Res) (b : Bool) (n : Nat) : (s.result c r b n).hpois = s.hpois := rfl
@[simp] theorem State.resultNext_hpois (r : Res) : (s.resultNext r).hpois = s.hpois := rfl
@[simp] theorem State.flag_hpois (f : Flags) : (s.flag f).hpois = s.hpois := rfl
@[simp] theorem State.contract_hpois (f : BitVec 3) : (s.contract f).hpois = s.hpois := rfl
@[simp] theorem State.result_wbuf (c : LatClass) (r : Res) (b : Bool) (n : Nat) : (s.result c r b n).wbuf = s.wbuf := rfl
@[simp] theorem State.resultNext_wbuf (r : Res) : (s.resultNext r).wbuf = s.wbuf := rfl
@[simp] theorem State.flag_wbuf (f : Flags) : (s.flag f).wbuf = s.wbuf := rfl
@[simp] theorem State.contract_wbuf (f : BitVec 3) : (s.contract f).wbuf = s.wbuf := rfl
@[simp] theorem State.result_invals (c : LatClass) (r : Res) (b : Bool) (n : Nat) : (s.result c r b n).invals = s.invals := rfl
@[simp] theorem State.resultNext_invals (r : Res) : (s.resultNext r).invals = s.invals := rfl
@[simp] theorem State.flag_invals (f : Flags) : (s.flag f).invals = s.invals := rfl
@[simp] theorem State.contract_invals (f : BitVec 3) : (s.contract f).invals = s.invals := rfl
@[simp] theorem State.result_invalNo (c : LatClass) (r : Res) (b : Bool) (n : Nat) : (s.result c r b n).invalNo = s.invalNo := rfl
@[simp] theorem State.resultNext_invalNo (r : Res) : (s.resultNext r).invalNo = s.invalNo := rfl
@[simp] theorem State.flag_invalNo (f : Flags) : (s.flag f).invalNo = s.invalNo := rfl
@[simp] theorem State.contract_invalNo (f : BitVec 3) : (s.contract f).invalNo = s.invalNo := rfl
@[simp] theorem State.result_placeNo (c : LatClass) (r : Res) (b : Bool) (n : Nat) : (s.result c r b n).placeNo = s.placeNo := rfl
@[simp] theorem State.resultNext_placeNo (r : Res) : (s.resultNext r).placeNo = s.placeNo := rfl
@[simp] theorem State.flag_placeNo (f : Flags) : (s.flag f).placeNo = s.placeNo := rfl
@[simp] theorem State.contract_placeNo (f : BitVec 3) : (s.contract f).placeNo = s.placeNo := rfl
@[simp] theorem State.result_launchNo (c : LatClass) (r : Res) (b : Bool) (n : Nat) : (s.result c r b n).launchNo = s.launchNo := rfl
@[simp] theorem State.result_copyNo (c : LatClass) (r : Res) (b : Bool) (n : Nat) : (s.result c r b n).copyNo = s.copyNo := rfl
@[simp] theorem State.resultNext_launchNo (r : Res) : (s.resultNext r).launchNo = s.launchNo := rfl
@[simp] theorem State.resultNext_copyNo (r : Res) : (s.resultNext r).copyNo = s.copyNo := rfl
@[simp] theorem State.flag_launchNo (f : Flags) : (s.flag f).launchNo = s.launchNo := rfl
@[simp] theorem State.flag_copyNo (f : Flags) : (s.flag f).copyNo = s.copyNo := rfl
@[simp] theorem State.contract_launchNo (f : BitVec 3) : (s.contract f).launchNo = s.launchNo := rfl
@[simp] theorem State.contract_copyNo (f : BitVec 3) : (s.contract f).copyNo = s.copyNo := rfl
@[simp] theorem State.result_ready (c : LatClass) (r : Res) (b : Bool) (n : Nat) : (s.result c r b n).ready = s.ready := rfl
@[simp] theorem State.resultNext_ready (r : Res) : (s.resultNext r).ready = s.ready := rfl
@[simp] theorem State.flag_ready (f : Flags) : (s.flag f).ready = s.ready := rfl
@[simp] theorem State.contract_ready (f : BitVec 3) : (s.contract f).ready = s.ready := rfl
@[simp] theorem State.result_recov (c : LatClass) (r : Res) (b : Bool) (n : Nat) : (s.result c r b n).recov = s.recov := rfl
@[simp] theorem State.resultNext_recov (r : Res) : (s.resultNext r).recov = s.recov := rfl
@[simp] theorem State.flag_recov (f : Flags) : (s.flag f).recov = s.recov := rfl
@[simp] theorem State.contract_recov (f : BitVec 3) : (s.contract f).recov = s.recov := rfl
@[simp] theorem State.result_slotB (c : LatClass) (r : Res) (b : Bool) (n : Nat) : (s.result c r b n).slotB = s.slotB := rfl
@[simp] theorem State.resultNext_slotB (r : Res) : (s.resultNext r).slotB = s.slotB := rfl
@[simp] theorem State.flag_slotB (f : Flags) : (s.flag f).slotB = s.slotB := rfl
@[simp] theorem State.contract_slotB (f : BitVec 3) : (s.contract f).slotB = s.slotB := rfl
@[simp] theorem State.result_therm (c : LatClass) (r : Res) (b : Bool) (n : Nat) : (s.result c r b n).therm = s.therm := rfl
@[simp] theorem State.resultNext_therm (r : Res) : (s.resultNext r).therm = s.therm := rfl
@[simp] theorem State.flag_therm (f : Flags) : (s.flag f).therm = s.therm := rfl
@[simp] theorem State.contract_therm (f : BitVec 3) : (s.contract f).therm = s.therm := rfl
@[simp] theorem State.result_fwsvn (c : LatClass) (r : Res) (b : Bool) (n : Nat) : (s.result c r b n).fwsvn = s.fwsvn := rfl
@[simp] theorem State.resultNext_fwsvn (r : Res) : (s.resultNext r).fwsvn = s.fwsvn := rfl
@[simp] theorem State.flag_fwsvn (f : Flags) : (s.flag f).fwsvn = s.fwsvn := rfl
@[simp] theorem State.contract_fwsvn (f : BitVec 3) : (s.contract f).fwsvn = s.fwsvn := rfl
@[simp] theorem State.result_devid (c : LatClass) (r : Res) (b : Bool) (n : Nat) : (s.result c r b n).devid = s.devid := rfl
@[simp] theorem State.resultNext_devid (r : Res) : (s.resultNext r).devid = s.devid := rfl
@[simp] theorem State.flag_devid (f : Flags) : (s.flag f).devid = s.devid := rfl
@[simp] theorem State.contract_devid (f : BitVec 3) : (s.contract f).devid = s.devid := rfl
@[simp] theorem State.result_pwrcap (c : LatClass) (r : Res) (b : Bool) (n : Nat) : (s.result c r b n).pwrcap = s.pwrcap := rfl
@[simp] theorem State.resultNext_pwrcap (r : Res) : (s.resultNext r).pwrcap = s.pwrcap := rfl
@[simp] theorem State.flag_pwrcap (f : Flags) : (s.flag f).pwrcap = s.pwrcap := rfl
@[simp] theorem State.contract_pwrcap (f : BitVec 3) : (s.contract f).pwrcap = s.pwrcap := rfl
@[simp] theorem State.result_mbop (c : LatClass) (r : Res) (b : Bool) (n : Nat) : (s.result c r b n).mbop = s.mbop := rfl
@[simp] theorem State.resultNext_mbop (r : Res) : (s.resultNext r).mbop = s.mbop := rfl
@[simp] theorem State.flag_mbop (f : Flags) : (s.flag f).mbop = s.mbop := rfl
@[simp] theorem State.contract_mbop (f : BitVec 3) : (s.contract f).mbop = s.mbop := rfl
@[simp] theorem State.result_mbarg (c : LatClass) (r : Res) (b : Bool) (n : Nat) : (s.result c r b n).mbarg = s.mbarg := rfl
@[simp] theorem State.resultNext_mbarg (r : Res) : (s.resultNext r).mbarg = s.mbarg := rfl
@[simp] theorem State.flag_mbarg (f : Flags) : (s.flag f).mbarg = s.mbarg := rfl
@[simp] theorem State.contract_mbarg (f : BitVec 3) : (s.contract f).mbarg = s.mbarg := rfl
@[simp] theorem State.result_mbsnap (c : LatClass) (r : Res) (b : Bool) (n : Nat) : (s.result c r b n).mbsnap = s.mbsnap := rfl
@[simp] theorem State.resultNext_mbsnap (r : Res) : (s.resultNext r).mbsnap = s.mbsnap := rfl
@[simp] theorem State.flag_mbsnap (f : Flags) : (s.flag f).mbsnap = s.mbsnap := rfl
@[simp] theorem State.contract_mbsnap (f : BitVec 3) : (s.contract f).mbsnap = s.mbsnap := rfl
@[simp] theorem State.result_mbbusy (c : LatClass) (r : Res) (b : Bool) (n : Nat) : (s.result c r b n).mbbusy = s.mbbusy := rfl
@[simp] theorem State.resultNext_mbbusy (r : Res) : (s.resultNext r).mbbusy = s.mbbusy := rfl
@[simp] theorem State.flag_mbbusy (f : Flags) : (s.flag f).mbbusy = s.mbbusy := rfl
@[simp] theorem State.contract_mbbusy (f : BitVec 3) : (s.contract f).mbbusy = s.mbbusy := rfl
@[simp] theorem State.result_mbdone (c : LatClass) (r : Res) (b : Bool) (n : Nat) : (s.result c r b n).mbdone = s.mbdone := rfl
@[simp] theorem State.resultNext_mbdone (r : Res) : (s.resultNext r).mbdone = s.mbdone := rfl
@[simp] theorem State.flag_mbdone (f : Flags) : (s.flag f).mbdone = s.mbdone := rfl
@[simp] theorem State.contract_mbdone (f : BitVec 3) : (s.contract f).mbdone = s.mbdone := rfl
@[simp] theorem State.result_mberr (c : LatClass) (r : Res) (b : Bool) (n : Nat) : (s.result c r b n).mberr = s.mberr := rfl
@[simp] theorem State.resultNext_mberr (r : Res) : (s.resultNext r).mberr = s.mberr := rfl
@[simp] theorem State.flag_mberr (f : Flags) : (s.flag f).mberr = s.mberr := rfl
@[simp] theorem State.contract_mberr (f : BitVec 3) : (s.contract f).mberr = s.mberr := rfl
@[simp] theorem State.result_mblen (c : LatClass) (r : Res) (b : Bool) (n : Nat) : (s.result c r b n).mblen = s.mblen := rfl
@[simp] theorem State.resultNext_mblen (r : Res) : (s.resultNext r).mblen = s.mblen := rfl
@[simp] theorem State.flag_mblen (f : Flags) : (s.flag f).mblen = s.mblen := rfl
@[simp] theorem State.contract_mblen (f : BitVec 3) : (s.contract f).mblen = s.mblen := rfl
@[simp] theorem State.result_mbdata (c : LatClass) (r : Res) (b : Bool) (n : Nat) : (s.result c r b n).mbdata = s.mbdata := rfl
@[simp] theorem State.resultNext_mbdata (r : Res) : (s.resultNext r).mbdata = s.mbdata := rfl
@[simp] theorem State.flag_mbdata (f : Flags) : (s.flag f).mbdata = s.mbdata := rfl
@[simp] theorem State.contract_mbdata (f : BitVec 3) : (s.contract f).mbdata = s.mbdata := rfl
@[simp] theorem State.result_flash (c : LatClass) (r : Res) (b : Bool) (n : Nat) : (s.result c r b n).flash = s.flash := rfl
@[simp] theorem State.resultNext_flash (r : Res) : (s.resultNext r).flash = s.flash := rfl
@[simp] theorem State.flag_flash (f : Flags) : (s.flag f).flash = s.flash := rfl
@[simp] theorem State.contract_flash (f : BitVec 3) : (s.contract f).flash = s.flash := rfl
@[simp] theorem State.result_devlog (c : LatClass) (r : Res) (b : Bool) (n : Nat) : (s.result c r b n).devlog = s.devlog := rfl
@[simp] theorem State.resultNext_devlog (r : Res) : (s.resultNext r).devlog = s.devlog := rfl
@[simp] theorem State.flag_devlog (f : Flags) : (s.flag f).devlog = s.devlog := rfl
@[simp] theorem State.contract_devlog (f : BitVec 3) : (s.contract f).devlog = s.devlog := rfl
@[simp] theorem State.result_devdrop (c : LatClass) (r : Res) (b : Bool) (n : Nat) : (s.result c r b n).devdrop = s.devdrop := rfl
@[simp] theorem State.resultNext_devdrop (r : Res) : (s.resultNext r).devdrop = s.devdrop := rfl
@[simp] theorem State.flag_devdrop (f : Flags) : (s.flag f).devdrop = s.devdrop := rfl
@[simp] theorem State.contract_devdrop (f : BitVec 3) : (s.contract f).devdrop = s.devdrop := rfl
@[simp] theorem State.result_devseq (c : LatClass) (r : Res) (b : Bool) (n : Nat) : (s.result c r b n).devseq = s.devseq := rfl
@[simp] theorem State.resultNext_devseq (r : Res) : (s.resultNext r).devseq = s.devseq := rfl
@[simp] theorem State.flag_devseq (f : Flags) : (s.flag f).devseq = s.devseq := rfl
@[simp] theorem State.contract_devseq (f : BitVec 3) : (s.contract f).devseq = s.devseq := rfl
@[simp] theorem State.result_irqs (c : LatClass) (r : Res) (b : Bool) (n : Nat) : (s.result c r b n).irqs = s.irqs := rfl
@[simp] theorem State.resultNext_irqs (r : Res) : (s.resultNext r).irqs = s.irqs := rfl
@[simp] theorem State.flag_irqs (f : Flags) : (s.flag f).irqs = s.irqs := rfl
@[simp] theorem State.contract_irqs (f : BitVec 3) : (s.contract f).irqs = s.irqs := rfl
@[simp] theorem State.result_telem (c : LatClass) (r : Res) (b : Bool) (n : Nat) : (s.result c r b n).telem = s.telem := rfl
@[simp] theorem State.resultNext_telem (r : Res) : (s.resultNext r).telem = s.telem := rfl
@[simp] theorem State.flag_telem (f : Flags) : (s.flag f).telem = s.telem := rfl
@[simp] theorem State.contract_telem (f : BitVec 3) : (s.contract f).telem = s.telem := rfl
@[simp] theorem State.result_watts (c : LatClass) (r : Res) (b : Bool) (n : Nat) : (s.result c r b n).watts = s.watts := rfl
@[simp] theorem State.resultNext_watts (r : Res) : (s.resultNext r).watts = s.watts := rfl
@[simp] theorem State.flag_watts (f : Flags) : (s.flag f).watts = s.watts := rfl
@[simp] theorem State.contract_watts (f : BitVec 3) : (s.contract f).watts = s.watts := rfl
@[simp] theorem State.result_power (c : LatClass) (r : Res) (b : Bool) (n : Nat) : (s.result c r b n).power = s.power := rfl
@[simp] theorem State.resultNext_power (r : Res) : (s.resultNext r).power = s.power := rfl
@[simp] theorem State.flag_power (f : Flags) : (s.flag f).power = s.power := rfl
@[simp] theorem State.contract_power (f : BitVec 3) : (s.contract f).power = s.power := rfl
@[simp] theorem State.result_hostRead (c : LatClass) (r : Res) (b : Bool) (n : Nat) : (s.result c r b n).hostRead = s.hostRead := rfl
@[simp] theorem State.resultNext_hostRead (r : Res) : (s.resultNext r).hostRead = s.hostRead := rfl
@[simp] theorem State.flag_hostRead (f : Flags) : (s.flag f).hostRead = s.hostRead := rfl
@[simp] theorem State.contract_hostRead (f : BitVec 3) : (s.contract f).hostRead = s.hostRead := rfl
@[simp] theorem State.result_me (c : LatClass) (r : Res) (b : Bool) (n : Nat) :
    (s.result c r b n).me = s.me.push (s.me.idx + s.lat s.cur c) r b n := by simp [State.result]
@[simp] theorem State.resultNext_me (r : Res) : (s.resultNext r).me = s.me.push (s.me.idx + 1) r false := by
  simp [State.resultNext]
@[simp] theorem State.flag_me (f : Flags) :
    (s.flag f).me = { s.me with csr := { s.me.csr with nstat := s.me.csr.nstat ||| f } } := by simp [State.flag]
@[simp] theorem State.contract_me (f : BitVec 3) :
    (s.contract f).me = { s.me with csr := { s.me.csr with cstat := s.me.csr.cstat ||| f } } := by simp [State.contract]

end Sys2Proof.Machine
end

