-- ==== Sys2Proof/Laws/Slot.lean ====
section
/-! SUPPORT. What the shared operations of the slots can do, each said once: the frame of a slot, waits, handles, scalar
destinations, taking an exception and returning from one. -/

namespace Sys2Proof.Machine

open Sys2Proof

/-! ## The frame of a slot -/

/-- A slot whose sources are there, whose guard is on, whose body commits and whose results fit commits with the body's
state. -/
theorem runSlot_ok {s s1 s2 : State} {m : Common} {lit : Lit} {srcs : List Src} {p : Bool} {cnt : Nat × Nat}
    {body : State → List Word → SlotR} {vs : List Word} (hs : s.srcs lit srcs = some (s1, vs))
    (hg : s.me.guardOn m = true) (ho : s.me.over cnt = false) (hb : body s1 vs = .ok s2) :
    runSlot s m lit srcs p cnt body = .next s2.commit := by
  simp [runSlot, hs, hg, hb, ho]

/-- A slot that is guarded off takes its message-queue entries, pushes 0 to the result queue if that is its destination, and
commits. -/
theorem runSlot_off {s s1 : State} {m : Common} {lit : Lit} {srcs : List Src} {p : Bool} {cnt : Nat × Nat}
    {body : State → List Word → SlotR} {vs : List Word} (hs : s.srcs lit srcs = some (s1, vs))
    (hg : s.me.guardOn m = false) :
    runSlot s m lit srcs p cnt body = .next (if p then s1.pushZero else s1).commit := by
  simp [runSlot, hs, hg]

/-- A slot that meets ILLENC in its operands takes it whatever its guard. -/
theorem runSlot_illenc {s s1 : State} {m : Common} {lit : Lit} {srcs : List Src} {p : Bool} {cnt : Nat × Nat}
    {body : State → List Word → SlotR} {bad : List Word → Bool} {vs : List Word} (hs : s.srcs lit srcs = some (s1, vs))
    (hb : bad vs = true) : runSlot s m lit srcs p cnt body bad = .next (s.takeTrap s.cur (trapOf cIllenc)) := by
  simp [runSlot, hs, hb]

/-- A slot that pops an empty queue blocks its context. -/
theorem runSlot_empty {s : State} {m : Common} {lit : Lit} {srcs : List Src} {p : Bool} {cnt : Nat × Nat}
    {body : State → List Word → SlotR} (hs : s.srcs lit srcs = none) :
    runSlot s m lit srcs p cnt body = .next (s.block s.cur) := by
  simp [runSlot, hs]

theorem runSlot_block {s s1 : State} {m : Common} {lit : Lit} {srcs : List Src} {p : Bool} {cnt : Nat × Nat}
    {body : State → List Word → SlotR} {vs : List Word} (hs : s.srcs lit srcs = some (s1, vs))
    (hg : s.me.guardOn m = true) (hb : body s1 vs = .block) :
    runSlot s m lit srcs p cnt body = .next (s.block s.cur) := by
  simp [runSlot, hs, hg, hb]

theorem runSlot_stall {s s1 : State} {m : Common} {lit : Lit} {srcs : List Src} {p : Bool} {cnt : Nat × Nat}
    {body : State → List Word → SlotR} {vs : List Word} (hs : s.srcs lit srcs = some (s1, vs))
    (hg : s.me.guardOn m = true) (hb : body s1 vs = .stall) :
    runSlot s m lit srcs p cnt body = .next s := by
  simp [runSlot, hs, hg, hb]

/-- A slot whose body traps takes the exception from the state before the slot. -/
theorem runSlot_trap {s s1 : State} {m : Common} {lit : Lit} {srcs : List Src} {p : Bool} {cnt : Nat × Nat}
    {body : State → List Word → SlotR} {vs : List Word} {t : Trap} (hs : s.srcs lit srcs = some (s1, vs))
    (hg : s.me.guardOn m = true) (ho : s.me.over cnt = false) (hb : body s1 vs = .trap t) :
    runSlot s m lit srcs p cnt body = .next (s.takeTrap s.cur t) := by
  simp [runSlot, hs, hg, hb, ho]

/-- A slot with more results than R42 allows takes ILLOP. -/
theorem runSlot_over {s s1 s2 : State} {m : Common} {lit : Lit} {srcs : List Src} {p : Bool} {cnt : Nat × Nat}
    {body : State → List Word → SlotR} {vs : List Word} (hs : s.srcs lit srcs = some (s1, vs))
    (hg : s.me.guardOn m = true) (ho : s.me.over cnt = true) (hb : body s1 vs = .ok s2) :
    runSlot s m lit srcs p cnt body = .next (s.takeTrap s.cur (trapOf cIllop)) := by
  simp [runSlot, hs, hg, hb, ho]

/-- EVERYTHING A SLOT CAN DO: commit with its body's state, take an exception, block, stay as it is, or, guarded off, only
pop and push 0. -/
theorem runSlot_cases (s : State) (m : Common) (lit : Lit) (srcs : List Src) (p : Bool) (cnt : Nat × Nat)
    (body : State → List Word → SlotR) :
    (∃ s1 vs s2, s.srcs lit srcs = some (s1, vs) ∧ s.me.guardOn m = true ∧ s.me.over cnt = false ∧ body s1 vs = .ok s2 ∧
      runSlot s m lit srcs p cnt body = .next s2.commit) ∨
    (∃ t, runSlot s m lit srcs p cnt body = .next (s.takeTrap s.cur t)) ∨
    runSlot s m lit srcs p cnt body = .next (s.block s.cur) ∨
    runSlot s m lit srcs p cnt body = .next s ∨
    (∃ s1 vs, s.srcs lit srcs = some (s1, vs) ∧ s.me.guardOn m = false ∧
      runSlot s m lit srcs p cnt body = .next (if p then s1.pushZero else s1).commit) := by
  cases hs : s.srcs lit srcs with
  | none => exact .inr (.inr (.inl (runSlot_empty hs)))
  | some q =>
    obtain ⟨s1, vs⟩ := q
    cases hg : s.me.guardOn m with
    | false =>
      exact .inr (.inr (.inr (.inr ⟨s1, vs, rfl, rfl, runSlot_off hs hg⟩)))
    | true =>
      cases hb : body s1 vs with
      | block => exact .inr (.inr (.inl (runSlot_block hs hg hb)))
      | stall => exact .inr (.inr (.inr (.inl (runSlot_stall hs hg hb))))
      | trap t =>
        refine .inr (.inl ?_)
        simp only [runSlot, hs, hg, hb, if_true, Bool.false_eq_true, if_false]
        split <;> exact ⟨_, rfl⟩
      | ok s2 =>
        cases ho : s.me.over cnt with
        | true => exact .inr (.inl ⟨_, runSlot_over hs hg ho hb⟩)
        | false => exact .inl ⟨s1, vs, s2, rfl, rfl, rfl, hb, runSlot_ok hs hg ho hb⟩

/-- A slot always answers a next state. -/
theorem runSlot_next (s : State) (m : Common) (lit : Lit) (srcs : List Src) (p : Bool) (cnt : Nat × Nat)
    (body : State → List Word → SlotR) : ∃ t, runSlot s m lit srcs p cnt body = .next t := by
  obtain ⟨_, _, s2, _, _, _, _, h⟩ | ⟨t, h⟩ | h | h | ⟨s1, _, _, _, h⟩ := runSlot_cases s m lit srcs p cnt body <;>
    exact ⟨_, h⟩

theorem scalarOp_next (s : State) (m : Common) (lit : Lit) (k : LatClass) (d : Dst) (srcs : List Src)
    (f : State → List Word → Word) : ∃ t, scalarOp s m lit k d srcs f = .next t := runSlot_next ..

theorem runHandle_next (s : State) (m : Common) (lit : Lit) (srcs : List Src) (cnt : Nat × Nat)
    (body : State → List Word → SlotR) : ∃ t, runHandle s m lit srcs cnt body = .next t := by
  obtain ⟨t, ht⟩ := runSlot_next s m lit srcs false cnt body
  simp only [runHandle, ht]
  split
  · split <;> exact ⟨_, rfl⟩
  · exact ⟨_, rfl⟩

theorem runWait_next (s : State) (m : Common) (pre : State → State × Bool) (run : State → Out)
    (h : ∀ s, ∃ t, run s = .next t) : ∃ t, runWait s m pre run = .next t := by
  simp only [runWait]
  split
  · split
    · exact ⟨_, rfl⟩
    · exact h _
  · exact h _

/-! ## Committing, results and destinations -/

/-- The state of a slot that has committed with results of one latency class and changed nothing else. -/
theorem State.result_commit (s : State) (k : LatClass) (r : Res) (cnt : Bool) (chain : Nat) :
    (s.result k r cnt chain).commit =
      { s with freeN := s.freeN + 1,
               ctxs := Tab.put s.cur { s.me.push (s.me.idx + s.lat s.cur k) r cnt chain with
                 todo := (s.me.push (s.me.idx + s.lat s.cur k) r cnt chain).todo.tail } s.ctxs } := by
  simp [State.result, State.commit, State.modMe, State.modCtx, State.setCtx, State.me, State.ctx]

@[simp] theorem Ctx.push_todo (c : Ctx) (due : Nat) (r : Res) (cnt : Bool) (chain : Nat) :
    (c.push due r cnt chain).todo = c.todo := by
  simp only [Ctx.push]; split <;> rfl

@[simp] theorem Ctx.push_idx (c : Ctx) (due : Nat) (r : Res) (cnt : Bool) (chain : Nat) :
    (c.push due r cnt chain).idx = c.idx := by
  simp only [Ctx.push]; split <;> rfl

theorem State.dst_x (s : State) (k : LatClass) (n : Fin 32) (v : Word) : s.dst k (.x n) v = .ok (s.result k (.x n.val v)) := rfl
theorem State.dst_q (s : State) (k : LatClass) (v : Word) : s.dst k .q v = .ok (s.result k (.q v)) := rfl

/-- A full inbound queue blocks; else the entry is its newest. -/
theorem State.dst_mq (s : State) (k : LatClass) (n : Fin 4) (v : Word) :
    s.dst k (.mq n) v = (match s.pushMq n.val v with | some s => .ok s | none => .block) := rfl

/-! ## Sources -/

theorem State.srcs_nil (s : State) (lit : Lit) : s.srcs lit [] = some (s, []) := rfl

theorem State.src_x (s : State) (lit : Lit) (n : Fin 32) :
    s.src lit (.x n) = some (s, if n.val = 0 then 0 else Tab.get 0 n.val s.me.x) := rfl

theorem State.src_lit (s : State) (v : BitVec 32) : s.src (some v) .lit = some (s, v.signExtend 64) := rfl

/-- A source that is not a message queue changes nothing. -/
theorem State.src_pure (s : State) (lit : Lit) (a : Src) (h : ∀ n, a ≠ .mq n) : ∃ v, s.src lit a = some (s, v) := by
  cases a with
  | mq n => exact absurd rfl (h n)
  | _ => exact ⟨_, rfl⟩

/-! ## Taking an exception and returning from one -/

@[simp] theorem State.modCore_ctx (s : State) (k j : Nat) (f : CoreSt → CoreSt) : (s.modCore k f).ctx j = s.ctx j := rfl
@[simp] theorem State.leaveStream_ctx (s : State) (g j : Nat) : (s.leaveStream g).ctx j = s.ctx j := rfl
@[simp] theorem State.irq_ctx (s : State) (v j : Nat) : (s.irq v).ctx j = s.ctx j := rfl

@[simp] theorem State.offer_ctx (s : State) (e : EvRec) (j : Nat) : (s.offer e).ctx j = s.ctx j := by
  simp only [State.offer]
  split
  · rfl
  · split <;> rfl

@[simp] theorem State.hostTrap_ctx (s : State) (g j : Nat) : (s.hostTrap g).ctx j = s.ctx j := by
  simp only [State.hostTrap]
  split <;> simp

theorem State.ctx_modCtx (s : State) (g j : Nat) (f : Ctx → Ctx) :
    (s.modCtx g f).ctx j = if j = g then f (s.ctx g) else s.ctx j := by
  simp [State.modCtx, State.ctx_setCtx]

/-- Routing a trap changes of a context at most TRCFG as its trap met it. -/
theorem State.route_ctx (s : State) (g cause : Nat) :
    ∃ w, (s.route g cause).ctx g = { s.ctx g with trcfg := w } := by
  simp only [State.route]
  split
  · exact ⟨_, by simp [State.ctx_modCtx]; rfl⟩
  · exact ⟨(s.ctx g).trcfg, by simp⟩

/-- THE CONTEXT AFTER A TRAP: TRAPPED, its trap status word filled, its pc unmoved, the bundle's remaining slots gone, its
registers and BIX as they were. -/
theorem State.takeTrap_ctx (s : State) (g : Nat) (t : Trap) :
    ∃ w, (s.takeTrap g t).ctx g =
      { s.ctx g with st := .trapped,
                     tsw0 := tsw0Of t (s.ctx g).view.strict ((s.ctx g).trapNb t) ((s.ctx g).trapSres t s.freeN),
                     tsw1 := (s.ctx g).pc, tsw2 := BitVec.ofNat 64 (s.ctx g).idx, tsw3 := t.addr, todo := [], slots := [],
                     resume := none, chBlk := false, yielding := false, resv := [], trcfg := w } := by
  simp only [State.takeTrap]
  obtain ⟨w, hw⟩ := State.route_ctx (({ (((s.giveBack g).modCtx g (fun c =>
    { c with st := .trapped, tsw0 := tsw0Of t c.view.strict ((s.ctx g).trapNb t) ((s.ctx g).trapSres t s.freeN),
             tsw1 := c.pc, tsw2 := BitVec.ofNat 64 c.idx,
             tsw3 := t.addr, todo := [], slots := [], resume := none, chBlk := false, yielding := false })).modCore (coreOf g)
               (fun q => { q with growQ := q.growQ.filter (fun i => i != g % 4) })) with
      freeN := (s.giveBack g).freeN + 1 } : State).leaveStream g) g t.cause
  refine ⟨w, hw.trans ?_⟩
  simp [State.ctx_modCtx, State.giveBack, State.ctx_freeN]

end Sys2Proof.Machine
end

