-- ==== Sys2Proof/Laws/Claims.lean ====
section
/-! SUPPORT. How the shared slot forms answer, in the terms of the obligations: an operation whose
sources are read and whose destination can take its result answers exactly the state that the
obligations write as `gives` (R31, R42, R194). -/

namespace Sys2Proof.Laws
open Sys2Proof Sys2Proof.Machine Sys2Proof.Claims

/-- A slot that gives no result leaves the state the claims call `done` with none (R42). -/
theorem done_nil (s : State) : s.commit = done s [] := by
  simp [State.commit, done, State.modMe, State.modCtx, State.setCtx, State.me, State.ctx]

/-- A result that is not dropped joins the pending ones (R31). -/
theorem result_done (s : State) (k : LatClass) (r : Res) (h : s.me.drops r = false) : (s.result k r).commit = done s (due s k r) := by
  rw [State.result_commit, Ctx.push_keeps _ _ _ _ _ h]; rfl

/-- A result to a discarded destination leaves only the slot's commit (R42). -/
theorem result_drop (s : State) (k : LatClass) (r : Res) (h : s.me.drops r = true) : (s.result k r).commit = done s [] := by
  rw [State.result_commit, Ctx.push_drops _ _ _ _ _ h]; simp [done]

/-- Every destination that can take a value takes it and commits as `gives` says (R31, R194). -/
theorem dst_gives (s : State) (k : LatClass) (d : Dst) (v : Word) (h : Takes s d) :
    ∃ t, s.dst k d v = .ok t ∧ t.commit = gives s k d v := by
  cases d with
  | x n =>
    refine ⟨_, rfl, ?_⟩
    by_cases hn : n.val = 0
    · simp only [gives, hn, if_true]; exact result_drop _ _ _ (by simp [Ctx.drops])
    · simp only [gives, hn, if_false]; exact result_done _ _ _ (by simp [Ctx.drops, hn])
  | q => exact ⟨_, rfl, result_done _ _ _ rfl⟩
  | mq n =>
    cases hp : s.pushMq n.val v with
    | none => exact absurd hp (h n v rfl)
    | some t => exact ⟨t, by simp [State.dst, hp], by simp [gives, hp, done_nil]⟩

/-- A scalar operation whose sources are read answers `gives` of its function (R194). -/
theorem scalarOp_gives {s s1 : State} {m : Common} {lit : Lit} {k : LatClass} {d : Dst} {srcs : List Src} {vs : List Word}
    (f : State → List Word → Word) (h : Goes s m lit srcs (dcnt d) s1 vs) (ht : Takes s1 d) :
    scalarOp s m lit k d srcs f = .next (gives s1 k d (f s1 vs)) := by
  obtain ⟨t, h1, h2⟩ := dst_gives s1 k d (f s1 vs) ht
  rw [scalarOp, runSlot_ok h.1 h.2.1 h.2.2 h1, h2]

end Sys2Proof.Laws
end

