-- ==== Sys2Proof/Laws/Encoding.lean ====
section
/-! SUPPORT. Fields of an encoded word: what a field reads of a word written as a sum of its fields, lowest first, and that
the decoder of every field code undoes its encoder. -/

namespace Sys2Proof.Laws

open Sys2Proof

/-! ## Fields of a sum -/

/-- A field below the last summand does not see it. -/
theorem bits_low {a b k lo w : Nat} (h : Nat.ble (lo + w) k = true) :
    bits (a + 2 ^ k * b) lo w = bits a lo w := by
  obtain ⟨d, rfl⟩ := Nat.exists_eq_add_of_le (Nat.le_of_ble_eq_true h)
  unfold bits
  rw [show 2 ^ (lo + w + d) * b = 2 ^ lo * (2 ^ w * (2 ^ d * b)) by rw [Nat.pow_add, Nat.pow_add]; ac_rfl,
    Nat.add_mul_div_left _ _ (Nat.two_pow_pos lo), Nat.add_mul_mod_self_left]

/-- The field where the last summand stands reads it. -/
theorem bits_top {a b lo w : Nat} (h : a < 2 ^ lo) (hb : b < 2 ^ w) : bits (a + 2 ^ lo * b) lo w = b := by
  unfold bits
  rw [Nat.add_mul_div_left _ _ (Nat.two_pow_pos lo), Nat.div_eq_of_lt h, Nat.zero_add, Nat.mod_eq_of_lt hb]

/-- A field above every summand is zero. -/
theorem bits_zero {a lo w : Nat} (h : a < 2 ^ lo) : bits a lo w = 0 := by
  unfold bits
  rw [Nat.div_eq_of_lt h, Nat.zero_mod]

/-- A sum of fields stays below the end of the last. -/
theorem add_lt {a b k w n : Nat} (ha : a < 2 ^ k) (hb : b < 2 ^ w) (h : Nat.ble (k + w) n = true) :
    a + 2 ^ k * b < 2 ^ n := by
  have h1 : 2 ^ k * (b + 1) ≤ 2 ^ k * 2 ^ w := Nat.mul_le_mul_left _ hb
  have h2 : 2 ^ (k + w) ≤ 2 ^ n := Nat.pow_le_pow_right (by decide) (Nat.le_of_ble_eq_true h)
  rw [Nat.mul_add, Nat.mul_one] at h1
  rw [Nat.pow_add] at h2
  omega

theorem b2n_lt (b : Bool) : b2n b < 2 := by cases b <;> decide
theorem b2n_lt1 (b : Bool) : b2n b < 2 ^ 1 := b2n_lt b
theorem b2n_eq (b : Bool) : (b2n b == 1) = b := by cases b <;> decide

theorem encOp_lt (c : Common) (l : Bool) {op n : Nat} (h : op < 2 ^ n) : encOp c l op < 2 ^ (n + 6) := by
  have := b2n_lt c.s; have := b2n_lt c.gi; have := b2n_lt l; have := c.gs.isLt
  rw [Nat.pow_add]; simp only [encOp, encCommon]; omega

theorem bits_encOp (c : Common) (l : Bool) {op n : Nat} (h : op < 2 ^ n) : bits (encOp c l op) 6 n = op := by
  have := b2n_lt c.s; have := b2n_lt c.gi; have := b2n_lt l; have := c.gs.isLt
  unfold bits
  rw [show encOp c l op / 2 ^ 6 = op by simp only [encOp, encCommon]; omega, Nat.mod_eq_of_lt h]

theorem encOp_l (c : Common) (l : Bool) (op : Nat) : bits (encOp c l op) 5 1 = b2n l := by
  have := b2n_lt c.s; have := b2n_lt c.gi; have := b2n_lt l; have := c.gs.isLt
  simp only [encOp, encCommon, bits]; omega

theorem decCommon_low {a b k : Nat} (h : Nat.ble 5 k = true) : decCommon (a + 2 ^ k * b) = decCommon a := by
  simp only [decCommon, flag, fin3]
  have h5 : 5 ≤ k := Nat.le_of_ble_eq_true h
  rw [bits_low (Nat.ble_eq_true_of_le (by omega)), bits_low (Nat.ble_eq_true_of_le (by omega)),
    bits_low (Nat.ble_eq_true_of_le (by omega))]

theorem ofNat_val {n : Nat} [NeZero n] (a : Fin n) : Fin.ofNat n a.val = a := by simp

theorem decCommon_encOp (c : Common) (l : Bool) (op : Nat) : decCommon (encOp c l op) = c := by
  obtain ⟨s, gs, gi⟩ := c
  have := b2n_lt s; have := b2n_lt gi; have := b2n_lt l; have := gs.isLt
  have h0 : bits (encOp ⟨s, gs, gi⟩ l op) 0 1 = b2n s := by simp only [encOp, encCommon, bits]; omega
  have h1 : bits (encOp ⟨s, gs, gi⟩ l op) 1 3 = gs.val := by simp only [encOp, encCommon, bits]; omega
  have h4 : bits (encOp ⟨s, gs, gi⟩ l op) 4 1 = b2n gi := by simp only [encOp, encCommon, bits]; omega
  simp [decCommon, flag, fin3, h0, h1, h4, b2n_eq]

/-! ## Codes -/

theorem src_lt (a : Src) : a.code < 2 ^ 6 := by cases a <;> simp only [Src.code] <;> omega
theorem dst_lt (a : Dst) : a.code < 2 ^ 6 := by cases a <;> simp only [Dst.code] <;> omega
theorem vop_lt (v : VOp) : v.code < 2 ^ 13 := by
  obtain ⟨l, i⟩ := v; have := i.isLt; cases l <;> simp only [VOp.code] <;> omega
theorem mop_lt (v : MOp) : v.code < 2 ^ 13 := by
  obtain ⟨l, i⟩ := v; have := i.isLt; cases l <;> simp only [MOp.code] <;> omega
theorem fmt_lt (f : Fmt) : f.code < 2 ^ 5 := by cases f <;> decide
theorem scope_lt (f : Scope) : f.code < 2 ^ 3 := by cases f <;> decide
theorem rmode_lt (f : RMode) : f.code < 2 ^ 2 := by cases f <;> decide
theorem fnCode_lt (f : FnCode) : f.code < 2 ^ 4 := by cases f <;> decide
theorem semiring_lt (f : Semiring) : f.code < 2 ^ 2 := by cases f <;> decide
theorem cond_lt (f : Cond) : f.code < 2 ^ 3 := by cases f <;> decide
theorem bCond_lt (f : BCond) : f.code < 2 ^ 3 := by cases f <;> decide
theorem bScope_lt (f : BScope) : f.code < 2 ^ 2 := by cases f <;> decide
theorem hState_lt (f : HState) : f.code < 2 ^ 2 := by cases f <;> decide
theorem extW_lt (f : ExtW) : f.code < 2 ^ 2 := by cases f <;> decide
theorem gField_lt (f : GField) : f.code < 2 ^ 3 := by cases f <;> decide
theorem pSize_lt (f : PSize) : f.code < 2 ^ 2 := by cases f <;> decide
theorem tScope_lt (f : TScope) : f.code < 2 ^ 2 := by cases f <;> decide
theorem redOp_lt (f : RedOp) : f.code < 2 ^ 3 := by cases f <;> decide
theorem redFmt_lt (f : RedFmt) : f.code < 2 ^ 5 := by cases f <;> decide
theorem pKind_lt (f : PKind) : f.code < 2 ^ 2 := by cases f <;> decide
theorem csr_lt (f : CsrName) : f.code < 2 ^ 8 := by cases f <;> simp only [CsrName.code] <;> omega

theorem decSrc_code (a : Src) : decSrc a.code = .ok a := by
  cases a with
  | x n => simp [Src.code, decSrc]
  | q n =>
    have := n.isLt
    show decSrc (32 + n.val) = _
    unfold decSrc
    rw [if_neg (by omega), if_pos (by omega), Nat.add_sub_cancel_left, ofNat_val]
  | mq n =>
    have := n.isLt
    show decSrc (48 + n.val) = _
    unfold decSrc
    rw [if_neg (by omega), if_neg (by omega), if_pos (by omega), Nat.add_sub_cancel_left, ofNat_val]
  | lit => rfl

theorem decDst_code (a : Dst) : decDst a.code = .ok a := by
  cases a with
  | x n => simp [Dst.code, decDst]
  | q => rfl
  | mq n =>
    have := n.isLt
    show decDst (33 + n.val) = _
    unfold decDst
    rw [if_neg (by omega), if_neg (by omega), if_pos (by omega), Nat.add_sub_cancel_left, ofNat_val]

theorem decX_val (a : Fin 32) : decX a.val = .ok a := by simp [decX]
theorem decDim_val (a : Fin 6) : decDim a.val = .ok a := by simp [decDim]

/-- The two fields of an operand code. -/
theorem operand_fields (i : Fin 2048) (n : Nat) (hn : n < 4) :
    bits (i.val + 2048 * n) 11 2 = n ∧ bits (i.val + 2048 * n) 0 11 = i.val := by
  have := i.isLt
  simp only [bits]; omega

theorem decV_code (v : VOp) : decV v.code = v := by
  obtain ⟨l, i⟩ := v
  cases l <;> simp (disch := decide) only [decV, VOp.code, operand_fields, ofNat_val]

theorem decM_code (v : MOp) : decM v.code = v := by
  obtain ⟨l, i⟩ := v
  cases l <;> simp (disch := decide) only [decM, MOp.code, operand_fields, ofNat_val]

theorem decFmt_code (f : Fmt) : decFmt f.code = .ok f := by cases f <;> rfl
theorem decScope_code (f : Scope) : decScope f.code = .ok f := by cases f <;> rfl
theorem decRM_code (f : RMode) : decRM f.code = .ok f := by cases f <;> rfl
theorem decFn_code (f : FnCode) : decFn f.code = .ok f := by cases f <;> rfl
theorem decSr_code (f : Semiring) : decSr f.code = f := by cases f <;> rfl
theorem decCond_code (f : Cond) : decCond f.code = f := by cases f <;> rfl
theorem decBCond_code (f : BCond) : decBCond f.code = .ok f := by cases f <;> rfl
theorem decHs_code (f : HState) : decHs f.code = f := by cases f <;> rfl
theorem decGField_code (f : GField) : decGField f.code = .ok f := by cases f <;> rfl
theorem decPSize_code (f : PSize) : decPSize f.code = f := by cases f <;> rfl
theorem decTScope_code (f : TScope) : decTScope f.code = f := by cases f <;> rfl
theorem decRedOp_code (f : RedOp) : decRedOp f.code = .ok f := by cases f <;> rfl
theorem decRedFmt_code (f : RedFmt) : decRedFmt f.code = .ok f := by cases f <;> rfl
theorem decSz1_b2n (b : Bool) : decSz1 (b2n b) = .ok b := by cases b <;> rfl
theorem decCsr_code (f : CsrName) : decCsr f.code = .ok f := by
  cases f with
  | chstl n => match n with | 0 | 1 | 2 | 3 => rfl
  | bkt n =>
    obtain ⟨k, h⟩ := n
    match k with
    | 0 | 1 | 2 | 3 | 4 | 5 | 6 | 7 | 8 | 9 | 10 | 11 | 12 | 13 | 14 | 15 => rfl
    | k + 16 => omega
  | tsw n => match n with | 0 | 1 | 2 | 3 => rfl
  | _ => rfl

theorem ofNat_toNat {n : Nat} (v : BitVec n) : BitVec.ofNat n v.toNat = v := by simp

/-! ## Handles -/

/-- A handle with its valid bit above it (R199). -/
def handleCode : Option (Fin 64) → Nat
  | none => 0
  | some h => 64 + h.val

theorem handle_lt (h : Option (Fin 64)) : handleCode h < 2 ^ 7 := by
  cases h with
  | none => decide
  | some h => have := h.isLt; simp only [handleCode]; omega

theorem encHandle24 (h : Option (Fin 64)) : encHandle 30 24 h = 2 ^ 24 * handleCode h := by
  cases h <;> simp only [encHandle, handleCode] <;> omega

theorem encHandle31 (h : Option (Fin 64)) : encHandle 37 31 h = 2 ^ 31 * handleCode h := by
  cases h <;> simp only [encHandle, handleCode] <;> omega

theorem decHandle_low {a b k vbit lo : Nat} (h : Nat.ble (vbit + 1) k = true) (h' : Nat.ble (lo + 6) k = true) :
    decHandle (a + 2 ^ k * b) vbit lo = decHandle a vbit lo := by
  simp only [decHandle, flag, zeroField, fin6, bits_low h, bits_low h']
  rfl

theorem decHandle_top {a : Nat} (h : Option (Fin 64)) (lo : Nat) (ha : a < 2 ^ lo) :
    decHandle (a + 2 ^ lo * handleCode h) (lo + 6) lo = .ok h := by
  have e (n w : Nat) : bits (a + 2 ^ lo * n) (lo + w) 1 = bits n w 1 := by
    unfold bits
    rw [Nat.pow_add, ← Nat.div_div_eq_div_mul, Nat.add_mul_div_left _ _ (Nat.two_pow_pos lo), Nat.div_eq_of_lt ha,
      Nat.zero_add]
  have e0 (n : Nat) : bits (a + 2 ^ lo * n) lo 6 = bits n 0 6 := by
    unfold bits
    rw [Nat.add_mul_div_left _ _ (Nat.two_pow_pos lo), Nat.div_eq_of_lt ha, Nat.zero_add, Nat.pow_zero, Nat.div_one]
  cases h with
  | none => simp only [decHandle, flag, zeroField, e, e0, handleCode]; rfl
  | some h =>
    have := h.isLt
    have h6 : bits (64 + h.val) 6 1 = 1 := by simp only [bits]; omega
    have h0 : bits (64 + h.val) 0 6 = h.val := by simp only [bits]; omega
    simp [decHandle, flag, fin6, e, e0, handleCode, h6, h0]

theorem decHandle24 {a : Nat} (h : Option (Fin 64)) (ha : a < 2 ^ 24) :
    decHandle (a + 2 ^ 24 * handleCode h) 30 24 = .ok h := decHandle_top h 24 ha

theorem decHandle31 {a : Nat} (h : Option (Fin 64)) (ha : a < 2 ^ 31) :
    decHandle (a + 2 ^ 31 * handleCode h) 37 31 = .ok h := decHandle_top h 31 ha

/-! ## Epilogues -/

theorem fnCode_opt_lt (f : Option FnCode) : fnCode f < 2 ^ 5 := by
  cases f with
  | none => decide
  | some f => have := fnCode_lt f; simp only [fnCode]; omega

theorem bits_encEpi {a lo w : Nat} (e : Epi) (h : Nat.ble (lo + w) 46 = true) :
    bits (encEpi a e) lo w = bits a lo w := by
  have h' := Nat.le_of_ble_eq_true h
  simp only [encEpi]
  iterate 7 rw [bits_low (Nat.ble_eq_true_of_le (by omega))]

theorem decCommon_encEpi (a : Nat) (e : Epi) : decCommon (encEpi a e) = decCommon a := by
  simp (disch := first | decide | omega) only [encEpi, decCommon_low]

theorem encEpi_lt {a : Nat} (e : Epi) (h : a < 2 ^ 46) : encEpi a e < 2 ^ 62 := by
  have := fmt_lt e.df; have := fnCode_opt_lt e.fn; have := rmode_lt e.rm; have := b2n_lt e.prop
  have := b2n_lt e.g; have := b2n_lt e.se; have := b2n_lt e.ce
  simp only [encEpi]; omega

theorem decEpi_high {a b : Nat} (h : a < 2 ^ 62) (hb : b < 2) : decEpi (a + 2 ^ 62 * b) = decEpi a := by
  simp (disch := first | decide | omega) only [decEpi, zeroField, flag, bits_low, bits_zero]
  rfl

theorem decEpi_encEpi {a : Nat} (e : Epi) (h : a < 2 ^ 46) : decEpi (encEpi a e) = .ok e := by
  obtain ⟨df, rm, prop, g, se, ce, fn⟩ := e
  have := fmt_lt df; have := fnCode_opt_lt fn; have := rmode_lt rm; have := b2n_lt prop
  have := b2n_lt g; have := b2n_lt se; have := b2n_lt ce
  have hfn : bits (a + 2 ^ 46 * df.code + 2 ^ 51 * fnCode fn) 51 4 = bits (fnCode fn) 0 4 ∧
      bits (a + 2 ^ 46 * df.code + 2 ^ 51 * fnCode fn) 55 1 = bits (fnCode fn) 4 1 := by
    simp only [bits]; omega
  simp (disch := first | decide | omega) only [decEpi, encEpi, zeroField, flag, bits_low, bits_top, bits_zero, hfn, decFmt_code,
    decRM_code, b2n_eq]
  cases fn with
  | none => rfl
  | some fn => cases fn <;> rfl

/-! ## Block tables -/

theorem blkCode_lt (b : Option (Fin 16)) : blkCode b < 2 ^ 5 := by
  cases b with
  | none => decide
  | some b => have := b.isLt; simp only [blkCode]; omega

theorem biasCode_lt (b : Option VOp) : biasCode b < 2 ^ 13 := by
  cases b with
  | none => decide
  | some b => exact vop_lt b

end Sys2Proof.Laws
end

