-- ==== Sys2Proof/Laws/Memory.lean ====
section
/-! SUPPORT. Memory by its places: what a byte reads as after a write, what a context sees of its own committed writes, and
that performing a write changes nothing but the bytes it writes. -/

namespace Sys2Proof.Machine

open Sys2Proof

/-! ## Scratchpad lines not yet cleared -/

theorem cutLine_piece (l x : Nat) (r : Nat × Nat) :
    ((if r.1 < min r.2 l then [(r.1, min r.2 l)] else []) ++
      (if max r.1 (l + 64) < r.2 then [(max r.1 (l + 64), r.2)] else [])).any
        (fun r => decide (r.1 ≤ x) && decide (x < r.2)) =
      ((decide (r.1 ≤ x) && decide (x < r.2)) && !(decide (l ≤ x) && decide (x < l + 64))) := by
  rw [Bool.eq_iff_iff]
  by_cases h1 : r.1 < min r.2 l <;> by_cases h2 : max r.1 (l + 64) < r.2 <;>
    simp only [h1, h2, if_true, if_false, List.nil_append, List.append_nil, List.cons_append, List.any_cons, List.any_nil,
      Bool.or_false, Bool.or_eq_true, Bool.and_eq_true, Bool.not_eq_true', Bool.and_eq_false_iff,
      decide_eq_true_eq, decide_eq_false_iff_not, Bool.false_eq_true, false_iff] <;> omega

theorem cutLine_covers (l x : Nat) (u : List (Nat × Nat)) :
    (cutLine l u).any (fun r => decide (r.1 ≤ x) && decide (x < r.2)) =
      (u.any (fun r => decide (r.1 ≤ x) && decide (x < r.2)) && !(decide (l ≤ x) && decide (x < l + 64))) := by
  induction u with
  | nil => rfl
  | cons r u ih =>
    have h : (cutLine l (r :: u)) = ((if r.1 < min r.2 l then [(r.1, min r.2 l)] else []) ++
        (if max r.1 (l + 64) < r.2 then [(max r.1 (l + 64), r.2)] else [])) ++ cutLine l u := by
      simp [cutLine]
    rw [h, List.any_append, ih, List.any_cons, cutLine_piece, Bool.and_or_distrib_right]

theorem Cluster.clearLine_isUncleared (c : Cluster) (a x : Nat) (hu : c.isUncleared a = true) :
    (c.clearLine a).isUncleared x =
      (c.isUncleared x && !(decide (a / 64 * 64 ≤ x) && decide (x < a / 64 * 64 + 64))) := by
  have h : (c.clearLine a).uncleared = cutLine (a / 64 * 64) c.uncleared := by simp [Cluster.clearLine, hu]
  rw [Cluster.isUncleared, h]
  exact cutLine_covers _ _ _

theorem Memory.read_zeroN (want : Nat → Bool) (n a x : Nat) (m : Memory) :
    (m.zeroN want a n).read x = if (a ≤ x ∧ x < a + n) ∧ want x = true then 0#8 else m.read x := by
  induction n generalizing a m with
  | zero => rw [if_neg (by omega)]; rfl
  | succ n ih =>
    simp only [Memory.zeroN, ih]
    by_cases hw : want a
    · simp only [hw, if_true, Memory.read_write]
      by_cases hx : x = a
      · subst hx; simp [hw]
      · have : (a + 1 ≤ x ∧ x < a + 1 + n) ↔ (a ≤ x ∧ x < a + (n + 1)) := by omega
        simp only [hx, this, if_false]
    · simp only [hw]
      by_cases hx : x = a
      · subst hx; simp [hw]
      · have : (a + 1 ≤ x ∧ x < a + 1 + n) ↔ (a ≤ x ∧ x < a + (n + 1)) := by omega
        simp only [this, Bool.false_eq_true, if_false]

theorem Memory.wf_zeroN (want : Nat → Bool) (n a : Nat) (m : Memory) (h : m.wf = true) : (m.zeroN want a n).wf = true := by
  induction n generalizing a m with
  | zero => exact h
  | succ n ih =>
    simp only [Memory.zeroN]
    split
    · exact ih _ _ (Memory.wf_write _ _ _ h)
    · exact ih _ _ h

/-- A byte of a scratchpad as it reads. -/
def Cluster.byte (c : Cluster) (a : Nat) : Byte := if c.isUncleared a then 0#8 else c.mem.read a

/-- Clearing a line changes no byte. -/
@[simp] theorem Cluster.byte_clearLine (c : Cluster) (a x : Nat) : (c.clearLine a).byte x = c.byte x := by
  by_cases hu : c.isUncleared a
  · have hc := Cluster.clearLine_isUncleared c a x hu
    simp only [Cluster.byte, hc]
    simp only [Cluster.clearLine, hu, if_true, Memory.read_zeroN]
    by_cases h1 : c.isUncleared x <;> by_cases h2 : (a / 64 * 64 ≤ x ∧ x < a / 64 * 64 + 64) <;> simp_all
  · simp [Cluster.clearLine, hu]

theorem Cluster.clearLine_cleared (c : Cluster) (a : Nat) : (c.clearLine a).isUncleared a = false := by
  by_cases hu : c.isUncleared a
  · have hc := Cluster.clearLine_isUncleared c a a hu
    rw [hc, hu]
    have h1 : a / 64 * 64 ≤ a := Nat.div_mul_le_self a 64
    have h2 : a < a / 64 * 64 + 64 := by omega
    simp [h1, h2]
  · simp [Cluster.clearLine, hu]

theorem Cluster.byte_write (q : Cluster) (a x : Nat) (v : Byte) (p : List Nat) (h : q.isUncleared a = false) :
    Cluster.byte { q with mem := q.mem.write a v, pois := p } x = if x = a then v else q.byte x := by
  show (if q.isUncleared x = true then 0#8 else (q.mem.write a v).read x) = _
  rw [Memory.read_write]
  by_cases hx : x = a
  · subst hx; simp [h]
  · simp [hx, Cluster.byte]

/-! ## One byte -/

theorem State.memByte_sp (s : State) (c a : Nat) : s.memByte (.sp c) a = (s.clu c).byte a := rfl

/-- A READ AFTER A WRITE OF ONE BYTE: a place that holds data reads as the byte written, if it is the place written, else as
before. -/
theorem State.memByte_setByte (s : State) (sp sp' : Space) (a a' : Nat) (b : Byte) (h' : dataPlace sp' a') :
    (s.setByte sp a b).memByte sp' a' = if sp' = sp ∧ a' = a then b else s.memByte sp' a' := by
  cases sp with
  | host =>
    cases sp' with
    | host => simp [State.setByte, State.memByte, Memory.read_write]
    | sp c => simp [State.setByte, State.memByte]; rfl
    | dram => simp [State.setByte, State.memByte]
  | sp c =>
    cases sp' with
    | host => simp [State.setByte, State.memByte, State.modClu]
    | dram => simp [State.setByte, State.memByte, State.modClu]
    | sp c' =>
      simp only [State.memByte_sp, State.setByte, State.modClu, State.clu_setClu]
      by_cases hc : c' = c
      · subst hc
        simp [Cluster.byte_write _ _ _ _ _ (Cluster.clearLine_cleared (s.clu c') a)]
      · simp [hc]
  | dram =>
    cases sp' with
    | host => simp only [State.setByte]; split <;> try rfl
              split <;> rfl
    | sp c => simp only [State.setByte]; split <;> try rfl
              split <;> rfl
    | dram =>
      obtain ⟨d', o', hz'⟩ := h' rfl
      by_cases ha : a' = a
      · subst ha; simp [State.setByte, State.memByte, hz']
      · simp only [State.setByte]
        split
        · simp [State.memByte, hz', Memory.read_write, ha]
        · split <;> simp [State.memByte, hz', Memory.read_write, ha]
        · simp [ha]

@[simp] theorem State.setByte_ctxs (s : State) (sp : Space) (a : Nat) (b : Byte) : (s.setByte sp a b).ctxs = s.ctxs := by
  cases sp <;> simp only [State.setByte] <;> try rfl
  split <;> try rfl
  split <;> rfl

@[simp] theorem State.setByte_wbuf (s : State) (sp : Space) (a : Nat) (b : Byte) : (s.setByte sp a b).wbuf = s.wbuf := by
  cases sp <;> simp only [State.setByte] <;> try rfl
  split <;> try rfl
  split <;> rfl

/-- Writing a byte changes no part of the machine but memory, its poison and its tags. -/
theorem State.setByte_frame (s : State) (sp : Space) (a : Nat) (b : Byte) :
    s.setByte sp a b = { s with dram := (s.setByte sp a b).dram, host := (s.setByte sp a b).host,
                                dpois := (s.setByte sp a b).dpois, hpois := (s.setByte sp a b).hpois,
                                dtags := (s.setByte sp a b).dtags, clus := (s.setByte sp a b).clus } := by
  cases sp <;> simp only [State.setByte] <;> try rfl
  split <;> try rfl
  split <;> rfl

/-! ## Runs of bytes and pending writes -/

/-- A write covers a place. -/
def PendWrite.covers (w : PendWrite) (sp : Space) (a : Nat) : Bool :=
  w.sp == sp && decide (w.addr ≤ a) && decide (a < w.addr + w.bytes.length)

theorem State.memByte_setBytes (s : State) (sp sp' : Space) (a a' : Nat) (bs : List Byte) (h' : dataPlace sp' a') :
    (s.setBytes sp a bs).memByte sp' a' =
      if sp' = sp ∧ a ≤ a' ∧ a' < a + bs.length then bs.getD (a' - a) 0 else s.memByte sp' a' := by
  induction bs generalizing s a with
  | nil => rw [if_neg (by simp only [List.length_nil]; omega)]; rfl
  | cons b l ih =>
    simp only [State.setBytes, ih, State.memByte_setByte _ _ _ _ _ _ h', List.length_cons]
    by_cases hs : sp' = sp
    · subst hs
      by_cases ha : a' = a
      · subst ha
        have h1 : ¬ (a' + 1 ≤ a' ∧ a' < a' + 1 + l.length) := by omega
        simp [h1]
      · by_cases h1 : a + 1 ≤ a' ∧ a' < a + 1 + l.length
        · have h2 : a ≤ a' ∧ a' < a + (l.length + 1) := by omega
          have h3 : a' - a = (a' - (a + 1)) + 1 := by omega
          rw [if_pos ⟨rfl, h1⟩, if_pos ⟨rfl, h2⟩, h3, List.getD_cons_succ]
        · have h2 : ¬ (a ≤ a' ∧ a' < a + (l.length + 1)) := by omega
          rw [if_neg (fun h => h1 h.2), if_neg (fun h => ha h.2), if_neg (fun h => h2 h.2)]
    · simp [hs]

theorem State.memByte_performOne (s : State) (w : PendWrite) (sp : Space) (a : Nat) (h : dataPlace sp a) :
    (s.performOne w).memByte sp a = if w.covers sp a then w.bytes.getD (a - w.addr) 0 else s.memByte sp a := by
  simp only [State.performOne, State.memByte_setBytes _ _ _ _ _ _ h, PendWrite.covers]
  by_cases hs : w.sp = sp
  · subst hs; simp
  · have : ¬ sp = w.sp := fun e => hs e.symm
    simp [hs, this]

/-- The byte of the latest write of a list that covers a place. -/
def latestByte (l : List PendWrite) (sp : Space) (a : Nat) : Option Byte :=
  (l.reverse.find? (fun w => w.covers sp a)).map (fun w => w.bytes.getD (a - w.addr) 0)

theorem latestByte_append (l m : List PendWrite) (sp : Space) (a : Nat) :
    latestByte (l ++ m) sp a = (latestByte m sp a).or (latestByte l sp a) := by
  simp only [latestByte, List.reverse_append, List.find?_append]
  cases h : List.find? (fun w => w.covers sp a) m.reverse <;> simp

@[simp] theorem latestByte_nil (sp : Space) (a : Nat) : latestByte [] sp a = none := rfl

theorem latestByte_cons (w : PendWrite) (l : List PendWrite) (sp : Space) (a : Nat) :
    latestByte (w :: l) sp a =
      (latestByte l sp a).or (if w.covers sp a then some (w.bytes.getD (a - w.addr) 0) else none) := by
  have h : w :: l = [w] ++ l := rfl
  rw [h, latestByte_append]
  by_cases hw : w.covers sp a <;> simp [latestByte, hw]

theorem State.memByte_performAll (ws : List PendWrite) (s : State) (sp : Space) (a : Nat) (h : dataPlace sp a) :
    (ws.foldl State.performOne s).memByte sp a = (latestByte ws sp a).getD (s.memByte sp a) := by
  induction ws generalizing s with
  | nil => rfl
  | cons w l ih =>
    simp only [List.foldl_cons, ih, State.memByte_performOne _ _ _ _ h, latestByte_cons]
    cases hl : latestByte l sp a with
    | some b => simp
    | none => by_cases hw : w.covers sp a <;> simp [hw]

@[simp] theorem State.setBytes_ctxs (s : State) (sp : Space) (a : Nat) (bs : List Byte) : (s.setBytes sp a bs).ctxs = s.ctxs := by
  induction bs generalizing s a with
  | nil => rfl
  | cons b l ih => simp [State.setBytes, ih]

@[simp] theorem State.setBytes_wbuf (s : State) (sp : Space) (a : Nat) (bs : List Byte) : (s.setBytes sp a bs).wbuf = s.wbuf := by
  induction bs generalizing s a with
  | nil => rfl
  | cons b l ih => simp [State.setBytes, ih]

@[simp] theorem State.foldPerform_ctxs (ws : List PendWrite) (s : State) : (ws.foldl State.performOne s).ctxs = s.ctxs := by
  induction ws generalizing s with
  | nil => rfl
  | cons w l ih => simp [ih, State.performOne]

@[simp] theorem State.foldPerform_wbuf (ws : List PendWrite) (s : State) : (ws.foldl State.performOne s).wbuf = s.wbuf := by
  induction ws generalizing s with
  | nil => rfl
  | cons w l ih => simp [ih, State.performOne]

@[simp] theorem State.perform_ctxs (s : State) (want : PendWrite → Bool) : (s.perform want).ctxs = s.ctxs := by
  simp [State.perform]

theorem State.perform_wbuf (s : State) (want : PendWrite → Bool) : (s.perform want).wbuf = (splitWrites want s.wbuf).2 := by
  simp [State.perform]

/-- Writing bytes changes no part of the machine but memory, its poison and its tags. -/
theorem State.setBytes_frame (s : State) (sp : Space) (a : Nat) (bs : List Byte) :
    s.setBytes sp a bs = { s with dram := (s.setBytes sp a bs).dram, host := (s.setBytes sp a bs).host,
                                  dpois := (s.setBytes sp a bs).dpois, hpois := (s.setBytes sp a bs).hpois,
                                  dtags := (s.setBytes sp a bs).dtags, clus := (s.setBytes sp a bs).clus } := by
  induction bs generalizing s a with
  | nil => rfl
  | cons b l ih =>
    simp only [State.setBytes]
    rw [ih (s.setByte sp a b) (a + 1), State.setByte_frame s sp a b]

/-- Performing writes changes no part of the machine but memory, its poison, its tags and the list of writes to perform. -/
theorem State.perform_frame (s : State) (want : PendWrite → Bool) :
    s.perform want = { s with dram := (s.perform want).dram, host := (s.perform want).host,
                              dpois := (s.perform want).dpois, hpois := (s.perform want).hpois,
                              dtags := (s.perform want).dtags, clus := (s.perform want).clus,
                              wbuf := (splitWrites want s.wbuf).2 } := by
  have key : ∀ (ws : List PendWrite) (s : State), ws.foldl State.performOne s =
      { s with dram := (ws.foldl State.performOne s).dram, host := (ws.foldl State.performOne s).host,
               dpois := (ws.foldl State.performOne s).dpois, hpois := (ws.foldl State.performOne s).hpois,
               dtags := (ws.foldl State.performOne s).dtags, clus := (ws.foldl State.performOne s).clus } := by
    intro ws
    induction ws with
    | nil => intro s; rfl
    | cons w l ih =>
      intro s
      simp only [List.foldl_cons]
      rw [ih (s.performOne w), State.performOne, State.setBytes_frame s]
  simp only [State.perform]
  rw [key]

/-! ## What a context sees of its own writes (R168) -/

/-- The writes of one context in a list. -/
def ofCtx (g : Nat) (l : List PendWrite) : List PendWrite := l.filter (fun w => w.gcid == g)

theorem State.ownByte_eq (s : State) (g : Nat) (sp : Space) (a : Nat) :
    s.ownByte g sp a = (latestByte (ofCtx g s.wbuf) sp a).getD (s.memByte sp a) := by
  have h : ∀ l : List PendWrite, l.reverse.find? (fun w => w.gcid == g && w.sp == sp && decide (w.addr ≤ a) &&
      decide (a < w.addr + w.bytes.length)) = (ofCtx g l).reverse.find? (fun w => w.covers sp a) := by
    intro l
    rw [ofCtx, ← List.filter_reverse, List.find?_filter]
    congr 1
    funext w
    simp only [PendWrite.covers, Bool.and_assoc]
    by_cases hg : w.gcid = g <;> by_cases hs : w.sp = sp <;> simp [hg, hs]
  simp only [State.ownByte, h, latestByte]
  cases (ofCtx g s.wbuf).reverse.find? (fun w => w.covers sp a) <;> rfl

theorem ofCtx_append (g : Nat) (l m : List PendWrite) : ofCtx g (l ++ m) = ofCtx g l ++ ofCtx g m := by simp [ofCtx]

/-- A split that names one context's writes takes only writes of that context. -/
theorem splitWrites_ofCtx (want : PendWrite → Bool) (g : Nat) (hw : ∀ w, want w = true → w.gcid = g) (l : List PendWrite) :
    ∀ w ∈ (splitWrites want l).1, w.gcid = g := by
  induction l with
  | nil => simp [splitWrites]
  | cons v l ih =>
    intro w hm
    simp only [splitWrites] at hm
    split at hm
    · next hc =>
      simp only [List.mem_cons] at hm
      rcases hm with rfl | hm
      · simp only [Bool.or_eq_true, List.any_eq_true, Bool.and_eq_true, beq_iff_eq] at hc
        rcases hc with hc | ⟨u, hu, he, _⟩
        · exact hw _ hc
        · rw [← he]; exact ih u hu
      · exact ih w hm
    · exact ih w hm

/-- Two writes that cover one place overlap. -/
theorem PendWrite.overlaps_of_covers {v w : PendWrite} {sp : Space} {a : Nat} (hv : v.covers sp a = true)
    (hw : w.covers sp a = true) : v.overlaps w = true := by
  simp only [PendWrite.covers, PendWrite.overlaps, Bool.and_eq_true, beq_iff_eq, decide_eq_true_eq] at *
  obtain ⟨⟨h1, h2⟩, h3⟩ := hv
  obtain ⟨⟨h4, h5⟩, h6⟩ := hw
  exact ⟨⟨by rw [h1, h4], by omega⟩, by omega⟩

/-- The latest own write to a place is the same before and after a split: first those kept, then those performed. -/
theorem latestByte_split (want : PendWrite → Bool) (g : Nat) (l : List PendWrite) (sp : Space) (a : Nat) :
    (latestByte (ofCtx g (splitWrites want l).2) sp a).or (latestByte (ofCtx g (splitWrites want l).1) sp a) =
      latestByte (ofCtx g l) sp a := by
  induction l with
  | nil => rfl
  | cons w l ih =>
    have hcons : ∀ m : List PendWrite, ofCtx g (w :: m) = if w.gcid = g then w :: ofCtx g m else ofCtx g m := by
      intro m; by_cases h : w.gcid = g <;> simp [ofCtx, h]
    simp only [splitWrites]
    split
    · simp only [hcons]
      by_cases hg : w.gcid = g
      · simp only [hg, if_true, latestByte_cons, ← ih]
        cases latestByte (ofCtx g (splitWrites want l).2) sp a <;> simp
      · simp only [hg, if_false, ih]
    · next hc =>
      simp only [hcons]
      by_cases hg : w.gcid = g
      · simp only [hg, if_true, latestByte_cons, ← ih]
        by_cases hw : w.covers sp a
        · have h1 : latestByte (ofCtx g (splitWrites want l).1) sp a = none := by
            simp only [latestByte, Option.map_eq_none_iff, List.find?_eq_none, List.mem_reverse]
            intro v hv hvc
            apply hc
            simp only [Bool.or_eq_true, List.any_eq_true]
            simp only [ofCtx, List.mem_filter, beq_iff_eq] at hv
            exact .inr ⟨v, hv.1, by simp [hv.2, hg, PendWrite.overlaps_of_covers hvc hw]⟩
          simp [h1]
        · simp [hw]
      · simp only [hg, if_false, ih]

/-- PERFORMING A CONTEXT'S WRITES IS NOT SEEN BY IT: a place that holds data reads to the context as before. -/
theorem State.ownByte_perform (s : State) (want : PendWrite → Bool) (g : Nat) (hw : ∀ w, want w = true → w.gcid = g)
    (sp : Space) (a : Nat) (h : dataPlace sp a) : (s.perform want).ownByte g sp a = s.ownByte g sp a := by
  rw [State.ownByte_eq, State.ownByte_eq, State.perform_wbuf]
  have hm : (s.perform want).memByte sp a = (latestByte (splitWrites want s.wbuf).1 sp a).getD (s.memByte sp a) := by
    simp only [State.perform]
    exact State.memByte_performAll _ _ _ _ h
  have hall : ofCtx g (splitWrites want s.wbuf).1 = (splitWrites want s.wbuf).1 := by
    rw [ofCtx, List.filter_eq_self]
    intro w hm
    simp [splitWrites_ofCtx want g hw _ w hm]
  have := latestByte_split want g s.wbuf sp a
  rw [hall] at this
  rw [hm, ← this]
  cases latestByte (ofCtx g (splitWrites want s.wbuf).2) sp a <;> simp

/-! ## Stores -/

/-- The last byte that a list of stored bytes gives a place. -/
def lastStored (bs : List (Space × Nat × Byte)) (sp : Space) (a : Nat) : Option Byte :=
  (bs.reverse.find? (fun b => b.1 == sp && b.2.1 == a)).map (·.2.2)

theorem lastStored_cons (p : Space × Nat × Byte) (l : List (Space × Nat × Byte)) (sp : Space) (a : Nat) :
    lastStored (p :: l) sp a = (lastStored l sp a).or (if p.1 = sp ∧ p.2.1 = a then some p.2.2 else none) := by
  simp only [lastStored, List.reverse_cons, List.find?_append]
  cases List.find? (fun b => b.1 == sp && b.2.1 == a) l.reverse with
  | some x => simp
  | none => by_cases h : p.1 = sp ∧ p.2.1 = a <;> simp [h]

theorem PendWrite.covers_one (g strm : Nat) (sp' : Space) (a' : Nat) (b : Byte) (sp : Space) (a : Nat) :
    PendWrite.covers ⟨g, strm, sp', a', [b]⟩ sp a = decide (sp' = sp ∧ a' = a) := by
  rw [Bool.eq_iff_iff]
  simp only [PendWrite.covers, List.length_cons, List.length_nil, Bool.and_eq_true, beq_iff_eq, decide_eq_true_eq]
  constructor
  · rintro ⟨⟨h1, h2⟩, h3⟩; exact ⟨h1, by omega⟩
  · rintro ⟨h1, h2⟩; exact ⟨⟨h1, by omega⟩, by omega⟩

theorem PendWrite.covers_cons (g strm : Nat) (w : PendWrite) (a' : Nat) (b : Byte) (sp : Space) (a : Nat)
    (h : w.addr = a' + 1) :
    PendWrite.covers ⟨g, strm, w.sp, a', b :: w.bytes⟩ sp a = (decide (w.sp = sp ∧ a' = a) || w.covers sp a) := by
  rw [Bool.eq_iff_iff]
  simp only [PendWrite.covers, List.length_cons, Bool.and_eq_true, Bool.or_eq_true, beq_iff_eq, decide_eq_true_eq]
  constructor
  · rintro ⟨⟨h1, h2⟩, h3⟩
    by_cases ha : a' = a
    · exact .inl ⟨h1, ha⟩
    · exact .inr ⟨⟨h1, by omega⟩, by omega⟩
  · rintro (⟨h1, h2⟩ | ⟨⟨h1, h2⟩, h3⟩)
    · exact ⟨⟨h1, by omega⟩, by omega⟩
    · exact ⟨⟨h1, by omega⟩, by omega⟩

theorem latestByte_joinRuns (g strm : Nat) (bs : List (Space × Nat × Byte)) (sp : Space) (a : Nat) :
    latestByte (joinRuns g strm bs) sp a = lastStored bs sp a := by
  induction bs with
  | nil => rfl
  | cons p l ih =>
    obtain ⟨sp', a', b⟩ := p
    rw [lastStored_cons, ← ih]
    simp only [joinRuns]
    cases hj : joinRuns g strm l with
    | nil =>
      simp only [latestByte_cons, latestByte_nil, PendWrite.covers_one]
      by_cases h : sp' = sp ∧ a' = a
      · obtain ⟨rfl, rfl⟩ := h; simp
      · simp [h]
    | cons w r =>
      simp only
      split
      · next hc =>
        obtain ⟨h1, h2⟩ := hc
        subst h1
        simp only [latestByte_cons, PendWrite.covers_cons _ _ _ _ _ _ _ h2]
        cases latestByte r sp a with
        | some x => simp
        | none =>
          simp only [Option.none_or]
          by_cases h : w.sp = sp ∧ a' = a
          · obtain ⟨rfl, rfl⟩ := h
            have : w.covers w.sp a' = false := by simp [PendWrite.covers]; omega
            simp [this]
          · by_cases hw : w.covers sp a
            · have e2 : w.addr ≤ a := by
                simp only [PendWrite.covers, Bool.and_eq_true, decide_eq_true_eq] at hw; exact hw.1.2
              have e3 : a - a' = (a - w.addr) + 1 := by omega
              simp [hw, e3]
            · simp [hw, h]
      · simp only [latestByte_cons, PendWrite.covers_one]
        cases latestByte r sp a with
        | some x => simp
        | none =>
          by_cases h : sp' = sp ∧ a' = a
          · obtain ⟨rfl, rfl⟩ := h; simp
          · simp [h]

theorem joinRuns_gcid (g strm : Nat) (bs : List (Space × Nat × Byte)) : ∀ w ∈ joinRuns g strm bs, w.gcid = g := by
  induction bs with
  | nil => simp [joinRuns]
  | cons p l ih =>
    obtain ⟨sp', a', b⟩ := p
    simp only [joinRuns]
    cases hj : joinRuns g strm l with
    | nil => simp
    | cons w r =>
      rw [hj] at ih
      simp only
      split
      · intro v hv
        simp only [List.mem_cons] at hv
        rcases hv with rfl | hv
        · rfl
        · exact ih v (by simp [hv])
      · intro v hv
        simp only [List.mem_cons] at hv
        rcases hv with rfl | hv
        · rfl
        · exact ih v (by simpa using hv)

/-- A store to the register window or to an address in no range leaves no committed write, and no data place is one of these. -/
theorem noPlace_of_data {sp : Space} {a : Nat} (b : Byte) (h : dataPlace sp a) : noPlace (sp, a, b) = false := by
  cases sp with
  | dram =>
    obtain ⟨d, o, hz⟩ := h rfl
    simp [noPlace, hz]
  | host => rfl
  | sp c => rfl

theorem lastStored_filter (bs : List (Space × Nat × Byte)) (sp : Space) (a : Nat) (h : dataPlace sp a) :
    lastStored (bs.filter (fun b => !noPlace b)) sp a = lastStored bs sp a := by
  induction bs with
  | nil => rfl
  | cons p l ih =>
    obtain ⟨sp', a', b⟩ := p
    by_cases hp : sp' = sp ∧ a' = a
    · obtain ⟨rfl, rfl⟩ := hp
      rw [List.filter_cons_of_pos (by simp [noPlace_of_data b h]), lastStored_cons, lastStored_cons, ih]
    · by_cases hk : noPlace (sp', a', b) = true
      · rw [List.filter_cons_of_neg (by simp [hk]), lastStored_cons, ih]
        simp [hp]
      · rw [List.filter_cons_of_pos (by simp [hk]), lastStored_cons, lastStored_cons, ih]

/-- A STORE AS ITS CONTEXT SEES IT: the last byte stored at a place, else what stood there before. -/
theorem State.ownByte_commitStore (s : State) (g strm : Nat) (bs : List (Space × Nat × Byte)) (sp : Space) (a : Nat)
    (h : dataPlace sp a) :
    (s.commitStore g strm bs).ownByte g sp a = (lastStored bs sp a).getD (s.ownByte g sp a) := by
  have key (bs : List (Space × Nat × Byte)) : ({ s with wbuf := s.wbuf ++ joinRuns g strm bs } : State).ownByte g sp a =
      (lastStored bs sp a).getD (s.ownByte g sp a) := by
    rw [State.ownByte_eq, State.ownByte_eq, ofCtx_append, latestByte_append, ← latestByte_joinRuns g strm]
    have hall : ofCtx g (joinRuns g strm bs) = joinRuns g strm bs := by
      rw [ofCtx, List.filter_eq_self]
      intro w hm
      simp [joinRuns_gcid g strm bs w hm]
    rw [hall]
    have hmem : ({ s with wbuf := s.wbuf ++ joinRuns g strm bs } : State).memByte sp a = s.memByte sp a := by
      cases sp <;> rfl
    rw [hmem]
    cases latestByte (joinRuns g strm bs) sp a <;> simp
  simp only [State.commitStore]
  split
  · rw [State.performAll, State.ownByte_perform _ _ g (by simp) _ _ h, key, lastStored_filter bs sp a h]
  · rw [key, lastStored_filter bs sp a h]

end Sys2Proof.Machine
end

