-- ==== Sys2Proof/Laws/PerInstr.lean ====
section
/-! SUPPORT. What holds of every operation as syntax: decoding the encoding of a well-formed operation gives it back. -/

set_option linter.unusedSimpArgs false
set_option Elab.async false

namespace Sys2Proof.Laws.RoundTrip

open Sys2Proof Sys2Proof.Laws

/-- A well-formed operation's word fits its slot, and the decoder reads the operation from it, in its own slot, and in slot
S0 too where the opcode is not S1 only (R187, R191, R203). -/
def Statement (i : Instr) : Prop :=
  i.wf = true → ∀ e, encode i = some e →
    e.word < 2 ^ (8 * slotBytes i.slotNo) ∧ decodeSlot i.slotNo e.word e.lit = .ok i ∧
      (i.slotKind = some .s → decodeSlot 0 e.word e.lit = .ok i)

theorem none_statement {i : Instr} (h : encode i = none) : Statement i := by
  intro _ e he
  rw [h] at he
  cases he

theorem checked_wf {i : Instr} (hw : i.wf = true) : checked i = .ok i := by simp only [checked, hw, if_true]

theorem roundS {i : Instr} {e : Enc} (he : encode i = some e) (hb : e.word < 2 ^ 32)
    (h5 : flag e.word 5 = e.lit.isSome)
    (hk : (i.slotKind = some .s ∧ bits e.word 6 6 < 32) ∨ i.slotKind = some .s1)
    (hp : parseS e.word e.lit = .ok i) : Statement i := by
  intro hw e' he'
  rw [he] at he'
  cases he'
  have hd (b : Bool) (h : b = true → bits e.word 6 6 < 32) : decodeS b e.word e.lit = .ok i := by
    have h1 : (b && decide (0x20 ≤ bits e.word 6 6)) = false := by
      cases b
      · rfl
      · have := h rfl
        simp only [Bool.true_and, decide_eq_false_iff_not]; omega
    simp only [decodeS, h1, h5, bne_self_eq_false, hp]
    exact checked_wf hw
  rcases hk with ⟨hk, ho⟩ | hk
  · simp only [Instr.slotNo, hk]
    exact ⟨hb, hd false (by simp), fun _ => hd true (fun _ => ho)⟩
  · simp only [Instr.slotNo, hk]
    exact ⟨hb, hd false (by simp), by simp⟩

theorem roundN {i : Instr} {e : Enc} {p : Nat → Dec Instr} (he : encode i = some e)
    (hb : e.word < 2 ^ (8 * slotBytes i.slotNo)) (h5 : flag e.word 5 = false)
    (hs : ∀ w l, decodeSlot i.slotNo w l = decodeNoLit p w) (hk : i.slotKind ≠ some .s)
    (hp : p e.word = .ok i) : Statement i := by
  intro hw e' he'
  rw [he] at he'
  cases he'
  refine ⟨hb, ?_, fun h => absurd h hk⟩
  have h0 : bits e.word 5 1 = 0 := by
    have : bits e.word 5 1 < 2 := Nat.mod_lt _ (by decide)
    simp only [flag, beq_eq_false_iff_ne] at h5; omega
  rw [hs]
  simp only [decodeNoLit, zeroField, h0, need, hp]
  exact checked_wf hw

theorem roundLd {i : Instr} {e : Enc} (he : encode i = some e) (hb : e.word < 2 ^ 64) (h5 : flag e.word 5 = false)
    (hp : parseLd e.word = .ok i) (hk : i.slotKind = some .ld := by rfl) : Statement i :=
  have hn : i.slotNo = 2 := by simp only [Instr.slotNo, hk]
  roundN he (by rw [hn]; exact hb) h5 (fun _ _ => by rw [hn]; rfl) (by rw [hk]; decide) hp

theorem roundSt {i : Instr} {e : Enc} (he : encode i = some e) (hb : e.word < 2 ^ 64) (h5 : flag e.word 5 = false)
    (hp : parseSt e.word = .ok i) (hk : i.slotKind = some .st := by rfl) : Statement i :=
  have hn : i.slotNo = 3 := by simp only [Instr.slotNo, hk]
  roundN he (by rw [hn]; exact hb) h5 (fun _ _ => by rw [hn]; rfl) (by rw [hk]; decide) hp

theorem roundCp {i : Instr} {e : Enc} (he : encode i = some e) (hb : e.word < 2 ^ 64) (h5 : flag e.word 5 = false)
    (hp : parseCp e.word = .ok i) (hk : i.slotKind = some .cp := by rfl) : Statement i :=
  have hn : i.slotNo = 4 := by simp only [Instr.slotNo, hk]
  roundN he (by rw [hn]; exact hb) h5 (fun _ _ => by rw [hn]; rfl) (by rw [hk]; decide) hp

theorem roundMx {i : Instr} {e : Enc} (he : encode i = some e) (hb : e.word < 2 ^ 64) (h5 : flag e.word 5 = false)
    (hp : parseMx e.word = .ok i) (hk : i.slotKind = some .mx := by rfl) : Statement i :=
  have hn : i.slotNo = 5 := by simp only [Instr.slotNo, hk]
  roundN he (by rw [hn]; exact hb) h5 (fun _ _ => by rw [hn]; rfl) (by rw [hk]; decide) hp

theorem roundFl {i : Instr} {e : Enc} (he : encode i = some e) (hb : e.word < 2 ^ 64) (h5 : flag e.word 5 = false)
    (hp : parseFl e.word = .ok i) (hk : i.slotKind = some .fl := by rfl) : Statement i :=
  have hn : i.slotNo = 6 := by simp only [Instr.slotNo, hk]
  roundN he (by rw [hn]; exact hb) h5 (fun _ _ => by rw [hn]; rfl) (by rw [hk]; decide) hp

theorem roundSc {i : Instr} {e : Enc} (he : encode i = some e) (hb : e.word < 2 ^ 32) (h5 : flag e.word 5 = false)
    (hp : parseSc e.word = .ok i) (hk : i.slotKind = some .sc := by rfl) : Statement i :=
  have hn : i.slotNo = 7 := by simp only [Instr.slotNo, hk]
  roundN he (by rw [hn]; exact hb) h5 (fun _ _ => by rw [hn]; rfl) (by rw [hk]; decide) hp

/-- The word of `encR` fits, and its fields read back. -/
theorem encR_form {op f2 : Nat} (f : FR) (hop : op < 2 ^ 6) (hf2 : f2 < 2 ^ 2) :
    (encR op f2 f).word < 2 ^ 32 ∧ flag (encR op f2 f).word 5 = (encR op f2 f).lit.isSome ∧ bits (encR op f2 f).word 6 6 = op ∧ bits (encR op f2 f).word 30 2 = f2 ∧
      decFR (encR op f2 f).word (encR op f2 f).lit = .ok f := by
  have := encOp_lt f.c f.lit.isSome hop; have := dst_lt f.d; have := src_lt f.a; have := src_lt f.b
  refine ⟨?_, ?_, ?_, ?_, ?_⟩
  · simp only [encR]
    repeat first | with_reducible assumption | refine add_lt ?_ (by with_reducible assumption) (by decide) | omega
  · simp (disch := decide) only [encR, flag, bits_low, encOp_l, b2n_eq, Option.isSome_none, Option.isSome_some]
  · simp (disch := first | decide | omega) only [encR, bits_low, bits_encOp]
  · simp (disch := first | decide | omega) only [encR, bits_top]
  · simp (disch := first | decide | omega) only [bits_low, bits_top, bits_zero, bits_encOp, decCommon_low,
    decCommon_encOp, flag, zeroField, need, decFR, decDst_code, decSrc_code, encR, ofNat_val, ofNat_toNat,
    b2n_eq]
    rfl

/-- The word of `encR1` fits, and its fields read back. -/
theorem encR1_form {op f2 : Nat} (f : FR1) (hop : op < 2 ^ 6) (hf2 : f2 < 2 ^ 2) :
    (encR1 op f2 f).word < 2 ^ 32 ∧ flag (encR1 op f2 f).word 5 = (encR1 op f2 f).lit.isSome ∧ bits (encR1 op f2 f).word 6 6 = op ∧ bits (encR1 op f2 f).word 30 2 = f2 ∧
      decFR1 (encR1 op f2 f).word (encR1 op f2 f).lit = .ok f := by
  have := encOp_lt f.c f.lit.isSome hop; have := dst_lt f.d; have := src_lt f.a
  refine ⟨?_, ?_, ?_, ?_, ?_⟩
  · simp only [encR1]
    repeat first | with_reducible assumption | refine add_lt ?_ (by with_reducible assumption) (by decide) | omega
  · simp (disch := decide) only [encR1, flag, bits_low, encOp_l, b2n_eq, Option.isSome_none, Option.isSome_some]
  · simp (disch := first | decide | omega) only [encR1, bits_low, bits_encOp]
  · simp (disch := first | decide | omega) only [encR1, bits_top]
  · simp (disch := first | decide | omega) only [bits_low, bits_top, bits_zero, bits_encOp, decCommon_low,
    decCommon_encOp, flag, zeroField, need, decFR1, decDst_code, decSrc_code, encR1, ofNat_val, ofNat_toNat,
    b2n_eq]
    rfl

/-- The word of `encRa` fits, and its fields read back. -/
theorem encRa_form {op : Nat} (f : FRa) (hop : op < 2 ^ 6) :
    (encRa op f).word < 2 ^ 32 ∧ flag (encRa op f).word 5 = (encRa op f).lit.isSome ∧ bits (encRa op f).word 6 6 = op ∧
      decFRa (encRa op f).word (encRa op f).lit = .ok f := by
  have := encOp_lt f.c f.lit.isSome hop; have := src_lt f.a
  refine ⟨?_, ?_, ?_, ?_⟩
  · simp only [encRa]
    repeat first | with_reducible assumption | refine add_lt ?_ (by with_reducible assumption) (by decide) | omega
  · simp (disch := decide) only [encRa, flag, bits_low, encOp_l, b2n_eq, Option.isSome_none, Option.isSome_some]
  · simp (disch := first | decide | omega) only [encRa, bits_low, bits_encOp]
  · simp (disch := first | decide | omega) only [bits_low, bits_top, bits_zero, bits_encOp, decCommon_low,
    decCommon_encOp, flag, zeroField, need, decFRa, decSrc_code, encRa, ofNat_val, ofNat_toNat, b2n_eq]
    rfl

/-- The word of `encG` fits, and its fields read back. -/
theorem encG_form {op f2 : Nat} (f : FG) (hop : op < 2 ^ 6) (hf2 : f2 < 2 ^ 2) :
    (encG op f2 f).word < 2 ^ 32 ∧ flag (encG op f2 f).word 5 = (encG op f2 f).lit.isSome ∧ bits (encG op f2 f).word 6 6 = op ∧ bits (encG op f2 f).word 30 2 = f2 ∧
      decFG (encG op f2 f).word (encG op f2 f).lit = .ok f := by
  have := encOp_lt f.c false hop; have := (show f.bd.val < 2 ^ 3 from f.bd.isLt)
  have := (show f.ba.val < 2 ^ 3 from f.ba.isLt); have := b2n_lt1 f.na
  have := (show f.bb.val < 2 ^ 3 from f.bb.isLt); have := b2n_lt1 f.nb
  refine ⟨?_, ?_, ?_, ?_, ?_⟩
  · simp only [encG]
    repeat first | with_reducible assumption | refine add_lt ?_ (by with_reducible assumption) (by decide) | omega
  · simp (disch := decide) only [encG, flag, bits_low, encOp_l, b2n_eq, Option.isSome_none, Option.isSome_some]
  · simp (disch := first | decide | omega) only [encG, bits_low, bits_encOp]
  · simp (disch := first | decide | omega) only [encG, bits_top]
  · simp (disch := first | decide | omega) only [bits_low, bits_top, bits_zero, bits_encOp, decCommon_low,
    decCommon_encOp, flag, zeroField, need, decFG, fin3, encG, ofNat_val, ofNat_toNat, b2n_eq]
    rfl

/-- The word of `encA` fits, and its fields read back. -/
theorem encA_form {bi : Nat} (f : FA) (hbi : bi < 2 ^ 1) :
    (encA bi f).word < 2 ^ 32 ∧ flag (encA bi f).word 5 = (encA bi f).lit.isSome ∧ bits (encA bi f).word 6 6 = 0x14 ∧ bits (encA bi f).word 31 1 = bi ∧
      decFA (encA bi f).word (encA bi f).lit = .ok f := by
  have := encOp_lt f.c f.lit.isSome (show 0x14 < 2 ^ 6 by decide)
  have := (show f.gn.val < 2 ^ 4 from f.gn.isLt); have := (show f.dim.val < 2 ^ 3 by omega)
  have := src_lt f.a; have := src_lt f.b
  refine ⟨?_, ?_, ?_, ?_, ?_⟩
  · simp only [encA]
    repeat first | with_reducible assumption | refine add_lt ?_ (by with_reducible assumption) (by decide) | omega
  · simp (disch := decide) only [encA, flag, bits_low, encOp_l, b2n_eq, Option.isSome_none, Option.isSome_some]
  · simp (disch := first | decide | omega) only [encA, bits_low, bits_encOp]
  · simp (disch := first | decide | omega) only [encA, bits_top]
  · simp (disch := first | decide | omega) only [bits_low, bits_top, bits_zero, bits_encOp, decCommon_low,
    decCommon_encOp, flag, zeroField, need, decFA, decDim_val, decSrc_code, fin4, encA, ofNat_val, ofNat_toNat,
    b2n_eq]
    rfl

/-- The word of `encX` fits, and its fields read back. -/
theorem encX_form {op : Nat} (f : FX) (hop : op < 2 ^ 6) :
    (encX op f).word < 2 ^ 32 ∧ flag (encX op f).word 5 = (encX op f).lit.isSome ∧ bits (encX op f).word 6 6 = op ∧
      decFX (encX op f).word (encX op f).lit = .ok f := by
  have := encOp_lt f.c f.lit.isSome hop; have := dst_lt f.d; have := src_lt f.a; have := csr_lt f.csr
  refine ⟨?_, ?_, ?_, ?_⟩
  · simp only [encX]
    repeat first | with_reducible assumption | refine add_lt ?_ (by with_reducible assumption) (by decide) | omega
  · simp (disch := decide) only [encX, flag, bits_low, encOp_l, b2n_eq, Option.isSome_none, Option.isSome_some]
  · simp (disch := first | decide | omega) only [encX, bits_low, bits_encOp]
  · simp (disch := first | decide | omega) only [bits_low, bits_top, bits_zero, bits_encOp, decCommon_low,
    decCommon_encOp, flag, zeroField, need, decFX, decCsr_code, decSrc_code, decDst_code, encX, ofNat_val,
    ofNat_toNat, b2n_eq]
    rfl

/-- The word of `encZ` fits, and its fields read back. -/
theorem encZ_form {op : Nat} (f : FZ) (hop : op < 2 ^ 6) :
    (encZ op f).word < 2 ^ 32 ∧ flag (encZ op f).word 5 = (encZ op f).lit.isSome ∧ bits (encZ op f).word 6 6 = op ∧
      decFZ (encZ op f).word (encZ op f).lit = .ok f := by
  have := encOp_lt f.c false hop
  refine ⟨?_, ?_, ?_, ?_⟩
  · simp only [encZ]
    repeat first | with_reducible assumption | refine add_lt ?_ (by with_reducible assumption) (by decide) | omega
  · simp (disch := decide) only [encZ, flag, bits_low, encOp_l, b2n_eq, Option.isSome_none, Option.isSome_some]
  · simp (disch := first | decide | omega) only [encZ, bits_low, bits_encOp]
  · simp (disch := first | decide | omega) only [bits_low, bits_top, bits_zero, bits_encOp, decCommon_low,
    decCommon_encOp, flag, zeroField, need, decFZ, encZ, ofNat_val, ofNat_toNat, b2n_eq]
    rfl

/-- The word of `encM` fits, and its fields read back. -/
theorem encM_form {op : Nat} (f : FM) (hop : op < 2 ^ 8) :
    (encM op f).word < 2 ^ 64 ∧ flag (encM op f).word 5 = false ∧ bits (encM op f).word 6 8 = op ∧
      decFM (encM op f).word = .ok f := by
  have := encOp_lt f.c false hop; have := vop_lt f.vd; have := fmt_lt f.fmt; have := b2n_lt1 f.t
  have := (show f.nrow.val < 2 ^ 5 from f.nrow.isLt); have := (show f.nu.val < 2 ^ 5 from f.nu.isLt)
  have := (show f.gn.val < 2 ^ 4 from f.gn.isLt)
  refine ⟨?_, ?_, ?_, ?_⟩
  · simp only [encM]
    repeat first | with_reducible assumption | refine add_lt ?_ (by with_reducible assumption) (by decide) | omega
  · simp (disch := decide) only [encM, flag, bits_low, encOp_l, b2n_eq, Option.isSome_none, Option.isSome_some]
  · simp (disch := first | decide | omega) only [encM, bits_low, bits_encOp]
  · simp (disch := first | decide | omega) only [bits_low, bits_top, bits_zero, bits_encOp, decCommon_low,
    decCommon_encOp, flag, zeroField, need, decFM, decFmt_code, decV_code, fin5, fin4, encM, ofNat_val,
    ofNat_toNat, b2n_eq]
    rfl

/-- The word of `encAtom` fits, and its fields read back. -/
theorem encAtom_form {op : Nat} (f : FAtom) (hop : op < 2 ^ 8) :
    (encAtom op f).word < 2 ^ 64 ∧ flag (encAtom op f).word 5 = false ∧ bits (encAtom op f).word 6 8 = op ∧
      decFAtom (encAtom op f).word = .ok f := by
  have := encOp_lt f.c false hop; have := (show f.d.val < 2 ^ 5 from f.d.isLt); have := src_lt f.a
  have := src_lt f.b; have := f.off.isLt; have := b2n_lt1 f.w64; have := b2n_lt1 f.sp
  have := (show f.strm.val < 2 ^ 4 from f.strm.isLt)
  refine ⟨?_, ?_, ?_, ?_⟩
  · simp only [encAtom]
    repeat first | with_reducible assumption | refine add_lt ?_ (by with_reducible assumption) (by decide) | omega
  · simp (disch := decide) only [encAtom, flag, bits_low, encOp_l, b2n_eq, Option.isSome_none, Option.isSome_some]
  · simp (disch := first | decide | omega) only [encAtom, bits_low, bits_encOp]
  · simp (disch := first | decide | omega) only [bits_low, bits_top, bits_zero, bits_encOp, decCommon_low,
    decCommon_encOp, flag, zeroField, need, decFAtom, decSz1_b2n, decX_val, decSrc_code, decOff, fin4, encAtom,
    ofNat_val, ofNat_toNat, b2n_eq]
    rfl

/-- The word of `encMm` fits, and its fields read back. -/
theorem encMm_form {op : Nat} (f : FMm) (hop : op < 2 ^ 8) :
    (encMm op f).word < 2 ^ 64 ∧ flag (encMm op f).word 5 = false ∧ bits (encMm op f).word 6 8 = op ∧
      decFMm (encMm op f).word = .ok f := by
  have := encOp_lt f.c false hop; have := (show f.acc.val < 2 ^ 6 from f.acc.isLt); have := mop_lt f.a
  have := mop_lt f.b; have := fmt_lt f.af; have := fmt_lt f.bf
  have := (show f.scr.val < 2 ^ 4 from f.scr.isLt); have := semiring_lt f.sr; have := b2n_lt1 f.t
  have := b2n_lt1 f.g
  refine ⟨?_, ?_, ?_, ?_⟩
  · simp only [encMm]
    repeat first | with_reducible assumption | refine add_lt ?_ (by with_reducible assumption) (by decide) | omega
  · simp (disch := decide) only [encMm, flag, bits_low, encOp_l, b2n_eq, Option.isSome_none, Option.isSome_some]
  · simp (disch := first | decide | omega) only [encMm, bits_low, bits_encOp]
  · simp (disch := first | decide | omega) only [bits_low, bits_top, bits_zero, bits_encOp, decCommon_low,
    decCommon_encOp, flag, zeroField, need, decFMm, decFmt_code, fin6, decM_code, fin4, decSr_code, encMm,
    ofNat_val, ofNat_toNat, b2n_eq]
    rfl

/-- The word of `encV` fits, and its fields read back. -/
theorem encV_form {op : Nat} (f : FV) (hop : op < 2 ^ 8) :
    (encV op f) < 2 ^ 64 ∧ flag (encV op f) 5 = false ∧ bits (encV op f) 6 8 = op ∧
      decFV (encV op f) = .ok f := by
  have := encOp_lt f.c false hop; have := vop_lt f.vd; have := vop_lt f.vs
  have := (show f.nr.val < 2 ^ 6 from f.nr.isLt); have := fmt_lt f.sf; have := fmt_lt f.df
  have := rmode_lt f.rm; have := b2n_lt1 f.prop
  refine ⟨?_, ?_, ?_, ?_⟩
  · simp only [encV]
    repeat first | with_reducible assumption | refine add_lt ?_ (by with_reducible assumption) (by decide) | omega
  · simp (disch := decide) only [encV, flag, bits_low, encOp_l, b2n_eq, Option.isSome_none, Option.isSome_some]
  · simp (disch := first | decide | omega) only [encV, bits_low, bits_encOp]
  · simp (disch := first | decide | omega) only [bits_low, bits_top, bits_zero, bits_encOp, decCommon_low,
    decCommon_encOp, flag, zeroField, need, decFV, decFmt_code, decRM_code, decV_code, fin6, encV, ofNat_val,
    ofNat_toNat, b2n_eq]
    rfl

/-- The word of `encVn` fits, and its fields read back. -/
theorem encVn_form {op : Nat} (f : FVn) (hop : op < 2 ^ 8) :
    (encVn op f).word < 2 ^ 64 ∧ flag (encVn op f).word 5 = false ∧ bits (encVn op f).word 6 8 = op ∧
      decFVn (encVn op f).word = .ok f := by
  have := encOp_lt f.c false hop; have := vop_lt f.vd; have := vop_lt f.vs
  have := (show f.nr.val < 2 ^ 6 from f.nr.isLt)
  refine ⟨?_, ?_, ?_, ?_⟩
  · simp only [encVn]
    repeat first | with_reducible assumption | refine add_lt ?_ (by with_reducible assumption) (by decide) | omega
  · simp (disch := decide) only [encVn, flag, bits_low, encOp_l, b2n_eq, Option.isSome_none, Option.isSome_some]
  · simp (disch := first | decide | omega) only [encVn, bits_low, bits_encOp]
  · simp (disch := first | decide | omega) only [bits_low, bits_top, bits_zero, bits_encOp, decCommon_low,
    decCommon_encOp, flag, zeroField, need, decFVn, decV_code, fin6, encVn, ofNat_val, ofNat_toNat, b2n_eq]
    rfl

/-- The word of `encSca` fits, and its fields read back. -/
theorem encSca_form {op : Nat} (f : FSca) (hop : op < 2 ^ 6) :
    (encSca op f).word < 2 ^ 32 ∧ flag (encSca op f).word 5 = false ∧ bits (encSca op f).word 6 6 = op ∧
      decFSca (encSca op f).word = .ok f := by
  have := encOp_lt f.c false hop; have := src_lt f.a
  refine ⟨?_, ?_, ?_, ?_⟩
  · simp only [encSca]
    repeat first | with_reducible assumption | refine add_lt ?_ (by with_reducible assumption) (by decide) | omega
  · simp (disch := decide) only [encSca, flag, bits_low, encOp_l, b2n_eq, Option.isSome_none, Option.isSome_some]
  · simp (disch := first | decide | omega) only [encSca, bits_low, bits_encOp]
  · simp (disch := first | decide | omega) only [bits_low, bits_top, bits_zero, bits_encOp, decCommon_low,
    decCommon_encOp, flag, zeroField, need, decFSca, decSrc_code, encSca, ofNat_val, ofNat_toNat, b2n_eq]
    rfl

theorem add (f : FR) : Statement (.add f) := by
  obtain ⟨hw, h5, ho, h2, hd⟩ := encR_form (op := 0x00) (f2 := 0) f (by decide) (by decide)
  refine roundS rfl hw h5 (.inl ⟨rfl, by rw [ho]; decide⟩) ?_
  rw [parseS, ho]
  simp only [parseSAt, zeroField, need, flag, h2, hd]
  rfl

theorem sub (f : FR) : Statement (.sub f) := by
  obtain ⟨hw, h5, ho, h2, hd⟩ := encR_form (op := 0x01) (f2 := 0) f (by decide) (by decide)
  refine roundS rfl hw h5 (.inl ⟨rfl, by rw [ho]; decide⟩) ?_
  rw [parseS, ho]
  simp only [parseSAt, zeroField, need, flag, h2, hd]
  rfl

theorem mul (f : FR) : Statement (.mul f) := by
  obtain ⟨hw, h5, ho, h2, hd⟩ := encR_form (op := 0x02) (f2 := 0) f (by decide) (by decide)
  refine roundS rfl hw h5 (.inl ⟨rfl, by rw [ho]; decide⟩) ?_
  rw [parseS, ho]
  simp only [parseSAt, zeroField, need, flag, h2, hd]
  rfl

theorem mulh (f : FR) : Statement (.mulh f) := by
  obtain ⟨hw, h5, ho, h2, hd⟩ := encR_form (op := 0x03) (f2 := 0) f (by decide) (by decide)
  refine roundS rfl hw h5 (.inl ⟨rfl, by rw [ho]; decide⟩) ?_
  rw [parseS, ho]
  simp only [parseSAt, zeroField, need, flag, h2, hd]
  rfl

theorem mulhn (f : FR) : Statement (.mulhn f) := by
  obtain ⟨hw, h5, ho, h2, hd⟩ := encR_form (op := 0x03) (f2 := 1) f (by decide) (by decide)
  refine roundS rfl hw h5 (.inl ⟨rfl, by rw [ho]; decide⟩) ?_
  rw [parseS, ho]
  simp only [parseSAt, zeroField, need, flag, h2, hd]
  rfl

theorem div (f : FR) : Statement (.div f) := by
  obtain ⟨hw, h5, ho, h2, hd⟩ := encR_form (op := 0x04) (f2 := 0) f (by decide) (by decide)
  refine roundS rfl hw h5 (.inl ⟨rfl, by rw [ho]; decide⟩) ?_
  rw [parseS, ho]
  simp only [parseSAt, zeroField, need, flag, h2, hd]
  rfl

theorem divn (f : FR) : Statement (.divn f) := by
  obtain ⟨hw, h5, ho, h2, hd⟩ := encR_form (op := 0x04) (f2 := 1) f (by decide) (by decide)
  refine roundS rfl hw h5 (.inl ⟨rfl, by rw [ho]; decide⟩) ?_
  rw [parseS, ho]
  simp only [parseSAt, zeroField, need, flag, h2, hd]
  rfl

theorem rem (f : FR) : Statement (.rem f) := by
  obtain ⟨hw, h5, ho, h2, hd⟩ := encR_form (op := 0x04) (f2 := 2) f (by decide) (by decide)
  refine roundS rfl hw h5 (.inl ⟨rfl, by rw [ho]; decide⟩) ?_
  rw [parseS, ho]
  simp only [parseSAt, zeroField, need, flag, h2, hd]
  rfl

theorem remn (f : FR) : Statement (.remn f) := by
  obtain ⟨hw, h5, ho, h2, hd⟩ := encR_form (op := 0x04) (f2 := 3) f (by decide) (by decide)
  refine roundS rfl hw h5 (.inl ⟨rfl, by rw [ho]; decide⟩) ?_
  rw [parseS, ho]
  simp only [parseSAt, zeroField, need, flag, h2, hd]
  rfl

theorem and (f : FR) : Statement (.and f) := by
  obtain ⟨hw, h5, ho, h2, hd⟩ := encR_form (op := 0x05) (f2 := 0) f (by decide) (by decide)
  refine roundS rfl hw h5 (.inl ⟨rfl, by rw [ho]; decide⟩) ?_
  rw [parseS, ho]
  simp only [parseSAt, zeroField, need, flag, h2, hd]
  rfl

theorem or (f : FR) : Statement (.or f) := by
  obtain ⟨hw, h5, ho, h2, hd⟩ := encR_form (op := 0x06) (f2 := 0) f (by decide) (by decide)
  refine roundS rfl hw h5 (.inl ⟨rfl, by rw [ho]; decide⟩) ?_
  rw [parseS, ho]
  simp only [parseSAt, zeroField, need, flag, h2, hd]
  rfl

theorem xor (f : FR) : Statement (.xor f) := by
  obtain ⟨hw, h5, ho, h2, hd⟩ := encR_form (op := 0x07) (f2 := 0) f (by decide) (by decide)
  refine roundS rfl hw h5 (.inl ⟨rfl, by rw [ho]; decide⟩) ?_
  rw [parseS, ho]
  simp only [parseSAt, zeroField, need, flag, h2, hd]
  rfl

theorem andn (f : FR) : Statement (.andn f) := by
  obtain ⟨hw, h5, ho, h2, hd⟩ := encR_form (op := 0x08) (f2 := 0) f (by decide) (by decide)
  refine roundS rfl hw h5 (.inl ⟨rfl, by rw [ho]; decide⟩) ?_
  rw [parseS, ho]
  simp only [parseSAt, zeroField, need, flag, h2, hd]
  rfl

theorem shl (f : FR) : Statement (.shl f) := by
  obtain ⟨hw, h5, ho, h2, hd⟩ := encR_form (op := 0x09) (f2 := 0) f (by decide) (by decide)
  refine roundS rfl hw h5 (.inl ⟨rfl, by rw [ho]; decide⟩) ?_
  rw [parseS, ho]
  simp only [parseSAt, zeroField, need, flag, h2, hd]
  rfl

theorem shr (f : FR) : Statement (.shr f) := by
  obtain ⟨hw, h5, ho, h2, hd⟩ := encR_form (op := 0x09) (f2 := 1) f (by decide) (by decide)
  refine roundS rfl hw h5 (.inl ⟨rfl, by rw [ho]; decide⟩) ?_
  rw [parseS, ho]
  simp only [parseSAt, zeroField, need, flag, h2, hd]
  rfl

theorem sar (f : FR) : Statement (.sar f) := by
  obtain ⟨hw, h5, ho, h2, hd⟩ := encR_form (op := 0x09) (f2 := 2) f (by decide) (by decide)
  refine roundS rfl hw h5 (.inl ⟨rfl, by rw [ho]; decide⟩) ?_
  rw [parseS, ho]
  simp only [parseSAt, zeroField, need, flag, h2, hd]
  rfl

theorem rol (f : FR) : Statement (.rol f) := by
  obtain ⟨hw, h5, ho, h2, hd⟩ := encR_form (op := 0x09) (f2 := 3) f (by decide) (by decide)
  refine roundS rfl hw h5 (.inl ⟨rfl, by rw [ho]; decide⟩) ?_
  rw [parseS, ho]
  simp only [parseSAt, zeroField, need, flag, h2, hd]
  rfl

theorem clz (f : FR1) : Statement (.clz f) := by
  obtain ⟨hw, h5, ho, h2, hd⟩ := encR1_form (op := 0x0A) (f2 := 0) f (by decide) (by decide)
  refine roundS rfl hw h5 (.inl ⟨rfl, by rw [ho]; decide⟩) ?_
  rw [parseS, ho]
  simp only [parseSAt, zeroField, need, flag, h2, hd]
  rfl

theorem ctz (f : FR1) : Statement (.ctz f) := by
  obtain ⟨hw, h5, ho, h2, hd⟩ := encR1_form (op := 0x0A) (f2 := 1) f (by decide) (by decide)
  refine roundS rfl hw h5 (.inl ⟨rfl, by rw [ho]; decide⟩) ?_
  rw [parseS, ho]
  simp only [parseSAt, zeroField, need, flag, h2, hd]
  rfl

theorem popc (f : FR1) : Statement (.popc f) := by
  obtain ⟨hw, h5, ho, h2, hd⟩ := encR1_form (op := 0x0A) (f2 := 2) f (by decide) (by decide)
  refine roundS rfl hw h5 (.inl ⟨rfl, by rw [ho]; decide⟩) ?_
  rw [parseS, ho]
  simp only [parseSAt, zeroField, need, flag, h2, hd]
  rfl

theorem min (f : FR) : Statement (.min f) := by
  obtain ⟨hw, h5, ho, h2, hd⟩ := encR_form (op := 0x0B) (f2 := 0) f (by decide) (by decide)
  refine roundS rfl hw h5 (.inl ⟨rfl, by rw [ho]; decide⟩) ?_
  rw [parseS, ho]
  simp only [parseSAt, zeroField, need, flag, h2, hd]
  rfl

theorem max (f : FR) : Statement (.max f) := by
  obtain ⟨hw, h5, ho, h2, hd⟩ := encR_form (op := 0x0B) (f2 := 1) f (by decide) (by decide)
  refine roundS rfl hw h5 (.inl ⟨rfl, by rw [ho]; decide⟩) ?_
  rw [parseS, ho]
  simp only [parseSAt, zeroField, need, flag, h2, hd]
  rfl

theorem minn (f : FR) : Statement (.minn f) := by
  obtain ⟨hw, h5, ho, h2, hd⟩ := encR_form (op := 0x0B) (f2 := 2) f (by decide) (by decide)
  refine roundS rfl hw h5 (.inl ⟨rfl, by rw [ho]; decide⟩) ?_
  rw [parseS, ho]
  simp only [parseSAt, zeroField, need, flag, h2, hd]
  rfl

theorem maxn (f : FR) : Statement (.maxn f) := by
  obtain ⟨hw, h5, ho, h2, hd⟩ := encR_form (op := 0x0B) (f2 := 3) f (by decide) (by decide)
  refine roundS rfl hw h5 (.inl ⟨rfl, by rw [ho]; decide⟩) ?_
  rw [parseS, ho]
  simp only [parseSAt, zeroField, need, flag, h2, hd]
  rfl

theorem cmp (f : FC) : Statement (.cmp f) := by
  have := encOp_lt f.c f.lit.isSome (show 0x0C < 2 ^ 6 by decide)
  have := (show f.bd.val < 2 ^ 3 from f.bd.isLt); have := src_lt f.a; have := src_lt f.b
  have := cond_lt f.cond
  refine roundS rfl (by
    simp only [encCmp]
    repeat first | with_reducible assumption | refine add_lt ?_ (by with_reducible assumption) (by decide) | omega)
    (by simp (disch := decide) only [encCmp, flag, bits_low, encOp_l, b2n_eq, Option.isSome_none, Option.isSome_some])
    (.inl ⟨rfl, by simp (disch := decide) only [encCmp, bits_low, bits_encOp]; decide⟩) ?_
  have hop : bits (encCmp f).word 6 6 = 0x0C := by simp (disch := decide) only [encCmp, bits_low, bits_encOp]
  rw [parseS, hop]
  simp (disch := first | decide | omega) only [parseSAt, bits_low, bits_top, bits_zero, bits_encOp,
    decCommon_low, decCommon_encOp, flag, zeroField, need, decFC, decSrc_code, fin3, decCond_code, encCmp,
    ofNat_val, ofNat_toNat, b2n_eq]
  rfl

theorem sel (f : FSel) : Statement (.sel f) := by
  have := encOp_lt f.c f.lit.isSome (show 0x0D < 2 ^ 6 by decide)
  have := (show f.dx.val < 2 ^ 5 from f.dx.isLt); have := (show f.bs.val < 2 ^ 3 from f.bs.isLt)
  have := src_lt f.a; have := src_lt f.b
  refine roundS rfl (by
    simp only [encSel]
    repeat first | with_reducible assumption | refine add_lt ?_ (by with_reducible assumption) (by decide) | omega)
    (by simp (disch := decide) only [encSel, flag, bits_low, encOp_l, b2n_eq, Option.isSome_none, Option.isSome_some])
    (.inl ⟨rfl, by simp (disch := decide) only [encSel, bits_low, bits_encOp]; decide⟩) ?_
  have hop : bits (encSel f).word 6 6 = 0x0D := by simp (disch := decide) only [encSel, bits_low, bits_encOp]
  rw [parseS, hop]
  simp (disch := first | decide | omega) only [parseSAt, bits_low, bits_top, bits_zero, bits_encOp,
    decCommon_low, decCommon_encOp, flag, zeroField, need, decFSel, decSrc_code, fin5, fin3, encSel, ofNat_val,
    ofNat_toNat, b2n_eq]
  rfl

theorem mov (f : FR1) : Statement (.mov f) := by
  obtain ⟨hw, h5, ho, h2, hd⟩ := encR1_form (op := 0x0E) (f2 := 0) f (by decide) (by decide)
  refine roundS rfl hw h5 (.inl ⟨rfl, by rw [ho]; decide⟩) ?_
  rw [parseS, ho]
  simp only [parseSAt, zeroField, need, flag, h2, hd]
  rfl

theorem li (f : FI) : Statement (.li f) := by
  obtain ⟨c, d, imm⟩ := f
  have := dst_lt d
  cases imm with
  | i14 v =>
    have := encOp_lt c false (show 0x0F < 2 ^ 6 by decide); have := v.isLt
    refine roundS (e := ⟨encOp c false 0x0F + 2 ^ 12 * d.code + 2 ^ 18 * v.toNat, none⟩) rfl (by simp only; omega)
      (by simp (disch := first | decide | omega) only [flag, bits_low, encOp_l, b2n_eq, Option.isSome_none])
      (.inl ⟨rfl, by simp (disch := first | decide | omega) only [bits_low, bits_encOp]; decide⟩) ?_
    rw [parseS, show bits _ 6 6 = 0x0F by simp (disch := first | decide | omega) only [bits_low, bits_encOp]]
    simp (disch := first | decide | omega) only [parseSAt, bits_low, bits_top, decCommon_low, decCommon_encOp, decFI, decDst_code,
      ofNat_toNat]
    rfl
  | lit v =>
    have := encOp_lt c true (show 0x0F < 2 ^ 6 by decide)
    refine roundS (e := ⟨encOp c true 0x0F + 2 ^ 12 * d.code, some v⟩) rfl (by simp only; omega)
      (by simp (disch := first | decide | omega) only [flag, bits_low, encOp_l, b2n_eq, Option.isSome_some])
      (.inl ⟨rfl, by simp (disch := first | decide | omega) only [bits_low, bits_encOp]; decide⟩) ?_
    rw [parseS, show bits _ 6 6 = 0x0F by simp (disch := first | decide | omega) only [bits_low, bits_encOp]]
    simp (disch := first | decide | omega) only [parseSAt, bits_low, bits_top, bits_zero, decCommon_low, decCommon_encOp, decFI,
      decDst_code, zeroField, need]
    rfl

theorem lih (f : FLih) : Statement (.lih f) := by
  have := encOp_lt f.c true (show 0x10 < 2 ^ 6 by decide); have := f.imm.isLt; have := dst_lt f.d
  have := src_lt f.a
  refine roundS rfl (by
    simp only [encLih]
    repeat first | with_reducible assumption | refine add_lt ?_ (by with_reducible assumption) (by decide) | omega)
    (by simp (disch := decide) only [encLih, flag, bits_low, encOp_l, b2n_eq, Option.isSome_none, Option.isSome_some])
    (.inl ⟨rfl, by simp (disch := decide) only [encLih, bits_low, bits_encOp]; decide⟩) ?_
  have hop : bits (encLih f).word 6 6 = 0x10 := by simp (disch := decide) only [encLih, bits_low, bits_encOp]
  rw [parseS, hop]
  simp (disch := first | decide | omega) only [parseSAt, bits_low, bits_top, bits_zero, bits_encOp,
    decCommon_low, decCommon_encOp, flag, zeroField, need, decFLih, decDst_code, decSrc_code, encLih,
    ofNat_val, ofNat_toNat, b2n_eq]
  rfl

theorem sext (f : FExt) : Statement (.sext f) := by
  have := encOp_lt f.c f.lit.isSome (show 0x11 < 2 ^ 6 by decide); have := dst_lt f.d; have := src_lt f.a
  have := extW_lt f.w
  refine roundS rfl (by
    simp only [encExt]
    repeat first | with_reducible assumption | refine add_lt ?_ (by with_reducible assumption) (by decide) | omega)
    (by simp (disch := decide) only [encExt, flag, bits_low, encOp_l, b2n_eq, Option.isSome_none, Option.isSome_some])
    (.inl ⟨rfl, by simp (disch := decide) only [encExt, bits_low, bits_encOp]; decide⟩) ?_
  have hop : bits (encExt 0x11 f).word 6 6 = 0x11 := by simp (disch := decide) only [encExt, bits_low, bits_encOp]
  rw [parseS, hop]
  simp (disch := first | decide | omega) only [parseSAt, bits_low, bits_top, bits_zero, bits_encOp,
    decCommon_low, decCommon_encOp, flag, zeroField, need, decFExt, decDst_code, decSrc_code, encExt,
    ofNat_val, ofNat_toNat, b2n_eq]
  obtain ⟨_, _, _, _, w⟩ := f; cases w <;> rfl

theorem zext (f : FExt) : Statement (.zext f) := by
  have := encOp_lt f.c f.lit.isSome (show 0x12 < 2 ^ 6 by decide); have := dst_lt f.d; have := src_lt f.a
  have := extW_lt f.w
  refine roundS rfl (by
    simp only [encExt]
    repeat first | with_reducible assumption | refine add_lt ?_ (by with_reducible assumption) (by decide) | omega)
    (by simp (disch := decide) only [encExt, flag, bits_low, encOp_l, b2n_eq, Option.isSome_none, Option.isSome_some])
    (.inl ⟨rfl, by simp (disch := decide) only [encExt, bits_low, bits_encOp]; decide⟩) ?_
  have hop : bits (encExt 0x12 f).word 6 6 = 0x12 := by simp (disch := decide) only [encExt, bits_low, bits_encOp]
  rw [parseS, hop]
  simp (disch := first | decide | omega) only [parseSAt, bits_low, bits_top, bits_zero, bits_encOp,
    decCommon_low, decCommon_encOp, flag, zeroField, need, decFExt, decDst_code, decSrc_code, encExt,
    ofNat_val, ofNat_toNat, b2n_eq]
  obtain ⟨_, _, _, _, w⟩ := f; cases w <;> rfl

theorem gand (f : FG) : Statement (.gand f) := by
  obtain ⟨hw, h5, ho, h2, hd⟩ := encG_form (op := 0x13) (f2 := 0) f (by decide) (by decide)
  refine roundS rfl hw h5 (.inl ⟨rfl, by rw [ho]; decide⟩) ?_
  rw [parseS, ho]
  simp only [parseSAt, zeroField, need, flag, h2, hd]
  rfl

theorem gor (f : FG) : Statement (.gor f) := by
  obtain ⟨hw, h5, ho, h2, hd⟩ := encG_form (op := 0x13) (f2 := 1) f (by decide) (by decide)
  refine roundS rfl hw h5 (.inl ⟨rfl, by rw [ho]; decide⟩) ?_
  rw [parseS, ho]
  simp only [parseSAt, zeroField, need, flag, h2, hd]
  rfl

theorem gnot (f : FG1) : Statement (.gnot f) := by
  have := encOp_lt f.c false (show 0x13 < 2 ^ 6 by decide); have := (show f.bd.val < 2 ^ 3 from f.bd.isLt)
  have := (show f.ba.val < 2 ^ 3 from f.ba.isLt); have := b2n_lt1 f.na
  refine roundS rfl (by
    simp only [encGnot]
    repeat first | with_reducible assumption | refine add_lt ?_ (by with_reducible assumption) (by decide) | omega)
    (by simp (disch := decide) only [encGnot, flag, bits_low, encOp_l, b2n_eq, Option.isSome_none, Option.isSome_some])
    (.inl ⟨rfl, by simp (disch := decide) only [encGnot, bits_low, bits_encOp]; decide⟩) ?_
  have hop : bits (encGnot f).word 6 6 = 0x13 := by simp (disch := decide) only [encGnot, bits_low, bits_encOp]
  rw [parseS, hop]
  simp (disch := first | decide | omega) only [parseSAt, bits_low, bits_top, bits_zero, bits_encOp,
    decCommon_low, decCommon_encOp, flag, zeroField, need, decFG, fin3, decFG1, encGnot, ofNat_val,
    ofNat_toNat, b2n_eq]
  rfl

theorem gset (f : FA) : Statement (.gset f) := by
  obtain ⟨hw, h5, ho, h2, hd⟩ := encA_form (bi := 0) f (by decide)
  refine roundS rfl hw h5 (.inl ⟨rfl, by rw [ho]; decide⟩) ?_
  rw [parseS, ho]
  simp only [parseSAt, zeroField, need, flag, h2, hd]
  rfl

theorem gsetE (f : FA) : Statement (.gsetE f) := by
  obtain ⟨hw, h5, ho, h2, hd⟩ := encA_form (bi := 1) f (by decide)
  refine roundS rfl hw h5 (.inl ⟨rfl, by rw [ho]; decide⟩) ?_
  rw [parseS, ho]
  simp only [parseSAt, zeroField, need, flag, h2, hd]
  rfl

theorem gbase (f : FAb) : Statement (.gbase f) := by
  have := encOp_lt f.c f.lit.isSome (show 0x15 < 2 ^ 6 by decide)
  have := (show f.gn.val < 2 ^ 4 from f.gn.isLt); have := src_lt f.a; have := src_lt f.b
  refine roundS rfl (by
    simp only [encGbase]
    repeat first | with_reducible assumption | refine add_lt ?_ (by with_reducible assumption) (by decide) | omega)
    (by simp (disch := decide) only [encGbase, flag, bits_low, encOp_l, b2n_eq, Option.isSome_none, Option.isSome_some])
    (.inl ⟨rfl, by simp (disch := decide) only [encGbase, bits_low, bits_encOp]; decide⟩) ?_
  have hop : bits (encGbase f).word 6 6 = 0x15 := by simp (disch := decide) only [encGbase, bits_low, bits_encOp]
  rw [parseS, hop]
  simp (disch := first | decide | omega) only [parseSAt, bits_low, bits_top, bits_zero, bits_encOp,
    decCommon_low, decCommon_encOp, flag, zeroField, need, decFAb, decSrc_code, fin4, encGbase, ofNat_val,
    ofNat_toNat, b2n_eq]
  rfl

theorem gstep (f : FAg) : Statement (.gstep f) := by
  have := encOp_lt f.c false (show 0x16 < 2 ^ 6 by decide); have := (show f.gn.val < 2 ^ 4 from f.gn.isLt)
  refine roundS rfl (by
    simp only [encGstep]
    repeat first | with_reducible assumption | refine add_lt ?_ (by with_reducible assumption) (by decide) | omega)
    (by simp (disch := decide) only [encGstep, flag, bits_low, encOp_l, b2n_eq, Option.isSome_none, Option.isSome_some])
    (.inl ⟨rfl, by simp (disch := decide) only [encGstep, bits_low, bits_encOp]; decide⟩) ?_
  have hop : bits (encGstep f).word 6 6 = 0x16 := by simp (disch := decide) only [encGstep, bits_low, bits_encOp]
  rw [parseS, hop]
  simp (disch := first | decide | omega) only [parseSAt, bits_low, bits_top, bits_zero, bits_encOp,
    decCommon_low, decCommon_encOp, flag, zeroField, need, decFAg, fin4, encGstep, ofNat_val, ofNat_toNat,
    b2n_eq]
  rfl

theorem gread (f : FQ) : Statement (.gread f) := by
  intro hw
  have hw' : ((f.fs != .base && f.fs != .attr) || f.dim.val == 0) = true := hw
  have := encOp_lt f.c false (show 0x17 < 2 ^ 6 by decide); have := dst_lt f.d; have := f.gn.isLt
  have := f.dim.isLt; have := gField_lt f.fs
  refine roundS rfl (by simp only [encGread]; omega)
    (by simp (disch := first | decide | omega) only [encGread, flag, bits_low, encOp_l, b2n_eq, Option.isSome_none])
    (.inl ⟨rfl, by simp (disch := first | decide | omega) only [encGread, bits_low, bits_encOp]; decide⟩) ?_ hw
  rw [parseS, show bits (encGread f).word 6 6 = 0x17 by simp (disch := first | decide | omega) only [encGread, bits_low, bits_encOp]]
  simp (disch := first | decide | omega) only [parseSAt, bits_low, bits_top, bits_zero, decCommon_low, decCommon_encOp, zeroField, need,
    decFQ, decGField_code, decDim_val, decDst_code, fin4, encGread, ofNat_val]
  simp only [bind, Except.bind, hw']
  rfl

theorem csrr (f : FXr) : Statement (.csrr f) := by
  have := encOp_lt f.c false (show 0x18 < 2 ^ 6 by decide); have := dst_lt f.d; have := csr_lt f.csr
  refine roundS rfl (by
    simp only [encCsrr]
    repeat first | with_reducible assumption | refine add_lt ?_ (by with_reducible assumption) (by decide) | omega)
    (by simp (disch := decide) only [encCsrr, flag, bits_low, encOp_l, b2n_eq, Option.isSome_none, Option.isSome_some])
    (.inl ⟨rfl, by simp (disch := decide) only [encCsrr, bits_low, bits_encOp]; decide⟩) ?_
  have hop : bits (encCsrr f).word 6 6 = 0x18 := by simp (disch := decide) only [encCsrr, bits_low, bits_encOp]
  rw [parseS, hop]
  simp (disch := first | decide | omega) only [parseSAt, bits_low, bits_top, bits_zero, bits_encOp,
    decCommon_low, decCommon_encOp, flag, zeroField, need, decFXr, decCsr_code, decDst_code, encCsrr,
    ofNat_val, ofNat_toNat, b2n_eq]
  rfl

theorem csrw (f : FX) : Statement (.csrw f) := by
  obtain ⟨hw, h5, ho, hd⟩ := encX_form (op := 0x19) f (by decide)
  refine roundS rfl hw h5 (.inl ⟨rfl, by rw [ho]; decide⟩) ?_
  rw [parseS, ho]
  simp only [parseSAt, zeroField, need, flag, hd]
  rfl

theorem csrs (f : FX) : Statement (.csrs f) := by
  obtain ⟨hw, h5, ho, hd⟩ := encX_form (op := 0x1A) f (by decide)
  refine roundS rfl hw h5 (.inl ⟨rfl, by rw [ho]; decide⟩) ?_
  rw [parseS, ho]
  simp only [parseSAt, zeroField, need, flag, hd]
  rfl

theorem csrc (f : FX) : Statement (.csrc f) := by
  obtain ⟨hw, h5, ho, hd⟩ := encX_form (op := 0x1B) f (by decide)
  refine roundS rfl hw h5 (.inl ⟨rfl, by rw [ho]; decide⟩) ?_
  rw [parseS, ho]
  simp only [parseSAt, zeroField, need, flag, hd]
  rfl

theorem br (f : FJ) : Statement (.br f) := by
  have := encOp_lt f.c true (show 0x20 < 2 ^ 6 by decide); have := f.off.isLt
  refine roundS rfl (by
    simp only [encBr]
    repeat first | with_reducible assumption | refine add_lt ?_ (by with_reducible assumption) (by decide) | omega)
    (by simp (disch := decide) only [encBr, flag, bits_low, encOp_l, b2n_eq, Option.isSome_none, Option.isSome_some])
    (.inr rfl) ?_
  have hop : bits (encBr f).word 6 6 = 0x20 := by simp (disch := decide) only [encBr, bits_low, bits_encOp]
  rw [parseS, hop]
  simp (disch := first | decide | omega) only [parseSAt, bits_low, bits_top, bits_zero, bits_encOp,
    decCommon_low, decCommon_encOp, flag, zeroField, need, decFJ, encBr, ofNat_val, ofNat_toNat, b2n_eq]
  rfl

theorem brc (f : FK) : Statement (.brc f) := by
  have := encOp_lt f.c true (show 0x21 < 2 ^ 6 by decide); have := f.off.isLt; have := src_lt f.a
  have := bCond_lt f.cond
  refine roundS rfl (by
    simp only [encBrc]
    repeat first | with_reducible assumption | refine add_lt ?_ (by with_reducible assumption) (by decide) | omega)
    (by simp (disch := decide) only [encBrc, flag, bits_low, encOp_l, b2n_eq, Option.isSome_none, Option.isSome_some])
    (.inr rfl) ?_
  have hop : bits (encBrc f).word 6 6 = 0x21 := by simp (disch := decide) only [encBrc, bits_low, bits_encOp]
  rw [parseS, hop]
  simp (disch := first | decide | omega) only [parseSAt, bits_low, bits_top, bits_zero, bits_encOp,
    decCommon_low, decCommon_encOp, flag, zeroField, need, decFK, decBCond_code, decSrc_code, encBrc,
    ofNat_val, ofNat_toNat, b2n_eq]
  rfl

theorem brx (f : FRa) : Statement (.brx f) := by
  obtain ⟨hw, h5, ho, hd⟩ := encRa_form (op := 0x22) f (by decide)
  refine roundS rfl hw h5 (.inr rfl) ?_
  rw [parseS, ho]
  simp only [parseSAt, zeroField, need, flag, hd]
  rfl

theorem call (f : FJd) : Statement (.call f) := by
  have := encOp_lt f.c true (show 0x23 < 2 ^ 6 by decide); have := f.off.isLt; have := dst_lt f.d
  refine roundS rfl (by
    simp only [encCall]
    repeat first | with_reducible assumption | refine add_lt ?_ (by with_reducible assumption) (by decide) | omega)
    (by simp (disch := decide) only [encCall, flag, bits_low, encOp_l, b2n_eq, Option.isSome_none, Option.isSome_some])
    (.inr rfl) ?_
  have hop : bits (encCall f).word 6 6 = 0x23 := by simp (disch := decide) only [encCall, bits_low, bits_encOp]
  rw [parseS, hop]
  simp (disch := first | decide | omega) only [parseSAt, bits_low, bits_top, bits_zero, bits_encOp,
    decCommon_low, decCommon_encOp, flag, zeroField, need, decFJd, decDst_code, encCall, ofNat_val,
    ofNat_toNat, b2n_eq]
  rfl

theorem ret (f : FRa) : Statement (.ret f) := by
  obtain ⟨hw, h5, ho, hd⟩ := encRa_form (op := 0x24) f (by decide)
  refine roundS rfl hw h5 (.inr rfl) ?_
  rw [parseS, ho]
  simp only [parseSAt, zeroField, need, flag, hd]
  rfl

theorem loop (f : FP) : Statement (.loop f) := by
  obtain ⟨c, cnt, bl⟩ := f
  have := bl.isLt
  cases cnt with
  | regs sa nd =>
    have := encOp_lt c false (show 0x25 < 2 ^ 6 by decide); have := sa.isLt; have := nd.isLt
    refine roundS (e := ⟨encOp c false 0x25 + 2 ^ 12 * bl.val + 2 ^ 16 * nd.val + 2 ^ 19 * sa.val, none⟩) rfl
      (by simp only; omega) (by simp (disch := first | decide | omega) only [flag, bits_low, encOp_l, b2n_eq, Option.isSome_none])
      (.inr rfl) ?_
    rw [parseS, show bits _ 6 6 = 0x25 by simp (disch := first | decide | omega) only [bits_low, bits_encOp]]
    simp (disch := first | decide | omega) only [parseSAt, bits_low, bits_top, bits_zero, decCommon_low, decCommon_encOp, decFP,
      decDim_val, zeroField, need, fin4, ofNat_val, sa.isLt, decide_true]
    rfl
  | lit v =>
    have := encOp_lt c true (show 0x25 < 2 ^ 6 by decide)
    refine roundS (e := ⟨encOp c true 0x25 + 2 ^ 12 * bl.val + 2 ^ 19 * 52, some v⟩) rfl
      (by simp only; omega) (by simp (disch := first | decide | omega) only [flag, bits_low, encOp_l, b2n_eq, Option.isSome_some])
      (.inr rfl) ?_
    rw [parseS, show bits _ 6 6 = 0x25 by simp (disch := first | decide | omega) only [bits_low, bits_encOp]]
    simp (disch := first | decide | omega) only [parseSAt, bits_low, bits_top, bits_zero, decCommon_low, decCommon_encOp, decFP,
      zeroField, need, fin4, ofNat_val]
    rfl

theorem loopx (f : FZ) : Statement (.loopx f) := by
  obtain ⟨hw, h5, ho, hd⟩ := encZ_form (op := 0x26) f (by decide)
  refine roundS rfl hw h5 (.inr rfl) ?_
  rw [parseS, ho]
  simp only [parseSAt, zeroField, need, flag, hd]
  rfl

theorem rot (f : FZ) : Statement (.rot f) := by
  obtain ⟨hw, h5, ho, hd⟩ := encZ_form (op := 0x27) f (by decide)
  refine roundS rfl hw h5 (.inr rfl) ?_
  rw [parseS, ho]
  simp only [parseSAt, zeroField, need, flag, hd]
  rfl

theorem ldepthset (f : FRa) : Statement (.ldepthset f) := by
  obtain ⟨hw, h5, ho, hd⟩ := encRa_form (op := 0x28) f (by decide)
  refine roundS rfl hw h5 (.inr rfl) ?_
  rw [parseS, ho]
  simp only [parseSAt, zeroField, need, flag, hd]
  rfl

theorem grow (f : FN) : Statement (.grow f) := by
  have := encOp_lt f.c false (show 0x29 < 2 ^ 6 by decide); have := (show f.n.val < 2 ^ 5 from f.n.isLt)
  refine roundS rfl (by
    simp only [encGrow]
    repeat first | with_reducible assumption | refine add_lt ?_ (by with_reducible assumption) (by decide) | omega)
    (by simp (disch := decide) only [encGrow, flag, bits_low, encOp_l, b2n_eq, Option.isSome_none, Option.isSome_some])
    (.inr rfl) ?_
  have hop : bits (encGrow f).word 6 6 = 0x29 := by simp (disch := decide) only [encGrow, bits_low, bits_encOp]
  rw [parseS, hop]
  simp (disch := first | decide | omega) only [parseSAt, bits_low, bits_top, bits_zero, bits_encOp,
    decCommon_low, decCommon_encOp, flag, zeroField, need, decFN, fin5, encGrow, ofNat_val, ofNat_toNat, b2n_eq]
  rfl

theorem shrink (f : FN) : Statement (.shrink f) := by
  have := encOp_lt f.c false (show 0x2A < 2 ^ 6 by decide); have := (show f.n.val < 2 ^ 5 from f.n.isLt)
  refine roundS rfl (by
    simp only [encShrink]
    repeat first | with_reducible assumption | refine add_lt ?_ (by with_reducible assumption) (by decide) | omega)
    (by simp (disch := decide) only [encShrink, flag, bits_low, encOp_l, b2n_eq, Option.isSome_none, Option.isSome_some])
    (.inr rfl) ?_
  have hop : bits (encShrink f).word 6 6 = 0x2A := by simp (disch := decide) only [encShrink, bits_low, bits_encOp]
  rw [parseS, hop]
  simp (disch := first | decide | omega) only [parseSAt, bits_low, bits_top, bits_zero, bits_encOp,
    decCommon_low, decCommon_encOp, flag, zeroField, need, decFN, fin5, encShrink, ofNat_val, ofNat_toNat,
    b2n_eq]
  rfl

theorem bara (f : FB) : Statement (.bara f) := by
  have := encOp_lt f.c false (show 0x2B < 2 ^ 6 by decide); have := bScope_lt f.bsc
  have := (show f.bn.val < 2 ^ 6 from f.bn.isLt)
  refine roundS rfl (by
    simp only [encB]
    repeat first | with_reducible assumption | refine add_lt ?_ (by with_reducible assumption) (by decide) | omega)
    (by simp (disch := decide) only [encB, flag, bits_low, encOp_l, b2n_eq, Option.isSome_none, Option.isSome_some])
    (.inr rfl) ?_
  have hop : bits (encB 0 f).word 6 6 = 0x2B := by simp (disch := decide) only [encB, bits_low, bits_encOp]
  rw [parseS, hop]
  simp (disch := first | decide | omega) only [parseSAt, bits_low, bits_top, bits_zero, bits_encOp,
    decCommon_low, decCommon_encOp, flag, zeroField, need, decFB, fin6, encB, ofNat_val, ofNat_toNat, b2n_eq]
  obtain ⟨_, bsc, _⟩ := f; cases bsc <;> rfl

theorem barw (f : FB) : Statement (.barw f) := by
  have := encOp_lt f.c false (show 0x2B < 2 ^ 6 by decide); have := bScope_lt f.bsc
  have := (show f.bn.val < 2 ^ 6 from f.bn.isLt)
  refine roundS rfl (by
    simp only [encB]
    repeat first | with_reducible assumption | refine add_lt ?_ (by with_reducible assumption) (by decide) | omega)
    (by simp (disch := decide) only [encB, flag, bits_low, encOp_l, b2n_eq, Option.isSome_none, Option.isSome_some])
    (.inr rfl) ?_
  have hop : bits (encB 1 f).word 6 6 = 0x2B := by simp (disch := decide) only [encB, bits_low, bits_encOp]
  rw [parseS, hop]
  simp (disch := first | decide | omega) only [parseSAt, bits_low, bits_top, bits_zero, bits_encOp,
    decCommon_low, decCommon_encOp, flag, zeroField, need, decFB, fin6, encB, ofNat_val, ofNat_toNat, b2n_eq]
  obtain ⟨_, bsc, _⟩ := f; cases bsc <;> rfl

theorem bar (f : FB) : Statement (.bar f) := by
  have := encOp_lt f.c false (show 0x2B < 2 ^ 6 by decide); have := bScope_lt f.bsc
  have := (show f.bn.val < 2 ^ 6 from f.bn.isLt)
  refine roundS rfl (by
    simp only [encB]
    repeat first | with_reducible assumption | refine add_lt ?_ (by with_reducible assumption) (by decide) | omega)
    (by simp (disch := decide) only [encB, flag, bits_low, encOp_l, b2n_eq, Option.isSome_none, Option.isSome_some])
    (.inr rfl) ?_
  have hop : bits (encB 2 f).word 6 6 = 0x2B := by simp (disch := decide) only [encB, bits_low, bits_encOp]
  rw [parseS, hop]
  simp (disch := first | decide | omega) only [parseSAt, bits_low, bits_top, bits_zero, bits_encOp,
    decCommon_low, decCommon_encOp, flag, zeroField, need, decFB, fin6, encB, ofNat_val, ofNat_toNat, b2n_eq]
  obtain ⟨_, bsc, _⟩ := f; cases bsc <;> rfl

theorem waith (f : FW) : Statement (.waith f) := by
  have := encOp_lt f.c false (show 0x2C < 2 ^ 6 by decide); have := (show f.h.val < 2 ^ 6 from f.h.isLt)
  have := hState_lt f.hs
  refine roundS rfl (by
    simp only [encWaith]
    repeat first | with_reducible assumption | refine add_lt ?_ (by with_reducible assumption) (by decide) | omega)
    (by simp (disch := decide) only [encWaith, flag, bits_low, encOp_l, b2n_eq, Option.isSome_none, Option.isSome_some])
    (.inr rfl) ?_
  have hop : bits (encWaith f).word 6 6 = 0x2C := by simp (disch := decide) only [encWaith, bits_low, bits_encOp]
  rw [parseS, hop]
  simp (disch := first | decide | omega) only [parseSAt, bits_low, bits_top, bits_zero, bits_encOp,
    decCommon_low, decCommon_encOp, flag, zeroField, need, decFW, fin6, decHs_code, encWaith, ofNat_val,
    ofNat_toNat, b2n_eq]
  rfl

theorem waitq (f : FY) : Statement (.waitq f) := by
  have := encOp_lt f.c false (show 0x2D < 2 ^ 6 by decide); have := f.mq.isLt; have := f.ne1.isLt
  refine roundS rfl (by simp only [encWaitq]; omega)
    (by simp (disch := first | decide | omega) only [encWaitq, flag, bits_low, encOp_l, b2n_eq, Option.isSome_none]) (.inr rfl) ?_
  rw [parseS, show bits (encWaitq f).word 6 6 = 0x2D by simp (disch := first | decide | omega) only [encWaitq, bits_low, bits_encOp]]
  have hn : decide (1 ≤ f.ne1.val + 1 ∧ f.ne1.val + 1 ≤ 16) = true := by simp only [decide_eq_true_eq]; omega
  simp (disch := first | decide | omega) only [parseSAt, bits_low, bits_top, bits_zero, decCommon_low, decCommon_encOp, zeroField, need,
    decFY, fin2, encWaitq, ofNat_val, hn, Nat.add_sub_cancel]
  rfl

theorem yield (f : FZ) : Statement (.yield f) := by
  obtain ⟨hw, h5, ho, hd⟩ := encZ_form (op := 0x2E) f (by decide)
  refine roundS rfl hw h5 (.inr rfl) ?_
  rw [parseS, ho]
  simp only [parseSAt, zeroField, need, flag, hd]
  rfl

theorem halt (f : FZ) : Statement (.halt f) := by
  obtain ⟨hw, h5, ho, hd⟩ := encZ_form (op := 0x2F) f (by decide)
  refine roundS rfl hw h5 (.inr rfl) ?_
  rw [parseS, ho]
  simp only [parseSAt, zeroField, need, flag, hd]
  rfl

theorem trap (f : FT) : Statement (.trap f) := by
  have := encOp_lt f.c false (show 0x30 < 2 ^ 6 by decide); have := f.code.isLt
  refine roundS rfl (by
    simp only [encTrap]
    repeat first | with_reducible assumption | refine add_lt ?_ (by with_reducible assumption) (by decide) | omega)
    (by simp (disch := decide) only [encTrap, flag, bits_low, encOp_l, b2n_eq, Option.isSome_none, Option.isSome_some])
    (.inr rfl) ?_
  have hop : bits (encTrap f).word 6 6 = 0x30 := by simp (disch := decide) only [encTrap, bits_low, bits_encOp]
  rw [parseS, hop]
  simp (disch := first | decide | omega) only [parseSAt, bits_low, bits_top, bits_zero, bits_encOp,
    decCommon_low, decCommon_encOp, flag, zeroField, need, decFT, encTrap, ofNat_val, ofNat_toNat, b2n_eq]
  rfl

theorem seqsel (f : FR1) : Statement (.seqsel f) := by
  obtain ⟨hw, h5, ho, h2, hd⟩ := encR1_form (op := 0x31) (f2 := 0) f (by decide) (by decide)
  refine roundS rfl hw h5 (.inr rfl) ?_
  rw [parseS, ho]
  simp only [parseSAt, zeroField, need, flag, h2, hd]
  rfl

theorem admitReq (f : FR1) : Statement (.admitReq f) := by
  obtain ⟨hw, h5, ho, h2, hd⟩ := encR1_form (op := 0x32) (f2 := 0) f (by decide) (by decide)
  refine roundS rfl hw h5 (.inr rfl) ?_
  rw [parseS, ho]
  simp only [parseSAt, zeroField, need, flag, h2, hd]
  rfl

theorem retire (f : FR1) : Statement (.retire f) := by
  obtain ⟨hw, h5, ho, h2, hd⟩ := encR1_form (op := 0x33) (f2 := 0) f (by decide) (by decide)
  refine roundS rfl hw h5 (.inr rfl) ?_
  rw [parseS, ho]
  simp only [parseSAt, zeroField, need, flag, h2, hd]
  rfl

theorem tret (f : FZ) : Statement (.tret f) := by
  obtain ⟨hw, h5, ho, hd⟩ := encZ_form (op := 0x3C) f (by decide)
  refine roundS rfl hw h5 (.inr rfl) ?_
  rw [parseS, ho]
  simp only [parseSAt, zeroField, need, flag, hd]
  rfl

theorem tlbi (f : FTlbi) : Statement (.tlbi f) := by
  have := encOp_lt f.c f.lit.isSome (show 0x3D < 2 ^ 6 by decide); have := src_lt f.a; have := src_lt f.b
  have := pSize_lt f.size; have := tScope_lt f.scope
  refine roundS rfl (by
    simp only [encTlbi]
    repeat first | with_reducible assumption | refine add_lt ?_ (by with_reducible assumption) (by decide) | omega)
    (by simp (disch := decide) only [encTlbi, flag, bits_low, encOp_l, b2n_eq, Option.isSome_none, Option.isSome_some])
    (.inr rfl) ?_
  have hop : bits (encTlbi f).word 6 6 = 0x3D := by simp (disch := decide) only [encTlbi, bits_low, bits_encOp]
  rw [parseS, hop]
  simp (disch := first | decide | omega) only [parseSAt, bits_low, bits_top, bits_zero, bits_encOp,
    decCommon_low, decCommon_encOp, flag, zeroField, need, decFTlbi, decSrc_code, decPSize_code,
    decTScope_code, encTlbi, ofNat_val, ofNat_toNat, b2n_eq]
  rfl

theorem ctxl (f : FRa) : Statement (.ctxl f) := by
  obtain ⟨hw, h5, ho, hd⟩ := encRa_form (op := 0x3E) f (by decide)
  refine roundS rfl hw h5 (.inr rfl) ?_
  rw [parseS, ho]
  simp only [parseSAt, zeroField, need, flag, hd]
  rfl

theorem ldt (f : FM) : Statement (.ldt f) := by
  obtain ⟨hw, h5, ho, hd⟩ := encM_form (op := 0x00) f (by decide)
  refine roundLd rfl hw h5 ?_
  rw [parseLd, ho]
  simp only [parseLdAt, zeroField, need, flag, hd]
  rfl

theorem ldtm (f : FM) : Statement (.ldtm f) := by
  obtain ⟨hw, h5, ho, hd⟩ := encM_form (op := 0x01) f (by decide)
  refine roundLd rfl hw h5 ?_
  rw [parseLd, ho]
  simp only [parseLdAt, zeroField, need, flag, hd]
  rfl

theorem lds (f : FLds) : Statement (.lds f) := by
  have := encOp_lt f.c false (show 0x02 < 2 ^ 8 by decide); have := (show f.d.val < 2 ^ 5 from f.d.isLt)
  have := src_lt f.a; have := f.off.isLt; have := (show f.sz.val < 2 ^ 2 from f.sz.isLt)
  have := b2n_lt1 f.sp; have := (show f.strm.val < 2 ^ 4 from f.strm.isLt)
  refine roundLd rfl (by
    simp only [encLds]
    repeat first | with_reducible assumption | refine add_lt ?_ (by with_reducible assumption) (by decide) | omega)
    (by simp (disch := decide) only [encLds, flag, bits_low, encOp_l, b2n_eq, Option.isSome_none, Option.isSome_some]) ?_
  have hop : bits (encLds f).word 6 8 = 0x02 := by simp (disch := decide) only [encLds, bits_low, bits_encOp]
  rw [parseLd, hop]
  simp (disch := first | decide | omega) only [parseLdAt, bits_low, bits_top, bits_zero, bits_encOp,
    decCommon_low, decCommon_encOp, flag, zeroField, need, decFLds, decX_val, decSrc_code, decOff, fin2, fin4,
    encLds, ofNat_val, ofNat_toNat, b2n_eq]
  rfl

theorem ldw (f : FM) : Statement (.ldw f) := by
  obtain ⟨hw, h5, ho, hd⟩ := encM_form (op := 0x03) f (by decide)
  refine roundLd rfl hw h5 ?_
  rw [parseLd, ho]
  simp only [parseLdAt, zeroField, need, flag, hd]
  rfl

theorem ldl (f : FM) : Statement (.ldl f) := by
  obtain ⟨hw, h5, ho, hd⟩ := encM_form (op := 0x04) f (by decide)
  refine roundLd rfl hw h5 ?_
  rw [parseLd, ho]
  simp only [parseLdAt, zeroField, need, flag, hd]
  rfl

theorem ldo (f : FM) : Statement (.ldo f) := by
  obtain ⟨hw, h5, ho, hd⟩ := encM_form (op := 0x05) f (by decide)
  refine roundLd rfl hw h5 ?_
  rw [parseLd, ho]
  simp only [parseLdAt, zeroField, need, flag, hd]
  rfl

theorem ldg (f : FMx) : Statement (.ldg f) := by
  have := encOp_lt f.c false (show 0x06 < 2 ^ 8 by decide); have := vop_lt f.vd; have := vop_lt f.vx
  have := fmt_lt f.fmt; have := (show f.nrow.val < 2 ^ 5 from f.nrow.isLt)
  have := (show f.nu.val < 2 ^ 5 from f.nu.isLt); have := (show f.gn.val < 2 ^ 4 from f.gn.isLt)
  refine roundLd rfl (by
    simp only [encLdg]
    repeat first | with_reducible assumption | refine add_lt ?_ (by with_reducible assumption) (by decide) | omega)
    (by simp (disch := decide) only [encLdg, flag, bits_low, encOp_l, b2n_eq, Option.isSome_none, Option.isSome_some]) ?_
  have hop : bits (encLdg f).word 6 8 = 0x06 := by simp (disch := decide) only [encLdg, bits_low, bits_encOp]
  rw [parseLd, hop]
  simp (disch := first | decide | omega) only [parseLdAt, bits_low, bits_top, bits_zero, bits_encOp,
    decCommon_low, decCommon_encOp, flag, zeroField, need, decFMx, decFmt_code, decV_code, fin5, fin4, encLdg,
    ofNat_val, ofNat_toNat, b2n_eq]
  rfl

theorem touch (f : FTouch) : Statement (.touch f) := by
  have := encOp_lt f.c false (show 0x07 < 2 ^ 8 by decide); have := src_lt f.a; have := src_lt f.b
  have := f.off.isLt
  refine roundLd rfl (by
    simp only [encTouch]
    repeat first | with_reducible assumption | refine add_lt ?_ (by with_reducible assumption) (by decide) | omega)
    (by simp (disch := decide) only [encTouch, flag, bits_low, encOp_l, b2n_eq, Option.isSome_none, Option.isSome_some]) ?_
  have hop : bits (encTouch 0x07 f).word 6 8 = 0x07 := by simp (disch := decide) only [encTouch, bits_low, bits_encOp]
  rw [parseLd, hop]
  simp (disch := first | decide | omega) only [parseLdAt, bits_low, bits_top, bits_zero, bits_encOp,
    decCommon_low, decCommon_encOp, flag, zeroField, need, decFTouch, decSrc_code, decOff, encTouch, ofNat_val,
    ofNat_toNat, b2n_eq]
  rfl

theorem touchw (f : FTouch) : Statement (.touchw f) := by
  have := encOp_lt f.c false (show 0x08 < 2 ^ 8 by decide); have := src_lt f.a; have := src_lt f.b
  have := f.off.isLt
  refine roundLd rfl (by
    simp only [encTouch]
    repeat first | with_reducible assumption | refine add_lt ?_ (by with_reducible assumption) (by decide) | omega)
    (by simp (disch := decide) only [encTouch, flag, bits_low, encOp_l, b2n_eq, Option.isSome_none, Option.isSome_some]) ?_
  have hop : bits (encTouch 0x08 f).word 6 8 = 0x08 := by simp (disch := decide) only [encTouch, bits_low, bits_encOp]
  rw [parseLd, hop]
  simp (disch := first | decide | omega) only [parseLdAt, bits_low, bits_top, bits_zero, bits_encOp,
    decCommon_low, decCommon_encOp, flag, zeroField, need, decFTouch, decSrc_code, decOff, encTouch, ofNat_val,
    ofNat_toNat, b2n_eq]
  rfl

theorem acq (f : FAcq) : Statement (.acq f) := by
  have := encOp_lt f.c false (show 0x09 < 2 ^ 8 by decide); have := (show f.d.val < 2 ^ 5 from f.d.isLt)
  have := src_lt f.a; have := f.off.isLt; have := b2n_lt1 f.w64; have := b2n_lt1 f.sp
  have := (show f.strm.val < 2 ^ 4 from f.strm.isLt); have := scope_lt f.scp
  refine roundLd rfl (by
    simp only [encAcq]
    repeat first | with_reducible assumption | refine add_lt ?_ (by with_reducible assumption) (by decide) | omega)
    (by simp (disch := decide) only [encAcq, flag, bits_low, encOp_l, b2n_eq, Option.isSome_none, Option.isSome_some]) ?_
  have hop : bits (encAcq f).word 6 8 = 0x09 := by simp (disch := decide) only [encAcq, bits_low, bits_encOp]
  rw [parseLd, hop]
  simp (disch := first | decide | omega) only [parseLdAt, bits_low, bits_top, bits_zero, bits_encOp,
    decCommon_low, decCommon_encOp, flag, zeroField, need, decFAcq, decSz1_b2n, decScope_code, decX_val,
    decSrc_code, decOff, fin4, encAcq, ofNat_val, ofNat_toNat, b2n_eq]
  rfl

theorem prf (f : FPrf) : Statement (.prf f) := by
  have := encOp_lt f.c false (show 0x0A < 2 ^ 8 by decide); have := src_lt f.a; have := src_lt f.b
  have := f.off.isLt; have := b2n_lt1 f.sp
  refine roundLd rfl (by
    simp only [encPrf]
    repeat first | with_reducible assumption | refine add_lt ?_ (by with_reducible assumption) (by decide) | omega)
    (by simp (disch := decide) only [encPrf, flag, bits_low, encOp_l, b2n_eq, Option.isSome_none, Option.isSome_some]) ?_
  have hop : bits (encPrf f).word 6 8 = 0x0A := by simp (disch := decide) only [encPrf, bits_low, bits_encOp]
  rw [parseLd, hop]
  simp (disch := first | decide | omega) only [parseLdAt, bits_low, bits_top, bits_zero, bits_encOp,
    decCommon_low, decCommon_encOp, flag, zeroField, need, decFPrf, decSrc_code, decOff, encPrf, ofNat_val,
    ofNat_toNat, b2n_eq]
  rfl

theorem wsphase (f : FSd) : Statement (.wsphase f) := by
  have := encOp_lt f.c false (show 0x0B < 2 ^ 8 by decide); have := (show f.d.val < 2 ^ 5 from f.d.isLt)
  refine roundLd rfl (by
    simp only [encWsphase]
    repeat first | with_reducible assumption | refine add_lt ?_ (by with_reducible assumption) (by decide) | omega)
    (by simp (disch := decide) only [encWsphase, flag, bits_low, encOp_l, b2n_eq, Option.isSome_none, Option.isSome_some]) ?_
  have hop : bits (encWsphase f).word 6 8 = 0x0B := by simp (disch := decide) only [encWsphase, bits_low, bits_encOp]
  rw [parseLd, hop]
  simp (disch := first | decide | omega) only [parseLdAt, bits_low, bits_top, bits_zero, bits_encOp,
    decCommon_low, decCommon_encOp, flag, zeroField, need, decFSd, decX_val, encWsphase, ofNat_val,
    ofNat_toNat, b2n_eq]
  rfl

theorem stt (f : FM) : Statement (.stt f) := by
  obtain ⟨hw, h5, ho, hd⟩ := encM_form (op := 0x00) f (by decide)
  refine roundSt rfl hw h5 ?_
  rw [parseSt, ho]
  simp only [parseStAt, zeroField, need, flag, hd]
  rfl

theorem sttm (f : FM) : Statement (.sttm f) := by
  obtain ⟨hw, h5, ho, hd⟩ := encM_form (op := 0x01) f (by decide)
  refine roundSt rfl hw h5 ?_
  rw [parseSt, ho]
  simp only [parseStAt, zeroField, need, flag, hd]
  rfl

theorem sts (f : FSts) : Statement (.sts f) := by
  have := encOp_lt f.c false (show 0x02 < 2 ^ 8 by decide); have := src_lt f.a; have := src_lt f.b
  have := f.off.isLt; have := (show f.sz.val < 2 ^ 2 from f.sz.isLt); have := b2n_lt1 f.sp
  have := (show f.strm.val < 2 ^ 4 from f.strm.isLt)
  refine roundSt rfl (by
    simp only [encSts]
    repeat first | with_reducible assumption | refine add_lt ?_ (by with_reducible assumption) (by decide) | omega)
    (by simp (disch := decide) only [encSts, flag, bits_low, encOp_l, b2n_eq, Option.isSome_none, Option.isSome_some]) ?_
  have hop : bits (encSts f).word 6 8 = 0x02 := by simp (disch := decide) only [encSts, bits_low, bits_encOp]
  rw [parseSt, hop]
  simp (disch := first | decide | omega) only [parseStAt, bits_low, bits_top, bits_zero, bits_encOp,
    decCommon_low, decCommon_encOp, flag, zeroField, need, decFSts, decSrc_code, decOff, fin2, fin4, encSts,
    ofNat_val, ofNat_toNat, b2n_eq]
  rfl

theorem rel (f : FRel) : Statement (.rel f) := by
  have := encOp_lt f.c false (show 0x03 < 2 ^ 8 by decide); have := src_lt f.a; have := src_lt f.b
  have := b2n_lt f.w64; have := b2n_lt f.sp; have := f.strm.isLt; have := scope_lt f.scp; have := f.nr.isLt
  have := b2n_lt f.rsp; have := f.k.isLt
  refine roundSt rfl (by simp only [encRel]; omega)
    (by simp (disch := first | decide | omega) only [encRel, flag, bits_low, encOp_l, b2n_eq]) ?_
  rw [parseSt, show bits (encRel f).word 6 8 = 0x03 by simp (disch := first | decide | omega) only [encRel, bits_low, bits_encOp]]
  have hn : decide (f.nr.val ≤ 8) = true := by simp only [decide_eq_true_eq]; omega
  simp (disch := first | decide | omega) only [parseStAt, bits_low, bits_top, bits_zero, decCommon_low, decCommon_encOp, flag, zeroField,
    need, decFRel, decSz1_b2n, decScope_code, decX_val, decSrc_code, fin4, encRel, ofNat_val, b2n_eq, hn]
  rfl

theorem fence (f : FFence) : Statement (.fence f) := by
  have := encOp_lt f.c false (show 0x04 < 2 ^ 8 by decide); have := f.mask.isLt; have := scope_lt f.scp
  refine roundSt rfl (by
    simp only [encFence]
    repeat first | with_reducible assumption | refine add_lt ?_ (by with_reducible assumption) (by decide) | omega)
    (by simp (disch := decide) only [encFence, flag, bits_low, encOp_l, b2n_eq, Option.isSome_none, Option.isSome_some]) ?_
  have hop : bits (encFence f).word 6 8 = 0x04 := by simp (disch := decide) only [encFence, bits_low, bits_encOp]
  rw [parseSt, hop]
  simp (disch := first | decide | omega) only [parseStAt, bits_low, bits_top, bits_zero, bits_encOp,
    decCommon_low, decCommon_encOp, flag, zeroField, need, decFFence, decScope_code, decOff, encFence,
    ofNat_val, ofNat_toNat, b2n_eq]
  rfl

theorem spalloc (f : FSpalloc) : Statement (.spalloc f) := by
  have := encOp_lt f.c false (show 0x05 < 2 ^ 8 by decide); have := (show f.d.val < 2 ^ 5 from f.d.isLt)
  have := (show f.lsize.val < 2 ^ 5 from f.lsize.isLt); have := b2n_lt1 f.skew
  refine roundSt rfl (by
    simp only [encSpalloc]
    repeat first | with_reducible assumption | refine add_lt ?_ (by with_reducible assumption) (by decide) | omega)
    (by simp (disch := decide) only [encSpalloc, flag, bits_low, encOp_l, b2n_eq, Option.isSome_none, Option.isSome_some]) ?_
  have hop : bits (encSpalloc f).word 6 8 = 0x05 := by simp (disch := decide) only [encSpalloc, bits_low, bits_encOp]
  rw [parseSt, hop]
  simp (disch := first | decide | omega) only [parseStAt, bits_low, bits_top, bits_zero, bits_encOp,
    decCommon_low, decCommon_encOp, flag, zeroField, need, decFSpalloc, decX_val, fin5, encSpalloc, ofNat_val,
    ofNat_toNat, b2n_eq]
  rfl

theorem spfree (f : FSa) : Statement (.spfree f) := by
  have := encOp_lt f.c false (show 0x06 < 2 ^ 8 by decide); have := src_lt f.a
  refine roundSt rfl (by
    simp only [encSpfree]
    repeat first | with_reducible assumption | refine add_lt ?_ (by with_reducible assumption) (by decide) | omega)
    (by simp (disch := decide) only [encSpfree, flag, bits_low, encOp_l, b2n_eq, Option.isSome_none, Option.isSome_some]) ?_
  have hop : bits (encSpfree f).word 6 8 = 0x06 := by simp (disch := decide) only [encSpfree, bits_low, bits_encOp]
  rw [parseSt, hop]
  simp (disch := first | decide | omega) only [parseStAt, bits_low, bits_top, bits_zero, bits_encOp,
    decCommon_low, decCommon_encOp, flag, zeroField, need, decFSa, decSrc_code, encSpfree, ofNat_val,
    ofNat_toNat, b2n_eq]
  rfl

theorem mbox (f : FSab) : Statement (.mbox f) := by
  have := encOp_lt f.c false (show 0x07 < 2 ^ 8 by decide); have := src_lt f.a; have := src_lt f.b
  refine roundSt rfl (by
    simp only [encMbox]
    repeat first | with_reducible assumption | refine add_lt ?_ (by with_reducible assumption) (by decide) | omega)
    (by simp (disch := decide) only [encMbox, flag, bits_low, encOp_l, b2n_eq, Option.isSome_none, Option.isSome_some]) ?_
  have hop : bits (encMbox f).word 6 8 = 0x07 := by simp (disch := decide) only [encMbox, bits_low, bits_encOp]
  rw [parseSt, hop]
  simp (disch := first | decide | omega) only [parseStAt, bits_low, bits_top, bits_zero, bits_encOp,
    decCommon_low, decCommon_encOp, flag, zeroField, need, decFSab, decSrc_code, encMbox, ofNat_val,
    ofNat_toNat, b2n_eq]
  rfl

theorem ecInc (f : FEc) : Statement (.ecInc f) := by
  have := encOp_lt f.c false (show 0x08 < 2 ^ 8 by decide); have := vop_lt f.v
  have := (show f.eb.val < 2 ^ 8 from f.eb.isLt); have := (show f.en.val < 2 ^ 8 from f.en.isLt)
  refine roundSt rfl (by
    simp only [encEc]
    repeat first | with_reducible assumption | refine add_lt ?_ (by with_reducible assumption) (by decide) | omega)
    (by simp (disch := decide) only [encEc, flag, bits_low, encOp_l, b2n_eq, Option.isSome_none, Option.isSome_some]) ?_
  have hop : bits (encEc 0x08 f).word 6 8 = 0x08 := by simp (disch := decide) only [encEc, bits_low, bits_encOp]
  rw [parseSt, hop]
  simp (disch := first | decide | omega) only [parseStAt, bits_low, bits_top, bits_zero, bits_encOp,
    decCommon_low, decCommon_encOp, flag, zeroField, need, decFEc, decV_code, fin8, encEc, ofNat_val,
    ofNat_toNat, b2n_eq]
  rfl

theorem ecSnap (f : FEc) : Statement (.ecSnap f) := by
  have := encOp_lt f.c false (show 0x09 < 2 ^ 8 by decide); have := vop_lt f.v
  have := (show f.eb.val < 2 ^ 8 from f.eb.isLt); have := (show f.en.val < 2 ^ 8 from f.en.isLt)
  refine roundSt rfl (by
    simp only [encEc]
    repeat first | with_reducible assumption | refine add_lt ?_ (by with_reducible assumption) (by decide) | omega)
    (by simp (disch := decide) only [encEc, flag, bits_low, encOp_l, b2n_eq, Option.isSome_none, Option.isSome_some]) ?_
  have hop : bits (encEc 0x09 f).word 6 8 = 0x09 := by simp (disch := decide) only [encEc, bits_low, bits_encOp]
  rw [parseSt, hop]
  simp (disch := first | decide | omega) only [parseStAt, bits_low, bits_top, bits_zero, bits_encOp,
    decCommon_low, decCommon_encOp, flag, zeroField, need, decFEc, decV_code, fin8, encEc, ofNat_val,
    ofNat_toNat, b2n_eq]
  rfl

theorem aadd (f : FAtom) : Statement (.aadd f) := by
  obtain ⟨hw, h5, ho, hd⟩ := encAtom_form (op := 0x10) f (by decide)
  refine roundSt rfl hw h5 ?_
  rw [parseSt, ho]
  simp only [parseStAt, zeroField, need, flag, hd]
  rfl

theorem amin (f : FAtom) : Statement (.amin f) := by
  obtain ⟨hw, h5, ho, hd⟩ := encAtom_form (op := 0x11) f (by decide)
  refine roundSt rfl hw h5 ?_
  rw [parseSt, ho]
  simp only [parseStAt, zeroField, need, flag, hd]
  rfl

theorem amax (f : FAtom) : Statement (.amax f) := by
  obtain ⟨hw, h5, ho, hd⟩ := encAtom_form (op := 0x12) f (by decide)
  refine roundSt rfl hw h5 ?_
  rw [parseSt, ho]
  simp only [parseStAt, zeroField, need, flag, hd]
  rfl

theorem aminn (f : FAtom) : Statement (.aminn f) := by
  obtain ⟨hw, h5, ho, hd⟩ := encAtom_form (op := 0x13) f (by decide)
  refine roundSt rfl hw h5 ?_
  rw [parseSt, ho]
  simp only [parseStAt, zeroField, need, flag, hd]
  rfl

theorem amaxn (f : FAtom) : Statement (.amaxn f) := by
  obtain ⟨hw, h5, ho, hd⟩ := encAtom_form (op := 0x14) f (by decide)
  refine roundSt rfl hw h5 ?_
  rw [parseSt, ho]
  simp only [parseStAt, zeroField, need, flag, hd]
  rfl

theorem aand (f : FAtom) : Statement (.aand f) := by
  obtain ⟨hw, h5, ho, hd⟩ := encAtom_form (op := 0x15) f (by decide)
  refine roundSt rfl hw h5 ?_
  rw [parseSt, ho]
  simp only [parseStAt, zeroField, need, flag, hd]
  rfl

theorem aor (f : FAtom) : Statement (.aor f) := by
  obtain ⟨hw, h5, ho, hd⟩ := encAtom_form (op := 0x16) f (by decide)
  refine roundSt rfl hw h5 ?_
  rw [parseSt, ho]
  simp only [parseStAt, zeroField, need, flag, hd]
  rfl

theorem axor (f : FAtom) : Statement (.axor f) := by
  obtain ⟨hw, h5, ho, hd⟩ := encAtom_form (op := 0x17) f (by decide)
  refine roundSt rfl hw h5 ?_
  rw [parseSt, ho]
  simp only [parseStAt, zeroField, need, flag, hd]
  rfl

theorem aswp (f : FAtom) : Statement (.aswp f) := by
  obtain ⟨hw, h5, ho, hd⟩ := encAtom_form (op := 0x18) f (by decide)
  refine roundSt rfl hw h5 ?_
  rw [parseSt, ho]
  simp only [parseStAt, zeroField, need, flag, hd]
  rfl

theorem acas (f : FAcas) : Statement (.acas f) := by
  have := encOp_lt f.c false (show 0x19 < 2 ^ 8 by decide); have := (show f.d.val < 2 ^ 5 from f.d.isLt)
  have := src_lt f.a; have := src_lt f.b; have := src_lt f.cmp; have := f.off.isLt; have := b2n_lt1 f.w64
  have := b2n_lt1 f.sp; have := (show f.strm.val < 2 ^ 4 from f.strm.isLt)
  refine roundSt rfl (by
    simp only [encAcas]
    repeat first | with_reducible assumption | refine add_lt ?_ (by with_reducible assumption) (by decide) | omega)
    (by simp (disch := decide) only [encAcas, flag, bits_low, encOp_l, b2n_eq, Option.isSome_none, Option.isSome_some]) ?_
  have hop : bits (encAcas f).word 6 8 = 0x19 := by simp (disch := decide) only [encAcas, bits_low, bits_encOp]
  rw [parseSt, hop]
  simp (disch := first | decide | omega) only [parseStAt, bits_low, bits_top, bits_zero, bits_encOp,
    decCommon_low, decCommon_encOp, flag, zeroField, need, decFAcas, decSz1_b2n, decX_val, decSrc_code, decOff,
    fin4, encAcas, ofNat_val, ofNat_toNat, b2n_eq]
  rfl

theorem cpy (f : FCpy) : Statement (.cpy f) := by
  have := encOp_lt f.c false (show 0x00 < 2 ^ 8 by decide); have := (show f.ch.val < 2 ^ 2 from f.ch.isLt)
  have := (show f.gs.val < 2 ^ 4 from f.gs.isLt); have := (show f.gd.val < 2 ^ 4 from f.gd.isLt)
  have := handle_lt f.hd; have := handle_lt f.hs; have := (show f.esz.val < 2 ^ 3 from f.esz.isLt)
  refine roundCp rfl (by
    simp only [encHandle24, encHandle31, encCpy, cpyLow]
    repeat first | with_reducible assumption | refine add_lt ?_ (by with_reducible assumption) (by decide) | omega)
    (by simp (disch := decide) only [encHandle24, encHandle31, encCpy, cpyLow, flag, bits_low, encOp_l, b2n_eq, Option.isSome_none, Option.isSome_some]) ?_
  have hop : bits (encCpy f).word 6 8 = 0x00 := by simp (disch := decide) only [encHandle24, encHandle31, encCpy, cpyLow, bits_low, bits_encOp]
  rw [parseCp, hop]
  simp (disch := first | decide | omega) only [parseCpAt, bits_low, bits_top, bits_zero, bits_encOp,
    decCommon_low, decCommon_encOp, flag, zeroField, need, decFCpy, encHandle24, encHandle31, decHandle_low,
    decHandle24, decHandle31, fin2, fin4, fin3, encCpy, cpyLow, ofNat_val, ofNat_toNat, b2n_eq]
  rfl

theorem cpyg (f : FCpyg) : Statement (.cpyg f) := by
  have := encOp_lt f.cp.c false (show 0x01 < 2 ^ 8 by decide); have := f.cp.ch.isLt; have := f.cp.gs.isLt
  have := f.cp.gd.isLt; have := handle_lt f.cp.hd; have := handle_lt f.cp.hs; have := f.cp.esz.isLt
  have := f.gx.isLt; have := src_lt f.sx; have := blkCode_lt f.blk
  refine roundCp rfl (by simp only [encHandle24, encHandle31, encCpyg, cpyLow]; omega)
    (by simp (disch := first | decide | omega) only [encHandle24, encHandle31, encCpyg, cpyLow, flag, bits_low, encOp_l, b2n_eq]) ?_
  rw [parseCp, show bits (encCpyg f).word 6 8 = 0x01 by
    simp (disch := first | decide | omega) only [encHandle24, encHandle31, encCpyg, cpyLow, bits_low, bits_encOp]]
  have hb : bits (encCpyg f).word 48 1 = bits (blkCode f.blk) 0 1 ∧ bits (encCpyg f).word 49 5 = bits (blkCode f.blk) 1 5 := by
    simp only [encHandle24, encHandle31, encCpyg, cpyLow, bits]; omega
  simp (disch := first | decide | omega) only [parseCpAt, flag, zeroField, need, hb]
  simp (disch := first | decide | omega) only [bits_low, bits_top, bits_zero, decCommon_low, decCommon_encOp, flag,
    zeroField, need, decFCpy, encHandle24, encHandle31, decHandle_low, decHandle24, decHandle31, fin2, fin4, fin3,
    encCpyg, cpyLow, decSrc_code, ofNat_val]
  obtain ⟨cp, gx, sx, blk⟩ := f
  cases blk with
  | none =>
    have h0 : bits 0 0 1 = 0 ∧ bits 0 1 5 = 0 := ⟨rfl, rfl⟩
    simp only [blkCode, h0]
    rfl
  | some lb =>
    have hlb : bits (1 + 2 * lb.val) 0 1 = 1 ∧ bits (1 + 2 * lb.val) 1 5 = lb.val := by
      have := lb.isLt
      simp only [bits]; omega
    have hle : decide (lb.val ≤ 15) = true := by have := lb.isLt; simp only [decide_eq_true_eq]; omega
    simp only [blkCode, hlb, hle, ofNat_val]
    rfl

theorem cpys (f : FCpyx) : Statement (.cpys f) := by
  have := encOp_lt f.cp.c false (show 0x02 < 2 ^ 8 by decide)
  have := (show f.cp.ch.val < 2 ^ 2 from f.cp.ch.isLt); have := (show f.cp.gs.val < 2 ^ 4 from f.cp.gs.isLt)
  have := (show f.cp.gd.val < 2 ^ 4 from f.cp.gd.isLt); have := handle_lt f.cp.hd; have := handle_lt f.cp.hs
  have := (show f.cp.esz.val < 2 ^ 3 from f.cp.esz.isLt); have := (show f.gx.val < 2 ^ 4 from f.gx.isLt)
  refine roundCp rfl (by
    simp only [encHandle24, encHandle31, encCpys, cpyLow]
    repeat first | with_reducible assumption | refine add_lt ?_ (by with_reducible assumption) (by decide) | omega)
    (by simp (disch := decide) only [encHandle24, encHandle31, encCpys, cpyLow, flag, bits_low, encOp_l, b2n_eq, Option.isSome_none, Option.isSome_some]) ?_
  have hop : bits (encCpys f).word 6 8 = 0x02 := by simp (disch := decide) only [encHandle24, encHandle31, encCpys, cpyLow, bits_low, bits_encOp]
  rw [parseCp, hop]
  simp (disch := first | decide | omega) only [parseCpAt, bits_low, bits_top, bits_zero, bits_encOp,
    decCommon_low, decCommon_encOp, flag, zeroField, need, decFCpy, encHandle24, encHandle31, decHandle_low,
    decHandle24, decHandle31, fin2, fin4, fin3, encCpys, cpyLow, ofNat_val, ofNat_toNat, b2n_eq]
  rfl

theorem cpyxPack (f : FCpy) : Statement (.cpyxPack f) := by
  have := encOp_lt f.c false (show 0x03 < 2 ^ 8 by decide); have := (show f.ch.val < 2 ^ 2 from f.ch.isLt)
  have := (show f.gs.val < 2 ^ 4 from f.gs.isLt); have := (show f.gd.val < 2 ^ 4 from f.gd.isLt)
  have := handle_lt f.hd; have := handle_lt f.hs; have := (show f.esz.val < 2 ^ 3 from f.esz.isLt)
  refine roundCp rfl (by
    simp only [encHandle24, encHandle31, encCpyxPack, cpyLow]
    repeat first | with_reducible assumption | refine add_lt ?_ (by with_reducible assumption) (by decide) | omega)
    (by simp (disch := decide) only [encHandle24, encHandle31, encCpyxPack, cpyLow, flag, bits_low, encOp_l, b2n_eq, Option.isSome_none, Option.isSome_some]) ?_
  have hop : bits (encCpyxPack f).word 6 8 = 0x03 := by simp (disch := decide) only [encHandle24, encHandle31, encCpyxPack, cpyLow, bits_low, bits_encOp]
  rw [parseCp, hop]
  simp (disch := first | decide | omega) only [parseCpAt, bits_low, bits_top, bits_zero, bits_encOp,
    decCommon_low, decCommon_encOp, flag, zeroField, need, decFCpy, encHandle24, encHandle31, decHandle_low,
    decHandle24, decHandle31, fin2, fin4, fin3, encCpyxPack, cpyLow, ofNat_val, ofNat_toNat, b2n_eq]
  rfl

theorem cpyxUnpack (f : FCpy) : Statement (.cpyxUnpack f) := by
  have := encOp_lt f.c false (show 0x03 < 2 ^ 8 by decide); have := (show f.ch.val < 2 ^ 2 from f.ch.isLt)
  have := (show f.gs.val < 2 ^ 4 from f.gs.isLt); have := (show f.gd.val < 2 ^ 4 from f.gd.isLt)
  have := handle_lt f.hd; have := handle_lt f.hs; have := (show f.esz.val < 2 ^ 3 from f.esz.isLt)
  have := b2n_lt1 true
  refine roundCp rfl (by
    simp only [encHandle24, encHandle31, encCpyxUnpack, cpyLow]
    repeat first | with_reducible assumption | refine add_lt ?_ (by with_reducible assumption) (by decide) | omega)
    (by simp (disch := decide) only [encHandle24, encHandle31, encCpyxUnpack, cpyLow, flag, bits_low, encOp_l, b2n_eq, Option.isSome_none, Option.isSome_some]) ?_
  have hop : bits (encCpyxUnpack f).word 6 8 = 0x03 := by simp (disch := decide) only [encHandle24, encHandle31, encCpyxUnpack, cpyLow, bits_low, bits_encOp]
  rw [parseCp, hop]
  simp (disch := first | decide | omega) only [parseCpAt, bits_low, bits_top, bits_zero, bits_encOp,
    decCommon_low, decCommon_encOp, flag, zeroField, need, decFCpy, encHandle24, encHandle31, decHandle_low,
    decHandle24, decHandle31, fin2, fin4, fin3, encCpyxUnpack, cpyLow, ofNat_val, ofNat_toNat, b2n_eq]
  rfl

theorem cpyf (f : FCpy) : Statement (.cpyf f) := by
  have := encOp_lt f.c false (show 0x04 < 2 ^ 8 by decide); have := (show f.ch.val < 2 ^ 2 from f.ch.isLt)
  have := (show f.gs.val < 2 ^ 4 from f.gs.isLt); have := (show f.gd.val < 2 ^ 4 from f.gd.isLt)
  have := handle_lt f.hd; have := handle_lt f.hs; have := (show f.esz.val < 2 ^ 3 from f.esz.isLt)
  refine roundCp rfl (by
    simp only [encHandle24, encHandle31, encCpyf, cpyLow]
    repeat first | with_reducible assumption | refine add_lt ?_ (by with_reducible assumption) (by decide) | omega)
    (by simp (disch := decide) only [encHandle24, encHandle31, encCpyf, cpyLow, flag, bits_low, encOp_l, b2n_eq, Option.isSome_none, Option.isSome_some]) ?_
  have hop : bits (encCpyf f).word 6 8 = 0x04 := by simp (disch := decide) only [encHandle24, encHandle31, encCpyf, cpyLow, bits_low, bits_encOp]
  rw [parseCp, hop]
  simp (disch := first | decide | omega) only [parseCpAt, bits_low, bits_top, bits_zero, bits_encOp,
    decCommon_low, decCommon_encOp, flag, zeroField, need, decFCpy, encHandle24, encHandle31, decHandle_low,
    decHandle24, decHandle31, fin2, fin4, fin3, encCpyf, cpyLow, ofNat_val, ofNat_toNat, b2n_eq]
  rfl

theorem cpyd (f : FCpyx) : Statement (.cpyd f) := by
  have := encOp_lt f.cp.c false (show 0x05 < 2 ^ 8 by decide)
  have := (show f.cp.ch.val < 2 ^ 2 from f.cp.ch.isLt); have := (show f.cp.gs.val < 2 ^ 4 from f.cp.gs.isLt)
  have := (show f.cp.gd.val < 2 ^ 4 from f.cp.gd.isLt); have := handle_lt f.cp.hd; have := handle_lt f.cp.hs
  have := (show f.cp.esz.val < 2 ^ 3 from f.cp.esz.isLt); have := (show f.gx.val < 2 ^ 4 from f.gx.isLt)
  refine roundCp rfl (by
    simp only [encHandle24, encHandle31, encCpyd, cpyLow]
    repeat first | with_reducible assumption | refine add_lt ?_ (by with_reducible assumption) (by decide) | omega)
    (by simp (disch := decide) only [encHandle24, encHandle31, encCpyd, cpyLow, flag, bits_low, encOp_l, b2n_eq, Option.isSome_none, Option.isSome_some]) ?_
  have hop : bits (encCpyd f).word 6 8 = 0x05 := by simp (disch := decide) only [encHandle24, encHandle31, encCpyd, cpyLow, bits_low, bits_encOp]
  rw [parseCp, hop]
  simp (disch := first | decide | omega) only [parseCpAt, bits_low, bits_top, bits_zero, bits_encOp,
    decCommon_low, decCommon_encOp, flag, zeroField, need, decFCpy, encHandle24, encHandle31, decHandle_low,
    decHandle24, decHandle31, fin2, fin4, fin3, encCpyd, cpyLow, ofNat_val, ofNat_toNat, b2n_eq]
  rfl

theorem cpyr (f : FCpyr) : Statement (.cpyr f) := by
  have := encOp_lt f.cp.c false (show 0x06 < 2 ^ 8 by decide)
  have := (show f.cp.ch.val < 2 ^ 2 from f.cp.ch.isLt); have := (show f.cp.gs.val < 2 ^ 4 from f.cp.gs.isLt)
  have := (show f.cp.gd.val < 2 ^ 4 from f.cp.gd.isLt); have := handle_lt f.cp.hd; have := handle_lt f.cp.hs
  have := (show f.cp.esz.val < 2 ^ 3 from f.cp.esz.isLt); have := redOp_lt f.op; have := redFmt_lt f.fmt
  refine roundCp rfl (by
    simp only [encHandle24, encHandle31, encCpyr, cpyLow]
    repeat first | with_reducible assumption | refine add_lt ?_ (by with_reducible assumption) (by decide) | omega)
    (by simp (disch := decide) only [encHandle24, encHandle31, encCpyr, cpyLow, flag, bits_low, encOp_l, b2n_eq, Option.isSome_none, Option.isSome_some]) ?_
  have hop : bits (encCpyr f).word 6 8 = 0x06 := by simp (disch := decide) only [encHandle24, encHandle31, encCpyr, cpyLow, bits_low, bits_encOp]
  rw [parseCp, hop]
  simp (disch := first | decide | omega) only [parseCpAt, bits_low, bits_top, bits_zero, bits_encOp,
    decCommon_low, decCommon_encOp, flag, zeroField, need, decRedFmt_code, decRedOp_code, decFCpy, encHandle24,
    encHandle31, decHandle_low, decHandle24, decHandle31, fin2, fin4, fin3, encCpyr, cpyLow, ofNat_val,
    ofNat_toNat, b2n_eq]
  rfl

theorem coll (f : FColl) : Statement (.coll f) := by
  have := encOp_lt f.cp.c false (show 0x07 < 2 ^ 8 by decide)
  have := (show f.cp.ch.val < 2 ^ 2 from f.cp.ch.isLt); have := (show f.cp.gs.val < 2 ^ 4 from f.cp.gs.isLt)
  have := (show f.cp.gd.val < 2 ^ 4 from f.cp.gd.isLt); have := handle_lt f.cp.hd; have := handle_lt f.cp.hs
  have := (show f.cp.esz.val < 2 ^ 3 from f.cp.esz.isLt); have := redOp_lt f.op; have := redFmt_lt f.fmt
  have := src_lt f.sx
  refine roundCp rfl (by
    simp only [encHandle24, encHandle31, encColl, cpyLow]
    repeat first | with_reducible assumption | refine add_lt ?_ (by with_reducible assumption) (by decide) | omega)
    (by simp (disch := decide) only [encHandle24, encHandle31, encColl, cpyLow, flag, bits_low, encOp_l, b2n_eq, Option.isSome_none, Option.isSome_some]) ?_
  have hop : bits (encColl f).word 6 8 = 0x07 := by simp (disch := decide) only [encHandle24, encHandle31, encColl, cpyLow, bits_low, bits_encOp]
  rw [parseCp, hop]
  simp (disch := first | decide | omega) only [parseCpAt, bits_low, bits_top, bits_zero, bits_encOp,
    decCommon_low, decCommon_encOp, flag, zeroField, need, decRedFmt_code, decRedOp_code, decSrc_code, decFCpy,
    encHandle24, encHandle31, decHandle_low, decHandle24, decHandle31, fin2, fin4, fin3, encColl, cpyLow,
    ofNat_val, ofNat_toNat, b2n_eq]
  rfl

theorem cpfill (f : FCpfill) : Statement (.cpfill f) := by
  have := encOp_lt f.c false (show 0x08 < 2 ^ 8 by decide); have := (show f.ch.val < 2 ^ 2 from f.ch.isLt)
  have := (show f.gd.val < 2 ^ 4 from f.gd.isLt); have := handle_lt f.hd
  have := (show f.esz.val < 2 ^ 3 from f.esz.isLt); have := src_lt f.sx
  refine roundCp rfl (by
    simp only [encHandle24, encHandle31, encCpfill]
    repeat first | with_reducible assumption | refine add_lt ?_ (by with_reducible assumption) (by decide) | omega)
    (by simp (disch := decide) only [encHandle24, encHandle31, encCpfill, flag, bits_low, encOp_l, b2n_eq, Option.isSome_none, Option.isSome_some]) ?_
  have hop : bits (encCpfill f).word 6 8 = 0x08 := by simp (disch := decide) only [encHandle24, encHandle31, encCpfill, bits_low, bits_encOp]
  rw [parseCp, hop]
  simp (disch := first | decide | omega) only [parseCpAt, bits_low, bits_top, bits_zero, bits_encOp,
    decCommon_low, decCommon_encOp, flag, zeroField, need, decSrc_code, encHandle24, encHandle31,
    decHandle_low, decHandle24, decHandle31, fin2, fin4, fin3, encCpfill, ofNat_val, ofNat_toNat, b2n_eq]
  rfl

theorem hset (f : FHset) : Statement (.hset f) := by
  have := encOp_lt f.c false (show 0x09 < 2 ^ 8 by decide); have := (show f.hd.val < 2 ^ 6 from f.hd.isLt)
  have := (show f.lsize.val < 2 ^ 5 from f.lsize.isLt); have := src_lt f.sx; have := b2n_lt1 true
  refine roundCp rfl (by
    simp only [encHset, encHop]
    repeat first | with_reducible assumption | refine add_lt ?_ (by with_reducible assumption) (by decide) | omega)
    (by simp (disch := decide) only [encHset, encHop, flag, bits_low, encOp_l, b2n_eq, Option.isSome_none, Option.isSome_some]) ?_
  have hop : bits (encHset f).word 6 8 = 0x09 := by simp (disch := decide) only [encHset, encHop, bits_low, bits_encOp]
  rw [parseCp, hop]
  simp (disch := first | decide | omega) only [parseCpAt, bits_low, bits_top, bits_zero, bits_encOp,
    decCommon_low, decCommon_encOp, flag, zeroField, need, decHop, fin6, decSrc_code, fin5, encHset, encHop,
    ofNat_val, ofNat_toNat, b2n_eq]
  rfl

theorem hdrain (f : FH) : Statement (.hdrain f) := by
  have := encOp_lt f.c false (show 0x0A < 2 ^ 8 by decide); have := (show f.hd.val < 2 ^ 6 from f.hd.isLt)
  have := b2n_lt1 true
  refine roundCp rfl (by
    simp only [encHdrain, encHop]
    repeat first | with_reducible assumption | refine add_lt ?_ (by with_reducible assumption) (by decide) | omega)
    (by simp (disch := decide) only [encHdrain, encHop, flag, bits_low, encOp_l, b2n_eq, Option.isSome_none, Option.isSome_some]) ?_
  have hop : bits (encHdrain f).word 6 8 = 0x0A := by simp (disch := decide) only [encHdrain, encHop, bits_low, bits_encOp]
  rw [parseCp, hop]
  simp (disch := first | decide | omega) only [parseCpAt, bits_low, bits_top, bits_zero, bits_encOp,
    decCommon_low, decCommon_encOp, flag, zeroField, need, decHop, fin6, encHdrain, encHop, ofNat_val,
    ofNat_toNat, b2n_eq]
  rfl

theorem hfree (f : FH) : Statement (.hfree f) := by
  have := encOp_lt f.c false (show 0x0B < 2 ^ 8 by decide); have := (show f.hd.val < 2 ^ 6 from f.hd.isLt)
  have := b2n_lt1 true
  refine roundCp rfl (by
    simp only [encHfree, encHop]
    repeat first | with_reducible assumption | refine add_lt ?_ (by with_reducible assumption) (by decide) | omega)
    (by simp (disch := decide) only [encHfree, encHop, flag, bits_low, encOp_l, b2n_eq, Option.isSome_none, Option.isSome_some]) ?_
  have hop : bits (encHfree f).word 6 8 = 0x0B := by simp (disch := decide) only [encHfree, encHop, bits_low, bits_encOp]
  rw [parseCp, hop]
  simp (disch := first | decide | omega) only [parseCpAt, bits_low, bits_top, bits_zero, bits_encOp,
    decCommon_low, decCommon_encOp, flag, zeroField, need, decHop, fin6, encHfree, encHop, ofNat_val,
    ofNat_toNat, b2n_eq]
  rfl

theorem hq (f : FHq) : Statement (.hq f) := by
  have := encOp_lt f.c false (show 0x0C < 2 ^ 8 by decide); have := (show f.hd.val < 2 ^ 6 from f.hd.isLt)
  have := (show f.d.val < 2 ^ 5 from f.d.isLt); have := b2n_lt1 true
  refine roundCp rfl (by
    simp only [encHq, encHop]
    repeat first | with_reducible assumption | refine add_lt ?_ (by with_reducible assumption) (by decide) | omega)
    (by simp (disch := decide) only [encHq, encHop, flag, bits_low, encOp_l, b2n_eq, Option.isSome_none, Option.isSome_some]) ?_
  have hop : bits (encHq f).word 6 8 = 0x0C := by simp (disch := decide) only [encHq, encHop, bits_low, bits_encOp]
  rw [parseCp, hop]
  simp (disch := first | decide | omega) only [parseCpAt, bits_low, bits_top, bits_zero, bits_encOp,
    decCommon_low, decCommon_encOp, flag, zeroField, need, decX_val, decHop, fin6, encHq, encHop, ofNat_val,
    ofNat_toNat, b2n_eq]
  rfl

theorem hwait (f : FHwait) : Statement (.hwait f) := by
  have := encOp_lt f.c false (show 0x0D < 2 ^ 8 by decide); have := (show f.hd.val < 2 ^ 6 from f.hd.isLt)
  have := hState_lt f.st; have := b2n_lt1 true
  refine roundCp rfl (by
    simp only [encHwait, encHop]
    repeat first | with_reducible assumption | refine add_lt ?_ (by with_reducible assumption) (by decide) | omega)
    (by simp (disch := decide) only [encHwait, encHop, flag, bits_low, encOp_l, b2n_eq, Option.isSome_none, Option.isSome_some]) ?_
  have hop : bits (encHwait f).word 6 8 = 0x0D := by simp (disch := decide) only [encHwait, encHop, bits_low, bits_encOp]
  rw [parseCp, hop]
  simp (disch := first | decide | omega) only [parseCpAt, bits_low, bits_top, bits_zero, bits_encOp,
    decCommon_low, decCommon_encOp, flag, zeroField, need, decHop, fin6, decHs_code, encHwait, encHop,
    ofNat_val, ofNat_toNat, b2n_eq]
  rfl

theorem cpmark (f : FCpmark) : Statement (.cpmark f) := by
  have := encOp_lt f.c false (show 0x0E < 2 ^ 8 by decide); have := (show f.ch.val < 2 ^ 2 from f.ch.isLt)
  have := handle_lt f.hd
  refine roundCp rfl (by
    simp only [encHandle24, encHandle31, encCpmark]
    repeat first | with_reducible assumption | refine add_lt ?_ (by with_reducible assumption) (by decide) | omega)
    (by simp (disch := decide) only [encHandle24, encHandle31, encCpmark, flag, bits_low, encOp_l, b2n_eq, Option.isSome_none, Option.isSome_some]) ?_
  have hop : bits (encCpmark f).word 6 8 = 0x0E := by simp (disch := decide) only [encHandle24, encHandle31, encCpmark, bits_low, bits_encOp]
  rw [parseCp, hop]
  simp (disch := first | decide | omega) only [parseCpAt, bits_low, bits_top, bits_zero, bits_encOp,
    decCommon_low, decCommon_encOp, flag, zeroField, need, encHandle24, encHandle31, decHandle_low,
    decHandle24, decHandle31, fin2, encCpmark, ofNat_val, ofNat_toNat, b2n_eq]
  rfl

theorem mm (f : FMm) : Statement (.mm f) := by
  obtain ⟨hw, h5, ho, hd⟩ := encMm_form (op := 0x00) f (by decide)
  refine roundMx rfl hw h5 ?_
  rw [parseMx, ho]
  simp only [parseMxAt, zeroField, need, flag, hd]
  rfl

theorem mmz (f : FMm) : Statement (.mmz f) := by
  obtain ⟨hw, h5, ho, hd⟩ := encMm_form (op := 0x01) f (by decide)
  refine roundMx rfl hw h5 ?_
  rw [parseMx, ho]
  simp only [parseMxAt, zeroField, need, flag, hd]
  rfl

theorem mmp (f : FMm) : Statement (.mmp f) := by
  obtain ⟨hw, h5, ho, hd⟩ := encMm_form (op := 0x02) f (by decide)
  refine roundMx rfl hw h5 ?_
  rw [parseMx, ho]
  simp only [parseMxAt, zeroField, need, flag, hd]
  rfl

theorem mmd (f : FMmd) : Statement (.mmd f) := by
  have := encOp_lt f.c false (show 0x03 < 2 ^ 8 by decide); have := (show f.acc.val < 2 ^ 6 from f.acc.isLt)
  have := mop_lt f.a; have := vop_lt f.d; have := fmt_lt f.af; have := fmt_lt f.bf
  have := (show f.scr.val < 2 ^ 4 from f.scr.isLt); have := semiring_lt f.sr; have := b2n_lt1 f.t
  have := b2n_lt1 f.g
  refine roundMx rfl (by
    simp only [encMmd]
    repeat first | with_reducible assumption | refine add_lt ?_ (by with_reducible assumption) (by decide) | omega)
    (by simp (disch := decide) only [encMmd, flag, bits_low, encOp_l, b2n_eq, Option.isSome_none, Option.isSome_some]) ?_
  have hop : bits (encMmd f).word 6 8 = 0x03 := by simp (disch := decide) only [encMmd, bits_low, bits_encOp]
  rw [parseMx, hop]
  simp (disch := first | decide | omega) only [parseMxAt, bits_low, bits_top, bits_zero, bits_encOp,
    decCommon_low, decCommon_encOp, flag, zeroField, need, decFmt_code, fin6, decM_code, decV_code, fin4,
    decSr_code, encMmd, ofNat_val, ofNat_toNat, b2n_eq]
  rfl

theorem mmt (f : FMmt) : Statement (.mmt f) := by
  have := encOp_lt f.c false (show 0x04 < 2 ^ 8 by decide); have := f.acc.isLt; have := mop_lt f.a
  have := f.p.isLt; have := fmt_lt f.af; have := semiring_lt f.sr; have := b2n_lt f.t; have := b2n_lt f.g
  refine roundMx rfl (by simp only [encMmt]; omega)
    (by simp (disch := first | decide | omega) only [encMmt, flag, bits_low, encOp_l, b2n_eq]) ?_
  rw [parseMx, show bits (encMmt f).word 6 8 = 0x04 by simp (disch := first | decide | omega) only [encMmt, bits_low, bits_encOp]]
  have hp : bits (encMmt f).word 33 4 = f.p.val := by simp only [encMmt, bits]; omega
  have hb : decM (f.p.val + 4096) = ⟨.pat, Fin.ofNat 2048 f.p.val⟩ := by
    have h1 : bits (f.p.val + 4096) 11 2 = 2 := by simp only [bits]; omega
    have h2 : bits (f.p.val + 4096) 0 11 = f.p.val := by simp only [bits]; omega
    simp only [decM, h1, h2]
  have hw : MOp.wfPat ⟨.pat, Fin.ofNat 2048 f.p.val⟩ = true := by
    simp only [MOp.wfPat, Fin.ofNat, Nat.mod_eq_of_lt (show f.p.val < 2048 by omega), f.p.isLt]; rfl
  simp only [parseMxAt, fin4, hp]
  simp (disch := first | decide | omega) only [bits_low, bits_top, bits_zero, decCommon_low, decCommon_encOp, flag, zeroField, need,
    decFmt_code, fin6, decM_code, decSr_code, encMmt, ofNat_val, b2n_eq, hb, hw]
  rfl

theorem outer (f : FOuter) : Statement (.outer f) := by
  have := encOp_lt f.c false (show 0x05 < 2 ^ 8 by decide); have := (show f.acc.val < 2 ^ 6 from f.acc.isLt)
  have := vop_lt f.va; have := vop_lt f.vb; have := fmt_lt f.af; have := fmt_lt f.bf; have := b2n_lt1 f.g
  refine roundMx rfl (by
    simp only [encOuter]
    repeat first | with_reducible assumption | refine add_lt ?_ (by with_reducible assumption) (by decide) | omega)
    (by simp (disch := decide) only [encOuter, flag, bits_low, encOp_l, b2n_eq, Option.isSome_none, Option.isSome_some]) ?_
  have hop : bits (encOuter f).word 6 8 = 0x05 := by simp (disch := decide) only [encOuter, bits_low, bits_encOp]
  rw [parseMx, hop]
  simp (disch := first | decide | omega) only [parseMxAt, bits_low, bits_top, bits_zero, bits_encOp,
    decCommon_low, decCommon_encOp, flag, zeroField, need, decFmt_code, fin6, decV_code, encOuter, ofNat_val,
    ofNat_toNat, b2n_eq]
  rfl

theorem latch (f : FLatch) : Statement (.latch f) := by
  have := encOp_lt f.c false (show 0x06 < 2 ^ 8 by decide); have := (show f.k.val < 2 ^ 2 from f.k.isLt)
  have := (show f.v.val < 2 ^ 11 from f.v.isLt)
  refine roundMx rfl (by
    simp only [encLatch]
    repeat first | with_reducible assumption | refine add_lt ?_ (by with_reducible assumption) (by decide) | omega)
    (by simp (disch := decide) only [encLatch, flag, bits_low, encOp_l, b2n_eq, Option.isSome_none, Option.isSome_some]) ?_
  have hop : bits (encLatch f).word 6 8 = 0x06 := by simp (disch := decide) only [encLatch, bits_low, bits_encOp]
  rw [parseMx, hop]
  simp (disch := first | decide | omega) only [parseMxAt, bits_low, bits_top, bits_zero, bits_encOp,
    decCommon_low, decCommon_encOp, flag, zeroField, need, fin2, encLatch, ofNat_val, ofNat_toNat, b2n_eq]
  rfl

theorem aclr (f : FAcc) : Statement (.aclr f) := by
  have := encOp_lt f.c false (show 0x07 < 2 ^ 8 by decide); have := (show f.acc.val < 2 ^ 6 from f.acc.isLt)
  refine roundMx rfl (by
    simp only [encAclr]
    repeat first | with_reducible assumption | refine add_lt ?_ (by with_reducible assumption) (by decide) | omega)
    (by simp (disch := decide) only [encAclr, flag, bits_low, encOp_l, b2n_eq, Option.isSome_none, Option.isSome_some]) ?_
  have hop : bits (encAclr f).word 6 8 = 0x07 := by simp (disch := decide) only [encAclr, bits_low, bits_encOp]
  rw [parseMx, hop]
  simp (disch := first | decide | omega) only [parseMxAt, bits_low, bits_top, bits_zero, bits_encOp,
    decCommon_low, decCommon_encOp, flag, zeroField, need, fin6, encAclr, ofNat_val, ofNat_toNat, b2n_eq]
  rfl

theorem amov (f : FAmov) : Statement (.amov f) := by
  have := encOp_lt f.c false (show 0x08 < 2 ^ 8 by decide); have := (show f.ad.val < 2 ^ 6 from f.ad.isLt)
  have := (show f.as.val < 2 ^ 6 from f.as.isLt)
  refine roundMx rfl (by
    simp only [encAmov]
    repeat first | with_reducible assumption | refine add_lt ?_ (by with_reducible assumption) (by decide) | omega)
    (by simp (disch := decide) only [encAmov, flag, bits_low, encOp_l, b2n_eq, Option.isSome_none, Option.isSome_some]) ?_
  have hop : bits (encAmov f).word 6 8 = 0x08 := by simp (disch := decide) only [encAmov, bits_low, bits_encOp]
  rw [parseMx, hop]
  simp (disch := first | decide | omega) only [parseMxAt, bits_low, bits_top, bits_zero, bits_encOp,
    decCommon_low, decCommon_encOp, flag, zeroField, need, fin6, encAmov, ofNat_val, ofNat_toNat, b2n_eq]
  rfl

theorem ascale (f : FAscale) : Statement (.ascale f) := by
  have := encOp_lt f.c false (show 0x09 < 2 ^ 8 by decide); have := (show f.acc.val < 2 ^ 6 from f.acc.isLt)
  have := src_lt f.a
  refine roundMx rfl (by
    simp only [encAscale]
    repeat first | with_reducible assumption | refine add_lt ?_ (by with_reducible assumption) (by decide) | omega)
    (by simp (disch := decide) only [encAscale, flag, bits_low, encOp_l, b2n_eq, Option.isSome_none, Option.isSome_some]) ?_
  have hop : bits (encAscale f).word 6 8 = 0x09 := by simp (disch := decide) only [encAscale, bits_low, bits_encOp]
  rw [parseMx, hop]
  simp (disch := first | decide | omega) only [parseMxAt, bits_low, bits_top, bits_zero, bits_encOp,
    decCommon_low, decCommon_encOp, flag, zeroField, need, decSrc_code, fin6, encAscale, ofNat_val,
    ofNat_toNat, b2n_eq]
  rfl

theorem anorm2 (f : FNorm) : Statement (.anorm2 f) := by
  have := encOp_lt f.c false (show 0x0A < 2 ^ 8 by decide); have := (show f.acc.val < 2 ^ 6 from f.acc.isLt)
  have := (show f.d.val < 2 ^ 5 from f.d.isLt); have := (show f.n1.val < 2 ^ 6 from f.n1.isLt)
  refine roundMx rfl (by
    simp only [encNorm]
    repeat first | with_reducible assumption | refine add_lt ?_ (by with_reducible assumption) (by decide) | omega)
    (by simp (disch := decide) only [encNorm, flag, bits_low, encOp_l, b2n_eq, Option.isSome_none, Option.isSome_some]) ?_
  have hop : bits (encNorm 0x0A f).word 6 8 = 0x0A := by simp (disch := decide) only [encNorm, bits_low, bits_encOp]
  rw [parseMx, hop]
  simp (disch := first | decide | omega) only [parseMxAt, bits_low, bits_top, bits_zero, bits_encOp,
    decCommon_low, decCommon_encOp, flag, zeroField, need, decX_val, fin6, encNorm, ofNat_val, ofNat_toNat,
    b2n_eq]
  rfl

theorem amaxabs (f : FNorm) : Statement (.amaxabs f) := by
  have := encOp_lt f.c false (show 0x0B < 2 ^ 8 by decide); have := (show f.acc.val < 2 ^ 6 from f.acc.isLt)
  have := (show f.d.val < 2 ^ 5 from f.d.isLt); have := (show f.n1.val < 2 ^ 6 from f.n1.isLt)
  refine roundMx rfl (by
    simp only [encNorm]
    repeat first | with_reducible assumption | refine add_lt ?_ (by with_reducible assumption) (by decide) | omega)
    (by simp (disch := decide) only [encNorm, flag, bits_low, encOp_l, b2n_eq, Option.isSome_none, Option.isSome_some]) ?_
  have hop : bits (encNorm 0x0B f).word 6 8 = 0x0B := by simp (disch := decide) only [encNorm, bits_low, bits_encOp]
  rw [parseMx, hop]
  simp (disch := first | decide | omega) only [parseMxAt, bits_low, bits_top, bits_zero, bits_encOp,
    decCommon_low, decCommon_encOp, flag, zeroField, need, decX_val, fin6, encNorm, ofNat_val, ofNat_toNat,
    b2n_eq]
  rfl

theorem bimStage (f : FBimStage) : Statement (.bimStage f) := by
  have := encOp_lt f.c false (show 0x0C < 2 ^ 8 by decide); have := (show f.acc.val < 2 ^ 6 from f.acc.isLt)
  have := (show f.ac.val < 2 ^ 6 from f.ac.isLt); have := (show f.n1.val < 2 ^ 6 from f.n1.isLt)
  have := b2n_lt1 f.g
  refine roundMx rfl (by
    simp only [encBimStage]
    repeat first | with_reducible assumption | refine add_lt ?_ (by with_reducible assumption) (by decide) | omega)
    (by simp (disch := decide) only [encBimStage, flag, bits_low, encOp_l, b2n_eq, Option.isSome_none, Option.isSome_some]) ?_
  have hop : bits (encBimStage f).word 6 8 = 0x0C := by simp (disch := decide) only [encBimStage, bits_low, bits_encOp]
  rw [parseMx, hop]
  simp (disch := first | decide | omega) only [parseMxAt, bits_low, bits_top, bits_zero, bits_encOp,
    decCommon_low, decCommon_encOp, flag, zeroField, need, fin6, encBimStage, ofNat_val, ofNat_toNat, b2n_eq]
  rfl

theorem bimMark (f : FBimMark) : Statement (.bimMark f) := by
  have := encOp_lt f.c false (show 0x0D < 2 ^ 8 by decide); have := (show f.acc.val < 2 ^ 6 from f.acc.isLt)
  have := (show f.n1.val < 2 ^ 6 from f.n1.isLt)
  refine roundMx rfl (by
    simp only [encBimMark]
    repeat first | with_reducible assumption | refine add_lt ?_ (by with_reducible assumption) (by decide) | omega)
    (by simp (disch := decide) only [encBimMark, flag, bits_low, encOp_l, b2n_eq, Option.isSome_none, Option.isSome_some]) ?_
  have hop : bits (encBimMark f).word 6 8 = 0x0D := by simp (disch := decide) only [encBimMark, bits_low, bits_encOp]
  rw [parseMx, hop]
  simp (disch := first | decide | omega) only [parseMxAt, bits_low, bits_top, bits_zero, bits_encOp,
    decCommon_low, decCommon_encOp, flag, zeroField, need, fin6, encBimMark, ofNat_val, ofNat_toNat, b2n_eq]
  rfl

theorem drain (f : FDrain) : Statement (.drain f) := by
  have := encOp_lt f.c false (show 0x00 < 2 ^ 8 by decide); have := f.acc.isLt; have := vop_lt f.vd
  have := biasCode_lt f.vb; have := b2n_lt f.vb.isSome
  have := encEpi_lt (a := encOp f.c false 0x00 + 2 ^ 14 * f.acc.val + 2 ^ 20 * f.vd.code + 2 ^ 33 * biasCode f.vb) f.e
    (by omega)
  refine roundFl rfl (by simp only [encDrain]; omega)
    (by simp (disch := first | decide | omega) only [encDrain, flag, bits_encEpi, bits_low, encOp_l, b2n_eq]) ?_
  rw [parseFl, show bits (encDrain f).word 6 8 = 0x00 by
    simp (disch := first | decide | omega) only [encDrain, bits_encEpi, bits_low, bits_encOp]]
  simp (disch := first | decide | omega) only [parseFlAt, bits_low, bits_top, bits_encEpi, decCommon_encEpi, decCommon_low,
    decCommon_encOp, flag, zeroField, need, decEpi_high, decEpi_encEpi, fin6, decV_code, encDrain, ofNat_val, b2n_eq]
  obtain ⟨c, acc, vd, e, vb⟩ := f
  cases vb with
  | none => rfl
  | some v => simp only [biasCode, decV_code]; rfl

theorem drainq (f : FDrainQ) : Statement (.drainq f) := by
  have := encOp_lt f.c false (show 0x01 < 2 ^ 8 by decide); have := f.acc.isLt; have := vop_lt f.vd
  have := f.scn.isLt
  have := encEpi_lt (a := encOp f.c false 0x01 + 2 ^ 14 * f.acc.val + 2 ^ 20 * f.vd.code + 2 ^ 33 * f.scn.val) f.e
    (by omega)
  refine roundFl rfl (by simp only [encDrainq]; omega)
    (by simp (disch := first | decide | omega) only [encDrainq, flag, bits_encEpi, bits_low, encOp_l, b2n_eq]) ?_
  rw [parseFl, show bits (encDrainq f).word 6 8 = 0x01 by
    simp (disch := first | decide | omega) only [encDrainq, bits_encEpi, bits_low, bits_encOp]]
  simp (disch := first | decide | omega) only [parseFlAt, bits_low, bits_top, bits_zero, bits_encEpi, decCommon_encEpi, decCommon_low,
    decCommon_encOp, zeroField, need, decEpi_encEpi, fin6, fin4, decV_code, encDrainq, ofNat_val]
  rfl

theorem drainr (f : FDrainR) : Statement (.drainr f) := by
  have := encOp_lt f.c false (show 0x02 < 2 ^ 8 by decide); have := f.acc.isLt; have := vop_lt f.vd
  have := f.rc.isLt
  have := encEpi_lt (a := encOp f.c false 0x02 + 2 ^ 14 * f.acc.val + 2 ^ 20 * f.vd.code + 2 ^ 33 * f.rc.val) f.e
    (by omega)
  refine roundFl rfl (by simp only [encDrainR]; omega)
    (by simp (disch := first | decide | omega) only [encDrainR, flag, bits_encEpi, bits_low, encOp_l, b2n_eq]) ?_
  rw [parseFl, show bits (encDrainR 0x02 f).word 6 8 = 0x02 by
    simp (disch := first | decide | omega) only [encDrainR, bits_encEpi, bits_low, bits_encOp]]
  simp (disch := first | decide | omega) only [parseFlAt, bits_low, bits_top, bits_zero, bits_encEpi, decCommon_encEpi, decCommon_low,
    decCommon_encOp, zeroField, need, decFDrainR, decEpi_encEpi, fin6, fin5, decV_code, encDrainR, ofNat_val]
  rfl

theorem drainc (f : FDrainR) : Statement (.drainc f) := by
  have := encOp_lt f.c false (show 0x03 < 2 ^ 8 by decide); have := f.acc.isLt; have := vop_lt f.vd
  have := f.rc.isLt
  have := encEpi_lt (a := encOp f.c false 0x03 + 2 ^ 14 * f.acc.val + 2 ^ 20 * f.vd.code + 2 ^ 33 * f.rc.val) f.e
    (by omega)
  refine roundFl rfl (by simp only [encDrainR]; omega)
    (by simp (disch := first | decide | omega) only [encDrainR, flag, bits_encEpi, bits_low, encOp_l, b2n_eq]) ?_
  rw [parseFl, show bits (encDrainR 0x03 f).word 6 8 = 0x03 by
    simp (disch := first | decide | omega) only [encDrainR, bits_encEpi, bits_low, bits_encOp]]
  simp (disch := first | decide | omega) only [parseFlAt, bits_low, bits_top, bits_zero, bits_encEpi, decCommon_encEpi, decCommon_low,
    decCommon_encOp, zeroField, need, decFDrainR, decEpi_encEpi, fin6, fin5, decV_code, encDrainR, ofNat_val]
  rfl

theorem argsel (f : FFa) : Statement (.argsel f) := by
  have := encOp_lt f.c false (show 0x04 < 2 ^ 8 by decide); have := (show f.acc.val < 2 ^ 6 from f.acc.isLt)
  have := vop_lt f.vd
  refine roundFl rfl (by
    simp only [encFa]
    repeat first | with_reducible assumption | refine add_lt ?_ (by with_reducible assumption) (by decide) | omega)
    (by simp (disch := decide) only [encFa, flag, bits_low, encOp_l, b2n_eq, Option.isSome_none, Option.isSome_some]) ?_
  have hop : bits (encFa 0x04 f).word 6 8 = 0x04 := by simp (disch := decide) only [encFa, bits_low, bits_encOp]
  rw [parseFl, hop]
  simp (disch := first | decide | omega) only [parseFlAt, bits_low, bits_top, bits_zero, bits_encOp,
    decCommon_low, decCommon_encOp, flag, zeroField, need, decFFa, fin6, decV_code, encFa, ofNat_val,
    ofNat_toNat, b2n_eq]
  rfl

theorem bimCommit (f : FFa) : Statement (.bimCommit f) := by
  have := encOp_lt f.c false (show 0x05 < 2 ^ 8 by decide); have := (show f.acc.val < 2 ^ 6 from f.acc.isLt)
  have := vop_lt f.vd
  refine roundFl rfl (by
    simp only [encFa]
    repeat first | with_reducible assumption | refine add_lt ?_ (by with_reducible assumption) (by decide) | omega)
    (by simp (disch := decide) only [encFa, flag, bits_low, encOp_l, b2n_eq, Option.isSome_none, Option.isSome_some]) ?_
  have hop : bits (encFa 0x05 f).word 6 8 = 0x05 := by simp (disch := decide) only [encFa, bits_low, bits_encOp]
  rw [parseFl, hop]
  simp (disch := first | decide | omega) only [parseFlAt, bits_low, bits_top, bits_zero, bits_encOp,
    decCommon_low, decCommon_encOp, flag, zeroField, need, decFFa, fin6, decV_code, encFa, ofNat_val,
    ofNat_toNat, b2n_eq]
  rfl

theorem trust1 (f : FTrust1) : Statement (.trust1 f) := by
  have := encOp_lt f.c false (show 0x06 < 2 ^ 8 by decide); have := (show f.acc.val < 2 ^ 6 from f.acc.isLt)
  have := vop_lt f.vd; have := vop_lt f.vb; have := b2n_lt1 f.g
  refine roundFl rfl (by
    simp only [encTrust1]
    repeat first | with_reducible assumption | refine add_lt ?_ (by with_reducible assumption) (by decide) | omega)
    (by simp (disch := decide) only [encTrust1, flag, bits_low, encOp_l, b2n_eq, Option.isSome_none, Option.isSome_some]) ?_
  have hop : bits (encTrust1 f).word 6 8 = 0x06 := by simp (disch := decide) only [encTrust1, bits_low, bits_encOp]
  rw [parseFl, hop]
  simp (disch := first | decide | omega) only [parseFlAt, bits_low, bits_top, bits_zero, bits_encOp,
    decCommon_low, decCommon_encOp, flag, zeroField, need, fin6, decV_code, encTrust1, ofNat_val, ofNat_toNat,
    b2n_eq]
  rfl

theorem cvt (f : FV) : Statement (.cvt f) := by
  obtain ⟨hw, h5, ho, hd⟩ := encV_form (op := 0x10) f (by decide)
  refine roundFl rfl hw h5 ?_
  simp only [encCvt]
  rw [parseFl, ho]
  simp only [parseFlAt, zeroField, need, flag, hd]
  rfl

theorem fn (f : FVfn) : Statement (.fn f) := by
  have := encOp_lt f.v.c false (show 0x11 < 2 ^ 8 by decide); have := vop_lt f.v.vd; have := vop_lt f.v.vs
  have := (show f.v.nr.val < 2 ^ 6 from f.v.nr.isLt); have := fmt_lt f.v.sf; have := fmt_lt f.v.df
  have := rmode_lt f.v.rm; have := b2n_lt1 f.v.prop; have := fnCode_lt f.fn; have := b2n_lt1 true
  refine roundFl rfl (by
    simp only [encFn, encV]
    repeat first | with_reducible assumption | refine add_lt ?_ (by with_reducible assumption) (by decide) | omega)
    (by simp (disch := decide) only [encFn, encV, flag, bits_low, encOp_l, b2n_eq, Option.isSome_none, Option.isSome_some]) ?_
  have hop : bits (encFn f).word 6 8 = 0x11 := by simp (disch := decide) only [encFn, encV, bits_low, bits_encOp]
  rw [parseFl, hop]
  simp (disch := first | decide | omega) only [parseFlAt, bits_low, bits_top, bits_zero, bits_encOp,
    decCommon_low, decCommon_encOp, flag, zeroField, need, decFn_code, decFmt_code, decRM_code, decV_code,
    fin6, encFn, encV, ofNat_val, ofNat_toNat, b2n_eq]
  rfl

theorem clampv (f : FV) : Statement (.clampv f) := by
  obtain ⟨hw, h5, ho, hd⟩ := encV_form (op := 0x12) f (by decide)
  refine roundFl rfl hw h5 ?_
  simp only [encClampv]
  rw [parseFl, ho]
  simp only [parseFlAt, zeroField, need, flag, hd]
  rfl

theorem rng (f : FRng) : Statement (.rng f) := by
  have := encOp_lt f.c false (show 0x13 < 2 ^ 8 by decide); have := vop_lt f.vd
  have := (show f.nr.val < 2 ^ 6 from f.nr.isLt); have := b2n_lt1 f.int
  have := (show (if f.int then 24 else 0) < 2 ^ 5 by split <;> decide)
  refine roundFl rfl (by simp only [encRng]; omega)
    (by simp (disch := decide) only [encRng, flag, bits_low, encOp_l, b2n_eq, Option.isSome_none, Option.isSome_some]) ?_
  have hop : bits (encRng f).word 6 8 = 0x13 := by simp (disch := decide) only [encRng, bits_low, bits_encOp]
  rw [parseFl, hop]
  simp (disch := first | decide | omega) only [parseFlAt, bits_low, bits_top, bits_zero, bits_encOp,
    decCommon_low, decCommon_encOp, flag, zeroField, need, decV_code, fin6, encRng, ofNat_val, ofNat_toNat,
    b2n_eq]
  obtain ⟨_, _, _, int⟩ := f; cases int <;> rfl

theorem q8b (f : FV) : Statement (.q8b f) := by
  obtain ⟨hw, h5, ho, hd⟩ := encV_form (op := 0x14) f (by decide)
  refine roundFl rfl hw h5 ?_
  simp only [encQ8b]
  rw [parseFl, ho]
  simp only [parseFlAt, zeroField, need, flag, hd]
  rfl

theorem dq8b (f : FV) : Statement (.dq8b f) := by
  obtain ⟨hw, h5, ho, hd⟩ := encV_form (op := 0x15) f (by decide)
  refine roundFl rfl hw h5 ?_
  simp only [encDq8b]
  rw [parseFl, ho]
  simp only [parseFlAt, zeroField, need, flag, hd]
  rfl

theorem qmx (f : FV) : Statement (.qmx f) := by
  obtain ⟨hw, h5, ho, hd⟩ := encV_form (op := 0x16) f (by decide)
  refine roundFl rfl hw h5 ?_
  simp only [encQmx]
  rw [parseFl, ho]
  simp only [parseFlAt, zeroField, need, flag, hd]
  rfl

theorem dqmx (f : FV) : Statement (.dqmx f) := by
  obtain ⟨hw, h5, ho, hd⟩ := encV_form (op := 0x17) f (by decide)
  refine roundFl rfl hw h5 ?_
  simp only [encDqmx]
  rw [parseFl, ho]
  simp only [parseFlAt, zeroField, need, flag, hd]
  rfl

theorem normv (f : FNormv) : Statement (.normv f) := by
  have := encOp_lt f.c false (show 0x18 < 2 ^ 8 by decide); have := vop_lt f.vd; have := vop_lt f.vs
  have := (show f.nr.val < 2 ^ 6 from f.nr.isLt); have := fmt_lt f.sf
  refine roundFl rfl (by
    simp only [encNormv]
    repeat first | with_reducible assumption | refine add_lt ?_ (by with_reducible assumption) (by decide) | omega)
    (by simp (disch := decide) only [encNormv, flag, bits_low, encOp_l, b2n_eq, Option.isSome_none, Option.isSome_some]) ?_
  have hop : bits (encNormv f).word 6 8 = 0x18 := by simp (disch := decide) only [encNormv, bits_low, bits_encOp]
  rw [parseFl, hop]
  simp (disch := first | decide | omega) only [parseFlAt, bits_low, bits_top, bits_zero, bits_encOp,
    decCommon_low, decCommon_encOp, flag, zeroField, need, decFmt_code, decV_code, fin6, encNormv, ofNat_val,
    ofNat_toNat, b2n_eq]
  rfl

theorem scalev (f : FV) : Statement (.scalev f) := by
  obtain ⟨hw, h5, ho, hd⟩ := encV_form (op := 0x19) f (by decide)
  refine roundFl rfl hw h5 ?_
  simp only [encScalev]
  rw [parseFl, ho]
  simp only [parseFlAt, zeroField, need, flag, hd]
  rfl

theorem psum (f : FVn) : Statement (.psum f) := by
  obtain ⟨hw, h5, ho, hd⟩ := encVn_form (op := 0x1A) f (by decide)
  refine roundFl rfl hw h5 ?_
  rw [parseFl, ho]
  simp only [parseFlAt, zeroField, need, flag, hd]
  rfl

theorem sampd (f : FSampd) : Statement (.sampd f) := by
  have := encOp_lt f.c false (show 0x1B < 2 ^ 8 by decide); have := vop_lt f.vd; have := vop_lt f.vs
  refine roundFl rfl (by
    simp only [encSampd]
    repeat first | with_reducible assumption | refine add_lt ?_ (by with_reducible assumption) (by decide) | omega)
    (by simp (disch := decide) only [encSampd, flag, bits_low, encOp_l, b2n_eq, Option.isSome_none, Option.isSome_some]) ?_
  have hop : bits (encSampd f).word 6 8 = 0x1B := by simp (disch := decide) only [encSampd, bits_low, bits_encOp]
  rw [parseFl, hop]
  simp (disch := first | decide | omega) only [parseFlAt, bits_low, bits_top, bits_zero, bits_encOp,
    decCommon_low, decCommon_encOp, flag, zeroField, need, decV_code, encSampd, ofNat_val, ofNat_toNat, b2n_eq]
  rfl

theorem updAdam (f : FV) : Statement (.updAdam f) := by
  obtain ⟨hw, h5, ho, hd⟩ := encV_form (op := 0x20) f (by decide)
  refine roundFl rfl hw h5 ?_
  simp only [encUpdAdam]
  rw [parseFl, ho]
  simp only [parseFlAt, zeroField, need, flag, hd]
  rfl

theorem updSgdm (f : FV) : Statement (.updSgdm f) := by
  obtain ⟨hw, h5, ho, hd⟩ := encV_form (op := 0x21) f (by decide)
  refine roundFl rfl hw h5 ?_
  simp only [encUpdSgdm]
  rw [parseFl, ho]
  simp only [parseFlAt, zeroField, need, flag, hd]
  rfl

theorem trust2 (f : FVn) : Statement (.trust2 f) := by
  obtain ⟨hw, h5, ho, hd⟩ := encVn_form (op := 0x22) f (by decide)
  refine roundFl rfl hw h5 ?_
  rw [parseFl, ho]
  simp only [parseFlAt, zeroField, need, flag, hd]
  rfl

theorem clipg (f : FVn) : Statement (.clipg f) := by
  obtain ⟨hw, h5, ho, hd⟩ := encVn_form (op := 0x23) f (by decide)
  refine roundFl rfl hw h5 ?_
  rw [parseFl, ho]
  simp only [parseFlAt, zeroField, need, flag, hd]
  rfl

theorem lsc (f : FLsc) : Statement (.lsc f) := by
  have := encOp_lt f.c false (show 0x00 < 2 ^ 6 by decide); have := (show f.scn.val < 2 ^ 4 from f.scn.isLt)
  have := (show f.gn.val < 2 ^ 4 from f.gn.isLt); have := b2n_lt1 f.two
  refine roundSc rfl (by
    simp only [encLsc]
    repeat first | with_reducible assumption | refine add_lt ?_ (by with_reducible assumption) (by decide) | omega)
    (by simp (disch := decide) only [encLsc, flag, bits_low, encOp_l, b2n_eq, Option.isSome_none, Option.isSome_some]) ?_
  have hop : bits (encLsc f).word 6 6 = 0x00 := by simp (disch := decide) only [encLsc, bits_low, bits_encOp]
  rw [parseSc, hop]
  simp (disch := first | decide | omega) only [parseScAt, bits_low, bits_top, bits_zero, bits_encOp,
    decCommon_low, decCommon_encOp, flag, zeroField, need, fin4, encLsc, ofNat_val, ofNat_toNat, b2n_eq]
  rfl

theorem scset (f : FScset) : Statement (.scset f) := by
  have := encOp_lt f.c false (show 0x01 < 2 ^ 6 by decide); have := (show f.scn.val < 2 ^ 4 from f.scn.isLt)
  have := (show f.woff.val < 2 ^ 6 from f.woff.isLt); have := src_lt f.a
  refine roundSc rfl (by
    simp only [encScset]
    repeat first | with_reducible assumption | refine add_lt ?_ (by with_reducible assumption) (by decide) | omega)
    (by simp (disch := decide) only [encScset, flag, bits_low, encOp_l, b2n_eq, Option.isSome_none, Option.isSome_some]) ?_
  have hop : bits (encScset f).word 6 6 = 0x01 := by simp (disch := decide) only [encScset, bits_low, bits_encOp]
  rw [parseSc, hop]
  simp (disch := first | decide | omega) only [parseScAt, bits_low, bits_top, bits_zero, bits_encOp,
    decCommon_low, decCommon_encOp, flag, zeroField, need, decSrc_code, fin4, fin6, encScset, ofNat_val,
    ofNat_toNat, b2n_eq]
  rfl

theorem pset (f : FPset) : Statement (.pset f) := by
  have := encOp_lt f.c false (show 0x02 < 2 ^ 6 by decide); have := (show f.pn.val < 2 ^ 4 from f.pn.isLt)
  have := src_lt f.a; have := src_lt f.b
  refine roundSc rfl (by
    simp only [encPset]
    repeat first | with_reducible assumption | refine add_lt ?_ (by with_reducible assumption) (by decide) | omega)
    (by simp (disch := decide) only [encPset, flag, bits_low, encOp_l, b2n_eq, Option.isSome_none, Option.isSome_some]) ?_
  have hop : bits (encPset f).word 6 6 = 0x02 := by simp (disch := decide) only [encPset, bits_low, bits_encOp]
  rw [parseSc, hop]
  simp (disch := first | decide | omega) only [parseScAt, bits_low, bits_top, bits_zero, bits_encOp,
    decCommon_low, decCommon_encOp, flag, zeroField, need, decSrc_code, fin4, encPset, ofNat_val, ofNat_toNat,
    b2n_eq]
  rfl

theorem psetd (f : FPsetd) : Statement (.psetd f) := by
  have := encOp_lt f.c false (show 0x03 < 2 ^ 6 by decide); have := (show f.pn.val < 2 ^ 4 from f.pn.isLt)
  have := vop_lt f.vs; have := pKind_lt f.kc
  refine roundSc rfl (by
    simp only [encPsetd]
    repeat first | with_reducible assumption | refine add_lt ?_ (by with_reducible assumption) (by decide) | omega)
    (by simp (disch := decide) only [encPsetd, flag, bits_low, encOp_l, b2n_eq, Option.isSome_none, Option.isSome_some]) ?_
  have hop : bits (encPsetd f).word 6 6 = 0x03 := by simp (disch := decide) only [encPsetd, bits_low, bits_encOp]
  rw [parseSc, hop]
  simp (disch := first | decide | omega) only [parseScAt, bits_low, bits_top, bits_zero, bits_encOp,
    decCommon_low, decCommon_encOp, flag, zeroField, need, fin4, decV_code, encPsetd, ofNat_val, ofNat_toNat,
    b2n_eq]
  obtain ⟨_, _, _, kc⟩ := f; cases kc <;> rfl

theorem psett (f : FPsett) : Statement (.psett f) := by
  have := encOp_lt f.c false (show 0x04 < 2 ^ 6 by decide); have := (show f.pn.val < 2 ^ 4 from f.pn.isLt)
  have := (show f.tt.val < 2 ^ 3 from f.tt.isLt); have := src_lt f.a
  refine roundSc rfl (by
    simp only [encPsett]
    repeat first | with_reducible assumption | refine add_lt ?_ (by with_reducible assumption) (by decide) | omega)
    (by simp (disch := decide) only [encPsett, flag, bits_low, encOp_l, b2n_eq, Option.isSome_none, Option.isSome_some]) ?_
  have hop : bits (encPsett f).word 6 6 = 0x04 := by simp (disch := decide) only [encPsett, bits_low, bits_encOp]
  rw [parseSc, hop]
  simp (disch := first | decide | omega) only [parseScAt, bits_low, bits_top, bits_zero, bits_encOp,
    decCommon_low, decCommon_encOp, flag, zeroField, need, decSrc_code, fin4, fin3, encPsett, ofNat_val,
    ofNat_toNat, b2n_eq]
  rfl

theorem setls (f : FSetls) : Statement (.setls f) := by
  have := encOp_lt f.c false (show 0x05 < 2 ^ 6 by decide); have := f.lse.isLt
  refine roundSc rfl (by
    simp only [encSetls]
    repeat first | with_reducible assumption | refine add_lt ?_ (by with_reducible assumption) (by decide) | omega)
    (by simp (disch := decide) only [encSetls, flag, bits_low, encOp_l, b2n_eq, Option.isSome_none, Option.isSome_some]) ?_
  have hop : bits (encSetls f).word 6 6 = 0x05 := by simp (disch := decide) only [encSetls, bits_low, bits_encOp]
  rw [parseSc, hop]
  simp (disch := first | decide | omega) only [parseScAt, bits_low, bits_top, bits_zero, bits_encOp,
    decCommon_low, decCommon_encOp, flag, zeroField, need, decSrc_code, encSetls, ofNat_val, ofNat_toNat, b2n_eq]
  rfl

theorem setlsRegister (f : FSca) : Statement (.setlsRegister f) := by
  have := encOp_lt f.c false (show 0x05 < 2 ^ 6 by decide); have := src_lt f.a; have := b2n_lt1 true
  refine roundSc rfl (by
    simp only [encSetlsRegister]
    repeat first | with_reducible assumption | refine add_lt ?_ (by with_reducible assumption) (by decide) | omega)
    (by simp (disch := decide) only [encSetlsRegister, flag, bits_low, encOp_l, b2n_eq, Option.isSome_none, Option.isSome_some]) ?_
  have hop : bits (encSetlsRegister f).word 6 6 = 0x05 := by simp (disch := decide) only [encSetlsRegister, bits_low, bits_encOp]
  rw [parseSc, hop]
  simp (disch := first | decide | omega) only [parseScAt, bits_low, bits_top, bits_zero, bits_encOp,
    decCommon_low, decCommon_encOp, flag, zeroField, need, decSrc_code, encSetlsRegister, ofNat_val,
    ofNat_toNat, b2n_eq]
  rfl

theorem srseed (f : FSca) : Statement (.srseed f) := by
  obtain ⟨hw, h5, ho, hd⟩ := encSca_form (op := 0x06) f (by decide)
  refine roundSc rfl hw h5 ?_
  rw [parseSc, ho]
  simp only [parseScAt, zeroField, need, flag, hd]
  rfl

theorem srctrset (f : FSca) : Statement (.srctrset f) := by
  obtain ⟨hw, h5, ho, hd⟩ := encSca_form (op := 0x07) f (by decide)
  refine roundSc rfl hw h5 ?_
  rw [parseSc, ho]
  simp only [parseScAt, zeroField, need, flag, hd]
  rfl

theorem ttnew (f : FTta) : Statement (.ttnew f) := by
  have := encOp_lt f.c false (show 0x08 < 2 ^ 6 by decide); have := (show f.tt.val < 2 ^ 3 from f.tt.isLt)
  have := src_lt f.a
  refine roundSc rfl (by
    simp only [encTtnew]
    repeat first | with_reducible assumption | refine add_lt ?_ (by with_reducible assumption) (by decide) | omega)
    (by simp (disch := decide) only [encTtnew, flag, bits_low, encOp_l, b2n_eq, Option.isSome_none, Option.isSome_some]) ?_
  have hop : bits (encTtnew f).word 6 6 = 0x08 := by simp (disch := decide) only [encTtnew, bits_low, bits_encOp]
  rw [parseSc, hop]
  simp (disch := first | decide | omega) only [parseScAt, bits_low, bits_top, bits_zero, bits_encOp,
    decCommon_low, decCommon_encOp, flag, zeroField, need, decSrc_code, fin3, encTtnew, ofNat_val, ofNat_toNat,
    b2n_eq]
  rfl

theorem ttadd (f : FTtadd) : Statement (.ttadd f) := by
  have := encOp_lt f.c false (show 0x09 < 2 ^ 6 by decide); have := (show f.tt.val < 2 ^ 3 from f.tt.isLt)
  have := src_lt f.a; have := src_lt f.b
  refine roundSc rfl (by
    simp only [encTtadd]
    repeat first | with_reducible assumption | refine add_lt ?_ (by with_reducible assumption) (by decide) | omega)
    (by simp (disch := decide) only [encTtadd, flag, bits_low, encOp_l, b2n_eq, Option.isSome_none, Option.isSome_some]) ?_
  have hop : bits (encTtadd f).word 6 6 = 0x09 := by simp (disch := decide) only [encTtadd, bits_low, bits_encOp]
  rw [parseSc, hop]
  simp (disch := first | decide | omega) only [parseScAt, bits_low, bits_top, bits_zero, bits_encOp,
    decCommon_low, decCommon_encOp, flag, zeroField, need, decSrc_code, fin3, encTtadd, ofNat_val, ofNat_toNat,
    b2n_eq]
  rfl

theorem ttpos (f : FTtv) : Statement (.ttpos f) := by
  have := encOp_lt f.c false (show 0x0A < 2 ^ 6 by decide); have := (show f.tt.val < 2 ^ 3 from f.tt.isLt)
  have := vop_lt f.vd
  refine roundSc rfl (by
    simp only [encTtv]
    repeat first | with_reducible assumption | refine add_lt ?_ (by with_reducible assumption) (by decide) | omega)
    (by simp (disch := decide) only [encTtv, flag, bits_low, encOp_l, b2n_eq, Option.isSome_none, Option.isSome_some]) ?_
  have hop : bits (encTtv 0x0A f).word 6 6 = 0x0A := by simp (disch := decide) only [encTtv, bits_low, bits_encOp]
  rw [parseSc, hop]
  simp (disch := first | decide | omega) only [parseScAt, bits_low, bits_top, bits_zero, bits_encOp,
    decCommon_low, decCommon_encOp, flag, zeroField, need, decFTtv, fin3, decV_code, encTtv, ofNat_val,
    ofNat_toNat, b2n_eq]
  rfl

theorem ttprune (f : FTtv) : Statement (.ttprune f) := by
  have := encOp_lt f.c false (show 0x0B < 2 ^ 6 by decide); have := (show f.tt.val < 2 ^ 3 from f.tt.isLt)
  have := vop_lt f.vd
  refine roundSc rfl (by
    simp only [encTtv]
    repeat first | with_reducible assumption | refine add_lt ?_ (by with_reducible assumption) (by decide) | omega)
    (by simp (disch := decide) only [encTtv, flag, bits_low, encOp_l, b2n_eq, Option.isSome_none, Option.isSome_some]) ?_
  have hop : bits (encTtv 0x0B f).word 6 6 = 0x0B := by simp (disch := decide) only [encTtv, bits_low, bits_encOp]
  rw [parseSc, hop]
  simp (disch := first | decide | omega) only [parseScAt, bits_low, bits_top, bits_zero, bits_encOp,
    decCommon_low, decCommon_encOp, flag, zeroField, need, decFTtv, fin3, decV_code, encTtv, ofNat_val,
    ofNat_toNat, b2n_eq]
  rfl

theorem ttchk (f : FTtchk) : Statement (.ttchk f) := by
  have := encOp_lt f.c false (show 0x0C < 2 ^ 6 by decide); have := (show f.tt.val < 2 ^ 3 from f.tt.isLt)
  have := (show f.bd.val < 2 ^ 3 from f.bd.isLt); have := src_lt f.a
  refine roundSc rfl (by
    simp only [encTtchk]
    repeat first | with_reducible assumption | refine add_lt ?_ (by with_reducible assumption) (by decide) | omega)
    (by simp (disch := decide) only [encTtchk, flag, bits_low, encOp_l, b2n_eq, Option.isSome_none, Option.isSome_some]) ?_
  have hop : bits (encTtchk f).word 6 6 = 0x0C := by simp (disch := decide) only [encTtchk, bits_low, bits_encOp]
  rw [parseSc, hop]
  simp (disch := first | decide | omega) only [parseScAt, bits_low, bits_top, bits_zero, bits_encOp,
    decCommon_low, decCommon_encOp, flag, zeroField, need, decSrc_code, fin3, encTtchk, ofNat_val, ofNat_toNat,
    b2n_eq]
  rfl

theorem ttgen (f : FTt) : Statement (.ttgen f) := by
  have := encOp_lt f.c false (show 0x0D < 2 ^ 6 by decide); have := (show f.tt.val < 2 ^ 3 from f.tt.isLt)
  refine roundSc rfl (by
    simp only [encTtgen]
    repeat first | with_reducible assumption | refine add_lt ?_ (by with_reducible assumption) (by decide) | omega)
    (by simp (disch := decide) only [encTtgen, flag, bits_low, encOp_l, b2n_eq, Option.isSome_none, Option.isSome_some]) ?_
  have hop : bits (encTtgen f).word 6 6 = 0x0D := by simp (disch := decide) only [encTtgen, bits_low, bits_encOp]
  rw [parseSc, hop]
  simp (disch := first | decide | omega) only [parseScAt, bits_low, bits_top, bits_zero, bits_encOp,
    decCommon_low, decCommon_encOp, flag, zeroField, need, fin3, encTtgen, ofNat_val, ofNat_toNat, b2n_eq]
  rfl

theorem bimlim (f : FSca) : Statement (.bimlim f) := by
  obtain ⟨hw, h5, ho, hd⟩ := encSca_form (op := 0x0E) f (by decide)
  refine roundSc rfl hw h5 ?_
  rw [parseSc, ho]
  simp only [parseScAt, zeroField, need, flag, hd]
  rfl

theorem bundleIssue (core : Fin 256) : Statement (.bundleIssue core) := none_statement rfl

theorem vacancyFill (core : Fin 256) : Statement (.vacancyFill core) := none_statement rfl

theorem promotion (core : Fin 256) : Statement (.promotion core) := none_statement rfl

theorem resultWrite (ctx : Fin 1024) : Statement (.resultWrite ctx) := none_statement rfl

theorem loopPassEnd (ctx : Fin 1024) : Statement (.loopPassEnd ctx) := none_statement rfl

theorem pinExpiry (ctx : Fin 1024) : Statement (.pinExpiry ctx) := none_statement rfl

theorem copyComplete (core : Fin 256) (ch : Fin 4) (budget : Nat) : Statement (.copyComplete core ch budget) := none_statement rfl

theorem copyStop (core : Fin 256) (ch : Fin 4) : Statement (.copyStop core ch) := none_statement rfl

theorem handleDrainComplete (ctx : Fin 1024) (h : Fin 64) : Statement (.handleDrainComplete ctx h) := none_statement rfl

theorem copyResume (core : Fin 256) (ch : Fin 4) : Statement (.copyResume core ch) := none_statement rfl

theorem copyAbort (core : Fin 256) (ch : Fin 4) (err : BitVec 8) : Statement (.copyAbort core ch err) := none_statement rfl

theorem barrierCompletion (stream : Fin 16) (b : BarId) : Statement (.barrierCompletion stream b) := none_statement rfl

theorem damperRelease (stream : Fin 16) (b : BarId) (phase : Fin 8) : Statement (.damperRelease stream b phase) := none_statement rfl

theorem lgenIncrement (part : Fin 8) : Statement (.lgenIncrement part) := none_statement rfl

theorem tagSweep (u : SweepUnit) (granule : Nat) : Statement (.tagSweep u granule) := none_statement rfl

theorem scratchpadClear (cluster : Fin 32) : Statement (.scratchpadClear cluster) := none_statement rfl

theorem mantelRefresh (die : Fin 4) : Statement (.mantelRefresh die) := none_statement rfl

theorem invalidationComplete (n : Nat) : Statement (.invalidationComplete n) := none_statement rfl

theorem trapDelivery (core : Fin 256) : Statement (.trapDelivery core) := none_statement rfl

theorem tresume (core : Fin 256) (ctx : Fin 4) : Statement (.tresume core ctx) := none_statement rfl

theorem launch (stream : Fin 16) : Statement (.launch stream) := none_statement rfl

theorem launchPlacement (stream : Fin 16) : Statement (.launchPlacement stream) := none_statement rfl

theorem launchEnd (stream : Fin 16) : Statement (.launchEnd stream) := none_statement rfl

theorem preemption (stream : Fin 16) : Statement (.preemption stream) := none_statement rfl

theorem semwait (stream : Fin 16) : Statement (.semwait stream) := none_statement rfl

theorem semsig (stream : Fin 16) : Statement (.semsig stream) := none_statement rfl

theorem wsload (stream : Fin 16) : Statement (.wsload stream) := none_statement rfl

theorem tgadd (stream : Fin 16) : Statement (.tgadd stream) := none_statement rfl

theorem tgrun (stream : Fin 16) : Statement (.tgrun stream) := none_statement rfl

theorem taskComplete (stream : Fin 16) (node : Fin 64) : Statement (.taskComplete stream node) := none_statement rfl

theorem fenceCommand (stream : Fin 16) : Statement (.fenceCommand stream) := none_statement rfl

theorem mark (stream : Fin 16) : Statement (.mark stream) := none_statement rfl

theorem preempt (stream : Fin 16) : Statement (.preempt stream) := none_statement rfl

theorem sqtail (stream : Fin 16) (v : Word) : Statement (.sqtail stream v) := none_statement rfl

theorem streamEnable (stream : Fin 16) (v : Word) : Statement (.streamEnable stream v) := none_statement rfl

theorem kill (stream : Fin 16) : Statement (.kill stream) := none_statement rfl

theorem xinvGo (part : Fin 8) (v : Word) : Statement (.xinvGo part v) := none_statement rfl

theorem translationRootWrite (part : Fin 8) (r : XReg) (v : Word) : Statement (.translationRootWrite part r v) := none_statement rfl

theorem partitionConfigWrite (part : Fin 8) (r : PReg) (v : Word) : Statement (.partitionConfigWrite part r v) := none_statement rfl

theorem registerWrite (off : Nat) (v : Word) : Statement (.registerWrite off v) := none_statement rfl

theorem chimneyRecordTake (die : Fin 4) : Statement (.chimneyRecordTake die) := none_statement rfl

theorem frameWrite (part : Fin 8) : Statement (.frameWrite part) := none_statement rfl

theorem eventLogWrite (die : Fin 4) : Statement (.eventLogWrite die) := none_statement rfl

theorem hostMemoryAccess (a : HostAcc) : Statement (.hostMemoryAccess a) := none_statement rfl

theorem portEnable (port : Fin 16) : Statement (.portEnable port) := none_statement rfl

theorem portUp (port : Fin 16) (peer : BitVec 8) : Statement (.portUp port peer) := none_statement rfl

theorem portFail (port : Fin 16) : Statement (.portFail port) := none_statement rfl

theorem flitReceive (port : Fin 16) (flit : BitVec 2048) : Statement (.flitReceive port flit) := none_statement rfl

theorem flitReplay (port : Fin 16) (nak : BitVec 12) : Statement (.flitReplay port nak) := none_statement rfl

theorem linkCalibration (link : Link) : Statement (.linkCalibration link) := none_statement rfl

theorem patrolScrub (die : Fin 4) (granule : Nat) (bad : Bool) : Statement (.patrolScrub die granule bad) := none_statement rfl

theorem dramRefresh (die : Fin 4) (hot : Bool) : Statement (.dramRefresh die hot) := none_statement rfl

theorem correctedError (u : EccUnit) : Statement (.correctedError u) := none_statement rfl

theorem uncorrectableError (u : EccUnit) : Statement (.uncorrectableError u) := none_statement rfl

theorem telemetrySample (power : BitVec 32) (temps : List (BitVec 32)) : Statement (.telemetrySample power temps) := none_statement rfl

theorem throttle (die : Fin 4) (temp : BitVec 32) : Statement (.throttle die temp) := none_statement rfl

theorem clockRestore (die : Fin 4) (temp : BitVec 32) : Statement (.clockRestore die temp) := none_statement rfl

theorem thermalStop : Statement (.thermalStop) := none_statement rfl

theorem powerUp : Statement (.powerUp) := none_statement rfl

theorem attest : Statement (.attest) := none_statement rfl

theorem cert : Statement (.cert) := none_statement rfl

theorem fwupdate (arg : Word) : Statement (.fwupdate arg) := none_statement rfl

theorem devlog (arg : Word) : Statement (.devlog arg) := none_statement rfl

theorem writePerformed (ctx : Fin 1024) (strm : Fin 16) : Statement (.writePerformed ctx strm) := none_statement rfl

theorem wsloadComplete (stream : Fin 16) : Statement (.wsloadComplete stream) := none_statement rfl

theorem streamDisable (stream : Fin 16) (v : Word) : Statement (.streamDisable stream v) := none_statement rfl

theorem portDisable (port : Fin 16) : Statement (.portDisable port) := none_statement rfl

theorem powerDown : Statement (.powerDown) := none_statement rfl

end Sys2Proof.Laws.RoundTrip
end

