-- ==== Sys2Proof/Laws/Run.lean ====
section
/-! SUPPORT. What the shared operations around a step can do, each said once: one step after another, the bundles of an event, a
Mantel's bytes, a handle that drains. -/

namespace Sys2Proof.Machine

open Sys2Proof

/-! ## One step after another -/

@[simp] theorem andThen_next (s : State) (f : State → Out) : andThen (.next s) f = f s := rfl

/-- What follows a step answers a next state only from one that the step answers. -/
theorem andThen_eq_next {o : Out} {f : State → Out} {t : State} (h : andThen o f = .next t) : ∃ s, o = .next s ∧ f s = .next t := by
  cases o with
  | next s => exact ⟨s, rfl, h⟩
  | fault r => cases h
  | refused r => cases h

@[simp] theorem forAll_nil (f : Nat → State → Out) (s : State) : forAll [] f s = .next s := rfl

/-! ## The bundles of an event -/

/-- No slot is left: the bundle ends. -/
theorem drain_nil (n : Nat) (s : State) (h : s.me.todo = []) : drain n s = .next (s.endBundle s.cur) := by
  cases n <;> simp [drain, h]

/-- Without an entry of `pace` the issued bundle runs to its end and all that wait try again. -/
theorem runBundles_nil (s : State) (h : s.pace = []) : runBundles s = andThen (drain 8 s) settle := by simp [runBundles, h]

/-- With one, the contexts that it names go on, by its numbers of slots, and the BLOCKED try again. -/
theorem runBundles_cons (s : State) (l : List (Nat × Nat)) (rest : List (List (Nat × Nat))) (h : s.pace = l :: rest) :
    runBundles s = andThen (l.foldl (fun o q => andThen o (goOnIf q.2 q.1)) (.next { s with pace := rest })) (fun t =>
      forAll t.waiters tryBlocked t) := by simp [runBundles, h]

/-- A context that is no stream, or has no slot left, stays where it is. -/
theorem goOnIf_idle (n g : Nat) (s : State) (h : (s.ctx g).runs = false ∨ (s.ctx g).todo = []) : goOnIf n g s = .next s := by
  rcases h with h | h <;> simp [goOnIf, h]

/-! ## A Mantel's bytes -/

/-- Bytes of the Mantel may be read if and only if the bank of each is the partition's and none is poisoned (R130, R305). -/
theorem State.mantelTrap_eq_none (s : State) (l : List Nat) : s.mantelTrap l = none ↔
    ∀ a ∈ l, s.bankOk (s.partOf s.cur) (dieOf s.cur) a = true ∧ s.mantelBad (dieOf s.cur) a = false := by
  have e : s.mantelTrap l = none ↔
      l.filter (fun a => !s.bankOk (s.partOf s.cur) (dieOf s.cur) a || s.mantelBad (dieOf s.cur) a) = [] := by
    simp only [State.mantelTrap]
    split <;> simp_all
  rw [e, List.filter_eq_nil_iff]
  constructor <;> intro h a ha <;> have := h a ha <;> simp_all

/-! ## A handle that drains -/

/-- A DRAINING handle with no earlier read of its region left becomes FREE (R122). -/
theorem State.drained_free (s : State) (g n : Nat) (h : ((s.ctx g).handle n).st = .draining) (hr : s.handleRead g n = false) :
    s.drained g n = s.setHandle g n { (s.ctx g).handle n with st := .free } := by simp [State.drained, h, hr]

/-- Any other handle stays as it is. -/
theorem State.drained_keep (s : State) (g n : Nat) (h : ((s.ctx g).handle n).st ≠ .draining ∨ s.handleRead g n = true) :
    s.drained g n = s := by
  rcases h with h | h <;> simp [State.drained, h]

end Sys2Proof.Machine
end

