-- ==== Sys2Proof/Tests/Slice0.lean ====
section
/-! SUPPORT. Tests of the author: the well-formedness smoke, words written out bit by bit from the encodings of the spec,
single steps on small states, and for every statement with hypotheses operands and states that meet them. -/

set_option Elab.async false

open Sys2Proof Sys2Proof.Machine Sys2Proof.Claims

namespace Sys2Proof.Tests

/-! ## Small states -/

/-- A launch of one context, with latency 1 in every class. -/
def l0 : Launch := bootLaunch

/-- The context of the tests: PRIMARY, all shares of its core, x1 = 7, x2 = 0, x3 all ones, x4 = 2^63, in a bundle of which
slot 1 and slot 2 are left. -/
def c0 : Ctx :=
  { bootDesc.ctx0 bootLaunch with
    st := .primary, x := [(1, 7#64), (3, BitVec.allOnes 64), (4, 0x8000000000000000#64)], todo := [(1, .yield ⟨plain⟩), (2, .wsphase ⟨plain, 1⟩)] }

/-- A state in which context `c` is the current one, alone on core 0 of the launch `l`. -/
def withCtx (c : Ctx) (l : Launch := l0) : State :=
  { State.reset with ready := true, ctxs := [(0, c)], cores := [(0, { CoreSt.reset with prim := some 0, lastOwner := some 0, launch := some 0 })],
                     launches := [(0, l)], parts := [(0, { Part.reset with en := true, clmask := 1#32 })] }

/-- The state of most tests. -/
def s0 : State := withCtx c0

/-- A context without privilege in a loop body, and one with it. -/
def sLoop : State := withCtx { c0 with nest := some ⟨0, 3, 1, [], []⟩ }
def sPriv : State := withCtx { c0 with view := { c0.view with priv := true }, csr := { c0.csr with priv := true } }

theorem takes_x (s : State) (n : Fin 32) : Takes s (.x n) := by intro k v h; cases h
theorem takes_q (s : State) : Takes s .q := by intro k v h; cases h

/-- What a check that passes gives. -/
def got {ε α : Type} (d : α) : Except ε α → α
  | .ok m => m
  | .error _ => d

def passed {ε α : Type} : Except ε α → Bool
  | .ok _ => true
  | .error _ => false

theorem got_eq {ε α : Type} (d : α) (x : Except ε α) (h : passed x = true) : x = .ok (got d x) := by
  cases x with
  | error e => cases h
  | ok m => rfl

/-- The same of an optional value. -/
theorem get_eq {α : Type} (d : α) (x : Option α) (h : x.isSome = true) : x = some (x.getD d) := by
  cases x with
  | none => cases h
  | some m => rfl

def dataB (sp : Space) (a : Nat) : Bool :=
  match sp, zoneOf a with
  | .dram, .data _ _ => true
  | .dram, _ => false
  | _, _ => true

theorem dataPlace_of (sp : Space) (a : Nat) (h : dataB sp a = true) : dataPlace sp a := by
  intro hs; subst hs
  cases hz : zoneOf a <;> simp_all [dataB]

theorem holdsData_of (ac : Access) (as : List Nat) (h : (as.all (fun a => dataB (ac.at a).1 (ac.at a).2)) = true) : holdsData ac as := by
  intro a ha
  exact dataPlace_of _ _ (List.all_eq_true.mp h a ha)

/-- An access of a state at given bytes. -/
def acc (s : State) (k : Acc) (cls : Cls) (asp : ASpace) (as : List Nat) : Access := got [] (s.check s.cur k cls asp as)

/-- A form R on x registers. -/
def fr (d a b : Fin 32) : FR := ⟨plain, none, .x d, .x a, .x b⟩

end Sys2Proof.Tests

open Sys2Proof.Tests


/-! ## Hypotheses that are met: scalar arithmetic, guards, generators, CSRs -/

/-- Sources 7 and 0 (a divisor of zero), −2^63 and −1, and a result for the result queue. -/
theorem wit_scalarArithmetic :
    (Goes s0 (fr 5 1 2).c none [.x 1, .x 2] (dcnt (.x 5)) s0 [7#64, 0#64] ∧ Takes s0 (.x 5)) ∧
    (Goes s0 (fr 5 4 3).c none [.x 4, .x 3] (dcnt .q) s0 [0x8000000000000000#64, BitVec.allOnes 64] ∧ Takes s0 .q) ∧
    (Goes s0 plain none [.x 1] (dcnt (.x 0)) s0 [7#64] ∧ Takes s0 (.x 0)) ∧
    (Goes s0 plain (some 5#32) [.lit] (dcnt (.x 31)) s0 [5#64] ∧ Takes s0 (.x 31)) ∧
    (Ready s0 plain (dcnt (.x 5)) ∧ Takes s0 (.x 5)) := by
  refine ⟨⟨⟨rfl, rfl, rfl⟩, takes_x _ _⟩, ⟨⟨rfl, rfl, rfl⟩, takes_q _⟩, ⟨⟨rfl, rfl, rfl⟩, takes_x _ _⟩, ⟨⟨rfl, rfl, rfl⟩, takes_x _ _⟩,
    ⟨⟨rfl, rfl⟩, takes_x _ _⟩⟩

/-- A destination in an inbound queue, which has room. -/
theorem wit_queueDestination : Goes s0 plain none [.x 1, .x 2] (dcnt (.mq 3)) s0 [7#64, 0#64] ∧ Takes s0 (.mq 3) := by
  refine ⟨⟨rfl, rfl, rfl⟩, ?_⟩
  intro n v h; cases h; intro hn; simp [State.pushMq, s0, withCtx, State.mqTarget] at hn
  exact absurd hn (by decide)

theorem wit_comparesAndGuardLogic :
    Goes s0 plain none [.x 1, .x 3] (oneGuard 7) s0 [7#64, BitVec.allOnes 64] ∧
    Goes s0 plain none [.x 1, .x 3] (dcnt (.x 31)) s0 [7#64, BitVec.allOnes 64] ∧ Ready s0 plain (oneGuard 0) ∧
    Ready s0 plain (oneGuard 1) := by
  refine ⟨⟨rfl, rfl, rfl⟩, ⟨rfl, rfl, rfl⟩, ⟨rfl, rfl⟩, ⟨rfl, rfl⟩⟩

/-- Generators: DIMS 0 to 6, and DIMS 7. -/
def sGen7 : State := withCtx { c0 with g := [(15, { Gen.zero with attr := 0xE000#32 })] }

theorem wit_generatorInstructions :
    Goes s0 plain none [.x 1, .x 3] (1, 0) s0 [7#64, BitVec.allOnes 64] ∧
    (Ready s0 plain (1, 0) ∧ (s0.gen 15).attr.toNat / 2 ^ 13 % 8 ≠ 7) ∧
    (Ready sGen7 plain (1, 0) ∧ (sGen7.gen 15).attr.toNat / 2 ^ 13 % 8 = 7) ∧ (Ready s0 plain (dcnt (.x 1)) ∧ Takes s0 (.x 1)) := by
  refine ⟨⟨rfl, rfl, rfl⟩, ⟨⟨rfl, rfl⟩, by decide⟩, ⟨⟨rfl, rfl⟩, by decide⟩, ⟨⟨rfl, rfl⟩, takes_x _ _⟩⟩

/-- A write to each dimension of a generator, the first and the last; a generator of 6 dimensions in its last place. -/
theorem wit_generatorWrites :
    ((0 : Nat) < 6 ∧ GenWr.dim 5 1 2 = .dim 5 1 2) ∧ ((5 : Nat) < 6 ∧ GenWr.edge 0 1 2 = .edge 0 1 2) ∧ GenWr.base 1 2 = .base 1 2 := by
  decide

def gen6 : Gen := { Gen.zero with d0 := ⟨2, 0, 1, 0⟩, d5 := ⟨4, 0, 3, 0⟩, attr := 0xC000#32 }

theorem wit_generatorStep : gen6.attr.toNat / 2 ^ 13 % 8 ≠ 7 ∧ ∀ d, d < gen6.dims → (gen6.dim d).idx.toNat < gen6.count d := by
  refine ⟨by decide, ?_⟩
  have h : ∀ d : Fin 6, (gen6.dim d.val).idx.toNat < gen6.count d.val := by decide
  intro d hd; exact h ⟨d, hd⟩

/-- A CSR that any context names, one that needs privilege, and the writes that R228 makes of them. -/
theorem wit_csrInstructions :
    (Ready s0 plain (dcnt (.x 1)) ∧ Takes s0 (.x 1) ∧ mayName s0 .bimlim) ∧
    (Ready sPriv plain (dcnt (.x 1)) ∧ mayName sPriv (.tsw 3)) ∧
    (Goes s0 plain none [.x 1] (dcnt (.x 5)) s0 [7#64] ∧ mayName s0 .cstat ∧
      (csrMask .cstat).1 ||| (csrMask .cstat).2 ≠ 0#64 ∧
      (∃ u, s0.csrSet .cstat (csrwValue (csrMask .cstat).1 (csrMask .cstat).2 (s0.csrLive .cstat) 7#64) = .ok u ∧ Takes u (.x 5)) ∧
      (∃ u, s0.csrSet .cstat (csrsValue (csrMask .cstat).1 (csrMask .cstat).2 (s0.csrLive .cstat) 7#64) = .ok u ∧ Takes u (.x 5)) ∧
      (∃ u, s0.csrSet .cstat (csrcValue (csrMask .cstat).1 (csrMask .cstat).2 (s0.csrLive .cstat) 7#64) = .ok u ∧ Takes u (.x 5))) := by
  refine ⟨⟨⟨rfl, rfl⟩, takes_x _ _, ?_⟩, ⟨⟨rfl, rfl⟩, fun _ => rfl⟩, ⟨rfl, rfl, rfl⟩, ?_, by decide, ⟨_, rfl, takes_x _ _⟩,
    ⟨_, rfl, takes_x _ _⟩, ⟨_, rfl, takes_x _ _⟩⟩
  all_goals (intro h; rcases h with h | ⟨k, h⟩ <;> cases h)

/-- Writes of a plain CSR, of GUARD, SRSEED and SRCTR, and of MODE. -/
theorem wit_csrWrites :
    (∃ t, 0x200#64 &&& ((csrMask .rbase).1 ||| (csrMask .rbase).2) = 0x200#64 ∧ s0.csrSet .rbase 0x200#64 = .ok t ∧
      CsrName.rbase ≠ .guard ∧ CsrName.rbase ≠ .srseed ∧ CsrName.rbase ≠ .srctr) ∧
    (∃ t, 3#64 &&& ((csrMask .mode).1 ||| (csrMask .mode).2) = 3#64 ∧ s0.csrSet .mode 3#64 = .ok t) ∧
    (∃ t, 0xFE#64 &&& ((csrMask .guard).1 ||| (csrMask .guard).2) = 0xFE#64 ∧ s0.csrSet .guard 0xFE#64 = .ok t) ∧
    (∃ t, 1#64 &&& ((csrMask .srseed).1 ||| (csrMask .srseed).2) = 1#64 ∧ s0.csrSet .srseed 1#64 = .ok t) ∧
    (∃ t, 1#64 &&& ((csrMask .srctr).1 ||| (csrMask .srctr).2) = 1#64 ∧ s0.csrSet .srctr 1#64 = .ok t) := by
  exact ⟨⟨_, by decide, rfl, by decide, by decide, by decide⟩, ⟨_, by decide, rfl⟩, ⟨_, by decide, rfl⟩, ⟨_, by decide, rfl⟩,
    ⟨_, by decide, rfl⟩⟩

theorem wit_privilegedOperations :
    s0.me.view.priv = false ∧ Ready s0 plain (dcnt (.x 1)) ∧ (CsrName.tsw 0 = .hctx ∨ ∃ k, CsrName.tsw 0 = .tsw k) ∧
    Goes s0 plain none [.x 1] (dcnt (.x 1)) s0 [7#64] ∧ Ready s0 plain (0, 0) ∧
    Goes s0 plain none [.x 1, .x 2] (0, 0) s0 [7#64, 0#64] ∧ Goes s0 plain none [.x 1] (0, 0) s0 [7#64] := by
  exact ⟨rfl, ⟨rfl, rfl⟩, .inr ⟨0, rfl⟩, ⟨rfl, rfl, rfl⟩, ⟨rfl, rfl⟩, ⟨rfl, rfl, rfl⟩, ⟨rfl, rfl, rfl⟩⟩

/-! ## Hypotheses that are met: transfers, loops, barriers, waits, traps -/

theorem wit_controlTransfers :
    (Ready s0 plain (0, 0) ∧ s0.me.nest = none) ∧
    (Goes s0 plain (some 16#32) [.x 1] (0, 0) s0 [7#64] ∧ branches .gtz 7#64 = true ∧ branches .lez 7#64 = false) ∧
    (Goes s0 plain (some 0xFFFFFFF0#32) [.lit] (0, 0) s0 [0xFFFFFFFFFFFFFFF0#64] ∧ branches .ltz 0xFFFFFFFFFFFFFFF0#64 = true) ∧
    (Goes s0 plain (some 16#32) [.x 2] (0, 0) s0 [0#64] ∧ branches .eqz 0#64 = true ∧ branches .gtz 0#64 = false) ∧
    (∃ t, Ready s0 plain (dcnt (.x 31)) ∧ t = withMe s0 (fun c => { c with npc := s0.me.pc + BitVec.ofInt 64 (0xFFFFFFF0#32).toInt }) ∧
      Takes t (.x 31)) := by
  exact ⟨⟨⟨rfl, rfl⟩, rfl⟩, ⟨⟨rfl, rfl, rfl⟩, by decide, by decide⟩, ⟨⟨rfl, rfl, rfl⟩, by decide⟩, ⟨⟨rfl, rfl, rfl⟩, by decide, by decide⟩,
    ⟨_, ⟨rfl, rfl⟩, rfl, takes_x _ _⟩⟩

/-- A context that sees passes left, outside a body. -/
def sPasses : State := withCtx { c0 with view := { c0.view with lpass := 1 } }

theorem wit_loopWithPassesLeft : Ready sPasses plain (0, 0) ∧ sPasses.me.nest = none ∧ sPasses.me.view.lpass ≠ 0#64 := by
  exact ⟨⟨rfl, rfl⟩, rfl, by decide⟩

theorem wit_transfersInABody :
    sLoop.me.nest ≠ none ∧ Ready sLoop plain (0, 0) ∧ Goes sLoop plain none [.x 1] (0, 0) sLoop [7#64] ∧
    Ready sLoop plain (dcnt .q) := by
  exact ⟨by decide, ⟨rfl, rfl⟩, ⟨rfl, rfl, rfl⟩, ⟨rfl, rfl⟩⟩

/-- Passes 0 (a literal, and a count of 0), 1, 2^32 − 1 and 2^64 or more. -/
def sBig : State := withCtx { c0 with x := [(1, 0x10000#64), (2, 0x10000#64), (3, 0x10000#64), (4, 0x10000#64)] }

theorem wit_loops :
    (Ready s0 plain (0, 0) ∧ s0.me.nest = none ∧ s0.me.view.lpass = 0#64) ∧ passes s0 (.lit 0#32) = 0 ∧ passes s0 (.regs 1 1) = 0 ∧
    (0 < passes s0 (.lit 1#32) ∧ passes s0 (.lit 1#32) < 2 ^ 64) ∧ (0 < passes s0 (.lit 0xFFFFFFFF#32) ∧ passes s0 (.lit 0xFFFFFFFF#32) < 2 ^ 64) ∧
    (Ready sBig plain (0, 0) ∧ sBig.me.nest = none ∧ sBig.me.view.lpass = 0#64 ∧ 2 ^ 64 ≤ passes sBig (.regs 1 3)) ∧
    (Ready sLoop plain (0, 0) ∧ sLoop.me.nest ≠ none) := by
  refine ⟨⟨⟨rfl, rfl⟩, rfl, rfl⟩, by decide, by decide, ⟨by decide, by decide⟩, ⟨by decide, by decide⟩, ⟨⟨rfl, rfl⟩, rfl, rfl, by decide⟩,
    ⟨rfl, rfl⟩, by decide⟩

/-- A rotating region of 8 registers: a depth at its bound and one above it. -/
def sRot : State := withCtx { c0 with csr := { c0.csr with rbase := 0x00080010#64 }, x := [(1, 8#64), (2, 9#64)] }

theorem wit_rotation :
    (Ready s0 plain (0, 0) ∧ s0.me.csr.rsize = 0) ∧ (Ready sRot plain (0, 0) ∧ 0 < sRot.me.csr.rsize) ∧
    (Goes sRot plain none [.x 1] (0, 0) sRot [8#64] ∧ (8#64).toNat % 2 ^ 11 ≤ sRot.me.csr.rsize ∧ sRot.me.csr.rsize % 8 = 0 ∧
      sRot.me.csr.rfirst + sRot.me.csr.rsize ≤ 1536) ∧
    (Goes sRot plain none [.x 2] (0, 0) sRot [9#64] ∧ sRot.me.csr.rsize < (9#64).toNat % 2 ^ 11) := by
  exact ⟨⟨⟨rfl, rfl⟩, by decide⟩, ⟨⟨rfl, rfl⟩, by decide⟩, ⟨⟨rfl, rfl, rfl⟩, by decide, by decide, by decide⟩, ⟨rfl, rfl, rfl⟩, by decide⟩

/-- An allotment of 22 units: GROW to the bound and past it, SHRINK to 0 and below it. -/
def sUnits (n : Nat) : State := withCtx { c0 with csr := { c0.csr with vallot := n } }

/-- A second context of the core that holds the rest of its units. -/
def sNoUnits : State :=
  { sUnits 10 with ctxs := [(0, { c0 with csr := { c0.csr with vallot := 10 } }), (1, { c0 with st := .ready, csr := { c0.csr with vallot := 14 } })] }

theorem wit_growAndShrink :
    Ready (sUnits 22) plain (0, 0) ∧ ((sUnits 22).me.csr.vallot + (2 : Fin 32).val ≤ 24 ∧ (2 : Fin 32).val ≤ (sUnits 22).freeUnits (coreOf (sUnits 22).cur)) ∧
    24 < (sUnits 22).me.csr.vallot + (3 : Fin 32).val ∧ (22 : Fin 32).val ≤ (sUnits 22).me.csr.vallot ∧
    (sUnits 22).me.csr.vallot < (23 : Fin 32).val ∧
    (Ready sNoUnits plain (0, 0) ∧ sNoUnits.me.csr.vallot + (1 : Fin 32).val ≤ 24 ∧ sNoUnits.freeUnits (coreOf sNoUnits.cur) < (1 : Fin 32).val ∧
      sNoUnits.me.resv.contains (.units (1 : Fin 32).val) = false) := by
  exact ⟨⟨rfl, rfl⟩, by decide, by decide, by decide, by decide, ⟨rfl, rfl⟩, by decide, by decide, by decide⟩

/-- A position that arrives for the first, the second and the third time, and one that no descriptor names. -/
def bar1 : Bar := ((Bar.reset.arrive 0).getD (Bar.reset, 0)).1
def bar2 : Bar := ((bar1.arrive 0).getD (Bar.reset, 0)).1
def sBar (b : Bar) : State := withCtx c0 (l0.setBar (l0.barKey .cluster 5 0) b)
def sStranger : State := withCtx c0 { l0 with descs := [] }

theorem wit_barrierArrivals :
    (s0.me.guardOn plain = true ∧ ∃ w, waitAll s0 = (w, false) ∧ ∃ b ep, w.seat w.cur = some (0, l0, 0) ∧
      (l0.bar (l0.barKey .cluster 5 0)).arrive 0 = some (b, ep)) ∧
    ((sBar bar2).me.guardOn plain = true ∧ ∃ w, waitAll (sBar bar2) = (w, false) ∧ ∃ n l pos, w.seat w.cur = some (n, l, pos) ∧
      (l.bar (l.barKey .cluster 5 pos)).arrive pos = none) ∧
    (sStranger.me.guardOn plain = true ∧ ∃ w, waitAll sStranger = (w, false) ∧ w.seat w.cur = none) ∧
    (0 ∉ Bar.reset.arr ∧ 0 ∈ bar1.arr ∧ 0 ∉ bar1.arrNext ∧ 0 ∈ bar2.arr ∧ 0 ∈ bar2.arrNext) := by
  exact ⟨⟨rfl, _, rfl, _, _, rfl, rfl⟩, ⟨rfl, _, rfl, _, _, _, rfl, rfl⟩, ⟨rfl, _, rfl, rfl⟩, by decide⟩

theorem wit_waits :
    (Ready s0 plain (0, 0) ∧ s0.seat s0.cur = some (0, l0, 0) ∧ Tab.find 0 (l0.bar (l0.barKey .cluster 5 0)).last = none) ∧
    (Ready (sBar bar1) plain (0, 0) ∧ ∃ l, (sBar bar1).seat (sBar bar1).cur = some (0, l, 0) ∧
      Tab.find 0 (l.bar (l.barKey .cluster 5 0)).last = some 0 ∧ (l.bar (l.barKey .cluster 5 0)).holds (sBar bar1).cycle 0 0 = true) ∧
    (s0.me.st ≠ .trapped ∧ (s0.me.handle 63).err = 0#8 ∧ (s0.me.handle 63).st = .free ∧ (s0.me.handle 63).st ≠ .full) ∧
    (Tab.get [] 3 s0.myCore.mq).countP (fun e => e.taken = none ∨ e.taken = some (s0.cur % 4)) < (0 : Fin 16).val + 1 := by
  exact ⟨⟨⟨rfl, rfl⟩, rfl, rfl⟩, ⟨⟨rfl, rfl⟩, _, rfl, rfl, rfl⟩, by decide, by decide⟩

/-- A queue that holds as many entries as a WAITQ asks for, and another READY context. -/
def sQueue : State := s0.modCore 0 (fun q => { q with mq := [(3, [⟨1#64, none⟩, ⟨2#64, some 0⟩, ⟨3#64, some 1⟩])] })
def sTwo : State := { s0 with ctxs := [(0, c0), (3, { c0 with st := .ready })] }

theorem wit_queuesAndYield :
    (Ready sQueue plain (0, 0) ∧ (1 : Fin 16).val + 1 ≤ (Tab.get [] 3 sQueue.myCore.mq).countP (fun e => e.taken = none ∨ e.taken = some (sQueue.cur % 4))) ∧
    (Ready s0 plain (0, 0) ∧ ¬ otherReady s0) ∧ (Ready sTwo plain (0, 0) ∧ otherReady sTwo ∧ sTwo.me.halting = false) ∧
    (otherReady (sTwo.setCtx 0 { c0 with halting := true }) ∧ (sTwo.setCtx 0 { c0 with halting := true }).me.halting = true) ∧
    (((withCtx { c0 with todo := [], slots := [(2, .wsphase ⟨plain, 1⟩)], yielding := true }).ctx 0).st = .primary ∧
      ((withCtx { c0 with todo := [], slots := [(2, .wsphase ⟨plain, 1⟩)], halting := true }).ctx 0).halting = true) ∧
    (s0.me.guardOn plain = true ∧ (∃ w, waitAll s0 = (w, false)) ∧ s0.me.csr.hdl = false) ∧
    s0.me.guardOn ⟨false, 0, true⟩ = false := by
  refine ⟨⟨⟨rfl, rfl⟩, by decide⟩, ⟨⟨rfl, rfl⟩, ?_⟩, ⟨⟨rfl, rfl⟩, ⟨3, by decide, by decide, by decide⟩, rfl⟩, ⟨⟨3, by decide, by decide, by decide⟩, rfl⟩, ⟨rfl, rfl⟩,
    ⟨rfl, ⟨_, rfl⟩, rfl⟩, rfl⟩
  rintro ⟨i, hi, hne, h⟩
  have : ∀ k : Fin 4, k.val ≠ s0.cur % 4 → (s0.ctx (coreOf s0.cur * 4 + k.val)).st ≠ .ready := by decide
  exact this ⟨i, hi⟩ hne h

/-- A TRAP with slots after it, and one that is the last of its bundle. -/
theorem wit_trap :
    (Ready s0 plain (0, 0) ∧ (∀ p ∈ s0.me.todo, p.1 < 8) ∧ s0.me.todo.tail ≠ []) ∧
    (Ready (withCtx { c0 with todo := [(1, .yield ⟨plain⟩)] }) plain (0, 0) ∧
      (withCtx { c0 with todo := [(1, .yield ⟨plain⟩)] }).me.todo.tail = []) := by
  exact ⟨⟨⟨rfl, rfl⟩, by decide, by decide⟩, ⟨rfl, rfl⟩, rfl⟩

/-- A launch with a bucket that serves, and request slots active and not. -/
def lReq : Launch := { l0 with req := [(255, ⟨true, 255#8⟩)] }
def sReq : State := withCtx { c0 with x := [(1, 1#64), (2, 255#64)] } lReq

theorem wit_requests :
    (Goes sReq plain none [.x 1] (dcnt (.x 5)) sReq [1#64] ∧ Takes sReq (.x 5) ∧ sReq.launchOn (coreOf sReq.cur) = some (0, lReq) ∧ lReq.occ ≤ 256) ∧
    (lReq.slot (1#64 : Word).toNat).act = false ∧
    (Goes sReq plain none [.x 2] (dcnt (.x 5)) sReq [255#64] ∧ (lReq.slot ((255#64 : Word).toNat % 256)).act = true) := by
  exact ⟨⟨⟨rfl, rfl, rfl⟩, takes_x _ _, rfl, by decide⟩, by decide, ⟨rfl, rfl, rfl⟩, by decide⟩

/-! ## Hypotheses that are met: returning, invalidating and loading contexts -/

/-- A privileged handler of context 1, which is trapped in slot 3 or past its bundle. -/
def cPrivd : Ctx := { c0 with view := { c0.view with priv := true, hctxV := true, hctxC := 1 }, csr := { c0.csr with priv := true, hctxV := true, hctxC := 1 } }
def sHandler (tsw : Word) : State := { withCtx cPrivd with ctxs := [(0, cPrivd), (1, { c0 with st := .trapped, tsw0 := tsw })] }

theorem wit_tret :
    (Ready (sHandler 0x300) plain (0, 0) ∧ (sHandler 0x300).me.view.priv = true ∧ 1 = coreOf (sHandler 0x300).cur * 4 + (sHandler 0x300).me.view.hctxC.toNat ∧
      1 ≠ (sHandler 0x300).cur ∧ (sHandler 0x300).me.view.hctxV = true ∧ ((sHandler 0x300).ctx 1).st = .trapped) ∧
    (((sHandler 0x800).ctx 1).tsw0.getLsbD 11 = true) ∧ (Ready sPriv plain (0, 0) ∧ sPriv.me.view.hctxV = false) := by
  exact ⟨⟨⟨rfl, rfl⟩, rfl, rfl, by decide, rfl, rfl⟩, rfl, ⟨rfl, rfl⟩, rfl⟩

/-- A finished invalidation of the current context. -/
def sInval : State := { sPriv with invals := [⟨0, 0, 0, 0, 4096, [0], some 0, none, false, true⟩] }

theorem wit_tlbi :
    ∃ i, Goes sInval plain none [.x 2, .x 2] (0, 0) sInval [0#64, 0#64] ∧ sInval.me.view.priv = true ∧
      (0#64).toNat % 2 ^ 16 = (sInval.part (sInval.partOf sInval.cur)).xasid.toNat % 2 ^ 16 ∧
      sInval.invals.find? (fun i => i.issuer == some sInval.cur) = some i ∧ i.done = true :=
  ⟨_, ⟨rfl, rfl, rfl⟩, rfl, by decide, rfl, rfl⟩

/-- A privileged context whose memory, mapped as for `withCode`, holds the control block of an image without shares at 4096. -/
def sImage : State :=
  let s := State.reset.withCode []
  let s := s.setBytes .dram (bootPage + 4096) (natLe 4 0x4358565A ++ [1#8, 0#8, 1#8])
  s.setCtx 0 { cPrivd with x := [(1, 4097#64)], chmask := 0 }

/-- The first execution of a TLBI: the context has no invalidation yet. -/
theorem wit_tlbiEnters : Goes sPriv plain none [.x 2, .x 2] (0, 0) sPriv [0#64, 0#64] ∧ sPriv.me.view.priv = true ∧
    (0#64).toNat % 2 ^ 16 = (sPriv.part (sPriv.partOf sPriv.cur)).xasid.toNat % 2 ^ 16 ∧ ∀ i ∈ sPriv.invals, i.issuer ≠ some sPriv.cur :=
  ⟨⟨rfl, rfl, rfl⟩, rfl, by decide, by intro i h; cases h⟩

theorem wit_ctxl :
    ∃ m, Goes sImage plain none [.x 1] (0, 0) sImage [4097#64] ∧ sImage.me.view.priv = true ∧ (4097#64).toNat / 4 % 2 ^ 10 = 0 ∧
      1 = coreOf sImage.cur * 4 + (4097#64).toNat % 4 ∧ 1 ≠ sImage.cur ∧ ((sImage.ctx 1).st = .empty ∨ (sImage.ctx 1).st = .halted) ∧
      sImage.readImage (sImage.imageRead sImage.cur) 1 ((4097#64).toNat / 4096 * 4096) (sImage.imageFits 1) = .ok m := by
  exact ⟨_, ⟨rfl, rfl, rfl⟩, rfl, by decide, by decide, by decide, .inl rfl, got_eq [] _ (by decide +kernel)⟩

/-! ## Hypotheses that are met: memory -/

/-- Memory mapped as for `withCode`, a region of 4 KiB at 8192 of the scratchpad of cluster 0, the first bank of the Mantel of die 0
assigned, and generators at 4096 of memory (g0), at 8192 of the scratchpad (g1) and at 0 of the Mantel (g3). -/
def genOn (space : BitVec 32) (base : Word) : Gen := { Gen.zero with base := base, attr := space, d5 := ⟨0, 16, 0, 0⟩ }
def cMem : Ctx :=
  { c0 with x := [(1, 4096#64), (2, 8192#64), (3, 4097#64), (4, 0x100000#64), (6, 64#64)], g := [(0, genOn 0 4096), (1, genOn 1 8192), (3, genOn 3 0)] }
def sMem : State :=
  let s := (State.reset.withCode []).setCtx 0 cMem
  let s := s.modPart 0 (fun p => { p with wsmask := [(0, 1#64)] })
  { s with inbox := [], clus := [(0, { Cluster.reset with regions := [⟨8192, 12, false⟩], ec := [(0, 7#32)] })] }

/-- One row of 16 bytes of BF16. -/
def fmOf (gn : Fin 16) (t : Bool) : FM := ⟨plain, ⟨.main, 8⟩, .bf16, t, 0, 0, gn⟩
def sh0 : TShape := tshape 0 0 .bf16
def spSide : Side := .sp 0 8192 4096

theorem wit_tileLoads :
    (sMem.tileSide (sMem.gen 1) [1] = .ok spSide ∧ spSide.asp = some (.sp 0) ∧ transFmt .bf16 = true) ∧
    (sMem.tileSide (sMem.gen 0) [0] = .ok .mem ∧ Side.mem.asp = some .mem) ∧ sMem.tileSide (sMem.gen 1) [0, 1, 3] = .ok spSide ∧
    (sMem.tileSide (sMem.gen 3) [3] = .ok (.mantel 0) ∧ sMem.tileSide (sMem.gen 3) [0, 1, 3] = .ok (.mantel 0) ∧ (Side.mantel 0).asp = none) ∧
    (Ready sMem plain (vcnt ⟨.main, 8⟩ sh0.regs) ∧ sMem.checkV ⟨.main, 8⟩ sh0.regs = none) ∧
    (∃ ac, Passes sMem .load .read false (.sp 0) (touched (tileBytes spSide (sMem.gen 1) sh0)) ac) ∧
    (∃ ac, Passes sMem .load .read false (.sp 0) (touched (tileBytesT spSide (sMem.gen 1) sh0)) ac) ∧
    (∃ ac, Passes sMem .load .read false .mem (touched (tileBytes .mem (sMem.gen 0) sh0)) ac) ∧
    (∀ a ∈ touched (tileBytes (.mantel 0) (sMem.gen 3) sh0), sMem.bankOk (sMem.partOf sMem.cur) (dieOf sMem.cur) a = true) := by
  refine ⟨⟨rfl, rfl, rfl⟩, ⟨rfl, rfl⟩, rfl, ⟨rfl, rfl, rfl⟩, ⟨⟨rfl, rfl⟩, by decide⟩, ⟨_, rfl, got_eq [] _ (by decide +kernel)⟩,
    ⟨_, rfl, got_eq [] _ (by decide +kernel)⟩, ⟨_, rfl, got_eq [] _ (by decide +kernel)⟩, by decide +kernel⟩

theorem wit_latchLoadAndGather :
    Ready sMem plain (0, 2) ∧ (3 : Fin 2048).val < sMem.me.lats.count ∧
    (∃ value : (Nat → Byte) → LatchRows, ∀ rd, value rd = latchOf ((tileBytes spSide (sMem.gen 1) sh0).map (fun r =>
      r.map (fun q => if q.2 = 0 then 0#8 else rd q.1 &&& BitVec.ofNat 8 q.2)))) ∧
    (sMem.tileSide (sMem.gen 1) [0, 1] = .ok spSide ∧ sMem.checkV ⟨.main, 9⟩ 1 = none ∧ (sMem.readV ⟨.main, 9⟩).dead = false ∧
      (sMem.readV ⟨.main, 9⟩).pois = false ∧
      ∃ ac, Passes sMem .load .read false (.sp 0) (touched (gatherBytes spSide (sMem.gen 1) sh0 (sMem.readV ⟨.main, 9⟩).val)) ac) := by
  refine ⟨⟨rfl, rfl⟩, by decide, ⟨_, fun _ => rfl⟩, rfl, by decide, rfl, rfl, ⟨_, rfl, got_eq [] _ (by decide +kernel)⟩⟩

/-- No committed write waits, so the tags after an access are those of the transition table. -/
theorem wit_tagsAfter : PlainWrites sMem ∧ sMem.cur < 1024 ∧ sMem.lgenOf sMem.cur < 64 :=
  ⟨(fun w h => absurd h (List.not_mem_nil)), by decide, by decide⟩

/-- The first and the last bit of a tile, with and without an edge; elements of a transposed tile; index words that are −1, negative
and at a row. -/
theorem wit_tileLayout :
    ((0 : Nat) < sh0.m ∧ (0 : Nat) < sh0.b ∧ (0 : Nat) < 8) ∧ ((0 : Nat) < sh0.m ∧ (15 : Nat) < sh0.b ∧ (7 : Nat) < 8) ∧
    (genOn 0 4096).edge = false ∧ (genOn 0x1000 4096).edge = true ∧
    ((0 : Nat) < sh0.m ∧ (0 : Nat) < sh0.e ∧ (0 : Nat) < sh0.w / 8) ∧ ((0 : Nat) < sh0.m ∧ (7 : Nat) < sh0.e ∧ (1 : Nat) < sh0.w / 8) ∧
    (((0xFFFFFFFF : VReg) >>> (32 * 0)).setWidth 32).toInt = -1 ∧ (((0x80000000 : VReg) >>> (32 * 0)).setWidth 32).toInt ≠ -1 ∧
    (((5 : VReg) >>> (32 * 0)).setWidth 32).toInt = 5 := by decide +kernel

theorem wit_scalarLoads :
    (Goes sMem plain none [.x 1] (dcnt (.x 5)) sMem [4096#64] ∧ ∃ asp as ac, sMem.sAddrs false 4096#64 0xFFF8#16 (2 ^ 3) = .ok (asp, as) ∧
      Passes sMem .load .read false asp as ac) ∧
    (Goes sMem plain none [.x 2] (dcnt (.x 5)) sMem [8192#64] ∧ ∃ asp as ac, sMem.sAddrs true 8192#64 0xFFFF#16 (2 ^ 0) = .ok (asp, as) ∧
      Passes sMem .load .read false asp as ac) ∧
    Ready sMem plain (dcnt (.x 31)) ∧ (∃ r, sMem.regionAt (clusterOf sMem.cur) (8192#64).toNat = some r) ∧
    (sMem.regionAt (clusterOf sMem.cur) (4096#64).toNat = none ∧ Goes sMem plain none [.x 1, .x 2] (0, 0) sMem [4096#64, 8192#64]) := by
  exact ⟨⟨⟨rfl, rfl, rfl⟩, _, _, _, rfl, rfl, got_eq [] _ (by decide +kernel)⟩, ⟨⟨rfl, rfl, rfl⟩, _, _, _, rfl, rfl, got_eq [] _ (by decide +kernel)⟩,
    ⟨rfl, rfl⟩, ⟨_, rfl⟩, rfl, ⟨rfl, rfl, rfl⟩⟩

/-- The bytes of a tile that a store changes. -/
def cellsOf (sd : Side) (g : Gen) : List (TByte × Byte) :=
  ((tileBytes sd g sh0).flatten.zip (natLe (sh0.m * sh0.b) (ofRegs ((sMem.readRun ⟨.main, 8⟩ sh0.regs).map (·.val))))).filter (fun q => q.1.2 != 0)

theorem wit_stores :
    (Goes sMem plain none [.x 1, .x 2] (0, 0) sMem [4096#64, 8192#64] ∧ ∃ asp as ac, sMem.sAddrs false 4096#64 0#16 (2 ^ 3) = .ok (asp, as) ∧
      Passes sMem .store .write true asp as ac ∧ holdsData ac as) ∧
    (Goes sMem plain none [.x 2, .x 1] (0, 0) sMem [8192#64, 4096#64] ∧ ∃ asp as ac, sMem.sAddrs true 8192#64 0#16 (2 ^ 0) = .ok (asp, as) ∧
      Passes sMem .store .write true asp as ac ∧ holdsData ac as) ∧
    (Ready sMem plain (0, 0) ∧ ∀ r ∈ sMem.readRun ⟨.main, 8⟩ sh0.regs, r.dead = false ∧ r.pois = false) ∧
    (∃ ac, Passes sMem .store .write true (.sp 0) ((cellsOf spSide (sMem.gen 1)).map (·.1.1)) ac ∧
      holdsData ac ((cellsOf spSide (sMem.gen 1)).map (·.1.1))) ∧
    (∃ ac, Passes sMem .store .write true .mem ((cellsOf .mem (sMem.gen 0)).map (·.1.1)) ac ∧
      holdsData ac ((cellsOf .mem (sMem.gen 0)).map (·.1.1))) := by
  refine ⟨⟨⟨rfl, rfl, rfl⟩, _, _, acc sMem .store .write _ _, rfl, ⟨rfl, got_eq [] _ (by decide +kernel)⟩, holdsData_of _ _ (by decide +kernel)⟩,
    ⟨⟨rfl, rfl, rfl⟩, _, _, acc sMem .store .write _ _, rfl, ⟨rfl, got_eq [] _ (by decide +kernel)⟩, holdsData_of _ _ (by decide +kernel)⟩,
    ⟨⟨rfl, rfl⟩, by decide +kernel⟩, ⟨acc sMem .store .write _ _, ⟨rfl, got_eq [] _ (by decide +kernel)⟩, holdsData_of _ _ (by decide +kernel)⟩,
    ⟨acc sMem .store .write _ _, ⟨rfl, got_eq [] _ (by decide +kernel)⟩, holdsData_of _ _ (by decide +kernel)⟩⟩

/-- A 64-bit and a 32-bit word, aligned, and one that is not. -/
theorem wit_atomics :
    (Goes sMem plain none [.x 1, .x 2] (dcnt (.x 5)) sMem [4096#64, 8192#64] ∧ Goes sMem plain none [.x 1, .x 2, .x 3] (dcnt (.x 5)) sMem [4096#64, 8192#64, 4097#64] ∧
      (4096#64 + (0#16).signExtend 64).toNat % 8 = 0 ∧ ∃ asp as ac, sMem.sAddrs false 4096#64 0#16 8 = .ok (asp, as) ∧
      Passes sMem .atomic .atomic true asp as ac ∧ holdsData ac as) ∧
    (∃ asp as ac, sMem.sAddrs true 8192#64 4#16 4 = .ok (asp, as) ∧ (8192#64 + (4#16).signExtend 64).toNat % 4 = 0 ∧
      Passes sMem .atomic .atomic true asp as ac ∧ holdsData ac as) ∧
    (∃ asp as, sMem.sAddrs false 4096#64 4#16 8 = .ok (asp, as) ∧ (4096#64 + (4#16).signExtend 64).toNat % 8 ≠ 0) := by
  refine ⟨⟨⟨rfl, rfl, rfl⟩, ⟨rfl, rfl, rfl⟩, by decide, _, _, acc sMem .atomic .atomic _ _, rfl, ⟨rfl, got_eq [] _ (by decide +kernel)⟩, holdsData_of _ _ (by decide +kernel)⟩,
    ⟨_, _, acc sMem .atomic .atomic _ _, rfl, by decide, ⟨rfl, got_eq [] _ (by decide +kernel)⟩, holdsData_of _ _ (by decide +kernel)⟩, ⟨_, _, rfl, by decide⟩⟩

theorem wit_raceTags : (0 : Nat) < 1024 ∧ (1023 : Nat) < 1024 ∧ (63 : Nat) < 64 ∧ (4095 : Nat) < 4096 ∧ 0 < (1 : Nat) ∧ (0 : Nat) ≠ 1023 := by decide

/-- A flag in tagged memory, the scratchpad, released at 8192 with token 9 and one range; a flag that is not aligned. -/
def rec9 : RelRec := ⟨9, .sp 0, 128, [⟨.sp 0, 129, 130⟩], .core⟩
def sAcq : State :=
  let s := { sMem with ctxs := Tab.put 1 { c0 with st := .ready, tok := 9, recs := [rec9] } sMem.ctxs }
  s.modClu 0 (fun q => { q with tags := [(128, mkTag 5 1 0 9), (129, mkTag 4 1 0 9), (130, mkTag 4 1 0 9)] })

theorem wit_acquire :
    (Goes sAcq plain none [.x 2] (dcnt (.x 5)) sAcq [8192#64] ∧ (8192#64 + (0#16).signExtend 64).toNat % 8 = 0 ∧
      ∃ asp as ac, sAcq.sAddrs true 8192#64 0#16 8 = .ok (asp, as) ∧ Passes sAcq .load .acq false asp as ac ∧ holdsData ac as) ∧
    (∃ asp as, sAcq.sAddrs true 8192#64 4#16 8 = .ok (asp, as) ∧ (8192#64 + (4#16).signExtend 64).toNat % 8 ≠ 0) ∧
    (effSt (sAcq.lgenOf sAcq.cur) (mkTag 5 1 0 9) = 5 ∧ tagTok (mkTag 5 1 0 9) ≠ 0 ∧ tagCtx (mkTag 5 1 0 9) = 1 ∧
      (∃ r, (sAcq.ctx 1).recs.find? (fun r => r.tok == 9 && sAcq.recLive (sAcq.lgenOf sAcq.cur) 1 r) = some r ∧
        sameUnit (min (scopeCode r.scope) (scopeCode .device)) sAcq.cur 1 = true) ∧ Space.sp 0 ≠ .host) ∧
    (effSt 0 (sAcq.tag (.sp 0) 129) = 4 ∧ effSt 0 (sAcq.tag (.sp 0) 130) = 4) := by
  refine ⟨⟨⟨rfl, rfl, rfl⟩, by decide, _, _, acc sAcq .load .acq _ _, rfl, ⟨rfl, got_eq [] _ (by decide +kernel)⟩, holdsData_of _ _ (by decide +kernel)⟩,
    ⟨_, _, rfl, by decide⟩, ⟨by decide, by decide, by decide, ⟨rec9, by decide +kernel, by decide⟩, by decide⟩, by decide⟩

/-- A flag in the scratchpad whose granule is ATOMIC, and one whose granule is FREE. -/
theorem wit_acquireAndReleaseComplete :
    (sAcq.copiesOf sAcq.cur = [] ∧ (∀ e ∈ sAcq.myCore.board, e.gcid ≠ sAcq.cur)) ∧
    (∀ b ∈ [8192#64, 8448#64], ∃ as, as.Nodup ∧ (∀ a ∈ as, sAcq.poisoned (.sp 0) a = false ∧ badTag (sAcq.tag (.sp 0) (a / 64)) = false ∧
        (effSt (sAcq.lgenOf sAcq.cur) (sAcq.tag (.sp 0) (a / 64)) = 0 ∨ effSt (sAcq.lgenOf sAcq.cur) (sAcq.tag (.sp 0) (a / 64)) = 5)) ∧
      sAcq.sAddrs true b 0 8 = .ok (.sp (clusterOf sAcq.cur), as) ∧ (b + (0#16).signExtend 64).toNat % 8 = 0) ∧
    Goes sAcq plain none [.x 2] (dcnt (.x 5)) sAcq [8192#64] ∧ Goes sAcq plain none [.x 2, .x 1] (0, 0) sAcq [8192#64, 4096#64] ∧
    ∀ q ∈ sAcq.relRanges ⟨plain, .x 2, .x 1, true, true, 0, .device, 0, true, 2⟩, q.1 + q.2 ≤ 2 ^ 64 := by
  refine ⟨⟨rfl, (fun e h => absurd h (List.not_mem_nil))⟩, ?_, ⟨rfl, rfl, rfl⟩, ⟨rfl, rfl, rfl⟩, by decide +kernel⟩
  intro b hb
  rcases List.mem_cons.mp hb with rfl | hb
  · exact ⟨_, by decide, by decide +kernel, rfl, by decide⟩
  · rcases List.mem_cons.mp hb with rfl | hb
    · exact ⟨_, by decide, by decide +kernel, rfl, by decide⟩
    · cases hb

/-- A REL of a flag in memory with no range, at the last token before 0, and of one in the scratchpad with one range. -/
def relOf (sp : Bool) (a : Fin 32) (nr : Fin 9) : FRel := ⟨plain, .x a, .x 2, true, sp, 0, .device, nr, true, 2⟩
def sRel : State := sMem.modMe (fun c => { c with tok := 4095, x := [(1, 4096#64), (2, 8192#64), (3, 64#64)] })

theorem perform_idle (s : State) (want : PendWrite → Bool) (hw : s.wbuf = []) : s.perform want = s := by
  simp [State.perform, hw, splitWrites]; rw [← hw]

theorem waitCopies_idle (p : Nat → Bool) (q : Copy → Bool) (s : State) (hw : s.wbuf = []) (hc : s.copiesOf s.cur = []) :
    waitCopies p q s = (s, false) := by
  simp [waitCopies, perform_idle _ _ hw, hc]

theorem relWait_idle (f : FRel) (s : State) (hw : s.wbuf = []) (hc : s.copiesOf s.cur = []) : relWait f s = (s, false) := by
  unfold relWait
  split
  · rfl
  · split
    · simp only [perform_idle _ _ hw]; exact waitCopies_idle _ _ _ hw hc
    · rfl

theorem wit_release :
    (sRel.me.guardOn plain = true ∧ relWait (relOf false 1 0) sRel = (sRel, false) ∧ Goes sRel plain none [.x 1, .x 2] (0, 0) sRel [4096#64, 8192#64] ∧
      (4096#64).toNat % 8 = 0 ∧ (∀ q ∈ sRel.relRanges (relOf false 1 0), q.1 + q.2 ≤ 2 ^ 64) ∧ 1 = (if sRel.me.tok + 1 = 4096 then 1 else sRel.me.tok + 1) ∧
      ∃ asp as ac, sRel.sAddrs false 4096#64 0 8 = .ok (asp, as) ∧ Passes sRel .atomic (.rel 1) true asp as ac ∧ holdsData ac as) ∧
    (relWait (relOf true 2 1) sRel = (sRel, false) ∧ Goes sRel plain none [.x 2, .x 2] (0, 0) sRel [8192#64, 8192#64] ∧
      (∀ q ∈ sRel.relRanges (relOf true 2 1), q.1 + q.2 ≤ 2 ^ 64) ∧
      ∃ asp as ac, sRel.sAddrs true 8192#64 0 8 = .ok (asp, as) ∧ Passes sRel .atomic (.rel 1) true asp as ac ∧ holdsData ac as) := by
  refine ⟨⟨rfl, relWait_idle _ _ rfl rfl, ⟨rfl, rfl, rfl⟩, by decide, by decide +kernel, by decide +kernel,
      _, _, acc sRel .atomic (.rel 1) _ _, rfl, ⟨rfl, got_eq [] _ (by decide +kernel)⟩, holdsData_of _ _ (by decide +kernel)⟩,
    relWait_idle _ _ rfl rfl, ⟨rfl, rfl, rfl⟩, by decide +kernel,
      _, _, acc sRel .atomic (.rel 1) _ _, rfl, ⟨rfl, got_eq [] _ (by decide +kernel)⟩, holdsData_of _ _ (by decide +kernel)⟩

/-- A FENCE with no copy of its streams and with one under way. -/
def copy0 : Copy :=
  { snap := [], op := .cpy ⟨plain, 0, 0, 0, some 5, none, 0⟩, gcid := 0, seq := 0, no := 0, part := 0, priv := false, gs := genOn 0 4096, gd := genOn 0x300 8192, gx := Gen.zero, sx := 0,
    sside := .mem, dside := .mem, xside := .mem, grp := [], pos := 0, aux := [], rows := [], staging := [], held := [], stop := none, marks := [] }
def sCopy : State := sMem.modCore 0 (fun q => { q with ch := [(0, ⟨[copy0], 0⟩)] })

theorem wit_fence :
    (sMem.me.guardOn plain = true ∧ (sMem.copiesOf sMem.cur).any (fun c => (0xFFFF#16).getLsbD c.gd.strm) = false) ∧
    (sCopy.me.guardOn plain = true ∧ (sCopy.copiesOf sCopy.cur).any (fun c => (0x8#16).getLsbD c.gd.strm) = true) ∧
    (sCopy.copiesOf sCopy.cur).any (fun c => (0x4#16).getLsbD c.gd.strm) = false ∧ Scope.core ≠ .context := by decide +kernel

/-- A range of one page, of length 0 and one that wraps; sixteen pages pinned already and one more. -/
def ftouch (a b : Fin 32) : FTouch := ⟨plain, .x a, .x b, 0⟩
def sTouch : State := sMem.modMe (fun c => { c with x := [(1, 4096#64), (2, 64#64), (3, BitVec.allOnes 64), (4, 0x7000000000000000#64)] })
def sPinned : State := sTouch.modMe (fun c => { c with pins := (List.range 16).map (fun i => ⟨2 ^ 30 * (i + 1), 4096, false, 5, none, false⟩) })

theorem wit_touch :
    (Goes sTouch plain none [.x 1, .x 2] (0, 0) sTouch [4096#64, 64#64] ∧ 4160 ≤ 2 ^ 64 ∧
      ∃ r, r = sTouch.touchPages .load 4160 (2 ^ 52) 4096 ⟨[], none⟩ ∧ pinCount (r.pages.foldl (addPin false) sTouch.me.pins) ≤ 16 ∧ r.fault = none) ∧
    (Goes sTouch plain none [.x 1, .x 0] (0, 0) sTouch [4096#64, 0#64] ∧
      ∃ r, r = sTouch.touchPages .atomic 4096 (2 ^ 52) 4096 ⟨[], none⟩ ∧ pinCount (r.pages.foldl (addPin true) sTouch.me.pins) ≤ 16 ∧ r.fault = none) ∧
    (Goes sPinned plain none [.x 1, .x 2] (0, 0) sPinned [4096#64, 64#64] ∧
      ∃ r, r = sPinned.touchPages .load 4160 (2 ^ 52) 4096 ⟨[], none⟩ ∧ 16 < pinCount (r.pages.foldl (addPin false) sPinned.me.pins)) ∧
    (Goes sTouch plain none [.x 4, .x 2] (0, 0) sTouch [0x7000000000000000#64, 64#64] ∧
      ∃ r, r = sTouch.touchPages .load 0x7000000000000040 (2 ^ 52) 0x7000000000000000 ⟨[], none⟩ ∧ pinCount (r.pages.foldl (addPin false) sTouch.me.pins) ≤ 16 ∧
        ∃ tr, r.fault = some tr) ∧
    (Goes sTouch plain none [.x 1, .x 3] (0, 0) sTouch [4096#64, BitVec.allOnes 64] ∧ 2 ^ 64 < 4096 + (BitVec.allOnes 64).toNat) := by
  refine ⟨⟨⟨rfl, rfl, rfl⟩, by decide, _, rfl, by decide +kernel, by decide +kernel⟩,
    ⟨⟨rfl, rfl, rfl⟩, _, rfl, by decide +kernel, by decide +kernel⟩, ⟨⟨rfl, rfl, rfl⟩, _, rfl, by decide +kernel⟩,
    ⟨⟨rfl, rfl, rfl⟩, _, rfl, by decide +kernel, _, get_eq (trapOf 0) _ (by decide +kernel)⟩, ⟨rfl, rfl, rfl⟩, by decide⟩

/-- A launch with room for the largest region beside the one at 8192, and one with none. -/
theorem wit_scratchpads :
    (Ready sMem plain (dcnt (.x 5)) ∧ ∃ n l, sMem.launchOn (coreOf sMem.cur) = some (n, l) ∧
      (0 % 2 ^ 12 = 0 ∧ 0 + 2 ^ 12 ≤ l.spsize ∧ ∀ r ∈ (sMem.clu 0).regions, 0 + 2 ^ 12 ≤ r.off ∨ r.off + 2 ^ r.lsize ≤ 0) ∧
      ∀ o, ¬ (o % 2 ^ 24 = 0 ∧ o + 2 ^ 24 ≤ l.spsize ∧ ∀ r ∈ (sMem.clu 0).regions, o + 2 ^ 24 ≤ r.off ∨ r.off + 2 ^ r.lsize ≤ o)) ∧
    (Goes sMem plain none [.x 2] (0, 0) sMem [8192#64] ∧ (∃ r, (sMem.clu 0).regions.find? (fun r => BitVec.ofNat 64 r.off == 8192#64) = some r) ∧
      ∀ h ∈ (sMem.ctx 0).h, h.2.st = .free) ∧
    (Goes sMem plain none [.x 1] (0, 0) sMem [4096#64] ∧ ∀ r ∈ (sMem.clu 0).regions, BitVec.ofNat 64 r.off ≠ 4096#64) := by
  refine ⟨⟨⟨rfl, rfl⟩, 0, bootLaunch, rfl, by decide, ?_⟩, ⟨⟨rfl, rfl, rfl⟩, ⟨_, rfl⟩, by decide⟩, ⟨rfl, rfl, rfl⟩, by decide⟩
  rintro o ⟨-, h, hr⟩
  have h0 : o = 0 := by simp [bootLaunch] at h; omega
  subst h0
  exact absurd (hr ⟨8192, 12, false⟩ (by decide)) (by decide)

/-- A region with a handle in use. -/
def sInUse : State := sMem.modMe (fun c => { c with h := [(63, ⟨0, false, 12, 8192, .full, 0⟩)] })

theorem wit_regionInUse : Goes sInUse plain none [.x 2] (0, 0) sInUse [8192#64] ∧
    ∃ g, g / 32 = 0 ∧ ∃ h ∈ (sInUse.ctx g).h, (h.2.lsize ≠ 0 ∧ 8192 ≤ h.2.offset ∧ h.2.offset + 2 ^ h.2.lsize ≤ 8192 + 2 ^ 12) ∧ h.2.st ≠ .free :=
  ⟨⟨rfl, rfl, rfl⟩, 0, by decide, (63, ⟨0, false, 12, 8192, .full, 0⟩), by decide, by decide, by decide⟩

/-- A Chimney with room and a full one; counters 0 and 255. -/
def sChim : State := sMem.modDie 0 (fun d => { d with chim := List.replicate 1024 ⟨0, 0, 0, 0, 0, 0⟩ })

theorem wit_chimneyAndCounters :
    (Goes sMem plain none [.x 1, .x 2] (0, 0) sMem [4096#64, 8192#64] ∧ sMem.chimFull = false ∧ sMem.launchOn (coreOf sMem.cur) = some (0, bootLaunch)) ∧
    (Goes sChim plain none [.x 1, .x 2] (0, 0) sChim [4096#64, 8192#64] ∧ sChim.chimFull = true) ∧
    (Ready sMem plain (0, 0) ∧ sMem.checkV ⟨.main, 1535⟩ 1 = none ∧ ∃ v, sMem.readV ⟨.main, 1535⟩ = ⟨v, false, false⟩) ∧
    (Ready sMem plain (vcnt ⟨.main, 1534⟩ 2) ∧ 2 = (4 * ((255 : Fin 256).val + 1) + 511) / 512 ∧ sMem.checkV ⟨.main, 1534⟩ 2 = none) := by
  refine ⟨⟨⟨rfl, rfl, rfl⟩, by decide +kernel, rfl⟩, ⟨⟨rfl, rfl, rfl⟩, by decide +kernel⟩, ⟨⟨rfl, rfl⟩, by decide, ⟨_, rfl⟩⟩, ⟨rfl, rfl⟩, by decide, by decide⟩

/-- Queues with an entry, empty, reserved and full. -/
def sFull : State := s0.modCore 0 (fun q => { q with mq := [(0, List.replicate 16 ⟨1#64, none⟩), (1, [⟨7#64, some 1⟩, ⟨5#64, none⟩]), (3, [⟨9#64, some 0⟩])] })

theorem wit_queues :
    (Tab.get [] (1 : Fin 4).val sFull.myCore.mq = [⟨7#64, some 1⟩] ++ ⟨5#64, none⟩ :: [] ∧
      (∀ x ∈ [(⟨7#64, some 1⟩ : MqEntry), ⟨5#64, none⟩], x.taken ≠ some (sFull.cur % 4)) ∧ ∀ x ∈ [(⟨7#64, some 1⟩ : MqEntry)], x.taken ≠ none) ∧
    (Tab.get [] (3 : Fin 4).val sFull.myCore.mq = [] ++ ⟨9#64, some 0⟩ :: [] ∧ (⟨9#64, some 0⟩ : MqEntry).taken = some (sFull.cur % 4)) ∧
    Tab.get [] (2 : Fin 4).val sFull.myCore.mq = [] ∧
    (0 = sFull.cur / 32 * 8 + sFull.me.view.mqdst.toNat / 2 ^ (3 * (1 : Fin 4).val) % 8 ∧ reservedPush sFull 0 1 = 0 ∧
      (Tab.get [] 1 (sFull.core 0).mq).length < 16 ∧ 16 ≤ (Tab.get [] 0 (sFull.core 0).mq).length) := by
  decide

/-- A slot that is guarded off. -/
theorem wit_guardedOff : ∃ f vs, facts (.cmp ⟨⟨false, 0, true⟩, none, 1, .x 1, .x 2, .eq⟩) = some f ∧ s0.srcs none f.srcs = some (s0, vs) ∧
    s0.me.guardOn f.c = false ∧ f.dst ≠ some .q := ⟨_, _, rfl, rfl, rfl, by decide⟩

/-- The same with a result for the result queue, for which there is room. -/
theorem wit_guardedOffPush : ∃ f vs, facts (.add ⟨⟨false, 0, true⟩, none, .q, .x 1, .x 2⟩) = some f ∧ s0.srcs none f.srcs = some (s0, vs) ∧
    s0.me.guardOn f.c = false ∧ f.dst = some .q ∧ s0.me.load.1 < 64 := ⟨_, _, rfl, rfl, rfl, rfl, by decide⟩

/-! ## Hypotheses that are met: copies and handles -/

/-- Generators of memory: 4 elements (g0, g1), 512 page entries (g2, g4), one (g3), an index list of 4 (g5); HD is handle 5, HS handle 6. -/
def gN (n : BitVec 32) (stp : BitVec 48) (base : Word) : Gen := { Gen.zero with base := base, d0 := ⟨n, stp, 0, 0⟩, attr := 0x2000#32 }
def cCopy : Ctx :=
  { c0 with
    g := [(0, gN 4 4 4096), (1, gN 4 4 0x9000), (2, gN 512 8 0x10000), (3, gN 1 8 0x20000), (4, gN 512 8 0x30000), (5, gN 4 32 0x40000), (6, gN 16 4 0x9000), (7, gN 1 4 4096)],
    h := [(5, ⟨0, false, 12, 8192, .free, 0⟩), (6, ⟨0, false, 0, 0, .full, 0⟩), (7, ⟨9, false, 0, 0, .full, 0⟩), (8, ⟨0, true, 31, 0xFFFFFF, .draining, 0⟩)], x := [(1, 8192#64), (2, 0#64)] }
def sCp : State :=
  let s := (sMem.setCtx 0 cCopy).modPart 0 (fun p => { p with grpbase := BitVec.ofNat 64 (dramBase + 0x20000) })
  s.setBytes .dram (dramBase + 0x20000) (natLe 32 (1 + 2 ^ 16 + 2 ^ 48 + (dramBase + 0x21000) * 2 ^ 64))

/-- Every condition that a copy start has beside its generators' relation, for the generators named. -/
theorem startable_of (gs gd gx : Option (Fin 16)) (hd hs : Option (Fin 64))
    (h : sCp.startSide gs hs false = .ok .mem ∧ sCp.startSide gd hd false = .ok .mem ∧ sCp.startSide gx none true = .ok .mem ∧
      (∀ g ∈ [gs, gd, gx], (Sys2Proof.Claims.genAt sCp g).attr.toNat / 2 ^ 13 % 8 ≠ 7) ∧ (gd.isSome = true → (Sys2Proof.Claims.genAt sCp gd).attr.toNat % 4 ≠ 3))
    (hh : hd = some 5 ∨ hd = none) (hh' : hs = some 6 ∨ hs = none) : Startable sCp 3 gs gd gx hd hs .mem .mem .mem := by
  refine ⟨by decide, by decide, h.1, h.2.1, h.2.2.1, h.2.2.2.1, by decide +kernel, h.2.2.2.2, by decide +kernel, ?_, ?_⟩
  · intro n hn; rcases hh with rfl | rfl <;> cases hn; decide +kernel
  · intro n hn; rcases hh' with rfl | rfl <;> cases hn; decide +kernel

theorem wit_copyStarts :
    (Goes sCp plain none [] (0, 0) sCp [] ∧ Startable sCp 3 (some 0) (some 1) none (some 5) (some 6) .mem .mem .mem ∧
      elems (sCp.gen 0) = elems (sCp.gen 1)) ∧
    (Startable sCp 3 (some 2) (some 3) none (some 5) none .mem .mem .mem ∧ pages (sCp.gen 2) ∧ elems (sCp.gen 3) = elems (sCp.gen 2) / 512) ∧
    (Goes sCp plain none [.x 1] (0, 0) sCp [8192#64] ∧ Startable sCp 3 (some 0) (some 6) (some 1) none none .mem .mem .mem ∧
      (sCp.gen 0).attr.toNat / 2 ^ 13 % 8 ≤ 5 ∧ elems (sCp.gen 6) = elems (sCp.gen 1) * elems (sCp.gen 0)) ∧
    (elems (sCp.gen 6) % elems (sCp.gen 0) = 0 ∧ elems (sCp.gen 6) / elems (sCp.gen 0) ≤ elems (sCp.gen 1) * 2 ^ (15 : Fin 16).val) ∧
    (Startable sCp 3 (some 6) (some 0) (some 1) none none .mem .mem .mem ∧ (sCp.gen 0).attr.toNat / 2 ^ 13 % 8 ≤ 5 ∧
      elems (sCp.gen 6) = elems (sCp.gen 1) * elems (sCp.gen 0)) ∧
    (Startable sCp 3 (some 2) (some 4) (some 5) (some 5) none .mem .mem .mem ∧ pages (sCp.gen 2) ∧ pages (sCp.gen 4) ∧ elems (sCp.gen 2) = elems (sCp.gen 4) ∧
      (sCp.gen 4).attr.toNat % 4 = 0 ∧ (sCp.gen 5).attr.toNat % 4 ≤ 1 ∧ max 1 ((sCp.gen 5).attr.toNat / 2 ^ 13 % 8) = 1 ∧ (sCp.gen 5).d0.stp = 32#48 ∧
      4 ≤ elems (sCp.gen 5) ∧ (∃ k, elems (sCp.gen 5) = 2 ^ k) ∧ (sCp.me.handle 5).lsize ≠ 0 ∧ 8 * (elems (sCp.gen 2) / 512) ≤ 2 ^ (sCp.me.handle 5).lsize) := by
  refine ⟨⟨⟨rfl, rfl, rfl⟩, startable_of _ _ _ _ _ ⟨rfl, rfl, rfl, by decide +kernel, by decide +kernel⟩ (.inl rfl) (.inl rfl), by decide +kernel⟩,
    ⟨startable_of _ _ _ _ _ ⟨rfl, rfl, rfl, by decide +kernel, by decide +kernel⟩ (.inl rfl) (.inr rfl), by unfold pages; decide +kernel, by decide +kernel⟩,
    ⟨⟨rfl, rfl, rfl⟩, startable_of _ _ _ _ _ ⟨rfl, rfl, rfl, by decide +kernel, by decide +kernel⟩ (.inr rfl) (.inr rfl), by decide +kernel, by decide +kernel⟩,
    by decide +kernel,
    ⟨startable_of _ _ _ _ _ ⟨rfl, rfl, rfl, by decide +kernel, by decide +kernel⟩ (.inr rfl) (.inr rfl), by decide +kernel, by decide +kernel⟩,
    ⟨startable_of _ _ _ _ _ ⟨rfl, rfl, rfl, by decide +kernel, by decide +kernel⟩ (.inl rfl) (.inr rfl), by unfold pages; decide +kernel, by unfold pages; decide +kernel,
      by decide +kernel, by decide +kernel, by decide +kernel, by decide +kernel, by decide +kernel, by decide +kernel, ⟨2, by decide +kernel⟩, by decide +kernel, by decide +kernel⟩⟩

theorem wit_collAndFill :
    (Goes sCp plain none [.x 2] (0, 0) sCp [0#64] ∧ Startable sCp 3 (some 0) (some 1) none none none .mem .mem .mem ∧
      ∃ l, sCp.group (sCp.partOf sCp.cur) ((0#64).toNat % 256) (sCp.lcid sCp.cur) = some l) ∧
    Startable sCp 3 none (some 1) none (some 5) none .mem .mem .mem ∧ Startable sCp 3 none none none (some 5) none .mem .mem .mem := by
  refine ⟨⟨⟨rfl, rfl, rfl⟩, startable_of _ _ _ _ _ ⟨rfl, rfl, rfl, by decide +kernel, by decide +kernel⟩ (.inr rfl) (.inr rfl), _, get_eq [] _ (by decide +kernel)⟩,
    startable_of _ _ _ _ _ ⟨rfl, rfl, rfl, by decide +kernel, by decide +kernel⟩ (.inl rfl) (.inr rfl),
    startable_of _ _ _ _ _ ⟨rfl, rfl, rfl, by decide +kernel, by decide +kernel⟩ (.inl rfl) (.inr rfl)⟩

/-- Handles that are FREE, FULL, with an error code and DRAINING; the region at 8192 and its last byte. -/
theorem wit_handles :
    (Goes sCp plain none [.x 1] (0, 0) sCp [8192#64] ∧ (8192#64).toNat % 2 ^ 24 % 2 ^ (12 : Fin 32).val = 0 ∧
      (∃ r, sCp.regionAt (clusterOf sCp.cur) ((8192#64).toNat % 2 ^ 24) = some r ∧ (8192#64).toNat % 2 ^ 24 + 2 ^ (12 : Fin 32).val ≤ r.off + 2 ^ r.lsize) ∧
      (sCp.me.handle 5).err = 0#8 ∧ sCp.me.st ≠ .trapped ∧ (sCp.me.handle 5).st = .free ∧ (sCp.me.handle 6).st ≠ .free) ∧
    (Ready sCp plain (0, 0) ∧ (sCp.me.handle 6).err = 0#8 ∧ (sCp.me.handle 6).st = .full ∧ (sCp.me.handle 5).st ≠ .full) ∧
    ((sCp.me.handle 7).err ≠ 0#8 ∧ sCp.me.todo ≠ [] ∧ ∀ p ∈ sCp.me.todo, p.1 < 8) ∧
    ((8192#64).toNat % 2 ^ 24 % 2 ^ (14 : Fin 32).val ≠ 0 ∧ Goes sCp plain none [.x 2] (0, 0) sCp [0#64] ∧
      sCp.regionAt (clusterOf sCp.cur) ((0#64).toNat % 2 ^ 24) = none ∧ sCp.me.st ≠ .trapped) ∧
    (Ready sCp plain (dcnt (.x 5)) ∧ (sCp.me.handle 8).lsize < 32 ∧ (sCp.me.handle 8).offset < 2 ^ 24) := by
  exact ⟨⟨⟨rfl, rfl, rfl⟩, by decide, ⟨_, rfl, by decide +kernel⟩, by decide +kernel, by decide +kernel, by decide +kernel, by decide +kernel⟩,
    ⟨⟨rfl, rfl⟩, by decide +kernel, by decide +kernel, by decide +kernel⟩, by decide +kernel, ⟨by decide, ⟨rfl, rfl, rfl⟩, by decide +kernel, by decide +kernel⟩,
    ⟨rfl, rfl⟩, by decide +kernel, by decide +kernel⟩

/-- A CPY of four elements in channel 3: at its first byte, at its last one, and with a source outside the pages that are mapped. -/
def fcpy : FCpy := ⟨plain, 3, 0, 1, some 5, some 6, 2⟩
def cpyAt (pos : Nat) (src : Word) : Copy :=
  { copy0 with op := .cpy fcpy, gs := gN 4 4 src, gd := gN 4 4 0x9000, pos := pos, snap := [sCp.dram] }
def sRun (c : Copy) : State := sCp.modCore 0 (fun q => { q with ch := [(3, ⟨[c], 0⟩)] })

theorem heads_of (c : Copy) (h : c.gcid = 0) : Heads (sRun c) 0 3 c [] := by
  refine ⟨rfl, (by rw [h]; rfl), (by intro d hd; cases hd), ?_⟩
  intro k hk hne d hd
  rcases (show k = 0 ∨ k = 1 ∨ k = 2 by omega) with rfl | rfl | rfl <;> cases hd

/-- The address of the source byte of a copy's next destination byte, and where both lie. -/
def hit (x : Except Stop Hit) : Hit := got ⟨.host, 0, false, none⟩ x

theorem wit_copiesMove :
    (∃ d b n more q h, Heads (sRun (cpyAt 0 4096)) 0 3 (cpyAt 0 4096) [] ∧ (sRun (cpyAt 0 4096)).copyWaits (cpyAt 0 4096) = false ∧
      (∀ m, (cpyAt 0 4096).sside ≠ .mantel m) ∧ (cpyAt 0 4096).plan[(cpyAt 0 4096).pos]? = some (d, (n, .at b) :: more) ∧
      sRun (cpyAt 0 4096) = (sRun (cpyAt 0 4096)).perform (fun w => w.gcid == (cpyAt 0 4096).gcid && w.strm == (cpyAt 0 4096).gd.strm) ∧
      (sRun (cpyAt 0 4096)).copyCheck (cpyAt 0 4096) .load .read (cpyAt 0 4096).sside b = .ok q ∧ dataPlace q.sp q.addr ∧
      ((sRun (cpyAt 0 4096)).copyTouch (cpyAt 0 4096) .read q).copyCheck (cpyAt 0 4096) .store .write (cpyAt 0 4096).dside d = .ok h ∧
      dataPlace h.sp h.addr ∧ (cpyAt 0 4096).pos + 1 < (cpyAt 0 4096).plan.length) ∧
    ((cpyAt 15 4096).pos + 1 = (cpyAt 15 4096).plan.length ∧ ∃ d b n more, (cpyAt 15 4096).plan[(cpyAt 15 4096).pos]? = some (d, (n, .at b) :: more)) := by
  refine ⟨⟨0x9000, 4096, 0, [], hit ((sRun (cpyAt 0 4096)).copyCheck (cpyAt 0 4096) .load .read .mem 4096),
    hit (((sRun (cpyAt 0 4096)).copyTouch (cpyAt 0 4096) .read (hit ((sRun (cpyAt 0 4096)).copyCheck (cpyAt 0 4096) .load .read .mem 4096))).copyCheck (cpyAt 0 4096) .store .write .mem 0x9000),
    heads_of _ rfl, by decide +kernel, (by intro m h; cases h), ?_, (perform_idle _ _ rfl).symm, got_eq _ _ (by decide +kernel), dataPlace_of _ _ (by decide +kernel),
    got_eq _ _ (by decide +kernel), dataPlace_of _ _ (by decide +kernel), by decide +kernel⟩, by decide +kernel, 0x900F, 4111, 3, [], ?_⟩
  all_goals rfl

/-- The same copy from an address that the page table does not map. -/
theorem wit_copiesStop :
    ∃ d b n more st, Heads (sRun (cpyAt 0 0x4000000000)) 0 3 (cpyAt 0 0x4000000000) [] ∧
      (cpyAt 0 0x4000000000).plan[(cpyAt 0 0x4000000000).pos]? = some (d, (n, .at b) :: more) ∧ (sRun (cpyAt 0 0x4000000000)).copyWaits (cpyAt 0 0x4000000000) = false ∧
      (sRun (cpyAt 0 0x4000000000)).copyCheck (cpyAt 0 0x4000000000) .load .read (cpyAt 0 0x4000000000).sside b = .error st :=
  ⟨0x9000, 0x4000000000, 0, [], ⟨cPage, 0x4000000000⟩, heads_of _ rfl, rfl, by decide +kernel, rfl⟩

/-- A copy that is stopped and one that is not; a draining handle whose region is read, and one that is not read. -/
def stopped0 : Copy := { cpyAt 3 4096 with stop := some ⟨cPage, 4096⟩ }

theorem wit_copiesResume :
    (Heads (sRun stopped0) 0 3 stopped0 [] ∧ stopped0.stop.isSome = true) ∧ (Heads (sRun (cpyAt 0 4096)) 0 3 (cpyAt 0 4096) [] ∧ (cpyAt 0 4096).stop = none) ∧
    (((sRun (cpyAt 0 4096)).ctx 0).handle 8).st = .draining ∧ (sRun (cpyAt 0 4096)).handleRead 0 8 = false ∧
    (((sRun (cpyAt 0 4096)).ctx 0).handle 6).st ≠ .draining ∧ (sRun (cpyAt 0 4096)).handleRead 0 6 = true := by
  refine ⟨⟨heads_of _ rfl, rfl⟩, ⟨heads_of _ rfl, rfl⟩, by decide +kernel⟩

/-! ## Hypotheses that are met: matrix instructions, tiles and marks -/

/-- The Mantel bytes that may be read. -/
def goodB (s : State) (l : List Nat) : Bool := l.all (fun o => s.bankOk (s.partOf s.cur) (dieOf s.cur) o && !s.mantelBad (dieOf s.cur) o)

theorem mantelGood_of (s : State) (l : List Nat) (h : goodB s l = true) : ∀ o ∈ l, mantelGood s o := by
  intro o ho
  have := List.all_eq_true.mp h o ho
  simp only [Bool.and_eq_true, Bool.not_eq_true'] at this
  exact this

/-- The conditions of a matrix instruction, each of which can be computed. -/
theorem matrixReady_of (s : State) (acc : Fin 64) (a b : Opnd) (ac : Access)
    (h : s.me.guardOn plain = true ∧ s.me.over (0, 1) = false ∧ acc.val < s.me.accs.count ∧
      (∀ o ∈ [a, b], o.range = true ∧ o.legal = true ∧ o.pois = false ∧ ∀ r ∈ o.regs, r.dead = false ∧ r.pois = false) ∧
      (∀ g ∈ bankGroups a.sp, g ∉ bankGroups b.sp) ∧ goodB s (a.ws ++ b.ws) = true ∧
      s.rangeWait s.cur false (.sp (clusterOf s.cur)) (a.sp ++ b.sp) = false)
    (hc : s.check s.cur .load .read (.sp (clusterOf s.cur)) (a.sp ++ b.sp) = .ok ac) : MatrixReady s plain acc a b ac :=
  ⟨⟨h.1, h.2.1⟩, h.2.2.1, h.2.2.2.1, h.2.2.2.2.1, mantelGood_of _ _ h.2.2.2.2.2.1, h.2.2.2.2.2.2, hc⟩

/-- A of BF16 in a vector group, B of BF16 in a latch; and both of INT8 in vector groups. -/
def opA (k : MKind) (i : Fin 2048) (f : Fmt) (n : Nat) : Opnd := sMem.opnd ⟨k, i⟩ false f n false
def opB (k : MKind) (i : Fin 2048) (f : Fmt) (n : Nat) : Opnd := sMem.opnd ⟨k, i⟩ true f n false

theorem wit_matrixProducts :
    (∃ ac, MatrixReady sMem plain 63 (opA .group 0 .bf16 (min (depth .bf16) (depth .bf16))) (opB .store 3 .bf16 (min (depth .bf16) (depth .bf16))) ac ∧
      setsOk sMem (setNames 0 0 ++ setNames 0 0) ∧ setRegs .bf16 (depth .bf16) = 0 ∧ MKind.group ≠ .pat ∧ MKind.store ≠ .pat ∧ sMem.tileNowBad 63 = false) ∧
    (∃ ac, MatrixReady sMem plain 0 (opA .group 12 .int8 (min (depth .int8) (depth .int8))) (opB .group 1524 .int8 (min (depth .int8) (depth .int8))) ac) ∧
    transFmt .bf16 = true := by
  refine ⟨⟨_, matrixReady_of _ _ _ _ _ (by decide +kernel) (got_eq [] _ (by decide +kernel)), ⟨by decide, by decide⟩, by decide, by decide, by decide, by decide +kernel⟩,
    ⟨_, matrixReady_of _ _ _ _ _ (by decide +kernel) (got_eq [] _ (by decide +kernel))⟩, rfl⟩

/-- Patterns for A and for B, a diagonal vector, a selection and an outer product. -/
theorem wit_patternProducts :
    (∃ ac, MatrixReady sMem plain 63 (opB .store 3 .bf16 (depth .bf16)) Opnd.none ac ∧ setsOk sMem (setNames 0 (setRegs .bf16 (depth .bf16))) ∧
      sMem.patOk 15 = true ∧ patAnyVoid ((sMem.pattern 15).limit (depth .bf16)) (depth .bf16) = false ∧ sMem.tileNowBad 63 = false) ∧
    (∃ ac, MatrixReady sMem plain 63 (opA .group 0 .bf16 (depth .bf16)) Opnd.none ac ∧ sMem.checkV ⟨.main, 1535⟩ 1 = none ∧
      ∃ v, sMem.readV ⟨.main, 1535⟩ = ⟨v, false, false⟩) ∧
    (∃ ac, MatrixReady sMem plain 63 (opA .group 0 .bf16 32) Opnd.none ac ∧ patKind (sMem.pattern 15).desc ≠ 7 ∧ patKind (sMem.pattern 15).desc ≠ 8 ∧
      (sMem.me.view.strict = true → patAnyVoid (sMem.pattern 15) 32 = false)) ∧
    (∃ ac, MatrixReady sMem plain 63 Opnd.none Opnd.none ac ∧ sMem.checkV ⟨.opf, 31⟩ 1 = none ∧ ∃ v, sMem.readV ⟨.opf, 31⟩ = ⟨v, false, false⟩) := by
  refine ⟨⟨_, matrixReady_of _ _ _ _ _ (by decide +kernel) (got_eq [] _ (by decide +kernel)), ⟨by decide, by decide⟩, by decide, by decide +kernel, by decide +kernel⟩,
    ⟨_, matrixReady_of _ _ _ _ _ (by decide +kernel) (got_eq [] _ (by decide +kernel)), by decide, _, rfl⟩,
    ⟨_, matrixReady_of _ _ _ _ _ (by decide +kernel) (got_eq [] _ (by decide +kernel)), by decide, by decide, by decide +kernel⟩,
    ⟨_, matrixReady_of _ _ _ _ _ (by decide +kernel) (got_eq [] _ (by decide +kernel)), by decide, _, rfl⟩⟩

theorem wit_latchesAndTiles :
    (Ready sMem plain (0, 2) ∧ (3 : Fin 4).val < sMem.me.lats.count ∧ sMem.checkV (groupOp 1524) 12 = none ∧
      sMem.readRun (groupOp 1524) 12 = (List.replicate 12 0#4096).map (fun v => ⟨v, false, false⟩)) ∧
    (Ready sMem plain (1, 1) ∧ (63 : Fin 64).val < sMem.me.accs.count) ∧
    (Ready sMem plain (0, 1) ∧ (63 : Fin 64) ≠ 0 ∧ sMem.tileSeenBad 0 = false) ∧
    (Goes sMem plain none [.x 1] (0, 1) sMem [4096#64] ∧ sMem.tileNowBad 63 = false) := by
  exact ⟨⟨⟨rfl, rfl⟩, by decide, by decide, by decide +kernel⟩, ⟨⟨rfl, rfl⟩, by decide⟩, ⟨⟨rfl, rfl⟩, by decide, by decide +kernel⟩, ⟨rfl, rfl, rfl⟩, by decide +kernel⟩

/-- A group of all 64 tiles, a group of one; a mark that is valid and one that is not. -/
def sMark : State := sMem.modCore 0 (fun q => { q with marks := [(8, 1#128), (0, 1#128 ||| (6#128 <<< 16)), (16, 1#128 ||| (8#128 <<< 16))] })

theorem wit_normsAndMarks :
    (Ready sMem plain (dcnt (.x 31)) ∧ (0 : Fin 64).val + (63 : Fin 64).val + 1 ≤ 64 ∧ (0 : Fin 64).val + (63 : Fin 64).val + 1 ≤ sMem.me.accs.count ∧
      ∀ t, t ≤ 63 → sMem.tileSeenBad (0 + t) = false) ∧
    (Ready sMem plain (1, 0) ∧ sMem.lcid sMem.cur < 1024 ∧ (sMem.markSeen 63).getLsbD 0 = false ∧ (63 : Fin 64).val + (0 : Fin 64).val + 1 ≤ 64 ∧
      ∀ t, t ≤ (0 : Fin 64).val → sMem.tileNowBad (63 + t) = false) ∧
    (Ready sMark plain (1, 0) ∧ (sMark.markSeen 8).getLsbD 0 = true) := by
  refine ⟨⟨⟨rfl, rfl⟩, by decide, by decide, ?_⟩, ⟨⟨rfl, rfl⟩, by decide, by decide, by decide, ?_⟩, ⟨rfl, rfl⟩, by decide⟩
  · intro t ht
    have h : ∀ t : Fin 64, sMem.tileSeenBad (0 + t.val) = false := by decide +kernel
    exact h ⟨t, by omega⟩
  · intro t ht
    have h0 : t = 0 := by simpa using ht
    subst h0; decide +kernel

/-- Groups side by side, overlapping, and a mark of seven tiles whose turn it is, and one whose turn it is not; a staging group that is marked,
a tile without a mark and a mark of nine tiles. -/
theorem wit_boundedInfluence :
    (Ready sMem plain (0, 8) ∧ 56 + 8 ≤ 64 ∧ 48 + 8 ≤ sMem.me.accs.count ∧ (sMem.markSeen 56).getLsbD 0 = false ∧
      (∀ t, t < 8 → sMem.tileSeenBad (48 + t) = false ∧ sMem.tileNowBad (56 + t) = false)) ∧
    ¬ (56 + 8 ≤ 57 ∨ 57 + 8 ≤ 56) ∧
    ((sMark.markSeen 0).getLsbD 0 = true ∧ 7 = (sMark.markSeen 0).toNat / 2 ^ 16 % 2 ^ 6 + 1 ∧ Ready sMark plain ((vcnt ⟨.main, 1472⟩ (8 * 7)).1 + 1, 0) ∧
      0 + 7 ≤ sMark.me.accs.count ∧ sMark.checkV ⟨.main, 1472⟩ (8 * 7) = none ∧ (∀ t, t < 7 → sMark.tileSeenBad (0 + t) = false) ∧
      (∀ t, t < 8 * 7 → (sMark.readChained 2 (vplus ⟨.main, 1472⟩ t)).dead = false ∧ (sMark.readChained 2 (vplus ⟨.main, 1472⟩ t)).pois = false) ∧
      (sMark.markSeen 0).toNat / 2 ^ 22 % 2 ^ 10 = sMark.lcid sMark.cur ∧ (sMark.markSeen 0).toNat / 2 ^ 32 % 2 ^ 32 = sMark.me.commitn.toNat) ∧
    (∃ s : State, (s.markSeen 0).getLsbD 0 = true ∧ ¬ (s.markSeen 0).toNat / 2 ^ 32 % 2 ^ 32 = s.me.commitn.toNat ∧ Ready s plain ((vcnt ⟨.main, 0⟩ (8 * 1)).1 + 1, 0) ∧
      s.checkV ⟨.main, 0⟩ (8 * 1) = none) ∧
    ((sMark.markSeen 8).getLsbD 0 = true ∧ Ready sMark plain (0, 1) ∧ sMark.tileSeenBad 9 = false ∧ sMark.tileNowBad 8 = false) ∧
    ((sMark.markSeen 63).getLsbD 0 = false ∧ 8 < (sMark.markSeen 16).toNat / 2 ^ 16 % 2 ^ 6 + 1 ∧ Ready sMark plain (0, 0) ∧
      sMark.checkV ⟨.main, 0⟩ 8 = none) := by
  have h1 : ∀ t : Fin 8, sMem.tileSeenBad (48 + t.val) = false ∧ sMem.tileNowBad (56 + t.val) = false := by decide +kernel
  have h2 : ∀ t : Fin 7, sMark.tileSeenBad (0 + t.val) = false := by decide +kernel
  have h3 : ∀ t : Fin 56, (sMark.readChained 2 (vplus ⟨.main, 1472⟩ t.val)).dead = false ∧ (sMark.readChained 2 (vplus ⟨.main, 1472⟩ t.val)).pois = false := by
    decide +kernel
  refine ⟨⟨⟨rfl, rfl⟩, by decide, by decide, by decide, fun t ht => h1 ⟨t, ht⟩⟩, by decide,
    ⟨by decide, by decide, ⟨rfl, rfl⟩, by decide, by decide, fun t ht => h2 ⟨t, ht⟩, fun t ht => h3 ⟨t, ht⟩, by decide, by decide⟩,
    ⟨sMem.modCore 0 (fun q => { q with marks := [(0, 1#128 ||| (1#128 <<< 32))] }), by decide, by decide, ⟨rfl, rfl⟩, by decide⟩, ⟨by decide, ⟨rfl, rfl⟩, by decide +kernel, by decide +kernel⟩,
    by decide, by decide, ⟨rfl, rfl⟩, by decide⟩

/-! ## Hypotheses that are met: the Flue -/

theorem flueReady_of (s : State) (cnt : Nat × Nat) (srcs : List (VOp × List VReg)) (vd : VOp) (k : Nat) (tiles : List Nat)
    (h : s.me.guardOn plain = true ∧ s.me.over cnt = false ∧
      (∀ p ∈ srcs, s.checkV p.1 p.2.length = none ∧ s.readRun p.1 p.2.length = p.2.map (fun v => ⟨v, false, false⟩)) ∧
      s.checkV vd k = none ∧ ∀ t ∈ tiles, t < 64 ∧ t < s.me.accs.count ∧ s.tileSeenBad t = false) :
    FlueReady s plain cnt srcs vd k tiles := ⟨⟨h.1, h.2.1⟩, h.2.2.1, h.2.2.2.1, h.2.2.2.2⟩

def vz (k : Nat) : List VReg := List.replicate k 0#4096
def epi (df : Fmt) (rm : RMode) : Epi := ⟨df, rm, false, true, true, true, some .rcp⟩

/-- Drains of a whole tile with and without a bias vector, to the last registers and to the latch; of a row; of scale codes; of
selections. -/
theorem wit_drains :
    FlueReady sMem plain (vcnt ⟨.main, 1520⟩ (regsFor (fmtWidth .fp16) 1024)) [(⟨.opf, 31⟩, [0#4096])] ⟨.main, 1520⟩ (regsFor (fmtWidth .fp16) 1024) [63] ∧
    FlueReady sMem plain (vcnt ⟨.main, 1504⟩ (regsFor (fmtWidth .fp32) 1024)) [] ⟨.main, 1504⟩ (regsFor (fmtWidth .fp32) 1024) [0] ∧
    FlueReady sMem plain (vcnt ⟨.latch, 0⟩ (regsFor (fmtWidth .int8) 32)) [] ⟨.latch, 0⟩ (regsFor (fmtWidth .int8) 32) [63] ∧
    ((15 : Nat) < sMem.me.scs.count ∧ FlueReady sMem plain ((vcnt ⟨.main, 1528⟩ (regsFor (fmtWidth .mxe4m3) 1024)).1 + 1, 0) [] ⟨.main, 1528⟩
      (regsFor (fmtWidth .mxe4m3) 1024) [63]) ∧
    FlueReady sMem plain (vcnt ⟨.main, 1535⟩ 1) [] ⟨.main, 1535⟩ 1 [63] ∧
    (∀ j, j < 32 → (f32Val (tileWord (sMem.tileSeen 63) 0 j)).isNan = false) ∧
    (∀ l, l < 32 → (f32Val (tileWord (sMem.tileSeen 63) 0 0)).lt (f32Val (tileWord (sMem.tileSeen 63) 0 l)) = false) := by
  refine ⟨flueReady_of _ _ _ _ _ _ (by decide +kernel), flueReady_of _ _ _ _ _ _ (by decide +kernel), flueReady_of _ _ _ _ _ _ (by decide +kernel),
    ⟨by decide, flueReady_of _ _ _ _ _ _ (by decide +kernel)⟩, flueReady_of _ _ _ _ _ _ (by decide +kernel), by decide +kernel, by decide +kernel⟩

theorem wit_elementwise :
    ((vz 1).length = regsFor (fmtWidth .int8) (128 * (1 + 1)) ∧
      FlueReady sMem plain (vcnt ⟨.main, 1534⟩ (regsFor (fmtWidth .fp32) (128 * (1 + 1)))) [(⟨.main, 0⟩, vz 1)] ⟨.main, 1534⟩ (regsFor (fmtWidth .fp32) (128 * (1 + 1))) []) ∧
    FlueReady sMem plain (vcnt ⟨.main, 1472⟩ (63 + 1)) [] ⟨.main, 1472⟩ (63 + 1) [] ∧
    ((vz 32).length = regsFor (fmtWidth .bf16) (128 * (63 + 1)) ∧ FlueReady sMem plain (vcnt ⟨.opf, 31⟩ 1) [(⟨.main, 1504⟩, vz 32)] ⟨.opf, 31⟩ 1 []) ∧
    (FlueReady sMem plain (vcnt ⟨.main, 1472⟩ (63 + 1)) [(⟨.main, 1472⟩, vz (63 + 1))] ⟨.main, 1472⟩ (63 + 1) [] ∧
      ∃ carry : Nat → Option Val, carry 0 = none ∧ ∀ b, carry (b + 1) = some (match carry b with
        | none => f32At (vz 64) (32 * b + 31)
        | some c => rne32 ((f32At (vz 64) (32 * b + 31)).add c))) := by
  refine ⟨⟨by decide, flueReady_of _ _ _ _ _ _ (by decide +kernel)⟩, flueReady_of _ _ _ _ _ _ (by decide +kernel),
    ⟨by decide, flueReady_of _ _ _ _ _ _ (by decide +kernel)⟩, flueReady_of _ _ _ _ _ _ (by decide +kernel),
    fun n => n.rec none (fun b c => some (match c with
      | none => f32At (vz 64) (32 * b + 31)
      | some c => rne32 ((f32At (vz 64) (32 * b + 31)).add c))), rfl, fun _ => rfl⟩

/-- Two registers of FP32 into 8-bit codes of one block of 256; the largest source of INT4 groups; and their decoding. -/
theorem wit_blockCodecs :
    (128 * (1 + 1) % 256 = 0 ∧ fmtWidth .b8qs = 8 ∧ (vz 2).length = regsFor (fmtWidth .fp32) (128 * (1 + 1)) ∧
      FlueReady sMem plain (vcnt ⟨.main, 0⟩ (regsFor (fmtWidth .b8qs) (128 * (1 + 1)) + 1)) [(⟨.main, 1534⟩, vz 2)] ⟨.main, 0⟩
        (regsFor (fmtWidth .b8qs) (128 * (1 + 1)) + 1) []) ∧
    (Fmt.mxe2m1 ≠ Fmt.int4g ∧ (vz 1).length = regsFor (fmtWidth .fp32) (128 * (0 + 1)) ∧
      FlueReady sMem plain (vcnt ⟨.main, 0⟩ (regsFor (fmtWidth .mxe2m1) (128 * (0 + 1)) + 1)) [(⟨.opf, 0⟩, vz 1)] ⟨.main, 0⟩
        (regsFor (fmtWidth .mxe2m1) (128 * (0 + 1)) + 1) []) ∧
    (128 * (23 + 1) ≤ 3072 ∧ (vz 24).length = regsFor (fmtWidth .fp32) (128 * (23 + 1)) ∧
      FlueReady sMem plain (vcnt ⟨.main, 0⟩ (regsFor (fmtWidth .int4g) (128 * (23 + 1)) + 1)) [(⟨.main, 4⟩, vz 24)] ⟨.main, 0⟩
        (regsFor (fmtWidth .int4g) (128 * (23 + 1)) + 1) []) ∧
    ((vz 16).length = regsFor (fmtWidth .b8qn) (128 * (63 + 1)) ∧
      FlueReady sMem plain (vcnt ⟨.main, 1504⟩ (regsFor (fmtWidth .bf16) (128 * (63 + 1)))) [(⟨.main, 0⟩, vz 16 ++ [0#4096])] ⟨.main, 1504⟩
        (regsFor (fmtWidth .bf16) (128 * (63 + 1))) []) := by
  refine ⟨⟨by decide, by decide, by decide, flueReady_of _ _ _ _ _ _ (by decide +kernel)⟩, ⟨by decide, by decide, flueReady_of _ _ _ _ _ _ (by decide +kernel)⟩,
    ⟨by decide, by decide, flueReady_of _ _ _ _ _ _ (by decide +kernel)⟩, by decide, flueReady_of _ _ _ _ _ _ (by decide +kernel)⟩

/-- The least number of elements, and the most. -/
theorem wit_optimisers :
    (2 % 2 = 0 ∧ 2 ≤ 30 ∧ (vz 1).length = regsFor (fmtWidth .bf16) (128 * 2) ∧ (vz 6).length = 2 + 2 / 2 + 2 * ((2 + 3) / 4) + 1 ∧ fmtWidth .fp16 = 16 ∧
      FlueReady sMem plain (vcnt ⟨.main, 0⟩ 6) [(⟨.main, 1000⟩, vz 1 ++ [0#4096]), (⟨.main, 0⟩, vz 6)] ⟨.main, 0⟩ 6 []) ∧
    (30 % 2 = 0 ∧ 30 ≤ 30 ∧ (vz 30).length = regsFor (fmtWidth .fp32) (128 * 30) ∧ (vz 62).length = 30 + 30 / 2 + 2 * ((30 + 3) / 4) + 1 ∧
      FlueReady sMem plain (vcnt ⟨.main, 1474⟩ 62) [(⟨.main, 0⟩, vz 30 ++ [0#4096]), (⟨.main, 1474⟩, vz 62)] ⟨.main, 1474⟩ 62 []) ∧
    (36 % 2 = 0 ∧ 36 ≤ 36 ∧ (vz 36).length = regsFor (fmtWidth .fp32) (128 * 36) ∧ (vz 64).length = 36 + 36 / 2 + (36 + 3) / 4 + 1 ∧
      FlueReady sMem plain (vcnt ⟨.main, 1472⟩ 64) [(⟨.main, 0⟩, vz 36 ++ [0#4096]), (⟨.main, 1472⟩, vz 64)] ⟨.main, 1472⟩ 64 []) := by
  refine ⟨⟨by decide, by decide, by decide, by decide, by decide, flueReady_of _ _ _ _ _ _ (by decide +kernel)⟩,
    ⟨by decide, by decide, by decide, by decide, flueReady_of _ _ _ _ _ _ (by decide +kernel)⟩,
    by decide, by decide, by decide, by decide, flueReady_of _ _ _ _ _ _ (by decide +kernel)⟩

/-- Every word of v5 is 1.0, every word of v6 a NaN; v7 is a descent in its second step. -/
def sDesc : State :=
  withCtx { cMem with v := [(5, BitVec.ofNat 4096 ((2 ^ 4096 - 1) / (2 ^ 32 - 1) * 0x3F800000)), (6, BitVec.allOnes 4096), (7, 0x10000000500000000#4096)] }
def r5 : VReg := BitVec.ofNat 4096 ((2 ^ 4096 - 1) / (2 ^ 32 - 1) * 0x3F800000)

/-- A first step in which every sum is 0, a later step whose t of 0 is below every sum, and a step with a NaN. -/
theorem wit_sampling :
    ((vz 8).length = 8 ∧ FlueReady sMem plain (vcnt ⟨.main, 0⟩ 1) [(⟨.main, 1528⟩, vz 8)] ⟨.main, 0⟩ 1 [63] ∧ sMem.readChained 1 ⟨.main, 0⟩ = ⟨0, false, false⟩) ∧
    FlueReady sMem plain (vcnt ⟨.main, 1472⟩ (63 + 1)) [(⟨.opf, 31⟩, [0#4096]), (⟨.main, 1472⟩, vz (63 + 1))] ⟨.main, 1472⟩ (63 + 1) [] ∧
    (FlueReady sDesc plain (vcnt ⟨.main, 0⟩ 1) [(⟨.main, 1⟩, [0#4096]), (⟨.main, 0⟩, [0#4096])] ⟨.main, 0⟩ 1 [] ∧ elemOf 32 [(0#4096 : VReg)] 2 = 0 ∧
      (∀ k, k < 32 → (f32At [(0#4096 : VReg)] k).isNan = false ∧ (rtz32 ((vRat (srU sDesc.me.csr.srseed (sDesc.lcid sDesc.cur) sDesc.me.csr.srctr) (2 ^ 24)).mul
        (f32At [(0#4096 : VReg)] 31))).1.lt (f32At [(0#4096 : VReg)] k) = false) ∧ (f32At [(0#4096 : VReg)] 0).eqv (f32At [(0#4096 : VReg)] 31) = true) ∧
    (FlueReady sDesc plain (vcnt ⟨.main, 7⟩ 1) [(⟨.main, 5⟩, [r5]), (⟨.main, 7⟩, [0x10000000500000000#4096])] ⟨.main, 7⟩ 1 [] ∧
      elemOf 32 [(0x10000000500000000#4096 : VReg)] 2 ≠ 0 ∧ (f32At [(0x10000000500000000#4096 : VReg)] 0).lt (f32At [r5] 0) = true ∧
      (f32At [(0x10000000500000000#4096 : VReg)] 0).isNan = false ∧ ∀ k, k < 32 → (f32At [r5] k).isNan = false) ∧
    (FlueReady sDesc plain (vcnt ⟨.main, 7⟩ 1) [(⟨.main, 6⟩, [BitVec.allOnes 4096]), (⟨.main, 7⟩, [0x10000000500000000#4096])] ⟨.main, 7⟩ 1 [] ∧
      (f32At [(BitVec.allOnes 4096 : VReg)] 31).isNan = true) := by
  refine ⟨⟨by decide, flueReady_of _ _ _ _ _ _ (by decide +kernel), by decide +kernel⟩, flueReady_of _ _ _ _ _ _ (by decide +kernel),
    ⟨flueReady_of _ _ _ _ _ _ (by decide +kernel), by decide +kernel, by decide +kernel, by decide +kernel⟩,
    ⟨flueReady_of _ _ _ _ _ _ (by decide +kernel), by decide +kernel, by decide +kernel, by decide +kernel, by decide +kernel⟩,
    flueReady_of _ _ _ _ _ _ (by decide +kernel), by decide +kernel⟩

/-- A magnitude inside a binade, one below the smallest normal, one that rounds past the largest value, and zero; a tie to even; the
rounding of each mode; a block whose largest magnitude lies in the binade of 2; a code of each kind. -/
theorem wit_numberFormats :
    (UlpAt 3 (1 - 7) ((1 : Nat) / (3 : Nat) : Rat) (-5) ∧ Rounds .rne (((1 : Nat) : Rat) / ((3 : Nat) : Rat) / (2 : Rat) ^ (-5 : Int)) 11 ∧
      Rounds .rtz (((1 : Nat) : Rat) / ((3 : Nat) : Rat) / (2 : Rat) ^ (-5 : Int)) 10 ∧
      Rounds (.sr (2 ^ 23)) (((1 : Nat) : Rat) / ((3 : Nat) : Rat) / (2 : Rat) ^ (-5 : Int)) 11) ∧
    (UlpAt 3 (1 - 7) ((1 : Nat) / (1024 : Nat) : Rat) (-9) ∧ Rounds .rne (((1 : Nat) : Rat) / ((1024 : Nat) : Rat) / (2 : Rat) ^ (-9 : Int)) 0) ∧
    (UlpAt 3 (1 - 7) ((511 : Nat) / (1 : Nat) : Rat) 5 ∧ Rounds .rne (((511 : Nat) : Rat) / ((1 : Nat) : Rat) / (2 : Rat) ^ (5 : Int)) 16) ∧
    (UlpAt 3 (1 - 7) ((0 : Nat) / (1 : Nat) : Rat) (-9) ∧ Rounds .rne (((5 : Nat) : Rat) / ((2 : Nat) : Rat)) 2) ∧
    (magOf (.fin true 5 2) = 5 / 2 ∧ ((2 : Rat) ^ (1 : Int) ≤ magOf (.fin true 5 2) ∧ magOf (.fin true 5 2) < (2 : Rat) ^ ((1 : Int) + 1))) ∧
    ((0 : Nat) < 2 ^ 4 ∧ (7 : Nat) < 2 ^ 3 ∧ 15 * 2 ^ 3 + 6 ≤ 0x7E ∧ 0x7E < 15 * 2 ^ 3 + 7) := by
  refine ⟨⟨⟨?_, ?_, ?_⟩, ⟨?_, ?_, ?_⟩, ⟨?_, ?_⟩, ?_, ?_⟩, ⟨⟨?_, ?_, ?_⟩, ?_, ?_, ?_⟩, ⟨⟨?_, ?_, ?_⟩, ?_, ?_, ?_⟩, ⟨⟨?_, ?_, ?_⟩, ?_, ?_, ?_⟩, ⟨?_, ?_, ?_⟩, ?_⟩ <;>
    decide +kernel

/-! ## Hypotheses that are met: scale registers, patterns and token trees -/

/-- A context whose x6 is −64, x7 63, x8 −65, x9 64, x10 to x13 the ends of the range of BIMLIM, x14 a descriptor of KIND 5 with KLIM
768, x15 one of KIND 12; node 1 of tree 0 is an accepted root, node 2 one of depth 127; and a context with three trees. -/
def cTree : Ctx := { cMem with
  x := [(1, 4096#64), (2, 8192#64), (6, 0xFFFFFFFFFFFFFFC0#64), (7, 63#64), (8, 0xFFFFFFFFFFFFFFBF#64), (9, 64#64), (10, 1#64), (11, 0x7F800000#64),
    (12, 0#64), (13, 0x7F800001#64), (14, 0x3000005#64), (15, 12#64), (16, 0x7F00#64), (17, 0x17F01#64), (18, 0x0102#64), (19, 0x0203#64),
    (20, 0x10003#64), (21, 0x7F01#64)] }
def sTree : State :=
  (withCtx cTree).modCore 0 (fun q => { q with
    tt := [(0, ⟨255, 9, [(1, 0xC07F#64), (2, 0x7F81#64)]⟩), (7, ⟨0, 0, [(1, 0xC07F#64), (2, 0xC07F#64)]⟩)]
    pat := [(0, ⟨768#128 <<< 16, 0⟩), (1, ⟨769#128 <<< 16, 0⟩)] })
def sThree : State := withCtx { cTree with tts := ⟨0, 3⟩ }

theorem wit_scaleSlot :
    (Ready sMem plain (1, 0) ∧ Ready sMem plain (2, 0) ∧ (15 : Nat) < sMem.me.scs.count ∧ (15 + 1) % 16 < sMem.me.scs.count ∧
      ((sMem.gen 0).attr.toNat / 2 ^ 13 % 8 ≠ 7 ∧ (sMem.gen 0).attr.toNat % 4 = 0) ∧ (sMem.gen 3).attr.toNat % 4 = 3 ∧
      ((sMem.gen 1).attr.toNat % 4 = 1 ∧ ∃ r, sMem.regionAt (clusterOf sMem.cur) (sMem.gen 1).base.toNat = some r ∧ spSide = .sp (clusterOf sMem.cur) r.off (2 ^ r.lsize)) ∧
      (∃ ac, Passes sMem .load .read false .mem ((List.range (512 * 2)).map (fun b => Side.mem.at ((sMem.gen 0).origin + BitVec.ofNat 64 b))) ac) ∧
      (∃ ac, Passes sMem .load .read false (.sp 0) ((List.range (512 * 1)).map (fun b => spSide.at ((sMem.gen 1).origin + BitVec.ofNat 64 b))) ac) ∧
      (∀ a ∈ (List.range (512 * 1)).map (fun b => (Side.mantel 0).at ((sMem.gen 3).origin + BitVec.ofNat 64 b)),
        sMem.bankOk (sMem.partOf sMem.cur) (dieOf sMem.cur) a = true)) ∧
    (Goes sTree plain none [.x 6] (1, 0) sTree [0xFFFFFFFFFFFFFFC0#64] ∧ (-64 : Int) ≤ (0xFFFFFFFFFFFFFFC0#64).toInt ∧ (0xFFFFFFFFFFFFFFC0#64).toInt ≤ 63) ∧
    (Goes sTree plain none [.x 7] (1, 0) sTree [63#64] ∧ (-64 : Int) ≤ (63#64).toInt ∧ (63#64).toInt ≤ 63) ∧
    (Goes sTree plain none [.x 8] (1, 0) sTree [0xFFFFFFFFFFFFFFBF#64] ∧ (0xFFFFFFFFFFFFFFBF#64).toInt < -64) ∧
    (Goes sTree plain none [.x 9] (1, 0) sTree [64#64] ∧ 63 < (64#64).toInt) ∧
    (Goes sTree plain none [.x 10] (0, 0) sTree [1#64] ∧ 0 < (1#64).toNat % 2 ^ 32 ∧ (1#64).toNat % 2 ^ 32 ≤ 0x7F800000) ∧
    (Goes sTree plain none [.x 11] (0, 0) sTree [0x7F800000#64] ∧ (0x7F800000#64).toNat % 2 ^ 32 ≤ 0x7F800000) ∧
    (Goes sTree plain none [.x 12] (0, 0) sTree [0#64] ∧ (0#64).toNat % 2 ^ 32 = 0) ∧
    (Goes sTree plain none [.x 13] (0, 0) sTree [0x7F800001#64] ∧ 0x7F800000 < (0x7F800001#64).toNat % 2 ^ 32) := by
  refine ⟨⟨⟨rfl, rfl⟩, ⟨rfl, rfl⟩, by decide, by decide, ⟨by decide, by decide⟩, by decide, ⟨by decide, _, rfl, rfl⟩, ⟨_, rfl, got_eq [] _ (by decide +kernel)⟩,
    ⟨_, rfl, got_eq [] _ (by decide +kernel)⟩, by decide +kernel⟩, ⟨⟨rfl, rfl, rfl⟩, by decide, by decide⟩, ⟨⟨rfl, rfl, rfl⟩, by decide, by decide⟩,
    ⟨⟨rfl, rfl, rfl⟩, by decide⟩, ⟨⟨rfl, rfl, rfl⟩, by decide⟩, ⟨⟨rfl, rfl, rfl⟩, by decide, by decide⟩, ⟨⟨rfl, rfl, rfl⟩, by decide⟩,
    ⟨⟨rfl, rfl, rfl⟩, by decide⟩, ⟨rfl, rfl, rfl⟩, by decide⟩

theorem wit_patterns :
    (Goes sTree plain none [.x 14, .x 12] (1, 0) sTree [0x3000005#64, 0#64] ∧ patLegal (0#64 ++ 0x3000005#64) = true ∧ (15 : Nat) < sTree.me.pats.count) ∧
    (Goes sTree plain none [.x 15, .x 12] (1, 0) sTree [12#64, 0#64] ∧ patLegal (0#64 ++ 12#64) = false) ∧
    (Ready sTree plain (1, 0) ∧ (sTree.pattern 0).desc.toNat / 2 ^ 16 % 2 ^ 10 ≤ 768 ∧ sTree.checkV ⟨.opf, 31⟩ 1 = none ∧
      ∃ r, sTree.readV ⟨.opf, 31⟩ = ⟨r, false, false⟩) ∧
    768 < (sTree.pattern 1).desc.toNat / 2 ^ 16 % 2 ^ 10 ∧
    (Goes sThree plain none [.x 14] (1, 0) sThree [0x3000005#64] ∧ (15 : Nat) < sThree.me.pats.count ∧ (2 : Nat) < sThree.me.tts.count ∧ sThree.me.tts.count ≤ 3) := by
  exact ⟨⟨⟨rfl, rfl, rfl⟩, by decide +kernel, by decide⟩, ⟨⟨rfl, rfl, rfl⟩, by decide +kernel⟩, ⟨⟨rfl, rfl⟩, by decide, by decide, _, rfl⟩, by decide,
    ⟨rfl, rfl, rfl⟩, by decide, by decide, by decide⟩

/-- A free node without a parent and with one, an accepted node, a node taken, a parent of depth 127, an acceptance of a node that is
not there; a path of one node, the empty path, and two roots, which are none. -/
theorem wit_trees :
    (Goes sTree plain none [.x 1] (0, 1) sTree [4096#64] ∧ (7 : Nat) < sTree.me.tts.count ∧ Ready sTree plain (vcnt ⟨.latch, 0⟩ 1) ∧ sTree.checkV ⟨.latch, 0⟩ 1 = none ∧
      Ready sTree plain ((vcnt ⟨.main, 1535⟩ 1).1, 1) ∧ sTree.checkV ⟨.main, 1535⟩ 1 = none ∧ Ready sTree plain (0, 1) ∧
      Goes sTree plain none [.x 1] (oneGuard 7) sTree [4096#64]) ∧
    (Goes sTree plain none [.x 16, .x 1] (0, 1) sTree [0x7F00#64, 4096#64] ∧ (0x7F00#64).getLsbD 16 = false ∧ isNode (sTree.treeNow 0) 0 = false ∧
      (127 : Nat) ≠ 0 ∧ (0x7F00#64).toNat / 2 ^ 8 % 2 ^ 7 = 127) ∧
    (Goes sTree plain none [.x 20, .x 1] (0, 1) sTree [0x10003#64, 4096#64] ∧ (0x10003#64).getLsbD 16 = true ∧ isNode (sTree.treeNow 0) 3 = false) ∧
    (Goes sTree plain none [.x 17, .x 1] (0, 1) sTree [0x17F01#64, 4096#64] ∧ (0x17F01#64).getLsbD 16 = true ∧ isNode (sTree.treeNow 0) 1 = true) ∧
    (Goes sTree plain none [.x 21, .x 1] (0, 1) sTree [0x7F01#64, 4096#64] ∧ (0x7F01#64).getLsbD 16 = false ∧ isNode (sTree.treeNow 0) 1 = true) ∧
    (Goes sTree plain none [.x 19, .x 1] (0, 1) sTree [0x0203#64, 4096#64] ∧ (0x0203#64).toNat % 2 ^ 7 = 3 ∧ (0x0203#64).toNat / 2 ^ 8 % 2 ^ 7 = 2 ∧
      isNode (sTree.treeNow 0) 2 = true ∧ depthOf (sTree.treeNow 0) 2 = 127) ∧
    IsPath (sTree.treeNow 0) [1] ∧ IsPath (sTree.treeNow 3) [] ∧ ∀ as, ¬ IsPath (sTree.treeNow 7) as := by
  have one : ∀ n : Fin 128, isNode (sTree.treeNow 0) n.val = true ∧ isAcc (sTree.treeNow 0) n.val = true ↔ n.val = 1 := by decide +kernel
  have zero : ∀ n : Fin 128, ¬ (isNode (sTree.treeNow 3) n.val = true ∧ isAcc (sTree.treeNow 3) n.val = true) := by decide +kernel
  refine ⟨⟨⟨rfl, rfl, rfl⟩, by decide, ⟨rfl, rfl⟩, by decide, ⟨rfl, rfl⟩, by decide, ⟨rfl, rfl⟩, rfl, rfl, rfl⟩,
    ⟨⟨rfl, rfl, rfl⟩, by decide, by decide, by decide, by decide⟩, ⟨⟨rfl, rfl, rfl⟩, by decide, by decide⟩, ⟨⟨rfl, rfl, rfl⟩, by decide, by decide⟩,
    ⟨⟨rfl, rfl, rfl⟩, by decide, by decide⟩, ⟨⟨rfl, rfl, rfl⟩, by decide, by decide, by decide, by decide⟩, ⟨?_, by decide, ?_⟩, ⟨?_, by decide, ?_⟩, ?_⟩
  · intro n hn
    rw [one ⟨n, hn⟩]; simp
  · intro j n h
    match j with
    | 0 => cases h; decide
    | j + 1 => cases h
  · intro n hn
    exact ⟨(by intro h; cases h), fun h => absurd h (zero ⟨n, hn⟩)⟩
  · intro j n h; cases h
  · intro as h
    have root : ∀ j n, as[j]? = some n → n = 1 ∨ n = 2 → j = 0 := by
      intro j n e hn
      have hd := (h.2.2 j n e).1
      rcases hn with rfl | rfl <;> exact hd.symm.trans (by decide)
    obtain ⟨i, hi⟩ := List.getElem?_of_mem ((h.1 1 (by decide)).mpr (by decide))
    obtain ⟨j, hj⟩ := List.getElem?_of_mem ((h.1 2 (by decide)).mpr (by decide))
    have hi0 := root i 1 hi (Or.inl rfl)
    have hj0 := root j 2 hj (Or.inr rfl)
    subst hi0; subst hj0
    rw [hi] at hj; cases hj

/-! ## Hypotheses that are met: issue -/

/-- Contexts of core 0 of the given statuses, with no stream taken, and with the PRIMARY or the SECONDARY stream taken. -/
def sFill (a b : CtxSt) (prim sec : Option Nat) : State :=
  { s0 with ctxs := [(0, { c0 with st := a }), (1, { c0 with st := b })], cores := [(0, { CoreSt.reset with prim := prim, sec := sec, launch := some 0 })] }

theorem best_of (s : State) (core i : Nat) (hi : i < 4) (h : ∀ j : Fin 4, j.val = i ∨ (s.ctx (core * 4 + j.val)).st ≠ .ready)
    (hr : (s.ctx (core * 4 + i)).st = .ready ∧ s.stopped (core * 4 + i) = false) : Best s core i := by
  refine ⟨hi, ⟨hr.1, by simp [hr.2]⟩, fun j hj hne hs => ?_⟩
  rcases h ⟨j, hj⟩ with e | e
  · exact absurd e hne
  · exact absurd hs.1 e

theorem noReady_of (s : State) (core : Nat) (h : ∀ j : Fin 4, (s.ctx (core * 4 + j.val)).st ≠ .ready) : NoReady s core :=
  fun j hj hs => h ⟨j, hj⟩ hs.1

theorem wit_vacancies :
    (((sFill .primary .secondary (some 0) (some 1)).core 0).prim ≠ none ∧ ((sFill .primary .secondary (some 0) (some 1)).core 0).sec ≠ none) ∧
    (((sFill .primary .blocked (some 0) none).core 0).prim ≠ none ∧ ((sFill .primary .blocked (some 0) none).core 0).sec = none ∧
      NoReady (sFill .primary .blocked (some 0) none) 0) ∧ Best (sFill .primary .ready (some 0) none) 0 1 ∧
    (((sFill .ready .secondary none (some 1)).core 0).prim = none ∧ ((sFill .ready .secondary none (some 1)).core 0).sec = some 1 ∧
      Best (movedUp (sFill .ready .secondary none (some 1)) 0 1) 0 0) ∧ NoReady (movedUp (sFill .empty .secondary none (some 1)) 0 1) 0 ∧
    (((sFill .empty .blocked none none).core 0).prim = none ∧ ((sFill .empty .blocked none none).core 0).sec = none ∧ NoReady (sFill .empty .blocked none none) 0) ∧
    (Best (sFill .empty .ready none none) 0 1 ∧ NoReady (asPrimary (sFill .empty .ready none none) 0 1) 0) ∧
    (Best (sFill .ready .ready none none) 0 0 ∧ Best (asPrimary (sFill .ready .ready none none) 0 0) 0 1) := by
  refine ⟨⟨by decide, by decide⟩, ⟨by decide, by decide, noReady_of _ _ (by decide)⟩, best_of _ _ _ (by decide) (by decide) (by decide),
    ⟨by decide, by decide, best_of _ _ _ (by decide) (by decide) (by decide)⟩, noReady_of _ _ (by decide), ⟨by decide, by decide, noReady_of _ _ (by decide)⟩,
    ⟨best_of _ _ _ (by decide) (by decide) (by decide), noReady_of _ _ (by decide)⟩, ⟨by decide, ⟨by decide, by rintro ⟨h, -⟩; cases h⟩, ?_⟩, best_of _ _ _ (by decide) (by decide) (by decide)⟩
  intro j hj hne hs
  have h : ∀ j : Fin 4, j.val = 0 ∨ ((sFill .ready .ready none none).ctx (0 * 4 + j.val)).st ≠ .ready ∨
      (((sFill .ready .ready none none).ctx (0 * 4 + j.val)).csr.pri = ((sFill .ready .ready none none).ctx (0 * 4 + 0)).csr.pri ∧
        (0 + 4 - ((sFill .ready .ready none none).core 0).rotp % 4) % 4 < (j.val + 4 - ((sFill .ready .ready none none).core 0).rotp % 4) % 4) := by decide
  rcases h ⟨j, hj⟩ with e | e | e
  · exact absurd e hne
  · exact absurd hs.1 e
  · exact Or.inr e

/-- The state after a launch whose code is one bundle, add x3, x1, x2 in slot 1; and with a SECONDARY beside a bundle of given slots. -/
def sIss : State := { State.reset.withCode (oneSlotBundle 1 (3 * 2 ^ 12 + 1 * 2 ^ 18 + 2 * 2 ^ 24)) with inbox := [] }
def sBoth (mask : Nat) : State :=
  ({ sIss with ctxs := sIss.ctxs ++ [(1, { c0 with st := .secondary, todo := [], slots := [] })] }).modCore 0 (fun q => { q with sec := some 1, phase := 1, mask := mask })
def bIss : Fetched := got ⟨0, [], 0⟩ ((sIss.modCtx 0 Ctx.renew).fetch 0 (sIss.ctx 0).npc)

def prepGoes : Prep → Bool
  | .go _ _ _ => true
  | .no _ => false
def prepS : Prep → State
  | .go s _ _ => s
  | .no s => s
def prepB : Prep → Fetched
  | .go _ b _ => b
  | .no _ => ⟨0, [], 0⟩
def prepF : Prep → Nat
  | .go _ _ f => f
  | .no _ => 0
theorem prep_eq (p : Prep) (h : prepGoes p = true) : p = .go (prepS p) (prepB p) (prepF p) := by
  cases p with
  | no s => cases h
  | go s b f => rfl

theorem wit_bundleIssue :
    (sIss.power = .on ∧ (sIss.core 0).phase = 0 ∧ (sIss.core 0).swap = false ∧ (sIss.core 0).prim = some 0 ∧ Calm (sIss.ctx 0) ∧ sIss.stopped 0 = false ∧ bIss.slots ≠ [] ∧
      (sIss.modCtx 0 Ctx.renew).fetch 0 (sIss.ctx 0).npc = .ok bIss ∧ bIss.slots = [(1, .add ⟨plain, none, .x 3, .x 1, .x 2⟩)] ∧
      (sIss.modCtx 0 Ctx.renew).bundleLegal 0 bIss.slots = true ∧
      (sIss.modCtx 0 Ctx.renew).needsMet 0 ((sIss.modCtx 0 Ctx.renew).needs 0 bIss.slots Needs.none) = true) ∧
    (∃ s2 b first, ((sBoth 8).core 0).phase ≠ 0 ∧ ((sBoth 8).core 0).swap = false ∧ ((sBoth 8).core 0).sec = some 1 ∧ (sBoth 8).prep 1 = .go s2 b first ∧ slotMask first b = 2 ∧
      ∀ k, (slotMask first b).testBit k = true → ((sBoth 8).core 0).mask.testBit k = false) ∧
    (∃ s2 b first, (sBoth 2).prep 1 = .go s2 b first ∧ (slotMask first b).testBit 1 = true ∧ ((sBoth 2).core 0).mask.testBit 1 = true) := by
  have m : slotMask (prepF ((sBoth 8).prep 1)) (prepB ((sBoth 8).prep 1)) = 2 := by decide +kernel
  refine ⟨⟨rfl, rfl, rfl, rfl, ⟨by decide, rfl, rfl, rfl, rfl, rfl, rfl, rfl, by decide⟩, by decide +kernel, by decide +kernel, got_eq _ _ (by decide +kernel),
      by decide +kernel, by decide +kernel, by decide +kernel⟩,
    ⟨_, _, _, by decide +kernel, by decide +kernel, by decide +kernel, prep_eq _ (by decide +kernel), m, ?_⟩, _, _, _, prep_eq _ (by decide +kernel), by decide +kernel, by decide +kernel⟩
  intro k hk
  rw [m] at hk
  match k with
  | 0 => cases hk
  | 1 => rfl
  | 2 => cases hk
  | k + 3 =>
    have h2 : (2 : Nat) = 2 ^ 1 := rfl
    rw [h2, Nat.testBit_two_pow] at hk
    exact absurd (of_decide_eq_true hk) (by omega)

/-- Two results for x5 with the same due index, one for x6 that is not due, and one for a guard bit. -/
def cDue : Ctx := { c0 with todo := [], bix := 9, pend := [⟨9, 7, true, 0, .x 5 1⟩, ⟨8, 7, true, 0, .guard 3 true⟩, ⟨9, 8, true, 0, .x 5 2⟩, ⟨10, 8, true, 0, .x 6 3⟩] }
def sDue : State := withCtx cDue

theorem wit_results :
    (cDue = sDue.ctx 0 ∧ cDue.st ≠ .trapped ∧ cDue.todo = [] ∧ cDue.resume = none ∧ cDue.nest = none ∧ cDue.rbNew = false) ∧
    (∃ pre post, cDue.pend = pre ++ ⟨9, 8, true, 0, .x 5 2⟩ :: post ∧ 9 ≤ cDue.bix ∧ (∀ p ∈ pre, ∀ w, p.res = .x 5 w → p.due ≤ cDue.bix → p.due ≤ 9) ∧
      ∀ p ∈ post, ∀ w, p.res = .x 5 w → p.due ≤ cDue.bix → p.due < 9) ∧
    (∀ p ∈ cDue.pend, ∀ w, p.res = .x 6 w → cDue.bix < p.due) ∧
    (∃ pre post, cDue.pend = pre ++ ⟨8, 7, true, 0, .guard 3 true⟩ :: post ∧ 8 ≤ cDue.bix ∧ (∀ p ∈ cDue.pend, ∀ w, p.res ≠ .guards w) ∧
      (∀ p ∈ pre, ∀ w, p.res = .guard 3 w → p.due ≤ cDue.bix → p.due ≤ 8) ∧ ∀ p ∈ post, ∀ w, p.res = .guard 3 w → p.due ≤ cDue.bix → p.due < 8) := by
  refine ⟨⟨rfl, by decide, rfl, rfl, rfl, rfl⟩, ⟨[⟨9, 7, true, 0, .x 5 1⟩, ⟨8, 7, true, 0, .guard 3 true⟩], _, rfl, by decide, ?_, ?_⟩, ?_,
    [⟨9, 7, true, 0, .x 5 1⟩], _, rfl, by decide, ?_, ?_, ?_⟩ <;> intro p hp w h
  · intro _
    simp only [List.mem_cons, List.not_mem_nil, or_false] at hp
    rcases hp with rfl | rfl <;> decide
  · simp only [List.mem_cons, List.not_mem_nil, or_false] at hp
    subst hp; cases h
  · simp only [cDue, List.mem_cons, List.not_mem_nil, or_false] at hp
    rcases hp with rfl | rfl | rfl | rfl <;> first | (cases h; done) | decide
  · simp only [cDue, List.mem_cons, List.not_mem_nil, or_false] at hp
    rcases hp with rfl | rfl | rfl | rfl <;> cases h
  · simp only [List.mem_cons, List.not_mem_nil, or_false] at hp
    subst hp; cases h
  · simp only [List.mem_cons, List.not_mem_nil, or_false] at hp
    rcases hp with rfl | rfl <;> cases h

/-- Inside a pass, at its end with passes left, and at the end of the last. -/
def sPass (pos : Nat) (lpass : Word) : State := withCtx { c0 with todo := [], nest := some ⟨64, 2, pos, [3], []⟩, csr := { c0.csr with lpass := lpass } }

theorem wit_passes :
    (((sPass 1 5).ctx 0).st ≠ .trapped ∧ [3].Nodup ∧ ((sPass 1 5).ctx 0).todo = [] ∧ ((sPass 1 5).ctx 0).resume = none ∧ ((sPass 1 5).ctx 0).nest = some ⟨64, 2, 1, [3], []⟩ ∧ (1 : Nat) ≤ 2) ∧
    (((sPass 3 5).ctx 0).nest = some ⟨64, 2, 3, [3], []⟩ ∧ (2 : Nat) < 3 ∧ ((sPass 3 5).ctx 0).csr.lpass ≠ 1#64) ∧
    (((sPass 3 1).ctx 0).nest = some ⟨64, 2, 3, [3], []⟩ ∧ ((sPass 3 1).ctx 0).csr.lpass = 1#64) := by decide

/-! ## Hypotheses that are met: engines beneath the cores -/

/-- The barrier of virtual cluster 0 and that of the launch, which context 0 has not reached, has reached, and waits at. -/
def kC : BarKey := ⟨.cluster, 0, 5⟩
def kL : BarKey := ⟨.launch, 0, 0⟩
def barOne : Bar := ((Bar.reset.arrive 0).getD (Bar.reset, 0)).1
def lBar (k : BarKey) (b : Bar) : Launch := l0.setBar k b
def sAt (k : BarKey) (b : Bar) : State := withCtx { c0 with st := .blocked, barWait := some (k, b.ep) } (lBar k b)

theorem wit_barrierCompletions :
    ((sAt kC Bar.reset).launch 0 = some (lBar kC Bar.reset) ∧ (lBar kC Bar.reset).placed = true ∧ ¬ Complete (sAt kC Bar.reset) (lBar kC Bar.reset) kC) ∧
    ((sAt kC barOne).launch 0 = some (lBar kC barOne) ∧ Complete (sAt kC barOne) (lBar kC barOne) kC ∧ kC.scope ≠ .launch) ∧
    ((sAt kL barOne).launch 0 = some (lBar kL barOne) ∧ Complete (sAt kL barOne) (lBar kL barOne) kL ∧ (sAt kL barOne).wbuf = [] ∧
      (sAt kL barOne).launches = [(0, lBar kL barOne)] ∧ (lBar kL barOne).part = (0 : Fin 8).val) := by
  refine ⟨⟨rfl, rfl, ?_⟩, ⟨rfl, ?_, by decide⟩, rfl, ?_, rfl, rfl, rfl⟩
  · intro h
    obtain ⟨p, _, hp⟩ := h.1
    exact absurd hp (by simp [Launch.bar, lBar, Launch.setBar, Bar.reset])
  · unfold Complete; exact ⟨⟨0, by decide, by decide⟩, by decide⟩
  · unfold Complete; exact ⟨⟨0, by decide, by decide⟩, by decide⟩

/-- A release whose cycle has come for a context that waits. -/
def barDue : Bar := { Bar.reset with rels := [⟨0, 0, 3, 0, true⟩] }

theorem wit_releases :
    (sAt kC barDue).launch 0 = some (lBar kC barDue) ∧ (lBar kC barDue).placed = true ∧
    (∃ r ∈ ((lBar kC barDue).bar kC).rels, r.phase = (3 : Fin 8).val ∧ r.cycle ≤ (sAt kC barDue).cycle ∧ (lBar kC barDue).gcidAt r.gcid = 0 ∧
      ((sAt kC barDue).ctx 0).st = .blocked ∧ ((sAt kC barDue).ctx 0).barWait = some (kC, r.ep)) ∧
    ¬ ∃ r ∈ ((lBar kC barDue).bar kC).rels, r.phase = (4 : Fin 8).val := by
  refine ⟨rfl, rfl, ⟨⟨0, 0, 3, 0, true⟩, by decide, by decide, by decide, by decide, by decide, by decide⟩, ?_⟩
  rintro ⟨r, hr, h⟩
  have : ∀ r ∈ ((lBar kC barDue).bar kC).rels, r.phase ≠ 4 := by decide
  exact this r hr h

/-- Two writes of one context, the first of stream 2; a stale tag, a current one, one that is FREE and one with state code 7. -/
def sWr : State := { s0 with wbuf := [⟨0, 2, .sp 0, 64, [1#8]⟩, ⟨0, 3, .dram, 64, [2#8]⟩] }
def tagSp (v : BitVec 32) : State := s0.setTag (.sp 0) 1 v

theorem wit_writesAndSweeps :
    (∀ w ∈ sWr.wbuf, w.gcid = (0 : Fin 1024).val → w.strm ≠ (1 : Fin 16).val) ∧
    (∃ pre w post, sWr.wbuf = pre ++ w :: post ∧ w.gcid = (0 : Fin 1024).val ∧ w.strm = (3 : Fin 16).val ∧ w ∉ post ∧
      ∀ u ∈ pre, u.gcid = (0 : Fin 1024).val ∧ u.strm ≠ 3 ∧ u.sp ≠ w.sp) ∧
    tagSt ((tagSp 0).tag (.sp 0) 1) = 0 ∧
    (∃ v w : BitVec 32, 0 < tagSt ((tagSp v).tag (.sp 0) 1) ∧ tagSt ((tagSp v).tag (.sp 0) 1) < 6 ∧
      (tagSp v).partOfCluster (tagCtx ((tagSp v).tag (.sp 0) 1) / 32) = some 0 ∧ tagGen ((tagSp v).tag (.sp 0) 1) = ((tagSp v).part 0).lgen ∧
      0 < tagSt ((tagSp w).tag (.sp 0) 1) ∧ (tagSp w).partOfCluster (tagCtx ((tagSp w).tag (.sp 0) 1) / 32) = some 0 ∧
      tagGen ((tagSp w).tag (.sp 0) 1) ≠ ((tagSp w).part 0).lgen) ∧
    (∃ v : BitVec 32, 6 ≤ tagSt ((tagSp v).tag (.sp 0) 1) ∧ ((tagSp v).die 0).arb.length < 1024) ∧
    (∃ v : BitVec 32, 0 < tagSt ((tagSp v).tag (.sp 0) 1) ∧ tagSt ((tagSp v).tag (.sp 0) 1) < 6 ∧
      (tagSp v).partOfCluster (tagCtx ((tagSp v).tag (.sp 0) 1) / 32) = none) ∧
    (∃ o : Nat, zoneOf (dramBase + 64 * 100) = .data 0 o) := by
  refine ⟨by decide, ⟨[⟨0, 2, .sp 0, 64, [1#8]⟩], _, _, rfl, rfl, rfl, by decide, by decide⟩, by decide, ⟨mkTag 1 0 0 0, mkTag 1 0 1 0, by decide⟩,
    ⟨mkTag 7 0 0 0, by decide⟩, ⟨mkTag 1 1023 0 0, by decide⟩, _, rfl⟩

/-- A range that the clearer has begun. -/
def sClr : State := { s0 with clus := [(0, { Cluster.reset with uncleared := [(4096, 8192)] })] }
theorem wit_clearer : (sClr.clu (0 : Fin 32).val).uncleared = (4096, 8192) :: [] ∧ (4096 : Nat) < 8192 ∧ (sClr.clu 0).isUncleared 4096 = true := by decide

/-- An invalidation that nothing holds back, one that a copy holds back, and one that a pin of an active stream holds back. -/
def sInv (marks : List Nat) (pins : List Pin) : State :=
  { sRun { copy0 with marks := marks } with invals := [⟨6, 0, 0, 0, 4096, [0], some 0, none, false, false⟩, ⟨7, 0, 0, 0, 4096, [0, 1], none, none, true, false⟩] }.modCtx 0
    (fun c => { c with pins := pins })
def inv7 : Inval := ⟨7, 0, 0, 0, 4096, [0, 1], none, none, true, false⟩
theorem wit_invalidations :
    ((sInv [] []).invals.find? (fun j => j.no == 7 && !j.done) = some inv7 ∧ (sInv [] []).marked 7 = false ∧
      ∀ k ∈ inv7.cores, ∀ c < 4, ∀ p ∈ ((sInv [] []).ctx (k * 4 + c)).pins, ¬ Pinned inv7 p) ∧
    ((sInv [7] []).invals.find? (fun j => j.no == 7 && !j.done) = some inv7 ∧ (sInv [7] []).marked 7 = true) ∧
    (∃ p, (sInv [] [p]).invals.find? (fun j => j.no == 7 && !j.done) = some inv7 ∧ 0 ∈ inv7.cores ∧ Waited (sInv [] [p]) inv7 (0 * 4 + 0) ∧
      p ∈ ((sInv [] [p]).ctx (0 * 4 + 0)).pins ∧ Pinned inv7 p) := by
  refine ⟨⟨by decide +kernel, by decide +kernel, ?_⟩, ⟨by decide +kernel, by decide +kernel⟩,
    ⟨0, 4096, false, 5, some { asid := 0, va := 0, size := 4096, pa := 0, host := false, rc := false, x := true, w := true, r := true, dd := false }, false⟩, by decide +kernel, by decide,
    ⟨by decide +kernel, by decide, by intro q h; cases h⟩, by decide +kernel, by decide, _, rfl, by unfold Stale; decide⟩
  have h : ∀ k ∈ [0, 1], ∀ c : Fin 4, ((sInv [] []).ctx (k * 4 + c.val)).pins = [] := by decide +kernel
  intro k hk c hc p hp
  rw [h k hk ⟨c, hc⟩] at hp; cases hp

/-- A trapped context with a handler context that has an image, one that has none, with the arbiter full or not, and entries for the
host; two TRAPPED contexts that can resume, one past its bundle; and a delivered handler. -/
def sTrap (q : List Nat) (cfg : Word) : State :=
  (sImage.setCtx 0 { c0 with st := .trapped, trcfg := cfg, tsw0 := 0x300 }).modCore 0 (fun c => { c with trapQ := q })
def sArb (s : State) : State := s.modDie 0 (fun d => { d with arb := List.replicate 1024 ⟨5, none, 0, none, 0, 0⟩ })
def sHdl : State := (sTrap [] 0).setCtx 1 { c0 with st := .ready, csr := { c0.csr with hdl := true, hctxV := true, hctxC := 0 } }

theorem wit_delivery :
    (((sTrap [4] 0x1100).core 0).trapQ = [] ++ 4 :: [] ∧ GoesOn (sTrap [4] 0x1100) 0 4) ∧
    (((sTrap [1] 0x1100).core 0).trapQ = [] ++ 1 :: [] ∧ GoesOn (sTrap [1] 0x1100) 0 1 ∧ ((sTrap [1] 0x1100).ctx (0 * 4 + 1)).st ≠ .trapped) ∧
    (((sTrap [0] 0x1100).core 0).trapQ = [] ++ 0 :: [] ∧ GoesOn (sTrap [0] 0x1100) 0 0 ∧ ((sTrap [0] 0x1100).ctx 0).st = .trapped ∧
      (1 = 0 * 4 + ((sTrap [0] 0x1100).ctx 0).trcfg.toNat / 2 ^ 8 % 4) ∧ ((sTrap [0] 0x1100).ctx 1).st = .empty ∧
      ∃ t, ((sTrap [0] 0x1100).modCore 0 (fun q => { q with trapQ := [] })).deliver 0 0 = some t) ∧
    (GoesOn (sTrap [0] 0x7100) 0 0 ∧ ((sTrap [0] 0x7100).modCore 0 (fun q => { q with trapQ := [] })).deliver 0 0 = none ∧
      ((sTrap [0] 0x7100).die (0 / 64)).arb.length < 1024) ∧
    (GoesOn (sArb (sTrap [0] 0x7100)) 0 0 ∧ ((sArb (sTrap [0] 0x7100)).modCore 0 (fun q => { q with trapQ := [] })).deliver 0 0 = none ∧
      1024 ≤ ((sArb (sTrap [0] 0x7100)).die (0 / 64)).arb.length ∧ ((sArb (sTrap [4, 0] 0x7100)).core 0).trapQ = [4] ++ 0 :: [] ∧
      ¬ GoesOn (sArb (sTrap [4, 0] 0x7100)) 0 4 ∧ GoesOn (sArb (sTrap [4, 0] 0x7100)) 0 0) ∧
    (((sTrap [] 0).ctx 0).st = .trapped ∧ ¬ Handled (sTrap [] 0) 0 0) ∧ ((sTrap [] 0).ctx 1).st ≠ .trapped ∧ Handled sHdl 0 0 := by
  have hd : ∀ j : Fin 4, ((sTrap [] 0).ctx (0 * 4 + j.val)).csr.hdl = false := by decide +kernel
  refine ⟨⟨by decide +kernel, ?_⟩, ⟨by decide +kernel, ?_, by decide +kernel⟩,
    ⟨by decide +kernel, ?_, by decide +kernel, by decide +kernel, by decide +kernel, _, get_eq State.reset _ (by decide +kernel)⟩,
    ⟨?_, Option.isNone_iff_eq_none.mp (by decide +kernel), by decide +kernel⟩,
    ⟨?_, Option.isNone_iff_eq_none.mp (by decide +kernel), by decide +kernel, by decide +kernel, ?_, ?_⟩,
    ⟨by decide +kernel, fun h => ?_⟩, by decide +kernel, ⟨1, by decide +kernel⟩⟩
  any_goals (unfold GoesOn; decide +kernel)
  obtain ⟨j, hj, h1, _⟩ := h
  exact absurd h1 (by rw [hd ⟨j, hj⟩]; decide)

/-! ## Hypotheses that are met: command streams and the launch path -/

theorem some_of {α : Type} : ∀ o : Option α, o.isSome = true → ∃ t, o = some t := by
  intro o h
  cases o with
  | none => cases h
  | some t => exact ⟨t, rfl⟩
theorem none_of {α : Type} : ∀ o : Option α, o.isNone = true → o = none := by
  intro o h
  cases o with
  | none => rfl
  | some t => cases h
theorem ok_of {ε α : Type} : ∀ x : Except ε α, passed x = true → ∃ t, x = .ok t := by
  intro x h
  cases x with
  | error e => cases h
  | ok t => exact ⟨t, rfl⟩
def errIs {α : Type} (n : Nat) : Except Nat α → Bool
  | .error m => m == n
  | .ok _ => false
theorem err_of {α : Type} (n : Nat) (x : Except Nat α) (h : errIs n x = true) : x = .error n := by
  cases x with
  | error m => rw [eq_of_beq h]
  | ok t => cases h

/-- Memory mapped as for `withCode`, no launch, and stream 0 of partition 0, privileged, with the packet `p` pending; the same with the
command `p` in progress. -/
def sQ0 : State := { State.reset.withCode [] with inbox := [], launches := [], cores := [], ctxs := [] }
def str0 : Stream := { Stream.reset with en := true, priv := true, tail := 32, st := .idle, sqbase := 0x50000 }
def sQ (p : Nat) : State := { sQ0.setBytes .dram (bootPage + 0x50000) (natLe 32 p) with streams := [(0, str0)] }
def sIn (p : Nat) : State := { sQ0 with streams := [(0, { str0 with busy := true, st := .run, cmd := BitVec.ofNat 256 p })] }
def begun (s : State) (p : Nat) : State := s.modStream 0 (fun q => { q with busy := true, st := .run, cmd := BitVec.ofNat 256 p, cmdOff := q.head })

theorem begins_of (s : State) (op p : Nat)
    (h : s.power = .on ∧ s.recov = false ∧ (s.stream 0).en = true ∧ (s.stream 0).busy = false ∧ (s.stream 0).detached = false ∧
      (s.stream 0).st ≠ .stop ∧ (s.stream 0).head ≠ (s.stream 0).tail % 2 ^ (s.stream 0).lsize ∧ s.packet 0 = some (BitVec.ofNat 256 p) ∧
      Sys2Proof.Claims.field (BitVec.ofNat 256 p) 0 1 = op ∧ pktOk (BitVec.ofNat 256 p) = true ∧ pktAligned (BitVec.ofNat 256 p) = true) :
    Begins s (0 : Fin 16).val op (begun s p) (BitVec.ofNat 256 p) :=
  ⟨h.1, h.2.1, h.2.2.1, h.2.2.2.1, h.2.2.2.2.1, h.2.2.2.2.2.1, h.2.2.2.2.2.2.1, h.2.2.2.2.2.2.2.1, h.2.2.2.2.2.2.2.2.1, h.2.2.2.2.2.2.2.2.2.1,
    h.2.2.2.2.2.2.2.2.2.2, rfl⟩

def semP (op mode addr v : Nat) : Nat := op + mode * 2 ^ 8 + addr * 2 ^ 64 + v * 2 ^ 128
def sUnread : State := { sQ 7 with streams := [(0, { str0 with sqbase := 0x10000000000#64 })] }
def sFence : State := { sQ 7 with streams := [(0, str0), (5, { str0 with busy := true })] }
def sFenced (l : List Nat) : State := { sQ0 with streams := [(0, { str0 with busy := true, st := .run, cmd := 7, fence := l })] }

theorem wit_semaphores :
    (sUnread.canBegin 0 = true ∧ sUnread.packet 0 = none) ∧ ((sQ 10).packet 0 = some 10#256 ∧ 9 < Sys2Proof.Claims.field 10#256 0 1) ∧
    ((sQ 0).packet 0 = some 0#256 ∧ Sys2Proof.Claims.field 0#256 0 1 = 0) ∧
    (Begins (sQ (semP 2 0 0x60000 0)) 0 2 (begun (sQ (semP 2 0 0x60000 0)) (semP 2 0 0x60000 0)) (BitVec.ofNat 256 (semP 2 0 0x60000 0)) ∧
      (begun (sQ (semP 2 0 0x60000 0)) (semP 2 0 0x60000 0)).engineRead 0 0x60000 8 = some [0, 0, 0, 0, 0, 0, 0, 0]) ∧
    (Begins (sQ (semP 2 0 0x10000000000 1)) 0 2 (begun (sQ (semP 2 0 0x10000000000 1)) (semP 2 0 0x10000000000 1)) (BitVec.ofNat 256 (semP 2 0 0x10000000000 1)) ∧
      (begun (sQ (semP 2 0 0x10000000000 1)) (semP 2 0 0x10000000000 1)).engineRead 0 0x10000000000 8 = none) ∧
    (Begins (sQ (semP 3 1 0x60000 5)) 0 3 (begun (sQ (semP 3 1 0x60000 5)) (semP 3 1 0x60000 5)) (BitVec.ofNat 256 (semP 3 1 0x60000 5)) ∧
      ∃ ps, (begun (sQ (semP 3 1 0x60000 5)) (semP 3 1 0x60000 5)).enginePlaces 0 .atomic (consec (BitVec.ofNat 64 0x60000) 8) = some ps) ∧
    (Begins (sQ (semP 8 1 0x60000 5)) 0 8 (begun (sQ (semP 8 1 0x60000 5)) (semP 8 1 0x60000 5)) (BitVec.ofNat 256 (semP 8 1 0x60000 5)) ∧
      ∃ u, (begun (sQ (semP 8 1 0x60000 5)) (semP 8 1 0x60000 5)).engineWrite 0 0x60000 (natLe 8 5) = some u) ∧
    (Begins sFence 0 7 (begun sFence 7) (BitVec.ofNat 256 7) ∧ (5 : Nat) < 16 ∧ ((begun sFence 7).stream 5).busy = true ∧
      ((begun sFence 7).stream 5).part = ((begun sFence 7).stream 0).part) ∧
    (Begins (sQ 7) 0 7 (begun (sQ 7) 7) (BitVec.ofNat 256 7) ∧ ∀ m, m < 16 → m ≠ 0 → ((begun (sQ 7) 7).stream m).busy = true →
      ((begun (sQ 7) 7).stream m).part ≠ ((begun (sQ 7) 7).stream 0).part) ∧
    (InProgress (sFenced []) 0 7 7#256 ∧ ((sFenced []).stream 0).fence = []) ∧ (InProgress (sFenced [5]) 0 7 7#256 ∧ ((sFenced [5]).stream 0).fence ≠ []) := by
  refine ⟨by decide +kernel, by decide +kernel, by decide +kernel, ⟨begins_of _ _ _ (by decide +kernel), by decide +kernel⟩, ⟨begins_of _ _ _ (by decide +kernel), by decide +kernel⟩,
    ⟨begins_of _ _ _ (by decide +kernel), some_of _ (by decide +kernel)⟩, ⟨begins_of _ _ _ (by decide +kernel), some_of _ (by decide +kernel)⟩,
    ⟨begins_of _ _ _ (by decide +kernel), by decide, by decide +kernel, by decide +kernel⟩, ⟨begins_of _ _ _ (by decide +kernel), ?_⟩,
    ⟨⟨rfl, rfl, rfl, rfl, by decide⟩, rfl⟩, ⟨rfl, rfl, rfl, rfl, by decide⟩, by decide⟩
  intro m hm hne hb
  have h : ∀ m : Fin 16, m.val = 0 ∨ ((begun (sQ 7) 7).stream m.val).busy = false := by decide +kernel
  rcases h ⟨m, hm⟩ with e | e
  · exact absurd e hne
  · rw [e] at hb; cases hb

/-- A binary of `n` virtual clusters with one descriptor, at 0x70000; and a LAUNCH of it and of an address that is not mapped. -/
def header (n : Nat) : Nat :=
  0x5856575A + 2 * 2 ^ 32 + (2 ^ 104 - 1) / 255 * 2 ^ 128 + n * 2 ^ (8 * 0x20) + 1 * 2 ^ (8 * 0x22) + 0x1000000 * 2 ^ (8 * 0x24) + 128 * 2 ^ (8 * 0x28) + 64 * 2 ^ (8 * 0x30)
def descriptor : Nat :=
  2 ^ 26 + 24 * 2 ^ 32 + 15 * 2 ^ 40 + 32 * 2 ^ (8 * 17) + 64 * 2 ^ (8 * 19) + 4 * 2 ^ (8 * 21) + 16 * 2 ^ (8 * 23) + 16 * 2 ^ (8 * 25) + 8 * 2 ^ (8 * 27)
def launchP (bin : Nat) : Nat := 1 + 9 * 2 ^ 32 + bin * 2 ^ 64
def sLa (n bin : Nat) : State := (sQ (launchP bin)).setBytes .dram (bootPage + 0x70000) (natLe 64 (header n) ++ natLe 32 descriptor)
def tLa (n bin : Nat) : State := begun (sLa n bin) (launchP bin)
def placed (x : Except Nat Launch) (free : List Nat) : Bool :=
  match x with
  | .ok l => (l.place free).isSome
  | .error _ => false
def unplaced (x : Except Nat Launch) (free : List Nat) : Bool :=
  match x with
  | .ok l => (l.place free).isNone
  | .error _ => false
theorem placed_of (x : Except Nat Launch) (free : List Nat) (h : placed x free = true) : ∃ l, x = .ok l ∧ l.place free ≠ none := by
  cases x with
  | error e => cases h
  | ok l =>
    refine ⟨l, rfl, fun e => ?_⟩
    simp [placed, e] at h
theorem unplaced_of (x : Except Nat Launch) (free : List Nat) (h : unplaced x free = true) : ∃ l, x = .ok l ∧ l.place free = none := by
  cases x with
  | error e => cases h
  | ok l => exact ⟨l, rfl, none_of _ h⟩

theorem wit_launches :
    (Begins (sLa 1 0x10000000000) 0 1 (tLa 1 0x10000000000) (BitVec.ofNat 256 (launchP 0x10000000000)) ∧
      (tLa 1 0x10000000000).readBinary ((tLa 1 0x10000000000).stream 0).part (BitVec.ofNat 256 (launchP 0x10000000000)) = .error 0x13 ∧
      Sys2Proof.Claims.field (BitVec.ofNat 256 (launchP 0x10000000000)) 16 8 = 0 ∧ (tLa 1 0x10000000000).engineRead 0 0x10000000000 64 = none) ∧
    (Begins (sLa 1 0x70000) 0 1 (tLa 1 0x70000) (BitVec.ofNat 256 (launchP 0x70000)) ∧
      ∃ l, (tLa 1 0x70000).readBinary ((tLa 1 0x70000).stream 0).part (BitVec.ofNat 256 (launchP 0x70000)) = .ok l ∧
        l.place ((tLa 1 0x70000).partClusters ((tLa 1 0x70000).stream 0).part) ≠ none) ∧
    (Begins (sLa 2 0x70000) 0 1 (tLa 2 0x70000) (BitVec.ofNat 256 (launchP 0x70000)) ∧
      ∃ l, (tLa 2 0x70000).readBinary ((tLa 2 0x70000).stream 0).part (BitVec.ofNat 256 (launchP 0x70000)) = .ok l ∧
        l.place ((tLa 2 0x70000).partClusters ((tLa 2 0x70000).stream 0).part) = none) ∧
    (∃ b, (tLa 1 0x60000).engineRead 0 0x60000 64 = some b ∧ leNat b % 2 ^ 32 ≠ 0x5856575A) := by
  exact ⟨⟨begins_of _ _ _ (by decide +kernel), err_of _ _ (by decide +kernel), by decide +kernel, by decide +kernel⟩,
    ⟨begins_of _ _ _ (by decide +kernel), placed_of _ _ (by decide +kernel)⟩, ⟨begins_of _ _ _ (by decide +kernel), unplaced_of _ _ (by decide +kernel)⟩,
    _, get_eq [] _ (by decide +kernel), by decide +kernel⟩

/-- A stream that was disabled while it waits for a semaphore; a header at the end of the mapped memory; descriptors that reserve a bit. -/
def sOff : State := { sQ0 with streams := [(0, { str0 with en := false, busy := true, st := .off, cmd := BitVec.ofNat 256 (semP 2 0 0x60000 5) })] }
def sHead (h : Nat) (bin : Nat) (d : Nat) : State := ((sQ0.setBytes .dram (bootPage + bin) (natLe 64 h)).setBytes .dram (bootPage + 0x70040) (natLe 32 d))

theorem fits_of (h : Nat) (k : Nat) (hk : 12 ≤ k ∧ k ≤ 24 ∧ part' h 0x24 4 = 2 ^ k) (hr : part' h 0x0C 4 < 2 ∧ part' h 0x1D 3 = 0 ∧ part' h 0x38 8 = 0 ∧
    (∀ i, i < 13 → part' h (0x10 + i) 1 ≠ 0) ∧ 1 ≤ part' h 0x20 1 ∧ part' h 0x20 1 ≤ 32 ∧ part' h 0x21 1 < 3 ∧ 1 ≤ part' h 0x22 2 ∧ part' h 0x22 2 ≤ 1024)
    (hc : part' h 0x28 8 % 64 = 0) : HeaderFits h :=
  ⟨hr.1, hr.2.1, hr.2.2.1, hr.2.2.2.1, hr.2.2.2.2.1, hr.2.2.2.2.2.1, hr.2.2.2.2.2.2.1, hr.2.2.2.2.2.2.2.1, hr.2.2.2.2.2.2.2.2, ⟨k, hk⟩, hc⟩

theorem header_fits : HeaderFits (header 1) :=
  fits_of _ 24 (by decide +kernel) (by decide +kernel) (by decide +kernel)

theorem descriptor_fits : DescriptorsFit (header 1) [descriptor] := by
  refine ⟨by decide +kernel, by decide +kernel, List.pairwise_singleton _ _, fun v k => ?_⟩
  have hd : (descAt descriptor).vallot = 24 := by decide +kernel
  by_cases h : (descAt descriptor).vcl = v ∧ (descAt descriptor).core = k
  · simp [h, hd, List.filter_cons]
    split <;> simp
  · simp [h]

theorem wit_binaries :
    ((sOff.stream 0).busy = true ∧ (sOff.stream 0).en = false ∧ Sys2Proof.Claims.field (sOff.stream 0).cmd 0 1 = 2 ∧
      sOff.engineRead 0 (Sys2Proof.Claims.field (sOff.stream 0).cmd 8 8) 8 = some (natLe 8 0) ∧ leNat (natLe 8 0) < Sys2Proof.Claims.field (sOff.stream 0).cmd 16 8) ∧
    ((sHead 0 0x70000 0).engineRead 0 0x70000 64 = some (natLe 64 0) ∧ ¬ (part' (leNat (natLe 64 0)) 0 4 = 0x5856575A ∧ part' (leNat (natLe 64 0)) 4 2 = 2 ∧ part' (leNat (natLe 64 0)) 6 2 = 0)) ∧
    ((sHead (header 0) 0x70000 0).engineRead 0 0x70000 64 = some (natLe 64 (header 0)) ∧ part' (header 0) 0 4 = 0x5856575A ∧ part' (header 0) 4 2 = 2 ∧ part' (header 0) 6 2 = 0 ∧ ¬ HeaderFits (header 0)) ∧
    ((sHead (header 1) 0x3FFFFFC0 0).engineRead 0 0x3FFFFFC0 64 = some (natLe 64 (header 1)) ∧ part' (header 1) 0 4 = 0x5856575A ∧ HeaderFits (header 1) ∧
      (sHead (header 1) 0x3FFFFFC0 0).engineRead 0 (0x3FFFFFC0 + 64) (32 * part' (header 1) 0x22 2) = none) ∧
    ((sHead (header 1) 0x70000 (2 ^ 27)).engineRead 0 0x70040 (32 * part' (header 1) 0x22 2) = some (natLe 32 (2 ^ 27)) ∧ ¬ DescriptorsFit (header 1) [2 ^ 27]) ∧
    ((sHead (header 1) 0x70000 descriptor).engineRead 0 0x70040 (32 * part' (header 1) 0x22 2) = some (natLe 32 descriptor) ∧ DescriptorsFit (header 1) [descriptor] ∧
      [descriptor] = (List.range (part' (header 1) 0x22 2)).map (fun i => leNat (((natLe 32 descriptor).drop (32 * i)).take 32))) := by
  refine ⟨⟨rfl, rfl, by decide, by decide +kernel, by decide⟩, by decide +kernel, ⟨by decide +kernel, by decide +kernel, by decide +kernel, by decide +kernel, ?_⟩,
    ⟨by decide +kernel, by decide +kernel, header_fits, by decide +kernel⟩, ⟨by decide +kernel, ?_⟩, ⟨by decide +kernel, descriptor_fits, by decide +kernel⟩⟩
  · intro h
    exact absurd h.2.2.2.2.1 (by decide +kernel)
  · intro h
    exact absurd (h.1 _ (List.mem_singleton.mpr rfl)).1 (by decide +kernel)

/-- A launch that waits in stream 0, and another of higher priority in stream 1. -/
def lWait : Launch := { l0 with placed := false, map := [] }
def sWait (two : Bool) : State :=
  { sQ0 with launches := (0, lWait) :: (if two then [(1, lWait)] else []), streams := [(0, str0), (1, { str0 with pri := 3 })] }

/-- The launch with its one core kept, waiting for its place again; and the launch that waits while its cluster is held. -/
def lSaved : Launch := { lWait with saved := some ([⟨0, 0, CoreSt.reset, [c0, c0, c0, c0]⟩], []) }
def sSaved : State := { sWait false with launches := [(0, lSaved)] }
def sAllHeld : State := { sWait false with cores := [(0, { CoreSt.reset with launch := some 5 })] }

theorem takes_0 : ∀ c, c ∈ [0] ↔ Takeable (sWait false) 0 [] c := by
  intro c
  constructor
  · intro h
    rw [List.mem_singleton.mp h]
    have h1 : ∀ i : Fin 8, ((sWait false).core (8 * 0 + i.val)).launch = none := by decide +kernel
    have h2 : ∀ n : Fin 16, ((sWait false).stream n.val).busy = false := by decide +kernel
    exact ⟨by decide, by decide +kernel, .inl fun i hi => h1 ⟨i, hi⟩, fun n hn _ hb => absurd hb (by rw [h2 ⟨n, hn⟩]; decide)⟩
  · rintro ⟨h, hm, _⟩
    have h1 : ∀ c : Fin 32, ((sWait false).part 0).clmask.getLsbD c.val = true → c.val ∈ [0] := by decide +kernel
    exact h1 ⟨c, h⟩ hm

theorem wit_morePlacements :
    (sAllHeld.launch 0 = some lWait ∧ sAllHeld.candidate lWait.part = some 0 ∧ sAllHeld.admits 0 [] = none) ∧
    (sSaved.launch 0 = some lSaved ∧ lSaved.placed = false ∧ sSaved.candidate lSaved.part = some 0 ∧ sSaved.admits 0 [] = some [(0, 0)] ∧
      lSaved.saved = some ([⟨0, 0, CoreSt.reset, [c0, c0, c0, c0]⟩], [])) ∧
    ((sWait false).ready = true ∧ ((sWait false).part 0).en = true ∧ [0].Pairwise (· < ·) ∧ ∀ c, c ∈ [0] ↔ Takeable (sWait false) 0 [] c) ∧
    (l0.shape < 3 ∧ l0.nvcl ≤ 32 ∧ (∀ c ∈ [3, 31], c < 32) ∧ Admitted l0 [3, 31] fun _ => 3) := by
  refine ⟨⟨rfl, by decide +kernel, by decide +kernel⟩, ⟨rfl, rfl, by decide +kernel, by decide +kernel, rfl⟩, ⟨rfl, by decide +kernel, by decide, takes_0⟩,
    by decide, by decide, by decide, fun _ _ => List.mem_cons_self, fun v w hv hw => ⟨fun h => ?_, fun _ => rfl, fun h => absurd h (by decide)⟩⟩
  have e1 : v = 0 := Nat.lt_one_iff.mp hv
  have e2 : w = 0 := Nat.lt_one_iff.mp hw
  exact absurd (e1.trans e2.symm) h

theorem wit_placements :
    ((sWait true).launch 0 = some lWait ∧ lWait.placed = false ∧ (sWait true).candidate lWait.part ≠ some 0) ∧
    ((sWait false).launch 0 = some lWait ∧ (sWait false).candidate lWait.part = some 0 ∧ (sWait false).admits 0 [] = some [(0, 0)] ∧ lWait.saved = none ∧
      (sWait false).wbuf = [] ∧ ([(0, 0)].map (Prod.fst : Nat × Nat → Nat)).Nodup ∧ ([(0, 0)].map (Prod.snd : Nat × Nat → Nat)).Nodup ∧ (lWait.descs.map Desc.pos).Nodup ∧
      (∀ d ∈ lWait.descs, d.vcl ∈ [(0, 0)].map (Prod.fst : Nat × Nat → Nat) ∧ d.core < 8 ∧ d.ctx < 4) ∧ ((sWait false).stream 0).en = true) ∧
    (lWait.shape = 0 ∧ [3, 31].Pairwise (· < ·) ∧ (∀ c ∈ [3, 31], c < 32) ∧ lWait.nvcl ≤ [3, 31].length ∧ ¬ lWait.nvcl ≤ ([] : List Nat).length) := by
  exact ⟨⟨rfl, rfl, by decide +kernel⟩, ⟨rfl, by decide +kernel, by decide +kernel, rfl, rfl, by decide, by decide, by decide, by decide, by decide⟩,
    rfl, by decide, by decide, by decide, by decide⟩

/-- A launch that runs in stream 0, with its context in a status; with a completion record; and with one of higher priority that waits. -/
def sEnd (st : CtxSt) (cpl : Word) : State :=
  { State.reset.withCode [] with inbox := [], launches := [(0, { l0 with cpl := cpl })], ctxs := [(0, { c0 with st := st, todo := [] })],
                                 streams := [(0, str0), (1, { str0 with pri := 3 })] }
def uEnd (cpl : Word) : State :=
  { (sEnd .halted cpl).freeLaunch { l0 with cpl := cpl } with launches := Tab.erase 0 ((sEnd .halted cpl).freeLaunch { l0 with cpl := cpl }).launches }
def sVict : State := { sEnd .primary 0 with launches := [(0, l0), (1, lWait)] }
def sPre (p : Nat) (strs : List (Nat × Stream)) : State :=
  { (sEnd .primary 0).setBytes .dram (bootPage + 0x50000) (natLe 32 p) with launches := [(1, l0)], streams := strs }
def preP (n : Nat) : Nat := 9 + n * 2 ^ 8

theorem atRest_of (s : State) (l : Launch) (h : s.wbuf = [] ∧ l.killed = false ∧ ∀ m ∈ l.map, ∀ i : Fin 8, (s.core (8 * m.2 + i.val)).ch = [] ∧
    ∀ j : Fin 4, (s.ctx (4 * (8 * m.2 + i.val) + j.val)).nest.isNone = true ∧ (s.ctx (4 * (8 * m.2 + i.val) + j.val)).todo = []) : AtRest s l :=
  ⟨h.1, h.2.1, fun m hm i hi => ⟨(h.2.2 m hm ⟨i, hi⟩).1, fun j hj => ⟨none_of _ ((h.2.2 m hm ⟨i, hi⟩).2 ⟨j, hj⟩).1, ((h.2.2 m hm ⟨i, hi⟩).2 ⟨j, hj⟩).2⟩⟩⟩

theorem wit_endsAndPreemptions :
    ((sEnd .halted 0).launch 0 = some l0 ∧ ((sEnd .halted 0).stream 0).en = true ∧ ((sEnd .halted 0).stream 0).detached = false ∧ (sEnd .halted 0).wbuf = [] ∧
      (sEnd .halted 0).launchDone l0 = true ∧ l0.placed = true ∧ l0.cpl = 0#64) ∧
    ((sEnd .halted 0x60000).launchDone { l0 with cpl := 0x60000 } = true ∧
      ∃ w, (uEnd 0x60000).engineWrite l0.part 0x60000 (natLe 16 (1 + l0.stale * 2 ^ 64 + l0.ltag.toNat * 2 ^ 96)) = some w) ∧
    ((sEnd .primary 0).launchDone l0 = false) ∧ sQ0.launch 0 = none ∧
    (Begins (sPre (preP 1) [(0, { str0 with priv := false }), (1, str0)]) 0 9 (begun (sPre (preP 1) [(0, { str0 with priv := false }), (1, str0)]) (preP 1)) (BitVec.ofNat 256 (preP 1)) ∧
      Sys2Proof.Claims.field (BitVec.ofNat 256 (preP 1)) 1 1 = 1) ∧
    (Begins (sPre (preP 2) [(0, str0), (1, str0)]) 0 9 (begun (sPre (preP 2) [(0, str0), (1, str0)]) (preP 2)) (BitVec.ofNat 256 (preP 2)) ∧
      (sPre (preP 2) [(0, str0), (1, str0)]).launch 2 = none) ∧
    (Begins (sPre (preP 1) [(0, str0), (1, str0)]) 0 9 (begun (sPre (preP 1) [(0, str0), (1, str0)]) (preP 1)) (BitVec.ofNat 256 (preP 1)) ∧
      (sPre (preP 1) [(0, str0), (1, str0)]).launch 1 = some l0 ∧ ((sPre (preP 1) [(0, str0), (1, str0)]).stream 1).en = true ∧
      AtRest (sPre (preP 1) [(0, str0), (1, str0)]) l0 ∧ (l0.map.map Prod.snd).Nodup) ∧
    (sVict.launch 0 = some l0 ∧ (sVict.victims l0.part).head? = some 0 ∧ AtRest sVict l0 ∧ (sVict.stream 0).en = true ∧ (sVict.launches.map Prod.fst).Nodup) ∧
    (l0.stopping = false ∧ ((sEnd .primary 0).victims l0.part).head? ≠ some 0) := by
  refine ⟨⟨rfl, rfl, rfl, rfl, by decide +kernel, rfl, rfl⟩, ⟨by decide +kernel, some_of _ (by decide +kernel)⟩, by decide +kernel, rfl,
    ⟨begins_of _ _ _ (by decide +kernel), by decide⟩, ⟨begins_of _ _ _ (by decide +kernel), rfl⟩,
    ⟨begins_of _ _ _ (by decide +kernel), rfl, rfl, atRest_of _ _ (by decide +kernel), by decide⟩,
    ⟨rfl, by decide +kernel, atRest_of _ _ (by decide +kernel), rfl, by decide⟩, rfl, by decide +kernel⟩

/-- A launch of stream 0 in any state of its life; and stream 1 in another partition. -/
def sLife (l : Launch) : State := { sEnd .primary 0 with launches := [(0, l)] }
def sApart : State := sPre (preP 1) [(0, str0), (1, { str0 with part := 1 })]

theorem wit_kills :
    ((sLife { l0 with stopping := true }).launch 0 = some { l0 with stopping := true } ∧ ((sLife { l0 with stopping := true }).stream 0).en = true ∧
      ((sLife { l0 with stopping := true }).stream 0).detached = false) ∧
    ((sLife lWait).launch 0 = some lWait ∧ lWait.placed = false ∧ lWait.stopping = false ∧ lWait.saved = none) ∧
    ((sLife lSaved).launch 0 = some lSaved ∧ lSaved.placed = false ∧ lSaved.stopping = false ∧ lSaved.saved ≠ none ∧ lSaved.cpl = 0#64) ∧
    (∃ w, (uEnd 0x60000).engineWrite l0.part 0x60000 (natLe 16 (3 + l0.stale * 2 ^ 64 + l0.ltag.toNat * 2 ^ 96)) = some w) ∧
    (Begins sApart 0 9 (begun sApart (preP 1)) (BitVec.ofNat 256 (preP 1)) ∧ Sys2Proof.Claims.field (BitVec.ofNat 256 (preP 1)) 1 1 ≠ 0 ∧
      (sApart.stream (Sys2Proof.Claims.field (BitVec.ofNat 256 (preP 1)) 1 1)).part ≠ (sApart.stream 0).part) := by
  exact ⟨⟨rfl, rfl, rfl⟩, ⟨rfl, rfl, rfl, rfl⟩, ⟨rfl, rfl, rfl, by decide, rfl⟩, some_of _ (by decide +kernel), begins_of _ _ _ (by decide +kernel), by decide, by decide⟩

/-- Loads of the Mantel: past its end, of a bank that is not held, while a launch holds the die, and of 64 bytes at once. -/
def wsP (src off len : Nat) : Nat := 4 + src * 2 ^ 64 + off * 2 ^ 128 + len * 2 ^ 160
def sWs (p : Nat) (mask : Word) (busy : Bool) (pos : Nat) : State :=
  let s := { sQ p with streams := [(0, { str0 with busy := busy, cmd := if busy then BitVec.ofNat 256 p else 0, wsPos := pos })] }
  s.modPart 0 (fun q => { q with wsmask := [(0, mask)] })
def sHeld : State := { sWs (wsP 0x60000 0 64) 1 false 0 with launches := [(0, { l0 with map := [(0, 0)] })] }

theorem wit_weightStores :
    (Begins (sWs (wsP 0 0x3FFFFFC0 128) 0 false 0) 0 4 (begun (sWs (wsP 0 0x3FFFFFC0 128) 0 false 0) (wsP 0 0x3FFFFFC0 128)) (BitVec.ofNat 256 (wsP 0 0x3FFFFFC0 128)) ∧
      2 ^ 30 < Sys2Proof.Claims.field (BitVec.ofNat 256 (wsP 0 0x3FFFFFC0 128)) 16 4 + Sys2Proof.Claims.field (BitVec.ofNat 256 (wsP 0 0x3FFFFFC0 128)) 20 4) ∧
    (Begins (sWs (wsP 0 0xFFFFC0 128) 1 false 0) 0 4 (begun (sWs (wsP 0 0xFFFFC0 128) 1 false 0) (wsP 0 0xFFFFC0 128)) (BitVec.ofNat 256 (wsP 0 0xFFFFC0 128)) ∧
      Sys2Proof.Claims.field (BitVec.ofNat 256 (wsP 0 0xFFFFC0 128)) 16 4 / 2 ^ 24 ≤ 1 ∧ 1 * 2 ^ 24 < 0xFFFFC0 + 128 ∧
      (Tab.get 0 0 ((begun (sWs (wsP 0 0xFFFFC0 128) 1 false 0) (wsP 0 0xFFFFC0 128)).part 0).wsmask).getLsbD 1 = false) ∧
    (Begins (sWs (wsP 0x60000 0 64) 1 false 0) 0 4 (begun (sWs (wsP 0x60000 0 64) 1 false 0) (wsP 0x60000 0 64)) (BitVec.ofNat 256 (wsP 0x60000 0 64)) ∧
      (∀ b, 0 ≤ b → b * 2 ^ 24 < 0 + 64 → b < 64 →
        (Tab.get 0 0 ((begun (sWs (wsP 0x60000 0 64) 1 false 0) (wsP 0x60000 0 64)).part 0).wsmask).getLsbD b = true) ∧
      (begun (sWs (wsP 0x60000 0 64) 1 false 0) (wsP 0x60000 0 64)).holdsDie 0 0 = false) ∧
    (Begins sHeld 0 4 (begun sHeld (wsP 0x60000 0 64)) (BitVec.ofNat 256 (wsP 0x60000 0 64)) ∧ (begun sHeld (wsP 0x60000 0 64)).holdsDie 0 0 = true) ∧
    (InProgress (sWs (wsP 0x60000 0 64) 1 true 0) 0 4 (BitVec.ofNat 256 (wsP 0x60000 0 64)) ∧ ((sWs (wsP 0x60000 0 64) 1 true 0).stream 0).wsPos = 0 ∧
      (sWs (wsP 0x60000 0 64) 1 true 0).holdsDie 0 0 = false) ∧
    (InProgress (sWs (wsP 0x60000 0 64) 1 true 1) 0 4 (BitVec.ofNat 256 (wsP 0x60000 0 64)) ∧ ((sWs (wsP 0x60000 0 64) 1 true 1).stream 0).wsPos ≠ 0 ∧
      (List.replicate 64 0#8).length = Sys2Proof.Claims.field (BitVec.ofNat 256 (wsP 0x60000 0 64)) 20 4 ∧
      ∀ i, i < (List.replicate 64 0#8).length → (sWs (wsP 0x60000 0 64) 1 true 1).engineRead 0 ((0x60000 + i) % 2 ^ 64) 1 = some [(List.replicate 64 0#8).getD i 0]) := by
  refine ⟨⟨begins_of _ _ _ (by decide +kernel), by decide +kernel⟩, ⟨begins_of _ _ _ (by decide +kernel), by decide +kernel, by decide, by decide +kernel⟩,
    ⟨begins_of _ _ _ (by decide +kernel), ?_, by decide +kernel⟩, ⟨begins_of _ _ _ (by decide +kernel), by decide +kernel⟩,
    ⟨⟨rfl, rfl, rfl, rfl, by decide +kernel⟩, rfl, by decide +kernel⟩, ⟨rfl, rfl, rfl, rfl, by decide +kernel⟩, by decide, by decide +kernel, ?_⟩
  · intro b _ hb _
    have : b = 0 := by omega
    subst this; decide +kernel
  · have h : ∀ i : Fin 64, (sWs (wsP 0x60000 0 64) 1 true 1).engineRead 0 ((0x60000 + i.val) % 2 ^ 64) 1 = some [(List.replicate 64 0#8).getD i.val 0] := by decide +kernel
    intro i hi
    exact h ⟨i, by simpa using hi⟩

/-- A task descriptor of 16 bytes at 0x60000; a graph of two nodes, the second after the first, in which the first copies 16 bytes, or
reads a page that is not mapped; and a graph without nodes. -/
def tgAddP : Nat := 5 + 15 * 2 ^ 8 + 63 * 2 ^ 16 + 0x60000 * 2 ^ 64
def tgRunP : Nat := 6
def sAdd : State := (sQ tgAddP).setBytes .dram (bootPage + 0x60000) (natLe 64 (0x61000 + 0x62000 * 2 ^ 64 + 16 * 2 ^ 128))
def tn (src : Word) (succ : Word) (cnt : Nat) : TgNode := ⟨src, 0x62000, 16, succ, 0, 0, cnt⟩
def sGraph (nodes : Tab TgNode) : State := { sQ tgRunP with streams := [(0, { str0 with nodes := nodes })] }
def sTask (src : Word) : State :=
  { sQ0 with streams := [(0, { str0 with busy := true, st := .run, cmd := 6, nodes := [(0, tn src 2 0), (1, tn 0x63000 0 1)], tgLeft := [(0, 0), (1, 1)] })] }

theorem wit_taskGraphs :
    (Begins sAdd 0 5 (begun sAdd tgAddP) (BitVec.ofNat 256 tgAddP) ∧
      (begun sAdd tgAddP).engineRead 0 0x60000 64 = some (natLe 64 (0x61000 + 0x62000 * 2 ^ 64 + 16 * 2 ^ 128))) ∧
    (Begins (sGraph []) 0 6 (begun (sGraph []) tgRunP) (BitVec.ofNat 256 tgRunP) ∧ ¬ ValidGraph ((begun (sGraph []) tgRunP).stream 0) 0) ∧
    (Begins (sGraph [(0, tn 0 2 0), (1, tn 0 0 1)]) 0 6 (begun (sGraph [(0, tn 0 2 0), (1, tn 0 0 1)]) tgRunP) (BitVec.ofNat 256 tgRunP) ∧
      ValidGraph ((begun (sGraph [(0, tn 0 2 0), (1, tn 0 0 1)]) tgRunP).stream 0) 0) ∧
    (InProgress (sTask 0x61000) 0 6 6#256 ∧ nodeOf ((sTask 0x61000).stream 0) 0 0 = some (tn 0x61000 2 0) ∧ Tab.find 0 ((sTask 0x61000).stream 0).tgLeft = some 0 ∧
      0 ∉ ((sTask 0x61000).stream 0).tgDone ∧ (sTask 0x61000).taskCluster ((sTask 0x61000).stream 0).part = true ∧
      ∃ u, (sTask 0x61000).runTask 0 (tn 0x61000 2 0) = (u, true) ∧ u.streams = (sTask 0x61000).streams) ∧
    (InProgress (sTask 0x10000000000) 0 6 6#256 ∧
      ∃ u, (sTask 0x10000000000).runTask 0 (tn 0x10000000000 2 0) = (u, false) ∧ u.streams = (sTask 0x10000000000).streams) := by
  refine ⟨⟨begins_of _ _ _ (by decide +kernel), by decide +kernel⟩, ⟨begins_of _ _ _ (by decide +kernel), ?_⟩, ⟨begins_of _ _ _ (by decide +kernel), ⟨0, by decide, by decide +kernel⟩, ?_, ?_⟩,
    ⟨⟨rfl, rfl, rfl, rfl, by decide⟩, rfl, rfl, by decide, by decide +kernel, _, Prod.ext rfl (by decide +kernel), by decide +kernel⟩,
    ⟨rfl, rfl, rfl, rfl, by decide⟩, _, Prod.ext rfl (by decide +kernel), by decide +kernel⟩
  · rintro ⟨⟨m, hm, h⟩, _⟩
    exact h rfl
  · have h : ∀ m : Fin 64, ∀ t ∈ nodeOf ((begun (sGraph [(0, tn 0 2 0), (1, tn 0 0 1)]) tgRunP).stream 0) 0 m.val,
        (∀ k : Fin 64, t.succ.getLsbD k.val = true → nodeOf ((begun (sGraph [(0, tn 0 2 0), (1, tn 0 0 1)]) tgRunP).stream 0) 0 k.val ≠ none) ∧
        t.cnt = ((List.range 64).filter (fun k => (nodeOf ((begun (sGraph [(0, tn 0 2 0), (1, tn 0 0 1)]) tgRunP).stream 0) 0 k).any (fun r => r.succ.getLsbD m.val))).length := by
      decide +kernel
    intro m t hm e
    exact ⟨fun k hk => (h ⟨m, hm⟩ t e).1 ⟨k, hk⟩, (h ⟨m, hm⟩ t e).2⟩
  · have h : ∀ m : Fin 64, ∀ t ∈ nodeOf ((begun (sGraph [(0, tn 0 2 0), (1, tn 0 0 1)]) tgRunP).stream 0) 0 m.val, ∀ k : Fin 64, t.succ.getLsbD k.val = true → m.val < k.val := by
      decide +kernel
    exact ⟨id, fun m k t hm hk e hs => h ⟨m, hm⟩ t e ⟨k, hk⟩ hs⟩

/-! ## Hypotheses that are met: the register window, partitions and streams -/

theorem wit_registerWrites :
    (0x1C % 8 ≠ 0) ∧ ((0x11000 ≤ 0x1FFF8 ∧ 0x1FFF8 < 0x20000) ∧ (0x28000 : Nat) < 0x30000 ∧ (0x41000 : Nat) < 0x1000000 ∧ (0x2000 ≤ 0xFFF8 ∧ 0xFFF8 < 0x10000)) ∧
    (400 ≤ (400#64).toNat % 2048 ∧ (1800#64).toNat % 2048 ≤ 1800) ∧ (399#64).toNat % 2048 < 400 ∧ 1800 < (1801#64).toNat % 2048 ∧
    ((0x20000 : Nat) = 0x20000 + 0x1000 * (0 : Fin 8).val ∧ (0x27000 : Nat) = 0x20000 + 0x1000 * (7 : Fin 8).val ∧
      ∃ t, exec (.registerWrite (0x27000 + 0x28) (BitVec.allOnes 64)) State.reset = .next t) := by
  exact ⟨by decide, by decide, by decide, by decide, by decide, by decide, by decide, _, rfl⟩

/-- Partition 0 enabled with cluster 0, which its launch holds; partition 1 enabled with cluster 1 and bank 5 of die 3. -/
def sParts : State := { s0 with parts := [(0, { Part.reset with en := true, clmask := 1#32 }), (1, { Part.reset with en := true, clmask := 2#32, wsmask := [(3, 0x20#64)] })] }
def withPcfg (s : State) (p : Nat) (v : Word) : Part :=
  { s.part p with
    en := v.getLsbD 63, clmask := BitVec.ofNat 32 v.toNat,
    lastPlaced := if (s.part p).en = false ∧ v.getLsbD 63 = true then [] else (s.part p).lastPlaced }

theorem wit_partitions :
    Refused sParts 0 (withPcfg sParts 0 0x8000000000000003#64) ∧ Refused sParts 0 (withPcfg sParts 0 0x8000000000000000#64) ∧
    ¬ Refused sParts 0 (withPcfg sParts 0 0x8000000000000005#64) ∧
    Refused sParts 0 { sParts.part 0 with wsmask := Tab.put 3 0x20#64 (sParts.part 0).wsmask } ∧
    ¬ Refused sParts 0 { sParts.part 0 with wsmask := Tab.put 3 0x40#64 (sParts.part 0).wsmask } ∧
    ((0, l0) ∈ sParts.launches ∧ l0.part = (0 : Fin 8).val ∧ ∀ n l, (n, l) ∈ sParts.launches → l.part ≠ (1 : Fin 8).val) ∧
    ((sParts.part 0).xinvBusy = false ∧ 2 ^ 30 = [2 ^ 12, 2 ^ 16, 2 ^ 21, 2 ^ 30].getD ((0x300#64).toNat / 2 ^ 8 % 4) 0) ∧
    ({ Part.reset with xinvBusy := true }.xinvBusy = true) := by
  refine ⟨.inl ⟨by decide, 1, by decide, by decide, by decide, .inl ⟨1, by decide, by decide, by decide⟩⟩,
    .inr (.inl ⟨0, by decide, by decide, by decide, by decide⟩), ?_, .inl ⟨by decide, 1, by decide, by decide, by decide, .inr ⟨3, 5, by decide, by decide, by decide, by decide⟩⟩, ?_,
    ⟨by simp [sParts, s0, withCtx], rfl, ?_⟩, ⟨rfl, by decide⟩, rfl⟩
  · have h1 : ∀ o : Fin 8, o.val = 0 ∨ (sParts.part o.val).en = false ∨
        ((∀ c : Fin 32, ¬ ((sParts.part o.val).clmask.getLsbD c.val = true ∧ (withPcfg sParts 0 0x8000000000000005#64).clmask.getLsbD c.val = true)) ∧
          ∀ d : Fin 4, ∀ b : Fin 64, bank (withPcfg sParts 0 0x8000000000000005#64) d.val b.val = false) := by decide +kernel
    have h2 : ∀ c : Fin 32, ¬ ((sParts.part 0).clmask.getLsbD c.val = true ∧ (withPcfg sParts 0 0x8000000000000005#64).clmask.getLsbD c.val = false) := by decide +kernel
    have h3 : ∀ c : Fin 32, ∀ o : Fin 8, o.val = 0 ∨ sParts.heldBy o.val c.val = false := by decide +kernel
    have h4 : ∀ d : Fin 4, ∀ b : Fin 64, bank (sParts.part 0) d.val b.val = false ∧ bank (withPcfg sParts 0 0x8000000000000005#64) d.val b.val = false := by decide +kernel
    rintro (⟨_, o, ho, hne, he, ⟨c, hc, a, b⟩ | ⟨d, b, hd, hb, a, e⟩⟩ | ⟨c, hc, a, b, _⟩ | ⟨c, o, hc, ho, hne, _, _, h⟩ | ⟨d, b, hd, hb, a, _⟩ | ⟨d, b, o, hd, hb, _, _, _, e, _⟩)
    · rcases h1 ⟨o, ho⟩ with e | e | e
      · exact hne e
      · rw [e] at he; cases he
      · exact e.1 ⟨c, hc⟩ ⟨a, b⟩
    · rw [(h4 ⟨d, hd⟩ ⟨b, hb⟩).2] at e; cases e
    · exact h2 ⟨c, hc⟩ ⟨a, b⟩
    · rcases h3 ⟨c, hc⟩ ⟨o, ho⟩ with e | e
      · exact hne e
      · rw [e] at h; cases h
    · rw [(h4 ⟨d, hd⟩ ⟨b, hb⟩).1] at a; cases a
    · rw [(h4 ⟨d, hd⟩ ⟨b, hb⟩).2] at e; cases e
  · have h1 : ∀ o : Fin 8, o.val = 0 ∨ (sParts.part o.val).en = false ∨
        ((∀ c : Fin 32, ¬ ((sParts.part o.val).clmask.getLsbD c.val = true ∧ (sParts.part 0).clmask.getLsbD c.val = true)) ∧
          ∀ d : Fin 4, ∀ b : Fin 64, ¬ (bank (sParts.part o.val) d.val b.val = true ∧
            bank { sParts.part 0 with wsmask := Tab.put 3 0x40#64 (sParts.part 0).wsmask } d.val b.val = true)) := by decide +kernel
    have h3 : ∀ d : Fin 4, ∀ b : Fin 64, bank (sParts.part 0) d.val b.val = false := by decide +kernel
    have h4 : ∀ d : Fin 4, ∀ b : Fin 64, ∀ o : Fin 8, o.val = 0 ∨ bank { sParts.part 0 with wsmask := Tab.put 3 0x40#64 (sParts.part 0).wsmask } d.val b.val = false ∨
        sParts.bankHeld o.val d.val b.val = false := by decide +kernel
    rintro (⟨_, o, ho, hne, he, ⟨c, hc, a, b⟩ | ⟨d, b, hd, hb, a, e⟩⟩ | ⟨c, hc, a, b, _⟩ | ⟨c, o, hc, ho, hne, a, b, _⟩ | ⟨d, b, hd, hb, a, _⟩ | ⟨d, b, o, hd, hb, ho, hne, _, e, h⟩)
    · rcases h1 ⟨o, ho⟩ with e | e | e
      · exact hne e
      · rw [e] at he; cases he
      · exact e.1 ⟨c, hc⟩ ⟨a, b⟩
    · rcases h1 ⟨o, ho⟩ with e' | e' | e'
      · exact hne e'
      · rw [e'] at he; cases he
      · exact e'.2 ⟨d, hd⟩ ⟨b, hb⟩ ⟨a, e⟩
    · exact absurd (a.symm.trans b) (by decide)
    · exact absurd (a.symm.trans b) (by decide)
    · rw [h3 ⟨d, hd⟩ ⟨b, hb⟩] at a; cases a
    · rcases h4 ⟨d, hd⟩ ⟨b, hb⟩ ⟨o, ho⟩ with e' | e' | e'
      · exact hne e'
      · rw [e'] at e; cases e
      · rw [e'] at h; cases h
  · intro n l h
    have h' : (n, l) ∈ [(0, l0)] := h
    simp only [List.mem_singleton, Prod.mk.injEq] at h'
    rw [h'.2]; decide

theorem wit_streams : (State.reset.stream (15 : Fin 16).val).en = false ∧ ({ State.reset with streams := [(0, { Stream.reset with en := true })] }.stream 0).en = true := by
  decide

/-! ## Hypotheses that are met: egress, event logs, host accesses, ports -/

def rec1 (serial : Nat) : ChimRec := ⟨1, 2, 0, 5, 9, serial⟩
def frame1 (die n : Nat) : Frame := ⟨die, 5, 9, 7, 0, List.replicate n (1, 2)⟩
def egPart (build closed : Option Frame) : Part := { Part.reset with egen := true, eglsize := 12, build := build, closed := closed }
def sEg (p : Part) (recs : List ChimRec) : State := { s0 with parts := [(0, p)], dies := [(0, { Die.reset with chim := recs })] }

theorem wit_chimney :
    ((sEg Part.reset []).die (0 : Fin 4).val).chim = [] ∧ ((sEg Part.reset [rec1 7]).die 0).chim = rec1 7 :: [] ∧ ((sEg Part.reset [rec1 7]).part (rec1 7).part).egen = false ∧
    (((sEg (egPart none none) [rec1 7]).part 0).egen = true ∧ ((sEg (egPart none none) [rec1 7]).part 0).build = none) ∧
    (((sEg (egPart (some (frame1 0 63)) none) [rec1 7]).part 0).build = some (frame1 0 63) ∧ Joins { frame1 0 63 with rseq := 5 } 0 68 (rec1 7)) ∧
    (¬ Joins (frame1 1 1) 0 8 (rec1 7) ∧ ¬ Joins (frame1 0 64) 0 71 (rec1 7) ∧ ((sEg (egPart (some (frame1 1 1)) (some (frame1 1 1))) [rec1 7]).part 0).closed ≠ none ∧
      ((sEg (egPart (some (frame1 1 1)) none) [rec1 7]).part 0).closed = none) := by unfold Joins; decide

/-- An egress ring of 4 KiB with a frame at its start that the host has not consumed, and a log with a record at its start. -/
def ringPart (pos cons : Nat) : Part :=
  { egPart none (some (frame1 0 1)) with egpos := pos, egcons := BitVec.ofNat 64 cons, egseqs := [(0, 64, 3)], elen := true, ellsize := 12, elrecs := [(0, 1)] }
def sLog (cons : Word) (e : EvRec) : State :=
  (sEg { ringPart 0 0 with elcons := cons } []).modDie 0 (fun d => { d with arb := [e, ⟨1, none, 0, none, 0, 0⟩] })

theorem wit_frames :
    ((sEg (ringPart 64 0) []).part 0 = ringPart 64 0 ∧ (ringPart 64 0).closed = some (frame1 0 1) ∧ (ringPart 64 0).egen = true ∧
      frameLen (frame1 0 1) ≤ 2 ^ (ringPart 64 0).eglsize - (ringPart 64 0).egpos ∧ RingFree (ringPart 64 0) (frameLen (frame1 0 1))) ∧
    (2 ^ (ringPart 4064 0).eglsize - (ringPart 4064 0).egpos < frameLen (frame1 0 1) ∧ RingFree (ringPart 4064 0) (2 ^ (ringPart 4064 0).eglsize - (ringPart 4064 0).egpos)) ∧
    (RingFree (ringPart 0 3) 64 ∧ ¬ RingFree (ringPart 0 2) (min (frameLen (frame1 0 1)) (2 ^ (ringPart 0 2).eglsize - (ringPart 0 2).egpos))) ∧
    ((sEg Part.reset []).part 0).closed = none := by
  unfold RingFree; decide

theorem wit_logs :
    (((sLog 0 ⟨1, some 0, 0, none, 0, 0⟩).die (0 : Fin 4).val).arb = [⟨1, some 0, 0, none, 0, 0⟩] ++ ⟨1, none, 0, none, 0, 0⟩ :: [] ∧
      (∀ r ∈ [EvRec.mk 1 (some 0) 0 none 0 0], ¬ CanLog (sLog 0 ⟨1, some 0, 0, none, 0, 0⟩) r) ∧ CanLog (sLog 0 ⟨1, some 0, 0, none, 0, 0⟩) ⟨1, none, 0, none, 0, 0⟩) ∧
    (((sLog 1 ⟨1, some 0, 0, none, 0, 0⟩).die 0).arb = [] ++ ⟨1, some 0, 0, none, 0, 0⟩ :: [⟨1, none, 0, none, 0, 0⟩] ∧
      CanLog (sLog 1 ⟨1, some 0, 0, none, 0, 0⟩) ⟨1, some 0, 0, none, 0, 0⟩ ∧ ((sLog 1 ⟨1, some 0, 0, none, 0, 0⟩).part 0).elen = true) ∧
    (CanLog s0 ⟨1, some 0, 0, none, 0, 0⟩ ∧ (s0.part 0).elen = false) ∧ (∀ e ∈ ((s0.die (0 : Fin 4).val).arb), ¬ CanLog s0 e) := by
  refine ⟨⟨rfl, ?_, fun p h => by cases h⟩, ⟨rfl, ?_, rfl⟩, ⟨fun p h e => ?_, rfl⟩, fun e h => absurd h List.not_mem_nil⟩
  · intro r hr h
    rw [List.mem_singleton.mp hr] at h
    exact absurd (h 0 rfl (by decide) (0, 1) (by decide)) (by decide)
  · intro p h _ r hr
    cases h
    have hr' : r ∈ [(0, 1)] := hr
    rw [List.mem_singleton.mp hr']
    exact .inl (by decide)
  · cases h; exact absurd e (by decide)

/-- A frame in build closes where its partition has no further record in the Chimney or it is full; another does not. -/
theorem wit_egressControls :
    (((sEg (egPart (some (frame1 0 1)) none) []).part 0).build = some (frame1 0 1) ∧ ((sEg (egPart (some (frame1 0 1)) none) []).part 0).closed = none ∧
      ∀ r ∈ ((sEg (egPart (some (frame1 0 1)) none) []).die (frame1 0 1).die).chim, r.part ≠ 0) ∧
    (64 ≤ (frame1 0 64).recs.length ∧ (sEg Part.reset []).part 0 = Part.reset ∧ Part.reset.build = none) ∧
    (((sEg (egPart (some (frame1 0 1)) none) [⟨1, 2, 0, 5, 9, 7⟩]).part 0).build = some (frame1 0 1) ∧ (frame1 0 1).recs.length < 64 ∧
      ∃ r ∈ ((sEg (egPart (some (frame1 0 1)) none) [⟨1, 2, 0, 5, 9, 7⟩]).die (frame1 0 1).die).chim, r.part = 0) := by decide

theorem wit_hostAccess : 0 + 0 ≤ 360 * 2 ^ 30 ∧ (360 * 2 ^ 30 - 64) + (List.replicate 64 (0#8)).length ≤ 360 * 2 ^ 30 := by decide

theorem natLe_add (n v m : Nat) : natLe n (v + 2 ^ (8 * n) * m) = natLe n v := by
  induction n generalizing v with
  | zero => rfl
  | succ n ih =>
    have e : v + 2 ^ (8 * (n + 1)) * m = v + 256 * (2 ^ (8 * n) * m) := by
      have : 2 ^ (8 * (n + 1)) = 256 * 2 ^ (8 * n) := by rw [Nat.mul_add, Nat.pow_add]; omega
      rw [this, Nat.mul_assoc]
    have d : (v + 256 * (2 ^ (8 * n) * m)) / 256 = v / 256 + 2 ^ (8 * n) * m := by omega
    have h : BitVec.ofNat 8 (v + 256 * (2 ^ (8 * n) * m)) = BitVec.ofNat 8 v := by
      apply BitVec.eq_of_toNat_eq; simp [BitVec.toNat_ofNat]
    simp only [natLe]
    rw [e, d, ih, h]

/-- A flit of 248 bytes `x` and a check code. -/
def flit (x : Nat) (c : Word) : BitVec 2048 := BitVec.ofNat 2048 (x + 2 ^ 1984 * c.toNat)

set_option exponentiation.threshold 2100 in
theorem flit_toNat (x : Nat) (c : Word) (h : x < 2 ^ 1984) : (flit x c).toNat = x + 2 ^ 1984 * c.toNat := by
  have hc := c.isLt
  have e : (2 : Nat) ^ 2048 = 2 ^ 1984 * 2 ^ 64 := (Nat.pow_add 2 1984 64)
  rw [flit, BitVec.toNat_ofNat, Nat.mod_eq_of_lt]
  rw [e]
  calc x + 2 ^ 1984 * c.toNat < 2 ^ 1984 + 2 ^ 1984 * c.toNat := Nat.add_lt_add_right h _
    _ = 2 ^ 1984 * (c.toNat + 1) := by rw [Nat.mul_add, Nat.mul_one, Nat.add_comm]
    _ ≤ 2 ^ 1984 * 2 ^ 64 := Nat.mul_le_mul_left _ hc

theorem low_bits (x c n k m : Nat) (h : k + m ≤ n) : (x + 2 ^ n * c) / 2 ^ k % 2 ^ m = x / 2 ^ k % 2 ^ m := by
  obtain ⟨r, rfl⟩ := Nat.exists_eq_add_of_le h
  rw [Nat.pow_add, Nat.pow_add, Nat.mul_assoc, Nat.mul_assoc, Nat.add_mul_div_left _ _ (Nat.two_pow_pos _), Nat.add_mul_mod_self_left]

set_option exponentiation.threshold 2100 in
theorem flit_crc (x : Nat) (c : Word) (h : x < 2 ^ 1984) : (crc64 (natLe 248 (flit x c).toNat)).toNat = (flit x c).toNat / 2 ^ 1984 ↔ crc64 (natLe 248 x) = c := by
  have e : (x + 2 ^ 1984 * c.toNat) / 2 ^ 1984 = c.toNat := by
    rw [Nat.add_mul_div_left _ _ (Nat.two_pow_pos _), Nat.div_eq_of_lt h, Nat.zero_add]
  rw [flit_toNat x c h, e, natLe_add 248 x c.toNat]
  exact ⟨fun h => BitVec.eq_of_toNat_eq h, fun h => by rw [h]⟩

set_option exponentiation.threshold 2100 in
theorem good_of (x typ cr : Nat) (seq ack : BitVec 12) (h : x < 2 ^ 128) (ht : x / 2 ^ 24 % 2 ^ 4 = typ) (hs : seq = BitVec.ofNat 12 x)
    (ha : ack = BitVec.ofNat 12 (x / 2 ^ 12)) (hc : cr = x / 2 ^ 28 % 2 ^ 8) : Good (flit x (crc64 (natLe 248 x))) typ seq ack cr := by
  have h' : x < 2 ^ 1984 := Nat.lt_of_lt_of_le h (Nat.pow_le_pow_right (by decide) (by decide))
  refine ⟨(flit_crc x _ h').mpr rfl, ?_, ?_, ?_, ?_⟩
  · rw [flit_toNat x _ h', low_bits _ _ _ _ _ (by decide), ht]
  · rw [hs, flit_toNat x _ h']
    apply BitVec.eq_of_toNat_eq
    have := low_bits x (crc64 (natLe 248 x)).toNat 1984 0 12 (by decide)
    simpa using this.symm
  · rw [ha, flit_toNat x _ h']
    apply BitVec.eq_of_toNat_eq
    rw [BitVec.toNat_ofNat, BitVec.toNat_ofNat, low_bits _ _ _ _ _ (by decide)]
  · rw [hc, flit_toNat x _ h', low_bits _ _ _ _ _ (by decide)]

/-- A flit with sequence number `n`, of a type; it acknowledges 3 and gives 2 credits. -/
def flitX (n typ : Nat) : Nat := n + 3 * 2 ^ 12 + typ * 2 ^ 24 + 2 * 2 ^ 28 + 77 * 2 ^ 64

/-- Ports that are off, in training, UP and failed. -/
def port1 (st : PortSt) : Port := { Port.reset with en := st != .down, st := st, rxSeq := 4, replay := [2#2048, 4#2048] }
def sPort (p : Port) : State := { State.reset with ports := [(0, p)] }

set_option exponentiation.threshold 2100 in
/-- Among them a data flit in order, one after a gap, a repeated one, one that is damaged, and those of other types. -/
theorem wit_ports :
    (((sPort (port1 .down)).port 0).en = false ∧ ((sPort (port1 .train)).port 0).en = true ∧ ((sPort (port1 .train)).port 0).st = .train) ∧
    ((∀ q ∈ (sPort (port1 .up)).cores, ∀ c ∈ q.2.ch, c.2.copies = []) ∧ (∀ q ∈ (sPort (port1 .up)).launches, q.2.saved = none) ∧
      ((sPort (port1 .up)).die ((0 : Fin 16).val / 4)).arb.length < 1024 ∧ ((sPort (port1 .up)).port 0).st = .up ∧
      ((sPort (port1 .down)).port 0).st = .down ∧ ((sPort (port1 .fail)).port 0).st = .fail) ∧
    ((port1 .up).txq = [] ∧ ∃ f, Good f 1 ((port1 .up).rxSeq + 1#12) 3 2) ∧
    (∃ f, Good f 1 6 3 2 ∧ 6 ≠ (port1 .up).rxSeq + 1#12 ∧ ((6 - (port1 .up).rxSeq).toNat < 2048 ∧ 6 ≠ (port1 .up).rxSeq ∧ (port1 .up).nak = false)) ∧
    (∃ f, Good f 1 4 3 2 ∧ 4 ≠ (port1 .up).rxSeq + 1#12 ∧ ¬ ((4 - (port1 .up).rxSeq).toNat < 2048 ∧ 4 ≠ (port1 .up).rxSeq ∧ (port1 .up).nak = false)) ∧
    (∃ f, Good f 0 4 3 2) ∧ (∃ f, Good f 3 4 3 2) ∧
    (∃ f : BitVec 2048, (crc64 (natLe 248 f.toNat)).toNat ≠ f.toNat / 2 ^ 1984) ∧
    ({ port1 .up with txq := [5] }.txq = [5#1920] ∧ 0 < (port1 .up).credits + 2 ∧ (after 3 (port1 .up).replay).length < 2048) ∧
    ((settled (port1 .up) 4).replay = [] ∧ (settled (port1 .up) 3).replay ≠ [] ∧ (settled (port1 .up) 3).tries < 16 ∧
      (settled (port1 .up) 3).idle + (settled (port1 .up) 3).replay.length < 2 ^ 24) ∧
    ((settled { port1 .up with tries := 16 } 1).replay ≠ [] ∧ 16 ≤ (settled { port1 .up with tries := 16 } 1).tries) := by
  refine ⟨by decide, by decide, ⟨rfl, _, good_of (flitX 5 1) 1 2 _ _ (by decide) (by decide) (by decide) (by decide) (by decide)⟩,
    ⟨_, good_of (flitX 6 1) 1 2 _ _ (by decide) (by decide) (by decide) (by decide) (by decide), by decide, by decide⟩,
    ⟨_, good_of (flitX 4 1) 1 2 _ _ (by decide) (by decide) (by decide) (by decide) (by decide), by decide, by decide⟩,
    ⟨_, good_of (flitX 4 0) 0 2 _ _ (by decide) (by decide) (by decide) (by decide) (by decide)⟩,
    ⟨_, good_of (flitX 4 3) 3 2 _ _ (by decide) (by decide) (by decide) (by decide) (by decide)⟩,
    ⟨flit (flitX 5 1) (crc64 (natLe 248 (flitX 5 1)) + 1#64), fun h => ?_⟩, ⟨rfl, by decide, by decide +kernel⟩, by decide +kernel, by decide +kernel⟩
  have e := (flit_crc _ _ (Nat.lt_of_lt_of_le (show flitX 5 1 < 2 ^ 128 by decide) (Nat.pow_le_pow_right (by decide) (by decide)))).mp h
  generalize crc64 (natLe 248 (flitX 5 1)) = c at e
  have := c.isLt
  bv_omega

/-! ## Hypotheses that are met: errors, telemetry, power and the mailbox -/

theorem wit_errors :
    (zoneOf (dramBase / 64 * 64) = .data (0 : Fin 4).val 0 ∧ (State.reset.die 0).arb.length < 1024) ∧
    (zoneOf ((dramBase + dieData) / 64 * 64) = .carve (0 : Fin 4).val 0 ∧ 0 + 60 < dieData / 16 ∧ (State.reset.die ((31 : Fin 32).val / 8)).arb.length < 1024) ∧
    (Tab.get 0 (eccCode (.mantel 3 63)).1 (State.reset.die (eccDie (.mantel 3 63))).ecc + 1) % 2 ^ 16 ≠ 0 ∧
    (let s := State.reset.modDie 3 (fun d => { d with ecc := [((eccCode (.mantel 3 63)).1, 65535)] })
     (Tab.get 0 (eccCode (.mantel 3 63)).1 (s.die (eccDie (.mantel 3 63))).ecc + 1) % 2 ^ 16 = 0 ∧ (s.die (eccDie (.mantel 3 63))).arb.length < 1024) ∧
    ((State.reset.die (dieOf (1023 : Fin 1024).val)).arb.length < 1024 ∧ (State.reset.core ((1023 : Fin 1024).val / 4)).launch = none) ∧
    ∀ d, d < 4 → (State.reset.die d).arb.length < 1024 := by
  refine ⟨by decide +kernel, by decide +kernel, by decide +kernel, by decide +kernel, by decide +kernel, fun d hd => ?_⟩
  have h : ∀ d : Fin 4, (State.reset.die d.val).arb.length < 1024 := by decide
  exact h ⟨d, hd⟩

def sClk (clk cool : Nat) : State := State.reset.modDie 0 (fun d => { d with clk := clk, cool := cool })
def Hot (temp watts : BitVec 32) : Prop := ({ State.reset with watts := watts }.pwrcap.toNat < watts.toNat) ∨ 100 < temp.toNat

/-- Clocks at both ends; a machine that is on and one that is not. Whether the signature of an image verifies is the package's own
(log 30): for every image one of the two clauses applies. -/
theorem wit_power :
    (((sClk 2000 0).die 0).arb.length < 1024 ∧ 1000 < ((sClk 2000 0).die 0).clk ∧ ((sClk 2000 0).die 0).clk ≤ 2000 ∧ ((sClk 2000 0).die 0).clk % 125 = 0) ∧
    ((sClk 1000 0).die 0).clk ≤ 1000 ∧ (((sClk 1000 (2 ^ 20)).die 0).clk < 2000 ∧ ((sClk 1000 (2 ^ 20)).die 0).clk % 125 = 0 ∧ 2 ^ 20 ≤ ((sClk 1000 (2 ^ 20)).die 0).cool) ∧
    (2000 ≤ ((sClk 2000 (2 ^ 20)).die 0).clk ∧ ((sClk 1000 (2 ^ 20 - 1)).die 0).cool < 2 ^ 20) ∧
    (Hot 101 0 ∧ Hot 0 1801 ∧ ¬ Hot 100 1800) ∧ (s0.power = .on ∧ s0.ready = true) ∧ (¬ (State.reset.power = .on ∧ (State.reset.ready = true ∨ State.reset.recov = true))) ∧
    { State.reset with power := .off }.power ≠ .on ∧ ({ State.reset with power := .on, ready := false, recov := false }.power = .on) ∧
    (∀ img : List Byte, Config.signatureOk img = true ∨ Config.signatureOk img = false) := by
  refine ⟨by decide, by decide, by decide, by decide, by unfold Hot; decide, ⟨rfl, rfl⟩, by decide, by decide, rfl, fun img => ?_⟩
  cases Config.signatureOk img
  · exact .inr rfl
  · exact .inl rfl

theorem wit_mailbox :
    (s0.power = .on ∧ s0.mbbusy = false) ∧ ((BitVec.ofNat 64 dramBase).toNat < 2 ^ 56 ∧ ∀ i, i < 4096 → inData ((BitVec.ofNat 64 dramBase).toNat + i) = true) ∧
    (∃ i, i < 4096 ∧ inData ((0#64).toNat + i) = false) ∧ ((0#64).toNat < 2 ^ 52 ∧ { State.reset with devlog := [⟨7, none, 0, none, 0, 0⟩] }.devlog.length ≤ 64) ∧
    ({ s0 with mbbusy := true, mbop := 1 }.mbbusy = true ∧ { s0 with mbbusy := true, mbop := 1 }.mbop = 1#8) := by
  refine ⟨⟨rfl, rfl⟩, ⟨by decide, fun i hi => ?_⟩, ⟨0, by decide, by decide +kernel⟩, by decide, rfl, rfl⟩
  have h : ∀ k : Fin 64, ∀ i : Fin 64, inData ((BitVec.ofNat 64 dramBase).toNat + (64 * k.val + i.val)) = true := by decide +kernel
  have := h ⟨i / 64, by omega⟩ ⟨i % 64, Nat.mod_lt _ (by decide)⟩
  simpa [Nat.div_add_mod] using this

/-! ## Hypotheses that are met: slots, steps, exceptions, decoding -/

/-- The condition b1, which is 0. -/
def off : Common := ⟨false, 1, false⟩

theorem wit_guardedOffSlots :
    (∃ f, facts (.add ⟨off, none, .q, .x 1, .x 4⟩) = some f ∧ s0.srcs none f.srcs = some (s0, [7#64, 0x8000000000000000#64]) ∧ s0.me.guardOn f.c = false ∧ (f.dst = some .q → s0.me.load.1 < 64)) ∧
    ∃ f, facts (.touch ⟨off, .x 1, .x 2, 0⟩) = some f ∧ s0.srcs none f.srcs = some (s0, [7#64, 0#64]) ∧ s0.me.guardOn f.c = false := by
  exact ⟨⟨_, rfl, rfl, rfl, fun _ => by decide⟩, _, rfl, rfl, rfl⟩

/-- A trap that names a handle, one after which slots are left, and one after which none is. -/
def trapX : Trap := { trapOf cIllop with hdl := some 63, ch := 3 }

theorem wit_exceptions :
    trapX.cause < 2 ^ 8 ∧ trapX.ch < 4 ∧ (∀ h, trapX.hdl = some h → h < 64) ∧ (trapOf cIllop).hdl = none ∧ (∀ p ∈ (s0.ctx 0).todo, p.1 < 8) ∧
    (∀ k, (s0.ctx 0).resume = some k → k < 8) ∧ (trapX.done = false ∧ trapX.fetch = false ∧ trapX.cause ≠ 1 ∧ (s0.ctx 0).todo.tail ≠ []) ∧
    ∃ k i l, (s0.ctx 0).todo = (k, i) :: l := by
  refine ⟨by decide, by decide, fun h e => ?_, rfl, by decide, fun k e => (by cases e), ⟨rfl, rfl, by decide, by decide⟩, _, _, _, rfl⟩
  cases e; decide

def sStep : State := { sIss with inbox := [.bundleIssue 0] }

theorem wit_steps :
    (∃ l b n, sIss.fetchLine 0 0 = .ok l ∧ (∀ p ∈ l, p.2 = false) ∧ (∃ h r, l = h :: r ∧ h.1 ≠ 0#8) ∧ decodeBundle (l.map Prod.fst) = .ok (b, n)) ∧
    (sStep.power = .on ∧ sStep.recov = false ∧ sStep.inbox = .bundleIssue 0 :: [] ∧ ∃ t, exec (.bundleIssue 0) { sStep with inbox := [] } = .next t ∧ t.power = .on) ∧
    (s0.me.runs = true ∧ ∃ k i l, s0.me.todo = (k, i) :: l) ∧ (sDue.me.todo = []) := by
  refine ⟨⟨_, _, _, got_eq [] _ (by decide +kernel), by decide +kernel, ?_, (got_eq ([], 0) _ (by decide +kernel)).trans (by rfl)⟩, ⟨rfl, rfl, rfl, _, rfl, by decide +kernel⟩,
    ⟨rfl, _, _, _, rfl⟩, rfl⟩
  cases e : got [] (sIss.fetchLine 0 0) with
  | nil => exact absurd e (by decide +kernel)
  | cons h r =>
    refine ⟨h, r, rfl, ?_⟩
    have := congrArg (fun l => (l.headD (0, false)).1) e
    simp only [List.headD_cons] at this
    rw [← this]
    decide +kernel

theorem wit_encoding :
    (Instr.add ⟨off, some 7#32, .q, .lit, .x 4⟩).wf = true ∧ (encode (.add ⟨off, some 7#32, .q, .lit, .x 4⟩)).isSome = true ∧
    (Instr.add ⟨off, some 7#32, .q, .lit, .x 4⟩).slotKind = some .s := by decide

theorem wit_canonical : s0.memWf ∧ ∃ t, step s0 = .next t := by
  refine ⟨by unfold State.memWf; decide, _, rfl⟩

/-! ## Words written out from the encodings

The common field is S = 1, GS = 5, GI = 1 (R191); a field of value `v` whose lowest bit is `o` is written `(o, v)`. -/

def cw : Common := ⟨true, 5, true⟩

/-- What the decoder reads in slot `k` from the fields, the common field and a literal. -/
def reads (k : Nat) (fields : List (Nat × Nat)) (lit : Lit := none) : Option Instr :=
  match decodeSlot k ((fields.map (fun f => f.2 * 2 ^ f.1)).sum + 0x1B) lit with
  | .ok i => some i
  | .error _ => none

/-- Form R: D 17:12, SA 23:18, SB 29:24, F2 31:30 (R197, R203). -/
theorem test_scalarWords :
    reads 1 [(12, 13), (18, 21), (24, 10)] = some (.add ⟨cw, none, .x 13, .x 21, .x 10⟩) ∧
    reads 1 [(6, 1), (12, 13), (18, 21), (24, 10)] = some (.sub ⟨cw, none, .x 13, .x 21, .x 10⟩) ∧
    reads 1 [(6, 2), (12, 13), (18, 21), (24, 10)] = some (.mul ⟨cw, none, .x 13, .x 21, .x 10⟩) ∧
    reads 1 [(6, 3), (12, 13), (18, 21), (24, 10)] = some (.mulh ⟨cw, none, .x 13, .x 21, .x 10⟩) ∧
    reads 1 [(6, 3), (12, 13), (18, 21), (24, 10), (30, 1)] = some (.mulhn ⟨cw, none, .x 13, .x 21, .x 10⟩) ∧
    reads 1 [(6, 4), (12, 13), (18, 21), (24, 10)] = some (.div ⟨cw, none, .x 13, .x 21, .x 10⟩) ∧
    reads 1 [(6, 4), (12, 13), (18, 21), (24, 10), (30, 1)] = some (.divn ⟨cw, none, .x 13, .x 21, .x 10⟩) ∧
    reads 1 [(6, 4), (12, 13), (18, 21), (24, 10), (30, 2)] = some (.rem ⟨cw, none, .x 13, .x 21, .x 10⟩) ∧
    reads 1 [(6, 4), (12, 13), (18, 21), (24, 10), (30, 3)] = some (.remn ⟨cw, none, .x 13, .x 21, .x 10⟩) ∧
    reads 1 [(6, 5), (12, 13), (18, 21), (24, 10)] = some (.and ⟨cw, none, .x 13, .x 21, .x 10⟩) ∧
    reads 1 [(6, 6), (12, 13), (18, 21), (24, 10)] = some (.or ⟨cw, none, .x 13, .x 21, .x 10⟩) ∧
    reads 1 [(6, 7), (12, 13), (18, 21), (24, 10)] = some (.xor ⟨cw, none, .x 13, .x 21, .x 10⟩) ∧
    reads 1 [(6, 8), (12, 13), (18, 21), (24, 10)] = some (.andn ⟨cw, none, .x 13, .x 21, .x 10⟩) ∧
    reads 1 [(6, 9), (12, 13), (18, 21), (24, 10)] = some (.shl ⟨cw, none, .x 13, .x 21, .x 10⟩) ∧
    reads 1 [(6, 9), (12, 13), (18, 21), (24, 10), (30, 1)] = some (.shr ⟨cw, none, .x 13, .x 21, .x 10⟩) ∧
    reads 1 [(6, 9), (12, 13), (18, 21), (24, 10), (30, 2)] = some (.sar ⟨cw, none, .x 13, .x 21, .x 10⟩) ∧
    reads 1 [(6, 9), (12, 13), (18, 21), (24, 10), (30, 3)] = some (.rol ⟨cw, none, .x 13, .x 21, .x 10⟩) ∧
    reads 1 [(6, 11), (12, 13), (18, 21), (24, 10)] = some (.min ⟨cw, none, .x 13, .x 21, .x 10⟩) ∧
    reads 1 [(6, 11), (12, 13), (18, 21), (24, 10), (30, 1)] = some (.max ⟨cw, none, .x 13, .x 21, .x 10⟩) ∧
    reads 1 [(6, 11), (12, 13), (18, 21), (24, 10), (30, 2)] = some (.minn ⟨cw, none, .x 13, .x 21, .x 10⟩) ∧
    reads 1 [(6, 11), (12, 13), (18, 21), (24, 10), (30, 3)] = some (.maxn ⟨cw, none, .x 13, .x 21, .x 10⟩) ∧
    reads 0 [(12, 32), (18, 52), (24, 41), (5, 1)] (some 0x80000001#32) = some (.add ⟨cw, some 0x80000001#32, .q, .lit, .q 9⟩) ∧
    reads 0 [(12, 36), (18, 51), (24, 47)] = some (.add ⟨cw, none, .mq 3, .mq 3, .q 15⟩) := by
  decide +kernel

/-- Form R with SA alone, forms C, L, I, G (R197, R203). -/
theorem test_unaryWords :
    reads 1 [(6, 10), (12, 13), (18, 21)] = some (.clz ⟨cw, none, .x 13, .x 21⟩) ∧
    reads 1 [(6, 10), (12, 13), (18, 21), (30, 1)] = some (.ctz ⟨cw, none, .x 13, .x 21⟩) ∧
    reads 1 [(6, 10), (12, 13), (18, 21), (30, 2)] = some (.popc ⟨cw, none, .x 13, .x 21⟩) ∧
    reads 1 [(6, 14), (12, 13), (18, 21)] = some (.mov ⟨cw, none, .x 13, .x 21⟩) ∧
    reads 1 [(6, 49), (12, 13), (18, 21)] = some (.seqsel ⟨cw, none, .x 13, .x 21⟩) ∧
    reads 1 [(6, 50), (12, 13), (18, 21)] = some (.admitReq ⟨cw, none, .x 13, .x 21⟩) ∧
    reads 1 [(6, 51), (12, 13), (18, 21)] = some (.retire ⟨cw, none, .x 13, .x 21⟩) ∧
    reads 1 [(6, 17), (12, 13), (18, 21)] = some (.sext ⟨cw, none, .x 13, .x 21, .w8⟩) ∧
    reads 1 [(6, 17), (12, 13), (18, 21), (30, 2)] = some (.sext ⟨cw, none, .x 13, .x 21, .w32⟩) ∧
    reads 1 [(6, 18), (12, 13), (18, 21), (30, 1)] = some (.zext ⟨cw, none, .x 13, .x 21, .w16⟩) ∧
    reads 1 [(6, 12), (12, 6), (15, 4), (18, 21), (24, 10)] = some (.cmp ⟨cw, none, 6, .x 21, .x 10, .ltn⟩) ∧
    reads 1 [(6, 13), (12, 30), (17, 21), (23, 10), (29, 6)] = some (.sel ⟨cw, none, 30, 6, .x 21, .x 10⟩) ∧
    reads 1 [(6, 15), (12, 13), (18, 0x2aab)] = some (.li ⟨cw, .x 13, .i14 0x2AAB⟩) ∧
    reads 1 [(6, 15), (12, 13), (5, 1)] (some 0x89abcdef#32) = some (.li ⟨cw, .x 13, .lit 0x89ABCDEF⟩) ∧
    reads 1 [(6, 16), (12, 13), (18, 21), (24, 52), (5, 1)] (some 0x89abcdef#32) = some (.lih ⟨cw, 0x89ABCDEF, .x 13, .x 21⟩) ∧
    reads 1 [(6, 19), (12, 6), (18, 5), (21, 1), (24, 3), (27, 1)] = some (.gand ⟨cw, 6, 5, true, 3, true⟩) ∧
    reads 1 [(6, 19), (12, 6), (18, 5), (21, 1), (24, 3), (27, 1), (30, 1)] = some (.gor ⟨cw, 6, 5, true, 3, true⟩) ∧
    reads 1 [(6, 19), (12, 6), (18, 5), (21, 1), (30, 2)] = some (.gnot ⟨cw, 6, 5, true⟩) := by
  decide +kernel

/-- Forms A, Q and X (R197, R203, R226). -/
theorem test_generatorAndCsrWords :
    reads 1 [(6, 20), (12, 11), (16, 5), (19, 21), (25, 10)] = some (.gset ⟨cw, none, 11, 5, .x 21, .x 10⟩) ∧
    reads 1 [(6, 20), (12, 11), (16, 5), (19, 21), (25, 10), (31, 1)] = some (.gsetE ⟨cw, none, 11, 5, .x 21, .x 10⟩) ∧
    reads 1 [(6, 21), (12, 11), (19, 21), (25, 10)] = some (.gbase ⟨cw, none, 11, .x 21, .x 10⟩) ∧
    reads 1 [(6, 22), (12, 11)] = some (.gstep ⟨cw, 11⟩) ∧
    reads 1 [(6, 23), (12, 13), (18, 11), (22, 5), (25, 3)] = some (.gread ⟨cw, .x 13, 11, 5, .idx⟩) ∧
    reads 1 [(6, 23), (12, 13), (18, 11), (25, 5)] = some (.gread ⟨cw, .x 13, 11, 0, .attr⟩) ∧
    reads 1 [(6, 24), (12, 13), (24, 52)] = some (.csrr ⟨cw, .x 13, .tsw 3⟩) ∧
    reads 1 [(6, 25), (12, 13), (18, 21), (24, 28)] = some (.csrw ⟨cw, none, .x 13, .x 21, .chstl 3⟩) ∧
    reads 1 [(6, 26), (12, 13), (18, 21), (24, 43)] = some (.csrs ⟨cw, none, .x 13, .x 21, .bkt 11⟩) ∧
    reads 1 [(6, 27), (12, 13), (18, 21), (24, 14)] = some (.csrc ⟨cw, none, .x 13, .x 21, .epscl⟩) := by
  decide +kernel

/-- Forms J, K, P, N, B, W, Y, T and Z (R197, R203). -/
theorem test_controlWords :
    reads 1 [(6, 32), (5, 1)] (some 0xfffffff0#32) = some (.br ⟨cw, 0xFFFFFFF0⟩) ∧
    reads 1 [(6, 33), (12, 5), (18, 21), (5, 1)] (some 0x10#32) = some (.brc ⟨cw, 0x10, .x 21, .lez⟩) ∧
    reads 1 [(6, 34), (18, 21)] = some (.brx ⟨cw, none, .x 21⟩) ∧
    reads 1 [(6, 36), (18, 21)] = some (.ret ⟨cw, none, .x 21⟩) ∧
    reads 1 [(6, 40), (18, 21)] = some (.ldepthset ⟨cw, none, .x 21⟩) ∧
    reads 1 [(6, 62), (18, 21)] = some (.ctxl ⟨cw, none, .x 21⟩) ∧
    reads 1 [(6, 35), (12, 31), (5, 1)] (some 0x10#32) = some (.call ⟨cw, 0x10, .x 31⟩) ∧
    reads 1 [(6, 37), (12, 9), (16, 3), (19, 21)] = some (.loop ⟨cw, .regs 21 3, 9⟩) ∧
    reads 1 [(6, 37), (12, 9), (19, 52), (5, 1)] (some 0x10#32) = some (.loop ⟨cw, .lit 0x10, 9⟩) ∧
    reads 1 [(6, 38)] = some (.loopx ⟨cw⟩) ∧
    reads 1 [(6, 39)] = some (.rot ⟨cw⟩) ∧
    reads 1 [(6, 46)] = some (.yield ⟨cw⟩) ∧
    reads 1 [(6, 47)] = some (.halt ⟨cw⟩) ∧
    reads 1 [(6, 60)] = some (.tret ⟨cw⟩) ∧
    reads 1 [(6, 41), (12, 21)] = some (.grow ⟨cw, 21⟩) ∧
    reads 1 [(6, 42), (12, 21)] = some (.shrink ⟨cw, 21⟩) ∧
    reads 1 [(6, 43), (12, 42)] = some (.bara ⟨cw, .cluster, 42⟩) ∧
    reads 1 [(6, 43), (12, 42), (18, 1), (30, 1)] = some (.barw ⟨cw, .die, 42⟩) ∧
    reads 1 [(6, 43), (18, 2), (30, 2)] = some (.bar ⟨cw, .launch, 0⟩) ∧
    reads 1 [(6, 44), (12, 42), (18, 3)] = some (.waith ⟨cw, 42, .draining⟩) ∧
    reads 1 [(6, 45), (12, 2), (14, 16)] = some (.waitq ⟨cw, 2, 15⟩) ∧
    reads 1 [(6, 48), (12, 165)] = some (.trap ⟨cw, 0xA5⟩) ∧
    reads 1 [(6, 61), (12, 3), (18, 21), (24, 10), (30, 2)] = some (.tlbi ⟨cw, none, .x 21, .x 10, .m2, .device⟩) := by
  decide +kernel

/-- Forms M, S and V of the LD slot (R198, R204): VD 26:14, GN 34:31, NU 39:35, NROW 44:40, T 45, FMT 50:46, VX 63:51. -/
theorem test_loadWords :
    reads 2 [(14, 0x81d), (31, 11), (35, 7), (40, 19), (46, 10), (45, 1)] = some (.ldt ⟨cw, ⟨.opf, 29⟩, .mxe4m3, true, 19, 7, 11⟩) ∧
    reads 2 [(6, 1), (14, 0x81d), (31, 11), (35, 7), (40, 19), (46, 10)] = some (.ldtm ⟨cw, ⟨.opf, 29⟩, .mxe4m3, false, 19, 7, 11⟩) ∧
    reads 2 [(6, 3), (14, 0x81d), (31, 11), (35, 7), (40, 19), (46, 10)] = some (.ldw ⟨cw, ⟨.opf, 29⟩, .mxe4m3, false, 19, 7, 11⟩) ∧
    reads 2 [(6, 5), (14, 0x81d), (31, 11), (35, 7), (40, 19), (46, 10)] = some (.ldo ⟨cw, ⟨.opf, 29⟩, .mxe4m3, false, 19, 7, 11⟩) ∧
    reads 2 [(6, 4), (14, 3), (31, 11), (35, 7), (40, 19), (46, 10)] = some (.ldl ⟨cw, ⟨.main, 3⟩, .mxe4m3, false, 19, 7, 11⟩) ∧
    reads 2 [(6, 6), (14, 0x81d), (31, 11), (35, 7), (40, 19), (46, 10), (51, 1500)] = some (.ldg ⟨cw, ⟨.opf, 29⟩, ⟨.main, 1500⟩, .mxe4m3, 19, 7, 11⟩) ∧
    reads 2 [(6, 2), (14, 13), (20, 21), (32, 0xfff8), (48, 2), (50, 9), (54, 1)] = some (.lds ⟨cw, 13, .x 21, 0xFFF8, 2, true, 9⟩) ∧
    reads 2 [(6, 7), (20, 21), (32, 0xfff8), (26, 10)] = some (.touch ⟨cw, .x 21, .x 10, 0xFFF8⟩) ∧
    reads 2 [(6, 8), (20, 21), (32, 0xfff8), (26, 10)] = some (.touchw ⟨cw, .x 21, .x 10, 0xFFF8⟩) ∧
    reads 2 [(6, 9), (14, 13), (20, 21), (32, 0xfff8), (48, 1), (50, 9), (54, 1), (55, 3)] = some (.acq ⟨cw, 13, .x 21, 0xFFF8, true, true, 9, .die⟩) ∧
    reads 2 [(6, 10), (20, 21), (32, 0xfff8), (26, 10), (54, 1)] = some (.prf ⟨cw, .x 21, .x 10, 0xFFF8, true⟩) ∧
    reads 2 [(6, 11), (14, 13)] = some (.wsphase ⟨cw, 13⟩) := by
  decide +kernel

/-- Forms M, S and V of the ST slot (R198, R205): D 19:14, SA 25:20, SB 31:26, OFF 47:32, SZ 49:48, STRM 53:50, SP 54, SCP 57:55, SC3 63:58. -/
theorem test_storeWords :
    reads 3 [(14, 0x81d), (31, 11), (35, 7), (40, 19), (46, 10)] = some (.stt ⟨cw, ⟨.opf, 29⟩, .mxe4m3, false, 19, 7, 11⟩) ∧
    reads 3 [(6, 1), (14, 0x81d), (31, 11), (35, 7), (40, 19), (46, 10)] = some (.sttm ⟨cw, ⟨.opf, 29⟩, .mxe4m3, false, 19, 7, 11⟩) ∧
    reads 3 [(6, 2), (20, 21), (32, 0xfff8), (26, 10), (48, 3), (50, 9), (54, 1)] = some (.sts ⟨cw, .x 21, .x 10, 0xFFF8, 3, true, 9⟩) ∧
    reads 3 [(6, 3), (20, 21), (26, 10), (43, 1), (44, 5), (48, 1), (50, 9), (54, 1), (55, 5), (58, 20)] = some (.rel ⟨cw, .x 21, .x 10, true, true, 9, .system, 5, true, 20⟩) ∧
    reads 3 [(6, 4), (32, 0xa5c3), (55, 2)] = some (.fence ⟨cw, 0xA5C3, .cluster⟩) ∧
    reads 3 [(6, 5), (14, 13), (32, 24), (37, 1)] = some (.spalloc ⟨cw, 13, 24, true⟩) ∧
    reads 3 [(6, 6), (20, 21)] = some (.spfree ⟨cw, .x 21⟩) ∧
    reads 3 [(6, 7), (20, 21), (26, 10)] = some (.mbox ⟨cw, .x 21, .x 10⟩) ∧
    reads 3 [(6, 8), (14, 0x81d), (27, 200), (35, 55)] = some (.ecInc ⟨cw, ⟨.opf, 29⟩, 200, 55⟩) ∧
    reads 3 [(6, 9), (14, 0x81d), (27, 200), (35, 55)] = some (.ecSnap ⟨cw, ⟨.opf, 29⟩, 200, 55⟩) ∧
    reads 3 [(6, 16), (14, 13), (20, 21), (32, 0xfff8), (26, 10), (48, 1), (50, 9), (54, 1)] = some (.aadd ⟨cw, 13, .x 21, .x 10, 0xFFF8, true, true, 9⟩) ∧
    reads 3 [(6, 17), (14, 13), (20, 21), (32, 0xfff8), (26, 10), (48, 1), (50, 9), (54, 1)] = some (.amin ⟨cw, 13, .x 21, .x 10, 0xFFF8, true, true, 9⟩) ∧
    reads 3 [(6, 18), (14, 13), (20, 21), (32, 0xfff8), (26, 10), (48, 1), (50, 9), (54, 1)] = some (.amax ⟨cw, 13, .x 21, .x 10, 0xFFF8, true, true, 9⟩) ∧
    reads 3 [(6, 19), (14, 13), (20, 21), (32, 0xfff8), (26, 10), (48, 1), (50, 9), (54, 1)] = some (.aminn ⟨cw, 13, .x 21, .x 10, 0xFFF8, true, true, 9⟩) ∧
    reads 3 [(6, 20), (14, 13), (20, 21), (32, 0xfff8), (26, 10), (48, 1), (50, 9), (54, 1)] = some (.amaxn ⟨cw, 13, .x 21, .x 10, 0xFFF8, true, true, 9⟩) ∧
    reads 3 [(6, 21), (14, 13), (20, 21), (32, 0xfff8), (26, 10), (48, 1), (50, 9), (54, 1)] = some (.aand ⟨cw, 13, .x 21, .x 10, 0xFFF8, true, true, 9⟩) ∧
    reads 3 [(6, 22), (14, 13), (20, 21), (32, 0xfff8), (26, 10), (48, 1), (50, 9), (54, 1)] = some (.aor ⟨cw, 13, .x 21, .x 10, 0xFFF8, true, true, 9⟩) ∧
    reads 3 [(6, 23), (14, 13), (20, 21), (32, 0xfff8), (26, 10), (48, 1), (50, 9), (54, 1)] = some (.axor ⟨cw, 13, .x 21, .x 10, 0xFFF8, true, true, 9⟩) ∧
    reads 3 [(6, 24), (14, 13), (20, 21), (32, 0xfff8), (26, 10), (48, 1), (50, 9), (54, 1)] = some (.aswp ⟨cw, 13, .x 21, .x 10, 0xFFF8, true, true, 9⟩) ∧
    reads 3 [(6, 25), (14, 13), (20, 21), (32, 0xfff8), (26, 10), (50, 9), (58, 30)] = some (.acas ⟨cw, 13, .x 21, .x 10, .x 30, 0xFFF8, false, false, 9⟩) := by
  decide +kernel

/-- The CP slot (R199, R206, R274): CH 15:14, GS 19:16, GD 23:20, HD 29:24, HDV 30, HS 36:31, HSV 37, GX 41:38, SX 47:42, XF 55:48, ESZ 58:56. -/
theorem test_copyWords :
    reads 4 [(14, 2), (16, 5), (20, 11), (24, 42), (30, 1), (31, 21), (37, 1), (56, 6)] = some (.cpy ⟨cw, 2, 5, 11, some 42, some 21, 6⟩) ∧
    reads 4 [(14, 2), (16, 5), (20, 11), (56, 6)] = some (.cpy ⟨cw, 2, 5, 11, none, none, 6⟩) ∧
    reads 4 [(6, 1), (14, 2), (16, 5), (20, 11), (24, 42), (30, 1), (31, 21), (37, 1), (56, 6), (38, 13), (42, 30)] = some (.cpyg ⟨⟨cw, 2, 5, 11, some 42, some 21, 6⟩, 13, .x 30, none⟩) ∧
    reads 4 [(6, 1), (14, 2), (16, 5), (20, 11), (24, 42), (30, 1), (31, 21), (37, 1), (56, 6), (38, 13), (42, 30), (48, 1), (49, 9)] = some (.cpyg ⟨⟨cw, 2, 5, 11, some 42, some 21, 6⟩, 13, .x 30, some 9⟩) ∧
    reads 4 [(6, 2), (14, 2), (16, 5), (20, 11), (24, 42), (30, 1), (31, 21), (37, 1), (56, 6), (38, 13)] = some (.cpys ⟨⟨cw, 2, 5, 11, some 42, some 21, 6⟩, 13⟩) ∧
    reads 4 [(6, 3), (14, 2), (16, 5), (20, 11), (24, 42), (30, 1), (31, 21), (37, 1), (56, 3)] = some (.cpyxPack ⟨cw, 2, 5, 11, some 42, some 21, 3⟩) ∧
    reads 4 [(6, 3), (14, 2), (16, 5), (20, 11), (24, 42), (30, 1), (31, 21), (37, 1), (56, 3), (48, 1)] = some (.cpyxUnpack ⟨cw, 2, 5, 11, some 42, some 21, 3⟩) ∧
    reads 4 [(6, 4), (14, 2), (16, 5), (20, 11), (24, 42), (30, 1), (31, 21), (37, 1), (56, 3)] = some (.cpyf ⟨cw, 2, 5, 11, some 42, some 21, 3⟩) ∧
    reads 4 [(6, 5), (14, 2), (16, 5), (20, 11), (24, 42), (30, 1), (31, 21), (37, 1), (56, 3), (38, 13)] = some (.cpyd ⟨⟨cw, 2, 5, 11, some 42, some 21, 3⟩, 13⟩) ∧
    reads 4 [(6, 6), (14, 2), (16, 5), (20, 11), (24, 42), (30, 1), (31, 21), (37, 1), (56, 1), (48, 2), (53, 1)] = some (.cpyr ⟨⟨cw, 2, 5, 11, some 42, some 21, 1⟩, .max, .f16⟩) ∧
    reads 4 [(6, 7), (14, 2), (16, 5), (20, 11), (24, 42), (30, 1), (31, 21), (37, 1), (56, 2), (48, 24), (53, 2), (42, 30)] = some (.coll ⟨⟨cw, 2, 5, 11, some 42, some 21, 2⟩, .min, .i32, .x 30⟩) ∧
    reads 4 [(6, 8), (14, 2), (20, 11), (24, 42), (30, 1), (42, 30), (56, 6)] = some (.cpfill ⟨cw, 2, 11, some 42, 6, .x 30⟩) ∧
    reads 4 [(6, 9), (24, 42), (30, 1), (42, 30), (48, 20)] = some (.hset ⟨cw, 42, 20, .x 30⟩) ∧
    reads 4 [(6, 10), (24, 42), (30, 1)] = some (.hdrain ⟨cw, 42⟩) ∧
    reads 4 [(6, 11), (24, 42), (30, 1)] = some (.hfree ⟨cw, 42⟩) ∧
    reads 4 [(6, 12), (24, 42), (30, 1), (42, 30)] = some (.hq ⟨cw, 42, 30⟩) ∧
    reads 4 [(6, 13), (24, 42), (30, 1), (48, 2)] = some (.hwait ⟨cw, 42, .full⟩) ∧
    reads 4 [(6, 14), (14, 2), (24, 42), (30, 1)] = some (.cpmark ⟨cw, 2, some 42⟩) ∧
    reads 4 [(6, 14), (14, 2)] = some (.cpmark ⟨cw, 2, none⟩) := by
  decide +kernel

/-- The MX slot (R196, R200, R207): ACC 19:14, A 32:20, B 45:33, AF 50:46, BF 55:51, SCR 59:56, SR 61:60, T 62, G 63. -/
theorem test_matrixWords :
    reads 5 [(14, 42), (46, 3), (51, 1), (56, 9), (60, 2), (63, 1), (20, 0x80d), (33, 0x1802), (62, 1)] = some (.mm ⟨cw, 42, ⟨.sp, 13⟩, ⟨.store, 2⟩, .e4m3, .bf16, 9, .minPlus, true, true⟩) ∧
    reads 5 [(6, 1), (14, 42), (46, 3), (51, 1), (56, 9), (60, 2), (63, 1), (20, 0x80d), (33, 0x1802), (62, 1)] = some (.mmz ⟨cw, 42, ⟨.sp, 13⟩, ⟨.store, 2⟩, .e4m3, .bf16, 9, .minPlus, true, true⟩) ∧
    reads 5 [(6, 2), (14, 42), (51, 1), (56, 9), (60, 2), (63, 1), (20, 0x100d), (33, 1500)] = some (.mmp ⟨cw, 42, ⟨.pat, 13⟩, ⟨.group, 1500⟩, .fp32, .bf16, 9, .minPlus, false, true⟩) ∧
    reads 5 [(6, 3), (14, 42), (46, 3), (51, 1), (56, 9), (60, 2), (63, 1), (20, 0x180d), (33, 0x81d)] = some (.mmd ⟨cw, 42, ⟨.store, 13⟩, ⟨.opf, 29⟩, .e4m3, .bf16, 9, .minPlus, false, true⟩) ∧
    reads 5 [(6, 4), (14, 42), (20, 0x80d), (33, 0x1009), (46, 3), (60, 2), (62, 1), (63, 1)] = some (.mmt ⟨cw, 42, ⟨.sp, 13⟩, 9, .e4m3, .minPlus, true, true⟩) ∧
    reads 5 [(6, 5), (14, 42), (20, 1500), (33, 0x81d), (46, 1), (51, 2), (63, 1)] = some (.outer ⟨cw, 42, ⟨.main, 1500⟩, ⟨.opf, 29⟩, .bf16, .fp16, true⟩) ∧
    reads 5 [(6, 6), (14, 3), (20, 1500)] = some (.latch ⟨cw, 3, 1500⟩) ∧
    reads 5 [(6, 7), (14, 42)] = some (.aclr ⟨cw, 42⟩) ∧
    reads 5 [(6, 8), (14, 42), (20, 21)] = some (.amov ⟨cw, 42, 21⟩) ∧
    reads 5 [(6, 9), (14, 42), (20, 21)] = some (.ascale ⟨cw, 42, .x 21⟩) ∧
    reads 5 [(6, 10), (14, 42), (20, 13), (33, 21)] = some (.anorm2 ⟨cw, 42, 13, 21⟩) ∧
    reads 5 [(6, 11), (14, 42), (20, 13), (33, 21)] = some (.amaxabs ⟨cw, 42, 13, 21⟩) ∧
    reads 5 [(6, 12), (14, 42), (20, 13), (33, 21), (63, 1)] = some (.bimStage ⟨cw, 42, 13, 21, true⟩) ∧
    reads 5 [(6, 13), (14, 42), (33, 21)] = some (.bimMark ⟨cw, 42, 21⟩) := by
  decide +kernel

/-- Form F of the FL slot (R201, R208): ACC 19:14, VD 32:20, VB 45:33, DF 50:46, FN 54:51, FE 55, RM 57:56, PROP 58, G 59, SE 60, CE 61, BE 62; form V: NR 19:14, VD 32:20, VS 45:33, DF 50:46, SF 55:51, RM 57:56, PROP 58, FE 59, FN 63:60. -/
theorem test_flueWords :
    reads 6 [(14, 42), (20, 1500), (51, 9), (55, 1), (56, 2), (58, 1), (59, 1), (60, 1), (61, 1), (33, 0x81d), (46, 1), (62, 1)] = some (.drain ⟨cw, 42, ⟨.main, 1500⟩, ⟨.bf16, .sr, true, true, true, true, some .erf⟩, some ⟨.opf, 29⟩⟩) ∧
    reads 6 [(14, 42), (20, 1500), (46, 24)] = some (.drain ⟨cw, 42, ⟨.main, 1500⟩, ⟨.int32, .rne, false, false, false, false, none⟩, none⟩) ∧
    reads 6 [(6, 1), (14, 42), (20, 1500), (51, 9), (55, 1), (56, 2), (58, 1), (59, 1), (60, 1), (61, 1), (33, 13), (46, 10)] = some (.drainq ⟨cw, 42, ⟨.main, 1500⟩, ⟨.mxe4m3, .sr, true, true, true, true, some .erf⟩, 13⟩) ∧
    reads 6 [(6, 2), (14, 42), (20, 1500), (51, 9), (55, 1), (56, 2), (58, 1), (59, 1), (60, 1), (61, 1), (33, 21), (46, 3)] = some (.drainr ⟨cw, 42, ⟨.main, 1500⟩, ⟨.e4m3, .sr, true, true, true, true, some .erf⟩, 21⟩) ∧
    reads 6 [(6, 3), (14, 42), (20, 1500), (51, 9), (55, 1), (56, 2), (58, 1), (59, 1), (60, 1), (61, 1), (33, 21), (46, 3)] = some (.drainc ⟨cw, 42, ⟨.main, 1500⟩, ⟨.e4m3, .sr, true, true, true, true, some .erf⟩, 21⟩) ∧
    reads 6 [(6, 4), (14, 42), (20, 1500)] = some (.argsel ⟨cw, 42, ⟨.main, 1500⟩⟩) ∧
    reads 6 [(6, 5), (14, 42), (20, 1500)] = some (.bimCommit ⟨cw, 42, ⟨.main, 1500⟩⟩) ∧
    reads 6 [(6, 6), (14, 42), (20, 1500), (33, 0x81d), (59, 1)] = some (.trust1 ⟨cw, 42, ⟨.main, 1500⟩, ⟨.opf, 29⟩, true⟩) ∧
    reads 6 [(6, 16), (14, 42), (20, 1500), (33, 0x81d), (46, 1), (51, 24), (56, 1), (58, 1)] = some (.cvt ⟨cw, ⟨.main, 1500⟩, ⟨.opf, 29⟩, 42, .int32, .bf16, .rtz, true⟩) ∧
    reads 6 [(6, 17), (14, 42), (20, 1500), (33, 0x81d), (46, 1), (51, 2), (56, 1), (58, 1), (59, 1), (60, 11)] = some (.fn ⟨⟨cw, ⟨.main, 1500⟩, ⟨.opf, 29⟩, 42, .fp16, .bf16, .rtz, true⟩, .cospi⟩) ∧
    reads 6 [(6, 18), (14, 42), (20, 1500), (33, 0x81d), (46, 1), (51, 2), (56, 1), (58, 1)] = some (.clampv ⟨cw, ⟨.main, 1500⟩, ⟨.opf, 29⟩, 42, .fp16, .bf16, .rtz, true⟩) ∧
    reads 6 [(6, 25), (14, 42), (20, 1500), (33, 0x81d), (46, 1), (51, 24), (56, 1), (58, 1)] = some (.scalev ⟨cw, ⟨.main, 1500⟩, ⟨.opf, 29⟩, 42, .int32, .bf16, .rtz, true⟩) ∧
    reads 6 [(6, 19), (14, 42), (20, 1500), (46, 24)] = some (.rng ⟨cw, ⟨.main, 1500⟩, 42, true⟩) ∧
    reads 6 [(6, 19), (14, 42), (20, 1500)] = some (.rng ⟨cw, ⟨.main, 1500⟩, 42, false⟩) ∧
    reads 6 [(6, 20), (14, 43), (20, 1500), (33, 0x81d), (46, 25), (51, 1), (56, 1), (58, 1)] = some (.q8b ⟨cw, ⟨.main, 1500⟩, ⟨.opf, 29⟩, 43, .bf16, .b8qs, .rtz, true⟩) ∧
    reads 6 [(6, 21), (14, 43), (20, 1500), (33, 0x81d), (46, 1), (51, 26), (56, 1), (58, 1)] = some (.dq8b ⟨cw, ⟨.main, 1500⟩, ⟨.opf, 29⟩, 43, .b8qn, .bf16, .rtz, true⟩) ∧
    reads 6 [(6, 22), (14, 42), (20, 1500), (33, 0x81d), (46, 10), (51, 1), (56, 1), (58, 1)] = some (.qmx ⟨cw, ⟨.main, 1500⟩, ⟨.opf, 29⟩, 42, .bf16, .mxe4m3, .rtz, true⟩) ∧
    reads 6 [(6, 23), (14, 42), (20, 1500), (33, 0x81d), (46, 1), (51, 22), (56, 1), (58, 1)] = some (.dqmx ⟨cw, ⟨.main, 1500⟩, ⟨.opf, 29⟩, 42, .bx8, .bf16, .rtz, true⟩) ∧
    reads 6 [(6, 24), (14, 42), (20, 1500), (33, 0x81d), (51, 2)] = some (.normv ⟨cw, ⟨.main, 1500⟩, ⟨.opf, 29⟩, 42, .fp16⟩) ∧
    reads 6 [(6, 26), (14, 42), (20, 1500), (33, 0x81d)] = some (.psum ⟨cw, ⟨.main, 1500⟩, ⟨.opf, 29⟩, 42⟩) ∧
    reads 6 [(6, 34), (14, 42), (20, 1500), (33, 0x81d)] = some (.trust2 ⟨cw, ⟨.main, 1500⟩, ⟨.opf, 29⟩, 42⟩) ∧
    reads 6 [(6, 35), (14, 42), (20, 1500), (33, 0x81d)] = some (.clipg ⟨cw, ⟨.main, 1500⟩, ⟨.opf, 29⟩, 42⟩) ∧
    reads 6 [(6, 27), (20, 1500), (33, 0x81d)] = some (.sampd ⟨cw, ⟨.main, 1500⟩, ⟨.opf, 29⟩⟩) ∧
    reads 6 [(6, 32), (14, 29), (20, 1500), (33, 0x81d), (46, 1), (56, 1), (58, 1)] = some (.updAdam ⟨cw, ⟨.main, 1500⟩, ⟨.opf, 29⟩, 29, .fp32, .bf16, .rtz, true⟩) ∧
    reads 6 [(6, 33), (14, 29), (20, 1500), (33, 0x81d), (46, 1), (56, 1), (58, 1)] = some (.updSgdm ⟨cw, ⟨.main, 1500⟩, ⟨.opf, 29⟩, 29, .fp32, .bf16, .rtz, true⟩) := by
  decide +kernel

/-- The SC slot (R209). -/
theorem test_scaleWords :
    reads 7 [(12, 13), (16, 11), (20, 1)] = some (.lsc ⟨cw, 13, 11, true⟩) ∧
    reads 7 [(6, 1), (12, 13), (16, 21), (22, 42)] = some (.scset ⟨cw, 13, 42, .x 21⟩) ∧
    reads 7 [(6, 2), (12, 13), (16, 21), (22, 10)] = some (.pset ⟨cw, 13, .x 21, .x 10⟩) ∧
    reads 7 [(6, 3), (12, 13), (17, 1500), (30, 2)] = some (.psetd ⟨cw, 13, ⟨.main, 1500⟩, .onehot⟩) ∧
    reads 7 [(6, 4), (12, 13), (16, 5), (19, 21)] = some (.psett ⟨cw, 13, 5, .x 21⟩) ∧
    reads 7 [(6, 5), (12, 85)] = some (.setls ⟨cw, 0x55⟩) ∧
    reads 7 [(6, 5), (19, 1), (26, 21)] = some (.setlsRegister ⟨cw, .x 21⟩) ∧
    reads 7 [(6, 6), (12, 21)] = some (.srseed ⟨cw, .x 21⟩) ∧
    reads 7 [(6, 7), (12, 21)] = some (.srctrset ⟨cw, .x 21⟩) ∧
    reads 7 [(6, 14), (12, 21)] = some (.bimlim ⟨cw, .x 21⟩) ∧
    reads 7 [(6, 8), (12, 21), (18, 5)] = some (.ttnew ⟨cw, 5, .x 21⟩) ∧
    reads 7 [(6, 9), (12, 5), (18, 21), (24, 10)] = some (.ttadd ⟨cw, 5, .x 21, .x 10⟩) ∧
    reads 7 [(6, 10), (12, 5), (16, 1500)] = some (.ttpos ⟨cw, 5, ⟨.main, 1500⟩⟩) ∧
    reads 7 [(6, 11), (12, 5), (16, 1500)] = some (.ttprune ⟨cw, 5, ⟨.main, 1500⟩⟩) ∧
    reads 7 [(6, 12), (12, 5), (15, 6), (18, 21)] = some (.ttchk ⟨cw, 5, 6, .x 21⟩) ∧
    reads 7 [(6, 13), (12, 5)] = some (.ttgen ⟨cw, 5⟩) := by
  decide +kernel

/-- The slot words that the chapters of programs work out (Encodings, chapters 12 to 15). -/
theorem test_workedWords :
    (decodeSlot 7 0x805010C0 none).toOption = some (.psetd ⟨plain, 1, ⟨.main, 40⟩, .onehot⟩) ∧
    (decodeSlot 7 0x00052080 none).toOption = some (.pset ⟨plain, 2, .x 5, .x 0⟩) ∧
    (decodeSlot 5 0x0000A00200000080 none).toOption = some (.mmp ⟨plain, 0, ⟨.group, 0⟩, ⟨.pat, 1⟩, .fp16, .fp32, 0, .plusTimes, false, false⟩) ∧
    (decodeSlot 6 0x0400800001000080 none).toOption = some (.drainr ⟨plain, 0, ⟨.main, 16⟩, ⟨.fp16, .rne, true, false, false, false, none⟩, 0⟩) ∧
    (decodeSlot 6 0x0000000001E04080 none).toOption = some (.drainr ⟨plain, 1, ⟨.main, 30⟩, ⟨.fp32, .rne, false, false, false, false, none⟩, 0⟩) ∧
    (decodeSlot 7 0x00008140 none).toOption = some (.setls ⟨plain, 8⟩) ∧
    (decodeSlot 7 0x40080140 none).toOption = some (.setlsRegister ⟨plain, .x 16⟩) ∧
    (decodeSlot 6 0x0800400001000000 none).toOption = some (.drain ⟨plain, 0, ⟨.main, 16⟩, ⟨.bf16, .rne, false, true, false, false, none⟩, none⟩) ∧
    (decodeSlot 6 0x5000004801400000 none).toOption = some (.drain ⟨plain, 0, ⟨.main, 20⟩, ⟨.fp32, .rne, false, false, true, false, none⟩, some ⟨.main, 36⟩⟩) ∧
    (decodeSlot 6 0x000840200201C800 none).toOption = some (.updAdam ⟨plain, ⟨.main, 32⟩, ⟨.main, 16⟩, 7, .bf16, .bf16, .rne, false⟩) ∧
    (decodeSlot 4 0x0309008040530040 none).toOption = some (.cpyg ⟨⟨plain, 0, 3, 5, some 0, none, 3⟩, 2, .x 0, some 4⟩) ∧
    (decodeSlot 2 0x0101000000C24240 none).toOption = some (.acq ⟨plain, 9, .x 12, 0, true, false, 0, .cluster⟩) ∧
    (decodeSlot 3 0x2101180020C000C0 none).toOption = some (.rel ⟨plain, .x 12, .x 8, true, false, 0, .cluster, 1, true, 8⟩) ∧
    (decodeSlot 5 0x400840288080C040 none).toOption = some (.mmz ⟨plain, 3, ⟨.sp, 8⟩, ⟨.group, 20⟩, .bf16, .bf16, 0, .plusTimes, true, false⟩) ∧
    (decodeSlot 3 0x0000007800000200 none).toOption = some (.ecInc ⟨plain, ⟨.main, 0⟩, 0, 15⟩) ∧
    (decodeSlot 3 0x0000007800010240 none).toOption = some (.ecSnap ⟨plain, ⟨.main, 4⟩, 0, 15⟩) ∧
    (decodeSlot 1 0x80001AC0 none).toOption = some (.bar ⟨plain, .cluster, 1⟩) ∧
    (decodeSlot 1 0x80080AC0 none).toOption = some (.bar ⟨plain, .launch, 0⟩) ∧
    (decodeSlot 5 0x0000000000A00280 none).toOption = some (.anorm2 ⟨plain, 0, 10, 0⟩) ∧
    (decodeSlot 6 0x0000000001E00100 none).toOption = some (.argsel ⟨plain, 0, ⟨.main, 30⟩⟩) ∧
    (decodeSlot 4 0x0300000000980000 none).toOption = some (.cpy ⟨plain, 0, 8, 9, none, none, 3⟩) := by decide +kernel

/-- A bundle of 17 bytes with an MX and an FL word (chapter 15), a pad byte, a header of S0 with an S1-only opcode, and an opcode that is
not assigned. -/
theorem test_bundles :
    (decodeBundle (0x60#8 :: (natLe 8 0xA00280 ++ natLe 8 0x5000004801400000))).toOption = some ([(5, .anorm2 ⟨plain, 0, 10, 0⟩),
      (6, .drain ⟨plain, 0, ⟨.main, 20⟩, ⟨.fp32, .rne, false, false, true, false, none⟩, some ⟨.main, 36⟩⟩)], 17) ∧
    (passed (decodeBundle (0x01#8 :: natLe 4 0x80001AC0)) = false) ∧ passed (decodeBundle (0x02#8 :: natLe 4 0x00000D00)) = false := by decide +kernel

/-! ## Ill-formed terms -/

def fm (vd : VOp) (t : Bool) (nu : Fin 32) : FM := ⟨plain, vd, .bf16, t, 0, nu, 0⟩
def fmm (a b : MOp) (af bf : Fmt) (t g : Bool) : FMm := ⟨plain, 0, a, b, af, bf, 0, .plusTimes, t, g⟩
def fv (sf df : Fmt) (nr : Fin 64) : FV := ⟨plain, ⟨.main, 0⟩, ⟨.main, 0⟩, nr, sf, df, .rne, false⟩
def sp1 : VOp := ⟨.special, 1⟩
def cp4 (esz : Fin 8) : FCpy := ⟨plain, 0, 0, 1, none, none, esz⟩

/-- Scalar operations: a literal that no source uses, one that is missing, products pushed to the result queue, counts past x31, a
dimension with BASE, and a launch-scope barrier other than 0. -/
theorem wf_scalar :
    ∀ i ∈ ([.add ⟨plain, some 1, .x 1, .x 2, .x 3⟩, .sub ⟨plain, none, .x 1, .lit, .x 3⟩, .mul ⟨plain, none, .q, .x 2, .x 3⟩, .clz ⟨plain, some 1, .x 1, .x 2⟩,
      .cmp ⟨plain, some 1, 1, .x 2, .x 3, .eq⟩, .sel ⟨plain, none, 1, 1, .lit, .x 3⟩, .sext ⟨plain, none, .x 1, .lit, .w8⟩, .gset ⟨plain, some 1, 0, 0, .x 1, .x 2⟩,
      .gbase ⟨plain, some 1, 0, .x 1, .x 2⟩, .gread ⟨plain, .x 1, 0, 1, .base⟩, .csrw ⟨plain, some 1, .x 1, .x 2, .bix⟩, .brx ⟨plain, none, .lit⟩,
      .loop ⟨plain, .regs 31 1, 0⟩, .bar ⟨plain, .launch, 1⟩, .tlbi ⟨plain, some 1, .x 1, .x 2, .k4, .core⟩] : List Instr), i.wf = false := by decide

/-- Loads, stores, copies and handles. -/
theorem wf_memory :
    ∀ i ∈ ([.ldt (fm ⟨.latch, 0⟩ true 0), .ldtm (fm ⟨.main, 0⟩ true 0), .stt (fm sp1 false 0), .ldl (fm ⟨.main, 0⟩ false 12), .ldl (fm ⟨.opf, 0⟩ false 0),
      .ldo (fm ⟨.main, 0⟩ false 0), .ldg ⟨plain, ⟨.latch, 0⟩, ⟨.main, 0⟩, .bf16, 0, 0, 0⟩, .ldg ⟨plain, ⟨.main, 0⟩, sp1, .bf16, 0, 0, 0⟩, .lds ⟨plain, 1, .lit, 0, 0, false, 0⟩,
      .touch ⟨plain, .lit, .x 1, 0⟩, .prf ⟨plain, .x 1, .lit, 0, false⟩, .acq ⟨plain, 1, .lit, 0, true, false, 0, .core⟩, .sts ⟨plain, .x 1, .lit, 0, 0, false, 0⟩,
      .rel ⟨plain, .x 1, .x 2, true, false, 0, .core, 8, false, 17⟩, .rel ⟨plain, .x 1, .x 2, true, false, 0, .core, 0, false, 1⟩, .spalloc ⟨plain, 1, 11, false⟩,
      .spalloc ⟨plain, 1, 25, false⟩, .spfree ⟨plain, .lit⟩, .mbox ⟨plain, .x 1, .lit⟩, .ecInc ⟨plain, sp1, 0, 0⟩, .ecInc ⟨plain, ⟨.main, 0⟩, 255, 1⟩, .ecSnap ⟨plain, ⟨.latch, 0⟩, 0, 0⟩,
      .aadd ⟨plain, 1, .lit, .x 1, 0, true, false, 0⟩, .acas ⟨plain, 1, .x 1, .x 2, .lit, 0, true, false, 0⟩, .cpyxPack (cp4 4), .cpyf (cp4 2), .cpyd ⟨cp4 2, 0⟩, .cpyg ⟨cp4 0, 0, .lit, none⟩,
      .cpyr ⟨cp4 1, .add, .f32⟩, .coll ⟨cp4 2, .add, .bf16, .x 1⟩, .coll ⟨cp4 1, .add, .bf16, .lit⟩, .cpfill ⟨plain, 0, 0, none, 0, .lit⟩, .hset ⟨plain, 0, 11, .x 1⟩, .hset ⟨plain, 0, 12, .lit⟩] :
      List Instr), i.wf = false := by decide

/-- Matrix operations: a pattern in MM, T without a scratchpad operand, a pairing that R296 does not list, G with INT8, no pattern and
two patterns in MMP; and formats and operands of the others. -/
theorem wf_matrix :
    ∀ i ∈ ([.mm (fmm ⟨.pat, 0⟩ ⟨.group, 0⟩ .bf16 .bf16 false false), .mm (fmm ⟨.sp, 16⟩ ⟨.group, 0⟩ .bf16 .bf16 false false), .mm (fmm ⟨.group, 0⟩ ⟨.store, 4⟩ .bf16 .bf16 false false),
      .mm (fmm ⟨.group, 0⟩ ⟨.group, 0⟩ .bf16 .bf16 true false), .mmz (fmm ⟨.group, 0⟩ ⟨.group, 0⟩ .bf16 .bx4 false false), .mmz (fmm ⟨.group, 0⟩ ⟨.group, 0⟩ .int8 .int8 false true),
      .mmp (fmm ⟨.group, 0⟩ ⟨.group, 0⟩ .bf16 .bf16 false false), .mmp (fmm ⟨.pat, 0⟩ ⟨.pat, 0⟩ .fp32 .fp32 false false), .mmp (fmm ⟨.pat, 0⟩ ⟨.group, 0⟩ .bf16 .bf16 false false),
      .mmd ⟨plain, 0, ⟨.group, 0⟩, sp1, .bf16, .fp32, 0, .plusTimes, false, false⟩, .mmd ⟨plain, 0, ⟨.group, 0⟩, ⟨.main, 0⟩, .int8, .fp32, 0, .plusTimes, false, false⟩,
      .mmd ⟨plain, 0, ⟨.group, 0⟩, ⟨.main, 0⟩, .bf16, .e4m3, 0, .plusTimes, false, false⟩, .mmt ⟨plain, 0, ⟨.store, 0⟩, 0, .bf16, .plusTimes, false, false⟩,
      .mmt ⟨plain, 0, ⟨.group, 0⟩, 0, .fp32, .plusTimes, false, false⟩, .outer ⟨plain, 0, sp1, ⟨.main, 0⟩, .fp32, .fp32, false⟩, .outer ⟨plain, 0, ⟨.main, 0⟩, ⟨.main, 0⟩, .e4m3, .fp32, false⟩,
      .ascale ⟨plain, 0, .mq 0⟩, .ascale ⟨plain, 0, .lit⟩] : List Instr), i.wf = false := by decide

/-- Flue and scale operations. -/
theorem wf_flueAndScale :
    ∀ i ∈ ([.drain ⟨plain, 0, sp1, ⟨.fp32, .rne, false, false, false, false, none⟩, none⟩, .drain ⟨plain, 0, ⟨.main, 0⟩, ⟨.int4g, .rne, false, false, false, false, none⟩, none⟩,
      .drain ⟨plain, 0, ⟨.main, 0⟩, ⟨.int8, .rtz, false, false, false, false, none⟩, none⟩, .drain ⟨plain, 0, ⟨.main, 0⟩, ⟨.int32, .rne, false, false, false, false, none⟩, some ⟨.main, 0⟩⟩,
      .drainq ⟨plain, 0, ⟨.main, 0⟩, ⟨.fp32, .rne, false, false, false, false, none⟩, 0⟩, .drainr ⟨plain, 0, ⟨.main, 0⟩, ⟨.int8, .rne, true, false, false, false, none⟩, 0⟩,
      .argsel ⟨plain, 0, sp1⟩, .bimCommit ⟨plain, 0, ⟨.latch, 0⟩⟩, .trust1 ⟨plain, 0, ⟨.main, 0⟩, ⟨.latch, 0⟩, false⟩, .cvt (fv .mxe4m3 .fp32 0), .fn ⟨fv .fp32 .int4g 0, .rcp⟩,
      .rng ⟨plain, sp1, 0, false⟩, .q8b (fv .fp32 .b8qs 0), .q8b (fv .fp32 .e4m3 1), .dq8b (fv .b8qs .fp32 2), .qmx (fv .fp32 .e4m3 0), .qmx (fv .fp32 .int4g 24), .dqmx (fv .int4g .fp32 24),
      .normv ⟨plain, ⟨.main, 0⟩, ⟨.main, 0⟩, 0, .int8⟩, .psum ⟨plain, sp1, ⟨.main, 0⟩, 0⟩, .sampd ⟨plain, ⟨.main, 0⟩, sp1⟩, .updAdam (fv .bf16 .bf16 6), .updAdam (fv .bf16 .fp32 7),
      .updAdam (fv .bf16 .bf16 31), .updSgdm (fv .bf16 .bf16 37), .scset ⟨plain, 0, 0, .lit⟩, .pset ⟨plain, 0, .x 1, .lit⟩, .psetd ⟨plain, 0, sp1, .diag⟩, .psett ⟨plain, 0, 0, .lit⟩,
      .setlsRegister ⟨plain, .lit⟩, .ttnew ⟨plain, 0, .lit⟩, .ttadd ⟨plain, 0, .lit, .x 1⟩, .ttpos ⟨plain, 0, ⟨.latch, 0⟩⟩, .ttchk ⟨plain, 0, 0, .lit⟩] : List Instr), i.wf = false := by decide

/-! ## Values worked out in the spec -/

/-- What one operation leaves pending in the small state, x1 = 7, x2 = 0, x3 = −1, x4 = −2^63. -/
def leaves (i : Instr) : List Res :=
  match exec i s0 with
  | .next t => t.me.pend.map (·.res)
  | _ => []

/-- R219 and R220: wrap, the sign of a high product, division by 0 and of −2^63 by −1, shift counts modulo 64, counts of 0, unsigned
order. -/
theorem test_arithmetic :
    leaves (.add (fr 5 3 1)) = [.x 5 6] ∧ leaves (.sub (fr 5 2 1)) = [.x 5 0xFFFFFFFFFFFFFFF9] ∧ leaves (.mul (fr 5 4 1)) = [.x 5 0x8000000000000000] ∧
    leaves (.mulh (fr 5 3 1)) = [.x 5 0xFFFFFFFFFFFFFFFF] ∧ leaves (.mulhn (fr 5 3 1)) = [.x 5 6] ∧
    leaves (.div (fr 5 1 2)) = [.x 5 0xFFFFFFFFFFFFFFFF] ∧ leaves (.div (fr 5 4 3)) = [.x 5 0x8000000000000000] ∧ leaves (.divn (fr 5 3 1)) = [.x 5 0x2492492492492492] ∧
    leaves (.rem (fr 5 4 3)) = [.x 5 0] ∧ leaves (.rem (fr 5 4 1)) = [.x 5 0xFFFFFFFFFFFFFFFF] ∧ leaves (.remn (fr 5 1 2)) = [.x 5 7] ∧ leaves (.andn (fr 5 3 1)) = [.x 5 0xFFFFFFFFFFFFFFF8] ∧
    leaves (.shl (fr 5 1 3)) = [.x 5 0x8000000000000000] ∧ leaves (.shr (fr 5 4 3)) = [.x 5 1] ∧ leaves (.sar (fr 5 4 1)) = [.x 5 0xFF00000000000000] ∧ leaves (.rol (fr 5 4 1)) = [.x 5 0x40] ∧
    leaves (.clz ⟨plain, none, .x 5, .x 2⟩) = [.x 5 64] ∧ leaves (.ctz ⟨plain, none, .x 5, .x 4⟩) = [.x 5 63] ∧ leaves (.popc ⟨plain, none, .x 5, .x 1⟩) = [.x 5 3] ∧
    leaves (.min (fr 5 1 3)) = [.x 5 0xFFFFFFFFFFFFFFFF] ∧ leaves (.minn (fr 5 1 3)) = [.x 5 7] ∧ leaves (.max (fr 5 4 2)) = [.x 5 0] ∧ leaves (.maxn (fr 5 4 2)) = [.x 5 0x8000000000000000] := by
  decide +kernel

/-- R221 to R223. -/
theorem test_movesAndGuards :
    leaves (.cmp ⟨plain, none, 3, .x 4, .x 1, .lt⟩) = [.guard 3 true] ∧ leaves (.cmp ⟨plain, none, 3, .x 4, .x 1, .ltn⟩) = [.guard 3 false] ∧ leaves (.cmp ⟨plain, none, 3, .x 4, .x 1, .ntst⟩) = [.guard 3 true] ∧
    leaves (.cmp ⟨plain, none, 0, .x 4, .x 1, .lt⟩) = [] ∧ leaves (.sel ⟨plain, none, 5, 0, .x 1, .x 3⟩) = [.x 5 7] ∧ leaves (.sel ⟨plain, none, 5, 1, .x 1, .x 3⟩) = [.x 5 0xFFFFFFFFFFFFFFFF] ∧
    leaves (.li ⟨plain, .x 5, .i14 0x2000⟩) = [.x 5 0xFFFFFFFFFFFFE000] ∧ leaves (.li ⟨plain, .x 5, .lit 0x80000000⟩) = [.x 5 0xFFFFFFFF80000000] ∧
    leaves (.lih ⟨plain, 0x12345678, .x 5, .x 3⟩) = [.x 5 0x12345678FFFFFFFF] ∧ leaves (.sext ⟨plain, none, .x 5, .x 3, .w16⟩) = [.x 5 0xFFFFFFFFFFFFFFFF] ∧
    leaves (.zext ⟨plain, none, .x 5, .x 3, .w16⟩) = [.x 5 0xFFFF] ∧ leaves (.gand ⟨plain, 3, 0, false, 1, true⟩) = [.guard 3 true] ∧ leaves (.gor ⟨plain, 3, 0, true, 1, false⟩) = [.guard 3 false] ∧
    leaves (.gnot ⟨plain, 3, 0, false⟩) = [.guard 3 false] := by decide +kernel

/-- R287: the fingerprint of "123456789". R285: the stream of 64 BF16 elements of which 0, 5 and 63 are 1.0, −0 and 2.0. -/
theorem test_fingerprintAndStream :
    crc64 [0x31, 0x32, 0x33, 0x34, 0x35, 0x36, 0x37, 0x38, 0x39] = 0x6C40DF5F0B497347 ∧
    (sbcPack 65 ((List.range 64).map (fun i => (natLe 2 (if i = 0 then 0x3F80 else if i = 5 then 0x8000 else if i = 63 then 0x4000 else 0)).map (fun b => (b, false))))).map (·.1) =
      [0x21, 0, 0, 0, 0, 0, 0, 0x80, 0x80, 0x3F, 0x00, 0x80, 0x00, 0x40] := by decide +kernel

/-- R58's elements, the codes of the block of R73's example, the order of sums of R79, and the bounds of FP32. -/
theorem test_numbers :
    f32Bits (decInt4g 3 8 0x3E80) = 0xBFA00000 ∧ (encElem .bf16 false .rne (decInt4g 7 0 0x3F81)).1 = 0x40E2 ∧
    rne32 ((f32Val 0x4B800000).add (f32Val 0x3F800000)) = f32Val 0x4B800000 ∧ f32Bits ((f32Val 0x4B800000).add (vNat 2)) = 0x4B800001 ∧
    (encBlock .mxe2m1 false (fun _ => .rne) ([vRat 3 4, (vRat 5 2).neg, vNat 15, vRat 1 10].map some)).1 = 0x80 ∧
    (encBlock .mxe2m1 false (fun _ => .rne) ([vRat 3 4, (vRat 5 2).neg, vNat 15, vRat 1 10].map some)).2.1 = [0x1, 0xA, 0x7, 0x0] ∧
    f32Bits ((f32Val 0x7F7FFFFF).mul (vNat 2)) = 0x7F800000 ∧ f32Bits (.nan) = 0x7FC00000 := by decide +kernel

/-! ## First steps -/

/-- What the first step leaves pending in context 0, and the status of that context. -/
def firstStep (nbits w : Nat) : Option (List Res × CtxSt × Nat) :=
  match step (State.reset.withFetchWord nbits w) with
  | .next t => some ((t.ctx 0).pend.map (·.res), (t.ctx 0).st, (t.ctx 0).bix)
  | _ => none

/-- A word is decoded and is the first instruction that runs: add, lds of the bundle's own header byte, hq and aclr;
HALT ends the context; an opcode not assigned traps before any effect (R425). -/
theorem test_firstSteps :
    decodeTableWord 32 (13 * 2 ^ 12) = some (.add ⟨plain, none, .x 13, .x 0, .x 0⟩) ∧ firstStep 32 (13 * 2 ^ 12) = some ([.x 13 0], .primary, 1) ∧
    decodeTableWord 64 (2 * 2 ^ 6 + 13 * 2 ^ 14) = some (.lds ⟨plain, 13, .x 0, 0, 0, false, 0⟩) ∧ firstStep 64 (2 * 2 ^ 6 + 13 * 2 ^ 14) = some ([.x 13 4], .primary, 1) ∧
    firstStep 64 (0x0C * 2 ^ 6 + 2 ^ 30 + 13 * 2 ^ 42) = some ([.x 13 0], .primary, 1) ∧ firstStep 64 (0x07 * 2 ^ 6 + 5 * 2 ^ 14) = some ([.tile 5 Tile.zero, .mark 5 0], .primary, 1) ∧
    firstStep 32 (0x2F * 2 ^ 6) = some ([], .halted, 1) ∧ firstStep 32 (0x1C * 2 ^ 6) = some ([], .trapped, 0) := by
  decide +kernel

/-- Other values at reset: the registers of the control blocks at which the host looks first (R407, R410, R469). -/
theorem test_resetRegisters :
    State.reset.regRead 0x10008 = 12 ∧ State.reset.regRead 0x10F20 = 5 ∧ State.reset.regRead 0x27058 = 12 ∧ State.reset.regRead 0x20070 = 12 ∧ State.reset.regRead 0x20 = 1800 ∧
    State.reset.regRead 0x20058 = 12 := by decide +kernel

/-- The standard's example of the digest (R490, R492): the message of the three bytes 61, 62, 63 (hexadecimal). -/
theorem test_sha256 : sha256 [0x61#8, 0x62#8, 0x63#8] =
    [0xba, 0x78, 0x16, 0xbf, 0x8f, 0x01, 0xcf, 0xea, 0x41, 0x41, 0x40, 0xde, 0x5d, 0xae, 0x22, 0x23, 0xb0, 0x03, 0x61, 0xa3, 0x96, 0x17, 0x7a, 0x9c,
     0xb4, 0x10, 0xff, 0x61, 0xf2, 0x00, 0x15, 0xad] := by decide +kernel

/-! ## Hypotheses that are met: register values, errors of waits, handlers, the Mantel, acquires -/

/-- Reads of registers with and without privilege, and a register without writable bits. -/
theorem wit_controlRegisterValues :
    (Ready s0 plain (dcnt (.x 31)) ∧ Takes s0 (.x 31) ∧ s0.me.view = s0.me.view ∧ s0.launchOn (coreOf s0.cur) = some (0, l0)) ∧
    (Ready sPriv plain (dcnt .q) ∧ Takes sPriv .q ∧ sPriv.me.view.priv = true) ∧
    (∀ n ∈ [CsrName.bix, .lcid, .codebase, .occ], rwBits n ||| w1cBits n = 0#64 ∧ ∀ k, n ≠ .tsw k ∧ n ≠ .hctx) ∧
    (rwBits (.tsw 3) ||| w1cBits (.tsw 3) = 0#64 ∧ mayName sPriv (.tsw 3)) ∧
    Goes s0 plain none [.x 1] (dcnt (.x 5)) s0 [7#64] := by
  refine ⟨⟨⟨rfl, rfl⟩, takes_x _ _, rfl, rfl⟩, ⟨⟨rfl, rfl⟩, takes_q _, rfl⟩, ?_, ⟨by decide, fun _ => rfl⟩, ⟨rfl, rfl, rfl⟩⟩
  intro n hn
  simp only [List.mem_cons, List.not_mem_nil, or_false] at hn
  rcases hn with rfl | rfl | rfl | rfl <;> exact ⟨by decide, fun k => ⟨by simp, by simp⟩⟩

/-- A WAITH of a handle with an error code. -/
theorem wit_waithError :
    Ready sCp plain (0, 0) ∧ (sCp.me.handle (7 : Fin 64).val).err ≠ 0#8 ∧ sCp.me.todo ≠ [] ∧ ∀ p ∈ sCp.me.todo, p.1 < 8 :=
  ⟨⟨rfl, rfl⟩, by decide +kernel⟩

/-- The delivered handler of a trapped context, with room in its die's arbiter and with none, and one that handles no trap. -/
def sDelivered : State := (sHandler 0x300).modMe (fun c => { c with csr := { c.csr with hdl := true } })

theorem waitAll_idle (s : State) (hw : s.wbuf = []) (hc : s.copiesOf s.cur = []) : waitAll s = (s, false) := waitCopies_idle _ _ s hw hc

theorem wit_haltOfAHandler :
    (sDelivered.me.guardOn plain = true ∧ waitAll sDelivered = (sDelivered, false) ∧
      1 = coreOf sDelivered.cur * 4 + sDelivered.me.view.hctxC.toNat ∧ sDelivered.me.csr.hdl = true ∧ sDelivered.me.view.hctxV = true ∧
      (sDelivered.ctx 1).st = .trapped ∧ 1 ≠ sDelivered.cur ∧ (sDelivered.die (coreOf sDelivered.cur / 64)).arb.length < 1024) ∧
    (waitAll (sArb sDelivered) = (sArb sDelivered, false) ∧ ((sArb sDelivered).ctx 1).st = .trapped ∧
      1024 ≤ ((sArb sDelivered).die (coreOf (sArb sDelivered).cur / 64)).arb.length) ∧
    (waitAll (sHandler 0x300) = (sHandler 0x300, false) ∧ ¬ (sHandler 0x300).me.csr.hdl = true) := by
  refine ⟨⟨rfl, waitAll_idle _ rfl rfl, rfl, rfl, rfl, rfl, by decide, by decide⟩, ⟨waitAll_idle _ rfl rfl, rfl, by decide +kernel⟩,
    waitAll_idle _ rfl rfl, by decide⟩

/-- The Mantel with a poisoned byte in a tile's first granule, and with no bank of the partition. -/
def sMpois : State := sMem.modDie 0 (fun d => { d with mpois := [5] })
def sNoBank : State := sMem.modPart 0 (fun p => { p with wsmask := [] })

/-- The lowest of some bytes that may not be read stops an access with its cause. -/
theorem mantelStops_of (s : State) (as : List Nat) (a : Nat) (h : a ∈ as ∧ goodB s [a] = false ∧ as.all (fun b => decide (a ≤ b) || goodB s [b]) = true) :
    MantelStops s as { cause := if s.bankOk (s.partOf s.cur) (dieOf s.cur) a = true then 0x0F else 0x0B, addr := BitVec.ofNat 64 (a / 64 * 64) } := by
  refine ⟨a, h.1, ?_, ?_, rfl⟩
  · intro hg; have := h.2.1; simp [goodB, hg.1, hg.2] at this
  · intro b hb hn
    have h1 := List.all_eq_true.mp h.2.2 b hb
    rw [Bool.or_eq_true] at h1
    rcases h1 with h1 | h1
    · exact of_decide_eq_true h1
    · exact absurd (mantelGood_of _ _ h1 b (List.mem_singleton.mpr rfl)) hn

theorem wit_mantelLoads :
    (∀ a ∈ touched (tileBytes (.mantel 0) (sMem.gen 3) sh0), mantelGood sMem a) ∧
    (Ready sMpois plain (vcnt ⟨.main, 8⟩ sh0.regs) ∧ sMpois.checkV ⟨.main, 8⟩ sh0.regs = none ∧ sMpois.tileSide (sMpois.gen 3) [3] = .ok (.mantel 0) ∧
      MantelStops sMpois (touched (tileBytes (.mantel 0) (sMpois.gen 3) sh0)) { cause := 0x0F, addr := 0 }) ∧
    MantelStops sNoBank (touched (tileBytes (.mantel 0) (sNoBank.gen 3) sh0)) { cause := 0x0B, addr := 0 } := by
  refine ⟨mantelGood_of _ _ (by decide +kernel), ⟨⟨rfl, rfl⟩, by decide, rfl, ?_⟩, ?_⟩
  · exact mantelStops_of sMpois (touched (tileBytes (.mantel 0) (sMpois.gen 3) sh0)) 5 (by decide +kernel)
  · exact mantelStops_of sNoBank (touched (tileBytes (.mantel 0) (sNoBank.gen 3) sh0)) 0 (by decide +kernel)

/-- Spaces that an access has and has not; scratchpad addresses in a region and in none; regions of all sizes. -/
theorem wit_nestAddresses :
    ((sMem.gen 1).attr.toNat % 4 ∉ [0] ∧ (sMem.gen 1).attr.toNat % 4 ∈ [1] ∧ (sMem.gen 1).attr.toNat / 2 ^ 13 % 8 ≤ 5 ∧
      (sMem.gen 1).attr.toNat % 4 = 1 ∧ ∃ r, sMem.regionAt (clusterOf sMem.cur) (sMem.gen 1).base.toNat = some r) ∧
    ((genOn 1 4096).attr.toNat % 4 = 1 ∧ sMem.regionAt (clusterOf sMem.cur) (genOn 1 4096).base.toNat = none) ∧
    ((sMem.gen 0).attr.toNat % 4 ∈ [0, 1, 3] ∧ (sMem.gen 0).attr.toNat % 4 = 0 ∧ (sMem.gen 3).attr.toNat % 4 ∈ [0, 1, 3] ∧ (sMem.gen 3).attr.toNat % 4 = 3) ∧
    (12 : Nat) ≤ 64 ∧ (64 : Nat) ≤ 64 := by
  exact ⟨⟨by decide, by decide, by decide, by decide, _, rfl⟩, ⟨by decide, rfl⟩, by decide, by decide, by decide⟩

/-- The same flag with the tags of a release that is taken over, and with those of none. -/
theorem wit_acquireTags :
    (PlainWrites sAcq ∧ sAcq.cur < 1024 ∧ sAcq.lgenOf sAcq.cur < 64) ∧
    (flagTag sAcq (acc sAcq .load .acq (.sp 0) [8192, 8193, 8194, 8195, 8196, 8197, 8198, 8199]) = mkTag 5 1 0 9 ∧
      TakesOver sAcq .device (mkTag 5 1 0 9) rec9) ∧
    (∃ q ∈ rec9.ranges, q.sp = .sp 0 ∧ q.lo ≤ 129 ∧ 129 < q.hi) ∧ (effSt (sAcq.lgenOf sAcq.cur) (sAcq.tag (.sp 0) 129) = 4 ∧
      tagCtx (sAcq.tag (.sp 0) 129) = tagCtx (mkTag 5 1 0 9) ∧ tagTok (sAcq.tag (.sp 0) 129) = tagTok (mkTag 5 1 0 9)) ∧
    (∀ r, ¬ TakesOver sAcq .device 0#32 r) := by
  refine ⟨⟨(fun w h => absurd h (List.not_mem_nil)), by decide, by decide⟩, ⟨by decide +kernel, by decide, by decide, by decide +kernel, by decide⟩,
    ⟨⟨.sp 0, 129, 130⟩, by decide, by decide⟩, by decide, ?_⟩
  intro r h
  exact absurd h.1 (by decide)

/-! ## Hypotheses that are met: copies, their plans, sources and ends -/

/-- A copy start of a COLL with no part of an aborted collective left for the context, and with one. -/
def sGone : State := sCp.modLaunch 0 (fun l => { l with collGone := [(0, 0, 9#8)] })

theorem wit_collStarts :
    (∀ k m, sCp.launchOn (coreOf sCp.cur) = some (k, m) → ∀ p ∈ m.collGone, ¬ (p.1 = (0#64).toNat % 256 ∧ p.2.1 = sCp.lcid sCp.cur)) ∧
    (Goes sGone plain none [.x 2] (0, 0) sGone [0#64] ∧ elems (sGone.gen 0) = elems (sGone.gen 1) ∧
      (∃ l, sGone.group (sGone.partOf sGone.cur) ((0#64).toNat % 256) (sGone.lcid sGone.cur) = some l) ∧
      (∃ k m, sGone.launchOn (coreOf sGone.cur) = some (k, m) ∧ m.collGone.find? (fun q => q.1 == 0 && q.2.1 == 0) = some (0, 0, 9#8) ∧
        0 = (0#64).toNat % 256 ∧ 0 = sGone.lcid sGone.cur) ∧
      (∀ c ∈ sGone.copiesOf sGone.cur, c.seq < sGone.me.copySeq) ∧ sGone.startSide (some 0) none false = .ok .mem ∧
      sGone.chanFull 3 = false ∧ (sGone.chan (coreOf sGone.cur) 3).err = 0#8 ∧ (sGone.me.handle 5).st = .free) := by
  refine ⟨?_, ⟨rfl, rfl, rfl⟩, by decide +kernel, ⟨_, get_eq [] _ (by decide +kernel)⟩, ⟨0, _, rfl, rfl, rfl, by decide +kernel⟩, ?_, rfl, by decide +kernel,
    by decide +kernel, by decide +kernel⟩
  · intro k m h p hp
    have h' : sCp.launchOn (coreOf sCp.cur) = some (0, bootLaunch) := rfl
    rw [h'] at h; cases h; cases hp
  · have h : sGone.copiesOf sGone.cur = [] := rfl
    rw [h]; intro c hc; cases hc

/-- What the engine reads in order is read as `Reads` says. -/
theorem reads_of (c : Copy) (sd : Side) : ∀ (l : List (Option Nat)) (s t : State) (vs : List (Byte × Bool)),
    readSome c sd s l = .ok (t, vs) → Reads c sd s l t vs
  | [], s, t, vs, h => by cases h; exact ⟨rfl, rfl⟩
  | none :: l, s, t, vs, h => by
    simp only [readSome, State.copyReadAt] at h
    split at h
    · cases h
    · rename_i r hr; cases h
      exact ⟨_, rfl, reads_of c sd l _ _ _ hr⟩
  | some a :: l, s, t, vs, h => by
    simp only [readSome, State.copyReadAt] at h
    split at h
    · cases h
    · rename_i u b p hu
      split at h
      · cases h
      · rename_i r hr; cases h
        refine ⟨u, (b, p), _, rfl, ?_, reads_of c sd l _ _ _ hr⟩
        unfold State.copyRead at hu
        split at hu
        · cases hu
        · rename_i q hq
          refine ⟨q, hq, ?_⟩
          cases sd <;> cases hu <;> exact ⟨rfl, rfl⟩

theorem reads_eq {c : Copy} {sd : Side} {s : State} {l : List (Option Nat)} {r : State × List (Byte × Bool)} (h : readSome c sd s l = .ok r) :
    Reads c sd s l r.1 r.2 := reads_of c sd l s _ _ h

/-- An answer that holds no stop is a reading. -/
theorem reads_ok (c : Copy) (sd : Side) (s : State) (l : List (Option Nat)) (h : passed (readSome c sd s l) = true) :
    ∃ t vs, Reads c sd s l t vs :=
  ⟨_, _, reads_of c sd l s _ _ (got_eq (s, []) _ h)⟩

/-- What a copy reads at one place. -/
theorem readsByte_ok (s : State) (c : Copy) (sd : Side) (a : Nat) (h : passed (readSome c sd s [some a]) = true) : ∃ t v, ReadsByte s c sd a t v := by
  obtain ⟨t, vs, u, v, r, _, hb, _⟩ := reads_ok c sd s [some a] h
  exact ⟨u, v, hb⟩

/-- Copies of memory in channel 3: of rows by an index list in which an index is −1, of blocks, of a nest with an edge. -/
def fgat (blk : Option (Fin 16)) : FCpyg := ⟨⟨plain, 3, 0, 1, none, none, 2⟩, 5, .x 1, blk⟩
def sLst : State := sCp.setBytes .dram (dramBase + 0x40000) (natLe 12 (1 + 0xFFFFFFFF * 2 ^ 32))
def onLst (c : Copy) : State := sLst.modCore 0 (fun q => { q with ch := [(3, ⟨[c], 0⟩)] })
def cGat (blk : Option (Fin 16)) (sx : Word) : Copy :=
  { cpyAt 0 4096 with op := .cpyg (fgat blk), gd := gN 12 4 0x9000, gx := gN 3 4 0x40000, sx := sx, snap := [sLst.dram] }
def edged (g : Gen) : Gen := { g with d0 := { g.d0 with bnd := 1 }, attr := g.attr ||| 0x1000 }
def withOp (i : Instr) : Copy := { cpyAt 0 4096 with op := i }
def cSca : Copy := { cGat none 0 with op := .cpys ⟨⟨plain, 3, 0, 1, none, none, 2⟩, 5⟩, gs := gN 12 4 4096, gd := gN 4 4 0x9000 }

/-- A copy of each kind that has a plan. -/
theorem wit_copyPlans :
    (∃ f, (withOp (.cpy fcpy)).op = .cpy f) ∧ (∃ f, (withOp (.cpfill ⟨plain, 3, 0, none, 2, .x 1⟩)).op = .cpfill f) ∧ (∃ f, (cGat none 0).op = .cpyg f) ∧
    (∃ f, cSca.op = .cpys f) ∧ (∃ f, (withOp (.cpyxUnpack fcpy)).op = .cpyxUnpack f) ∧ (∃ f, (withOp (.cpyf fcpy)).op = .cpyf f) ∧
    (∃ f, (withOp (.cpyr ⟨fcpy, .add, .f32⟩)).op = .cpyr f) ∧ (∃ f, (withOp (.coll ⟨fcpy, .add, .f32, .x 2⟩)).op = .coll f) ∧
    entry { cSca with aux := [(1, 0xFFFFFFFF#64)] } 1 = -1 :=
  ⟨⟨_, rfl⟩, ⟨_, rfl⟩, ⟨_, rfl⟩, ⟨_, rfl⟩, ⟨_, rfl⟩, ⟨_, rfl⟩, ⟨_, rfl⟩, ⟨_, rfl⟩, by decide +kernel⟩

/-- The Mantel as a source. -/
def cMan : Copy := { cpyAt 0 0 with sside := .mantel 0, gs := genOn 3 0 }

/-- What the first entry of the list reads as. -/
def entRead : State × List (Byte × Bool) :=
  got (onLst (cGat none 0), []) (readSome (cGat none 0) (cGat none 0).xside (onLst (cGat none 0)) (bytesOf (cGat none 0).xside (elemAt (cGat none 0).gx 0) 4))

theorem entRead_eq : readSome (cGat none 0) (cGat none 0).xside (onLst (cGat none 0)) (bytesOf (cGat none 0).xside (elemAt (cGat none 0).gx 0) 4) = .ok entRead :=
  got_eq _ _ (by decide +kernel)

/-- Sources of each kind: bytes of memory, a scratchpad and the Mantel; an entry known, read and outside the edge; a row of index −1 and of
index 1, with and without a block table; stream elements present and not; a page; an element of a reduction. -/
theorem wit_copySources :
    (∃ t v, ReadsByte (sRun (cpyAt 0 4096)) (cpyAt 0 4096) (cpyAt 0 4096).sside 4096 t v) ∧
    (∃ t v, ReadsByte sCp { cpyAt 0 4096 with sside := spSide } spSide 8192 t v) ∧ (∃ t v, ReadsByte sCp cMan cMan.sside 63 t v) ∧
    (∃ w u d, Entry (onLst (cGat none 0)) (cGat none 0) 0 w u d ∧ (w.setWidth 32).toInt ≠ -1 ∧
      ∃ t v, ReadsByte u d (cGat none 0).sside ((cGat none 0).sside.at (4096 + BitVec.ofInt 64 (w.setWidth 32).toInt * (cGat none 0).gs.d5.stp.signExtend 64)) t v) ∧
    (∃ d : Copy, d = { cGat (some 1) 0 with aux := [(0, 0xFFFFFFFF#64)] } ∧ Entry (onLst d) d (1 / 2 ^ (1 : Fin 16).val) 0xFFFFFFFF#64 (onLst d) d ∧
      ((0xFFFFFFFF#64).setWidth 32).toInt = -1) ∧
    (∃ d : Copy, d = { cGat none 0 with gx := edged (gN 3 4 0x40000) } ∧ isOutside d.gx 2 = true ∧ Entry (onLst d) d 2 0#64 (onLst d) { d with aux := Tab.put 2 0#64 d.aux }) ∧
    (∃ c : Copy, c = { withOp (.cpyxUnpack fcpy) with aux := [(0, 5#64)] } ∧ (∀ h, h ≤ 1 / 64 → (Tab.find h c.aux).isSome = true) ∧
      (mask c 4 (1 / 64)).testBit (1 % 64) = false ∧ (mask c 4 (2 / 64)).testBit (2 % 64) = true ∧
      ∃ t v, ReadsByte (sRun c) c c.sside (c.sside.at (elemAt c.gs 0 + BitVec.ofNat 64 (groupAt c 4 4 (2 / 64) + 8 + ones (mask c 4 (2 / 64) % 2 ^ (2 % 64)) * 4 + 3))) t v) ∧
    (∃ t bs, Tab.find 0 (withOp (.cpyxUnpack fcpy)).aux = none ∧ Reads (withOp (.cpyxUnpack fcpy)) .mem (sRun (withOp (.cpyxUnpack fcpy)))
      (bytesOf .mem (elemAt (withOp (.cpyxUnpack fcpy)).gs 0 + BitVec.ofNat 64 (groupAt (withOp (.cpyxUnpack fcpy)) 4 4 0)) 8) t bs) ∧
    (∃ w, Tab.find 1 { withOp (.cpyf fcpy) with aux := [(1, 7#64)] }.aux = some w) := by
  refine ⟨readsByte_ok _ _ _ _ (by decide +kernel), readsByte_ok _ _ _ _ (by decide +kernel), readsByte_ok _ _ _ _ (by decide +kernel), ?_,
    ⟨_, rfl, .inl ⟨by decide, rfl, rfl⟩, by decide⟩, ⟨_, rfl, by decide +kernel, .inr ⟨by decide, rfl, .inl ⟨by decide +kernel, rfl, rfl⟩⟩⟩,
    ⟨_, rfl, ?_, by decide +kernel, by decide +kernel, readsByte_ok _ _ _ _ (by decide +kernel)⟩, ?_, ⟨_, rfl⟩⟩
  · exact ⟨BitVec.ofNat 64 (leNat (entRead.2.map (·.1))), entRead.1, _, .inr ⟨by decide, rfl, .inr ⟨by decide +kernel, entRead.2,
      reads_eq entRead_eq, rfl⟩⟩, by decide +kernel, readsByte_ok _ _ _ _ (by decide +kernel)⟩
  · intro h hh
    have : h = 0 := by omega
    subst this; rfl
  · obtain ⟨t, bs, h⟩ := reads_ok (withOp (.cpyxUnpack fcpy)) .mem (sRun (withOp (.cpyxUnpack fcpy)))
      (bytesOf .mem (elemAt (withOp (.cpyxUnpack fcpy)).gs 0 + BitVec.ofNat 64 (groupAt (withOp (.cpyxUnpack fcpy)) 4 4 0)) 8) (by decide +kernel)
    exact ⟨t, bs, by decide, h⟩

/-- Places outside the edge, and one list after another. -/
theorem reads_none (c : Copy) (sd : Side) (s : State) : ∀ n, Reads c sd s (List.replicate n none) s (List.replicate n (0#8, false))
  | 0 => ⟨rfl, rfl⟩
  | n + 1 => ⟨_, rfl, reads_none c sd s n⟩

theorem reads_append (c : Copy) (sd : Side) {l' : List (Option Nat)} {u t : State} {ws : List (Byte × Bool)} (h2 : Reads c sd u l' t ws) :
    ∀ (l : List (Option Nat)) (s : State) (vs : List (Byte × Bool)), Reads c sd s l u vs → Reads c sd s (l ++ l') t (vs ++ ws)
  | [], s, vs, h => by obtain ⟨rfl, rfl⟩ := h; exact h2
  | none :: l, s, vs, h => by
    obtain ⟨r, rfl, h⟩ := h
    exact ⟨r ++ ws, rfl, reads_append c sd h2 l s r h⟩
  | some a :: l, s, vs, h => by
    obtain ⟨w, v, r, rfl, hb, h⟩ := h
    exact ⟨w, v, r ++ ws, rfl, hb, reads_append c sd h2 l w r h⟩

/-- Of a nest of 512 elements whose edge is 1, all elements but the first lie outside the edge. -/
theorem edged_attr (b : Word) : (edged (gN 512 8 b)).attr = 0x3000#32 := by
  have h0 : (edged (gN 512 8 b)).attr = (gN 512 8 b).attr ||| 0x1000 := rfl
  have h1 : (gN 512 8 b).attr = 0x2000#32 := rfl
  rw [h0, h1]; decide

theorem edged_dim (b : Word) : (edged (gN 512 8 b)).dim 0 = ⟨512#32, 8, 0#32, 1#32⟩ := rfl

theorem edged_isOutside (b : Word) (n : Nat) (h0 : 0 < n) (h : n < 512) : isOutside (edged (gN 512 8 b)) n = true := by
  have hd : dimsOf (edged (gN 512 8 b)) = 1 := by unfold dimsOf; rw [edged_attr]; decide
  unfold isOutside
  rw [hd, edged_attr]
  simp only [List.range_one, List.any_cons, List.any_nil, Bool.or_false, digit, Claims.countOf, edged_dim, List.range_zero, List.map_nil, List.prod_nil]
  have : (512#32).toNat = 512 ∧ (0#32).toNat = 0 ∧ (1#32).toNat = 1 ∧ (1#32 : BitVec 32) ≠ 0 ∧ (0x3000#32).getLsbD 12 = true := by decide
  rw [this.1, this.2.1, this.2.2.1, this.2.2.2.2, Bool.true_and, decide_eq_true_eq]
  refine ⟨this.2.2.2.1, ?_⟩
  rw [show max 1 512 = 512 from rfl, Nat.div_one]
  omega

theorem edged_elemOut (b : Word) (n : Nat) (h0 : 0 < n) (h : n < 512) : (edged (gN 512 8 b)).elemOut n = true := by
  have hd : (edged (gN 512 8 b)).dims = 1 := by unfold Gen.dims Gen.dimsRaw; rw [edged_attr]; decide
  have he : (edged (gN 512 8 b)).edge = true := by unfold Gen.edge; rw [edged_attr]; decide
  unfold Gen.elemOut
  rw [hd, he]
  simp only [List.range_one, List.any_cons, List.any_nil, Bool.or_false, Gen.kd, Gen.count, edged_dim, List.range_zero, List.map_nil]
  have : (512#32).toNat = 512 ∧ (0#32).toNat = 0 ∧ (1#32).toNat = 1 ∧ ((1#32 : BitVec 32) != 0#32) = true ∧ prod [] = 1 := by decide
  rw [this.1, this.2.1, this.2.2.1, this.2.2.2.1, this.2.2.2.2, Bool.true_and, Bool.true_and, decide_eq_true_eq]
  rw [show max 1 512 = 512 from rfl, Nat.div_one]
  omega

/-- A page of whose elements only the first lies inside the edge. -/
theorem pageBytes_edged (c : Copy) (h0 : isOutside c.gs 0 = false) (ho : ∀ n, 0 < n → n < 512 → isOutside c.gs n = true) :
    pageBytes c 0 = (List.range 8).map (fun i => some (c.sside.at (elemAt c.gs 0 + BitVec.ofNat 64 i))) ++ List.replicate 4088 none := by
  unfold pageBytes
  rw [show (4096 : Nat) = 8 + 4088 from rfl, List.range_add, List.map_append]
  refine congr (congrArg _ ?_) ?_
  · apply List.map_congr_left
    intro i hi
    rw [List.mem_range] at hi
    simp [show i / 8 = 0 by omega, h0]
  · rw [List.eq_replicate_iff]
    refine ⟨by simp, ?_⟩
    intro b hb
    simp only [List.map_map, List.mem_map, List.mem_range, Function.comp] at hb
    obtain ⟨i, hi, rfl⟩ := hb
    simp [show (8 + i) / 8 = i / 8 + 1 by omega, ho (i / 8 + 1) (by omega) (by omega)]

/-- A page of whose bytes one element is inside the edge; a reduction's element read with its old one, alone and after one that shares bytes. -/
def cPg : Copy := { withOp (.cpyf fcpy) with gs := edged (gN 512 8 0x10000), gd := gN 1 8 0x20000 }
def cRed (stp : BitVec 48) : Copy := { withOp (.cpyr ⟨fcpy, .add, .f32⟩) with gd := gN 4 stp 0x9000 }

def redRead : State × List (Byte × Bool) := got (sCp, []) (readSome (cRed 4) (cRed 4).sside (sRun (cRed 4)) (sourceBytes (cRed 4) 1 4))
theorem redRead_eq : readSome (cRed 4) (cRed 4).sside (sRun (cRed 4)) (sourceBytes (cRed 4) 1 4) = .ok redRead := got_eq _ _ (by decide +kernel)
def redPlaces : List (Option Nat) := (((List.range 4).map (dByte (cRed 4) 1)).filter (fun a => (known (cRed 4) 4 1 a).isNone)).map some
def redOld : State × List (Byte × Bool) := got (sCp, []) (readSome (cRed 4) (cRed 4).dside redRead.1 redPlaces)
theorem redOld_eq : readSome (cRed 4) (cRed 4).dside redRead.1 redPlaces = .ok redOld := got_eq _ _ (by decide +kernel)

theorem wit_computedSources :
    (Tab.find 0 cPg.aux = none ∧ ∃ t bs, Reads cPg cPg.sside (sRun cPg) (pageBytes cPg 0) t bs) ∧
    (∃ u src t rd, Tab.find 1 (cRed 4).aux = none ∧
      (∀ m, m < 1 → isOutside (cRed 4).gd m = false → (∃ i j, i < 4 ∧ j < 4 ∧ dByte (cRed 4) m i = dByte (cRed 4) 1 j) → (Tab.find m (cRed 4).aux).isSome = true) ∧
      Reads (cRed 4) (cRed 4).sside (sRun (cRed 4)) (sourceBytes (cRed 4) 1 4) u src ∧
      Reads (cRed 4) (cRed 4).dside u ((((List.range 4).map (dByte (cRed 4) 1)).filter (fun a => (known (cRed 4) 4 1 a).isNone)).map some) t rd) ∧
    (∃ d : Copy, d = { cRed 2 with aux := [(0, 1#64)] } ∧ Tab.find 1 d.aux = none ∧ (∀ m, m < 1 → (Tab.find m d.aux).isSome = true) ∧
      (known d 4 1 (dByte d 1 0)).isSome = true ∧ Tab.find 0 d.aux = some 1#64) ∧
    ((f32Val 0x7FC00000#32).isNan = true ∧ (f32Val 0x3F800000#32).isNan = false ∧ RedFmt.bf16 ≠ .i32) := by
  refine ⟨⟨by decide, ?_⟩, ?_, ⟨_, rfl, by decide, ?_, by decide +kernel, by decide⟩, by decide +kernel⟩
  · rw [pageBytes_edged cPg (by decide +kernel) (edged_isOutside _)]
    obtain ⟨t, vs, h⟩ := reads_ok cPg cPg.sside (sRun cPg) ((List.range 8).map (fun i => some (cPg.sside.at (elemAt cPg.gs 0 + BitVec.ofNat 64 i)))) (by decide +kernel)
    exact ⟨t, _, reads_append _ _ (reads_none _ _ t _) _ _ _ h⟩
  · refine ⟨redRead.1, redRead.2, redOld.1, redOld.2, by decide, ?_, reads_eq redRead_eq, reads_eq redOld_eq⟩
    intro m hm _ ⟨i, j, hi, hj, h⟩
    have : m = 0 := by omega
    subst this
    have hne : ∀ i j : Fin 4, dByte (cRed 4) 0 i.val ≠ dByte (cRed 4) 1 j.val := by decide +kernel
    exact absurd h (hne ⟨i, hi⟩ ⟨j, hj⟩)
  · intro m hm
    have : m = 0 := by omega
    subst this; rfl

/-- The engine that has met no stop. -/
theorem eng_of (e : Eng) (h : e.stop.isNone = true) : e = ⟨e.s, e.c, none⟩ := by
  cases e with
  | mk s c st => cases st with
    | none => rfl
    | some x => cases h

/-- What a planned copy does for its next byte, as a computed answer: its row passes, its source gives a byte, and the place takes it. -/
def moveB (s : State) (c : Copy) : Bool :=
  match c.plan[c.pos]? with
  | some (d, (n, src) :: _) =>
    let r := rowCheck ⟨s, c, none⟩ n
    let q := needByte r src
    r.stop.isNone && (!c.checks || Tab.get true n r.c.rows) && q.1.stop.isNone && q.2.isSome &&
      (match q.1.s.copyCheck q.1.c .store .write c.dside d with
        | .ok h => dataB h.sp h.addr
        | .error _ => false)
  | _ => false

theorem moves_of (s : State) (c : Copy) (hm : moveB s c = true) : ∃ d n src more s1 c1 v s2 c2 h, c.plan[c.pos]? = some (d, (n, src) :: more) ∧
    rowCheck ⟨s, c, none⟩ n = ⟨s1, c1, none⟩ ∧ (c.checks = true → Tab.get true n c1.rows = true) ∧
    needByte ⟨s1, c1, none⟩ src = (⟨s2, c2, none⟩, some v) ∧ s2.copyCheck c2 .store .write c.dside d = .ok h ∧ dataPlace h.sp h.addr := by
  unfold moveB at hm
  split at hm
  · rename_i d n src more hp
    simp only [Bool.and_eq_true, Bool.or_eq_true, Bool.not_eq_true'] at hm
    obtain ⟨⟨⟨⟨h1, h2⟩, h3⟩, h4⟩, h5⟩ := hm
    have hr := eng_of _ h1
    have hq := eng_of _ h3
    rw [hr] at h3 h4 h5 hq
    split at h5
    · rename_i h hc
      obtain ⟨v, hv⟩ := Option.isSome_iff_exists.mp h4
      refine ⟨d, n, src, more, _, _, v, _, _, h, hp, hr, ?_, Prod.ext hq hv, hc, dataPlace_of _ _ h5⟩
      intro hk; rcases h2 with h2 | h2
      · rw [hk] at h2; cases h2
      · exact h2
    · cases h5
  · cases hm

/-- A copy heads its channel of a state and runs. -/
theorem runs_of (s : State) (c : Copy) (hh : Heads s 0 3 c []) (hs : c.stop = none) (hg : c.staging = []) (hw : s.copyWaits c = false) (hb : s.wbuf = []) :
    Runs s s 0 3 c [] := ⟨hh, hs, hg, hw, (perform_idle _ _ hb).symm⟩

/-- The same state with another launch of request slots, whose row 0 goes to slot 255 of incarnation 255, and to one that is not active. -/
def onReq (c : Copy) : State := { onLst c with launches := [(0, lReq)] }
theorem headsLst_of (c : Copy) (h : c.gcid = 0) : Heads (onReq c) 0 3 c [] := by
  refine ⟨rfl, (by rw [h]; rfl), (by intro d hd; cases hd), ?_⟩
  intro k hk hne d hd
  rcases (show k = 0 ∨ k = 1 ∨ k = 2 by omega) with rfl | rfl | rfl <;> cases hd

def cChk : Copy := cGat none 0x1FFFF
def cStale : Copy := cGat none 0x10000
def cUnp : Copy := withOp (.cpyxUnpack fcpy)
def cFill : Copy := withOp (.cpfill ⟨plain, 3, 0, none, 2, .x 1⟩)

/-- The engine of a CPYS with its list read. -/
def scaList : Eng := (List.range (elems cSca.gx)).foldl needEntry ⟨onReq cSca, cSca, none⟩

theorem wit_plannedCopies :
    (∀ c ∈ [cpyAt 0 4096, cpyAt 15 4096, cGat none 0, cChk, cGat (some 1) 0, cUnp, cRed 4, cRed 2, cFill, cMan],
      Runs (onReq c) (onReq c) 0 3 c [] ∧ moveB (onReq c) c = true) ∧
    (∀ c ∈ [cpyAt 0 4096, cChk, cUnp, cRed 4, cFill, withOp (.cpyf fcpy), cSca], Planned c.op) ∧
    (∃ s0 c0, scaList = ⟨s0, c0, none⟩ ∧ moveB s0 c0 = true ∧ c0.pos = cSca.pos) ∧
    (cStale.checks = true ∧ ∃ d n src s1 c1, cStale.plan[cStale.pos]? = some (d, (n, src) :: []) ∧ rowCheck ⟨onReq cStale, cStale, none⟩ n = ⟨s1, c1, none⟩ ∧
      Tab.get true n c1.rows = false) ∧
    (∃ k l, (onReq cChk).launchOn (coreOf cChk.gcid) = some (k, l) ∧ ((l.slot (cChk.sx.toNat % 256)).act = true ∧ (l.slot (cChk.sx.toNat % 256)).inc.toNat = cChk.sx.toNat / 256 % 256) ∧
      ¬ ((l.slot (cStale.sx.toNat % 256)).act = true ∧ (l.slot (cStale.sx.toNat % 256)).inc.toNat = cStale.sx.toNat / 256 % 256)) ∧
    (Runs (onReq (withOp (.cpmark ⟨plain, 3, none⟩))) (onReq (withOp (.cpmark ⟨plain, 3, none⟩))) 0 3 (withOp (.cpmark ⟨plain, 3, none⟩)) [] ∧
      (withOp (.cpmark ⟨plain, 3, none⟩)).pos = 0) := by
  have hd : ∀ c ∈ [cpyAt 0 4096, cpyAt 15 4096, cGat none 0, cChk, cGat (some 1) 0, cUnp, cRed 4, cRed 2, cFill, cMan],
      c.gcid = 0 ∧ c.stop = none ∧ c.staging = [] ∧ (onReq c).copyWaits c = false ∧ (onReq c).wbuf = [] ∧ moveB (onReq c) c = true := by
    intro c hc
    simp only [List.mem_cons, List.not_mem_nil, or_false] at hc
    rcases hc with rfl | rfl | rfl | rfl | rfl | rfl | rfl | rfl | rfl | rfl <;>
      exact ⟨rfl, rfl, rfl, by decide +kernel, rfl, by decide +kernel⟩
  refine ⟨fun c hc => ⟨runs_of _ _ (headsLst_of _ (hd c hc).1) (hd c hc).2.1 (hd c hc).2.2.1 (hd c hc).2.2.2.1 (hd c hc).2.2.2.2.1, (hd c hc).2.2.2.2.2⟩, ?_,
    ⟨scaList.s, scaList.c, eng_of _ (by decide +kernel), by decide +kernel, by decide +kernel⟩, ⟨by decide +kernel, 0x9000, 0, _, _, _, rfl, eng_of _ (by decide +kernel), by decide +kernel⟩,
    ⟨0, lReq, rfl, by decide +kernel, by decide +kernel⟩, runs_of _ _ (headsLst_of _ rfl) rfl rfl (by decide +kernel) rfl, rfl⟩
  intro c hc
  simp only [List.mem_cons, List.not_mem_nil, or_false] at hc
  unfold Planned
  rcases hc with rfl | rfl | rfl | rfl | rfl | rfl | rfl <;> simp [cChk, cGat, cUnp, cRed, cFill, cSca, withOp, cpyAt]

/-! ## Hypotheses that are met: packed streams, collectives and pages -/

/-- A CPYX pack of four elements of which the second alone is not zero: its first mask byte, a byte of an element that is not present, and
one of an element that is. -/
def cPack (pos : Nat) : Copy :=
  { withOp (.cpyxPack fcpy) with pos := pos, aux := (List.range 16).map (fun k => (k, if k = 5 then 0x103#64 else 0#64)) }

theorem wit_packedCopies :
    (∀ pos ∈ [0, 8, 12], Runs (onReq (cPack pos)) (onReq (cPack pos)) 0 3 (cPack pos) []) ∧
    ((streamItems 4 4)[0]? = some (.mask 0 0) ∧ itemWritten (cPack 0) 4 (.mask 0 0) = true ∧ 0 = ((streamItems 4 4).take 0).countP (itemWritten (cPack 0) 4) ∧
      (∀ i b, i < 8 → 64 * 0 + 8 * 0 + i < elems (cPack 0).gs → b < 4 → (Tab.find ((64 * 0 + 8 * 0 + i) * 4 + b) (cPack 0).aux).isSome = true) ∧
      ∃ h, (onReq (cPack 0)).copyCheck (cPack 0) .store .write (cPack 0).dside ((cPack 0).dside.at (elemAt (cPack 0).gd 0 + BitVec.ofNat 64 0)) = .ok h ∧ dataPlace h.sp h.addr) ∧
    ((streamItems 4 4)[8]? = some (.elem 0 0) ∧ itemWritten (cPack 8) 4 (.elem 0 0) = false) ∧
    ((streamItems 4 4)[12]? = some (.elem 1 0) ∧ itemWritten (cPack 12) 4 (.elem 1 0) = true ∧ 8 = ((streamItems 4 4).take 12).countP (itemWritten (cPack 12) 4) ∧
      ∃ h, (onReq (cPack 12)).copyCheck (cPack 12) .store .write (cPack 12).dside ((cPack 12).dside.at (elemAt (cPack 12).gd 0 + BitVec.ofNat 64 8)) = .ok h ∧ dataPlace h.sp h.addr) ∧
    ((∀ b, b < 4 → Tab.find (3 * 4 + b) (withOp (.cpyxPack fcpy)).aux = none) ∧
      ∃ t bs, Reads (withOp (.cpyxPack fcpy)) .mem sCp (sourceBytes (withOp (.cpyxPack fcpy)) 3 4) t bs) := by
  refine ⟨?_, ⟨rfl, rfl, by decide +kernel, ?_, hit ((onReq (cPack 0)).copyCheck (cPack 0) .store .write .mem 0x9000), got_eq _ _ (by decide +kernel), dataPlace_of _ _ (by decide +kernel)⟩,
    ⟨rfl, by decide +kernel⟩, ⟨rfl, by decide +kernel, by decide +kernel, hit ((onReq (cPack 12)).copyCheck (cPack 12) .store .write .mem 0x9008), got_eq _ _ (by decide +kernel),
      dataPlace_of _ _ (by decide +kernel)⟩, (fun _ _ => rfl), reads_ok _ _ _ _ (by decide +kernel)⟩
  · intro pos hp
    refine runs_of _ _ (headsLst_of _ rfl) rfl rfl ?_ rfl
    simp only [List.mem_cons, List.not_mem_nil, or_false] at hp
    rcases hp with rfl | rfl | rfl <;> decide +kernel
  · intro i b _ hi hb
    have h : ∀ i b : Fin 4, (Tab.find ((64 * 0 + 8 * 0 + i.val) * 4 + b.val) (cPack 0).aux).isSome = true := by decide +kernel
    have he : elems (cPack 0).gs = 4 := by decide +kernel
    rw [he] at hi
    exact h ⟨i, by omega⟩ ⟨b, hb⟩

/-- A participant of a COLL of one rank, with nothing read, with all its elements read, and with all results there. -/
def cColl (rows : Tab Bool) (aux : Tab Word) : Copy := { withOp (.coll ⟨fcpy, .add, .f32, .x 2⟩) with rows := rows, aux := aux, grp := [1, 0, 1, 0] }
def rows4 : Tab Bool := [(0, false), (1, true), (2, false), (3, false)]
def res4 : Tab Word := [(2 ^ 33, 1), (2 ^ 33 + 1, 2 ^ 32), (2 ^ 33 + 2, 3), (2 ^ 33 + 3, 4)]

theorem wit_collectives :
    (Tab.find 3 (cColl [] []).rows = none ∧ ∃ t bs, Reads (cColl [] []) .mem sCp (sourceBytes (cColl [] []) 3 4) t bs) ∧
    ((1 : Nat) ≤ 1 ∧ (1 : Nat) ≤ 4096 ∧ (1 : Nat) ≤ 4096 ∧ (4096 : Nat) ≤ 4096) ∧
    ((∀ c ∈ [cColl rows4 []], elems c.gs = 4) ∧ [cColl rows4 []].Pairwise (fun a b => ¬ (a.gcid = b.gcid ∧ a.seq = b.seq)) ∧
      (∀ b ∈ [cColl rows4 []], (Tab.find 1 b.rows).isSome = true) ∧ (∃ b ∈ [cColl rows4 []], Tab.find (2 ^ 33 + 1) b.aux = none) ∧
      ∃ b ∈ [cColl [] []], Tab.find 1 b.rows = none) ∧
    (Runs (onReq (cColl rows4 res4)) (onReq (cColl rows4 res4)) 0 3 (cColl rows4 res4) [] ∧
      (∀ i, i < elems (cColl rows4 res4).gs ∨ i < elems (cColl rows4 res4).gd → (Tab.find i (cColl rows4 res4).rows).isSome = true) ∧
      ∃ d m n b more w h, (cColl rows4 res4).plan[(cColl rows4 res4).pos]? = some (d, (m, .red n b) :: more) ∧ Tab.find (2 ^ 33 + n) (cColl rows4 res4).aux = some w ∧
        (onReq (cColl rows4 res4)).copyCheck (cColl rows4 res4) .store .write (cColl rows4 res4).dside d = .ok h ∧ dataPlace h.sp h.addr) := by
  refine ⟨⟨rfl, reads_ok _ _ _ _ (by decide +kernel)⟩, by decide, ⟨?_, ?_, ?_, ⟨_, List.mem_singleton.mpr rfl, by decide +kernel⟩, ⟨_, List.mem_singleton.mpr rfl, rfl⟩⟩,
    runs_of _ _ (headsLst_of _ rfl) rfl rfl (by decide +kernel) rfl, ?_, 0x9000, 0, 0, 0, [], 1, hit ((onReq (cColl rows4 res4)).copyCheck (cColl rows4 res4) .store .write .mem 0x9000),
    rfl, by decide +kernel, got_eq _ _ (by decide +kernel), dataPlace_of _ _ (by decide +kernel)⟩
  · intro c hc; rw [List.mem_singleton.mp hc]; decide +kernel
  · exact List.pairwise_singleton _ _
  · intro c hc; rw [List.mem_singleton.mp hc]; decide +kernel
  · have h4 : elems (cColl rows4 res4).gs = 4 ∧ elems (cColl rows4 res4).gd = 4 := by decide +kernel
    have h : ∀ i : Fin 4, (Tab.find i.val (cColl rows4 res4).rows).isSome = true := by decide +kernel
    intro i hi
    exact h ⟨i, by omega⟩

/-- The engine's reading of one list after another, and of places outside the edge. -/
theorem readSome_none (c : Copy) (sd : Side) (s : State) : ∀ n, readSome c sd s (List.replicate n none) = .ok (s, List.replicate n (0#8, false))
  | 0 => rfl
  | n + 1 => by simp only [List.replicate_succ, readSome, State.copyReadAt, readSome_none c sd s n]; rfl

theorem readSome_append (c : Copy) (sd : Side) {l' : List (Option Nat)} {u t : State} {ws : List (Byte × Bool)} (h2 : readSome c sd u l' = .ok (t, ws)) :
    ∀ (l : List (Option Nat)) (s : State) (vs : List (Byte × Bool)), readSome c sd s l = .ok (u, vs) → readSome c sd s (l ++ l') = .ok (t, vs ++ ws)
  | [], s, vs, h => by cases h; exact h2
  | a :: l, s, vs, h => by
    rw [List.cons_append]
    unfold readSome at h ⊢
    cases hr : s.copyReadAt c sd a with
    | error e => rw [hr] at h; cases h
    | ok r =>
      rw [hr] at h
      obtain ⟨s1, b, p⟩ := r
      simp only at h ⊢
      cases hs : readSome c sd s1 l with
      | error e => rw [hs] at h; cases h
      | ok q => rw [hs] at h; cases h; rw [readSome_append c sd h2 l s1 _ hs]; rfl

theorem enumFrom_append {α : Type} : ∀ (l m : List α) (n : Nat), enumFrom n (l ++ m) = enumFrom n l ++ enumFrom (n + l.length) m
  | [], m, n => rfl
  | a :: l, m, n => by simp only [List.cons_append, enumFrom, enumFrom_append l m (n + 1), List.length_cons, Nat.add_comm 1, Nat.add_assoc]

theorem enumFrom_fst {α : Type} : ∀ (l : List α) (n : Nat) (q : Nat × α), q ∈ enumFrom n l → n ≤ q.1 ∧ q.1 < n + l.length
  | [], n, q, h => by cases h
  | a :: l, n, q, h => by
    rcases List.mem_cons.mp h with rfl | h
    · simp
    · have := enumFrom_fst l (n + 1) q h
      simp only [List.length_cons]; omega

/-- The fingerprint of zeros. -/
theorem crc64_zeros : ∀ n, crc64 (List.replicate n 0#8) = 0#64
  | 0 => rfl
  | n + 1 => by
    have h : crcByte 0#64 0#8 = 0#64 := by decide
    unfold crc64
    rw [List.replicate_succ, List.foldl_cons, h]
    exact crc64_zeros n

theorem memBytes_zeros (s : State) (sp : Space) : ∀ (n a : Nat), (∀ b, a ≤ b → b < a + n → s.memByte sp b = 0#8) → s.memBytes sp a n = List.replicate n 0#8
  | 0, a, h => rfl
  | n + 1, a, h => by
    rw [State.memBytes, List.replicate_succ, h a (by omega) (by omega), memBytes_zeros s sp n (a + 1) (fun b h1 h2 => h b (by omega) (by omega))]

/-- Pages of whose elements the first lies inside the edge: the source's holds zeros. Table of four entries of memory; the destination's page is
eligible by a translation of 4 KiB, or not. -/
def fded : FCpyx := ⟨⟨plain, 3, 2, 4, none, none, 3⟩, 5⟩
def leafD : Leaf := { asid := 0, va := 0x30000, size := 4096, pa := dramBase + 0x30000, host := false, rc := false, x := true, w := true, r := true, dd := true }
def cDd (held : List Leaf) : Copy :=
  { withOp (.cpyd fded) with gs := edged (gN 512 8 0x60000), gd := edged (gN 512 8 0x30000), gx := gN 4 32 0x40000, held := held }
def onTab (e : Nat) (c : Copy) : State := (sCp.setBytes .dram (dramBase + 0x40000) (natLe 32 e)).modCore 0 (fun q => { q with ch := [(3, ⟨[c], 0⟩)] })

/-- What the first element reads as, and the whole page. -/
def firstBytes (c : Copy) : List (Option Nat) := (List.range 8).map (fun i => some (c.sside.at (elemAt c.gs 0 + BitVec.ofNat 64 i)))
def ddRead (e : Nat) (c : Copy) : State × List (Byte × Bool) := got (sCp, []) (readSome c c.sside (onTab e c) (firstBytes c))
def ddPage : List (Byte × Bool) := List.replicate 8 (0#8, false) ++ List.replicate 4088 (0#8, false)

theorem pageRead (e : Nat) (c : Copy) (h0 : isOutside c.gs 0 = false)
    (h : ∀ n, 0 < n → n < 512 → isOutside c.gs n = true)
    (hr : passed (readSome c c.sside (onTab e c) (firstBytes c)) = true) (hz : (ddRead e c).2 = List.replicate 8 (0#8, false)) :
    readSome c c.sside (onTab e c) (pageBytes c 0) = .ok ((ddRead e c).1, ddPage) := by
  rw [pageBytes_edged c h0 h]
  have hq : readSome c c.sside (onTab e c) (firstBytes c) = .ok ((ddRead e c).1, List.replicate 8 (0#8, false)) := by
    rw [← hz]; exact got_eq (sCp, []) _ hr
  exact readSome_append _ _ (readSome_none _ _ _ _) _ _ _ hq

/-- The places of a probe, each of which passes. -/
def hitsOf (s : State) (c : Copy) (fp : Nat) : List (List Hit) := (List.range 4).map (fun j =>
  if isOutside c.gx ((fp + j) % elems c.gx) then []
  else (List.range 32).map (fun b => hit (s.copyCheck c .atomic .atomic c.xside (c.xside.at (elemAt c.gx ((fp + j) % elems c.gx) + BitVec.ofNat 64 b)))))

theorem probed_of (s : State) (c : Copy) (fp : Nat) (h : ∀ j : Fin 4, ∀ b : Fin 32, isOutside c.gx ((fp + j.val) % elems c.gx) = false ∧
      passed (s.copyCheck c .atomic .atomic c.xside (c.xside.at (elemAt c.gx ((fp + j.val) % elems c.gx) + BitVec.ofNat 64 b.val))) = true) :
    Probed s c fp ((hitsOf s c fp).flatten.foldl (fun u h => u.copyTouch c .atomic h) s)
      ((hitsOf s c fp).map (fun l => l.map (fun h => ((hitsOf s c fp).flatten.foldl (fun u h => u.copyTouch c .atomic h) s).memByte h.sp h.addr))) (hitsOf s c fp) := by
  refine ⟨by simp [hitsOf], ?_, rfl, rfl⟩
  intro j hj l hl
  have hl' : (hitsOf s c fp)[j]? = some ((List.range 32).map (fun b => hit (s.copyCheck c .atomic .atomic c.xside
      (c.xside.at (elemAt c.gx ((fp + j) % elems c.gx) + BitVec.ofNat 64 b))))) := by
    unfold hitsOf
    rw [List.getElem?_map, List.getElem?_range hj, Option.map_some, if_neg (by rw [(h ⟨j, hj⟩ 0).1]; decide)]
  rw [hl'] at hl
  cases hl
  refine ⟨fun ho => absurd ho (by rw [(h ⟨j, hj⟩ 0).1]; decide), fun _ => ⟨by simp, ?_⟩⟩
  intro b q hq
  rw [List.getElem?_map] at hq
  cases hb : (List.range 32)[b]? with
  | none => rw [hb] at hq; cases hq
  | some x =>
    have hlt : b < 32 := by
      have := (List.getElem?_eq_some_iff.mp hb).1
      simpa using this
    rw [List.getElem?_range hlt] at hb
    cases hb
    rw [List.getElem?_range hlt] at hq
    cases hq
    exact got_eq _ _ (h ⟨j, hj⟩ ⟨b, hlt⟩).2

theorem ddPage_zeros : ddPage.map (·.1) = List.replicate 4096 0#8 := by
  unfold ddPage; rw [List.replicate_append_replicate, List.map_replicate]

/-- One byte of a page's writing. -/
def writeStep (p : Nat) (base : Word) (e : Eng) (q : Nat × Byte × Bool) : Eng :=
  if e.stop.isSome then e
  else if e.c.gd.elemOut (512 * p + q.1 / 8) then { e with c := e.c.setAux (dPos p) (q.1 + 1) }
  else
    match e.s.copyWrite e.c .mem (base + BitVec.ofNat 64 q.1).toNat q.2 with
    | .error st => { e with stop := some st }
    | .ok s => { e with s := s, c := e.c.setAux (dPos p) (q.1 + 1) }

theorem dWrite_eq (e : Eng) (p : Nat) (bs : List (Byte × Bool)) : dWrite e p bs =
    ((enumFrom 0 bs).drop (e.c.auxN (dPos p))).foldl (writeStep p (e.c.gd.origin + BitVec.ofNat 64 (4096 * p))) e := rfl

/-- Of the copy a page's writing changes its record alone. -/
theorem writes_keep (p : Nat) (base : Word) (c : Copy) : ∀ (l : List (Nat × Byte × Bool)) (e : Eng), e.c = { c with aux := e.c.aux } →
    (l.foldl (writeStep p base) e).c = { c with aux := (l.foldl (writeStep p base) e).c.aux }
  | [], e, h => h
  | q :: l, e, h => by
    rw [List.foldl_cons]
    refine writes_keep p base c l _ ?_
    have hs : ∀ k v, (e.c.setAux k v) = { c with aux := (e.c.setAux k v).aux } := by
      intro k v; unfold Copy.setAux; rw [h]
    unfold writeStep
    split
    · exact h
    · split
      · exact hs _ _
      · split
        · exact h
        · exact hs _ _

/-- Places outside the edge are passed over. -/
theorem writes_pass (p : Nat) (base : Word) (g : Gen) : ∀ (l : List (Nat × Byte × Bool)) (e : Eng), (∀ q ∈ l, g.elemOut (512 * p + q.1 / 8) = true) →
    e.c.gd = g → e.stop = none → (l.foldl (writeStep p base) e).stop = none
  | [], e, _, _, h => h
  | q :: l, e, hq, hg, h => by
    have hs : writeStep p base e q = { e with c := e.c.setAux (dPos p) (q.1 + 1) } := by
      unfold writeStep
      rw [h, hg, hq q List.mem_cons_self]; rfl
    rw [List.foldl_cons, hs]
    exact writes_pass p base g l _ (fun r hr => hq r (List.mem_cons_of_mem _ hr)) hg h

/-- A page of zeros is written where its first element alone lies inside the edge and takes its bytes. -/
theorem dWrite_ok (s : State) (c : Copy) (h0 : c.auxN (dPos 0) = 0)
    (h : ∀ n, 0 < n → n < 512 → c.gd.elemOut n = true)
    (h8 : ((enumFrom 0 (List.replicate 8 (0#8, false))).foldl (writeStep 0 (c.gd.origin + BitVec.ofNat 64 (4096 * 0))) ⟨s, c, none⟩).stop.isNone = true) :
    (dWrite ⟨s, c, none⟩ 0 ddPage).stop = none ∧ (dWrite ⟨s, c, none⟩ 0 ddPage).c = { c with aux := (dWrite ⟨s, c, none⟩ 0 ddPage).c.aux } := by
  refine ⟨?_, writes_keep _ _ c _ _ rfl⟩
  rw [dWrite_eq, show (⟨s, c, none⟩ : Eng).c.auxN (dPos 0) = 0 from h0, List.drop_zero, ddPage, enumFrom_append, List.foldl_append]
  refine writes_pass 0 _ c.gd _ _ ?_ ?_ (Option.isNone_iff_eq_none.mp h8)
  · intro q hq
    have hq' := enumFrom_fst _ _ _ hq
    simp only [List.length_replicate] at hq'
    rw [show 512 * 0 + q.1 / 8 = q.1 / 8 by omega]
    exact h _ (by omega) (by omega)
  · have hk := congrArg Copy.gd (writes_keep 0 (c.gd.origin + BitVec.ofNat 64 (4096 * 0)) c (enumFrom 0 (List.replicate 8 (0#8, false))) ⟨s, c, none⟩ rfl)
    exact hk

/-- A page that is read, probed and written is done. -/
theorem dPage_done (s u : State) (c : Copy) (bs : List (Byte × Bool)) (pr : State × List (List Byte) × List (List Hit)) (hc : c.staging = [])
    (hr : readSome c c.sside s (c.pageSrc 0) = .ok (u, bs)) (hp : probe ⟨u, { c with staging := bs }, none⟩ (crc64 (bs.map (·.1))).toNat = .ok pr)
    (hw : (dWrite ⟨pr.1, { c with staging := bs }, none⟩ 0 bs).stop = none ∧
      (dWrite ⟨pr.1, { c with staging := bs }, none⟩ 0 bs).c = { c with staging := bs, aux := (dWrite ⟨pr.1, { c with staging := bs }, none⟩ 0 bs).c.aux }) :
    (dPage ⟨s, c, none⟩ 0).stop = none ∧ (dPage ⟨s, c, none⟩ 0).c = { c with aux := (dPage ⟨s, c, none⟩ 0).c.aux } := by
  have hcf : ∀ d : Copy, d = { c with staging := bs, aux := d.aux } → ∀ a, { d with aux := a, staging := [] } = { c with aux := a } := by
    intro d hd a; rw [hd]; cases c; cases hc; rfl
  unfold dPage
  have hg : (if (⟨s, c, none⟩ : Eng).c.staging.isEmpty then readSome c c.sside s (c.pageSrc 0) else .ok (s, c.staging)) = .ok (u, bs) := by
    rw [← hr]; simp [hc]
  simp only [hg, hp]
  split
  · exact ⟨rfl, hcf _ rfl _⟩
  · rw [if_neg (by rw [hw.1]; decide)]
    split
    · exact ⟨hw.1, hcf _ hw.2 _⟩
    · exact ⟨hw.1, hcf _ hw.2 _⟩

/-- A table whose first entry is that of the fingerprint 0 with a frame of zeros, one with another frame, and an empty one. -/
def eHit : Nat := 2 ^ 64 + (dramBase + 0x50000) / 4096 * 2 ^ 76 + 2 ^ 128
def eMiss : Nat := 2 ^ 64 + bootRoot / 4096 * 2 ^ 76 + 2 ^ 128

/-- The states after a page is read and after its probe, and the entries. -/
def ddT (e : Nat) (c : Copy) : State :=
  (hitsOf (ddRead e c).1 { c with staging := ddPage } 0).flatten.foldl (fun u h => u.copyTouch { c with staging := ddPage } .atomic h) (ddRead e c).1
def ddEnts (e : Nat) (c : Copy) : List (List Byte) :=
  (hitsOf (ddRead e c).1 { c with staging := ddPage } 0).map (fun l => l.map (fun h => (ddT e c).memByte h.sp h.addr))

theorem ddReads (e : Nat) (c : Copy) (hr : readSome c c.sside (onTab e c) (pageBytes c 0) = .ok ((ddRead e c).1, ddPage)) :
    ∃ l, l = pageBytes c 0 ∧ Reads c c.sside (onTab e c) l (ddRead e c).1 ddPage := by
  generalize pageBytes c 0 = l at hr
  exact ⟨l, rfl, reads_of _ _ _ _ _ _ hr⟩

theorem ddFp : (crc64 (ddPage.map (·.1))).toNat = 0 := by
  rw [ddPage_zeros, crc64_zeros]; exact BitVec.toNat_zero

theorem wit_dedupHit :
    (cDd [leafD]).staging = [] ∧ (∃ l, l = pageBytes (cDd [leafD]) 0 ∧ Reads (cDd [leafD]) (cDd [leafD]).sside (onTab eHit (cDd [leafD])) l (ddRead eHit (cDd [leafD])).1 ddPage) ∧
    (crc64 (ddPage.map (·.1))).toNat = 0 ∧
    Probed (ddRead eHit (cDd [leafD])).1 { cDd [leafD] with staging := ddPage } 0 (ddT eHit (cDd [leafD])) (ddEnts eHit (cDd [leafD]))
      (hitsOf (ddRead eHit (cDd [leafD])).1 { cDd [leafD] with staging := ddPage } 0) ∧
    0x30000 = (elemAt (cDd [leafD]).gd 0 + BitVec.ofNat 64 (4096 * 0)).toNat ∧ (ddT eHit (cDd [leafD])).copyLeaf (cDd [leafD]) .store 0x30000 = some leafD ∧
    Eligible (some leafD) ∧ Matches 0 ((ddEnts eHit (cDd [leafD])).getD 0 []) ∧
    (ddT eHit (cDd [leafD])).memBytes .dram (entryFrame ((ddEnts eHit (cDd [leafD])).getD 0 [])) 4096 = ddPage.map (·.1) := by
  have hr := ddReads eHit (cDd [leafD]) (pageRead _ _ (by decide +kernel) (edged_isOutside _) (by decide +kernel) (by decide +kernel))
  have hp := probed_of (ddRead eHit (cDd [leafD])).1 { cDd [leafD] with staging := ddPage } 0 (by decide +kernel)
  refine ⟨rfl, hr, ddFp, hp, by decide +kernel, by decide +kernel, ⟨leafD, rfl, by decide⟩, by unfold Matches; decide +kernel, ?_⟩
  have hf : entryFrame ((ddEnts eHit (cDd [leafD])).getD 0 []) = dramBase + 0x50000 := by decide +kernel
  have hb : ∀ i j : Fin 64, (ddT eHit (cDd [leafD])).memByte .dram (dramBase + 0x50000 + (64 * i.val + j.val)) = 0#8 := by decide +kernel
  rw [hf, ddPage_zeros]
  refine memBytes_zeros _ _ _ _ ?_
  intro b h1 h2
  have := hb ⟨(b - (dramBase + 0x50000)) / 64, by omega⟩ ⟨(b - (dramBase + 0x50000)) % 64, by omega⟩
  simp only [show dramBase + 0x50000 + (64 * ((b - (dramBase + 0x50000)) / 64) + (b - (dramBase + 0x50000)) % 64) = b by omega] at this
  exact this

/-- Bytes that the engine writes one after another are written as `WritesAll` says. -/
def writesB (c : Copy) (sd : Side) : State → List (Nat × Byte × Bool) → Bool
  | _, [] => true
  | s, (a, v) :: l =>
    match s.copyWrite c sd a v with
    | .ok u => writesB c sd u l
    | .error _ => false

theorem writes_of (c : Copy) (sd : Side) : ∀ (l : List (Nat × Byte × Bool)) (s : State), writesB c sd s l = true → ∃ t, WritesAll c sd s l t
  | [], s, _ => ⟨s, rfl⟩
  | (a, v) :: l, s, h => by
    unfold writesB at h
    split at h
    · rename_i u hu
      obtain ⟨t, ht⟩ := writes_of c sd l u h
      unfold State.copyWrite at hu
      split at hu
      · cases hu
      · rename_i q hq; cases hu
        exact ⟨t, q, _, hq, rfl, ht⟩
    · cases h

theorem pageSrc_eq (c : Copy) (ho : c.gs.origin = elemAt c.gs 0) (h : ∀ n, n < 512 → c.gs.elemOut n = isOutside c.gs n) :
    c.pageSrc 0 = pageBytes c 0 := by
  unfold Copy.pageSrc pageBytes
  rw [ho]
  apply List.map_congr_left
  intro i hi
  rw [List.mem_range] at hi
  rw [show 512 * 0 + i / 8 = i / 8 by omega, h (i / 8) (by omega)]

/-- What a page's writing needs, of each case: a fingerprint that another frame has, none, and a page that is not eligible. -/
theorem ddWrites (e : Nat) (c : Copy) (hc : c = cDd [leafD] ∨ c = cDd []) (he : e = eMiss ∨ e = 0) :
    ∃ w d, dWrite ⟨ddT e c, { c with staging := ddPage }, none⟩ 0 ddPage = ⟨w, d, none⟩ := by
  refine ⟨_, _, eng_of _ ?_⟩
  rw [(dWrite_ok (ddT e c) { c with staging := ddPage } ?_ ?_ ?_).1]
  · rfl
  · rcases hc with rfl | rfl <;> rfl
  · rcases hc with rfl | rfl <;> exact edged_elemOut _
  · rcases hc with rfl | rfl <;> rcases he with rfl | rfl <;> decide +kernel

theorem wit_dedupWrites :
    ((∀ j, j < 4 → ¬ (Matches 0 ((ddEnts eMiss (cDd [leafD])).getD j []) ∧
        (ddT eMiss (cDd [leafD])).memBytes .dram (entryFrame ((ddEnts eMiss (cDd [leafD])).getD j [])) 4096 = ddPage.map (·.1))) ∧
      Eligible (some leafD) ∧ entryField ((ddEnts eMiss (cDd [leafD])).getD 1 []) 64 1 = 0 ∧
      (∀ i, i < 1 → entryField ((ddEnts eMiss (cDd [leafD])).getD i []) 64 1 = 1) ∧ ∃ i, i < 4 ∧ Matches 0 ((ddEnts eMiss (cDd [leafD])).getD i [])) ∧
    (entryField ((ddEnts 0 (cDd [leafD])).getD 0 []) 64 1 = 0 ∧ (∀ i, i < 4 → ¬ Matches 0 ((ddEnts 0 (cDd [leafD])).getD i []))) ∧
    (∃ q, (ddT 0 (cDd [])).copyLeaf (cDd []) .store 0x30000 = some q ∧ ¬ Eligible (some q)) := by
  refine ⟨⟨?_, ⟨leafD, rfl, by decide⟩, by decide +kernel, ?_, 0, by decide, by unfold Matches; decide +kernel⟩, ⟨by decide +kernel, ?_⟩, ?_⟩
  · have hm : ∀ j : Fin 4, 0 < j.val → ¬ Matches 0 ((ddEnts eMiss (cDd [leafD])).getD j.val []) := by unfold Matches; decide +kernel
    intro j hj ⟨h1, h2⟩
    rcases Nat.eq_zero_or_pos j with rfl | hp
    · have hb : (ddT eMiss (cDd [leafD])).memByte .dram (entryFrame ((ddEnts eMiss (cDd [leafD])).getD 0 [])) ≠ 0#8 := by decide +kernel
      rw [ddPage_zeros] at h2
      exact hb (List.cons.inj (h2 : _ :: _ = 0#8 :: List.replicate 4095 0#8)).1
    · exact hm ⟨j, hj⟩ hp h1
  · intro i hi
    have h0 : i = 0 := by omega
    subst h0; decide +kernel
  · have hm : ∀ j : Fin 4, ¬ Matches 0 ((ddEnts 0 (cDd [leafD])).getD j.val []) := by unfold Matches; decide +kernel
    intro i hi; exact hm ⟨i, hi⟩
  · refine ⟨_, get_eq leafD _ (by decide +kernel), ?_⟩
    rintro ⟨q, hq, h1, _⟩
    rw [← Option.some.inj hq] at h1
    exact absurd h1 (by decide +kernel)

/-- The page of a copy that is not eligible is read, probed and written. -/
theorem ddRead0 : readSome (cDd []) (cDd []).sside (onTab 0 (cDd [])) ((cDd []).pageSrc 0) = .ok ((ddRead 0 (cDd [])).1, ddPage) := by
  have h0 : ∀ n, n < 512 → (cDd []).gs.elemOut n = isOutside (cDd []).gs n := by
    intro n hn
    rcases Nat.eq_zero_or_pos n with rfl | hp
    · decide +kernel
    · exact (edged_elemOut _ n hp hn).trans (edged_isOutside _ n hp hn).symm
  rw [pageSrc_eq (cDd []) (by decide +kernel) h0]
  exact pageRead 0 (cDd []) (by decide +kernel) (edged_isOutside _) (by decide +kernel) (by decide +kernel)

def ddProbe : State × List (List Byte) × List (List Hit) := got (sCp, [], []) (probe ⟨(ddRead 0 (cDd [])).1, { cDd [] with staging := ddPage }, none⟩ 0)

theorem ddProbe_eq : probe ⟨(ddRead 0 (cDd [])).1, { cDd [] with staging := ddPage }, none⟩ (crc64 (ddPage.map (·.1))).toNat = .ok ddProbe := by
  rw [ddFp]; exact got_eq _ _ (by decide +kernel)

theorem ddDone_of (s u : State) (c c' : Copy) (pr : State × List (List Byte) × List (List Hit)) (hc : c.staging = []) (he : c' = { c with staging := ddPage })
    (hr : readSome c c.sside s (c.pageSrc 0) = .ok (u, ddPage)) (hp : probe ⟨u, c', none⟩ (crc64 (ddPage.map (·.1))).toNat = .ok pr)
    (h0 : c'.auxN (dPos 0) = 0) (h : ∀ n, 0 < n → n < 512 → c'.gd.elemOut n = true)
    (h8 : ((enumFrom 0 (List.replicate 8 (0#8, false))).foldl (writeStep 0 (c'.gd.origin + BitVec.ofNat 64 (4096 * 0))) ⟨pr.1, c', none⟩).stop.isNone = true) :
    (dPage ⟨s, c, none⟩ 0).stop = none ∧ (dPage ⟨s, c, none⟩ 0).c = { c with aux := (dPage ⟨s, c, none⟩ 0).c.aux } := by
  have hw := dWrite_ok pr.1 c' h0 h h8
  generalize ddPage = bs at *
  subst he
  exact dPage_done s u c bs pr hc hr hp hw

theorem ddDone : (dPage ⟨onTab 0 (cDd []), cDd [], none⟩ 0).stop = none ∧
    (dPage ⟨onTab 0 (cDd []), cDd [], none⟩ 0).c = { cDd [] with aux := (dPage ⟨onTab 0 (cDd []), cDd [], none⟩ 0).c.aux } :=
  ddDone_of _ _ _ _ _ rfl rfl ddRead0 ddProbe_eq (by decide +kernel) (edged_elemOut _) (by decide +kernel)

theorem dRecord_none (x : Eng) (h : x.stop = none) (hc : x.c = { cDd [] with aux := x.c.aux }) : ∃ w1 d1 w d, x = ⟨w1, d1, none⟩ ∧
    dRecord ⟨w1, d1, none⟩ 0 = ⟨w, d, none⟩ ∧ d = { cDd [] with aux := d.aux, pos := (cDd []).pos + 1 } := by
  have hg : x.c.grp = [] := by rw [hc]; rfl
  have hrec : dRecord ⟨x.s, x.c, none⟩ 0 = ⟨x.s, { x.c with pos := x.c.pos + 1 }, none⟩ := by simp only [dRecord, hg]
  have hpos : x.c.pos = 0 := by rw [hc]; rfl
  exact ⟨x.s, x.c, x.s, { x.c with pos := x.c.pos + 1 }, eng_of x (by rw [h]; rfl), hrec, by rw [hpos, hc]; rfl⟩

/-- A copy whose page is not eligible goes through its one page. -/
theorem wit_dedupEnds :
    Runs (onTab 0 (cDd [])) (onTab 0 (cDd [])) 0 3 (cDd []) [] ∧ (∃ f, (cDd []).op = .cpyd f) ∧ 1 = elems (cDd []).gs / 512 ∧ (cDd []).pos = 0 ∧
    Tab.find (dOut (cDd []).pos) (cDd []).aux = none ∧ Tab.get false 0 (cDd []).rows = false ∧
    ∃ w1 d1 w d, dPage ⟨onTab 0 (cDd []), cDd [], none⟩ 0 = ⟨w1, d1, none⟩ ∧ dRecord ⟨w1, d1, none⟩ 0 = ⟨w, d, none⟩ ∧
      d = { cDd [] with aux := d.aux, pos := (cDd []).pos + 1 } := by
  refine ⟨?_, ⟨_, rfl⟩, by decide +kernel, rfl, rfl, rfl, dRecord_none _ ddDone.1 ddDone.2⟩
  refine runs_of _ _ ⟨rfl, rfl, (by intro d hd; cases hd), ?_⟩ rfl rfl (by decide +kernel) rfl
  intro k hk hne d hd
  rcases (show k = 0 ∨ k = 1 ∨ k = 2 by omega) with rfl | rfl | rfl <;> cases hd

/-- A page table of four levels with a leaf of 4 KiB for page 0x30000; a page whose two bytes are written; a record in the scratchpad. -/
def sPt : State :=
  let s := sCp.modPart 0 (fun p => { p with xroot := BitVec.ofNat 64 (dramBase + 0x80000) })
  let s := (s.setBytes .dram (dramBase + 0x80000) (natLe 8 (dramBase + 0x81001))).setBytes .dram (dramBase + 0x81000) (natLe 8 (dramBase + 0x82001))
  (s.setBytes .dram (dramBase + 0x82000) (natLe 8 (dramBase + 0x83001))).setBytes .dram (dramBase + 0x83180) (natLe 8 (dramBase + 0x3001F))

theorem wit_dedupParts :
    (∃ pa, sPt.pteAddr (cDd []).part 0x30000 = some pa ∧ (∀ i, i < 8 → dataPlace .dram (pa + i)) ∧ (dramBase + 0x50000) % 4096 = 0 ∧ dramBase + 0x50000 < 2 ^ 52) ∧
    (Tab.get 0 (dPos 0) { cDd [] with gd := gN 512 8 0x30000 }.aux = 0 ∧
      ∃ t, WritesAll { cDd [] with gd := gN 512 8 0x30000 } .mem sCp (((enumFrom 0 [(0xAB#8, false), (0xCD#8, true)]).filter (fun q => !isOutside (gN 512 8 0x30000) (512 * 0 + q.1 / 8))).map (fun q =>
        ((elemAt (gN 512 8 0x30000) 0 + BitVec.ofNat 64 (4096 * 0) + BitVec.ofNat 64 q.1).toNat, q.2))) t) ∧
    ({ cDd [] with grp := [8192] }.grp = 8192 :: [] ∧ Tab.get 0 (dRec 0) { cDd [] with grp := [8192] }.aux = 0 ∧
      ∃ t, WritesAll { cDd [] with grp := [8192] } (.sp (clusterOf (cDd []).gcid) 0 0) sCp ((List.range 8).map (fun i =>
        (8192 + 8 * 0 + i, BitVec.ofNat 8 ((Tab.get 0 (dOut 0) { cDd [] with grp := [8192] }.aux).toNat % 2 ^ 60 / 2 ^ (8 * i)), false))) t) := by
  refine ⟨⟨dramBase + 0x83180, by decide +kernel, ?_, by decide, by decide⟩, ⟨rfl, writes_of _ _ _ _ (by decide +kernel)⟩, rfl, rfl, writes_of _ _ _ _ (by decide +kernel)⟩
  intro i hi
  have h : ∀ i : Fin 8, dataB .dram (dramBase + 0x83180 + i.val) = true := by decide +kernel
  exact dataPlace_of _ _ (h ⟨i, hi⟩)

/-! ## Hypotheses that are met: operands of the Mantel, groups past the ends, patterns, records, barriers -/

/-- A tile of the Mantel as operand A, the first granule of which holds a poisoned byte, beside a latch; and a tile whose bank is not
the partition's. -/
def opM (s : State) : Opnd := s.opnd ⟨.store, 3⟩ false .bf16 (min (depth .bf16) (depth .bf16)) false

theorem wit_mantelOperands :
    (sMpois.me.guardOn plain = true ∧ sMpois.me.over (0, 1) = false ∧ (63 : Fin 64).val < sMpois.me.accs.count) ∧
    (∀ o ∈ [opM sMpois, opB .store 3 .bf16 (min (depth .bf16) (depth .bf16))], o.range = true ∧ o.legal = true ∧ ∀ r ∈ o.regs, r.dead = false) ∧
    (∀ g ∈ bankGroups (opM sMpois).sp, g ∉ bankGroups (opB .store 3 .bf16 (min (depth .bf16) (depth .bf16))).sp) ∧
    sMpois.rangeWait sMpois.cur false (.sp (clusterOf sMpois.cur)) ((opM sMpois).sp ++ (opB .store 3 .bf16 (min (depth .bf16) (depth .bf16))).sp) = false ∧
    MantelStops sMpois ((opM sMpois).ws ++ (opB .store 3 .bf16 (min (depth .bf16) (depth .bf16))).ws) { cause := 0x0F, addr := 0 } ∧
    MantelStops sNoBank ((opM sNoBank).ws ++ (opB .store 3 .bf16 (min (depth .bf16) (depth .bf16))).ws) { cause := 0x0B, addr := 0 } := by
  refine ⟨⟨rfl, rfl, by decide⟩, by decide +kernel, by decide +kernel, by decide +kernel, ?_, ?_⟩
  · exact mantelStops_of sMpois _ 5 (by decide +kernel)
  · exact mantelStops_of sNoBank _ 0 (by decide +kernel)

/-- A latch and a scale register from the Mantel: all of it readable, a poisoned byte, and a bank that is not the partition's. -/
def scAs (s : State) (m : Nat) : List Nat := (List.range (512 * m)).map (fun b => (Side.mantel 0).at ((s.gen 3).origin + BitVec.ofNat 64 b))

theorem wit_mantelStores :
    (∀ a ∈ scAs sMem 2, mantelGood sMem a) ∧ MantelStops sMpois (scAs sMpois 1) { cause := 0x0F, addr := 0 } ∧
    MantelStops sNoBank (scAs sNoBank 2) { cause := 0x0B, addr := 0 } ∧ (sMpois.gen 3).attr.toNat % 4 = 3 ∧
    (Ready sMpois plain (0, 2) ∧ sMpois.tileSide (sMpois.gen 3) [0, 1, 3] = .ok (.mantel 0) ∧ (3 : Fin 2048).val < sMpois.me.lats.count) := by
  refine ⟨mantelGood_of _ _ (by decide +kernel), ?_, ?_, by decide, ⟨rfl, rfl⟩, rfl, by decide⟩
  · exact mantelStops_of sMpois _ 5 (by decide +kernel)
  · exact mantelStops_of sNoBank _ 0 (by decide +kernel)

/-- A group past a63; a commit whose tile holds no mark and one whose mark names nine tiles, with their registers in the allotment and
outside it. -/
theorem wit_groupsPastTheEnds :
    (Ready sMark plain (1, 0) ∧ 64 < (63 : Fin 64).val + (1 : Fin 64).val + 1) ∧
    ((sMark.markSeen 63).getLsbD 0 = false ∧ sMark.checkV ⟨.main, 1535⟩ (8 * 1) ≠ none ∧ 63 + 1 ≤ 64) ∧
    ((sMark.markSeen 16).getLsbD 0 = true ∧ 8 < (sMark.markSeen 16).toNat / 2 ^ 16 % 2 ^ 6 + 1 ∧ Ready sMark plain (0, 0) ∧
      sMark.checkV ⟨.main, 0⟩ (8 * 9) = none ∧ 16 + 9 ≤ 64 ∧ 16 + 9 ≤ sMark.me.accs.count ∧ sMark.checkV ⟨.main, 1500⟩ (8 * 9) ≠ none) := by
  exact ⟨⟨⟨rfl, rfl⟩, by decide⟩, ⟨by decide, by decide, by decide⟩, by decide, by decide, ⟨rfl, rfl⟩, by decide, by decide, by decide, by decide⟩

/-- Descriptors that R113 allows and one that it does not, whatever the guard; a context with two patterns. -/
def sFewPats : State := withCtx { cTree with pats := ⟨0, 2⟩ }

theorem wit_patternDescriptors :
    (Goes sTree plain none [.x 14, .x 12] (1, 0) sTree [0x3000005#64, 0#64] ∧ Allowed ((0#64).toNat * 2 ^ 64 + (0x3000005#64).toNat) ∧
      (15 : Fin 16).val < sTree.me.pats.count) ∧
    (Goes sFewPats plain none [.x 14, .x 12] (1, 0) sFewPats [0x3000005#64, 0#64] ∧ sFewPats.me.pats.count ≤ (2 : Fin 16).val) ∧
    (sTree.srcs none [.x 15, .x 12] = some (sTree, [12#64, 0#64]) ∧ ¬ Allowed ((0#64).toNat * 2 ^ 64 + (12#64).toNat) ∧
      sTree.me.guardOn plain = true ∧ sTree.me.guardOn ⟨false, 1, false⟩ = false) ∧
    ((1 : Fin 16).val < sTree.me.pats.count ∧ 768 < (sTree.pattern (1 : Fin 16).val).desc.toNat / 2 ^ 16 % 2 ^ 10) ∧
    (Goes sTree plain none [.x 14] (1, 0) sTree [0x3000005#64] ∧ sTree.me.tts.count ≤ 8 ∧ sThree.me.tts.count ≤ (3 : Fin 8).val) ∧
    ((31 : Nat) < 32 ∧ (767 : Nat) < 768) := by
  refine ⟨⟨⟨rfl, rfl, rfl⟩, ?_, by decide⟩, ⟨⟨rfl, rfl, rfl⟩, by decide⟩, ⟨rfl, ?_, rfl, rfl⟩, by decide, ⟨⟨rfl, rfl, rfl⟩, by decide, by decide⟩, by decide⟩
  · unfold Allowed; decide
  · unfold Allowed; decide

/-- A stopped copy whose record waits for the arbiter; one whose record is written, and a channel whose copy goes on. -/
theorem wit_stopRecords :
    (stopped0.stop.isSome = true ∧ 8 + (3 : Fin 4).val ∉ ((sRun stopped0).core (0 : Fin 256).val).trapQ) ∧
    (let s := (sRun stopped0).modCore 0 (fun q => { q with trapQ := [11] })
     Heads s 0 3 stopped0 [] ∧ 8 + (3 : Fin 4).val ∈ (s.core (0 : Fin 256).val).trapQ ∧ (s.core 0).trapQ = [] ++ 11 :: [] ∧ GoesOn s 0 11 ∧
      11 = 8 + 3 ∧ (s.chan 0 3).copies = stopped0 :: [] ∧ stopped0.stop ≠ none ∧ stopped0.gcid / 4 = (0 : Fin 256).val) ∧
    (let s := (sRun (cpyAt 0 4096)).modCore 0 (fun q => { q with trapQ := [11] })
     (s.core 0).trapQ = [] ++ 11 :: [] ∧ GoesOn s 0 11 ∧ ∀ c l, (s.chan 0 3).copies = c :: l → c.stop = none) := by
  refine ⟨⟨rfl, by decide⟩, ⟨⟨rfl, rfl, (by intro d hd; cases hd), ?_⟩, by decide, rfl, ?_, rfl, rfl, by decide, rfl⟩, rfl, ?_, ?_⟩
  · intro k hk hne d hd
    rcases (show k = 0 ∨ k = 1 ∨ k = 2 by omega) with rfl | rfl | rfl <;> cases hd
  · unfold GoesOn; exact .inr ⟨by decide, by decide⟩
  · unfold GoesOn; exact .inr ⟨by decide, by decide⟩
  · intro c l h
    cases h; rfl

/-- A PRIMARY at its bundle boundary whose launch is being saved. -/
def sSaving : State := { sFill .primary .empty (some 0) none with ctxs := [(0, { c0 with todo := [] })], launches := [(0, { l0 with stopping := true })] }

theorem wit_savedStream :
    sSaving.power = .on ∧ (sSaving.core 0).phase = 0 ∧ (sSaving.core 0).swap = false ∧ (sSaving.core 0).prim = some 0 ∧ (sSaving.core 0).sec = none ∧
      (sSaving.ctx 0).st = .primary ∧ (sSaving.ctx 0).todo = [] ∧ sSaving.stopped 0 = true := by decide

/-- A participant with a committed write that is not performed, at a complete barrier. -/
def sPending : State := { sAt kC barOne with wbuf := [⟨0, 2, .sp 0, 64, [1#8]⟩] }

theorem wit_pendingWrites :
    sPending.launch 0 = some (lBar kC barOne) ∧ Complete sPending (lBar kC barOne) kC ∧ sPending.wbuf ≠ [] ∧
      (performedAt sPending (lBar kC barOne) kC).wbuf = [] ∧ (performedAt sPending (lBar kC barOne) kC).memByte (.sp 0) 64 = 1#8 := by
  refine ⟨rfl, ?_, by decide, by decide +kernel, by decide +kernel⟩
  unfold Complete; exact ⟨⟨0, by decide, by decide⟩, by decide⟩

/-- A PREEMPT that hit a launch which has ended, one whose target stream has a later launch, and loads that find poison or the end of
what is mapped. -/
def sHit (ls : Tab Launch) : State :=
  { sPre (preP 1) [(0, { str0 with busy := true, st := .run, cmd := BitVec.ofNat 256 (preP 1), preNo := 5 }), (1, str0)] with launches := ls }

theorem wit_preemptInProgress :
    (InProgress (sHit []) 0 9 (BitVec.ofNat 256 (preP 1)) ∧ ((sHit []).stream 0).preNo ≠ 0 ∧ (sHit []).launch 1 = none) ∧
    (InProgress (sHit [(1, { l0 with order := 7 })]) 0 9 (BitVec.ofNat 256 (preP 1)) ∧
      (sHit [(1, { l0 with order := 7 })]).launch (Sys2Proof.Claims.field (BitVec.ofNat 256 (preP 1)) 1 1) = some { l0 with order := 7 } ∧
      (7 : Nat) + 1 ≠ ((sHit [(1, { l0 with order := 7 })]).stream 0).preNo) := by
  exact ⟨⟨⟨rfl, rfl, rfl, rfl, by decide +kernel⟩, by decide, rfl⟩, ⟨rfl, rfl, rfl, rfl, by decide +kernel⟩, by decide +kernel, by decide⟩

theorem wit_weightStoreSources :
    (InProgress (sWs (wsP 0x60000 0 64) 1 true 1) 0 4 (BitVec.ofNat 256 (wsP 0x60000 0 64)) ∧
      ∀ i, i < (List.replicate 64 (0#8, false)).length →
        (sWs (wsP 0x60000 0 64) 1 true 1).engineTake 0 ((0x60000 + i) % 2 ^ 64) 1 = some [(List.replicate 64 (0#8, false)).getD i (0, false)]) ∧
    (InProgress (sWs (wsP 0x3FFFFFE0 0 64) 1 true 1) 0 4 (BitVec.ofNat 256 (wsP 0x3FFFFFE0 0 64)) ∧
      (List.replicate 32 (0#8, false)).length < Sys2Proof.Claims.field (BitVec.ofNat 256 (wsP 0x3FFFFFE0 0 64)) 20 4 ∧
      (∀ i, i < (List.replicate 32 (0#8, false)).length →
        (sWs (wsP 0x3FFFFFE0 0 64) 1 true 1).engineTake 0 ((0x3FFFFFE0 + i) % 2 ^ 64) 1 = some [(List.replicate 32 (0#8, false)).getD i (0, false)]) ∧
      (sWs (wsP 0x3FFFFFE0 0 64) 1 true 1).engineTake 0 ((0x3FFFFFE0 + 32) % 2 ^ 64) 1 = none) := by
  have h1 : ∀ i : Fin 64, (sWs (wsP 0x60000 0 64) 1 true 1).engineTake 0 ((0x60000 + i.val) % 2 ^ 64) 1 = some [(List.replicate 64 (0#8, false)).getD i.val (0, false)] := by
    decide +kernel
  have h2 : ∀ i : Fin 32, (sWs (wsP 0x3FFFFFE0 0 64) 1 true 1).engineTake 0 ((0x3FFFFFE0 + i.val) % 2 ^ 64) 1 = some [(List.replicate 32 (0#8, false)).getD i.val (0, false)] := by
    decide +kernel
  exact ⟨⟨⟨rfl, rfl, rfl, rfl, by decide +kernel⟩, fun i hi => h1 ⟨i, by simpa using hi⟩⟩, ⟨rfl, rfl, rfl, rfl, by decide +kernel⟩, by decide +kernel,
    fun i hi => h2 ⟨i, by simpa using hi⟩, none_of _ (by decide +kernel)⟩

/-- Temperatures at 115 degrees and below, where the package runs and where it does not. -/
theorem wit_temperatures :
    (State.reset.power = .on ∧ 115 ≤ (115#32).toNat) ∧ Mild State.reset 0 114 ∧ Mild { State.reset with power := .stopped } 0 200 ∧
    (∃ d, d < 4 ∧ 115 ≤ ([0#32, 115#32].getD d 0).toNat) ∧ (∀ d, d < 4 → ([0#32, 114#32].getD d 0).toNat < 115) := by
  have h : ∀ e : Fin 4, (if e.val = 0 then (114 : BitVec 32) else (State.reset.die e.val).temp).toNat < 115 := by decide
  have h' : ∀ d : Fin 4, ([0#32, 114#32].getD d.val 0).toNat < 115 := by decide
  exact ⟨⟨rfl, by decide⟩, .inr (fun e he => h ⟨e, he⟩), .inl (by decide), ⟨1, by decide, by decide⟩, fun d hd => h' ⟨d, hd⟩⟩

/-- A state in which the bundles of an event may go on by given numbers of slots, and one in which they run on. -/
theorem wit_pace : ({ sStep with pace := [[(0, 1)]] }.pace = [(0, 1)] :: [] ∧ ∃ t, exec (.bundleIssue 0) { sStep with pace := [[(0, 1)]], inbox := [] } = .next t ∧
      t.power = .on ∧ t.pace = [(0, 1)] :: []) ∧
    ∃ t, exec (.bundleIssue 0) { sStep with inbox := [] } = .next t ∧ t.pace = [] := by
  exact ⟨⟨rfl, _, rfl, by decide +kernel, by decide +kernel⟩, _, rfl, by decide +kernel⟩
end

section
/-! PROOF. The control and status registers (R226 to R229): what the CSR instructions answer, what a write leaves in a
register, and what the read-only registers give. -/

namespace Sys2Proof.Proofs
open Sys2Proof Sys2Proof.Machine Sys2Proof.Claims Sys2Proof.Laws

/-! ## The CSR instructions (R226, R228) -/

/-- The claims' privilege condition is the check that the instructions make. -/
theorem mayName_iff (s : State) (n : CsrName) : mayName s n ↔ (!csrPriv n || s.me.view.priv) = true := by
  cases n <;> simp [mayName, csrPriv]

theorem chk_of {b : Bool} {cause : Nat} {k : SlotR} (h : b = true) : chk b cause k = k := if_pos h

theorem exec_csrr (f : FXr) (s : State) : exec (.csrr f) s = execCsrr f s := rfl

/-- CSRR answers the register as visible at the bundle (R228). -/
theorem csrr_gives {f : FXr} {s : State} (hr : Ready s f.c (dcnt f.d)) (ht : Takes s f.d) (hm : mayName s f.csr) :
    exec (.csrr f) s = .next (gives s .alu f.d (s.csrIn s.me.view f.csr)) := by
  obtain ⟨hguard, hover⟩ := hr
  obtain ⟨t, hdst, hcommit⟩ := dst_gives s .alu f.d (s.csrIn s.me.view f.csr) ht
  rw [← hcommit, exec_csrr, execCsrr]
  exact runSlot_ok (State.srcs_nil s none) hguard hover ((chk_of ((mayName_iff s f.csr).1 hm)).trans hdst)

/-- CSRR of a register whose visible value is `w` gives `w`. -/
theorem csrr_gives_value {f : FXr} {s : State} {n : CsrName} {w : Word} (hr : Ready s f.c (dcnt f.d)) (ht : Takes s f.d)
    (hn : f.csr = n) (hp : mayName s n) (hw : s.csrIn s.me.view n = w) :
    exec (.csrr f) s = .next (gives s .alu f.d w) := by
  subst hn hw
  exact csrr_gives hr ht hp

/-- A writing CSR instruction whose value the register takes gives the old value (R228). -/
theorem csrOp_gives {f : FX} {s s1 u : State} {a : Word} (op : Word → Word → Word → Word → Word)
    (hg : Goes s f.c f.lit [f.a] (dcnt f.d) s1 [a]) (hm : mayName s1 f.csr)
    (hw : (csrMask f.csr).1 ||| (csrMask f.csr).2 ≠ 0#64) (ht : Takes u f.d)
    (hset : s1.csrSet f.csr (op (csrMask f.csr).1 (csrMask f.csr).2 (s1.csrLive f.csr) a) = .ok u) :
    csrOp f s op = .next (gives u .alu f.d (s1.csrIn s1.me.view f.csr)) := by
  obtain ⟨hsrcs, hguard, hover⟩ := hg
  obtain ⟨t, hdst, hcommit⟩ := dst_gives u .alu f.d (s1.csrIn s1.me.view f.csr) ht
  have hbits : ((csrMask f.csr).1 != 0#64 || (csrMask f.csr).2 != 0#64) = true := by
    rw [Bool.or_eq_true, bne_iff_ne, bne_iff_ne]
    refine Decidable.not_and_iff_or_not.1 ?_
    rintro ⟨h1, h2⟩
    exact hw (by rw [h1, h2]; rfl)
  rw [← hcommit]
  refine runSlot_ok hsrcs hguard hover ((chk_of ((mayName_iff s1 f.csr).1 hm)).trans ((chk_of hbits).trans ?_))
  simp only [List.getD_cons_zero, hset, hdst]

/-- A write to a register without writable bits takes ILLOP (R226). -/
theorem csrOp_readOnly {f : FX} {s s1 : State} {a : Word} (op : Word → Word → Word → Word → Word)
    (hg : Goes s f.c f.lit [f.a] (dcnt f.d) s1 [a]) (hm : mayName s1 f.csr)
    (hw : (csrMask f.csr).1 ||| (csrMask f.csr).2 = 0#64) :
    csrOp f s op = .next (s.takeTrap s.cur (trapOf cIllop)) := by
  obtain ⟨hsrcs, hguard, hover⟩ := hg
  obtain ⟨h1, h2⟩ := BitVec.or_eq_zero_iff.1 hw
  refine runSlot_trap hsrcs hguard hover ((chk_of ((mayName_iff s1 f.csr).1 hm)).trans ?_)
  simp [chk, h1, h2]

/-- The answers of CSRR, CSRW, CSRS and CSRC (R228). -/
theorem csrInstructions : CsrInstructions :=
  ⟨fun _ _ hr ht hm => csrr_gives hr ht hm,
    fun _ _ _ _ _ hg hm hw ht =>
      ⟨csrOp_gives csrwValue hg hm hw ht, csrOp_gives csrsValue hg hm hw ht, csrOp_gives csrcValue hg hm hw ht⟩⟩

/-! ## What a write leaves (R226, R227, R229) -/

/-- The low bits of a word. -/
theorem and_lowMask (v : Word) (w : Nat) (h : w ≤ 64) : v &&& BitVec.ofNat 64 (2 ^ w - 1) = (v.setWidth w).setWidth 64 := by
  have hle : 2 ^ w ≤ 2 ^ 64 := Nat.pow_le_pow_right (by decide) h
  have hpos : 0 < 2 ^ w := Nat.two_pow_pos w
  apply BitVec.eq_of_toNat_eq
  have hmask : (2 ^ w - 1) % 2 ^ 64 = 2 ^ w - 1 := Nat.mod_eq_of_lt (by omega)
  have hlow : v.toNat % 2 ^ w % 2 ^ 64 = v.toNat % 2 ^ w :=
    Nat.mod_eq_of_lt (Nat.lt_of_lt_of_le (Nat.mod_lt _ hpos) hle)
  rw [BitVec.toNat_and, BitVec.toNat_ofNat, hmask, Nat.and_two_pow_sub_one_eq_mod, BitVec.toNat_setWidth,
    BitVec.toNat_setWidth, hlow]

/-- A MODE write changes PRI and leaves the other fields (R227). -/
theorem modeWord_put (c : Csrs) (v : Word) :
    (c.put .mode v).modeWord = (v &&& 0x3#64) ||| (c.modeWord &&& ~~~0x3#64) := by
  have bitsAt : ∀ (p q : BitVec 2) (a b d : Bool),
      BitVec.ofNat 64 (p.toNat + boolBit a 2 + boolBit b 8 + boolBit d 9) =
        p.setWidth 64 ||| (BitVec.ofNat 64 (q.toNat + boolBit a 2 + boolBit b 8 + boolBit d 9) &&& ~~~0x3#64) := by decide
  rw [show (0x3#64 : Word) = BitVec.ofNat 64 (2 ^ 2 - 1) from rfl, and_lowMask v 2 (by decide)]
  exact bitsAt (v.setWidth 2) c.pri c.strict c.priv c.hdl

/-- An HCTX write leaves C and V (R227). -/
theorem hctxWord_put (c : Csrs) (v : Word) : (c.put .hctx v).hctxWord = v &&& 0x103#64 := by
  have bitsAt : ∀ (p : BitVec 2) (b : Bool),
      BitVec.ofNat 64 (p.toNat + boolBit b 8) = p.setWidth 64 ||| (if b then BitVec.twoPow 64 8 else 0#64) := by decide
  have hmask : v &&& 0x103#64 = (v &&& BitVec.ofNat 64 (2 ^ 2 - 1)) ||| (v &&& BitVec.twoPow 64 8) := by
    rw [← BitVec.and_or_distrib_left]; rfl
  rw [hmask, and_lowMask v 2 (by decide), BitVec.and_twoPow]
  exact bitsAt (v.setWidth 2) (v.getLsbD 8)

/-- A register that takes a value with bits in its writable places holds it, and MODE its other fields as before. -/
theorem csrIn_put (s t : State) (c : Csrs) (n : CsrName) (v : Word) (hw : (csrMask n).1 ||| (csrMask n).2 ≠ 0#64)
    (hn : n ≠ .guard ∧ n ≠ .srseed ∧ n ≠ .srctr) (hv : v &&& ((csrMask n).1 ||| (csrMask n).2) = v) :
    t.csrIn (c.put n v) n =
      v ||| (if n = .mode then s.csrIn c n &&& ~~~((csrMask n).1 ||| (csrMask n).2) else 0#64) := by
  have narrow : ∀ w, w ≤ 64 → v &&& BitVec.ofNat 64 (2 ^ w - 1) = v → (v.setWidth w).setWidth 64 = v ||| 0#64 :=
    fun w hle h => by rw [← and_lowMask v w hle, h, BitVec.or_zero]
  obtain ⟨hguard, hseed, hctr⟩ := hn
  cases n with
  | mode =>
    change v &&& 0x3#64 = v at hv
    change (c.put .mode v).modeWord = v ||| (c.modeWord &&& ~~~0x3#64)
    rw [modeWord_put, hv]
  | rbase | ldepth => exact hv.trans BitVec.or_zero.symm
  | nstat => exact narrow 6 (by decide) hv
  | cstat => exact narrow 3 (by decide) hv
  | mqdst => exact narrow 12 (by decide) hv
  | epscl => exact narrow 32 (by decide) hv
  | dlen => exact narrow 8 (by decide) hv
  | epclp | wsstl | mbser => exact BitVec.or_zero.symm
  | chstl k => exact (Tab.get_put_same 0 k.val v c.chstl).trans BitVec.or_zero.symm
  | bkt k =>
    change Tab.get 0 k.val (Tab.put k.val (v &&& 0xFFFFFFFF01FF01FF#64) c.bkt) = v ||| 0#64
    rw [Tab.get_put_same, BitVec.or_zero]
    simpa [csrMask] using hv
  | hctx => exact ((hctxWord_put c v).trans hv).trans BitVec.or_zero.symm
  | guard => exact absurd rfl hguard
  | srseed => exact absurd rfl hseed
  | srctr => exact absurd rfl hctr
  | _ => exact absurd (by simp only [csrMask, BitVec.or_self]; rfl) hw

theorem withMe_me (s : State) (f : Ctx → Ctx) : (withMe s f).me = f s.me := Tab.get_put_same _ _ _ _

/-- A register that a write changes at once is writable and takes the value; the rest of the machine stays, but for the mark
of a new region (R105, R229). -/
theorem csrSet_put {s t : State} {n : CsrName} {v : Word} (hn : n ≠ .guard ∧ n ≠ .srseed ∧ n ≠ .srctr)
    (hv : v &&& ((csrMask n).1 ||| (csrMask n).2) = v) (h : s.csrSet n v = .ok t) :
    (csrMask n).1 ||| (csrMask n).2 ≠ 0#64 ∧
      ∃ b, t = withMe s (fun c => { c with csr := c.csr.put n v, rbNew := b }) := by
  obtain ⟨hguard, hseed, hctr⟩ := hn
  cases n with
  | rbase =>
    have hv' : v &&& 0x87FF07FF#64 = v := hv
    simp only [State.csrSet] at h
    split at h
    · cases h
      exact ⟨by decide, true, by simp only [Csrs.put, hv']; rfl⟩
    · cases h
  | ldepth =>
    have hv' : v &&& 0x7FF#64 = v := hv
    simp only [State.csrSet] at h
    split at h
    · cases h
      exact ⟨by decide, s.me.rbNew, by simp only [Csrs.put, hv']; rfl⟩
    · cases h
  | guard => exact absurd rfl hguard
  | srseed => exact absurd rfl hseed
  | srctr => exact absurd rfl hctr
  | mode | nstat | cstat | mqdst | epscl | epclp | dlen | wsstl | chstl | mbser | bkt | hctx =>
    cases h
    exact ⟨by simp only [csrMask]; decide, s.me.rbNew, rfl⟩
  | _ => cases h

/-- A write that is a result due at the next bundle joins the pending results (R229). -/
theorem resultNext_eq {s : State} {r : Res} (h : s.me.drops r = false) :
    s.resultNext r = withMe s (fun c => { c with pend := c.pend ++ dueNext s r }) := by
  change withMe s (fun c => c.push (c.idx + 1) r false) = _
  simp only [withMe, Ctx.push_keeps _ _ _ _ _ h]
  rfl

/-- A word inside a mask and one outside it, put together and taken apart. -/
theorem masked_or {v y m : Word} (hv : v &&& m = v) (hy : y &&& ~~~m = y) : (v ||| y) &&& m = v ∧ (v ||| y) &&& ~~~m = y := by
  have hout : v &&& ~~~m = 0#64 := by rw [← hv, BitVec.and_assoc]; simp
  have hin : y &&& m = 0#64 := by rw [← hy, BitVec.and_assoc]; simp
  rw [BitVec.and_or_distrib_right, BitVec.and_or_distrib_right, hv, hy, hout, hin]
  exact ⟨BitVec.or_zero, BitVec.zero_or⟩

/-- A write is in the register's bits or due at the next bundle (R226 to R229). -/
theorem csrWriteTakesEffect : CsrWriteTakesEffect := by
  intro s t n v hv h
  refine ⟨fun hguard hseed hctr => ?_, ?_, ?_, ?_⟩
  · have hn : n ≠ .guard ∧ n ≠ .srseed ∧ n ≠ .srctr := ⟨hguard, hseed, hctr⟩
    obtain ⟨hw, b, rfl⟩ := csrSet_put hn hv h
    rw [withMe_me, csrIn_put s _ s.me.csr n v hw hn hv]
    obtain ⟨hin, hout⟩ := masked_or hv (y := if n = .mode then s.csrIn s.me.csr n &&& ~~~((csrMask n).1 ||| (csrMask n).2)
      else 0#64) (by split <;> simp [BitVec.and_assoc])
    exact ⟨hin, hout, rfl⟩
  · rintro rfl; cases h; exact resultNext_eq rfl
  · rintro rfl; cases h; exact resultNext_eq rfl
  · rintro rfl; cases h; exact resultNext_eq rfl

/-! ## The bits and the read-only values of each register (R4, R5, R51, R226, R227, R435) -/

/-- The model's writable bits are those of the spec's tables. -/
theorem csrMask_eq (n : CsrName) : csrMask n = (rwBits n, w1cBits n) := by
  cases n <;> rfl

theorem boolBit_eq (b : Bool) (n : Nat) : boolBit b n = b.toNat * 2 ^ n := by
  cases b <;> simp [boolBit]

/-- MODE's fields at their places (R227, R435). -/
theorem modeWord_eq (v : Csrs) :
    v.modeWord = BitVec.ofNat 64 (v.pri.toNat + v.strict.toNat * 4 + v.priv.toNat * 256 + v.hdl.toNat * 512) := by
  simp only [Csrs.modeWord, boolBit_eq, Nat.reducePow]

/-- HCTX's fields at their places (R227). -/
theorem hctxWord_eq (v : Csrs) : v.hctxWord = BitVec.ofNat 64 (v.hctxC.toNat + v.hctxV.toNat * 256) := by
  simp only [Csrs.hctxWord, boolBit_eq, Nat.reducePow]

/-- GUARD reads b0 as 1 (R226). -/
theorem guardWord_eq : ∀ b : BitVec 8, (b ||| 1#8).setWidth 64 = BitVec.ofNat 64 (b.toNat / 2 * 2 + 1) := by decide

/-- What the launch's registers give (R5, R226). -/
theorem csrIn_of_launch {s : State} {v : Csrs} {k : Nat} {l : Launch} (h : s.launchOn (coreOf s.cur) = some (k, l)) :
    s.csrIn v .lcid = BitVec.ofNat 64 (l.vclOf (clusterOf s.cur) * 32 + s.cur % 32) ∧
      s.csrIn v .occ = BitVec.ofNat 64 (l.req.countP (fun p => p.2.act)) ∧ s.csrIn v .codebase = l.codebase := by
  refine ⟨?_, ?_, ?_⟩
  · simp only [State.csrIn, State.lcid, h]
  · simp only [State.csrIn, h, Launch.occ, List.countP_eq_length_filter]
  · simp only [State.csrIn, h]

/-- A register that is not privileged is named by every context. -/
theorem mayName_of_unprivileged {s : State} {n : CsrName} (h : csrPriv n = false) : mayName s n :=
  (mayName_iff s n).2 (by rw [h]; rfl)

/-- The bits of each register and what the read-only ones give (R226, R227). -/
theorem controlRegisterValues : ControlRegisterValues := by
  refine ⟨csrMask_eq, ?_, ?_⟩
  · rintro f s v hr ht rfl
    have unprivd : ∀ {n w}, csrPriv n = false → s.csrIn s.me.view n = w → f.csr = n →
        exec (.csrr f) s = .next (gives s .alu f.d w) :=
      fun hp hw hn => csrr_gives_value hr ht hn (mayName_of_unprivileged hp) hw
    refine ⟨unprivd rfl rfl, unprivd rfl rfl, unprivd rfl (modeWord_eq _), unprivd rfl rfl, unprivd rfl rfl, unprivd rfl rfl,
      unprivd rfl rfl, unprivd rfl (BitVec.ofNat_toNat _ _).symm, unprivd rfl (guardWord_eq _), unprivd rfl rfl, ?_, ?_⟩
    · intro k l hl
      obtain ⟨hlcid, hocc, hbase⟩ := csrIn_of_launch (v := s.me.view) hl
      exact ⟨unprivd rfl hlcid, unprivd rfl hocc, unprivd rfl hbase⟩
    · rintro hpriv h rfl
      have privd : ∀ {n w}, s.csrIn s.me.view n = w → f.csr = n → exec (.csrr f) s = .next (gives s .alu f.d w) :=
        fun hw hn => csrr_gives_value hr ht hn (fun _ => hpriv) hw
      exact ⟨privd (hctxWord_eq _), privd rfl, privd rfl, privd rfl, privd rfl⟩
  · intro f s s1 a hg hm hbits
    have hw : (csrMask f.csr).1 ||| (csrMask f.csr).2 = 0#64 := by rw [csrMask_eq]; exact hbits
    exact ⟨csrOp_readOnly csrwValue hg hm hw, csrOp_readOnly csrsValue hg hm hw, csrOp_readOnly csrcValue hg hm hw⟩

/-- Settles O38: the answers of the CSR instructions, the effect of a write register by register, and the values read. -/
theorem controlRegistersAreReadAndWritten : Obligations.ControlRegistersAreReadAndWritten :=
  ⟨csrInstructions, csrWriteTakesEffect, controlRegisterValues⟩

end Sys2Proof.Proofs
end

section
/-! PROOF. LAUNCH reads its binary (R1, R214 to R217, R411, R415, R416): the checks of the header and of the descriptors as
the claims say them, the order of the checks, and the launch or the refusal that they lead to. -/

namespace Sys2Proof.Proofs
open Sys2Proof Sys2Proof.Machine Sys2Proof.Claims

/-! ## A command that begins (R408 to R411) -/

/-- A stream that begins a command acts on its packet in the state with the command in progress. -/
theorem command_of_begins {s t : State} {n op : Nat} {p : BitVec 256} (go : State → BitVec 256 → State)
    (h : Begins s n op t p) : s.command n op go = go t p := by
  obtain ⟨hpower, hrecov, hen, hbusy, -, hst, hpending, hpacket, hop, hok, haligned, rfl⟩ := h
  have hcan : s.canBegin n = true := by
    simp [State.canBegin, Stream.pending, Stream.ring, hpower, hrecov, hen, hbusy, hst, hpending]
  have hop' : pkt p 0 1 = op := hop
  simp [State.command, State.begin, hcan, hpacket, hok, hop', haligned]

/-- A stream that begins a command is enabled. -/
theorem enabled_of_begins {s t : State} {n op : Nat} {p : BitVec 256} (h : Begins s n op t p) : (t.stream n).en = true := by
  obtain ⟨-, -, hen, -, -, -, -, -, -, -, -, rfl⟩ := h
  simpa [State.modStream] using hen

/-! ## A refusal (R411, R416) -/

theorem setByte_streams (s : State) (sp : Space) (a : Nat) (b : Byte) : (s.setByte sp a b).streams = s.streams := by
  rw [State.setByte_frame]

/-- An engine's write changes no stream. -/
theorem engineWrite_streams {s u : State} {part a : Nat} {bs : List Byte} (h : s.engineWrite part a bs = some u) :
    u.streams = s.streams := by
  have stays : ∀ (l : List ((Space × Nat) × Byte)) (s : State),
      (l.foldl (fun s p => s.setByte p.1.1 p.1.2 p.2) s).streams = s.streams := by
    intro l
    induction l with
    | nil => exact fun _ => rfl
    | cons q l ih => exact fun s => (ih _).trans (setByte_streams s q.1.1 q.1.2 q.2)
  obtain ⟨ps, -, rfl⟩ := Option.map_eq_some_iff.1 h
  exact stays _ s

/-- An enabled stream whose command fails stops with the code (R411). -/
theorem stopStream_of_enabled {s : State} {n : Nat} (err : Nat) (h : (s.stream n).en = true) :
    s.stopStream n err = stopped s n err := by
  simp [State.stopStream, stopped, State.modStream, State.unfence, unwaited, h]

theorem field_lt (p : BitVec 256) (o n : Nat) : field p o n < 2 ^ (8 * n) := Nat.mod_lt _ (Nat.two_pow_pos _)

/-- The record of a refused launch, where there is one (R416). -/
theorem writeRecord_refused {t : State} {l : Launch} {p : BitVec 256} (code : Nat)
    (hcpl : l.cpl = BitVec.ofNat 64 (field p 16 8)) (htag : l.ltag = BitVec.ofNat 32 (field p 4 4)) (hstale : l.stale = 0) :
    (t.writeRecord l 2 code).getD t = (if field p 16 8 = 0 then none
      else t.engineWrite l.part (field p 16 8) (natLe 16 (2 + code * 2 ^ 8 + field p 4 4 * 2 ^ 96))).getD t := by
  have hcplNat : (BitVec.ofNat 64 (field p 16 8)).toNat = field p 16 8 := Nat.mod_eq_of_lt (field_lt p 16 8)
  have htagNat : (BitVec.ofNat 32 (field p 4 4)).toNat = field p 4 4 := Nat.mod_eq_of_lt (field_lt p 4 4)
  have hnone : BitVec.ofNat 64 (field p 16 8) = 0#64 ↔ field p 16 8 = 0 := by
    rw [← BitVec.toNat_inj, hcplNat, BitVec.toNat_ofNat, Nat.zero_mod]
  simp only [State.writeRecord, hcpl, hstale, htag, hnone, hcplNat, htagNat, Nat.zero_mul, Nat.add_zero]
  split <;> rfl

/-- A refused launch of an enabled stream writes the record of STATUS 2 and stops its stream with the code (R416). -/
theorem refuse_of_enabled {t : State} {n : Nat} (code : Nat) (p : BitVec 256) (h : (t.stream n).en = true) :
    t.refuse n code p (t.stream n).part = refused t n code p := by
  rw [State.refuse, refused, writeRecord_refused code rfl rfl rfl]
  apply stopStream_of_enabled
  split
  · exact h
  · cases hw : t.engineWrite (t.stream n).part (field p 16 8) (natLe 16 (2 + code * 2 ^ 8 + field p 4 4 * 2 ^ 96)) with
    | none => exact h
    | some u => simpa [State.stream, engineWrite_streams hw] using h

/-! ## LAUNCH (R411, R415) -/

/-- A binary that is refused with a code. -/
theorem launch_refused {n : Fin 16} {s t : State} {p : BitVec 256} {code : Nat} (hb : Begins s n.val 1 t p)
    (hr : t.readBinary (t.stream n.val).part p = .error code) : exec (.launch n) s = .next (refused t n.val code p) := by
  change Host.Outcome.next (s.command n.val 1 _) = _
  rw [command_of_begins _ hb]
  simp only [hr]
  rw [refuse_of_enabled code p (enabled_of_begins hb)]

/-- A binary that its partition never has room for (R415). -/
theorem launch_without_room {n : Fin 16} {s t : State} {p : BitVec 256} {l : Launch} (hb : Begins s n.val 1 t p)
    (hr : t.readBinary (t.stream n.val).part p = .ok l) (hroom : l.place (t.partClusters (t.stream n.val).part) = none) :
    exec (.launch n) s = .next (refused t n.val 0x12 p) := by
  change Host.Outcome.next (s.command n.val 1 _) = _
  rw [command_of_begins _ hb]
  simp only [hr, hroom, Option.isNone_none, if_true]
  rw [refuse_of_enabled 0x12 p (enabled_of_begins hb)]

/-- A binary that passes waits for its place (R415). -/
theorem launch_waits {n : Fin 16} {s t : State} {p : BitVec 256} {l : Launch} (hb : Begins s n.val 1 t p)
    (hr : t.readBinary (t.stream n.val).part p = .ok l) (hroom : l.place (t.partClusters (t.stream n.val).part) ≠ none) :
    exec (.launch n) s = .next { t with
      launchNo := t.launchNo + 1, launches := Tab.put n.val { l with serial := t.launchNo + 1 } t.launches,
      streams := Tab.put n.val { t.stream n.val with st := .wait } t.streams } := by
  have hsome : (l.place (t.partClusters (t.stream n.val).part)).isNone = false := by
    rw [Option.isNone_eq_false_iff, Option.isSome_iff_ne_none]; exact hroom
  change Host.Outcome.next (s.command n.val 1 _) = _
  rw [command_of_begins _ hb]
  simp only [hr, hsome, Bool.false_eq_true, if_false]
  rfl

/-! ## The header's fields (R214, R217, R414) -/

/-- SPSIZE is a power of two in its range. -/
theorem spsize_iff (sp : Nat) : sp = 2 ^ Nat.log2 sp ∧ 4096 ≤ sp ∧ sp ≤ 2 ^ 24 ↔ ∃ k, 12 ≤ k ∧ k ≤ 24 ∧ sp = 2 ^ k := by
  constructor
  · rintro ⟨hpow, hlo, hhi⟩
    refine ⟨Nat.log2 sp, ?_, ?_, hpow⟩
    · exact (Nat.pow_le_pow_iff_right (by decide : 1 < 2)).1 (hpow ▸ hlo : 2 ^ 12 ≤ 2 ^ Nat.log2 sp)
    · exact (Nat.pow_le_pow_iff_right (by decide : 1 < 2)).1 (hpow ▸ hhi : 2 ^ Nat.log2 sp ≤ 2 ^ 24)
  · rintro ⟨k, hlo, hhi, rfl⟩
    refine ⟨by rw [Nat.log2_two_pow], ?_, Nat.pow_le_pow_right (by decide) hhi⟩
    exact (Nat.pow_le_pow_right (by decide) hlo : 2 ^ 12 ≤ 2 ^ k)

/-- The model's check of a header is the claims'. -/
theorem headerOk_iff (h : Nat) : headerOk h = true ↔ HeaderFits h := by
  rw [HeaderFits, ← spsize_iff]
  simp only [headerOk, Bool.and_eq_true, decide_eq_true_eq, beq_iff_eq, bne_iff_ne, List.all_eq_true, List.mem_range, and_assoc]
  exact Iff.rfl

/-! ## The descriptors (R216, R217) -/

theorem descOf_eq_descAt (d : Nat) : descOf d = descAt d := rfl

/-- The reserved bits of a descriptor. -/
theorem descClean_iff (d : Nat) : descClean d = true ↔
    d / 2 ^ 27 % 2 ^ 5 = 0 ∧ d / 2 ^ 44 % 2 ^ 4 = 0 ∧ part' d 6 2 = 0 ∧ part' d 28 4 = 0 := by
  simp only [descClean, Bool.and_eq_true, beq_iff_eq, and_assoc]
  exact Iff.rfl

theorem descAt_chmask_lt (d : Nat) : (descAt d).chmask < 16 := Nat.mod_lt _ (by decide)

/-- The model's walk over a list's pairs is the library's. -/
theorem pairwise_iff {α : Type} (r : α → α → Bool) (l : List α) : pairwise r l = true ↔ l.Pairwise (fun a b => r a b = true) := by
  induction l with
  | nil => simp [pairwise]
  | cons a l ih => simp [pairwise, ih]

/-- What may not clash of two descriptors of one core: context, channels, shares (R217). -/
def Apart (a b : Desc) : Prop :=
  a.ctx ≠ b.ctx ∧ (∀ i, ¬ (a.chmask.testBit i = true ∧ b.chmask.testBit i = true)) ∧
    ∀ q ∈ (sharesOf a).zip (sharesOf b), ¬ (q.1.count ≠ 0 ∧ q.2.count ≠ 0 ∧ q.1.base < q.2.base + q.2.count ∧
      q.2.base < q.1.base + q.1.count)

/-- Two channel masks have no channel in common. -/
theorem channels_disjoint_iff {a b : Nat} (ha : a < 16) :
    BitVec.ofNat 4 a &&& BitVec.ofNat 4 b = 0#4 ↔ ∀ i, ¬ (a.testBit i = true ∧ b.testBit i = true) := by
  have bitAt : ∀ i, i < 4 → (BitVec.ofNat 4 a &&& BitVec.ofNat 4 b).getLsbD i = (a.testBit i && b.testBit i) := by
    intro i hi
    rw [BitVec.getLsbD_and, BitVec.getLsbD_ofNat, BitVec.getLsbD_ofNat]
    simp only [hi, decide_true, Bool.true_and]
  have low : ∀ i, a.testBit i = true → i < 4 := fun i hi =>
    (Nat.pow_lt_pow_iff_right (by decide : 1 < 2)).1 (Nat.lt_of_le_of_lt (Nat.ge_two_pow_of_testBit hi) ha)
  constructor
  · rintro h i ⟨hai, hbi⟩
    have hbit := bitAt i (low i hai)
    rw [h, hai, hbi] at hbit
    simp at hbit
  · intro h
    refine BitVec.eq_of_getLsbD_eq fun i hi => ?_
    rw [bitAt i hi, BitVec.getLsbD_zero, Bool.and_eq_false_iff]
    simpa only [Decidable.not_and_iff_or_not, Bool.not_eq_true] using h i

/-- The model's check of two descriptors of one core is the claims'. -/
theorem apart_iff {a b : Desc} (ha : a.chmask < 16) :
    (a.ctx != b.ctx && (BitVec.ofNat 4 a.chmask &&& BitVec.ofNat 4 b.chmask) == 0#4 &&
      (a.shares.zip b.shares).all (fun p => !p.1.overlaps p.2)) = true ↔ Apart a b := by
  rw [Apart, ← channels_disjoint_iff ha]
  simp only [Bool.and_eq_true, bne_iff_ne, beq_iff_eq, List.all_eq_true, Bool.not_eq_true', ← Bool.not_eq_true,
    Share.overlaps, decide_eq_true_eq, and_assoc]
  exact Iff.rfl

/-- The descriptors of one core fit together (R217). -/
theorem coreOk_iff {ds : List Desc} (hch : ∀ d ∈ ds, d.chmask < 16) :
    coreOk ds = true ↔ (ds.map Desc.vallot).sum ≤ 24 ∧ (ds.filter Desc.owner).length ≤ 1 ∧ ds.Pairwise Apart := by
  simp only [coreOk, Bool.and_eq_true, decide_eq_true_eq, pairwise_iff, ← List.sum_eq_foldl]
  rw [and_assoc]
  refine and_congr_right fun _ => and_congr_right fun _ => List.Pairwise.iff_of_mem fun ha _ => ?_
  simpa only [Bool.and_eq_true] using apart_iff (hch _ ha)

/-- The descriptors of a binary that name one core. -/
def onCore (ds : List Desc) (v k : Nat) : List Desc := ds.filter (fun d => d.vcl == v && d.core == k)

/-- Every two of a list that name one core are apart where the descriptors of every core are. -/
theorem pairwise_noClash_iff (ds : List Desc) : ds.Pairwise NoClash ↔ ∀ d ∈ ds, (onCore ds d.vcl d.core).Pairwise Apart := by
  simp only [onCore, List.pairwise_filter, Bool.and_eq_true, beq_iff_eq]
  constructor
  · intro h d _
    exact h.imp fun hab ⟨hav, hac⟩ ⟨hbv, hbc⟩ => hab (hav.trans hbv.symm) (hac.trans hbc.symm)
  · intro h
    rw [List.pairwise_iff_getElem]
    intro i j hi hj hij hv hc
    exact List.pairwise_iff_getElem.1 (h _ (List.getElem_mem hi)) i j hi hj hij ⟨rfl, rfl⟩ ⟨hv.symm, hc.symm⟩

/-- A bound on the descriptors of a core holds of every core when it holds of those that descriptors name. -/
theorem forall_core_iff (ds : List Desc) (P : List Desc → Prop) (h0 : P []) :
    (∀ d ∈ ds, P (onCore ds d.vcl d.core)) ↔ ∀ v k, P (onCore ds v k) := by
  refine ⟨fun h v k => ?_, fun h d _ => h d.vcl d.core⟩
  cases hl : onCore ds v k with
  | nil => exact h0
  | cons d l =>
    have hd : d ∈ onCore ds v k := by rw [hl]; exact List.mem_cons_self
    simp only [onCore, List.mem_filter, Bool.and_eq_true, beq_iff_eq] at hd
    obtain ⟨hmem, rfl, rfl⟩ := hd
    rw [← hl]
    exact h d hmem

/-- The model's check core by core is the claims' of every two descriptors and of every core's sums. -/
theorem allCoresOk_iff {ds : List Desc} (hch : ∀ d ∈ ds, d.chmask < 16) :
    (∀ d ∈ ds, coreOk (onCore ds d.vcl d.core) = true) ↔ ds.Pairwise NoClash ∧
      ∀ v k, ((onCore ds v k).map Desc.vallot).sum ≤ 24 ∧ ((onCore ds v k).filter Desc.owner).length ≤ 1 := by
  have hcore : ∀ d ∈ ds, (coreOk (onCore ds d.vcl d.core) = true ↔ ((onCore ds d.vcl d.core).map Desc.vallot).sum ≤ 24 ∧
      ((onCore ds d.vcl d.core).filter Desc.owner).length ≤ 1 ∧ (onCore ds d.vcl d.core).Pairwise Apart) :=
    fun d _ => coreOk_iff fun e he => hch e (List.mem_filter.1 he).1
  rw [pairwise_noClash_iff,
    ← forall_core_iff ds (fun l => (l.map Desc.vallot).sum ≤ 24 ∧ (l.filter Desc.owner).length ≤ 1) ⟨by decide, by decide⟩]
  constructor
  · refine fun h => ⟨fun d hd => ?_, fun d hd => ?_⟩
    · obtain ⟨-, -, hpairs⟩ := (hcore d hd).1 (h d hd)
      exact hpairs
    · obtain ⟨hsum, howner, -⟩ := (hcore d hd).1 (h d hd)
      exact ⟨hsum, howner⟩
  · rintro ⟨hpairs, hsums⟩ d hd
    obtain ⟨hsum, howner⟩ := hsums d hd
    exact (hcore d hd).2 ⟨hsum, howner, hpairs d hd⟩

/-- The model's check of the descriptors is the claims'. -/
theorem descriptorsOk_iff (h : Nat) (raw : List Nat) :
    (raw.all descClean && descsOk (part' h 0x20 1) (part' h 0x30 8) (raw.map descOf)) = true ↔ DescriptorsFit h raw := by
  have hch : ∀ d ∈ raw.map descAt, d.chmask < 16 := by
    intro d hd
    obtain ⟨x, -, rfl⟩ := List.mem_map.1 hd
    exact descAt_chmask_lt x
  rw [DescriptorsFit, funext descOf_eq_descAt]
  generalize raw.map descAt = ds at hch ⊢
  have hfilter : ∀ v k, (ds.filter (fun d => decide (d.vcl = v ∧ d.core = k))) = onCore ds v k := by
    intro v k
    refine List.filter_congr fun d _ => Bool.eq_iff_iff.2 ?_
    simp only [Bool.and_eq_true, beq_iff_eq, decide_eq_true_eq]
  have howner : ∀ v k, ds.filter (fun d => decide (d.vcl = v ∧ d.core = k) && d.owner) = (onCore ds v k).filter Desc.owner := by
    intro v k
    rw [← hfilter, List.filter_filter]
    simp only [Bool.and_comm]
  simp only [hfilter, howner, descsOk, Bool.and_eq_true, List.all_eq_true, decide_eq_true_eq, descClean_iff, and_assoc]
  exact and_congr_right fun _ => and_congr_right fun _ => allCoresOk_iff hch

/-! ## The checks in their order (R217, R411)

`State.readBinary` is opened by `delta`: its equation lemma, which `simp` and `rw` would make first, is too costly to make. -/

theorem field_eq_pkt (p : BitVec 256) (o n : Nat) : field p o n = pkt p o n := rfl
theorem part'_eq_bits (h o n : Nat) : part' h o n = bits h (8 * o) (8 * n) := rfl

/-- The numbers of the descriptors in the bytes `db` behind a header `h` (R216). -/
def rawDescs (h : Nat) (db : List Byte) : List Nat :=
  (List.range (part' h 0x22 2)).map (fun i => leNat ((db.drop (32 * i)).take 32))

/-- What descriptors that can be read lead to: a launch, or the refusal with 0x11. -/
def launchOfDescs (part : Nat) (p : BitVec 256) (h : Nat) (raw : List Nat) : Except Nat Launch :=
  if (raw.all descClean && descsOk (part' h 0x20 1) (part' h 0x30 8) (raw.map descOf)) = true then
    .ok (newLaunch part p h raw)
  else .error 0x11

/-- A header that cannot be read. -/
theorem readBinary_unreadable {s : State} {part : Nat} {p : BitVec 256} (hread : s.engineRead part (field p 8 8) 64 = none) :
    s.readBinary part p = .error 0x13 := by
  rw [field_eq_pkt] at hread
  delta State.readBinary
  simp only [hread]

/-- A header that is not this machine's. -/
theorem readBinary_foreign {s : State} {part : Nat} {p : BitVec 256} {b : List Byte}
    (hread : s.engineRead part (field p 8 8) 64 = some b)
    (hforeign : ¬ (part' (leNat b) 0 4 = 0x5856575A ∧ part' (leNat b) 4 2 = 2 ∧ part' (leNat b) 6 2 = 0)) :
    s.readBinary part p = .error 0x10 := by
  rw [Decidable.not_and_iff_or_not, Decidable.not_and_iff_or_not] at hforeign
  simp only [field_eq_pkt, part'_eq_bits, -Nat.reduceMul] at hread hforeign
  delta State.readBinary
  simp only [hread, hforeign, ne_eq, if_true, -Nat.reduceMul]

/-- A header of this machine: its fields are checked, then the descriptors are read and checked. -/
theorem readBinary_ours {s : State} {part : Nat} {p : BitVec 256} {b : List Byte}
    (hread : s.engineRead part (field p 8 8) 64 = some b) (hmagic : part' (leNat b) 0 4 = 0x5856575A)
    (hversion : part' (leNat b) 4 2 = 2) (hzero : part' (leNat b) 6 2 = 0) :
    s.readBinary part p =
      if headerOk (leNat b) = true then
        (s.engineRead part (field p 8 8 + 64) (32 * part' (leNat b) 0x22 2)).elim (.error 0x13)
          (fun db => launchOfDescs part p (leNat b) (rawDescs (leNat b) db))
      else .error 0x11 := by
  simp only [field_eq_pkt, part'_eq_bits, -Nat.reduceMul] at hread hmagic hversion hzero ⊢
  delta State.readBinary
  simp only [hread, hmagic, hversion, hzero, ne_eq, not_true_eq_false, or_self, if_false, -Nat.reduceMul]
  cases headerOk (leNat b) with
  | false => rfl
  | true =>
    cases s.engineRead part (pkt p 8 8 + 64) (32 * bits (leNat b) (8 * 0x22) (8 * 2)) with
    | none => rfl
    | some db =>
      simp only [Bool.not_true, Bool.false_eq_true, if_false, if_true, Option.elim_some, launchOfDescs, Bool.not_eq_true',
        ← Bool.not_eq_true, ite_not, -Nat.reduceMul]
      rfl

/-- Settles O23: a command that begins goes by what its binary gives, and the binary by its checks in order. -/
theorem launchReadsItsBinary : Obligations.LaunchReadsItsBinary := by
  refine ⟨fun n s t p hb => ⟨fun _ => launch_refused hb, fun l hl => ⟨launch_without_room hb hl, launch_waits hb hl⟩⟩,
    fun s part p => ⟨readBinary_unreadable, ?_⟩⟩
  rintro b h hread rfl
  refine ⟨readBinary_foreign hread, fun hmagic hversion hzero => ?_⟩
  rw [readBinary_ours hread hmagic hversion hzero, ← headerOk_iff]
  refine ⟨fun hbad => if_neg hbad, fun hok => ?_⟩
  rw [if_pos hok]
  refine ⟨fun hdesc => by rw [hdesc]; rfl, ?_⟩
  rintro db raw hdesc rfl
  rw [hdesc, ← descriptorsOk_iff]
  exact ⟨fun hbad => if_neg hbad, fun hfit => if_pos hfit⟩

end Sys2Proof.Proofs
end
